-- ==== Sys2Proof/Word.lean ====
section
/-! DEFINITION. The word types of the Kryfel K7 and the sorted association lists ("maps") that hold sparse state.
A map is a list of (key, value) pairs with strictly rising keys; `mget`, `mset` and `mdel` are its only operations. -/
namespace Sys2Proof

/-- A byte of memory (R4). -/
abbrev Byte := BitVec 8
/-- A 32-bit register value. -/
abbrev W32 := BitVec 32
/-- A 64-bit value: a register pair, an address, a program counter, an instruction word. -/
abbrev W64 := BitVec 64
/-- Sparse data by number. -/
abbrev AMap (α : Type) := List (Nat × α)

/-- The entry at key `k`. -/
def mget {α : Type} : AMap α → Nat → Option α
  | [], _ => none
  | (k', v) :: m, k => if k = k' then some v else mget m k

/-- The entry at key `k`, or `dflt` where none is listed. -/
def mgetD {α : Type} (m : AMap α) (k : Nat) (dflt : α) : α := (mget m k).getD dflt

/-- Writes the entry at key `k`, keeping the keys rising. -/
def mset {α : Type} : AMap α → Nat → α → AMap α
  | [], k, v => [(k, v)]
  | (k', v') :: m, k, v =>
    if k < k' then (k, v) :: (k', v') :: m
    else if k = k' then (k, v) :: m
    else (k', v') :: mset m k v

/-- Removes the entry at key `k`. -/
def mdel {α : Type} : AMap α → Nat → AMap α
  | [], _ => []
  | (k', v') :: m, k => if k = k' then m else (k', v') :: mdel m k

/-- The keys rise strictly and all lie above `lo`. -/
def msortedFrom {α : Type} : Nat → AMap α → Bool
  | _, [] => true
  | lo, (k, _) :: m => decide (lo ≤ k) && msortedFrom (k + 1) m

/-- The keys of a map rise strictly. -/
def msorted {α : Type} (m : AMap α) : Bool := msortedFrom 0 m

/-- Applies `g` to every entry. -/
def mmap {α : Type} (g : Nat → α → α) : AMap α → AMap α
  | [] => []
  | (k, v) :: m => (k, g k v) :: mmap g m

/-- Changes the entry at key `k` where there is one. -/
def mmodify {α : Type} (m : AMap α) (k : Nat) (g : α → α) : AMap α :=
  match mget m k with
  | some v => mset m k (g v)
  | none => m

/-- The `n` numbers from `lo` up. -/
def upFrom : Nat → Nat → List Nat
  | _, 0 => []
  | lo, n + 1 => lo :: upFrom (lo + 1) n

/-- Bits [lo+len-1 : lo] of a natural number. -/
def natBits (n lo len : Nat) : Nat := (n >>> lo) % 2 ^ len

/-- The number whose bytes, lowest address first, are `bs` (R4). -/
def leNat : List Byte → Nat
  | [] => 0
  | b :: bs => b.toNat + 256 * leNat bs

/-- The `n` bytes of a number, lowest address first (R4). -/
def leBytes : Nat → Nat → List Byte
  | 0, _ => []
  | n + 1, v => BitVec.ofNat 8 v :: leBytes n (v / 256)

/-- The low 32 bits of a 64-bit value. -/
def lo32 (x : W64) : W32 := x.setWidth 32
/-- The high 32 bits of a 64-bit value. -/
def hi32 (x : W64) : W32 := (x >>> 32).setWidth 32
/-- A pair of registers as a 64-bit value: bits [31:0] in the even register (R30). -/
def pair64 (lo hi : W32) : W64 := lo.setWidth 64 ||| (hi.setWidth 64 <<< 32)
/-- Sign extension of a 32-bit value to 64 bits. -/
def sext64 (x : W32) : W64 := x.signExtend 64
/-- Zero extension of a 32-bit value to 64 bits. -/
def zext64 (x : W32) : W64 := x.setWidth 64

end Sys2Proof
end

