-- ==== Sys2Proof/Config.lean ====
section
/-! DEFINITION. What the manual leaves free. Each constant here has no body: nothing can be proved about its value, so a
claim about the machine holds for every value. A step applies a constant to the operands it depends on, or to the counter
`State.tick`. -/
namespace Sys2Proof

/-- The pick among the results that the error bound of R45 leaves, by function (0 FRCP, 1 FRSQ, 2 FSQRT, 3 FEXP2,
4 FLOG2, 5 FSINP, 6 FCOSP), width and operand bits (log 9). -/
opaque Config.pickResult : Nat → Nat → W64 → Nat

/-- A value of a register that has no defined value (R5, reset "-"), by a name number and the counter (log 1). -/
opaque Config.freeBits : Nat → Nat → W64

/-- The vendor's ECDSA P-521 key, whose hash is fused in Dawn (R420), as the number it is drawn from (log 12). -/
opaque Config.vendorKey : Nat

/-- The device identity key generated at manufacture (R422), as the number it is drawn from (log 12). -/
opaque Config.identityKey : Nat

/-- A draw of the on-chip random source, by the counter: ephemeral keys (R303), signature nonces (R424), the secret of a
context without a tenant key (R425; log 12). -/
opaque Config.random : Nat → Nat

/-- The wrapped image key and GCM tag of a checkpoint image (R307), by image number (log 13). -/
opaque Config.imageWrap : Nat → List Byte

/-- The encrypted body of a checkpoint image (R307), by image number: its bytes by position (log 13). -/
opaque Config.imageBody : Nat → Nat → Byte

/-- The length in 64 KiB units of the image a CHECKPOINT writes (R307), by image number (log 13). -/
opaque Config.imageUnits : Nat → BitVec 32

/-- Whether a wrapped image key is an image's key that the tenant has wrapped again under a context's wrapping key (R308),
by image number (log 13). -/
opaque Config.rewrapped : List Byte → List Byte → Nat → Bool

/-- How many 32-byte sectors of a context with the given memory size have room for race stamps (R12, R271), beyond the
2^19 that every context has (log 19). -/
opaque Config.stampRoom : W32 → Nat

/-- What an instruction writes through the alternative expansion of a kept erratum (R403): from the erratum, the opcode, the
sources a, b and c, and the value that the K7 gives (log 60). -/
opaque Config.erratumValue : W32 → Nat → W64 → W64 → W64 → W64 → W64

/-- The same for a predicate (log 60). -/
opaque Config.erratumPred : W32 → Nat → W64 → W64 → W64 → Bool → Bool

/-- The bytes of the K7's own expansion store at an index (R421; log 17). -/
opaque Config.expansion : Nat → List Byte

/-- Whether another endpoint of the fabric is a K7, whose window R387 lays out (log 12). -/
opaque Config.endpointIsK7 : Nat → Bool

/-- The link key that two devices agree when VFOWN is enabled (R426; log 12). -/
opaque Config.linkKey : Nat → BitVec 12 → BitVec 256

/-- Which register lies at an offset of a control page (R387 gives none): by the numbers of `CtlReg.ofNum` (log 61). -/
opaque Config.controlReg : Nat → Option Nat

/-- What a fabric atomic makes of the old bytes, from its operands `aux` (R383 names no operations; log 62). -/
opaque Config.fabricAtomic : W64 → List Byte → List Byte

/-- Whether the route of an entry of a route table uses a fabric port (R391): it depends on where endpoints stand in the
torus (log 63). -/
opaque Config.routeUses : W64 → Nat → Bool

/-- The Ethernet port and connection that reach the endpoint of a route entry (R390, R391; log 63). -/
opaque Config.ethRoute : W64 → Nat × Nat

end Sys2Proof
end

