-- ==== Sys2Proof/Machine/Fp.lean ====
section
/-! DEFINITION. Numbers and arithmetic (chapter 02): formats (R27, R31, R32), rounding (R35-R38), exact sums and products,
comparison, conversion, and the flags of R50. A finite value is kept exactly as (-1)^neg * m * 2^e. -/
namespace Sys2Proof.Machine

/-- The floating-point formats of R27. -/
inductive FFmt where | f64 | f32 | f16 | bf16 | e4m3 | e5m2 | e2m1
  deriving DecidableEq, Repr

/-- Rounding modes of R35, and RISC-V's nearest with ties away (for the hart). -/
inductive RM where | rn | rz | rd | ru | rmm
  deriving DecidableEq, Repr

/-- The rounding mode that `mod` 0 to 3 names (R35). -/
def RM.ofMod (m : BitVec 4) : RM :=
  match m.toNat with
  | 1 => .rz | 2 => .rd | 3 => .ru | _ => .rn

/-- Flags of R50: nv 0, dz 1, of 2, uf 3, nx 4, af 5. -/
abbrev FFlags := BitVec 6
def flNv : FFlags := 1#6
def flDz : FFlags := 2#6
def flOf : FFlags := 4#6
def flUf : FFlags := 8#6
def flNx : FFlags := 16#6
def flAf : FFlags := 32#6
/-- The flag word `w` where `c` holds. -/
def flIf (c : Bool) (w : FFlags) : FFlags := if c then w else 0#6

def FFmt.mbits : FFmt → Nat
  | .f64 => 52 | .f32 => 23 | .f16 => 10 | .bf16 => 7 | .e4m3 => 3 | .e5m2 => 2 | .e2m1 => 1
def FFmt.ebits : FFmt → Nat
  | .f64 => 11 | .f32 => 8 | .f16 => 5 | .bf16 => 8 | .e4m3 => 4 | .e5m2 => 5 | .e2m1 => 2
def FFmt.bias : FFmt → Int
  | .f64 => 1023 | .f32 => 127 | .f16 => 15 | .bf16 => 127 | .e4m3 => 7 | .e5m2 => 15 | .e2m1 => 1
/-- The place of the sign bit. -/
def FFmt.signBit (f : FFmt) : Nat := f.mbits + f.ebits
/-- The exponent of the smallest normal. -/
def FFmt.emin (f : FFmt) : Int := 1 - f.bias
/-- The largest finite value as m * 2^e (R27). -/
def FFmt.maxFin : FFmt → Nat × Int
  | .f64 => (2 ^ 53 - 1, 971) | .f32 => (2 ^ 24 - 1, 104) | .f16 => (2047, 5) | .bf16 => (255, 120)
  | .e4m3 => (14, 5) | .e5m2 => (7, 13) | .e2m1 => (3, 1)
/-- The bit pattern of the largest finite value, positive. -/
def FFmt.maxBits : FFmt → Nat
  | .f64 => 0x7FEFFFFFFFFFFFFF | .f32 => 0x7F7FFFFF | .f16 => 0x7BFF | .bf16 => 0x7F7F
  | .e4m3 => 0x7E | .e5m2 => 0x7B | .e2m1 => 7
/-- The canonical NaN of R28; E2M1 has none, and a NaN turns into code 0 there (R37). -/
def FFmt.nanBits : FFmt → Nat
  | .f64 => 0x7FF8000000000000 | .f32 => 0x7FC00000 | .f16 => 0x7E00 | .bf16 => 0x7FC0
  | .e4m3 => 0x7F | .e5m2 => 0x7E | .e2m1 => 0
/-- The pattern of +infinity; E4M3 and E2M1 have none. -/
def FFmt.infBits : FFmt → Option Nat
  | .f64 => some 0x7FF0000000000000 | .f32 => some 0x7F800000 | .f16 => some 0x7C00 | .bf16 => some 0x7F80
  | .e5m2 => some 0x7C | .e4m3 => none | .e2m1 => none
/-- `bits` with the sign bit set where `neg`. -/
def FFmt.withSign (f : FFmt) (neg : Bool) (bits : Nat) : Nat := if neg then bits + 2 ^ f.signBit else bits

/-- A decoded value, exact. -/
inductive FV where
  | nan (sig : Bool)
  | inf (neg : Bool)
  | fin (neg : Bool) (m : Nat) (e : Int)
  deriving DecidableEq, Repr

def FV.isNan : FV → Bool | .nan _ => true | _ => false
def FV.isSig : FV → Bool | .nan s => s | _ => false
def FV.isInf : FV → Bool | .inf _ => true | _ => false
def FV.isZero : FV → Bool | .fin _ m _ => m == 0 | _ => false
def FV.neg : FV → Bool | .nan _ => false | .inf n => n | .fin n _ _ => n
def FV.flip : FV → FV | .nan s => .nan s | .inf n => .inf (!n) | .fin n m e => .fin (!n) m e
def FV.abs : FV → FV | .nan s => .nan s | .inf _ => .inf false | .fin _ m e => .fin false m e

/-- Decodes a bit pattern of the format (R27, R28, R31, R32 with `se` = 0). -/
def decodeF (f : FFmt) (bits : Nat) : FV :=
  let neg := bits.testBit f.signBit
  let e := natBits bits f.mbits f.ebits
  let m := natBits bits 0 f.mbits
  let top := 2 ^ f.ebits - 1
  let finite : FV :=
    if e = 0 then .fin neg m (f.emin - f.mbits)
    else .fin neg (m + 2 ^ f.mbits) ((e : Int) - f.bias - f.mbits)
  match f with
  | .e2m1 => finite
  | .e4m3 => if e = top ∧ m = 7 then .nan false else finite
  | _ => if e = top then (if m = 0 then .inf neg else .nan (!(m.testBit (f.mbits - 1)))) else finite

/-- n/d * 2^k as a fraction. -/
def scalePow (n d : Nat) (k : Int) : Nat × Nat :=
  if 0 ≤ k then (n <<< k.toNat, d) else (n, d <<< (-k).toNat)

/-- floor(log2 (n/d)) for n, d > 0. -/
def floorLog2 (n d : Nat) : Int :=
  let l : Int := (n.log2 : Int) - d.log2
  let p := scalePow n d (-l)
  if p.2 ≤ p.1 then l else l - 1

/-- n/d rounded to an integer magnitude under a mode; `neg` is the sign of the value. -/
def roundNat (mode : RM) (neg : Bool) (n d : Nat) : Nat :=
  let q := n / d
  let r := n % d
  let up := match mode with
    | .rn => decide (d < 2 * r) || (decide (2 * r = d) && q % 2 == 1)
    | .rz => false
    | .rd => neg && r != 0
    | .ru => !neg && r != 0
    | .rmm => decide (d ≤ 2 * r) && r != 0
  if up then q + 1 else q

/-- A result: its bit pattern and the flags its rounding raised. -/
structure FRes where
  bits  : Nat
  flags : FFlags
  deriving DecidableEq, Repr

/-- The canonical NaN with the given flags. -/
def nanRes (f : FFmt) (fl : FFlags) : FRes := ⟨f.nanBits, fl⟩

/-- A signed zero; E2M1 results of zero are code 0 (R37). -/
def zeroRes (f : FFmt) (neg : Bool) : FRes :=
  match f with
  | .e2m1 => ⟨0, 0#6⟩
  | _ => ⟨f.withSign neg 0, 0#6⟩

/-- The pattern of k * 2^q, where k is at most 2^(mbits+1) and q is the quantum of k's binade or of the subnormals. -/
def packF (f : FFmt) (neg : Bool) (k : Nat) (q : Int) : Nat :=
  let b := f.mbits
  let (k, q) := if k = 2 ^ (b + 1) then (2 ^ b, q + 1) else (k, q)
  if k < 2 ^ b then f.withSign neg k
  else f.withSign neg (((q + b + f.bias).toNat <<< b) + (k - 2 ^ b))

/-- Whether k * 2^q lies above the largest finite value. -/
def aboveMax (f : FFmt) (k : Nat) (q : Int) : Bool :=
  let (m, e) := f.maxFin
  let a := scalePow k 1 (q - e)
  decide (m * a.2 < a.1)

/-- The result of an overflow (R36, R37): infinity or the largest finite value as IEEE 754 gives by the mode; where the
format has no infinity, or under a saturating conversion, the largest finite value or E4M3's NaN. -/
def overflowRes (f : FFmt) (mode : RM) (sat neg : Bool) : FRes :=
  let fl := flOf ||| flNx
  let toMax := match mode with
    | .rn => false | .rmm => false | .rz => true | .rd => !neg | .ru => neg
  if toMax || sat then ⟨f.withSign neg f.maxBits, fl⟩
  else match f, f.infBits with
    | .e2m1, _ => ⟨f.withSign neg f.maxBits, fl⟩
    | .e4m3, _ => ⟨f.nanBits, fl⟩
    | _, some i => ⟨f.withSign neg i, fl⟩
    | _, none => ⟨f.withSign neg f.maxBits, fl⟩

/-- `RoundTo` of a non-zero finite value (-1)^neg * n/d under rn, rz, rd, ru (R36, R50). -/
def roundFin (f : FFmt) (mode : RM) (sat neg : Bool) (n d : Nat) : FRes :=
  let b : Int := f.mbits
  let e := floorLog2 n d
  let q := max (e - b) (f.emin - b)
  let p := scalePow n d (-q)
  let k := roundNat mode neg p.1 p.2
  let inexact := p.1 % p.2 != 0
  if aboveMax f k q then overflowRes f mode sat neg
  else
    let p' := scalePow n d (-(e - b))
    let k' := roundNat mode neg p'.1 p'.2
    let u := scalePow k' 1 (e - b - f.emin)
    let tiny := decide (u.1 < u.2)
    let fl := flIf inexact flNx ||| flIf (inexact && tiny) flUf
    if k = 0 then ⟨(zeroRes f neg).bits, fl⟩ else ⟨packF f neg k q, fl⟩

/-- m * 2^e as a fraction. -/
def dyad (m : Nat) (e : Int) : Nat × Nat := scalePow m 1 e

/-- `RoundTo` of any exact value (R36): `sat` selects a saturating conversion. -/
def roundV (f : FFmt) (mode : RM) (sat : Bool) : FV → FRes
  | .nan s => match f with
    | .e2m1 => ⟨0, flNv⟩
    | _ => nanRes f (flIf s flNv)
  | .inf neg => match f, f.infBits with
    | .e4m3, _ => if sat then ⟨f.withSign neg f.maxBits, flOf ||| flNx⟩ else ⟨f.nanBits, flNv⟩
    | .e2m1, _ => ⟨f.withSign neg f.maxBits, flOf ||| flNx⟩
    | _, some i => ⟨f.withSign neg i, 0#6⟩
    | _, none => ⟨f.withSign neg f.maxBits, flOf ||| flNx⟩
  | .fin neg m e =>
    if m = 0 then zeroRes f neg
    else let p := dyad m e; roundFin f mode sat neg p.1 p.2

/-- `RoundTo(fmt, rs, x, r)` (R38): stochastic rounding with 16 random bits. -/
def roundRs (f : FFmt) (sat : Bool) (r : BitVec 16) : FV → FRes
  | .fin neg m e =>
    if m = 0 then zeroRes f neg
    else
      let b : Int := f.mbits
      let (n, d) := dyad m e
      let ex := floorLog2 n d
      let q := max (ex - b) (f.emin - b)
      let p := scalePow n d (-q)
      let k0 := p.1 / p.2
      -- a is the value rounded toward zero, at most the largest finite value; u its unit in the last place
      let (mm, me) := f.maxFin
      let big := aboveMax f k0 q
      let k := if big then mm else k0
      let qa := if big then me else q
      let pa := scalePow n d (-qa)
      if pa.1 = k * pa.2 then ⟨(if k = 0 then (zeroRes f neg).bits else packF f neg k qa), 0#6⟩
      else
        let fr := min (2 ^ 16) (((pa.1 - k * pa.2) * 2 ^ 16) / pa.2)
        let up := decide (2 ^ 16 ≤ fr + r.toNat)
        let k' := if up then k + 1 else k
        if up && aboveMax f k' qa then overflowRes f .rn sat neg
        else
          let bits := if k' = 0 then (zeroRes f neg).bits else packF f neg k' qa
          let s := scalePow k' 1 (qa - f.emin)
          ⟨bits, flNx ||| flIf (decide (s.1 < s.2)) flUf⟩
  | v => roundV f .rn sat v

/-! ## Exact sums and products -/

/-- The product of two values and whether it is infinity times zero. A NaN operand gives a quiet NaN. -/
def mulV : FV → FV → FV × Bool
  | .nan _, _ => (.nan false, false)
  | _, .nan _ => (.nan false, false)
  | .inf n, .inf n' => (.inf (n != n'), false)
  | .inf n, .fin n' m _ => if m = 0 then (.nan false, true) else (.inf (n != n'), false)
  | .fin n m _, .inf n' => if m = 0 then (.nan false, true) else (.inf (n != n'), false)
  | .fin n m e, .fin n' m' e' => (.fin (n != n') (m * m') (e + e'), false)

/-- The lowest exponent among the finite terms, starting from `lo`. -/
def minExp : Int → List FV → Int
  | lo, [] => lo
  | lo, .fin _ m e :: ts => minExp (if m = 0 then lo else min lo e) ts
  | lo, _ :: ts => minExp lo ts

/-- The sum of the finite terms in units of 2^lo. -/
def sumUnits (lo : Int) : List FV → Int
  | [] => 0
  | .fin n m e :: ts =>
    let v : Int := ((m <<< (e - lo).toNat : Nat) : Int)
    (if m = 0 then 0 else if n then -v else v) + sumUnits lo ts
  | _ :: ts => sumUnits lo ts

/-- The exact sum of terms: the value, and whether infinities of opposite sign met, which no term that is a NaN leaves them to be
told by (log 105). The sign of an exact zero follows R29 under the mode. -/
def sumV (mode : RM) (ts : List FV) : FV × Bool :=
  if ts.any FV.isNan then (.nan false, false)
  else if ts.any (· == .inf false) && ts.any (· == .inf true) then (.nan false, true)
  else if ts.any (· == .inf false) then (.inf false, false)
  else if ts.any (· == .inf true) then (.inf true, false)
  else
    let lo := minExp 4096 ts
    let s := sumUnits lo ts
    if s = 0 then
      let allNeg := ts.all (fun t => t.isZero && t.neg)
      let allPos := ts.all (fun t => t.isZero && !t.neg)
      (.fin (if allNeg then true else if allPos then false else mode == .rd) 0 0, false)
    else (.fin (decide (s < 0)) s.natAbs lo, false)

/-- Rounds a computed value whose operands had the flags `fl` (nv from signalling NaNs or invalid operations). -/
def finish (f : FFmt) (mode : RM) (v : FV) (inv : Bool) : FRes :=
  match v with
  | .nan _ => nanRes f (flIf inv flNv)
  | v => let r := roundV f mode false v; ⟨r.bits, r.flags ||| flIf inv flNv⟩

/-- a + b (R121). -/
def fAdd (f : FFmt) (mode : RM) (a b : Nat) : FRes :=
  let x := decodeF f a; let y := decodeF f b
  let (v, i) := sumV mode [x, y]
  finish f mode v (i || x.isSig || y.isSig)

/-- a - b (R121). -/
def fSub (f : FFmt) (mode : RM) (a b : Nat) : FRes :=
  let x := decodeF f a; let y := decodeF f b
  let (v, i) := sumV mode [x, y.flip]
  finish f mode v (i || x.isSig || y.isSig)

/-- a * b (R121). -/
def fMul (f : FFmt) (mode : RM) (a b : Nat) : FRes :=
  let x := decodeF f a; let y := decodeF f b
  let (v, i) := mulV x y
  finish f mode v (i || x.isSig || y.isSig)

/-- a * b + c with one rounding (R121). -/
def fFma (f : FFmt) (mode : RM) (a b c : Nat) : FRes :=
  let x := decodeF f a; let y := decodeF f b; let z := decodeF f c
  let (p, i) := mulV x y
  let (v, j) := sumV mode [p, z]
  finish f mode v (i || j || x.isSig || y.isSig || z.isSig)

/-- a / b (R121). -/
def fDiv (f : FFmt) (mode : RM) (a b : Nat) : FRes :=
  let x := decodeF f a; let y := decodeF f b
  let neg := x.neg != y.neg
  let sig := x.isSig || y.isSig
  let inf : Nat := f.withSign neg (f.infBits.getD 0)
  match x, y with
  | .nan _, _ => nanRes f (flIf sig flNv)
  | _, .nan _ => nanRes f (flIf sig flNv)
  | .inf _, .inf _ => nanRes f flNv
  | .inf _, .fin _ _ _ => ⟨inf, 0#6⟩
  | .fin _ _ _, .inf _ => zeroRes f neg
  | .fin _ m e, .fin _ m' e' =>
    if m' = 0 then (if m = 0 then nanRes f flNv else ⟨inf, flDz⟩)
    else if m = 0 then zeroRes f neg
    else let p := scalePow m m' (e - e'); roundFin f mode false neg p.1 p.2

/-! ## Comparison -/

/-- The sign of x - y for values that are no NaN; zeros are equal. -/
def cmpV : FV → FV → Ordering
  | .inf n, .inf n' => if n = n' then .eq else if n then .lt else .gt
  | .inf n, _ => if n then .lt else .gt
  | _, .inf n => if n then .gt else .lt
  | x, y =>
    let s := sumUnits (minExp 4096 [x, y]) [x, y.flip]
    if s < 0 then .lt else if s = 0 then .eq else .gt

/-- FMIN (`max` = false) and FMAX (R122): -0 below +0; the other operand where exactly one is a NaN. -/
def fMinMax (f : FFmt) (mx : Bool) (a b : Nat) : FRes :=
  let x := decodeF f a; let y := decodeF f b
  let fl := flIf (x.isSig || y.isSig) flNv
  if x.isNan && y.isNan then nanRes f fl
  else if x.isNan then ⟨b, fl⟩
  else if y.isNan then ⟨a, fl⟩
  else match cmpV x y with
    | .lt => ⟨if mx then b else a, fl⟩
    | .gt => ⟨if mx then a else b, fl⟩
    | .eq => ⟨if x.neg != mx then a else b, fl⟩

/-- The comparison of R123: its truth and its flags. -/
def fCmp (f : FFmt) (cc : BitVec 4) (a b : Nat) : Bool × FFlags :=
  let x := decodeF f a; let y := decodeF f b
  let un := x.isNan || y.isNan
  let quiet := flIf (x.isSig || y.isSig) flNv
  let o := cmpV x y
  match cc.toNat with
  | 0 => (!un && o == .eq, quiet)
  | 1 => (un || o != .eq, quiet)
  | 2 => (!un && o == .lt, flIf un flNv)
  | 3 => (!un && o != .gt, flIf un flNv)
  | 4 => (!un && o == .gt, flIf un flNv)
  | 5 => (!un && o != .lt, flIf un flNv)
  | 6 => (un, quiet)
  | _ => (!un, quiet)

/-- The class mask of R125. -/
def fClass (f : FFmt) (a : Nat) : Nat :=
  match decodeF f a with
  | .nan s => if s then 2 ^ 8 else 2 ^ 9
  | .inf n => if n then 1 else 2 ^ 7
  | .fin n m _ =>
    let sub := natBits a f.mbits f.ebits == 0
    if m = 0 then (if n then 2 ^ 3 else 2 ^ 4)
    else if sub then (if n then 2 ^ 2 else 2 ^ 5)
    else (if n then 2 else 2 ^ 6)

/-! ## Conversion to and from integers -/

/-- A signed integer as a value. -/
def FV.ofInt (i : Int) : FV := .fin (decide (i < 0)) i.natAbs 0

/-- Float to integer (R37): rounded, saturating to [lo, hi]; NaN gives 0. -/
def toIntSat (mode : RM) (lo hi : Int) : FV → Int × FFlags
  | .nan _ => (0, flNv)
  | .inf n => (if n then lo else hi, flNv)
  | .fin n m e =>
    let p := dyad m e
    let k : Int := roundNat mode n p.1 p.2
    let v := if n then -k else k
    if v < lo then (lo, flNv) else if hi < v then (hi, flNv)
    else (v, flIf (p.1 % p.2 != 0) flNx)

/-- The value rounded to an integral value of the same format (R131, FRND). -/
def fRnd (f : FFmt) (mode : RM) (a : Nat) : FRes :=
  match decodeF f a with
  | .nan s => nanRes f (flIf s flNv)
  | .inf _ => ⟨a, 0#6⟩
  | .fin n m e =>
    if m = 0 then ⟨a, 0#6⟩
    else
      let p := dyad m e
      let k := roundNat mode n p.1 p.2
      let fl := flIf (p.1 % p.2 != 0) flNx
      if k = 0 then ⟨f.withSign n 0, fl⟩ else ⟨(roundFin f .rn false n k 1).bits, fl⟩

/-- a * 2^b rounded to FP32 (R131, SCALEB). Exponents beyond ±1000 give what ±1000 gives. -/
def fScaleb (mode : RM) (a : Nat) (b : Int) : FRes :=
  match decodeF .f32 a with
  | .nan s => nanRes .f32 (flIf s flNv)
  | .inf _ => ⟨a, 0#6⟩
  | .fin n m e =>
    if m = 0 then ⟨a, 0#6⟩
    else
      let k := max (-1000) (min 1000 b)
      let p := dyad m (e + k)
      roundFin .f32 mode false n p.1 p.2

/-- FREXP (R131): the fraction's pattern, the exponent, the flags. -/
def fFrexp (a : Nat) : Nat × Int × FFlags :=
  match decodeF .f32 a with
  | .nan s => (FFmt.nanBits .f32, 0, flIf s flNv)
  | .inf _ => (a, 0, 0#6)
  | .fin n m e =>
    if m = 0 then (a, 0, 0#6)
    else
      let x : Int := (m.log2 : Int) + 1
      let p := dyad m (-x)
      ((roundFin .f32 .rn false n p.1 p.2).bits, e + x, 0#6)

/-- The decoded product of a block-scaled element (R33, R34): `code` its pattern, `scale` the block's scale word. -/
def decodeScaled (f : FFmt) (code : Nat) (scale : W32) : FV :=
  let s := scale.toNat
  let xs := natBits s 0 8
  let fs := decodeF .e4m3 (natBits s 16 8)
  let se := natBits s 24 1
  let c := if f == .e2m1 && code == 8 && se == 1 then decodeF .e4m3 (natBits s 8 8) else decodeF f code
  if xs == 0xFF || fs.isNan then .nan false
  else if fs.isZero then (if c.isNan then .nan false else .fin (c.neg != fs.neg) 0 0)
  else match (mulV c fs).1 with
    | .fin n m e => .fin n m (e + (xs : Int) - 127)
    | v => v

/-! ## Transcendentals (R45, R46) -/

/-- floor(sqrt n), one bit of the root at a time, from bit `k` down. -/
def isqrtFrom : Nat → Nat → Nat → Nat
  | 0, _, r => r
  | k + 1, n, r =>
    let r' := r + 2 ^ k
    if r' * r' ≤ n then isqrtFrom k n r' else isqrtFrom k n r
/-- floor(sqrt n). -/
def isqrt (n : Nat) : Nat := isqrtFrom (n.log2 / 2 + 1) n 0

/-- The patterns within `u` units in the last place (of the exact result's binade, R45) of a value known to be lo/d, or to
lie strictly between lo/d and hi/d, both positive and in one binade: from ordinals around the lower end. -/
def candidates (f : FFmt) (u : Nat) (lo hi d : Nat) : List Nat :=
  let b : Int := f.mbits
  let e := floorLog2 lo d
  let q := max (e - b) (f.emin - b)
  let (sn, sd) := scalePow (u * d) 1 q        -- u ulps in units of 1/d is sn/sd
  let base := (roundFin f .rz false false lo d).bits
  let ok (bits : Nat) : Bool :=
    match decodeF f bits with
    | .fin _ m e' =>
      let (cn, cd) := scalePow (m * d) 1 e'    -- the candidate in units of 1/d is cn/cd
      let least := if lo = hi then lo * cd * sd else lo * cd * sd + 1
      decide (least ≤ cn * sd + sn * cd) && decide (cn * sd + least ≤ hi * cd * sd + sn * cd + lo * cd * sd)
    | _ => false
  (upFrom (base - 4) 10).filter ok

/-- The result picked among the candidates for a non-zero magnitude in [lo/d, hi/d], inexact; above the range it is
infinity. `op` and `key` name the free pick (log 9). -/
def pickWithin (f : FFmt) (u : Nat) (op : Nat) (key : W64) (neg : Bool) (lo hi d : Nat) : FRes :=
  if f.maxFin.2 + f.mbits + 1 ≤ floorLog2 lo d then
    ⟨f.withSign neg (f.infBits.getD 0), flOf ||| flNx⟩
  else
    let cs := candidates f u lo hi d
    let top := (roundFin f .ru false false hi d)
    let cs := if top.bits = f.infBits.getD 0 then cs ++ [top.bits] else cs
    let bits := cs.getD (Config.pickResult op f.mbits key % cs.length) (roundFin f .rn false false lo d).bits
    let isInf := bits = f.infBits.getD 0
    let tiny := bits < 2 ^ f.mbits
    ⟨f.withSign neg bits, flNx ||| flIf isInf flOf ||| flIf tiny flUf⟩

/-- FRCP (R45, R46). -/
def fRcp (f : FFmt) (a : Nat) : FRes :=
  match decodeF f a with
  | .nan s => nanRes f (flIf s flNv)
  | .inf n => zeroRes f n
  | .fin n m e =>
    if m = 0 then ⟨f.withSign n (f.infBits.getD 0), flDz⟩
    else
      let p := scalePow 1 m (-e)
      let r := roundFin f .rz false n p.1 p.2
      if r.flags = 0#6 then r else pickWithin f 1 0 (BitVec.ofNat 64 a) n p.1 p.1 p.2

/-- The square root of m*2^e (m > 0) as lo/d with lo² ≤ m·2^e·d² < (lo+1)², and whether it is exact. -/
def rootParts (m : Nat) (e : Int) : Nat × Nat × Bool :=
  let odd := e % 2 ≠ 0
  let m := if odd then m * 2 else m
  let h := (if odd then e - 1 else e) / 2        -- m * 2^(2h)
  let s := isqrt (m <<< 256)                     -- sqrt(m) * 2^128
  let p := scalePow s (2 ^ 128) h
  (p.1, p.2, s * s == m <<< 256)

/-- FSQRT (R45, R46). -/
def fSqrt (f : FFmt) (a : Nat) : FRes :=
  match decodeF f a with
  | .nan s => nanRes f (flIf s flNv)
  | .inf n => if n then nanRes f flNv else ⟨a, 0#6⟩
  | .fin n m e =>
    if m = 0 then ⟨a, 0#6⟩
    else if n then nanRes f flNv
    else
      let (lo, d, ex) := rootParts m e
      let r := roundFin f .rz false false lo d
      if ex && r.flags = 0#6 then r
      else pickWithin f 1 2 (BitVec.ofNat 64 a) false lo (if ex then lo else lo + 2 ^ (max 0 (e / 2)).toNat) d

/-- FRSQ (R45, R46). -/
def fRsq (f : FFmt) (a : Nat) : FRes :=
  match decodeF f a with
  | .nan s => nanRes f (flIf s flNv)
  | .inf n => if n then nanRes f flNv else ⟨0, 0#6⟩
  | .fin n m e =>
    if m = 0 then ⟨f.withSign n (f.infBits.getD 0), flDz⟩
    else if n then nanRes f flNv
    else
      let (lo, d, ex) := rootParts m e
      let hi := if ex then lo else lo + 2 ^ (max 0 (e / 2)).toNat
      -- 1/sqrt lies in [d/hi, d/lo]; over the common denominator hi*lo
      let r := roundFin f .rz false false d lo
      if ex && r.flags = 0#6 then r
      else pickWithin f 1 1 (BitVec.ofNat 64 a) false (d * lo) (d * hi) (hi * lo)

/-- 2^(-1), 2^(-2), … of the bits of a fraction x/2^160: the product of the chosen powers, in units of 2^-160. -/
def exp2Bits : Nat → Nat → Nat → Nat → Nat
  | 0, _, _, acc => acc
  | k + 1, c, x, acc =>
    let c' := isqrt (c <<< 160)
    if x.testBit k then exp2Bits k c' x ((acc * c') >>> 160) else exp2Bits k c' x acc

/-- FEXP2.f32 (R45, R46). -/
def fExp2 (a : Nat) : FRes :=
  match decodeF .f32 a with
  | .nan s => nanRes .f32 (flIf s flNv)
  | .inf n => if n then ⟨0, 0#6⟩ else ⟨a, 0#6⟩
  | .fin n m e =>
    if m = 0 then ⟨0x3F800000, 0#6⟩
    else
      let p := dyad m e
      let whole := p.1 / p.2
      if whole ≥ 200 then
        if n then ⟨0, flUf ||| flNx⟩ else ⟨0x7F800000, flOf ||| flNx⟩
      else
        let exact := p.1 % p.2 == 0
        -- x = i + fr/2^160 with 0 ≤ fr < 2^160
        let fx : Int := ((p.1 <<< 160) / p.2 : Nat)
        let x : Int := if n then -fx else fx
        let i := x.fdiv (2 ^ 160)
        let fr := (x.fmod (2 ^ 160)).toNat
        if exact then
          let q := scalePow 1 1 i
          if i < -149 then
            (if i < -150 then ⟨0, flUf ||| flNx⟩ else pickWithin .f32 2 3 (BitVec.ofNat 64 a) false q.1 q.1 q.2)
          else roundFin .f32 .rn false false q.1 q.2
        else if i < -150 then ⟨0, flUf ||| flNx⟩
        else
          let v := exp2Bits 160 (2 ^ 161) fr (2 ^ 160)
          -- 2^x lies between 2^i and 2^(i+1)
          let l := scalePow (max (v - 2 ^ 12) (2 ^ 160)) (2 ^ 160) i
          let h := scalePow (min (v + 2 ^ 12) (2 ^ 161)) (2 ^ 160) i
          pickWithin .f32 2 3 (BitVec.ofNat 64 a) false l.1 h.1 l.2

/-- The first `k` fraction bits of log2 y, y in [1, 2) in units of 2^-320. -/
def log2Bits : Nat → Nat → Nat → Nat
  | 0, _, acc => acc
  | k + 1, y, acc =>
    let y2 := (y * y) >>> 320
    if 2 ^ 321 ≤ y2 then log2Bits k (y2 / 2) (2 * acc + 1) else log2Bits k y2 (2 * acc)

/-- FLOG2.f32 (R45, R46). -/
def fLog2 (a : Nat) : FRes :=
  match decodeF .f32 a with
  | .nan s => nanRes .f32 (flIf s flNv)
  | .inf n => if n then nanRes .f32 flNv else ⟨a, 0#6⟩
  | .fin n m e =>
    if m = 0 then ⟨0xFF800000, flDz⟩
    else if n then nanRes .f32 flNv
    else
      let l := m.log2
      let i : Int := e + l
      if m = 2 ^ l then roundV .f32 .rn false (FV.ofInt i)
      else
        let fr := log2Bits 96 (m <<< (320 - l)) 0
        -- the value lies in [i + fr/2^96, i + (fr+2)/2^96]
        let lo : Int := i * 2 ^ 96 + fr
        let hi : Int := lo + 2
        if 0 < lo then pickWithin .f32 2 4 (BitVec.ofNat 64 a) false lo.toNat hi.toNat (2 ^ 96)
        else pickWithin .f32 2 4 (BitVec.ofNat 64 a) true (-hi).toNat (-lo).toNat (2 ^ 96)

/-- floor(pi * 2^256). -/
def piScaled : Nat := 0x3243f6a8885a308d313198a2e03707344a4093822299f31d0082efa98ec4e6c89

/-- The sum of (-1)^k z^k/(2k+1)! from term `k` on, with `t` the current term, in units of 2^-256. -/
def sinTerms : Nat → Nat → Nat → Nat → Int → Int
  | 0, _, _, _, acc => acc
  | k + 1, i, z, t, acc =>
    let t' := ((t * z) >>> 256) / ((2 * i + 2) * (2 * i + 3))
    sinTerms k (i + 1) z t' (acc + (if i % 2 == 0 then -(t' : Int) else (t' : Int)))

/-- sin(pi*r) for 0 < r = n/d ≤ 1/2, as bounds lo/d', hi/d'. -/
def sinBounds (n d : Nat) : Nat × Nat × Nat :=
  let t := n * piScaled / d                      -- pi*r in units of 2^-256
  let z := (t * t) >>> 256
  let s := (sinTerms 40 0 z (2 ^ 256) (2 ^ 256)).toNat
  (n * piScaled * (s - 2 ^ 12), n * (piScaled + 1) * (s + 2 ^ 12), d * 2 ^ 512)

/-- sin(pi*x) (`cos` = false) or cos(pi*x) (R45, R46). -/
def fSinCos (cos : Bool) (a : Nat) : FRes :=
  match decodeF .f32 a with
  | .nan s => nanRes .f32 (flIf s flNv)
  | .inf _ => nanRes .f32 flNv
  | .fin n m e =>
    let p := dyad m e
    let w := p.1 / p.2                            -- |x| = w + r/d
    let r := p.1 % p.2
    let d := p.2
    let odd := w % 2 == 1
    if r = 0 then
      if cos then ⟨if odd then 0xBF800000 else 0x3F800000, 0#6⟩ else zeroRes .f32 n
    else if 2 * r = d then
      -- x = k + 0.5: sin is (-1)^k with k = w for x > 0 and k = -(w+1) for x < 0; cos is +0
      if cos then ⟨0, 0#6⟩ else ⟨if odd != n then 0xBF800000 else 0x3F800000, 0#6⟩
    else
      let key := BitVec.ofNat 64 a
      if cos then
        -- cos(pi*|x|) = (-1)^w cos(pi*r/d)
        let small := 2 * r < d
        let (lo, hi, dd) := sinBounds (if small then d - 2 * r else 2 * r - d) (2 * d)
        -- the magnitude is below 1
        pickWithin .f32 2 6 key (odd != !small) lo (min hi dd) dd
      else
        let rr := if 2 * r < d then r else d - r
        let (lo, hi, dd) := sinBounds rr d
        pickWithin .f32 2 5 key (odd != n) lo hi dd

end Sys2Proof.Machine
end

