-- ==== Sys2Proof/Syntax.lean ====
section
/-! DEFINITION. The instructions of the Kryfel K7: operand fields, the RISC-V words of a hart, the arguments of events
and register writes, and `Instr`, one constructor for each row of the opcode table. Vector words carry their fields as
`Fields`; whether the fields are allowed is `Instr.wf` (R64), which the machine checks when the slot issues. -/
namespace Sys2Proof

/-- An operand field of 9 bits by its level (R61). The index is kept whole, so a reserved index is still a field. -/
inductive Operand where
  | main    (i : BitVec 7)   -- level 0b00: v0 to v127
  | opf     (i : BitVec 7)   -- level 0b01: o0 to o15
  | latch   (i : BitVec 7)   -- level 0b10: l0, l1
  | special (i : BitVec 7)   -- level 0b11: R61's table
  deriving DecidableEq, Repr

/-- The fields of an instruction word (R60), the opcode apart. -/
structure Fields where
  ahd : BitVec 4
  d   : Operand
  a   : Operand
  b   : Operand
  c   : Operand
  lr  : BitVec 3
  pn  : Bool
  pi  : BitVec 3
  pe  : Bool
  mod : BitVec 4
  deriving DecidableEq, Repr

/-- The fields of a REP word (R71); `res` holds its reserved bits [63:41], [24:22] and [15:12]. -/
structure RepFields where
  sc  : BitVec 4
  sb  : BitVec 4
  sa  : BitVec 4
  sd  : BitVec 4
  rc  : BitVec 6
  res : BitVec 30
  deriving DecidableEq, Repr

/-- The conditions of RISC-V branches. -/
inductive RvBr where | eq | ne | lt | ge | ltu | geu
  deriving DecidableEq, Repr

/-- The integer operations of RV64I. -/
inductive RvAlu where | add | sub | sll | slt | sltu | xor | srl | sra | or | and
  deriving DecidableEq, Repr

/-- The operations of the M extension. -/
inductive RvMul where | mul | mulh | mulhsu | mulhu | div | divu | rem | remu
  deriving DecidableEq, Repr

/-- The operations of AMO words. -/
inductive RvAmo where | swap | add | xor | and | or | min | max | minu | maxu
  deriving DecidableEq, Repr

/-- The two-operand floating-point operations of F and D. -/
inductive RvFp where | add | sub | mul | div | sgnj | sgnjn | sgnjx | min | max
  deriving DecidableEq, Repr

/-- The floating-point comparisons of F and D. -/
inductive RvFcmp where | le | lt | eq
  deriving DecidableEq, Repr

/-- The integer side of a floating-point conversion. -/
inductive RvInt where | w | wu | l | lu
  deriving DecidableEq, Repr

/-- One ordinary RV64GC word of a hart (R251), its ecall and Xkf words apart. `dbl` marks 64-bit or double forms,
`ord` holds rl and aq, `pred` and `succ` the bits i, o, r, w.
PRESUMED: the ratified RV64GC user ISA, which the manual names and does not restate (log 15). -/
inductive RvInstr where
  | lui (rd : BitVec 5) (imm : W64)
  | auipc (rd : BitVec 5) (imm : W64)
  | jal (rd : BitVec 5) (off : W64)
  | jalr (rd rs1 : BitVec 5) (off : W64)
  | branch (c : RvBr) (rs1 rs2 : BitVec 5) (off : W64)
  | load (w : BitVec 3) (rd rs1 : BitVec 5) (off : W64)
  | store (w : BitVec 2) (rs1 rs2 : BitVec 5) (off : W64)
  | opImm (o : RvAlu) (rd rs1 : BitVec 5) (imm : W64)
  | opImmW (o : RvAlu) (rd rs1 : BitVec 5) (imm : W64)
  | op (o : RvAlu) (rd rs1 rs2 : BitVec 5)
  | opW (o : RvAlu) (rd rs1 rs2 : BitVec 5)
  | mulDiv (o : RvMul) (rd rs1 rs2 : BitVec 5)
  | mulDivW (o : RvMul) (rd rs1 rs2 : BitVec 5)
  | fence (pred succ : BitVec 4)
  | fenceI
  | ebreak
  | csr (f : BitVec 3) (rd rs1 : BitVec 5) (n : BitVec 12)
  | lr (ord : BitVec 2) (dbl : Bool) (rd rs1 : BitVec 5)
  | sc (ord : BitVec 2) (dbl : Bool) (rd rs1 rs2 : BitVec 5)
  | amo (o : RvAmo) (ord : BitVec 2) (dbl : Bool) (rd rs1 rs2 : BitVec 5)
  | fload (dbl : Bool) (rd rs1 : BitVec 5) (off : W64)
  | fstore (dbl : Bool) (rs1 rs2 : BitVec 5) (off : W64)
  | fmadd (negProd negAdd dbl : Bool) (rm : BitVec 3) (rd rs1 rs2 rs3 : BitVec 5)
  | farith (o : RvFp) (dbl : Bool) (rm : BitVec 3) (rd rs1 rs2 : BitVec 5)
  | fsqrt (dbl : Bool) (rm : BitVec 3) (rd rs1 : BitVec 5)
  | fcmp (o : RvFcmp) (dbl : Bool) (rd rs1 rs2 : BitVec 5)
  | fclass (dbl : Bool) (rd rs1 : BitVec 5)
  | fcvtToInt (dbl : Bool) (k : RvInt) (rm : BitVec 3) (rd rs1 : BitVec 5)
  | fcvtFromInt (dbl : Bool) (k : RvInt) (rm : BitVec 3) (rd rs1 : BitVec 5)
  | fcvtWidth (toDbl : Bool) (rm : BitVec 3) (rd rs1 : BitVec 5)
  | fmvToX (dbl : Bool) (rd rs1 : BitVec 5)
  | fmvFromX (dbl : Bool) (rd rs1 : BitVec 5)
  | illegal
  deriving DecidableEq, Repr

/-- A binary tree over ranks: the order in which an open-level collective combines an element (R182). -/
inductive RTree where
  | leaf (r : Nat)
  | node (l r : RTree)
  deriving DecidableEq, Repr

/-- A firmware image with its signature (R420). -/
structure SignedImage where
  bytes : List Byte
  sig   : List Byte
  deriving DecidableEq, Repr

/-- What firmware loads into a decode-table bank (R399-R400, R421): the entries that differ from the K7 decode,
BANKINFO's `gen` and `nkept`, the BANKERR words, the expansion store by index, the image's signature, and whether the
hashes of all dies agreed. -/
structure BankImage where
  entries : AMap W32
  gen     : BitVec 16
  nkept   : BitVec 3
  errs    : List W32
  store   : AMap (List Byte)
  sig     : List Byte
  agree   : Bool
  deriving DecidableEq, Repr

/-- A fabric packet as received (R383): the header's fields and the payload bytes. `sealOk` is the outcome of its
AES-256-GCM tag check (R426). -/
structure FabricPacket where
  e2e    : W32
  tag    : BitVec 16
  addr   : BitVec 56
  vf     : BitVec 6
  ptyp   : BitVec 4
  nfl    : BitVec 4
  cls    : BitVec 2
  src    : BitVec 15
  dst    : BitVec 15
  res    : BitVec 42
  aux    : W64
  data   : List Byte
  sealOk : Bool
  deriving DecidableEq, Repr

/-- A frame of the reliable transport (R395): an acknowledgement of a packet number, or data carrying one. -/
inductive EthFrame where
  | ack  (n : Nat)
  | data (n : Nat) (bytes : List Byte)
  deriving DecidableEq, Repr

/-- The registers whose writes have no row of their own (REGISTER_WRITE): writable ones and read-only ones. -/
inductive RegName where
  | ctxcmd (vf : Nat) | ctxarg (vf : Nat) | ctxstat (vf : Nat)
  | pfqbase (vf : Nat) | pfqctl (vf : Nat) | pfqprod (vf : Nat)
  | pgcmd (cid : Nat) | pgarg (cid : Nat) | pgstat (cid : Nat)
  | fqprod (cid : Nat)
  | qbase (cid q : Nat) | qctl (cid q : Nat) | qread (cid q : Nat) | qstat (cid q : Nat)
  | notifyReserved (cid off : Nat)
  | rlcfg (vf : Nat) | apbase (cid : Nat)
  | ethMac (port : Nat) | ethIp (port : Nat) | ethIpHi (port : Nat) | ethUdp (port : Nat)
  | epid | portstat (port : Nat) | meas (n : Nat)
  | bankEntry (die n op : Nat) | bankinfo (die n : Nat) | bankerr (die n i : Nat)
  | pwrpool (die : Nat) | vfown (vf : Nat)
  | partcfg (vf : Nat) | detmode (vf : Nat)
  deriving DecidableEq, Repr

/-- The instructions, operations and events of the K7: one constructor for each row of the opcode table. -/
inductive Instr where
  /-- NOP (R117). -/
  | nop (f : Fields)
  /-- REP (R71). -/
  | rep (r : RepFields)
  /-- BRA (R110). -/
  | bra (f : Fields)
  /-- BRP (R110). -/
  | brp (f : Fields)
  /-- BRX (R110). -/
  | brx (f : Fields)
  /-- CALL (R110). -/
  | call (f : Fields)
  /-- CALLX (R110). -/
  | callx (f : Fields)
  /-- RET (R110). -/
  | ret (f : Fields)
  /-- CONV (R112). -/
  | convJ (f : Fields)
  /-- JOIN (R113). -/
  | joinJ (f : Fields)
  /-- ELECT (R115). -/
  | elect (f : Fields)
  /-- EXIT (R116). -/
  | exit (f : Fields)
  /-- YIELD (R117). -/
  | yield (f : Fields)
  /-- IADD_I32 (R118). -/
  | iaddI32 (f : Fields)
  /-- IADD_I64 (R118). -/
  | iaddI64 (f : Fields)
  /-- ISUB_I32 (R118). -/
  | isubI32 (f : Fields)
  /-- ISUB_I64 (R118). -/
  | isubI64 (f : Fields)
  /-- IMUL_I32 (R118). -/
  | imulI32 (f : Fields)
  /-- IMULH_I32 (R118). -/
  | imulhI32 (f : Fields)
  /-- IMULH_N32 (R118). -/
  | imulhN32 (f : Fields)
  /-- IMAD_I32 (R118). -/
  | imadI32 (f : Fields)
  /-- IMADW_I64 (R118). -/
  | imadwI64 (f : Fields)
  /-- IMIN_I32 (R118). -/
  | iminI32 (f : Fields)
  /-- IMIN_N32 (R118). -/
  | iminN32 (f : Fields)
  /-- IMAX_I32 (R118). -/
  | imaxI32 (f : Fields)
  /-- IMAX_N32 (R118). -/
  | imaxN32 (f : Fields)
  /-- IABS_I32 (R118). -/
  | iabsI32 (f : Fields)
  /-- INEG_I32 (R118). -/
  | inegI32 (f : Fields)
  /-- ICMP_I32 (R118). -/
  | icmpI32 (f : Fields)
  /-- ICMP_N32 (R118). -/
  | icmpN32 (f : Fields)
  /-- ICMP_I64 (R118). -/
  | icmpI64 (f : Fields)
  /-- ICMP_N64 (R118). -/
  | icmpN64 (f : Fields)
  /-- LEA (R118). -/
  | lea (f : Fields)
  /-- LEA_I64 (R118). -/
  | leaI64 (f : Fields)
  /-- IDIV_I32 (R119). -/
  | idivI32 (f : Fields)
  /-- IDIV_N32 (R119). -/
  | idivN32 (f : Fields)
  /-- IREM_I32 (R119). -/
  | iremI32 (f : Fields)
  /-- IREM_N32 (R119). -/
  | iremN32 (f : Fields)
  /-- IDOT4_I8 (R118). -/
  | idot4I8 (f : Fields)
  /-- IDOT4_N8 (R118). -/
  | idot4N8 (f : Fields)
  /-- IDOT8_I4 (R118). -/
  | idot8I4 (f : Fields)
  /-- ICLAMP_I32 (R118). -/
  | iclampI32 (f : Fields)
  /-- AND (R120). -/
  | and (f : Fields)
  /-- OR (R120). -/
  | or (f : Fields)
  /-- XOR (R120). -/
  | xor (f : Fields)
  /-- ANDN (R120). -/
  | andn (f : Fields)
  /-- NOT (R120). -/
  | not (f : Fields)
  /-- SHL (R120). -/
  | shl (f : Fields)
  /-- SHR (R120). -/
  | shr (f : Fields)
  /-- SAR (R120). -/
  | sar (f : Fields)
  /-- ROTL (R120). -/
  | rotl (f : Fields)
  /-- SHL_I64 (R120). -/
  | shlI64 (f : Fields)
  /-- SHR_I64 (R120). -/
  | shrI64 (f : Fields)
  /-- SAR_I64 (R120). -/
  | sarI64 (f : Fields)
  /-- BFE_N32 (R120). -/
  | bfeN32 (f : Fields)
  /-- BFE_I32 (R120). -/
  | bfeI32 (f : Fields)
  /-- BFI (R120). -/
  | bfi (f : Fields)
  /-- POPC (R120). -/
  | popc (f : Fields)
  /-- CLZ (R120). -/
  | clz (f : Fields)
  /-- BREV (R120). -/
  | brev (f : Fields)
  /-- BPERM (R120). -/
  | bperm (f : Fields)
  /-- FADD_F32 (R121). -/
  | faddF32 (f : Fields)
  /-- FADD_F64 (R121). -/
  | faddF64 (f : Fields)
  /-- FSUB_F32 (R121). -/
  | fsubF32 (f : Fields)
  /-- FSUB_F64 (R121). -/
  | fsubF64 (f : Fields)
  /-- FMUL_F32 (R121). -/
  | fmulF32 (f : Fields)
  /-- FMUL_F64 (R121). -/
  | fmulF64 (f : Fields)
  /-- FFMA_F32 (R121). -/
  | ffmaF32 (f : Fields)
  /-- FFMA_F64 (R121). -/
  | ffmaF64 (f : Fields)
  /-- FDIV_F32 (R121). -/
  | fdivF32 (f : Fields)
  /-- FDIV_F64 (R121). -/
  | fdivF64 (f : Fields)
  /-- FMIN_F32 (R122). -/
  | fminF32 (f : Fields)
  /-- FMIN_F64 (R122). -/
  | fminF64 (f : Fields)
  /-- FMAX_F32 (R122). -/
  | fmaxF32 (f : Fields)
  /-- FMAX_F64 (R122). -/
  | fmaxF64 (f : Fields)
  /-- FCMP_F32 (R123). -/
  | fcmpF32 (f : Fields)
  /-- FCMP_F64 (R123). -/
  | fcmpF64 (f : Fields)
  /-- FRCP_F32 (R124). -/
  | frcpF32 (f : Fields)
  /-- FRCP_F64 (R124). -/
  | frcpF64 (f : Fields)
  /-- FRSQ_F32 (R124). -/
  | frsqF32 (f : Fields)
  /-- FRSQ_F64 (R124). -/
  | frsqF64 (f : Fields)
  /-- FSQRT_F32 (R124). -/
  | fsqrtF32 (f : Fields)
  /-- FSQRT_F64 (R124). -/
  | fsqrtF64 (f : Fields)
  /-- FEXP2_F32 (R124). -/
  | fexp2F32 (f : Fields)
  /-- FLOG2_F32 (R124). -/
  | flog2F32 (f : Fields)
  /-- FSINP_F32 (R124). -/
  | fsinpF32 (f : Fields)
  /-- FCOSP_F32 (R124). -/
  | fcospF32 (f : Fields)
  /-- FCLASS_F32 (R125). -/
  | fclassF32 (f : Fields)
  /-- FCLASS_F64 (R125). -/
  | fclassF64 (f : Fields)
  /-- FABS (R126). -/
  | fabs (f : Fields)
  /-- FNEG (R126). -/
  | fneg (f : Fields)
  /-- FCOPYSIGN (R126). -/
  | fcopysign (f : Fields)
  /-- HADD2_F16 (R127). -/
  | hadd2F16 (f : Fields)
  /-- HADD2_BF16 (R127). -/
  | hadd2Bf16 (f : Fields)
  /-- HMUL2_F16 (R127). -/
  | hmul2F16 (f : Fields)
  /-- HMUL2_BF16 (R127). -/
  | hmul2Bf16 (f : Fields)
  /-- HFMA2_F16 (R127). -/
  | hfma2F16 (f : Fields)
  /-- HFMA2_BF16 (R127). -/
  | hfma2Bf16 (f : Fields)
  /-- HMIN2_F16 (R127). -/
  | hmin2F16 (f : Fields)
  /-- HMIN2_BF16 (R127). -/
  | hmin2Bf16 (f : Fields)
  /-- HMAX2_F16 (R127). -/
  | hmax2F16 (f : Fields)
  /-- HMAX2_BF16 (R127). -/
  | hmax2Bf16 (f : Fields)
  /-- HCMP2_F16 (R127). -/
  | hcmp2F16 (f : Fields)
  /-- HCMP2_BF16 (R127). -/
  | hcmp2Bf16 (f : Fields)
  /-- HDOT2_F16 (R42). -/
  | hdot2F16 (f : Fields)
  /-- HDOT2_BF16 (R42). -/
  | hdot2Bf16 (f : Fields)
  /-- CVT (R129). -/
  | cvt (f : Fields)
  /-- CVTS (R130). -/
  | cvts (f : Fields)
  /-- FRND_F32 (R131). -/
  | frndF32 (f : Fields)
  /-- FRND_F64 (R131). -/
  | frndF64 (f : Fields)
  /-- SCALEB_F32 (R131). -/
  | scalebF32 (f : Fields)
  /-- FREXP_F32 (R131). -/
  | frexpF32 (f : Fields)
  /-- FREXP_EXP_F32 (R131). -/
  | frexpExpF32 (f : Fields)
  /-- PACK2 (R131). -/
  | pack2 (f : Fields)
  /-- UNPK2 (R131). -/
  | unpk2 (f : Fields)
  /-- PACKQ (R131). -/
  | packq (f : Fields)
  /-- RNDC (R132). -/
  | rndc (f : Fields)
  /-- RNDC_W (R132). -/
  | rndcW (f : Fields)
  /-- MOV (R133). -/
  | mov (f : Fields)
  /-- MOVS (R133). -/
  | movs (f : Fields)
  /-- SEL (R133). -/
  | sel (f : Fields)
  /-- PSET (R133). -/
  | pset (f : Fields)
  /-- PMOV_GET (R133). -/
  | pmovGet (f : Fields)
  /-- PMOV_PUT (R133). -/
  | pmovPut (f : Fields)
  /-- PERM (R135). -/
  | perm (f : Fields)
  /-- PERMX (R135). -/
  | permx (f : Fields)
  /-- PERMU (R135). -/
  | permu (f : Fields)
  /-- PERMD (R135). -/
  | permd (f : Fields)
  /-- BCAST (R135). -/
  | bcast (f : Fields)
  /-- VOTE (R136). -/
  | vote (f : Fields)
  /-- BALLOT (R136). -/
  | ballot (f : Fields)
  /-- MATCH (R136). -/
  | matchL (f : Fields)
  /-- SGRED (R137). -/
  | sgred (f : Fields)
  /-- SGSCAN (R137). -/
  | sgscan (f : Fields)
  /-- LD (R145). -/
  | ld (f : Fields)
  /-- ST (R145). -/
  | st (f : Fields)
  /-- LDV (R146). -/
  | ldv (f : Fields)
  /-- STV (R146). -/
  | stv (f : Fields)
  /-- PF (R148). -/
  | pf (f : Fields)
  /-- LDT (R149). -/
  | ldt (f : Fields)
  /-- LDNA (R147). -/
  | ldna (f : Fields)
  /-- STNA (R147). -/
  | stna (f : Fields)
  /-- LDSP (R150). -/
  | ldsp (f : Fields)
  /-- STSP (R150). -/
  | stsp (f : Fields)
  /-- LDSPV (R150). -/
  | ldspv (f : Fields)
  /-- STSPV (R150). -/
  | stspv (f : Fields)
  /-- XST (R151). -/
  | xst (f : Fields)
  /-- XSTV (R151). -/
  | xstv (f : Fields)
  /-- RLD (R152). -/
  | rld (f : Fields)
  /-- ATOM_I32 (R156). -/
  | atomI32 (ord : BitVec 2) (sc : BitVec 3) (f : Fields)
  /-- ATOM_I64 (R156). -/
  | atomI64 (ord : BitVec 2) (sc : BitVec 3) (f : Fields)
  /-- ATOM_F32 (R156). -/
  | atomF32 (ord : BitVec 2) (sc : BitVec 3) (f : Fields)
  /-- ATOMCAS_B32 (R157). -/
  | atomcasB32 (ord : BitVec 2) (sc : BitVec 3) (f : Fields)
  /-- ATOMCAS_B64 (R157). -/
  | atomcasB64 (ord : BitVec 2) (sc : BitVec 3) (f : Fields)
  /-- RED_I32 (R158). -/
  | redI32 (ord : BitVec 2) (sc : BitVec 3) (f : Fields)
  /-- RED_F32 (R158). -/
  | redF32 (ord : BitVec 2) (sc : BitVec 3) (f : Fields)
  /-- WADD_F32 (R160). -/
  | waddF32 (sc : BitVec 3) (f : Fields)
  /-- WADD_F64 (R160). -/
  | waddF64 (sc : BitVec 3) (f : Fields)
  /-- WRD_F64 (R160). -/
  | wrdF64 (sc : BitVec 3) (f : Fields)
  /-- WSET (R160). -/
  | wset (sc : BitVec 3) (f : Fields)
  /-- FENCE (R163). -/
  | fence (sc : BitVec 3) (f : Fields)
  /-- IFENCE (R164). -/
  | ifence (f : Fields)
  /-- IFENCE_CP (R164). -/
  | ifenceCp (f : Fields)
  /-- BAR (R165). -/
  | bar (f : Fields)
  /-- BARA (R165). -/
  | bara (f : Fields)
  /-- BARW (R165). -/
  | barw (f : Fields)
  /-- CBINIT (R168). -/
  | cbinit (f : Fields)
  /-- CBADD (R168). -/
  | cbadd (f : Fields)
  /-- CBWAIT (R168). -/
  | cbwait (f : Fields)
  /-- XBAR (R153). -/
  | xbar (f : Fields)
  /-- LBAR (R169). -/
  | lbar (f : Fields)
  /-- TLWAIT (R170). -/
  | tlwait (f : Fields)
  /-- TLREAD (R170). -/
  | tlread (f : Fields)
  /-- TLREAD_ERR (R170). -/
  | tlreadErr (f : Fields)
  /-- WAITA (R171). -/
  | waita (f : Fields)
  /-- WAITA_RECHECK (R171). -/
  | waitaRecheck (gid t : Nat)
  /-- CPKICK (R172). -/
  | cpkick (f : Fields)
  /-- GATH (R177). -/
  | gath (f : Fields)
  /-- NBPF (R178). -/
  | nbpf (f : Fields)
  /-- ADCL (R179). -/
  | adcl (f : Fields)
  /-- TOPK (R180). -/
  | topk (f : Fields)
  /-- COLL (R182). -/
  | coll (f : Fields)
  /-- TSSET (R183). -/
  | tsset (f : Fields)
  /-- TSGET (R183). -/
  | tsget (f : Fields)
  /-- TLD (R191). -/
  | tld (f : Fields)
  /-- TST (R191). -/
  | tst (f : Fields)
  /-- TZERO (R192). -/
  | tzero (f : Fields)
  /-- TREAD (R192). -/
  | tread (f : Fields)
  /-- TWRITE (R192). -/
  | twrite (f : Fields)
  /-- MLDW (R195). -/
  | mldw (f : Fields)
  /-- MMAA (R197). -/
  | mmaa (f : Fields)
  /-- MCOMMIT (R201). -/
  | mcommit (f : Fields)
  /-- MWAIT (R201). -/
  | mwait (f : Fields)
  /-- MSCALE (R200). -/
  | mscale (f : Fields)
  /-- MSCALE_CLR (R200). -/
  | mscaleClr (f : Fields)
  /-- TTASK (R206). -/
  | ttask (f : Fields)
  /-- FCALL (R212). -/
  | fcall (f : Fields)
  /-- FRET (R215). -/
  | fret (f : Fields)
  /-- FSPROBE (R217). -/
  | fsprobe (f : Fields)
  /-- FSDESC (R211). -/
  | fsdesc (f : Fields)
  /-- FSFLUSH (R218). -/
  | fsflush (f : Fields)
  /-- FSFLUSH_ALL (R218). -/
  | fsflushAll (f : Fields)
  /-- FSSTAT (R219). -/
  | fsstat (f : Fields)
  /-- FSSTAT_REC (R219). -/
  | fsstatRec (f : Fields)
  /-- LAINIT (R224). -/
  | lainit (f : Fields)
  /-- LAADD_F32 (R225). -/
  | laaddF32 (f : Fields)
  /-- LAADD_F64 (R225). -/
  | laaddF64 (f : Fields)
  /-- LACKP (R225). -/
  | lackp (f : Fields)
  /-- LAEST (R226). -/
  | laest (f : Fields)
  /-- LAGET (R229). -/
  | laget (f : Fields)
  /-- LASTAT (R229). -/
  | lastat (f : Fields)
  /-- TRAP (R243). -/
  | trap (f : Fields)
  /-- TRET (R243). -/
  | tret (f : Fields)
  /-- TMASK (R243). -/
  | tmask (f : Fields)
  /-- BKPT (R243). -/
  | bkpt (f : Fields)
  /-- SYSR (R239). -/
  | sysr (f : Fields)
  /-- SYSW (R239). -/
  | sysw (f : Fields)
  /-- QREL (R235). -/
  | qrel (f : Fields)
  /-- QCLM (R236). -/
  | qclm (f : Fields)
  /-- QGET (R237). -/
  | qget (f : Fields)
  /-- EWIN (R246). -/
  | ewin (f : Fields)
  /-- EWSET (R248). -/
  | ewset (f : Fields)
  /-- EWSET_NEXT (R248). -/
  | ewsetNext (f : Fields)
  /-- ERET (R249). -/
  | eret (f : Fields)
  /-- EFWD (R249). -/
  | efwd (f : Fields)
  /-- EMULATION_VECTOR (R245). -/
  | emulationVector (why : BitVec 2) (w : W64)
  /-- CLAUSE_ENTRY (R54). -/
  | clauseEntry
  /-- ISSUE_GROUP_FORM (R339). -/
  | issueGroupForm (core : Nat)
  /-- ISSUE_PORT_YIELD (R339). -/
  | issuePortYield (core : Nat)
  /-- RESULT_RETURN (R69). -/
  | resultReturn (gid t : Nat)
  /-- HANDLER_OVERRUN (R242). -/
  | handlerOverrun (gid t : Nat)
  /-- HELD_ACCESS_PERFORM (R416). -/
  | heldAccessPerform (gid t : Nat)
  /-- KF_UQPUSH (R252). -/
  | kfUqpush (rs1 : BitVec 5)
  /-- KF_TCFG (R252). -/
  | kfTcfg (rd rs1 rs2 : BitVec 5)
  /-- KF_TSSET (R252). -/
  | kfTsset (rd rs1 rs2 : BitVec 5)
  /-- KF_CPKICK (R252). -/
  | kfCpkick (rd rs1 rs2 : BitVec 5)
  /-- KF_FSDESC (R252). -/
  | kfFsdesc (rd rs1 rs2 : BitVec 5)
  /-- KF_GID (R252). -/
  | kfGid (rd rs1 : BitVec 5)
  /-- KF_QNOTIFY (R252). -/
  | kfQnotify (rs1 rs2 : BitVec 5)
  /-- KF_HOLD (R252). -/
  | kfHold (rs1 : BitVec 5)
  /-- HART_ECALL (R251). -/
  | hartEcall
  /-- HART_RV64GC_INSTRUCTION (R251). -/
  | hartRv64gcInstruction (len : BitVec 3) (i : RvInstr)
  /-- MATRIX_ACCEPT (R202). -/
  | matrixAccept (core : Nat)
  /-- MATRIX_LAST_MAC (R22). -/
  | matrixLastMac (core : Nat)
  /-- MATRIX_BATCH_COMPLETE (R201). -/
  | matrixBatchComplete (gid : Nat) (mx : Nat) (n : Nat)
  /-- COPY_DATA_PERFORMED (R175). -/
  | copyDataPerformed (op off len : Nat)
  /-- COPY_COMPLETE (R175). -/
  | copyComplete (op : Nat)
  /-- TILE_TRANSFER_COMPLETE (R191). -/
  | tileTransferComplete (op : Nat)
  /-- GATHER_COMPLETE (R177). -/
  | gatherComplete (op : Nat)
  /-- COLLECTIVE_COMPLETE (R182). -/
  | collectiveComplete (op : Nat) (remote : List (Nat × BitVec 512 × List Byte)) (trees : List RTree)
  /-- TILE_TASK_DISPATCH (R207). -/
  | tileTaskDispatch (op core : Nat)
  /-- TILE_TASK_COMPLETE (R207). -/
  | tileTaskComplete (op : Nat)
  /-- GONG_AGING (R327). -/
  | gongAging (die : Nat) (entry : Nat)
  /-- GROUP_PLACEMENT (R333). -/
  | groupPlacement (kid : Nat) (cores : List Nat)
  /-- GROUP_START (R326). -/
  | groupStart (gid : Nat)
  /-- GROUP_EVICT (R343). -/
  | groupEvict (gid : Nat)
  /-- GROUP_RESTORE (R344). -/
  | groupRestore (gid : Nat) (cores : List Nat)
  /-- KERNEL_COMPLETE (R332). -/
  | kernelComplete (kid : Nat)
  /-- MERGE_APPLY (R273). -/
  | mergeApply (kid : Nat)
  /-- GRAPH_NODE_DISPATCH (R330). -/
  | graphNodeDispatch (graph node : Nat)
  /-- GRAPH_NODE_COMPLETE (R331). -/
  | graphNodeComplete (graph node : Nat)
  /-- QNOTIFY (R314). -/
  | qnotify (cid q : Nat) (w : W32)
  /-- QUEUE_ENABLE (R311). -/
  | queueEnable (cid q : Nat)
  /-- QUEUE_DISABLE (R311). -/
  | queueDisable (cid q : Nat)
  /-- QUEUE_SKIP (R319). -/
  | queueSkip (cid q : Nat)
  /-- PACKET_FETCH (R312). -/
  | packetFetch (cid q : Nat)
  /-- LAUNCH (R322). -/
  | launchPkt (cid q : Nat)
  /-- WAIT (R316). -/
  | waitPkt (cid q : Nat)
  /-- WAIT_SATISFIED (R316). -/
  | waitSatisfied (cid q : Nat)
  /-- MARK (R316). -/
  | markPkt (cid q : Nat)
  /-- COPY (R316). -/
  | copyPkt (cid q : Nat)
  /-- COPY_PACKET_COMPLETE (R316). -/
  | copyPacketComplete (op : Nat)
  /-- DETMODE (R320). -/
  | detmodePkt (cid q : Nat)
  /-- GRAPH (R329). -/
  | graphPkt (cid q : Nat)
  /-- CREATE (R302). -/
  | create (vf : Nat)
  /-- DESTROY (R310). -/
  | destroy (vf : Nat)
  /-- TEARDOWN_COMPLETE (R310). -/
  | teardownComplete (cid : Nat)
  /-- QUIESCE (R306). -/
  | quiesce (vf : Nat)
  /-- QUIESCE_COMPLETE (R300). -/
  | quiesceComplete (cid : Nat)
  /-- RESUME (R298). -/
  | resume (vf : Nat)
  /-- CHECKPOINT (R307). -/
  | checkpoint (vf : Nat)
  /-- RESTORE (R308). -/
  | restore (vf : Nat)
  /-- LOAD (R100). -/
  | loadObj (vf : Nat)
  /-- RESUMET (R298). -/
  | resumet (vf : Nat)
  /-- SETBUDGET (R298). -/
  | setbudget (vf : Nat)
  /-- CTXCMD_INVALID (R298). -/
  | ctxcmdInvalid (vf : Nat)
  /-- REPLAY (R375). -/
  | replay (cid : Nat)
  /-- REPLAYALL (R375). -/
  | replayall (cid : Nat)
  /-- INVAL (R375). -/
  | inval (cid : Nat)
  /-- INVALALL (R375). -/
  | invalall (cid : Nat)
  /-- RREPLAY (R375). -/
  | rreplay (cid : Nat)
  /-- RREPLAYALL (R375). -/
  | rreplayall (cid : Nat)
  /-- RSYNC (R375). -/
  | rsync (cid : Nat)
  /-- PGCMD_DISCARD (R375). -/
  | pgcmdDiscard (cid : Nat) (v : W64)
  /-- DETMODE_WRITE (R296). -/
  | detmodeWrite (vf : Nat) (v : W32)
  /-- PWRPOOL_WRITE (R23). -/
  | pwrpoolWrite (die : Nat) (v : W64)
  /-- PARTCFG_WRITE (R295). -/
  | partcfgWrite (vf : Nat) (v : W64)
  /-- PFQ_ENABLE (R305). -/
  | pfqEnable (vf : Nat) (v : W64)
  /-- PFQCONS_WRITE (R305). -/
  | pfqconsWrite (vf : Nat) (v : W64)
  /-- FQCONS_WRITE (R304). -/
  | fqconsWrite (cid : Nat) (v : W32)
  /-- FAULT_RECORD_DEFERRED (R304). -/
  | faultRecordDeferred (partition : Bool) (id : Nat)
  /-- RANGE_ENTRY_WRITE (R368). -/
  | rangeEntryWrite (vf n : Nat) (v : BitVec 256)
  /-- VFOWN_WRITE (R388). -/
  | vfownWrite (vf : Nat) (v : W64)
  /-- COMM_ENTRY_WRITE (R390). -/
  | commEntryWrite (vf n : Nat) (v : BitVec 128)
  /-- REGISTER_WRITE (R5). -/
  | registerWrite (r : RegName) (v : W64)
  /-- PARTITION_CREATE (R295). -/
  | partitionCreate (vf : Nat) (cfg : W64)
  /-- PARTITION_DESTROY (R296). -/
  | partitionDestroy (vf : Nat)
  /-- PACKAGE_RESET (R420). -/
  | packageReset (images : List SignedImage)
  /-- BANK_LOAD (R421). -/
  | bankLoad (n : Nat) (load : BankImage)
  /-- THERMAL_LIMIT (R26). -/
  | thermalLimit (die : Nat) (size : BitVec 16)
  /-- CRITICAL_TEMPERATURE (R26). -/
  | criticalTemperature (die : Nat)
  /-- FABRIC_PACKET_RECEIVE (R383). -/
  | fabricPacketReceive (port : Nat) (p : FabricPacket)
  /-- ATTESTATION_REQUEST (R423). -/
  | attestationRequest (src : BitVec 15) (vf : BitVec 6) (nonce : List Byte)
  /-- IDENTITY_REQUEST (R423). -/
  | identityRequest (src : BitVec 15)
  /-- FLIT_CHECK_FAIL (R384). -/
  | flitCheckFail (port : Nat)
  /-- PORT_TRAINING (R386). -/
  | portTraining (port : Nat) (rtt : Nat) (ok : Bool)
  /-- ETH_CONNECTION_FAIL (R395). -/
  | ethConnectionFail (port conn : Nat)
  /-- LIMITER_REFILL (R392). -/
  | limiterRefill (vf : Nat)
  /-- UNCORRECTABLE_ERROR (R428). Units of the SRAM die are numbered from 2^56 up: records of function stores, then merge
  entries (log 98). -/
  | uncorrectableError (unitAddr : Nat)
  /-- ETHERNET_FRAME_RECEIVE (R395). -/
  | ethernetFrameReceive (port conn : Nat) (frame : EthFrame)
  /-- FIRMWARE_UPDATE (R420). -/
  | firmwareUpdate (image : SignedImage)
  deriving DecidableEq, Repr

/-- What the machine may do next (the model's schedule, log 3): an event or outside input, the next thread-slot of a
core's lanes, the next instruction of a group's hart, the passing of core cycles, a walk ahead along a record of an engine
operation (R371), or the sending again of what an Ethernet connection has not had acknowledged (R395). -/
inductive Action where
  | event (i : Instr)
  | lanes (core : Nat)
  | hart (gid : Nat)
  | tick (core : Nat) (cycles : Nat)
  | ahead (op rec n : Nat)
  | resend (port conn : Nat)
  deriving DecidableEq, Repr

end Sys2Proof
end

