-- ==== Sys2Proof/Machine/Enc.lean ====
section
/-! DEFINITION. The encoding tables of the instruction entries (R109, R118-R133, R143, R150, R154, R160, R168, R170, R190, R210,
R223, R233): for each vector instruction what its fields d, a, b, c hold, which `mod` values are defined, and whether it is
long-latency; and the checks of R64 on them. -/
namespace Sys2Proof.Machine

/-- Operand types, for what a special value reads as (R63): integers and bits, a float, a packed pair. -/
inductive OT where
  | i32
  | i64
  | fl (f : FFmt)
  | pk (f : FFmt)
  deriving DecidableEq, Repr

/-- Whether an operand of the type is a register pair. -/
def OT.wide : OT → Bool
  | .i64 => true
  | .fl .f64 => true
  | _ => false

/-- Untyped bits of 32 or 64. -/
def OT.ofWide (w : Bool) : OT := if w then .i64 else .i32

/-- What an operand field holds (R105, R106, R139, R144, R146, R157, R163, R190, R210). -/
inductive FK where
  | no                      -- must be zero
  | src (t : OT)            -- a source operand
  | dst (wide : Bool)       -- a destination
  | pred                    -- P: a predicate index
  | imm8 (max : Nat)        -- I8: an unsigned immediate, at most `max`
  | unit (n : Nat)          -- 0x1C0 + i, i below n: slot, table, tile, context, accumulator
  | run (n : Nat)           -- first of n main registers read
  | runDst (n : Nat)        -- first of n main registers written
  | quad                    -- four registers read, index a multiple of 4
  | quadDst                 -- four registers written, index a multiple of 4
  | casPair                 -- compare and new value, even index, main or operand-file level
  | mainS                   -- a main register that starts a run whose length a table gives
  | mainD                   -- the same as a destination
  | mask6                   -- a fence mask
  | raw                     -- a code the entry checks by itself
  deriving DecidableEq, Repr

/-- What an entry says of its word. -/
structure Enc where
  d    : FK
  a    : FK
  b    : FK
  c    : FK
  ok   : Bool               -- `mod`, scope and codes are defined values
  long : Bool               -- long-latency: `ahd` is defined
  deriving DecidableEq, Repr

/-- An operand field as 9 bits (R61). -/
def opBits : Operand → BitVec 9
  | .main i => (0#2 : BitVec 2) ++ i
  | .opf i => (1#2 : BitVec 2) ++ i
  | .latch i => (2#2 : BitVec 2) ++ i
  | .special i => (3#2 : BitVec 2) ++ i

/-- The size code of a memory instruction (R144). -/
def szOf (f : Fields) : BitVec 3 := f.mod.setWidth 3

/-- The width in bytes that a size code names (R144). -/
def szBytes (sz : BitVec 3) : Nat :=
  match sz.toNat with
  | 0 => 1 | 1 => 1 | 2 => 2 | 3 => 2 | 4 => 4 | 5 => 8 | 6 => 16 | _ => 0

/-- Size codes of stores: not 1, 3 or 7 (R144). -/
def storeSz (f : Fields) : Bool := let s := (szOf f).toNat; s != 1 && s != 3 && s != 7

/-- The destination of a load by its size code (R144). -/
def ldDst (f : Fields) : FK :=
  match (szOf f).toNat with
  | 5 => .dst true | 6 => .quadDst | _ => .dst false

/-- The data operand of a store by its size code (R144). -/
def stSrc (f : Fields) : FK :=
  match (szOf f).toNat with
  | 5 => .src .i64 | 6 => .quad | _ => .src .i32

/-- Type codes of CVT (R128): destination, source, saturation. -/
def cvtDst (f : Fields) : Nat := (opBits f.c).toNat % 16
def cvtSrc (f : Fields) : Nat := (opBits f.c).toNat / 16 % 16
def cvtSat (f : Fields) : Bool := (opBits f.c).getLsbD 8
/-- The float format of a type code below 7 (R128). -/
def tyFmt (t : Nat) : FFmt :=
  match t with
  | 0 => .f64 | 1 => .f32 | 2 => .f16 | 3 => .bf16 | 4 => .e4m3 | 5 => .e5m2 | _ => .e2m1
/-- Whether a type code names a 64-bit type. -/
def tyWide (t : Nat) : Bool := t == 0 || t == 13 || t == 14
/-- The operand type of a type code. -/
def tyOT (t : Nat) : OT := if t < 7 then .fl (tyFmt t) else OT.ofWide (tyWide t)

/-- R129: defined forms of CVT. -/
def cvtOk (f : Fields) : Bool :=
  let s := cvtSrc f; let d := cvtDst f
  decide (f.mod.toNat < 4) && s != d && s != 15 && d != 15 &&
    (!cvtSat f || d == 4 || d == 5 || (decide (7 ≤ s) && decide (7 ≤ d)))

/-- R130: defined forms of CVTS. -/
def cvtsOk (f : Fields) : Bool :=
  let s := cvtSrc f; let d := cvtDst f
  f.mod == 4#4 && (!cvtSat f || d == 4 || d == 5) &&
    ((s == 0 && decide (1 ≤ d) && decide (d ≤ 6)) || (s == 1 && decide (2 ≤ d) && decide (d ≤ 6)) ||
     ((s == 2 || s == 3) && decide (4 ≤ d) && decide (d ≤ 6)))

/-- Codes of SGRED and SGSCAN (R137). -/
def redTy (f : Fields) : Nat := (opBits f.c).toNat / 16 % 16
def redOp (f : Fields) : Nat := (opBits f.c).toNat % 16
def redEx (f : Fields) : Bool := (opBits f.c).getLsbD 8
def redWide (f : Fields) : Bool := decide (3 ≤ redTy f)
def redOT (f : Fields) : OT :=
  match redTy f with
  | 2 => .fl .f32 | 3 => .fl .f64 | 4 => .i64 | 5 => .i64 | _ => .i32
def redOk (f : Fields) (scan : Bool) : Bool :=
  decide (redTy f < 6) && decide (redOp f < 7) && (scan || !redEx f) &&
    !((redTy f == 2 || redTy f == 3) && decide (4 ≤ redOp f))

/-- The scope of an atomic is defined, and a scratchpad atomic has scope subgroup or group (R8, R154). -/
def atomScope (f : Fields) (sc : BitVec 3) : Bool :=
  decide (sc.toNat < 6) && (!f.mod.getLsbD 3 || decide (sc.toNat < 2))
/-- The scope of a wide-cell access is defined (R160). -/
def cellScope (f : Fields) (sc : BitVec 3) : Bool :=
  decide (f.mod.toNat < 2) && decide (sc.toNat < 6) && (!f.mod.getLsbD 0 || decide (sc.toNat < 2))
/-- A float atomic operation is add, min, max or exch (R155). -/
def fltOp (f : Fields) : Bool := let o := f.mod.toNat % 8; decide (o < 3) || o == 7
/-- RED has no exch and no acquire (R155). -/
def redOrd (f : Fields) (ord : BitVec 2) : Bool := f.mod.toNat % 8 != 7 && ord != 1#2 && ord != 3#2
/-- The `mod` values of MMAA (R197). -/
def mmaaMod (m : BitVec 4) : Bool :=
  let v := m.toNat; v == 0 || v == 4 || v == 12 || v == 1 || v == 2 || v == 11
/-- MMAA's a names a slot (0x1D0 + n) rather than a tile (R197). -/
def mmaaSlot (f : Fields) : Bool := decide (0x1D0 ≤ (opBits f.a).toNat)
/-- MMAA's b: zero for a tile, the origin pair for a slot (R197). -/
def mmaaB (f : Fields) : FK := if mmaaSlot f then .src .i64 else .no

/-- The entry of each vector instruction; the other rows have none. -/

def encOf : Instr → Option Enc
  | .nop f => some ⟨.no, .no, .no, .no, f.mod == 0#4, false⟩
  | .rep _ => none
  | .bra f => some ⟨.no, .src .i32, .no, .no, f.mod == 0#4, false⟩
  | .brp f => some ⟨.no, .src .i32, .src .i32, .pred, f.mod == 0#4, false⟩
  | .brx f => some ⟨.no, .src .i64, .no, .no, f.mod == 0#4, false⟩
  | .call f => some ⟨.dst true, .src .i32, .no, .no, f.mod == 0#4, false⟩
  | .callx f => some ⟨.dst true, .src .i64, .no, .no, f.mod == 0#4, false⟩
  | .ret f => some ⟨.no, .src .i64, .no, .no, f.mod == 0#4, false⟩
  | .convJ f => some ⟨.no, .imm8 255, .no, .no, f.mod == 0#4 && !f.pe, false⟩
  | .joinJ f => some ⟨.no, .imm8 255, .no, .no, f.mod == 0#4 && !f.pe, false⟩
  | .elect f => some ⟨.pred, .no, .no, .no, f.mod == 0#4, false⟩
  | .exit f => some ⟨.no, .no, .no, .no, f.mod == 0#4, false⟩
  | .yield f => some ⟨.no, .no, .no, .no, f.mod == 0#4, false⟩
  | .iaddI32 f => some ⟨.dst false, .src .i32, .src .i32, .no, f.mod == 0#4, false⟩
  | .iaddI64 f => some ⟨.dst true, .src .i64, .src .i64, .no, f.mod == 0#4, false⟩
  | .isubI32 f => some ⟨.dst false, .src .i32, .src .i32, .no, f.mod == 0#4, false⟩
  | .isubI64 f => some ⟨.dst true, .src .i64, .src .i64, .no, f.mod == 0#4, false⟩
  | .imulI32 f => some ⟨.dst false, .src .i32, .src .i32, .no, f.mod == 0#4, false⟩
  | .imulhI32 f => some ⟨.dst false, .src .i32, .src .i32, .no, f.mod == 0#4, false⟩
  | .imulhN32 f => some ⟨.dst false, .src .i32, .src .i32, .no, f.mod == 0#4, false⟩
  | .imadI32 f => some ⟨.dst false, .src .i32, .src .i32, .src .i32, f.mod == 0#4, false⟩
  | .imadwI64 f => some ⟨.dst true, .src .i32, .src .i32, .src .i64, f.mod == 0#4, false⟩
  | .iminI32 f => some ⟨.dst false, .src .i32, .src .i32, .no, f.mod == 0#4, false⟩
  | .iminN32 f => some ⟨.dst false, .src .i32, .src .i32, .no, f.mod == 0#4, false⟩
  | .imaxI32 f => some ⟨.dst false, .src .i32, .src .i32, .no, f.mod == 0#4, false⟩
  | .imaxN32 f => some ⟨.dst false, .src .i32, .src .i32, .no, f.mod == 0#4, false⟩
  | .iabsI32 f => some ⟨.dst false, .src .i32, .no, .no, f.mod == 0#4, false⟩
  | .inegI32 f => some ⟨.dst false, .src .i32, .no, .no, f.mod == 0#4, false⟩
  | .icmpI32 f => some ⟨.pred, .src .i32, .src .i32, .no, decide (f.mod.toNat < 6), false⟩
  | .icmpN32 f => some ⟨.pred, .src .i32, .src .i32, .no, decide (f.mod.toNat < 6), false⟩
  | .icmpI64 f => some ⟨.pred, .src .i64, .src .i64, .no, decide (f.mod.toNat < 6), false⟩
  | .icmpN64 f => some ⟨.pred, .src .i64, .src .i64, .no, decide (f.mod.toNat < 6), false⟩
  | .lea _ => some ⟨.dst false, .src .i32, .src .i32, .no, true, false⟩
  | .leaI64 _ => some ⟨.dst true, .src .i64, .src .i32, .no, true, false⟩
  | .idivI32 f => some ⟨.dst false, .src .i32, .src .i32, .no, f.mod == 0#4, true⟩
  | .idivN32 f => some ⟨.dst false, .src .i32, .src .i32, .no, f.mod == 0#4, true⟩
  | .iremI32 f => some ⟨.dst false, .src .i32, .src .i32, .no, f.mod == 0#4, true⟩
  | .iremN32 f => some ⟨.dst false, .src .i32, .src .i32, .no, f.mod == 0#4, true⟩
  | .idot4I8 f => some ⟨.dst false, .src .i32, .src .i32, .src .i32, f.mod == 0#4, false⟩
  | .idot4N8 f => some ⟨.dst false, .src .i32, .src .i32, .src .i32, f.mod == 0#4, false⟩
  | .idot8I4 f => some ⟨.dst false, .src .i32, .src .i32, .src .i32, f.mod == 0#4, false⟩
  | .iclampI32 f => some ⟨.dst false, .src .i32, .src .i32, .src .i32, f.mod == 0#4, false⟩
  | .and f => some ⟨.dst false, .src .i32, .src .i32, .no, f.mod == 0#4, false⟩
  | .or f => some ⟨.dst false, .src .i32, .src .i32, .no, f.mod == 0#4, false⟩
  | .xor f => some ⟨.dst false, .src .i32, .src .i32, .no, f.mod == 0#4, false⟩
  | .andn f => some ⟨.dst false, .src .i32, .src .i32, .no, f.mod == 0#4, false⟩
  | .not f => some ⟨.dst false, .src .i32, .no, .no, f.mod == 0#4, false⟩
  | .shl f => some ⟨.dst false, .src .i32, .src .i32, .no, f.mod == 0#4, false⟩
  | .shr f => some ⟨.dst false, .src .i32, .src .i32, .no, f.mod == 0#4, false⟩
  | .sar f => some ⟨.dst false, .src .i32, .src .i32, .no, f.mod == 0#4, false⟩
  | .rotl f => some ⟨.dst false, .src .i32, .src .i32, .no, f.mod == 0#4, false⟩
  | .shlI64 f => some ⟨.dst true, .src .i64, .src .i32, .no, f.mod == 0#4, false⟩
  | .shrI64 f => some ⟨.dst true, .src .i64, .src .i32, .no, f.mod == 0#4, false⟩
  | .sarI64 f => some ⟨.dst true, .src .i64, .src .i32, .no, f.mod == 0#4, false⟩
  | .bfeN32 f => some ⟨.dst false, .src .i32, .src .i32, .src .i32, f.mod == 0#4, false⟩
  | .bfeI32 f => some ⟨.dst false, .src .i32, .src .i32, .src .i32, f.mod == 0#4, false⟩
  | .bfi f => some ⟨.dst false, .src .i32, .src .i32, .src .i32, f.mod == 0#4, false⟩
  | .popc f => some ⟨.dst false, .src .i32, .no, .no, f.mod == 0#4, false⟩
  | .clz f => some ⟨.dst false, .src .i32, .no, .no, f.mod == 0#4, false⟩
  | .brev f => some ⟨.dst false, .src .i32, .no, .no, f.mod == 0#4, false⟩
  | .bperm f => some ⟨.dst false, .src .i32, .src .i32, .src .i32, f.mod == 0#4, false⟩
  | .faddF32 f => some ⟨.dst false, .src (.fl .f32), .src (.fl .f32), .no, decide (f.mod.toNat < 4), false⟩
  | .faddF64 f => some ⟨.dst true, .src (.fl .f64), .src (.fl .f64), .no, decide (f.mod.toNat < 4), false⟩
  | .fsubF32 f => some ⟨.dst false, .src (.fl .f32), .src (.fl .f32), .no, decide (f.mod.toNat < 4), false⟩
  | .fsubF64 f => some ⟨.dst true, .src (.fl .f64), .src (.fl .f64), .no, decide (f.mod.toNat < 4), false⟩
  | .fmulF32 f => some ⟨.dst false, .src (.fl .f32), .src (.fl .f32), .no, decide (f.mod.toNat < 4), false⟩
  | .fmulF64 f => some ⟨.dst true, .src (.fl .f64), .src (.fl .f64), .no, decide (f.mod.toNat < 4), false⟩
  | .ffmaF32 f => some ⟨.dst false, .src (.fl .f32), .src (.fl .f32), .src (.fl .f32), decide (f.mod.toNat < 4), false⟩
  | .ffmaF64 f => some ⟨.dst true, .src (.fl .f64), .src (.fl .f64), .src (.fl .f64), decide (f.mod.toNat < 4), false⟩
  | .fdivF32 f => some ⟨.dst false, .src (.fl .f32), .src (.fl .f32), .no, decide (f.mod.toNat < 4), true⟩
  | .fdivF64 f => some ⟨.dst true, .src (.fl .f64), .src (.fl .f64), .no, decide (f.mod.toNat < 4), true⟩
  | .fminF32 f => some ⟨.dst false, .src (.fl .f32), .src (.fl .f32), .no, f.mod == 0#4, false⟩
  | .fminF64 f => some ⟨.dst true, .src (.fl .f64), .src (.fl .f64), .no, f.mod == 0#4, false⟩
  | .fmaxF32 f => some ⟨.dst false, .src (.fl .f32), .src (.fl .f32), .no, f.mod == 0#4, false⟩
  | .fmaxF64 f => some ⟨.dst true, .src (.fl .f64), .src (.fl .f64), .no, f.mod == 0#4, false⟩
  | .fcmpF32 f => some ⟨.pred, .src (.fl .f32), .src (.fl .f32), .no, decide (f.mod.toNat < 8), false⟩
  | .fcmpF64 f => some ⟨.pred, .src (.fl .f64), .src (.fl .f64), .no, decide (f.mod.toNat < 8), false⟩
  | .frcpF32 f => some ⟨.dst false, .src (.fl .f32), .no, .no, decide (f.mod.toNat < 4), false⟩
  | .frcpF64 f => some ⟨.dst true, .src (.fl .f64), .no, .no, decide (f.mod.toNat < 4), false⟩
  | .frsqF32 f => some ⟨.dst false, .src (.fl .f32), .no, .no, decide (f.mod.toNat < 4), false⟩
  | .frsqF64 f => some ⟨.dst true, .src (.fl .f64), .no, .no, decide (f.mod.toNat < 4), false⟩
  | .fsqrtF32 f => some ⟨.dst false, .src (.fl .f32), .no, .no, decide (f.mod.toNat < 4), false⟩
  | .fsqrtF64 f => some ⟨.dst true, .src (.fl .f64), .no, .no, decide (f.mod.toNat < 4), false⟩
  | .fexp2F32 f => some ⟨.dst false, .src (.fl .f32), .no, .no, decide (f.mod.toNat < 4), false⟩
  | .flog2F32 f => some ⟨.dst false, .src (.fl .f32), .no, .no, decide (f.mod.toNat < 4), false⟩
  | .fsinpF32 f => some ⟨.dst false, .src (.fl .f32), .no, .no, decide (f.mod.toNat < 4), false⟩
  | .fcospF32 f => some ⟨.dst false, .src (.fl .f32), .no, .no, decide (f.mod.toNat < 4), false⟩
  | .fclassF32 f => some ⟨.dst false, .src (.fl .f32), .no, .no, f.mod == 0#4, false⟩
  | .fclassF64 f => some ⟨.dst false, .src (.fl .f64), .no, .no, f.mod == 0#4, false⟩
  | .fabs f => some ⟨.dst (f.mod == 1#4), .src (.ofWide (f.mod == 1#4)), .no, .no, decide (f.mod.toNat < 3), false⟩
  | .fneg f => some ⟨.dst (f.mod == 1#4), .src (.ofWide (f.mod == 1#4)), .no, .no, decide (f.mod.toNat < 3), false⟩
  | .fcopysign f => some ⟨.dst (f.mod == 1#4), .src (.ofWide (f.mod == 1#4)), .src (.ofWide (f.mod == 1#4)), .no, decide (f.mod.toNat < 3), false⟩
  | .hadd2F16 f => some ⟨.dst false, .src (.pk .f16), .src (.pk .f16), .no, decide (f.mod.toNat < 4), false⟩
  | .hadd2Bf16 f => some ⟨.dst false, .src (.pk .bf16), .src (.pk .bf16), .no, decide (f.mod.toNat < 4), false⟩
  | .hmul2F16 f => some ⟨.dst false, .src (.pk .f16), .src (.pk .f16), .no, decide (f.mod.toNat < 4), false⟩
  | .hmul2Bf16 f => some ⟨.dst false, .src (.pk .bf16), .src (.pk .bf16), .no, decide (f.mod.toNat < 4), false⟩
  | .hfma2F16 f => some ⟨.dst false, .src (.pk .f16), .src (.pk .f16), .src (.pk .f16), decide (f.mod.toNat < 4), false⟩
  | .hfma2Bf16 f => some ⟨.dst false, .src (.pk .bf16), .src (.pk .bf16), .src (.pk .bf16), decide (f.mod.toNat < 4), false⟩
  | .hmin2F16 f => some ⟨.dst false, .src (.pk .f16), .src (.pk .f16), .no, f.mod == 0#4, false⟩
  | .hmin2Bf16 f => some ⟨.dst false, .src (.pk .bf16), .src (.pk .bf16), .no, f.mod == 0#4, false⟩
  | .hmax2F16 f => some ⟨.dst false, .src (.pk .f16), .src (.pk .f16), .no, f.mod == 0#4, false⟩
  | .hmax2Bf16 f => some ⟨.dst false, .src (.pk .bf16), .src (.pk .bf16), .no, f.mod == 0#4, false⟩
  | .hcmp2F16 f => some ⟨.dst false, .src (.pk .f16), .src (.pk .f16), .no, decide (f.mod.toNat < 8), false⟩
  | .hcmp2Bf16 f => some ⟨.dst false, .src (.pk .bf16), .src (.pk .bf16), .no, decide (f.mod.toNat < 8), false⟩
  | .hdot2F16 f => some ⟨.dst false, .src (.pk .f16), .src (.pk .f16), .src (.fl .f32), decide (f.mod.toNat < 4), false⟩
  | .hdot2Bf16 f => some ⟨.dst false, .src (.pk .bf16), .src (.pk .bf16), .src (.fl .f32), decide (f.mod.toNat < 4), false⟩
  | .cvt f => some ⟨.dst (tyWide (cvtDst f)), .src (tyOT (cvtSrc f)), .no, .raw, cvtOk f, false⟩
  | .cvts f => some ⟨.dst (tyWide (cvtDst f)), .src (tyOT (cvtSrc f)), .src .i32, .raw, cvtsOk f, false⟩
  | .frndF32 f => some ⟨.dst false, .src (.fl .f32), .no, .no, decide (f.mod.toNat < 4), false⟩
  | .frndF64 f => some ⟨.dst true, .src (.fl .f64), .no, .no, decide (f.mod.toNat < 4), false⟩
  | .scalebF32 f => some ⟨.dst false, .src (.fl .f32), .src .i32, .no, decide (f.mod.toNat < 4), false⟩
  | .frexpF32 f => some ⟨.dst false, .src (.fl .f32), .no, .no, f.mod == 0#4, false⟩
  | .frexpExpF32 f => some ⟨.dst false, .src (.fl .f32), .no, .no, f.mod == 1#4, false⟩
  | .pack2 f => some ⟨.dst false, .src .i32, .src .i32, .no, f.mod == 0#4, false⟩
  | .unpk2 f => some ⟨.dst false, .src .i32, .no, .no, decide (f.mod.toNat < 4), false⟩
  | .packq f => some ⟨.dst false, .src .i32, .src .i32, .src .i32, decide (f.mod.toNat < 2), false⟩
  | .rndc f => some ⟨.dst false, .src .i64, .src .i32, .src .i32, f.mod == 0#4, false⟩
  | .rndcW f => some ⟨.dst true, .src .i64, .src .i32, .src .i32, f.mod == 0#4, false⟩
  | .mov f => some ⟨.dst (f.mod == 1#4), .src (.ofWide (f.mod == 1#4)), .no, .no, decide (f.mod.toNat < 2), false⟩
  | .movs f => some ⟨.dst true, .src .i32, .no, .no, f.mod == 0#4, false⟩
  | .sel f => some ⟨.dst (f.mod == 1#4), .src (.ofWide (f.mod == 1#4)), .src (.ofWide (f.mod == 1#4)), .pred, decide (f.mod.toNat < 2), false⟩
  | .pset f => some ⟨.pred, .pred, .pred, .no, decide (f.mod.toNat < 4) || (decide (f.mod.toNat < 8) && f.b == .main 0#7), false⟩
  | .pmovGet f => some ⟨.dst false, .no, .no, .no, f.mod == 0#4, false⟩
  | .pmovPut f => some ⟨.no, .src .i32, .no, .no, f.mod == 1#4, false⟩
  | .perm f => some ⟨.dst (f.mod == 1#4), .src (.ofWide (f.mod == 1#4)), .src .i32, .src (.ofWide (f.mod == 1#4)), decide (f.mod.toNat < 2), false⟩
  | .permx f => some ⟨.dst (f.mod == 1#4), .src (.ofWide (f.mod == 1#4)), .src .i32, .src (.ofWide (f.mod == 1#4)), decide (f.mod.toNat < 2), false⟩
  | .permu f => some ⟨.dst (f.mod == 1#4), .src (.ofWide (f.mod == 1#4)), .src .i32, .src (.ofWide (f.mod == 1#4)), decide (f.mod.toNat < 2), false⟩
  | .permd f => some ⟨.dst (f.mod == 1#4), .src (.ofWide (f.mod == 1#4)), .src .i32, .src (.ofWide (f.mod == 1#4)), decide (f.mod.toNat < 2), false⟩
  | .bcast f => some ⟨.dst (f.mod == 1#4), .src (.ofWide (f.mod == 1#4)), .no, .no, decide (f.mod.toNat < 2), false⟩
  | .vote f => some ⟨.pred, .pred, .no, .no, decide (f.mod.toNat < 4), false⟩
  | .ballot f => some ⟨.dst false, .pred, .no, .no, decide (f.mod.toNat < 2), false⟩
  | .matchL f => some ⟨.dst false, .src .i32, .no, .no, decide (f.mod.toNat < 2), false⟩
  | .sgred f => some ⟨.dst (redWide f), .src (redOT f), .no, .raw, f.mod == 0#4 && redOk f false, false⟩
  | .sgscan f => some ⟨.dst (redWide f), .src (redOT f), .no, .raw, f.mod == 0#4 && redOk f true, false⟩
  | .ld f => some ⟨ldDst f, .src .i64, .src .i32, .no, decide ((szOf f).toNat < 7), true⟩
  | .st f => some ⟨.no, .src .i64, .src .i32, stSrc f, storeSz f, false⟩
  | .ldv f => some ⟨.runDst (f.mod.toNat + 1), .src .i64, .src .i32, .no, true, true⟩
  | .stv f => some ⟨.no, .src .i64, .src .i32, .run (f.mod.toNat + 1), true, false⟩
  | .pf f => some ⟨.no, .src .i64, .src .i32, .no, decide (f.mod.toNat < 2), false⟩
  | .ldt f => some ⟨.dst false, .unit 16, .src .i64, .src .i64, f.mod == 0#4, true⟩
  | .ldna f => some ⟨ldDst f, .src .i64, .src .i32, .no, decide ((szOf f).toNat < 7) && f.mod.getLsbD 3 == false, true⟩
  | .stna f => some ⟨.no, .src .i64, .src .i32, stSrc f, storeSz f && f.mod.getLsbD 3 == false, false⟩
  | .ldsp f => some ⟨ldDst f, .src .i32, .src .i32, .no, decide ((szOf f).toNat < 7) && f.mod.getLsbD 3 == false, true⟩
  | .stsp f => some ⟨.no, .src .i32, .src .i32, stSrc f, storeSz f && f.mod.getLsbD 3 == false, false⟩
  | .ldspv f => some ⟨.runDst (f.mod.toNat + 1), .src .i32, .src .i32, .no, true, true⟩
  | .stspv f => some ⟨.no, .src .i32, .src .i32, .run (f.mod.toNat + 1), true, false⟩
  | .xst f => some ⟨.no, .src .i32, .src .i32, stSrc f, storeSz f && f.mod.getLsbD 3 == false, false⟩
  | .xstv f => some ⟨.no, .src .i32, .src .i32, .run (f.mod.toNat + 1), true, false⟩
  | .rld f => some ⟨ldDst f, .src .i32, .src .i32, .no, decide ((szOf f).toNat < 7) && f.mod.getLsbD 3 == false, true⟩
  | .atomI32 _ sc f => some ⟨.dst false, .src (.ofWide (!f.mod.getLsbD 3)), .src .i32, .src .i32, atomScope f sc, true⟩
  | .atomI64 _ sc f => some ⟨.dst true, .src (.ofWide (!f.mod.getLsbD 3)), .src .i32, .src .i64, atomScope f sc, true⟩
  | .atomF32 _ sc f => some ⟨.dst false, .src (.ofWide (!f.mod.getLsbD 3)), .src .i32, .src (.fl .f32), atomScope f sc && fltOp f, true⟩
  | .atomcasB32 _ sc f => some ⟨.dst false, .src (.ofWide (!f.mod.getLsbD 3)), .src .i32, .casPair, atomScope f sc && f.mod.toNat % 8 == 0, true⟩
  | .atomcasB64 _ sc f => some ⟨.dst true, .src (.ofWide (!f.mod.getLsbD 3)), .src .i32, .quad, atomScope f sc && f.mod.toNat % 8 == 0, true⟩
  | .redI32 ord sc f => some ⟨.no, .src (.ofWide (!f.mod.getLsbD 3)), .src .i32, .src .i32, atomScope f sc && redOrd f ord, false⟩
  | .redF32 ord sc f => some ⟨.no, .src (.ofWide (!f.mod.getLsbD 3)), .src .i32, .src (.fl .f32), atomScope f sc && fltOp f && redOrd f ord, false⟩
  | .waddF32 sc f => some ⟨.src .i32, .src (.ofWide (!f.mod.getLsbD 0)), .src .i32, .src (.fl .f32), cellScope f sc, false⟩
  | .waddF64 sc f => some ⟨.src .i32, .src (.ofWide (!f.mod.getLsbD 0)), .src .i32, .src (.fl .f64), cellScope f sc, false⟩
  | .wrdF64 sc f => some ⟨.dst true, .src (.ofWide (!f.mod.getLsbD 0)), .src .i32, .src .i32, cellScope f sc, true⟩
  | .wset sc f => some ⟨.no, .src (.ofWide (!f.mod.getLsbD 0)), .src .i32, .src .i64, cellScope f sc, false⟩
  | .fence sc f => some ⟨.no, .no, .mask6, .mask6, f.mod == 0#4 && decide (sc.toNat < 6), false⟩
  | .ifence f => some ⟨.no, .no, .no, .no, f.mod == 0#4, false⟩
  | .ifenceCp f => some ⟨.no, .no, .no, .no, f.mod == 1#4, false⟩
  | .bar f => some ⟨.no, .imm8 15, .src .i32, .no, f.mod == 0#4, false⟩
  | .bara f => some ⟨.dst false, .imm8 15, .src .i32, .no, f.mod == 0#4, false⟩
  | .barw f => some ⟨.no, .imm8 15, .src .i32, .no, f.mod == 0#4, false⟩
  | .cbinit f => some ⟨.no, .src .i32, .src .i32, .src .i32, f.mod == 0#4, false⟩
  | .cbadd f => some ⟨.dst false, .src .i32, .src .i32, .src .i32, f.mod == 0#4, true⟩
  | .cbwait f => some ⟨.no, .src .i32, .src .i32, .src .i32, f.mod == 0#4, false⟩
  | .xbar f => some ⟨.no, .no, .no, .no, f.mod == 0#4, false⟩
  | .lbar f => some ⟨.no, .no, .no, .no, f.mod == 0#4, false⟩
  | .tlwait f => some ⟨.no, .unit 8, .src .i64, .no, f.mod == 0#4, false⟩
  | .tlread f => some ⟨.dst true, .unit 8, .no, .no, f.mod == 0#4, false⟩
  | .tlreadErr f => some ⟨.dst false, .unit 8, .no, .no, f.mod == 1#4, false⟩
  | .waita f => some ⟨.dst false, .src (.ofWide (f.mod.getLsbD 3)), .src .i32, .src .i32, decide (f.mod.toNat % 8 < 4), false⟩
  | .waitaRecheck _ _ => none
  | .cpkick f => some ⟨.dst true, .src .i32, .src .i32, .src .i32, f.mod == 0#4, true⟩
  | .gath f => some ⟨.dst true, .unit 16, .src .i32, .src .i32, f.mod == 0#4, true⟩
  | .nbpf f => some ⟨.no, .unit 16, .src .i32, .no, f.mod == 0#4, false⟩
  | .adcl f => some ⟨.dst false, .src .i32, .src .i32, .src (.fl .f32), decide (f.mod.toNat < 2), true⟩
  | .topk f => some ⟨.dst false, .src .i32, .src (.fl .f32), .src .i32, f.mod == 0#4, true⟩
  | .coll f => some ⟨.dst true, .src .i32, .src .i32, .no, f.mod == 0#4, true⟩
  | .tsset f => some ⟨.no, .src .i32, .src .i32, .unit 16, f.mod == 0#4, false⟩
  | .tsget f => some ⟨.no, .src .i32, .src .i32, .unit 16, f.mod == 0#4, false⟩
  | .tld f => some ⟨.dst true, .unit 16, .unit 16, .src .i64, decide (f.mod.toNat < 4), true⟩
  | .tst f => some ⟨.dst true, .unit 16, .unit 16, .src .i64, decide (f.mod.toNat < 4), true⟩
  | .tzero f => some ⟨.no, .unit 16, .no, .no, f.mod == 0#4, false⟩
  | .tread f => some ⟨.dst false, .unit 16, .src .i32, .no, decide (f.mod.toNat < 2), false⟩
  | .twrite f => some ⟨.no, .unit 16, .src .i32, .src .i32, decide (f.mod.toNat < 2), false⟩
  | .mldw f => some ⟨.no, .unit 16, .no, .unit 8, f.mod == 0#4, false⟩
  | .mmaa f => some ⟨.mainD, .unit 32, mmaaB f, .unit 8, mmaaMod f.mod, false⟩
  | .mcommit f => some ⟨.dst true, .unit 8, .no, .no, f.mod == 0#4, true⟩
  | .mwait f => some ⟨.no, .unit 8, .src .i64, .no, f.mod == 0#4, false⟩
  | .mscale f => some ⟨.no, .src .i32, .imm8 255, .unit 8, f.mod == 0#4, false⟩
  | .mscaleClr f => some ⟨.no, .no, .no, .unit 8, f.mod == 1#4, false⟩
  | .ttask f => some ⟨.dst true, .src .i32, .src .i32, .no, f.mod == 0#4, true⟩
  | .fcall f => some ⟨.mainD, .mainS, .unit 16, .no, f.mod == 0#4, true⟩
  | .fret f => some ⟨.no, .mainS, .mainS, .unit 16, f.mod == 0#4, false⟩
  | .fsprobe f => some ⟨.mainD, .mainS, .unit 16, .pred, f.mod == 0#4, true⟩
  | .fsdesc f => some ⟨.no, .src .i64, .src .i32, .unit 16, f.mod == 0#4, false⟩
  | .fsflush f => some ⟨.no, .unit 16, .no, .no, f.mod == 0#4, false⟩
  | .fsflushAll f => some ⟨.no, .unit 16, .no, .no, f.mod == 1#4, false⟩
  | .fsstat f => some ⟨.dst false, .unit 16, .src .i32, .no, f.mod == 0#4, true⟩
  | .fsstatRec f => some ⟨.dst false, .unit 16, .src .i32, .no, f.mod == 1#4, true⟩
  | .lainit f => some ⟨.no, .unit 4, .src .i32, .src (.fl .f64), f.mod == 0#4, false⟩
  | .laaddF32 f => some ⟨.no, .unit 4, .src (.fl .f32), .no, f.mod == 0#4, false⟩
  | .laaddF64 f => some ⟨.no, .unit 4, .src (.fl .f64), .no, f.mod == 0#4, false⟩
  | .lackp f => some ⟨.no, .unit 4, .no, .no, f.mod == 0#4, false⟩
  | .laest f => some ⟨.dst true, .unit 4, .no, .no, f.mod == 0#4, true⟩
  | .laget f => some ⟨.dst true, .unit 4, .src .i32, .no, f.mod == 0#4, true⟩
  | .lastat f => some ⟨.dst false, .unit 4, .no, .no, f.mod == 0#4, true⟩
  | .trap f => some ⟨.no, .src .i32, .no, .no, f.mod == 0#4, false⟩
  | .tret f => some ⟨.no, .no, .no, .no, f.mod == 0#4, false⟩
  | .tmask f => some ⟨.dst false, .src .i32, .no, .no, f.mod == 0#4, false⟩
  | .bkpt f => some ⟨.no, .imm8 255, .no, .no, f.mod == 0#4, false⟩
  | .sysr f => some ⟨.dst (f.mod == 1#4), .imm8 255, .no, .no, decide (f.mod.toNat < 2), false⟩
  | .sysw f => some ⟨.no, .imm8 255, .src (.ofWide (f.mod == 1#4)), .no, decide (f.mod.toNat < 2), false⟩
  | .qrel f => some ⟨.no, .src .i32, .no, .no, f.mod == 0#4, false⟩
  | .qclm f => some ⟨.no, .src .i32, .no, .no, f.mod == 0#4, false⟩
  | .qget f => some ⟨.dst false, .no, .no, .no, decide (f.mod.toNat < 4), false⟩
  | .ewin f => some ⟨.dst false, .imm8 255, .no, .no, f.mod == 0#4, false⟩
  | .ewset f => some ⟨.no, .src .i32, .imm8 3, .no, f.mod == 0#4, false⟩
  | .ewsetNext f => some ⟨.no, .src .i64, .no, .no, f.mod == 1#4, false⟩
  | .eret f => some ⟨.no, .no, .no, .no, f.mod == 0#4, false⟩
  | .efwd f => some ⟨.no, .no, .no, .no, f.mod == 0#4, false⟩
  | .emulationVector _ _ => none
  | .clauseEntry => none
  | .issueGroupForm _ => none
  | .issuePortYield _ => none
  | .resultReturn _ _ => none
  | .handlerOverrun _ _ => none
  | .heldAccessPerform _ _ => none
  | .kfUqpush _ => none
  | .kfTcfg _ _ _ => none
  | .kfTsset _ _ _ => none
  | .kfCpkick _ _ _ => none
  | .kfFsdesc _ _ _ => none
  | .kfGid _ _ => none
  | .kfQnotify _ _ => none
  | .kfHold _ => none
  | .hartEcall => none
  | .matrixAccept _ => none
  | .matrixLastMac _ => none
  | .matrixBatchComplete _ _ _ => none
  | .copyDataPerformed _ _ _ => none
  | .copyComplete _ => none
  | .tileTransferComplete _ => none
  | .gatherComplete _ => none
  | .collectiveComplete _ _ _ => none
  | .tileTaskDispatch _ _ => none
  | .tileTaskComplete _ => none
  | .gongAging _ _ => none
  | .groupPlacement _ _ => none
  | .groupStart _ => none
  | .groupEvict _ => none
  | .groupRestore _ _ => none
  | .kernelComplete _ => none
  | .mergeApply _ => none
  | .graphNodeDispatch _ _ => none
  | .graphNodeComplete _ _ => none
  | .qnotify _ _ _ => none
  | .queueEnable _ _ => none
  | .queueDisable _ _ => none
  | .queueSkip _ _ => none
  | .packetFetch _ _ => none
  | .launchPkt _ _ => none
  | .waitPkt _ _ => none
  | .waitSatisfied _ _ => none
  | .markPkt _ _ => none
  | .copyPkt _ _ => none
  | .copyPacketComplete _ => none
  | .detmodePkt _ _ => none
  | .graphPkt _ _ => none
  | .create _ => none
  | .destroy _ => none
  | .teardownComplete _ => none
  | .quiesce _ => none
  | .quiesceComplete _ => none
  | .resume _ => none
  | .checkpoint _ => none
  | .restore _ => none
  | .loadObj _ => none
  | .resumet _ => none
  | .setbudget _ => none
  | .ctxcmdInvalid _ => none
  | .replay _ => none
  | .replayall _ => none
  | .inval _ => none
  | .invalall _ => none
  | .rreplay _ => none
  | .rreplayall _ => none
  | .rsync _ => none
  | .pgcmdDiscard _ _ => none
  | .detmodeWrite _ _ => none
  | .pwrpoolWrite _ _ => none
  | .partcfgWrite _ _ => none
  | .pfqEnable _ _ => none
  | .pfqconsWrite _ _ => none
  | .fqconsWrite _ _ => none
  | .faultRecordDeferred _ _ => none
  | .rangeEntryWrite _ _ _ => none
  | .vfownWrite _ _ => none
  | .commEntryWrite _ _ _ => none
  | .registerWrite _ _ => none
  | .partitionCreate _ _ => none
  | .partitionDestroy _ => none
  | .packageReset _ => none
  | .bankLoad _ _ => none
  | .thermalLimit _ _ => none
  | .criticalTemperature _ => none
  | .fabricPacketReceive _ _ => none
  | .attestationRequest _ _ _ => none
  | .identityRequest _ => none
  | .flitCheckFail _ => none
  | .portTraining _ _ _ => none
  | .ethConnectionFail _ _ => none
  | .limiterRefill _ => none
  | .hartRv64gcInstruction _ _ => none
  | .uncorrectableError _ => none
  | .ethernetFrameReceive _ _ _ => none
  | .firmwareUpdate _ => none

/-- The fields of a vector instruction. -/
def fieldsOf : Instr → Option Fields
  | .nop f => some f
  | .bra f => some f
  | .brp f => some f
  | .brx f => some f
  | .call f => some f
  | .callx f => some f
  | .ret f => some f
  | .convJ f => some f
  | .joinJ f => some f
  | .elect f => some f
  | .exit f => some f
  | .yield f => some f
  | .iaddI32 f => some f
  | .iaddI64 f => some f
  | .isubI32 f => some f
  | .isubI64 f => some f
  | .imulI32 f => some f
  | .imulhI32 f => some f
  | .imulhN32 f => some f
  | .imadI32 f => some f
  | .imadwI64 f => some f
  | .iminI32 f => some f
  | .iminN32 f => some f
  | .imaxI32 f => some f
  | .imaxN32 f => some f
  | .iabsI32 f => some f
  | .inegI32 f => some f
  | .icmpI32 f => some f
  | .icmpN32 f => some f
  | .icmpI64 f => some f
  | .icmpN64 f => some f
  | .lea f => some f
  | .leaI64 f => some f
  | .idivI32 f => some f
  | .idivN32 f => some f
  | .iremI32 f => some f
  | .iremN32 f => some f
  | .idot4I8 f => some f
  | .idot4N8 f => some f
  | .idot8I4 f => some f
  | .iclampI32 f => some f
  | .and f => some f
  | .or f => some f
  | .xor f => some f
  | .andn f => some f
  | .not f => some f
  | .shl f => some f
  | .shr f => some f
  | .sar f => some f
  | .rotl f => some f
  | .shlI64 f => some f
  | .shrI64 f => some f
  | .sarI64 f => some f
  | .bfeN32 f => some f
  | .bfeI32 f => some f
  | .bfi f => some f
  | .popc f => some f
  | .clz f => some f
  | .brev f => some f
  | .bperm f => some f
  | .faddF32 f => some f
  | .faddF64 f => some f
  | .fsubF32 f => some f
  | .fsubF64 f => some f
  | .fmulF32 f => some f
  | .fmulF64 f => some f
  | .ffmaF32 f => some f
  | .ffmaF64 f => some f
  | .fdivF32 f => some f
  | .fdivF64 f => some f
  | .fminF32 f => some f
  | .fminF64 f => some f
  | .fmaxF32 f => some f
  | .fmaxF64 f => some f
  | .fcmpF32 f => some f
  | .fcmpF64 f => some f
  | .frcpF32 f => some f
  | .frcpF64 f => some f
  | .frsqF32 f => some f
  | .frsqF64 f => some f
  | .fsqrtF32 f => some f
  | .fsqrtF64 f => some f
  | .fexp2F32 f => some f
  | .flog2F32 f => some f
  | .fsinpF32 f => some f
  | .fcospF32 f => some f
  | .fclassF32 f => some f
  | .fclassF64 f => some f
  | .fabs f => some f
  | .fneg f => some f
  | .fcopysign f => some f
  | .hadd2F16 f => some f
  | .hadd2Bf16 f => some f
  | .hmul2F16 f => some f
  | .hmul2Bf16 f => some f
  | .hfma2F16 f => some f
  | .hfma2Bf16 f => some f
  | .hmin2F16 f => some f
  | .hmin2Bf16 f => some f
  | .hmax2F16 f => some f
  | .hmax2Bf16 f => some f
  | .hcmp2F16 f => some f
  | .hcmp2Bf16 f => some f
  | .hdot2F16 f => some f
  | .hdot2Bf16 f => some f
  | .cvt f => some f
  | .cvts f => some f
  | .frndF32 f => some f
  | .frndF64 f => some f
  | .scalebF32 f => some f
  | .frexpF32 f => some f
  | .frexpExpF32 f => some f
  | .pack2 f => some f
  | .unpk2 f => some f
  | .packq f => some f
  | .rndc f => some f
  | .rndcW f => some f
  | .mov f => some f
  | .movs f => some f
  | .sel f => some f
  | .pset f => some f
  | .pmovGet f => some f
  | .pmovPut f => some f
  | .perm f => some f
  | .permx f => some f
  | .permu f => some f
  | .permd f => some f
  | .bcast f => some f
  | .vote f => some f
  | .ballot f => some f
  | .matchL f => some f
  | .sgred f => some f
  | .sgscan f => some f
  | .ld f => some f
  | .st f => some f
  | .ldv f => some f
  | .stv f => some f
  | .pf f => some f
  | .ldt f => some f
  | .ldna f => some f
  | .stna f => some f
  | .ldsp f => some f
  | .stsp f => some f
  | .ldspv f => some f
  | .stspv f => some f
  | .xst f => some f
  | .xstv f => some f
  | .rld f => some f
  | .atomI32 _ _ f => some f
  | .atomI64 _ _ f => some f
  | .atomF32 _ _ f => some f
  | .atomcasB32 _ _ f => some f
  | .atomcasB64 _ _ f => some f
  | .redI32 _ _ f => some f
  | .redF32 _ _ f => some f
  | .waddF32 _ f => some f
  | .waddF64 _ f => some f
  | .wrdF64 _ f => some f
  | .wset _ f => some f
  | .fence _ f => some f
  | .ifence f => some f
  | .ifenceCp f => some f
  | .bar f => some f
  | .bara f => some f
  | .barw f => some f
  | .cbinit f => some f
  | .cbadd f => some f
  | .cbwait f => some f
  | .xbar f => some f
  | .lbar f => some f
  | .tlwait f => some f
  | .tlread f => some f
  | .tlreadErr f => some f
  | .waita f => some f
  | .cpkick f => some f
  | .gath f => some f
  | .nbpf f => some f
  | .adcl f => some f
  | .topk f => some f
  | .coll f => some f
  | .tsset f => some f
  | .tsget f => some f
  | .tld f => some f
  | .tst f => some f
  | .tzero f => some f
  | .tread f => some f
  | .twrite f => some f
  | .mldw f => some f
  | .mmaa f => some f
  | .mcommit f => some f
  | .mwait f => some f
  | .mscale f => some f
  | .mscaleClr f => some f
  | .ttask f => some f
  | .fcall f => some f
  | .fret f => some f
  | .fsprobe f => some f
  | .fsdesc f => some f
  | .fsflush f => some f
  | .fsflushAll f => some f
  | .fsstat f => some f
  | .fsstatRec f => some f
  | .lainit f => some f
  | .laaddF32 f => some f
  | .laaddF64 f => some f
  | .lackp f => some f
  | .laest f => some f
  | .laget f => some f
  | .lastat f => some f
  | .trap f => some f
  | .tret f => some f
  | .tmask f => some f
  | .bkpt f => some f
  | .sysr f => some f
  | .sysw f => some f
  | .qrel f => some f
  | .qclm f => some f
  | .qget f => some f
  | .ewin f => some f
  | .ewset f => some f
  | .ewsetNext f => some f
  | .eret f => some f
  | .efwd f => some f
  | _ => none

/-- Whether an operand level and index are not reserved, and even where a pair is read (R61, R64). -/
def operandOk (wide : Bool) : Operand → Bool
  | .main i => !wide || !i.getLsbD 0
  | .opf i => decide (i.toNat < 16) && (!wide || !i.getLsbD 0)
  | .latch i => decide (i.toNat < 2)
  | .special i => decide (i.toNat < 16) || decide (32 ≤ i.toNat)

/-- Whether an operand may be a destination of one or two registers (R64). -/
def dstOk (wide : Bool) : Operand → Bool
  | .main i => !wide || !i.getLsbD 0
  | .opf i => decide (i.toNat < 16) && (!wide || !i.getLsbD 0)
  | .latch _ => false
  | .special i => i == 3#7

/-- Whether an operand starts four registers at main or operand-file level (R144, R157). -/
def quadOk : Operand → Bool
  | .main i => i.toNat % 4 == 0
  | .opf i => decide (i.toNat < 16) && i.toNat % 4 == 0
  | _ => false

/-- The check of one operand field (R64, R106, R139). -/
def fieldOk (k : FK) (o : Operand) : Bool :=
  match k with
  | .no => o == .main 0#7
  | .src t => operandOk t.wide o
  | .dst w => dstOk w o
  | .pred => decide ((opBits o).toNat < 8)
  | .imm8 mx => decide ((opBits o).toNat ≤ mx)
  | .unit n => decide (0x1C0 ≤ (opBits o).toNat) && decide ((opBits o).toNat < 0x1C0 + n)
  | .run n => match o with | .main i => decide (i.toNat + n ≤ 128) | _ => false
  | .runDst n => match o with | .main i => decide (i.toNat + n ≤ 128) | _ => false
  | .quad => quadOk o
  | .quadDst => quadOk o
  | .casPair => match o with
    | .main i => !i.getLsbD 0
    | .opf i => decide (i.toNat < 16) && !i.getLsbD 0
    | _ => false
  | .mainS => match o with | .main _ => true | _ => false
  | .mainD => match o with | .main _ => true | _ => false
  | .mask6 => decide ((opBits o).toNat < 64)
  | .raw => true

/-- A last-read mark needs a source at main level (R64); runs whose length a table gives take none (R210). -/
def lrOk (k : FK) (o : Operand) (marked : Bool) : Bool :=
  !marked || (match k, o with
    | .src _, .main _ => true
    | .run _, .main _ => true
    | .quad, .main _ => true
    | .casPair, .main _ => true
    | _, _ => false)

/-- The checks of R64 on a word whose entry is `e`. -/
def encOk (e : Enc) (f : Fields) : Bool :=
  e.ok && (e.long || f.ahd == 0#4) && (f.pe || (!f.pn && f.pi == 0#3)) &&
  fieldOk e.d f.d && fieldOk e.a f.a && fieldOk e.b f.b && fieldOk e.c f.c &&
  lrOk e.a f.a (f.lr.getLsbD 0) && lrOk e.b f.b (f.lr.getLsbD 1) && lrOk e.c f.c (f.lr.getLsbD 2)

/-- The literal word field value (R61). -/
def isLit (o : Operand) : Bool := o == .special 2#7

/-- How many literal words a field takes (R62): one when a source operand names `lit`; a field that the entry does not use as a
source takes none, whatever it holds (log 89). -/
def litsOf (k : FK) (o : Operand) : Nat :=
  match k with
  | .src _ => if isLit o then 1 else 0
  | _ => 0

/-- Whether an instruction reads its d field as a source (R160). -/
def readsD : Instr → Bool
  | .waddF32 _ _ => true
  | .waddF64 _ _ => true
  | _ => false

/-- The literal words an instruction takes, in the order a, b, c, then d where d is read (R62). -/
def litCount (i : Instr) : Nat :=
  match encOf i, fieldsOf i with
  | some e, some f =>
    litsOf e.a f.a + litsOf e.b f.b + litsOf e.c f.c + (if readsD i then litsOf e.d f.d else 0)
  | _, _ => 0

/-- The fields of REP that must be zero are (R71). -/
def repFieldsOk (r : RepFields) : Bool := r.res == 0#30

end Sys2Proof.Machine
end

