-- ==== Sys2Proof/WellFormed.lean ====
section
/-! DEFINITION. Well-formed instructions: a vector word whose fields pass R64, a REP word whose reserved fields are zero
(R71), a RISC-V length of two or four bytes. A slot that holds an ill-formed vector instruction traps (R64): the machine
tests the fields itself, so this predicate only names what the encoder promises. -/
namespace Sys2Proof

/-- The forms of a RISC-V word whose operand codes name something (R251). -/
def RvInstr.wf : RvInstr → Bool
  | .load w _ _ _ => w != 7#3
  | .opImm o _ _ _ => o != .sub
  | .opImmW o _ _ _ => o == .add || o == .sll || o == .srl || o == .sra
  | .opW o _ _ _ => o == .add || o == .sub || o == .sll || o == .srl || o == .sra
  | .mulDivW o _ _ _ => o == .mul || o == .div || o == .divu || o == .rem || o == .remu
  | .csr f _ _ _ => f != 0#3 && f != 4#3
  | .illegal => false
  | _ => true

/-- Well-formed instructions; rows that are events carry nothing to check. -/
def Instr.wf (i : Instr) : Bool :=
  match i with
  | .rep r => Machine.repFieldsOk r
  | .emulationVector why _ => why != 3#2
  | .hartRv64gcInstruction len r => (len == 2#3 || len == 4#3) && r.wf
  | _ =>
    match Machine.encOf i, Machine.fieldsOf i with
    | some e, some f => Machine.encOk e f
    | _, _ => true

end Sys2Proof
end

