-- ==== Sys2Proof/Decode.lean ====
section
/-! DEFINITION. The decoder and the encoder. Vector words: the field layout of R60-R61, the opcode map of R73 under the K7
decode (an opcode the K7 does not define vectors, R73; the bank's own marks are applied by the step). Hart words: custom-0
Xkf words (R252), ecall, and the ordinary RV64GC words (R251; log 15). -/
namespace Sys2Proof

/-- Bits [lo+n-1 : lo] of a 64-bit word. -/
def wbits (w : W64) (lo n : Nat) : BitVec n := w.extractLsb' lo n

/-- An operand field (R61). -/
def operandOf (b : BitVec 9) : Operand :=
  let i : BitVec 7 := b.extractLsb' 0 7
  match (b.extractLsb' 7 2).toNat with
  | 0 => .main i
  | 1 => .opf i
  | 2 => .latch i
  | _ => .special i

/-- The fields of an instruction word (R60). -/
def fieldsAt (w : W64) : Fields :=
  { ahd := wbits w 12 4, d := operandOf (wbits w 16 9), a := operandOf (wbits w 25 9), b := operandOf (wbits w 34 9),
    c := operandOf (wbits w 43 9), lr := wbits w 52 3, pn := w.getLsbD 55, pi := wbits w 56 3, pe := w.getLsbD 59,
    mod := wbits w 60 4 }

/-- The fields of a REP word (R71). -/
def repFieldsAt (w : W64) : RepFields :=
  { sc := wbits w 37 4, sb := wbits w 33 4, sa := wbits w 29 4, sd := wbits w 25 4, rc := wbits w 16 6,
    res := wbits w 41 23 ++ wbits w 22 3 ++ wbits w 12 4 }

/-- Opcodes of group 0x0 (R73). -/
def decodeG0 (op : Nat) (f : Fields) : Option Instr :=
  match op with
  | 0x0 => some (.nop f)
  | 0x10 => some (.bra f)
  | 0x11 => some (.brp f)
  | 0x12 => some (.brx f)
  | 0x13 => some (.call f)
  | 0x14 => some (.callx f)
  | 0x15 => some (.ret f)
  | 0x20 => some (.convJ f)
  | 0x21 => some (.joinJ f)
  | 0x22 => some (.elect f)
  | 0x30 => some (.exit f)
  | 0x31 => some (.yield f)
  | _ => none

/-- Opcodes of group 0x1 (R73). -/
def decodeG1 (op : Nat) (f : Fields) : Option Instr :=
  match op with
  | 0x100 => some (.iaddI32 f)
  | 0x101 => some (.iaddI64 f)
  | 0x102 => some (.isubI32 f)
  | 0x103 => some (.isubI64 f)
  | 0x104 => some (.imulI32 f)
  | 0x105 => some (.imulhI32 f)
  | 0x106 => some (.imulhN32 f)
  | 0x107 => some (.imadI32 f)
  | 0x108 => some (.imadwI64 f)
  | 0x109 => some (.iminI32 f)
  | 0x10A => some (.iminN32 f)
  | 0x10B => some (.imaxI32 f)
  | 0x10C => some (.imaxN32 f)
  | 0x10D => some (.iabsI32 f)
  | 0x10E => some (.inegI32 f)
  | 0x110 => some (.icmpI32 f)
  | 0x111 => some (.icmpN32 f)
  | 0x112 => some (.icmpI64 f)
  | 0x113 => some (.icmpN64 f)
  | 0x118 => some (.lea f)
  | 0x119 => some (.leaI64 f)
  | 0x120 => some (.idivI32 f)
  | 0x121 => some (.idivN32 f)
  | 0x122 => some (.iremI32 f)
  | 0x123 => some (.iremN32 f)
  | 0x130 => some (.idot4I8 f)
  | 0x131 => some (.idot4N8 f)
  | 0x132 => some (.idot8I4 f)
  | 0x138 => some (.iclampI32 f)
  | _ => none

/-- Opcodes of group 0x2 (R73). -/
def decodeG2 (op : Nat) (f : Fields) : Option Instr :=
  match op with
  | 0x200 => some (.and f)
  | 0x201 => some (.or f)
  | 0x202 => some (.xor f)
  | 0x203 => some (.andn f)
  | 0x204 => some (.not f)
  | 0x208 => some (.shl f)
  | 0x209 => some (.shr f)
  | 0x20A => some (.sar f)
  | 0x20B => some (.rotl f)
  | 0x20C => some (.shlI64 f)
  | 0x20D => some (.shrI64 f)
  | 0x20E => some (.sarI64 f)
  | 0x210 => some (.bfeN32 f)
  | 0x211 => some (.bfeI32 f)
  | 0x212 => some (.bfi f)
  | 0x218 => some (.popc f)
  | 0x219 => some (.clz f)
  | 0x21A => some (.brev f)
  | 0x21B => some (.bperm f)
  | _ => none

/-- Opcodes of group 0x3 (R73). -/
def decodeG3 (op : Nat) (f : Fields) : Option Instr :=
  match op with
  | 0x300 => some (.faddF32 f)
  | 0x301 => some (.faddF64 f)
  | 0x302 => some (.fsubF32 f)
  | 0x303 => some (.fsubF64 f)
  | 0x304 => some (.fmulF32 f)
  | 0x305 => some (.fmulF64 f)
  | 0x306 => some (.ffmaF32 f)
  | 0x307 => some (.ffmaF64 f)
  | 0x308 => some (.fminF32 f)
  | 0x309 => some (.fminF64 f)
  | 0x30A => some (.fmaxF32 f)
  | 0x30B => some (.fmaxF64 f)
  | 0x30C => some (.fcmpF32 f)
  | 0x30D => some (.fcmpF64 f)
  | 0x310 => some (.frcpF32 f)
  | 0x311 => some (.frcpF64 f)
  | 0x312 => some (.frsqF32 f)
  | 0x313 => some (.frsqF64 f)
  | 0x314 => some (.fsqrtF32 f)
  | 0x315 => some (.fsqrtF64 f)
  | 0x316 => some (.fdivF32 f)
  | 0x317 => some (.fdivF64 f)
  | 0x318 => some (.fexp2F32 f)
  | 0x319 => some (.flog2F32 f)
  | 0x31A => some (.fsinpF32 f)
  | 0x31B => some (.fcospF32 f)
  | 0x31C => some (.fclassF32 f)
  | 0x31D => some (.fclassF64 f)
  | 0x320 => some (.fabs f)
  | 0x321 => some (.fneg f)
  | 0x322 => some (.fcopysign f)
  | _ => none

/-- Opcodes of group 0x4 (R73). -/
def decodeG4 (op : Nat) (f : Fields) : Option Instr :=
  match op with
  | 0x400 => some (.hadd2F16 f)
  | 0x401 => some (.hadd2Bf16 f)
  | 0x402 => some (.hmul2F16 f)
  | 0x403 => some (.hmul2Bf16 f)
  | 0x404 => some (.hfma2F16 f)
  | 0x405 => some (.hfma2Bf16 f)
  | 0x406 => some (.hmin2F16 f)
  | 0x407 => some (.hmin2Bf16 f)
  | 0x408 => some (.hmax2F16 f)
  | 0x409 => some (.hmax2Bf16 f)
  | 0x40A => some (.hcmp2F16 f)
  | 0x40B => some (.hcmp2Bf16 f)
  | 0x410 => some (.hdot2F16 f)
  | 0x411 => some (.hdot2Bf16 f)
  | _ => none

/-- Opcodes of group 0x5 (R73). -/
def decodeG5 (op : Nat) (f : Fields) : Option Instr :=
  match op with
  | 0x500 => some (.cvt f)
  | 0x501 => some (.cvts f)
  | 0x502 => some (.frndF32 f)
  | 0x503 => some (.frndF64 f)
  | 0x504 => some (.scalebF32 f)
  | 0x505 => some (if f.mod == 1#4 then .frexpExpF32 f else .frexpF32 f)
  | 0x506 => some (.pack2 f)
  | 0x507 => some (.unpk2 f)
  | 0x508 => some (.packq f)
  | 0x510 => some (.rndc f)
  | 0x511 => some (.rndcW f)
  | _ => none

/-- Opcodes of group 0x6 (R73). -/
def decodeG6 (op : Nat) (f : Fields) : Option Instr :=
  match op with
  | 0x600 => some (.mov f)
  | 0x602 => some (.movs f)
  | 0x603 => some (.sel f)
  | 0x604 => some (.pset f)
  | 0x605 => some (if f.mod == 1#4 then .pmovPut f else .pmovGet f)
  | 0x610 => some (.perm f)
  | 0x611 => some (.permx f)
  | 0x612 => some (.permu f)
  | 0x613 => some (.permd f)
  | 0x614 => some (.bcast f)
  | 0x618 => some (.vote f)
  | 0x619 => some (.ballot f)
  | 0x61A => some (.matchL f)
  | 0x620 => some (.sgred f)
  | 0x621 => some (.sgscan f)
  | _ => none

/-- Opcodes of group 0x7 (R73). -/
def decodeG7 (op : Nat) (f : Fields) : Option Instr :=
  match op with
  | 0x700 => some (.ld f)
  | 0x701 => some (.st f)
  | 0x702 => some (.ldv f)
  | 0x703 => some (.stv f)
  | 0x704 => some (.pf f)
  | 0x705 => some (.ldt f)
  | 0x708 => some (.ldna f)
  | 0x709 => some (.stna f)
  | _ => none

/-- Opcodes of group 0x8 (R73). -/
def decodeG8 (op : Nat) (f : Fields) : Option Instr :=
  match op with
  | 0x800 => some (.ldsp f)
  | 0x801 => some (.stsp f)
  | 0x802 => some (.ldspv f)
  | 0x803 => some (.stspv f)
  | 0x808 => some (.xst f)
  | 0x809 => some (.xstv f)
  | 0x80A => some (.rld f)
  | _ => none

/-- Opcodes of group 0xA (R73). -/
def decodeGA (op : Nat) (f : Fields) : Option Instr :=
  match op with
  | 0xA08 => some (if f.mod == 1#4 then .ifenceCp f else .ifence f)
  | 0xA10 => some (.bar f)
  | 0xA11 => some (.bara f)
  | 0xA12 => some (.barw f)
  | 0xA18 => some (.cbinit f)
  | 0xA19 => some (.cbadd f)
  | 0xA1A => some (.cbwait f)
  | 0xA20 => some (.xbar f)
  | 0xA28 => some (.lbar f)
  | 0xA30 => some (.tlwait f)
  | 0xA31 => some (if f.mod == 1#4 then .tlreadErr f else .tlread f)
  | 0xA38 => some (.waita f)
  | _ => if 0xA00 ≤ op ∧ op ≤ 0xA07 then some (.fence (BitVec.ofNat 3 op) f) else none

/-- Opcodes of group 0xB (R73). -/
def decodeGB (op : Nat) (f : Fields) : Option Instr :=
  match op with
  | 0xB00 => some (.cpkick f)
  | 0xB08 => some (.gath f)
  | 0xB09 => some (.nbpf f)
  | 0xB10 => some (.adcl f)
  | 0xB11 => some (.topk f)
  | 0xB18 => some (.coll f)
  | 0xB20 => some (.tsset f)
  | 0xB21 => some (.tsget f)
  | _ => none

/-- Opcodes of group 0xC (R73). -/
def decodeGC (op : Nat) (f : Fields) : Option Instr :=
  match op with
  | 0xC00 => some (.tld f)
  | 0xC01 => some (.tst f)
  | 0xC02 => some (.tzero f)
  | 0xC08 => some (.tread f)
  | 0xC09 => some (.twrite f)
  | 0xC10 => some (.mldw f)
  | 0xC11 => some (.mmaa f)
  | 0xC12 => some (.mcommit f)
  | 0xC13 => some (.mwait f)
  | 0xC14 => some (if f.mod == 1#4 then .mscaleClr f else .mscale f)
  | 0xC18 => some (.ttask f)
  | _ => none

/-- Opcodes of group 0xD (R73). -/
def decodeGD (op : Nat) (f : Fields) : Option Instr :=
  match op with
  | 0xD00 => some (.fcall f)
  | 0xD01 => some (.fret f)
  | 0xD02 => some (.fsprobe f)
  | 0xD03 => some (.fsdesc f)
  | 0xD04 => some (if f.mod == 1#4 then .fsflushAll f else .fsflush f)
  | 0xD05 => some (if f.mod == 1#4 then .fsstatRec f else .fsstat f)
  | 0xD10 => some (.lainit f)
  | 0xD11 => some (.laaddF32 f)
  | 0xD12 => some (.laaddF64 f)
  | 0xD13 => some (.lackp f)
  | 0xD14 => some (.laest f)
  | 0xD15 => some (.laget f)
  | 0xD16 => some (.lastat f)
  | _ => none

/-- Opcodes of group 0xE (R73). -/
def decodeGE (op : Nat) (f : Fields) : Option Instr :=
  match op with
  | 0xE00 => some (.trap f)
  | 0xE01 => some (.tret f)
  | 0xE02 => some (.tmask f)
  | 0xE03 => some (.bkpt f)
  | 0xE08 => some (.sysr f)
  | 0xE09 => some (.sysw f)
  | 0xE10 => some (.qrel f)
  | 0xE11 => some (.qclm f)
  | 0xE12 => some (.qget f)
  | 0xE18 => some (.ewin f)
  | 0xE19 => some (if f.mod == 1#4 then .ewsetNext f else .ewset f)
  | 0xE1A => some (.eret f)
  | 0xE1B => some (.efwd f)
  | _ => none

/-- Opcodes of group 0x9 (R73): op [4:3] ordering and [2:0] scope, or op [2:0] scope. -/
def decodeG9 (op : Nat) (f : Fields) : Option Instr :=
  let sc := BitVec.ofNat 3 op
  let ord := BitVec.ofNat 2 (op / 8)
  match op / 32 with
  | 0x48 => some (.atomI32 ord sc f)
  | 0x49 => some (.atomI64 ord sc f)
  | 0x4A => some (.atomF32 ord sc f)
  | 0x4B => some (.atomcasB32 ord sc f)
  | 0x4C => some (.atomcasB64 ord sc f)
  | 0x4D => some (.redI32 ord sc f)
  | 0x4E => some (.redF32 ord sc f)
  | 0x4F => some (match op / 8 % 4 with
    | 0 => .waddF32 sc f | 1 => .waddF64 sc f | 2 => .wrdF64 sc f | _ => .wset sc f)
  | _ => none

/-- The instruction of an opcode the K7 defines (R73), REP apart. -/
def decodeOp (op : Nat) (f : Fields) : Option Instr :=
  match op / 256 with
  | 0x0 => decodeG0 op f
  | 0x1 => decodeG1 op f
  | 0x2 => decodeG2 op f
  | 0x3 => decodeG3 op f
  | 0x4 => decodeG4 op f
  | 0x5 => decodeG5 op f
  | 0x6 => decodeG6 op f
  | 0x7 => decodeG7 op f
  | 0x8 => decodeG8 op f
  | 0x9 => decodeG9 op f
  | 0xA => decodeGA op f
  | 0xB => decodeGB op f
  | 0xC => decodeGC op f
  | 0xD => decodeGD op f
  | 0xE => decodeGE op f
  | _ => none

/-- The opcode of a word (R60). -/
def opAt (w : W64) : Nat := (wbits w 0 12).toNat

/-- R73, R245: a vector word as the K7 decode reads it; `why` is 2 in group 0xF and 0 for the other undefined opcodes. -/
def decodeWord (w : W64) : Instr :=
  if opAt w = 1 then .rep (repFieldsAt w)
  else match decodeOp (opAt w) (fieldsAt w) with
    | some i => i
    | none => .emulationVector (if 0xF00 ≤ opAt w then 2#2 else 0#2) w

/-- The word with an opcode and fields (R60). -/
def packWord (op : BitVec 12) (f : Fields) : W64 :=
  f.mod ++ BitVec.ofBool f.pe ++ f.pi ++ BitVec.ofBool f.pn ++ f.lr ++ Machine.opBits f.c ++ Machine.opBits f.b ++
    Machine.opBits f.a ++ Machine.opBits f.d ++ f.ahd ++ op

/-- The REP word with given fields (R71). -/
def packRep (r : RepFields) : W64 :=
  (r.res.extractLsb' 7 23 : BitVec 23) ++ r.sc ++ r.sb ++ r.sa ++ r.sd ++ (r.res.extractLsb' 4 3 : BitVec 3) ++ r.rc ++
    (r.res.extractLsb' 0 4 : BitVec 4) ++ (1#12 : BitVec 12)


/-! ## Hart words -/

/-- Bits [lo+n-1 : lo] of a 32-bit word. -/
def hbits (w : W32) (lo n : Nat) : BitVec n := w.extractLsb' lo n

def rvRd (w : W32) : BitVec 5 := hbits w 7 5
def rvRs1 (w : W32) : BitVec 5 := hbits w 15 5
def rvRs2 (w : W32) : BitVec 5 := hbits w 20 5
def rvF3 (w : W32) : Nat := (hbits w 12 3).toNat
def rvF7 (w : W32) : Nat := (hbits w 25 7).toNat
def immI (w : W32) : W64 := (hbits w 20 12).signExtend 64
def immS (w : W32) : W64 := (hbits w 25 7 ++ hbits w 7 5).signExtend 64
def immB (w : W32) : W64 := (hbits w 31 1 ++ hbits w 7 1 ++ hbits w 25 6 ++ hbits w 8 4 ++ 0#1).signExtend 64
def immU (w : W32) : W64 := (hbits w 12 20 ++ 0#12).signExtend 64
def immJ (w : W32) : W64 := (hbits w 31 1 ++ hbits w 12 8 ++ hbits w 20 1 ++ hbits w 21 10 ++ 0#1).signExtend 64

/-- R252: an Xkf word, or none when it is an illegal instruction. -/
def decodeXkf (w : W32) : Option Instr :=
  let rd := rvRd w; let a := rvRs1 w; let b := rvRs2 w
  if rvF7 w ≠ 0 then none
  else match rvF3 w with
    | 0 => if rd = 0#5 ∧ b = 0#5 then some (.kfUqpush a) else none
    | 1 => some (.kfTcfg rd a b)
    | 2 => some (.kfTsset rd a b)
    | 3 => some (.kfCpkick rd a b)
    | 4 => some (.kfFsdesc rd a b)
    | 5 => if b = 0#5 then some (.kfGid rd a) else none
    | 6 => if rd = 0#5 then some (.kfQnotify a b) else none
    | _ => if rd = 0#5 ∧ b = 0#5 then some (.kfHold a) else none

def rvBr : Nat → Option RvBr
  | 0 => some .eq | 1 => some .ne | 4 => some .lt | 5 => some .ge | 6 => some .ltu | 7 => some .geu | _ => none
def rvAluOf : Nat → RvAlu
  | 0 => .add | 1 => .sll | 2 => .slt | 3 => .sltu | 4 => .xor | 5 => .srl | 6 => .or | _ => .and
def rvMulOf : Nat → RvMul
  | 0 => .mul | 1 => .mulh | 2 => .mulhsu | 3 => .mulhu | 4 => .div | 5 => .divu | 6 => .rem | _ => .remu
def rvAmoOf : Nat → Option RvAmo
  | 0 => some .add | 1 => some .swap | 4 => some .xor | 8 => some .or | 12 => some .and | 16 => some .min
  | 20 => some .max | 24 => some .minu | 28 => some .maxu | _ => none
def rvIntOf : Nat → Option RvInt
  | 0 => some .w | 1 => some .wu | 2 => some .l | 3 => some .lu | _ => none

/-- An immediate operation; shifts carry their amount in the low bits (6 of them, or 5 in the W forms). -/
def decodeOpImm (w : W32) (wide : Bool) : RvInstr :=
  let rd := rvRd w; let a := rvRs1 w
  let sh : W64 := if wide then (hbits w 20 6).setWidth 64 else (hbits w 20 5).setWidth 64
  let hiBits : Nat := if wide then (hbits w 26 6).toNat * 2 else rvF7 w
  let mk : RvAlu → W64 → RvInstr := fun o v => if wide then .opImm o rd a v else .opImmW o rd a v
  match rvF3 w with
  | 0 => mk .add (immI w)
  | 1 => if hiBits = 0 then mk .sll sh else .illegal
  | 5 => if hiBits = 0 then mk .srl sh else if hiBits = 32 then mk .sra sh else .illegal
  | k => if wide then .opImm (rvAluOf k) rd a (immI w) else .illegal

/-- A register operation. -/
def decodeOpReg (w : W32) (wide : Bool) : RvInstr :=
  let rd := rvRd w; let a := rvRs1 w; let b := rvRs2 w
  match rvF7 w with
  | 0 =>
    if wide then .op (rvAluOf (rvF3 w)) rd a b
    else if rvF3 w = 0 ∨ rvF3 w = 1 ∨ rvF3 w = 5 then .opW (rvAluOf (rvF3 w)) rd a b else .illegal
  | 32 =>
    let o : Option RvAlu := match rvF3 w with | 0 => some .sub | 5 => some .sra | _ => none
    match o with
    | some o => if wide then .op o rd a b else .opW o rd a b
    | none => .illegal
  | 1 =>
    if wide then .mulDiv (rvMulOf (rvF3 w)) rd a b
    else if rvF3 w = 0 ∨ 4 ≤ rvF3 w then .mulDivW (rvMulOf (rvF3 w)) rd a b else .illegal
  | _ => .illegal

/-- An OP-FP word of F or D. -/
def decodeOpFp (w : W32) : RvInstr :=
  let rd := rvRd w; let a := rvRs1 w; let b := rvRs2 w; let rm := hbits w 12 3
  let fmt := rvF7 w % 4
  let dbl := fmt == 1
  if 2 ≤ fmt then .illegal
  else match rvF7 w / 4 with
    | 0 => .farith .add dbl rm rd a b
    | 1 => .farith .sub dbl rm rd a b
    | 2 => .farith .mul dbl rm rd a b
    | 3 => .farith .div dbl rm rd a b
    | 4 => match rvF3 w with
      | 0 => .farith .sgnj dbl 0#3 rd a b | 1 => .farith .sgnjn dbl 0#3 rd a b
      | 2 => .farith .sgnjx dbl 0#3 rd a b | _ => .illegal
    | 5 => match rvF3 w with
      | 0 => .farith .min dbl 0#3 rd a b | 1 => .farith .max dbl 0#3 rd a b | _ => .illegal
    | 8 => if dbl then (if b = 0#5 then .fcvtWidth true rm rd a else .illegal)
           else (if b = 1#5 then .fcvtWidth false rm rd a else .illegal)
    | 11 => if b = 0#5 then .fsqrt dbl rm rd a else .illegal
    | 20 => match rvF3 w with
      | 0 => .fcmp .le dbl rd a b | 1 => .fcmp .lt dbl rd a b | 2 => .fcmp .eq dbl rd a b | _ => .illegal
    | 24 => match rvIntOf b.toNat with | some k => .fcvtToInt dbl k rm rd a | none => .illegal
    | 26 => match rvIntOf b.toNat with | some k => .fcvtFromInt dbl k rm rd a | none => .illegal
    | 28 => if b ≠ 0#5 then .illegal
            else match rvF3 w with | 0 => .fmvToX dbl rd a | 1 => .fclass dbl rd a | _ => .illegal
    | 30 => if b = 0#5 ∧ rvF3 w = 0 then .fmvFromX dbl rd a else .illegal
    | _ => .illegal

/-- An atomic word. -/
def decodeAmo (w : W32) : RvInstr :=
  let rd := rvRd w; let a := rvRs1 w; let b := rvRs2 w
  let dbl := rvF3 w == 3
  let ord : BitVec 2 := hbits w 25 1 ++ hbits w 26 1
  if rvF3 w ≠ 2 ∧ rvF3 w ≠ 3 then .illegal
  else match rvF7 w / 4 with
    | 2 => if b = 0#5 then .lr ord dbl rd a else .illegal
    | 3 => .sc ord dbl rd a b
    | k => match rvAmoOf k with | some o => .amo o ord dbl rd a b | none => .illegal

/-- A 32-bit word that is neither custom-0 nor ecall. -/
def decodeRv32 (w : W32) : RvInstr :=
  let rd := rvRd w; let a := rvRs1 w; let b := rvRs2 w
  match (hbits w 0 7).toNat with
  | 0x37 => .lui rd (immU w)
  | 0x17 => .auipc rd (immU w)
  | 0x6F => .jal rd (immJ w)
  | 0x67 => if rvF3 w = 0 then .jalr rd a (immI w) else .illegal
  | 0x63 => match rvBr (rvF3 w) with | some c => .branch c a b (immB w) | none => .illegal
  | 0x03 => if rvF3 w = 7 then .illegal else .load (hbits w 12 3) rd a (immI w)
  | 0x23 => if 4 ≤ rvF3 w then .illegal else .store (hbits w 12 2) a b (immS w)
  | 0x13 => decodeOpImm w true
  | 0x1B => decodeOpImm w false
  | 0x33 => decodeOpReg w true
  | 0x3B => decodeOpReg w false
  | 0x0F => match rvF3 w with | 0 => .fence (hbits w 24 4) (hbits w 20 4) | 1 => .fenceI | _ => .illegal
  | 0x73 => if w = 0x00100073#32 then .ebreak
            else if rvF3 w = 0 ∨ rvF3 w = 4 then .illegal else .csr (hbits w 12 3) rd a (hbits w 20 12)
  | 0x2F => decodeAmo w
  | 0x07 => match rvF3 w with | 2 => .fload false rd a (immI w) | 3 => .fload true rd a (immI w) | _ => .illegal
  | 0x27 => match rvF3 w with | 2 => .fstore false a b (immS w) | 3 => .fstore true a b (immS w) | _ => .illegal
  | 0x43 => if 2 ≤ rvF7 w % 4 then .illegal else .fmadd false false (rvF7 w % 4 == 1) (hbits w 12 3) rd a b (hbits w 27 5)
  | 0x47 => if 2 ≤ rvF7 w % 4 then .illegal else .fmadd false true (rvF7 w % 4 == 1) (hbits w 12 3) rd a b (hbits w 27 5)
  | 0x4B => if 2 ≤ rvF7 w % 4 then .illegal else .fmadd true false (rvF7 w % 4 == 1) (hbits w 12 3) rd a b (hbits w 27 5)
  | 0x4F => if 2 ≤ rvF7 w % 4 then .illegal else .fmadd true true (rvF7 w % 4 == 1) (hbits w 12 3) rd a b (hbits w 27 5)
  | 0x53 => decodeOpFp w
  | _ => .illegal

/-- A compressed word of quadrant 0. -/
def decodeC0 (w : W32) : RvInstr :=
  let rdc : BitVec 5 := 1#2 ++ hbits w 2 3
  let r1 : BitVec 5 := 1#2 ++ hbits w 7 3
  let i4 : W64 := (hbits w 7 4 ++ hbits w 11 2 ++ hbits w 5 1 ++ hbits w 6 1 ++ 0#2 : BitVec 10).setWidth 64
  let iw : W64 := (hbits w 5 1 ++ hbits w 10 3 ++ hbits w 6 1 ++ 0#2 : BitVec 7).setWidth 64
  let id : W64 := (hbits w 5 2 ++ hbits w 10 3 ++ 0#3 : BitVec 8).setWidth 64
  match (hbits w 13 3).toNat with
  | 0 => if i4 = 0#64 then .illegal else .opImm .add rdc 2#5 i4
  | 1 => .fload true rdc r1 id
  | 2 => .load 2#3 rdc r1 iw
  | 3 => .load 3#3 rdc r1 id
  | 5 => .fstore true r1 rdc id
  | 6 => .store 2#2 r1 rdc iw
  | 7 => .store 3#2 r1 rdc id
  | _ => .illegal

/-- A compressed word of quadrant 1. -/
def decodeC1 (w : W32) : RvInstr :=
  let rd := rvRd w
  let r1 : BitVec 5 := 1#2 ++ hbits w 7 3
  let r2 : BitVec 5 := 1#2 ++ hbits w 2 3
  let imm : W64 := (hbits w 12 1 ++ hbits w 2 5 : BitVec 6).signExtend 64
  let sh : W64 := (hbits w 12 1 ++ hbits w 2 5 : BitVec 6).setWidth 64
  let i16 : W64 := (hbits w 12 1 ++ hbits w 3 2 ++ hbits w 5 1 ++ hbits w 2 1 ++ hbits w 6 1 ++ 0#4 : BitVec 10).signExtend 64
  let ilui : W64 := (hbits w 12 1 ++ hbits w 2 5 ++ 0#12 : BitVec 18).signExtend 64
  let ij : W64 := (hbits w 12 1 ++ hbits w 8 1 ++ hbits w 9 2 ++ hbits w 6 1 ++ hbits w 7 1 ++ hbits w 2 1 ++
    hbits w 11 1 ++ hbits w 3 3 ++ 0#1 : BitVec 12).signExtend 64
  let ib : W64 := (hbits w 12 1 ++ hbits w 5 2 ++ hbits w 2 1 ++ hbits w 10 2 ++ hbits w 3 2 ++ 0#1 : BitVec 9).signExtend 64
  match (hbits w 13 3).toNat with
  | 0 => .opImm .add rd rd imm
  | 1 => if rd = 0#5 then .illegal else .opImmW .add rd rd imm
  | 2 => .opImm .add rd 0#5 imm
  | 3 => if rd = 2#5 then (if i16 = 0#64 then .illegal else .opImm .add 2#5 2#5 i16)
         else if ilui = 0#64 then .illegal else .lui rd ilui
  | 4 => match (hbits w 10 2).toNat with
    | 0 => .opImm .srl r1 r1 sh
    | 1 => .opImm .sra r1 r1 sh
    | 2 => .opImm .and r1 r1 imm
    | _ => match (hbits w 12 1 ++ hbits w 5 2 : BitVec 3).toNat with
      | 0 => .op .sub r1 r1 r2 | 1 => .op .xor r1 r1 r2 | 2 => .op .or r1 r1 r2 | 3 => .op .and r1 r1 r2
      | 4 => .opW .sub r1 r1 r2 | 5 => .opW .add r1 r1 r2 | _ => .illegal
  | 5 => .jal 0#5 ij
  | 6 => .branch .eq r1 0#5 ib
  | _ => .branch .ne r1 0#5 ib

/-- A compressed word of quadrant 2. -/
def decodeC2 (w : W32) : RvInstr :=
  let rd := rvRd w
  let r2 : BitVec 5 := hbits w 2 5
  let sh : W64 := (hbits w 12 1 ++ hbits w 2 5 : BitVec 6).setWidth 64
  let ilw : W64 := (hbits w 2 2 ++ hbits w 12 1 ++ hbits w 4 3 ++ 0#2 : BitVec 8).setWidth 64
  let ild : W64 := (hbits w 2 3 ++ hbits w 12 1 ++ hbits w 5 2 ++ 0#3 : BitVec 9).setWidth 64
  let isw : W64 := (hbits w 7 2 ++ hbits w 9 4 ++ 0#2 : BitVec 8).setWidth 64
  let isd : W64 := (hbits w 7 3 ++ hbits w 10 3 ++ 0#3 : BitVec 9).setWidth 64
  match (hbits w 13 3).toNat with
  | 0 => .opImm .sll rd rd sh
  | 1 => .fload true rd 2#5 ild
  | 2 => if rd = 0#5 then .illegal else .load 2#3 rd 2#5 ilw
  | 3 => if rd = 0#5 then .illegal else .load 3#3 rd 2#5 ild
  | 4 =>
    if hbits w 12 1 = 0#1 then
      (if r2 = 0#5 then (if rd = 0#5 then .illegal else .jalr 0#5 rd 0#64) else .op .add rd 0#5 r2)
    else if r2 = 0#5 then (if rd = 0#5 then .ebreak else .jalr 1#5 rd 0#64)
    else .op .add rd rd r2
  | 5 => .fstore true 2#5 r2 isd
  | 6 => .store 2#2 2#5 r2 isw
  | _ => .store 3#2 2#5 r2 isd

/-- R251: the word at a hart's program counter, given its low 32 bits. -/
def decodeHart (w : W32) : Instr :=
  match (hbits w 0 2).toNat with
  | 0 => .hartRv64gcInstruction 2#3 (decodeC0 w)
  | 1 => .hartRv64gcInstruction 2#3 (decodeC1 w)
  | 2 => .hartRv64gcInstruction 2#3 (decodeC2 w)
  | _ =>
    if hbits w 0 7 = 0x0B#7 then (decodeXkf w).getD (.hartRv64gcInstruction 4#3 .illegal)
    else if w = 0x00000073#32 then .hartEcall
    else .hartRv64gcInstruction 4#3 (decodeRv32 w)

/-- Whether an instruction is the illegal one. -/
def isIllegal : Instr → Bool
  | .hartRv64gcInstruction _ .illegal => true
  | _ => false

/-- The instruction in the low `nbits` bits of `w`: a hart word of up to 32 bits, or a vector word. -/
def decodeTableWord (nbits w : Nat) : Option Instr :=
  if nbits ≤ 32 then
    let i := decodeHart (BitVec.ofNat 32 w)
    if isIllegal i then none else some i
  else some (decodeWord (BitVec.ofNat 64 w))

/-! ## Encoder -/

/-- The opcode of a vector instruction (R73). -/
def opcodeOf : Instr → Option Nat
  | .nop _ => some 0x0
  | .rep _ => none
  | .bra _ => some 0x10
  | .brp _ => some 0x11
  | .brx _ => some 0x12
  | .call _ => some 0x13
  | .callx _ => some 0x14
  | .ret _ => some 0x15
  | .convJ _ => some 0x20
  | .joinJ _ => some 0x21
  | .elect _ => some 0x22
  | .exit _ => some 0x30
  | .yield _ => some 0x31
  | .iaddI32 _ => some 0x100
  | .iaddI64 _ => some 0x101
  | .isubI32 _ => some 0x102
  | .isubI64 _ => some 0x103
  | .imulI32 _ => some 0x104
  | .imulhI32 _ => some 0x105
  | .imulhN32 _ => some 0x106
  | .imadI32 _ => some 0x107
  | .imadwI64 _ => some 0x108
  | .iminI32 _ => some 0x109
  | .iminN32 _ => some 0x10A
  | .imaxI32 _ => some 0x10B
  | .imaxN32 _ => some 0x10C
  | .iabsI32 _ => some 0x10D
  | .inegI32 _ => some 0x10E
  | .icmpI32 _ => some 0x110
  | .icmpN32 _ => some 0x111
  | .icmpI64 _ => some 0x112
  | .icmpN64 _ => some 0x113
  | .lea _ => some 0x118
  | .leaI64 _ => some 0x119
  | .idivI32 _ => some 0x120
  | .idivN32 _ => some 0x121
  | .iremI32 _ => some 0x122
  | .iremN32 _ => some 0x123
  | .idot4I8 _ => some 0x130
  | .idot4N8 _ => some 0x131
  | .idot8I4 _ => some 0x132
  | .iclampI32 _ => some 0x138
  | .and _ => some 0x200
  | .or _ => some 0x201
  | .xor _ => some 0x202
  | .andn _ => some 0x203
  | .not _ => some 0x204
  | .shl _ => some 0x208
  | .shr _ => some 0x209
  | .sar _ => some 0x20A
  | .rotl _ => some 0x20B
  | .shlI64 _ => some 0x20C
  | .shrI64 _ => some 0x20D
  | .sarI64 _ => some 0x20E
  | .bfeN32 _ => some 0x210
  | .bfeI32 _ => some 0x211
  | .bfi _ => some 0x212
  | .popc _ => some 0x218
  | .clz _ => some 0x219
  | .brev _ => some 0x21A
  | .bperm _ => some 0x21B
  | .faddF32 _ => some 0x300
  | .faddF64 _ => some 0x301
  | .fsubF32 _ => some 0x302
  | .fsubF64 _ => some 0x303
  | .fmulF32 _ => some 0x304
  | .fmulF64 _ => some 0x305
  | .ffmaF32 _ => some 0x306
  | .ffmaF64 _ => some 0x307
  | .fdivF32 _ => some 0x316
  | .fdivF64 _ => some 0x317
  | .fminF32 _ => some 0x308
  | .fminF64 _ => some 0x309
  | .fmaxF32 _ => some 0x30A
  | .fmaxF64 _ => some 0x30B
  | .fcmpF32 _ => some 0x30C
  | .fcmpF64 _ => some 0x30D
  | .frcpF32 _ => some 0x310
  | .frcpF64 _ => some 0x311
  | .frsqF32 _ => some 0x312
  | .frsqF64 _ => some 0x313
  | .fsqrtF32 _ => some 0x314
  | .fsqrtF64 _ => some 0x315
  | .fexp2F32 _ => some 0x318
  | .flog2F32 _ => some 0x319
  | .fsinpF32 _ => some 0x31A
  | .fcospF32 _ => some 0x31B
  | .fclassF32 _ => some 0x31C
  | .fclassF64 _ => some 0x31D
  | .fabs _ => some 0x320
  | .fneg _ => some 0x321
  | .fcopysign _ => some 0x322
  | .hadd2F16 _ => some 0x400
  | .hadd2Bf16 _ => some 0x401
  | .hmul2F16 _ => some 0x402
  | .hmul2Bf16 _ => some 0x403
  | .hfma2F16 _ => some 0x404
  | .hfma2Bf16 _ => some 0x405
  | .hmin2F16 _ => some 0x406
  | .hmin2Bf16 _ => some 0x407
  | .hmax2F16 _ => some 0x408
  | .hmax2Bf16 _ => some 0x409
  | .hcmp2F16 _ => some 0x40A
  | .hcmp2Bf16 _ => some 0x40B
  | .hdot2F16 _ => some 0x410
  | .hdot2Bf16 _ => some 0x411
  | .cvt _ => some 0x500
  | .cvts _ => some 0x501
  | .frndF32 _ => some 0x502
  | .frndF64 _ => some 0x503
  | .scalebF32 _ => some 0x504
  | .frexpF32 _ => some 0x505
  | .frexpExpF32 _ => some 0x505
  | .pack2 _ => some 0x506
  | .unpk2 _ => some 0x507
  | .packq _ => some 0x508
  | .rndc _ => some 0x510
  | .rndcW _ => some 0x511
  | .mov _ => some 0x600
  | .movs _ => some 0x602
  | .sel _ => some 0x603
  | .pset _ => some 0x604
  | .pmovGet _ => some 0x605
  | .pmovPut _ => some 0x605
  | .perm _ => some 0x610
  | .permx _ => some 0x611
  | .permu _ => some 0x612
  | .permd _ => some 0x613
  | .bcast _ => some 0x614
  | .vote _ => some 0x618
  | .ballot _ => some 0x619
  | .matchL _ => some 0x61A
  | .sgred _ => some 0x620
  | .sgscan _ => some 0x621
  | .ld _ => some 0x700
  | .st _ => some 0x701
  | .ldv _ => some 0x702
  | .stv _ => some 0x703
  | .pf _ => some 0x704
  | .ldt _ => some 0x705
  | .ldna _ => some 0x708
  | .stna _ => some 0x709
  | .ldsp _ => some 0x800
  | .stsp _ => some 0x801
  | .ldspv _ => some 0x802
  | .stspv _ => some 0x803
  | .xst _ => some 0x808
  | .xstv _ => some 0x809
  | .rld _ => some 0x80A
  | .atomI32 ord sc _ => some (0x900 + 8 * ord.toNat + sc.toNat)
  | .atomI64 ord sc _ => some (0x920 + 8 * ord.toNat + sc.toNat)
  | .atomF32 ord sc _ => some (0x940 + 8 * ord.toNat + sc.toNat)
  | .atomcasB32 ord sc _ => some (0x960 + 8 * ord.toNat + sc.toNat)
  | .atomcasB64 ord sc _ => some (0x980 + 8 * ord.toNat + sc.toNat)
  | .redI32 ord sc _ => some (0x9A0 + 8 * ord.toNat + sc.toNat)
  | .redF32 ord sc _ => some (0x9C0 + 8 * ord.toNat + sc.toNat)
  | .waddF32 sc _ => some (0x9E0 + sc.toNat)
  | .waddF64 sc _ => some (0x9E8 + sc.toNat)
  | .wrdF64 sc _ => some (0x9F0 + sc.toNat)
  | .wset sc _ => some (0x9F8 + sc.toNat)
  | .fence sc _ => some (0xA00 + sc.toNat)
  | .ifence _ => some 0xA08
  | .ifenceCp _ => some 0xA08
  | .bar _ => some 0xA10
  | .bara _ => some 0xA11
  | .barw _ => some 0xA12
  | .cbinit _ => some 0xA18
  | .cbadd _ => some 0xA19
  | .cbwait _ => some 0xA1A
  | .xbar _ => some 0xA20
  | .lbar _ => some 0xA28
  | .tlwait _ => some 0xA30
  | .tlread _ => some 0xA31
  | .tlreadErr _ => some 0xA31
  | .waita _ => some 0xA38
  | .waitaRecheck _ _ => none
  | .cpkick _ => some 0xB00
  | .gath _ => some 0xB08
  | .nbpf _ => some 0xB09
  | .adcl _ => some 0xB10
  | .topk _ => some 0xB11
  | .coll _ => some 0xB18
  | .tsset _ => some 0xB20
  | .tsget _ => some 0xB21
  | .tld _ => some 0xC00
  | .tst _ => some 0xC01
  | .tzero _ => some 0xC02
  | .tread _ => some 0xC08
  | .twrite _ => some 0xC09
  | .mldw _ => some 0xC10
  | .mmaa _ => some 0xC11
  | .mcommit _ => some 0xC12
  | .mwait _ => some 0xC13
  | .mscale _ => some 0xC14
  | .mscaleClr _ => some 0xC14
  | .ttask _ => some 0xC18
  | .fcall _ => some 0xD00
  | .fret _ => some 0xD01
  | .fsprobe _ => some 0xD02
  | .fsdesc _ => some 0xD03
  | .fsflush _ => some 0xD04
  | .fsflushAll _ => some 0xD04
  | .fsstat _ => some 0xD05
  | .fsstatRec _ => some 0xD05
  | .lainit _ => some 0xD10
  | .laaddF32 _ => some 0xD11
  | .laaddF64 _ => some 0xD12
  | .lackp _ => some 0xD13
  | .laest _ => some 0xD14
  | .laget _ => some 0xD15
  | .lastat _ => some 0xD16
  | .trap _ => some 0xE00
  | .tret _ => some 0xE01
  | .tmask _ => some 0xE02
  | .bkpt _ => some 0xE03
  | .sysr _ => some 0xE08
  | .sysw _ => some 0xE09
  | .qrel _ => some 0xE10
  | .qclm _ => some 0xE11
  | .qget _ => some 0xE12
  | .ewin _ => some 0xE18
  | .ewset _ => some 0xE19
  | .ewsetNext _ => some 0xE19
  | .eret _ => some 0xE1A
  | .efwd _ => some 0xE1B
  | .emulationVector _ _ => none
  | .clauseEntry => none
  | .issueGroupForm _ => none
  | .issuePortYield _ => none
  | .resultReturn _ _ => none
  | .handlerOverrun _ _ => none
  | .heldAccessPerform _ _ => none
  | .kfUqpush _ => none
  | .kfTcfg _ _ _ => none
  | .kfTsset _ _ _ => none
  | .kfCpkick _ _ _ => none
  | .kfFsdesc _ _ _ => none
  | .kfGid _ _ => none
  | .kfQnotify _ _ => none
  | .kfHold _ => none
  | .hartEcall => none
  | .matrixAccept _ => none
  | .matrixLastMac _ => none
  | .matrixBatchComplete _ _ _ => none
  | .copyDataPerformed _ _ _ => none
  | .copyComplete _ => none
  | .tileTransferComplete _ => none
  | .gatherComplete _ => none
  | .collectiveComplete _ _ _ => none
  | .tileTaskDispatch _ _ => none
  | .tileTaskComplete _ => none
  | .gongAging _ _ => none
  | .groupPlacement _ _ => none
  | .groupStart _ => none
  | .groupEvict _ => none
  | .groupRestore _ _ => none
  | .kernelComplete _ => none
  | .mergeApply _ => none
  | .graphNodeDispatch _ _ => none
  | .graphNodeComplete _ _ => none
  | .qnotify _ _ _ => none
  | .queueEnable _ _ => none
  | .queueDisable _ _ => none
  | .queueSkip _ _ => none
  | .packetFetch _ _ => none
  | .launchPkt _ _ => none
  | .waitPkt _ _ => none
  | .waitSatisfied _ _ => none
  | .markPkt _ _ => none
  | .copyPkt _ _ => none
  | .copyPacketComplete _ => none
  | .detmodePkt _ _ => none
  | .graphPkt _ _ => none
  | .create _ => none
  | .destroy _ => none
  | .teardownComplete _ => none
  | .quiesce _ => none
  | .quiesceComplete _ => none
  | .resume _ => none
  | .checkpoint _ => none
  | .restore _ => none
  | .loadObj _ => none
  | .resumet _ => none
  | .setbudget _ => none
  | .ctxcmdInvalid _ => none
  | .replay _ => none
  | .replayall _ => none
  | .inval _ => none
  | .invalall _ => none
  | .rreplay _ => none
  | .rreplayall _ => none
  | .rsync _ => none
  | .pgcmdDiscard _ _ => none
  | .detmodeWrite _ _ => none
  | .pwrpoolWrite _ _ => none
  | .partcfgWrite _ _ => none
  | .pfqEnable _ _ => none
  | .pfqconsWrite _ _ => none
  | .fqconsWrite _ _ => none
  | .faultRecordDeferred _ _ => none
  | .rangeEntryWrite _ _ _ => none
  | .vfownWrite _ _ => none
  | .commEntryWrite _ _ _ => none
  | .registerWrite _ _ => none
  | .partitionCreate _ _ => none
  | .partitionDestroy _ => none
  | .packageReset _ => none
  | .bankLoad _ _ => none
  | .thermalLimit _ _ => none
  | .criticalTemperature _ => none
  | .fabricPacketReceive _ _ => none
  | .attestationRequest _ _ _ => none
  | .identityRequest _ => none
  | .flitCheckFail _ => none
  | .portTraining _ _ _ => none
  | .ethConnectionFail _ _ => none
  | .limiterRefill _ => none
  | .hartRv64gcInstruction _ _ => none
  | .uncorrectableError _ => none
  | .ethernetFrameReceive _ _ _ => none
  | .firmwareUpdate _ => none

/-- An Xkf word (R252). -/
def packXkf (f3 : BitVec 3) (rd rs1 rs2 : BitVec 5) : W32 :=
  (0#7 : BitVec 7) ++ rs2 ++ rs1 ++ f3 ++ rd ++ (0x0B#7 : BitVec 7)

/-- The Xkf words and ecall (R251, R252). -/
def encodeHart : Instr → Option W32
  | .kfUqpush a => some (packXkf 0#3 0#5 a 0#5)
  | .kfTcfg d a b => some (packXkf 1#3 d a b)
  | .kfTsset d a b => some (packXkf 2#3 d a b)
  | .kfCpkick d a b => some (packXkf 3#3 d a b)
  | .kfFsdesc d a b => some (packXkf 4#3 d a b)
  | .kfGid d a => some (packXkf 5#3 d a 0#5)
  | .kfQnotify a b => some (packXkf 6#3 0#5 a b)
  | .kfHold a => some (packXkf 7#3 0#5 a 0#5)
  | .hartEcall => some 0x00000073#32
  | _ => none

/-- The word of an instruction with its length in bits; none for a row that is no instruction word, and for ordinary
RISC-V words, whose encodings the manual does not restate. -/
def encode (i : Instr) : Option (Nat × Nat) :=
  match i with
  | .rep r => some (64, (packRep r).toNat)
  | _ =>
    match opcodeOf i, Machine.fieldsOf i with
    | some op, some f => some (64, (packWord (BitVec.ofNat 12 op) f).toNat)
    | _, _ => (encodeHart i).map (fun w => (32, w.toNat))

end Sys2Proof
end

