-- ==== Sys2Proof/Machine/State.lean ====
section
/-! DEFINITION. The state of the Kryfel K7 as plain data: package, dies, cores, partitions, contexts, kernels, groups,
threads, harts, engine operations and physical memory; the faults and refusals of a step; the state after reset.
Objects live in maps by number; an object with no entry is at its reset (or creation) value. -/
namespace Sys2Proof.Machine

/-- The cause codes of R244. -/
inductive Cause where
  | illegalEncoding | emulate | illegalOperand | releasedRead | quotaExceeded | translation | permission | range
  | alignment | race | mergeConflict | nondeterministic | accumulatorInFlight | tileInUse | collectiveMismatch
  | claimDeadlock | barrierDeadlock | dataIntegrity | fp | software | nestedEmulation | storeIncons | handlerOverrun
  | accumulatorMisuse | breakpoint | communicator | mergeCapacity | raceMonitorOverflow | storeRecursion
  deriving DecidableEq, Repr

/-- Why the machine stops: conditions under which the event asked for cannot take place at all. -/
inductive Fault where
  /-- Raised by a vector instruction when no thread-slot is being executed. Safe: no K7 state runs one so. -/
  | noThread
  /-- Raised by a hart instruction when no running hart is being executed. Safe: no K7 state runs one so. -/
  | noHart
  deriving DecidableEq, Repr

/-- Why an instruction has no meaning here. -/
inductive Refusal where
  /-- Raised by the dispatcher for an instruction that is not modelled yet. Safe. -/
  | notModelled (mnemonic : String)
  deriving DecidableEq, Repr

/-! ## Threads -/

/-- A valid last-result latch: its value and whether it holds 64 bits (R66, R67). -/
structure Latch where
  val  : W64
  wide : Bool
  deriving DecidableEq, Repr

/-- A REP in progress at the slot the thread stands at (R71): repetition `k` of `rc` + 1 and the signed steps. -/
structure RepSt where
  k  : Nat
  rc : Nat
  sd : BitVec 4
  sa : BitVec 4
  sb : BitVec 4
  sc : BitVec 4
  deriving DecidableEq, Repr

/-- The kinds of outstanding operation that `hz` drains (R56): `lsp` is a value-returning atomic of the scratchpad, which two
bits drain; no bit drains `alu` results. -/
inductive DrainKind where | ld | lsp | st | sp | mx | cp | fs | la | uq | alu
  deriving DecidableEq, Repr

/-- An outstanding result of a long-latency instruction (R69): the main registers (held from issue on), operand-file
entries and predicates it will write, and how many more instructions its window covers. -/
structure Pend where
  kind  : DrainKind
  main  : List (Nat × W32)
  file  : List (Nat × W32)
  preds : List (Nat × Bool)
  left  : Nat
  deriving DecidableEq, Repr

/-- An accumulator register in flight (R199): its context (0 mx0, 1 mx1), its batch (none: the open one), and the
marked range. -/
structure Mark where
  mx   : Nat
  batch : Option Nat
  base : Nat
  rg   : Nat
  deriving DecidableEq, Repr

/-- An emulation window (R245-R249). `here` is the REP in progress at the slot, `uqVals` holds the entries popped for fields that name `uq` or `uqp`, by field
(0 a, 1 b, 2 c), once resolved; `popped` says that the entries of `uq` fields are popped, `released` the marked sources are released. -/
structure EmuWindow where
  word     : W64
  lits     : List W32
  l0       : Option Latch
  l1       : Option Latch
  guard    : Bool
  peers    : W64
  pc       : W64
  next     : W64
  nextRep  : Option RepSt
  here     : Option RepSt
  rep      : Nat
  why      : BitVec 2
  uqVals   : Option (List W32)
  popped   : Bool
  released : Bool
  deriving DecidableEq, Repr

/-- A store frame (R214); `m` is the number of results that the call expects. -/
structure StoreFrame where
  table : Nat
  gen   : Nat
  vd    : Nat
  m     : Nat
  x     : List W32
  ret   : W64
  rep   : Option RepSt
  deriving DecidableEq, Repr

/-- An initialised limit accumulator (R222): depth, interval, method (`lsq`), tolerance, sum, count, checkpoints oldest
first, previous estimate, status word. -/
structure LimAcc where
  dep    : Nat
  ivl    : Nat
  lsq    : Bool
  tol    : W64
  sum    : W64
  count  : W64
  hist   : List W64
  prev   : Option W64
  status : W32
  deriving DecidableEq, Repr

/-- A failed translation that waits for a replay (R374): virtual address, the intermediate address when stage 2 refused,
access kind (0 read, 1 write, 2 fetch, 3 read-modify-write); `woken` once a replay has come. -/
structure FaultWait where
  va    : W64
  ipa   : Option Nat
  acc   : BitVec 2
  woken : Bool
  deriving DecidableEq, Repr

/-- What a thread waits for (R341). Threads that wait on `uq`, `tlwait`, `mwait`, `cbwait`, `barw`, `waita`, `drain`
issue the slot again when the condition holds; the others are released by the event they wait for. -/
inductive Wait where
  | none
  | bar (n : Nat) (ph : W32)
  | barw (n : Nat) (p : W32)
  | xbar
  | lbar (k : Nat)
  | join (inst : Nat) (entry : Bool)
  | coll (i : Instr) (a b c : W64) (guard : Bool)
  | tlwait (ectx n : Nat)
  | mwait (mx n : Nat)
  | cbwait (off : Nat) (p : W32)
  | waita (glob : Bool) (addr : Nat) (cc : BitVec 2) (c : W32)
  | uq
  | claim (n : Nat)
  | replay (f : FaultWait)
  | held
  | drain (hz : BitVec 8)
  | hazard                     -- a hazard, or a drain, behind an engine operation of its group that waits for a merge entry (R416)
  | tokens                     -- the bytes of its load lie at an endpoint, and its function's limiter has no tokens (R341, R392)
  | stop (c : Cause) (seq : Nat)
  deriving DecidableEq, Repr

/-- A vector clock: how far each agent's events are known, by agent number (the model's form of `hb`, R262). -/
abbrev Clock := AMap Nat

/-- Where an agent stands, for the scopes of R258. -/
structure Place where
  gid : Nat
  sg  : Nat
  kid : Nat
  cl  : Nat
  die : Nat
  deriving DecidableEq, Repr

/-- The ordering memory of a thread or engine operation: its number, its own clock, what it knows, the clocks of its FENCEs
with W among the successors (the last of each scope that no later one includes), and the heads read but not yet acquired by a
FENCE (R260). -/
structure HbState where
  aid   : Nat
  clk   : Nat
  vc    : Clock
  fence : List (Clock × BitVec 3)
  seen  : List (Clock × BitVec 3 × Place)
  deriving DecidableEq, Repr

/-- A vector thread. -/
structure Thread where
  wid     : W64
  sg      : Nat
  sgt     : Nat
  lane    : Nat
  live    : Bool
  regs    : AMap W32
  opf     : AMap W32
  l0      : Option Latch
  l1      : Option Latch
  preds   : BitVec 8
  quota   : Nat
  pc      : W64
  rep     : Option RepSt
  inside  : Bool               -- it has entered the clause its pc names (R54) and holds its latches
  cvDone  : Bool               -- the JOIN of a `cv` header is behind it (R57)
  pend    : List Pend          -- oldest first
  marks   : AMap Mark
  fflags  : BitVec 6
  fen     : BitVec 6
  cause   : BitVec 8
  epc     : W64
  taddr   : W64
  tinfo   : W32
  msk     : Bool
  pmsk    : Bool
  hcount  : W32
  windows : List EmuWindow     -- depth 1 first; edep is the length
  trapRep : Option (W64 × RepSt)
  frames  : List StoreFrame    -- top first
  las     : AMap LimAcc
  regions : List Nat           -- numbers of region records, top first
  parked  : Option Nat
  wait    : Wait
  retry   : Bool               -- a replay has woken it and its access has not performed yet (R376)
  kept    : Option (Option Latch × Option Latch) -- the latches that the access waiting for a replay reads (R374)
  resume  : W64                -- where a release of its wait sends it
  resumeRep : Option RepSt
  owedRel : List Nat           -- marked sources it frees, and queue entries it pops, when that wait ends
  owedPop : Nat
  uqpos   : Nat
  lbars   : Nat
  ready   : Nat
  hb      : HbState
  deriving DecidableEq, Repr

/-! ## Groups -/

/-- A byte store: the entries that differ from zero, addresses rising. -/
abbrev Memory := List Host.Cell

/-- A tile register with its control register (R186, R187): element bytes, scale words, rows, cols, fmt fields, en. -/
structure Tile where
  area  : Memory
  scale : AMap W32
  rows  : BitVec 8
  cols  : BitVec 12
  fmt   : BitVec 4
  en    : Bool
  deriving DecidableEq, Repr

/-- What a group barrier expects (R352). -/
inductive BarMode where | unset | live | fixed (n : Nat)
  deriving DecidableEq, Repr

/-- A group barrier (R352); `vc` joins what this phase's arrivals that went on know (those that wait are joined when it
completes), `prev` what the arrivals of each completed phase knew, by phase. -/
structure Barrier where
  ph   : W32
  arr  : Nat
  mode : BarMode
  vc   : Clock
  prev : AMap Clock
  deriving DecidableEq, Repr

/-- A completed operation: the threads that took part, whether it is a matrix operation or a tile task (kinds MR, MW of
R257), and what its reads, its writes and its completion word (an engine signal, kind CW) pass on (R261). -/
structure DoneOp where
  who : List Nat
  mat : Bool
  rd  : Clock
  wr  : Clock
  sig : Clock
  deriving DecidableEq, Repr

/-- An engine context (R72, R170): last number issued, timeline, numbers completed beyond it, error bit, and the completed
operations by number (a batch is as many as it has steps). -/
structure EngCtx where
  issued : Nat
  tl     : Nat
  beyond : List Nat
  err    : Bool
  done   : AMap (List DoneOp)
  deriving DecidableEq, Repr

/-- A step of MMAA as captured at issue (R197, R198). -/
structure MmaaStep where
  mod   : BitVec 4
  tile  : Option Nat
  arec  : BitVec 512
  i0    : Nat
  i1    : Nat
  m     : Nat
  n     : Nat
  k     : Nat
  afmt  : Nat
  wfmt  : Nat
  d     : Nat
  rg    : Nat
  subS  : Nat
  sg    : Nat            -- the subgroup that issued it
  peers : List Nat       -- thread numbers, ascending
  deriving DecidableEq, Repr

/-- An operation of a matrix context (R195, R197, R200). -/
inductive MxKind where
  | mldw (tile : Nat)
  | mscale (words : Option (List W32))
  | mmaa (st : MmaaStep)
  deriving DecidableEq, Repr

/-- How far a matrix operation has come (R202). -/
inductive MxStage where | requested | accepted | applied
  deriving DecidableEq, Repr

/-- A matrix operation: its context, its batch (none: the open one), its stage, the flags it raised by thread, whether
it ended with an error and the number of the error's record, the values it will write (register, value by thread), its
ordering memory. -/
structure MxOp where
  gid   : Nat
  mx    : Nat
  batch : Option Nat
  kind  : MxKind
  stage : MxStage
  vals  : List (Nat × Nat × W32)
  flags : List (Nat × BitVec 6)
  err   : Bool
  recd  : Option Nat
  stall : Option FaultWait
  hb    : HbState
  deriving DecidableEq, Repr

/-- A matrix context (R193). `latchCfg` is the format, rows and columns of the weights as later operations will find
them; `latch` the weights themselves, loaded at acceptance. -/
structure MxCtx where
  latchCfg : Option (Nat × Nat × Nat)
  latch    : Option Tile
  override : Option (List W32)
  owner    : Option Nat
  deriving DecidableEq, Repr

/-- A region record of CONV and JOIN (R111-R113). -/
structure Region where
  jid     : BitVec 8
  sg      : Nat
  members : List Nat
  entered : List Nat
  arrived : List Nat
  deriving DecidableEq, Repr

/-- What a hart does (R251); `held`: a store of it waits for a merge entry (R416). -/
inductive HartStatus where
  | off | running | ended | stopped (c : Cause) | waiting (f : FaultWait) | held
  deriving DecidableEq, Repr

/-- The scalar core's hart of a group (R251): registers not listed are 0. -/
structure Hart where
  x      : AMap W64
  f      : AMap W64
  fcsr   : BitVec 8
  pc     : W64
  status : HartStatus
  hb     : HbState
  deriving DecidableEq, Repr

/-- A queued update of a merge interval (R162, R221, R314): its effect on memory, a table or a queue. -/
inductive MItem where
  | write (bytes : List (Nat × Byte))
  | redI (o : BitVec 4) (pa : Nat) (v : W32)
  | redF (o : BitVec 4) (pa : Nat) (v : W32)
  | wadd (pa : Nat) (w : Int) (dbl : Bool) (x : W64)
  | fsHit (table gen uid : Nat)
  | fsCount (table gen ctr : Nat)
  | fsFlush (table gen : Nat) (all : Bool)
  | fsUpdate (table gen : Nat) (x y jac : List W32)
  | fsDesc (table : Nat) (desc rad : BitVec 512) (die : Nat)
  | notify (q : Nat) (w : W32)
  deriving DecidableEq, Repr

/-- A queued update with what places and reports it (R273, R274): the issuer (none: the hart), work identifier, virtual
address, engine context and number when an engine made it. `po` is the number of the slot's execution that made it or
issued its operation. `spill` lists the dies of the merge entries that it has taken from the context's spill (R415), `home` is
the home die of a table event, `bad` says that its stored entry has an uncorrectable error (R428). -/
structure MRec where
  thread : Option Nat
  po     : Nat
  wid    : W64
  va     : W64
  eng    : Option (Nat × Nat)
  item   : MItem
  spill  : List Nat
  home   : Nat
  bad    : Bool
  deriving DecidableEq, Repr

/-- An update before its entries are taken. -/
def MRec.of (thread : Option Nat) (po : Nat) (wid va : W64) (eng : Option (Nat × Nat)) (item : MItem) : MRec :=
  ⟨thread, po, wid, va, eng, item, [], 0, false⟩

/-- One access stamped for race detection (R268, R271): the agent and its clock, whether it wrote, was atomic and at
which scope, was an engine's, was a WADD, where its thread stands, and for a write what its agent knew (R317). -/
structure Stamp where
  aid    : Nat
  clk    : Nat
  wr     : Bool
  atomic : Option (BitVec 3)
  eng    : Bool
  cell   : Bool
  place  : Place
  vc     : Clock
  bad    : Bool
  deriving DecidableEq, Repr

/-- A release head kept at a location (R260): what it released, its scope and place; `past`: the latest write there is neither
the head's nor a read-modify-write that follows it, so that a read of it meets no head. -/
structure RelHead where
  vc    : Clock
  scope : BitVec 3
  place : Place
  past  : Bool
  deriving DecidableEq, Repr

/-- Where a group is (R346): on a core and slot, in its image, or gone. -/
inductive GroupLoc where
  | placed (core slot : Nat)      -- reserved, not started
  | resident (core slot : Nat)
  | evicted (die : Nat)
  | retiring (core slot : Nat)
  | retired
  deriving DecidableEq, Repr

/-- A group. -/
structure Group where
  kid     : Nat
  cid     : Nat
  grp     : Nat
  gwid    : W64            -- the work identifier with the fields below the group mark zero
  loc     : GroupLoc
  preempt : Bool
  atLbar  : Bool           -- evicted by the Gong at an LBAR (R343)
  lbarDead : Bool          -- evicted when its launch's barrier deadlocked (R345)
  threads : AMap Thread
  spad    : Memory
  xlive   : Memory
  xshadow : Memory
  tiles   : AMap Tile
  slots   : AMap (BitVec 512)
  bars    : AMap Barrier
  eng     : AMap EngCtx
  mx      : AMap MxCtx
  uq      : List W32
  uqFreed : Nat
  reserve : AMap Nat
  claims  : AMap (List (Nat × Nat))      -- per lane: (thread, count), oldest first
  regions : AMap Region
  hart    : Hart
  pendW   : List MRec                     -- in order of execution
  stamps  : AMap (List Stamp)
  rels    : AMap (List RelHead)
  stall   : Option FaultWait              -- what its start waits for: the records at `tsbase` (R325, R374)
  xphase  : Nat
  deriving DecidableEq, Repr

/-! ## Engine operations -/

/-- What an engine operation does (R172-R182, R191, R205). -/
inductive EngKind where
  | copy (req : BitVec 512) (src dst : Option (BitVec 512))
  | tld (tile : Nat) (rec : BitVec 512) (i0 i1 : Nat)
  | tst (tile : Nat) (rec : BitVec 512) (i0 i1 : Nat) (snap : Tile)
  | gath (rec : BitVec 512) (row : Nat) (dst : Nat)
  | coll (desc : BitVec 512) (rank call : Nat)
  | task (rec aRec wRec cRec : BitVec 512) (core : Option Nat)
  | packet (cid q ser : Nat) (src dst len : Nat)
  | nodeCopy (graph node : Nat) (src dst len : Nat)
  | nodeColl (graph node : Nat) (desc : BitVec 512) (rank call : Nat)
  deriving DecidableEq, Repr

/-- An engine operation in progress: who issued it, its context and number, the byte ranges performed, the error cause if
it ended with one, the number of the error's record, what it waits for: a replay, or a merge entry (R416). `po` is the number
of the slot's execution that issued it; `flags` are those that a tile task's rows have raised; `ended` says that its completion
word has been tried, so that it waits for the record of that alone. -/
structure EngOp where
  po    : Nat
  gid   : Option Nat
  thread : Option Nat
  cid   : Nat
  wid   : W64
  ectx  : Nat
  num   : Nat
  kind  : EngKind
  done  : List (Nat × Nat)
  err   : Option Cause
  recd  : Option Nat
  stall : Option FaultWait
  held  : Bool
  flags : BitVec 6
  ended : Bool
  hb    : HbState
  place : Place
  deriving DecidableEq, Repr

/-! ## Cores and dies -/

/-- An issue group (R339): its group, the threads in it, those still to do the current slot, those that share the slot's
execution, the slot's program counter, the number of this slot's execution, the issue cycles since it took the port, whether
it stands at a hazard, and the cycle from which it competes again. -/
structure IssueGroup where
  gid     : Nat
  members : List Nat
  todo    : List Nat
  mates   : List Nat
  pc      : W64
  inst    : Nat
  cycles  : Nat
  stalled : Bool
  since   : Nat
  deriving DecidableEq, Repr

/-- A cached translation (R370): tag, first granule and size in 64 KiB granules, first physical and intermediate granule,
permissions, accessed and dirty as read. -/
structure TlbEntry where
  cid  : Nat
  va   : Nat
  size : Nat
  pa   : Nat
  ipa  : Nat
  r    : Bool
  w    : Bool
  x    : Bool
  a    : Bool
  d    : Bool
  deriving DecidableEq, Repr

/-- A cached non-leaf entry (R370): tag, level, the granules that it covers (first and count), and the next table. -/
structure WalkEntry where
  cid   : Nat
  lvl   : Nat
  va    : Nat
  size  : Nat
  table : Nat
  deriving DecidableEq, Repr

/-- A core. -/
structure Core where
  cycle   : W64
  slots   : AMap Nat             -- resident groups by slot
  port    : Option IssueGroup
  yielded : List IssueGroup
  mxq     : List Nat             -- matrix operations in order of their acceptance requests
  tlb     : List TlbEntry
  deriving DecidableEq, Repr

/-- An entry of the Gong (R327). -/
inductive GongKind where
  | kernel (kid : Nat)
  | node (graph node : Nat)
  | task (op : Nat)
  deriving DecidableEq, Repr

/-- `sent` marks an entry that has been dispatched; it stays listed until it completes, because later entries may conflict
with it by keys (R207, R330). `age` counts the Gong cycles it has been pending; `waits` those that the next group of a kernel
has waited for placement, by die (R335). -/
structure GongEntry where
  kind : GongKind
  cid  : Nat
  prio : Nat
  aged : Bool
  sent : Bool
  age  : Nat
  waits : AMap Nat
  deriving DecidableEq, Repr

/-- An entry as it enters the Gong. -/
def GongEntry.fresh (kind : GongKind) (cid prio : Nat) : GongEntry := ⟨kind, cid, prio, false, false, 0, []⟩

/-- A die: PWRPOOL (R23), the Gong's entries oldest first, translations. -/
structure Die where
  limit  : BitVec 16
  size   : BitVec 16
  inuse  : Nat
  gong   : List GongEntry
  keyVcs : List (Nat × Nat × Bool × Clock) -- what completed tasks and nodes pass on by their keys: context, key, written (R207)
  tlb    : List TlbEntry
  tensorTlb : List TlbEntry
  walks  : List WalkEntry
  starts : AMap Nat              -- launches by kernel: Gong cycles left before the next start (R25)
  deriving DecidableEq, Repr

/-! ## Partitions and contexts -/

/-- A stage-2 range entry (R368). -/
structure RangeEntry where
  base : BitVec 40
  lim  : BitVec 40
  off  : BitVec 40
  x    : Bool
  w    : Bool
  r    : Bool
  en   : Bool
  deriving DecidableEq, Repr

/-- A communicator entry (R389) and the route table read when it was enabled (R390); `badRoute` marks a table with an
invalid entry; `calls` counts the COLLs of each local rank. -/
structure CommEntry where
  ctx   : BitVec 4
  rtab  : BitVec 56
  nloc  : BitVec 16
  rbase : BitVec 16
  np    : BitVec 16
  comm  : BitVec 12
  fail  : Bool
  en    : Bool
  route : List W64
  calls : AMap Nat
  deriving DecidableEq, Repr

/-- A command written to CTXCMD and not yet executed (R297). -/
structure CtxCmd where
  cmd : BitVec 8
  ctx : BitVec 4
  res : Bool                 -- a reserved bit was set in CTXCMD or CTXARG
  arg : BitVec 56
  deriving DecidableEq, Repr

/-- A fault record (R304). -/
structure FaultRec where
  seq    : Nat
  rctx   : BitVec 4
  core   : BitVec 16
  opnum  : W64
  addr   : W64
  pc     : W64
  wid    : W64
  info   : W32
  ectx   : BitVec 3
  late   : Bool
  refault : Bool
  ctxl   : Bool
  eng    : Bool
  hart   : Bool
  cause  : Cause
  deriving DecidableEq, Repr

/-- A partition (R294). -/
structure Partition where
  wt      : BitVec 8
  qmask   : BitVec 16
  level   : BitVec 2
  lock    : Bool
  cmd     : Option CtxCmd        -- busy while there is one
  argRes  : Bool                 -- reserved bits of the last CTXARG write
  arg     : BitVec 56
  st      : BitVec 8
  ilen    : W32
  pfqb    : BitVec 56
  pfqEn   : Bool
  lpfq    : BitVec 5
  pprod   : W32
  pcons   : W32
  prSeq   : Nat
  prWait  : List FaultRec        -- records waiting for room, oldest first
  ranges  : AMap RangeEntry
  comms   : AMap CommEntry
  tok     : Int
  burst   : BitVec 16
  rate    : BitVec 15
  rlEn    : Bool
  own     : BitVec 12
  ownEn   : Bool
  link    : BitVec 256
  deriving DecidableEq, Repr

/-- The states of a context (R300). -/
inductive CtxState where | free | active | quiescing | quiesced | destroying
  deriving DecidableEq, Repr

/-- A record of a function-store table (R209). -/
structure FsRec where
  x0   : List W32
  y0   : List W32
  jac  : List W32
  rad  : List W32
  hits : Nat
  seq  : Nat
  uid  : Nat                  -- its number among all records that the table has inserted: which record a queued hit is of
  bad  : Bool                 -- its stored copy has an uncorrectable error (R428)
  deriving DecidableEq, Repr

/-- An installed table (R209): descriptor, radius block, records in ascending `seq`, the nine counters (hits, misses,
growths, insertions, evictions, duplicates, rejects, probes, flushes), flags, next sequence number, how many records it has
inserted, home die. -/
structure FsTable where
  desc : BitVec 512
  rad  : BitVec 512
  recs : List FsRec
  ctrs : List Nat
  incons   : Bool
  rejected : Bool
  next : Nat
  made : Nat
  home : Nat
  deriving DecidableEq, Repr

/-- A table slot: the table, if any, and the generation number (R209). -/
structure FsSlot where
  table : Option FsTable
  gen   : Nat
  deriving DecidableEq, Repr

/-- What the processor copies of a graph node when it reads the packet (R322, R329): the body and a launch's descriptor;
none where it was not read. -/
structure NodeBody where
  body : Option (BitVec 512)
  desc : Option (BitVec 512)
  deriving DecidableEq, Repr

/-- A packet that has been read (R312): its index, its number among all packets of its queue, its words, the copies made with
it: a launch's descriptor, a graph's nodes; `bad`: it has failed its checks, and its signal is still to be written (R315,
R318). -/
structure Pkt where
  idx   : W32
  ser   : Nat
  body  : BitVec 512
  desc  : Option (BitVec 512)
  nodes : List (BitVec 512 × NodeBody)
  bad   : Bool
  deriving DecidableEq, Repr

/-- Queue states of R319. -/
inductive QState where | disabled | idle | fetching | waiting | halted
  deriving DecidableEq, Repr

/-- A queue (R311). `cur` is the packet read and not yet started; `active` the packets started and not
complete; `ser` how many packets have been read; `vc` what its notify writes and completions have brought (R313, R317). -/
structure Queue where
  qbase : BitVec 56
  lqlen : BitVec 4
  prio  : BitVec 2
  en    : Bool
  widx  : W32
  ridx  : W32
  st    : QState
  err   : BitVec 8
  eidx  : W32
  cur   : Option Pkt
  active : List Pkt
  stall : Option FaultWait
  ser   : Nat
  vc    : Clock
  deriving DecidableEq, Repr

/-- A page command not yet complete (R375); a replay that has `started` has woken its waiters, an invalidation has dropped its
entries: the granules they covered (first and count) and the number of the next slot execution at the time. -/
structure PgCmd where
  code : BitVec 8
  ctx  : BitVec 4
  rel  : Bool
  arg  : BitVec 56
  started : Bool
  span : List (Nat × Nat)
  mark : Nat
  deriving DecidableEq, Repr

/-- A code region that keeps errata (R402). -/
structure CodeRegion where
  base : Nat
  size : Nat
  mask : BitVec 8
  deriving DecidableEq, Repr

/-- The stamps and heads of a page whose translation has been dropped (R378). -/
structure AwayPage where
  stamps : AMap (List Stamp)
  rels   : AMap (List RelHead)
  deriving DecidableEq, Repr

/-- A context (R294, R301). -/
structure Context where
  st      : CtxState
  ptroot  : BitVec 56
  fqbase  : BitVec 56
  lfq     : BitVec 4
  msize   : W32
  shbase  : BitVec 56
  msbase  : BitVec 56
  mslen   : W32
  fsa     : BitVec 18
  bank    : BitVec 2
  qdie    : Nat                         -- the die and the packet processor that its queue set is bound to (R16)
  qproc   : Nat
  kreq    : Bool
  kpub    : BitVec 56
  keyId   : Nat
  kmem    : List Byte
  ktag    : List Byte
  klink   : List Byte
  kwrap   : List Byte
  tvec    : W64
  evec    : W64
  hbudget : W32
  ien     : BitVec 16
  fqprod  : W32
  fqcons  : W32
  fqSeq   : Nat
  fqWait  : List FaultRec
  stops   : List (Nat × Nat × Nat)      -- (seq, group, thread) stopped and not resumed
  pgq     : List PgCmd
  parg    : BitVec 56
  pgbad   : Bool
  pglost  : Bool
  ap      : BitVec 24
  queues  : AMap Queue
  tables  : AMap FsSlot
  code    : List CodeRegion
  loaded  : Bool
  stampOff : Option Nat                 -- stamping of new sectors has stopped until this kernel retires (R271)
  frames  : AMap Nat                    -- open level: by virtual granule met, the physical granule at the latest access (R378)
  away    : AMap AwayPage               -- by virtual granule whose translation has been dropped: the stamps
                                        -- and heads of its bytes, which go where it stands at the next access (R378)
  capNoted : List Nat                   -- kernels whose current interval has its merge-capacity record (R416)
  sgSize  : AMap Nat                    -- by address of a translated slot: the set size of its SGCOLL (R408)
  deriving DecidableEq, Repr

/-! ## Kernels and graphs -/

inductive KState where | placing | running | merging | closing | done
  deriving DecidableEq, Repr

/-- Where a kernel's completion goes: a queue's packet, or a graph node. -/
inductive KOrigin where
  | packet (cid q ser : Nat)
  | node (graph node : Nat)
  deriving DecidableEq, Repr

/-- A kernel (R322, R332): descriptor, extents minus 1, argument block, and its progress. -/
structure Kernel where
  cid     : Nat
  die     : Nat               -- the die whose Gong holds its entry
  kdesc   : BitVec 56
  desc    : BitVec 512
  kargs   : BitVec 56
  ext     : List W32
  stag    : BitVec 16
  prio    : BitVec 2
  rel     : Bool
  origin  : KOrigin
  st      : KState
  nextGrp : Nat
  started : Nat
  retired : Nat
  lbarAt  : Nat               -- the launch-barrier count now waiting, from 1
  mergePending : Bool         -- an LBAR completion waits for Vesper
  interval : Nat
  snap    : Option Memory     -- the snapshot of the interval, at levels 1 and 2, and the tables as they stood then (R221)
  snapTables : AMap FsSlot
  snapPages : AMap (Nat × Nat × Nat) -- by virtual 64 KiB granule met in the interval: the granule that stands for it in the
                               -- snapshot and the queued updates, its physical and its intermediate granule at the latest
                               -- access (R378)
  vc      : Clock             -- what arrivals and merge points have brought together
  birth   : Clock             -- what the packet's start knew (R317)
  deriving DecidableEq, Repr

inductive NodeState where | waiting | dispatched | complete | failed (status : BitVec 16) | skipped
  deriving DecidableEq, Repr

/-- A graph (R329): its queue, its packet's number, the nodes with their states, and their bodies as copied. -/
structure Graph where
  cid   : Nat
  q     : Nat
  ser   : Nat
  die   : Nat
  prio  : BitVec 2
  nodes : List (BitVec 512 × NodeState)
  bodies : List NodeBody
  birth : Clock                  -- what the packet's start knew
  vcs   : AMap Clock             -- what each completed node passes on
  deriving DecidableEq, Repr

/-- One call of a communicator (R182): the contributions so far (rank, descriptor, bytes), the trees of an open-level call
once its first rank has completed, and the ranks that have. -/
structure CommCall where
  vf    : Nat
  entry : Nat
  call  : Nat
  parts : List (Nat × BitVec 512 × List Byte)
  trees : Option (List RTree)
  ended : List Nat
  deriving DecidableEq, Repr

/-! ## Package -/

/-- A decode-table bank (R399, R400): entries that differ from the K7 decode, its registers, and the expansions that firmware
has put into its store, by index. `feat` of BANKINFO follows from the entries. -/
structure Bank where
  entries : AMap W32
  gen     : BitVec 16
  nkept   : BitVec 3
  errs    : List W32
  store   : AMap (List Byte)
  hash    : BitVec 512
  deriving DecidableEq, Repr

inductive PortState where | down | training | up | failed
  deriving DecidableEq, Repr

/-- A fabric port (R384, R386); `resends` counts consecutive failed resends. -/
structure FabPort where
  st      : PortState
  drop    : BitVec 16
  rsnd    : BitVec 16
  hdr     : BitVec 20
  resends : Nat
  deriving DecidableEq, Repr

/-- A packet of the reliable transport that has not been acknowledged: its number, how often it has been sent, and the virtual
function and the bytes for which it takes tokens (R392). -/
structure EthSent where
  num  : Nat
  sent : Nat
  vf   : Nat
  len  : Nat
  deriving DecidableEq, Repr

/-- A connection of the reliable transport (R395): whether it stands, packets sent and not acknowledged, data received in order of arrival, the number of the next packet, and the frames that have left, each once. -/
structure EthConn where
  up    : Bool
  unack : List EthSent
  inbox : List (Nat × List Byte)
  next  : Nat
  out   : List EthFrame
  deriving DecidableEq, Repr

/-- An Ethernet port and its ETHCFG (R395). -/
structure EthPort where
  mac   : BitVec 48
  ip    : BitVec 128
  udp   : BitVec 16
  conns : AMap EthConn
  deriving DecidableEq, Repr

/-- A checkpoint image as written (R307): what it holds and the header fields that identify it. Resident pages are listed
by virtual and intermediate 64 KiB granule; their bytes, the snapshots of kernels and the addresses of queued updates are
virtual. `inst` is the number of the next slot execution at the time. -/
structure Image where
  id      : Nat
  keyId   : Nat
  level   : BitVec 2
  qmask   : BitVec 16
  units   : BitVec 32
  ctx     : Context
  groups  : AMap Group
  kernels : AMap Kernel
  graphs  : AMap Graph
  ops     : AMap EngOp
  mxops   : AMap MxOp
  calls   : List CommCall
  gong    : List GongEntry
  grans   : List (Nat × Nat)
  pages   : Memory
  lost    : List Nat           -- the 64-byte units of the pages, by virtual unit, that failed their check (R428)
  inst    : Nat
  deriving DecidableEq, Repr

/-- The thread-slot being executed: its thread, the clause header's address and word count, the slot, the program counter
and repetition after it, the word as stepped, its literals, its repetition, the number of this slot's execution, and the
threads of the issue group at this slot. `alt` is the erratum whose alternative expansion the slot issues through (R403). -/
structure Cur where
  gid     : Nat
  t       : Nat
  head    : W64
  cnt     : Nat
  pc      : W64
  next    : W64
  nextRep : Option RepSt
  word    : W64
  lits    : List W32
  k       : Nat
  inst    : Nat
  mates   : List Nat
  alt     : Option W32
  deriving DecidableEq, Repr

/-- The machine. -/
structure State where
  mem      : Memory
  badUnits : List Nat              -- 64-byte units with an uncorrectable error (R428)
  unitKey  : AMap (Nat × Nat)      -- by unit: the key it is sealed under, and its tweak (R379)
  reach    : AMap Nat              -- by unit: the intermediate unit through which the latest translation reaches it
  resv     : List (Nat × Nat)      -- reservations of harts: group, physical address of the reserved 8 bytes
  stamps   : AMap (List Stamp)
  rels     : AMap (List RelHead)
  cores    : AMap Core
  dies     : AMap Die
  banks    : AMap Bank              -- by 4·die + number
  meas     : AMap (BitVec 512)
  started  : Bool
  dead     : Bool
  epid     : BitVec 12
  ports    : AMap FabPort
  eth      : AMap EthPort
  outbox   : List FabricPacket
  reqSeen  : AMap (List Nat)        -- per source endpoint: request tags received
  notifyHold : List FabricPacket    -- notifies that wait for earlier requests (R383)
  askedAgain : List (Nat × Nat)     -- requests (source, tag) that failed their check once and were asked for again (R394)
  parts    : AMap Partition
  ctxs     : AMap Context           -- by 16·vf + number
  kernels  : AMap Kernel
  graphs   : AMap Graph
  groups   : AMap Group
  ops      : AMap EngOp
  mxops    : AMap MxOp
  calls    : List CommCall
  hostVc   : Clock                  -- what completion signals with rel have passed to the host (R317)
  images   : List Image
  agenda   : List Action
  cur      : Option Cur
  curHart  : Option Nat
  tick     : Nat
  nextGid  : Nat
  nextKid  : Nat
  nextAid  : Nat
  nextInst : Nat
  nextOp   : Nat
  deriving DecidableEq, Repr

/-! ## Reset and creation values -/

def HbState.fresh (aid : Nat) : HbState := ⟨aid, 0, [], [], []⟩
def Tile.zero : Tile := ⟨[], [], 0#8, 0#12, 0#4, false⟩
def Barrier.zero : Barrier := ⟨0#32, 0, .unset, [], []⟩
def EngCtx.zero : EngCtx := ⟨0, 0, [], false, []⟩
def MxCtx.zero : MxCtx := ⟨none, none, none, none⟩
def Hart.off : Hart := ⟨[], [], 0#8, 0#64, .off, HbState.fresh 0⟩
def Core.zero : Core := ⟨0#64, [], none, [], [], []⟩
/-- R23: limit 600 W, 64 tokens, none in use. -/
def Die.zero : Die := ⟨0x0258#16, 0x0040#16, 0, [], [], [], [], [], []⟩
def Queue.zero : Queue := ⟨0#56, 0#4, 0#2, false, 0#32, 0#32, .disabled, 0#8, 0#32, none, [], none, 0, []⟩
def RangeEntry.zero : RangeEntry := ⟨0#40, 0#40, 0#40, false, false, false, false⟩
def CommEntry.zero : CommEntry := ⟨0#4, 0#56, 0#16, 0#16, 0#16, 0#12, false, false, [], []⟩
/-- The decode-table bank at reset (R399, R400): the K7 decode. -/
def Bank.k7 : Bank := ⟨[], 0x0007#16, 0#3, [], [], 0#512⟩
def FabPort.zero : FabPort := ⟨.down, 0#16, 0#16, 0#20, 0⟩
def EthPort.zero : EthPort := ⟨0#48, 0#128, 0#16, []⟩
def FsSlot.empty : FsSlot := ⟨none, 0⟩
/-- A partition as created (R294-R297, R305, R368, R389, R392, R388), its PARTCFG apart. -/
def Partition.fresh : Partition :=
  { wt := 1#8, qmask := 0#16, level := 0#2, lock := false, cmd := none, argRes := false, arg := 0#56, st := 0#8,
    ilen := 0#32, pfqb := 0#56, pfqEn := false, lpfq := 0#5, pprod := 0#32, pcons := 0#32, prSeq := 0, prWait := [],
    ranges := [], comms := [], tok := 0, burst := 0#16, rate := 0#15, rlEn := false, own := 0#12, ownEn := false,
    link := 0#256 }
/-- A free context (R300); its other fields have no meaning until CREATE. -/
def Context.free : Context :=
  { st := .free, ptroot := 0#56, fqbase := 0#56, lfq := 0#4, msize := 0#32, shbase := 0#56, msbase := 0#56,
    mslen := 0#32, fsa := 0#18, bank := 0#2, qdie := 0, qproc := 0, kreq := false, kpub := 0#56, keyId := 0, kmem := [], ktag := [],
    klink := [], kwrap := [], tvec := 0#64, evec := 0#64, hbudget := 0#32, ien := 0#16, fqprod := 0#32, fqcons := 0#32,
    fqSeq := 0, fqWait := [], stops := [], pgq := [], parg := 0#56, pgbad := false, pglost := false, ap := 0#24,
    queues := [], tables := [], code := [], loaded := false, stampOff := none, frames := [], away := [], capNoted := [],
    sgSize := [] }

/-- The machine right after package reset: nothing is created, no port is up, memory lists nothing. -/
def State.reset : State :=
  { mem := [], badUnits := [], unitKey := [], reach := [], resv := [], stamps := [], rels := [], cores := [], dies := [], banks := [],
    meas := [], started := false, dead := false, epid := 0#12, ports := [], eth := [], outbox := [], reqSeen := [],
    notifyHold := [], askedAgain := [], parts := [], ctxs := [], kernels := [], graphs := [], groups := [], ops := [], mxops := [],
    calls := [], hostVc := [], images := [], agenda := [], cur := none, curHart := none, tick := 0, nextGid := 0, nextKid := 0,
    nextAid := 1, nextInst := 0, nextOp := 0 }

end Sys2Proof.Machine
end

