-- ==== Sys2Proof/Machine/Mem.lean ====
section
/-! DEFINITION. Physical memory and translation: byte stores in canonical form (R4), sealed 64-byte units (R379), the two
stages of R365-R369, the translation caches of R370, and the fault rings of R304-R305. -/
namespace Sys2Proof.Machine

/-! ## Byte stores -/

/-- The byte at an address; an address with no entry reads 0 (log 2). -/
def Memory.get (m : Memory) (a : Nat) : Byte := (mget m a).getD 0#8

/-- Writes a byte: an entry equal to the default is removed, so that equal memories are equal lists. -/
def Memory.set (m : Memory) (a : Nat) (b : Byte) : Memory := if b = 0#8 then mdel m a else mset m a b

/-- `n` bytes from an address up. -/
def Memory.getN (m : Memory) (a : Nat) : Nat → List Byte
  | 0 => []
  | n + 1 => m.get a :: m.getN (a + 1) n

/-- Writes bytes from an address up. -/
def Memory.setN (m : Memory) (a : Nat) : List Byte → Memory
  | [] => m
  | b :: bs => (m.set a b).setN (a + 1) bs

/-- Writes bytes each at its own address, in list order. -/
def Memory.setAll (m : Memory) : List (Nat × Byte) → Memory
  | [] => m
  | (a, b) :: l => (m.set a b).setAll l

/-- A little-endian number of `n` bytes (R4). -/
def Memory.getNat (m : Memory) (a n : Nat) : Nat := leNat (m.getN a n)

/-- The canonical form: addresses rise strictly and no entry equals the default. -/
def Memory.wf (m : Memory) : Bool := msorted m && m.all (fun c => c.2 != 0#8)

/-! ## Sealed units (R379, R428) -/

/-- The partition of a context. -/
def vfOf (cid : Nat) : Nat := cid / 16

def State.ctx (s : State) (cid : Nat) : Context := mgetD s.ctxs cid Context.free
def State.part (s : State) (vf : Nat) : Partition := mgetD s.parts vf Partition.fresh
def State.core (s : State) (c : Nat) : Core := mgetD s.cores c Core.zero
def State.die (s : State) (d : Nat) : Die := mgetD s.dies d Die.zero
def State.setCtx (s : State) (cid : Nat) (c : Context) : State := { s with ctxs := mset s.ctxs cid c }
def State.setPart (s : State) (vf : Nat) (p : Partition) : State := { s with parts := mset s.parts vf p }
def State.setCore (s : State) (c : Nat) (x : Core) : State := { s with cores := mset s.cores c x }
def State.setDie (s : State) (d : Nat) (x : Die) : State := { s with dies := mset s.dies d x }

/-- The latest translation reaches a physical byte through an intermediate address (R379: its tweak). -/
def State.reachAt (s : State) (pa ipa : Nat) : State := { s with reach := mset s.reach (pa / 64) (ipa / 64) }

/-- Whether a byte's 64-byte unit fails its check for a reader that holds key `key`: an uncorrectable error, or a unit
sealed under another key or another tweak than the one it is reached under (R379). -/
def State.unitBad (s : State) (key pa : Nat) : Bool :=
  s.badUnits.contains (pa / 64) ||
    (match mget s.unitKey (pa / 64) with
     | some (k, t) => k != key || mgetD s.reach (pa / 64) t != t
     | none => false)

/-- Whether any of `n` bytes fails its check. -/
def State.bytesBad (s : State) (key pa n : Nat) : Bool := (upFrom pa n).any (s.unitBad key)

/-- R428: the first byte of a write that a failing unit keeps from performing: the write does not cover the whole unit. -/
def State.writeBad (s : State) (key : Nat) (pas : List Nat) : Option Nat :=
  pas.find? (fun a => s.unitBad key a && !(upFrom (a / 64 * 64) 64).all pas.contains)

/-- The units that `n` bytes from `pa` touch. -/
def unitsOf (pa n : Nat) : List Nat := if n = 0 then [] else upFrom (pa / 64) ((pa + n - 1) / 64 - pa / 64 + 1)

/-- No context's key: what the K7 writes for the hypervisor is sealed under no key of a context (log 12). -/
def noKey : Nat := 2 ^ 63

/-- The seal of a unit after a write under a key. -/
def sealUnit (reach : AMap Nat) (key : Nat) (m : AMap (Nat × Nat)) (u : Nat) : AMap (Nat × Nat) :=
  if key = noKey then mdel m u else mset m u (key, mgetD reach u u)

/-- R387: whether an address lies in the K7's own window, as the K7 itself reaches it: reads there give zero and writes are
discarded (log 96). -/
def State.ownWindow (s : State) (pa : Nat) : Bool := decide (2 ^ 55 ≤ pa) && pa / 2 ^ 43 % 2 ^ 12 == s.epid.toNat

/-- Writes bytes to physical memory under a key: the units touched are sealed under it and the tweak they are reached under,
a unit written whole is sound again, and reservations of the bytes end. -/
def State.poke (s : State) (key pa : Nat) (bs : List Byte) : State :=
  let bs := if s.ownWindow pa then [] else bs
  { s with
    mem := s.mem.setN pa bs
    resv := s.resv.filter (fun r => !(decide (pa < r.2 + 8) && decide (r.2 < pa + bs.length)))
    unitKey := (unitsOf pa bs.length).foldl (sealUnit s.reach key) s.unitKey
    badUnits := s.badUnits.filter (fun u => !(decide (pa ≤ 64 * u) && decide (64 * u + 64 ≤ pa + bs.length))) }

/-! ## Stage 2 -/

/-- Why a translation failed (R374): a trap-like refusal with its cause and `info`; an invalid entry of kind 0 (a record
and a replay) or 2 (a replay without a record); a stage-2 refusal at an intermediate address; a walk that waits for tokens of
the limiter, because an entry lies at an endpoint (R392). -/
inductive XlFault where
  | refuse (c : Cause) (info : W32)
  | absent (info : W32)
  | moving (info : W32)
  | range (ipa : Nat) (info : W32)
  | limited
  deriving DecidableEq, Repr

/-- The `info` word of R374. -/
def xlInfo (mal : Bool) (ik acc : BitVec 2) (lvl : Nat) : W32 :=
  BitVec.ofNat 32 (lvl + 16 * acc.toNat + 64 * ik.toNat + (if mal then 256 else 0))

/-- What an access needs of a mapping: 0 read, 1 write, 2 fetch, 3 read-modify-write. -/
def accOk (acc : BitVec 2) (r w x : Bool) : Bool :=
  match acc.toNat with
  | 0 => r | 1 => w | 2 => x | _ => r && w

/-- R369: whether a physical address names memory. -/
def paExists (pa : Nat) : Bool := decide (pa < 2 ^ 38) || (decide (2 ^ 55 ≤ pa) && decide (pa < 2 ^ 56))

/-- R387: whether a physical address lies in a notify page of a K7, this one or a peer. -/
def notifyPa (s : State) (pa : Nat) : Bool :=
  decide (2 ^ 55 ≤ pa) && decide (pa % 2 ^ 43 < 2 ^ 26) &&
    (pa / 2 ^ 43 % 2 ^ 12 == s.epid.toNat || Config.endpointIsK7 (pa / 2 ^ 43 % 2 ^ 12))

/-- The regions of a partition that contexts cannot address (R302): race shadows and merge spills, as (base, length). -/
def reservedRegions (s : State) (vf : Nat) : List (Nat × Nat) :=
  let lvl := (s.part vf).level
  s.ctxs.foldl (fun l e =>
    if vfOf e.1 = vf ∧ e.2.st ≠ .free then
      (if lvl = 0#2 then (e.2.shbase.toNat, e.2.msize.toNat * 1024)
       else (e.2.msbase.toNat, e.2.mslen.toNat * 65536)) :: l
    else l) []

/-- R368: the first enabled range entry that covers a granule. -/
def findRange (p : Partition) (gran : Nat) : Option RangeEntry :=
  (p.ranges.find? (fun e => e.2.en && decide (e.2.base.toNat ≤ gran) && decide (gran ≤ e.2.lim.toNat))).map (·.2)

/-- R368: the physical address of an intermediate address, and the range's permissions; none when it is refused. -/
def stage2 (s : State) (vf ipa : Nat) (acc : BitVec 2) : Option (Nat × RangeEntry) :=
  match findRange (s.part vf) (ipa / 65536 % 2 ^ 40) with
  | none => none
  | some e =>
    let pa := (ipa / 65536 + e.off.toNat) % 2 ^ 40 * 65536 + ipa % 65536
    if accOk acc e.r e.w e.x && paExists pa &&
        !(reservedRegions s vf).any (fun g => decide (g.1 ≤ ipa) && decide (ipa < g.1 + g.2))
    then some (pa, e) else none

/-! ## The limiter (R392) -/

/-- Whether a virtual function's requests are held: its limiter is on and has no tokens. -/
def Partition.limited (p : Partition) : Bool := p.rlEn && p.rate != 0#15 && decide (p.tok ≤ 0)

/-- Bytes that have left the K7 are taken from the tokens, down to -2^31. -/
def Partition.spend (p : Partition) (n : Nat) : Partition :=
  if n = 0 ∨ p.rlEn = false ∨ p.rate = 0#15 then p else { p with tok := max (p.tok - (n : Int)) (-(2 ^ 31)) }

/-- What leaves the K7 for a context's function and is never held: replies and write-backs. -/
def State.spend (s : State) (cid n : Nat) : State :=
  if n = 0 then s else s.setPart (vfOf cid) ((s.part (vfOf cid)).spend n)

/-! ## Stage 1 -/

/-- The fields of a page-table entry (R366). -/
def pteV (e : W64) : Bool := e.getLsbD 0
def pteIk (e : W64) : BitVec 2 := if e.getLsbD 1 && e.getLsbD 2 then 1#2 else e.extractLsb' 1 2
def pteLf (e : W64) : Bool := e.getLsbD 2
def pteR (e : W64) : Bool := e.getLsbD 3
def pteW (e : W64) : Bool := e.getLsbD 4
def pteX (e : W64) : Bool := e.getLsbD 5
def pteA (e : W64) : Bool := e.getLsbD 6
def pteD (e : W64) : Bool := e.getLsbD 7
def pteAddr (e : W64) : Nat := (e.extractLsb' 8 48).toNat * 256

/-- R365: the index of an address at a level, in bytes of table. -/
def ptOffset (lvl va : Nat) : Nat :=
  8 * (match lvl with
    | 0 => natBits va 39 17 | 1 => natBits va 30 9 | 2 => natBits va 21 9 | _ => natBits va 16 5)

/-- How many 64 KiB granules a leaf of a level maps. -/
def leafGranules (lvl : Nat) : Nat := match lvl with | 1 => 16384 | 2 => 32 | _ => 1

/-- The alignment of the table that a level's entry names. -/
def nextAlign (lvl : Nat) : Nat := if lvl = 2 then 256 else 4096

/-- R366: whether a valid entry is malformed. -/
def pteBad (e : W64) (lvl : Nat) : Bool :=
  e.extractLsb' 56 8 != 0#8 || e.getLsbD 1 ||
  (if pteLf e then
    lvl == 0 || e.extractLsb' 8 8 != 0#8 ||
      (lvl == 2 && e.extractLsb' 16 5 != 0#5) || (lvl == 1 && e.extractLsb' 16 14 != 0#14)
   else
    lvl == 3 || pteAddr e % nextAlign lvl != 0 || e.extractLsb' 3 5 != 0#5)

/-- What a walk found: the leaf's level and value, the physical and intermediate address of the entry, the non-leaf entries on
the way (level, next table), and how many bytes of entries it read at endpoints. -/
structure Leaf where
  lvl  : Nat
  pte  : W64
  ptePa : Nat
  pteIpa : Nat
  path : List (Nat × Nat)
  far  : Nat
  deriving DecidableEq, Repr

/-- R367: the walk over the levels still to visit. -/
def walkFrom (s : State) (cid : Nat) (va : Nat) (acc : BitVec 2) : List Nat → Nat → Except XlFault Leaf
  | [], _ => .error (.refuse .translation (xlInfo true 0#2 acc 3))
  | lvl :: rest, t =>
    let ipa := t + ptOffset lvl va
    match stage2 s (vfOf cid) ipa 0#2 with
    | none => .error (.range ipa (xlInfo false 0#2 acc lvl))
    | some (pa, _) =>
      let far := if 2 ^ 55 ≤ pa then 8 else 0
      if far ≠ 0 ∧ (s.part (vfOf cid)).limited then .error .limited
      else if (s.reachAt pa ipa).bytesBad (s.ctx cid).keyId pa 8 then .error (.refuse .dataIntegrity 0#32)
      else
        let e : W64 := BitVec.ofNat 64 (s.mem.getNat pa 8)
        if !pteV e then
          (match (pteIk e).toNat with
           | 0 => .error (.absent (xlInfo false 0#2 acc lvl))
           | 2 => .error (.moving (xlInfo false 2#2 acc lvl))
           | _ => .error (.refuse .translation (xlInfo false 1#2 acc lvl)))
        else if pteBad e lvl then .error (.refuse .translation (xlInfo true 0#2 acc lvl))
        else if pteLf e then .ok ⟨lvl, e, pa, ipa, [], far⟩
        else match walkFrom s cid va acc rest (pteAddr e) with
          | .ok lf => .ok { lf with path := (lvl, pteAddr e) :: lf.path, far := lf.far + far }
          | .error f => .error f

/-! ## Translation caches -/

/-- Which caches serve an access (R370): a core's, a die's, the tensor engine's. -/
inductive XlVia where
  | core (c : Nat)
  | die (d : Nat)
  | tensor (d : Nat)
  deriving DecidableEq, Repr

def XlVia.dieOf : XlVia → Nat
  | .core c => c / 64 | .die d => d | .tensor d => d

/-- Whether an entry covers a granule of a context. -/
def TlbEntry.covers (e : TlbEntry) (cid gran : Nat) : Bool :=
  e.cid == cid && decide (e.va ≤ gran) && decide (gran < e.va + e.size)

/-- The cached entry for an address. -/
def tlbFind (l : List TlbEntry) (cid va : Nat) : Option TlbEntry := l.find? (fun e => e.covers cid (va / 65536))

/-- Whether two entries of a context share a granule. -/
def TlbEntry.meets (a b : TlbEntry) : Bool :=
  a.cid == b.cid && decide (a.va < b.va + b.size) && decide (b.va < a.va + a.size)

/-- Adds an entry, newest first, over older ones for its granules; the oldest leaves a full cache (log 11). -/
def tlbAdd (n : Nat) (l : List TlbEntry) (e : TlbEntry) : List TlbEntry := (e :: l.filter (fun x => !x.meets e)).take n

/-- The entries that an access looks at, nearest first. -/
def tlbLookup (s : State) (via : XlVia) (cid va : Nat) : Option TlbEntry :=
  match via with
  | .core c => (tlbFind (s.core c).tlb cid va).or (tlbFind (s.die (c / 64)).tlb cid va)
  | .die d => tlbFind (s.die d).tlb cid va
  | .tensor d => tlbFind (s.die d).tensorTlb cid va

/-- Fills the caches that a walk fills (R370). -/
def tlbFill (s : State) (via : XlVia) (e : TlbEntry) : State :=
  let d := via.dieOf
  let s := s.setDie d { s.die d with tlb := tlbAdd 16384 (s.die d).tlb e }
  match via with
  | .core c => s.setCore c { s.core c with tlb := tlbAdd 64 (s.core c).tlb e }
  | .die _ => s
  | .tensor d => s.setDie d { s.die d with tensorTlb := tlbAdd 2048 (s.die d).tensorTlb e }

/-- How many granules an entry of a level covers. -/
def levelGranules (lvl : Nat) : Nat := match lvl with | 0 => 2 ^ 23 | n => leafGranules n

/-- The deepest cached non-leaf entry for an address. -/
def walkFind (l : List WalkEntry) (cid va : Nat) : Option WalkEntry :=
  [2, 1, 0].findSome? (fun lvl =>
    l.find? (fun e => e.cid == cid && e.lvl == lvl && decide (e.va ≤ va / 65536) && decide (va / 65536 < e.va + e.size)))

/-- Caches the non-leaf entries that a walk went through. -/
def walkFill (s : State) (die cid va : Nat) (path : List (Nat × Nat)) : State :=
  let new := path.map (fun x =>
    let n := levelGranules x.1
    (⟨cid, x.1, va / 65536 / n * n, n, x.2⟩ : WalkEntry))
  let d := s.die die
  s.setDie die { d with walks := new ++ d.walks.filter (fun e => !new.any (fun x => x.cid == e.cid && x.lvl == e.lvl && x.va == e.va)) }

/-- Drops the cached entries, leaf and non-leaf, whose tag and granules satisfy `p`, everywhere (R375). -/
def tlbDrop (s : State) (p : Nat → Nat → Nat → Bool) : State :=
  let keep (e : TlbEntry) : Bool := !p e.cid e.va e.size
  { s with
    cores := mmap (fun _ c => { c with tlb := c.tlb.filter keep }) s.cores
    dies := mmap (fun _ d => { d with tlb := d.tlb.filter keep, tensorTlb := d.tensorTlb.filter keep,
                                      walks := d.walks.filter (fun e => !p e.cid e.va e.size) }) s.dies }

/-- Whether one range entry decides every granule of a stretch of intermediate addresses, and no reserved region lies in
it: a leaf is cached whole only then, else by its granule. -/
def oneRange (s : State) (vf gran n : Nat) : Bool :=
  (match (s.part vf).ranges.find? (fun e => e.2.en && decide (e.2.base.toNat < gran + n) && decide (gran ≤ e.2.lim.toNat)) with
   | some e => decide (e.2.base.toNat ≤ gran) && decide (gran + n ≤ e.2.lim.toNat + 1)
   | none => false) &&
    !(reservedRegions s vf).any (fun g => g.2 != 0 && decide (g.1 < 65536 * (gran + n)) && decide (65536 * gran < g.1 + g.2))

/-- The cached form of a leaf for a granule: the whole leaf where one range decides it and all of it names memory, else the
granule; none where a reserved region lies in the granule (R302). -/
def leafEntry (s : State) (cid va : Nat) (lf : Leaf) (pa : Nat) (rg : RangeEntry) : Option TlbEntry :=
  let n := leafGranules lf.lvl
  let gran := va / 65536
  let ipa := pteAddr lf.pte / 65536 + gran % n
  let one : TlbEntry :=
    { cid := cid, va := gran, size := 1, pa := pa / 65536, ipa := ipa, r := pteR lf.pte && rg.r, w := pteW lf.pte && rg.w,
      x := pteX lf.pte && rg.x, a := pteA lf.pte, d := pteD lf.pte }
  let base := pa / 65536 - gran % n
  if oneRange s (vfOf cid) (ipa - gran % n) n && decide (gran % n ≤ pa / 65536) && paExists (65536 * base) &&
      paExists (65536 * (base + n) - 1) then
    some { one with va := gran - gran % n, size := n, pa := base, ipa := ipa - gran % n }
  else if oneRange s (vfOf cid) ipa 1 then some one
  else none

/-- A walk with its permission checks and the setting of `a` and `d` (R367, R368, R372): the physical address and the
machine with the caches filled. With `cached` it starts at the deepest cached non-leaf entry. -/
def walk (s : State) (via : XlVia) (cid va : Nat) (acc : BitVec 2) (cached : Bool) : Except XlFault (Nat × State) :=
  let start : List Nat × Nat := match (if cached then walkFind (s.die via.dieOf).walks cid va else none) with
    | some e => ((upFrom 0 4).filter (fun l => decide (e.lvl < l)), e.table)
    | none => ([0, 1, 2, 3], (s.ctx cid).ptroot.toNat)
  match walkFrom s cid va acc start.1 start.2 with
  | .error f => .error f
  | .ok lf =>
    if !accOk acc (pteR lf.pte) (pteW lf.pte) (pteX lf.pte) then
      .error (.refuse .permission (xlInfo false 0#2 acc lf.lvl))
    else
      let ipa := pteAddr lf.pte + va % (leafGranules lf.lvl * 65536)
      match stage2 s (vfOf cid) ipa acc with
      | none => .error (.range ipa (xlInfo false 0#2 acc 4))
      | some (pa, rg) =>
        let wr := acc == 1#2 || acc == 3#2
        if wr && notifyPa s pa then .error (.refuse .permission (xlInfo false 0#2 acc 4))
        else
          let pte := lf.pte ||| 0x40#64 ||| (if wr then 0x80#64 else 0#64)
          let s := s.spend cid (lf.far + (if pte ≠ lf.pte ∧ 2 ^ 55 ≤ lf.ptePa then 8 else 0))
          let s := if pte = lf.pte then s
            else (s.reachAt lf.ptePa lf.pteIpa).poke (s.ctx cid).keyId lf.ptePa (leBytes 8 pte.toNat)
          let s := walkFill s via.dieOf cid va lf.path
          let s := match leafEntry s cid va { lf with pte := pte } pa rg with
            | some e => tlbFill s via e
            | none => s
          .ok (pa, s.reachAt pa ipa)

/-- R370, R377: the walk, which goes from the root again where cached non-leaf entries led to a refusal. -/
def walkAgain (s : State) (via : XlVia) (cid va : Nat) (acc : BitVec 2) : Except XlFault (Nat × State) :=
  match walk s via cid va acc true with
  | .ok r => .ok r
  | .error _ => walk s via cid va acc false

/-- R365-R377: the physical address of a virtual address for an access of kind `acc`. A cached entry that lacks a
permission, or `a`, or `d` for a write, is not used: the walk decides. A write into a notify page is refused (R313). -/
def xlate (s : State) (via : XlVia) (cid : Nat) (va : W64) (acc : BitVec 2) : Except XlFault (Nat × State) :=
  if va.extractLsb' 56 8 != 0#8 then .error (.refuse .translation (xlInfo false 0#2 acc 15))
  else
    match tlbLookup s via cid va.toNat with
    | some e =>
      let pa := (e.pa + (va.toNat / 65536 - e.va)) * 65536 + va.toNat % 65536
      if accOk acc e.r e.w e.x && e.a && (e.d || acc == 0#2 || acc == 2#2) &&
          !((acc == 1#2 || acc == 3#2) && notifyPa s pa) then
        .ok (pa, s.reachAt pa ((e.ipa + (va.toNat / 65536 - e.va)) * 65536 + va.toNat % 65536))
      else walkAgain s via cid va.toNat acc
    | none => walkAgain s via cid va.toNat acc

/-- R371: a walk of the tensor translation engine ahead of any access: it sets no bit, records nothing and raises nothing;
it fills its own cache alone. -/
def walkAhead (s : State) (die cid : Nat) (va : W64) : State :=
  if va.extractLsb' 56 8 != 0#8 then s
  else match walkFrom s cid va.toNat 0#2 [0, 1, 2, 3] (s.ctx cid).ptroot.toNat with
    | .error _ => s
    | .ok lf =>
      match stage2 s (vfOf cid) (pteAddr lf.pte + va.toNat % (leafGranules lf.lvl * 65536)) 0#2 with
      | none => s
      | some (pa, rg) => match leafEntry s cid va.toNat lf pa rg with
        | none => s
        | some e => s.setDie die { s.die die with tensorTlb := tlbAdd 2048 (s.die die).tensorTlb e }

/-- Translates every byte of an access: the physical addresses in order. -/
def xlateEach (s : State) (via : XlVia) (cid : Nat) (acc : BitVec 2) :
    List W64 → Except (XlFault × W64) (List Nat × State)
  | [] => .ok ([], s)
  | va :: rest =>
    match xlate s via cid va acc with
    | .error f => .error (f, va)
    | .ok (pa, s1) => match xlateEach s1 via cid acc rest with
      | .error f => .error f
      | .ok (l, s') => .ok (pa :: l, s')

/-- Translates an access; what the units it reaches are reached through is that of this access (R379). -/
def xlateBytes (s : State) (via : XlVia) (cid : Nat) (acc : BitVec 2) (vas : List W64) :
    Except (XlFault × W64) (List Nat × State) :=
  xlateEach { s with reach := [] } via cid acc vas

/-- The addresses of `n` bytes from `va` up, modulo 2^64. -/
def vaRange (va : W64) (n : Nat) : List W64 := (upFrom 0 n).map (fun i => va + BitVec.ofNat 64 i)

/-! ## Fault rings -/

/-- The code of a cause (R244). -/
def Cause.code : Cause → Nat
  | .illegalEncoding => 0x01 | .emulate => 0x02 | .illegalOperand => 0x03 | .releasedRead => 0x04
  | .quotaExceeded => 0x05 | .translation => 0x06 | .permission => 0x07 | .range => 0x08 | .alignment => 0x09
  | .race => 0x0A | .mergeConflict => 0x0B | .nondeterministic => 0x0C | .accumulatorInFlight => 0x0D
  | .tileInUse => 0x0E | .collectiveMismatch => 0x0F | .claimDeadlock => 0x10 | .barrierDeadlock => 0x11
  | .dataIntegrity => 0x12 | .fp => 0x13 | .software => 0x14 | .nestedEmulation => 0x15 | .storeIncons => 0x16
  | .handlerOverrun => 0x17 | .accumulatorMisuse => 0x18 | .breakpoint => 0x19 | .communicator => 0x1A
  | .mergeCapacity => 0x1B | .raceMonitorOverflow => 0x1C | .storeRecursion => 0x1D

/-- A bit as a number. -/
def bitN (b : Bool) : Nat := if b then 1 else 0

/-- A record of one cause with every other field zero. -/
def FaultRec.of (c : Cause) : FaultRec :=
  { seq := 0, rctx := 0#4, core := 0#16, opnum := 0#64, addr := 0#64, pc := 0#64, wid := 0#64, info := 0#32, ectx := 0#3,
    late := false, refault := false, ctxl := false, eng := false, hart := false, cause := c }

/-- The 64 bytes of a record (R304). -/
def FaultRec.bytes (r : FaultRec) : List Byte :=
  leBytes 64
    (r.cause.code + bitN r.hart * 2 ^ 8 + bitN r.eng * 2 ^ 9 + bitN r.ctxl * 2 ^ 10 + bitN r.refault * 2 ^ 11 +
     bitN r.late * 2 ^ 12 + r.ectx.toNat * 2 ^ 13 + r.info.toNat * 2 ^ 32 + r.wid.toNat * 2 ^ 64 +
     r.pc.toNat * 2 ^ 128 + r.addr.toNat * 2 ^ 192 + r.opnum.toNat * 2 ^ 256 + r.core.toNat * 2 ^ 320 +
     r.rctx.toNat * 2 ^ 336 + (r.seq % 2 ^ 64) * 2 ^ 384)

/-- Writes a record into the context's ring if it has room and its place can be written (R304). -/
def fqPut (s : State) (cid : Nat) (r : FaultRec) : Option State :=
  let c := s.ctx cid
  let n := 2 ^ c.lfq.toNat
  if (c.fqprod - c.fqcons).toNat < n then
    match stage2 s (vfOf cid) (c.fqbase.toNat + 64 * (c.fqprod.toNat % n)) 1#2 with
    | none => none
    | some (pa, _) =>
      some (((s.reachAt pa (c.fqbase.toNat + 64 * (c.fqprod.toNat % n))).poke c.keyId pa r.bytes).setCtx cid
        { c with fqprod := c.fqprod + 1#32 })
  else none

/-- R304: a record for a context, numbered; it waits, in order, when the ring has no room. -/
def ctxRecord (s : State) (cid : Nat) (r : FaultRec) : State × Nat :=
  let c := s.ctx cid
  let seq := c.fqSeq + 1
  let s := s.setCtx cid { c with fqSeq := seq }
  let r := { r with seq := seq, core := if (s.part (vfOf cid)).level = 2#2 ∨ r.ctxl then 0#16 else r.core }
  let queued := { s.ctx cid with fqWait := (s.ctx cid).fqWait ++ [{ r with late := true }] }
  if c.fqWait = [] then
    match fqPut s cid r with
    | some s' => (s', seq)
    | none => (s.setCtx cid queued, seq)
  else (s.setCtx cid queued, seq)

/-- Writes a record into the partition's ring if the queue is enabled and has room (R305). The ring is held under no
context's key. -/
def pfqPut (s : State) (vf : Nat) (r : FaultRec) : Option State :=
  let p := s.part vf
  let n := 2 ^ p.lpfq.toNat
  if p.pfqEn && decide ((p.pprod - p.pcons).toNat < n) then
    some ((s.poke noKey (p.pfqb.toNat + 64 * (p.pprod.toNat % n)) r.bytes).setPart vf { p with pprod := p.pprod + 1#32 })
  else none

/-- R305: a `range` record for the partition of a context: only the fields that stage 2 and placement reveal. -/
def partRecord (s : State) (cid : Nat) (r : FaultRec) : State :=
  let vf := vfOf cid
  let p := s.part vf
  let r : FaultRec := { FaultRec.of .range with
    seq := p.prSeq + 1, rctx := BitVec.ofNat 4 cid, info := r.info, addr := r.addr, ectx := r.ectx, eng := r.eng,
    hart := r.hart, core := if p.level = 2#2 ∨ r.ctxl then 0#16 else r.core }
  let s := s.setPart vf { p with prSeq := p.prSeq + 1 }
  let queued := { s.part vf with prWait := (s.part vf).prWait ++ [{ r with late := true }] }
  if p.prWait = [] then
    match pfqPut s vf r with
    | some s' => s'
    | none => s.setPart vf queued
  else s.setPart vf queued

end Sys2Proof.Machine
end

