-- ==== Sys2Proof/Machine/Ops.lean ====
section
/-! DEFINITION. The named operations on groups and threads: access to them, how a slot ends early (`Exc`), outstanding
results (R69-R70), leaving convergence instances (R111), Stop (R242, R304), taking a trap (R241) and returning from one
(R243), and the advance past a slot. -/
namespace Sys2Proof.Machine

/-! ## Access -/

def State.group (s : State) (gid : Nat) : Option Group := mget s.groups gid
def State.setGroup (s : State) (gid : Nat) (g : Group) : State := { s with groups := mset s.groups gid g }
def State.modGroup (s : State) (gid : Nat) (h : Group → Group) : State :=
  match s.group gid with
  | some g => s.setGroup gid (h g)
  | none => s

def Group.setThread (g : Group) (t : Nat) (th : Thread) : Group := { g with threads := mset g.threads t th }
def Group.modThread (g : Group) (t : Nat) (h : Thread → Thread) : Group :=
  match mget g.threads t with
  | some th => g.setThread t (h th)
  | none => g

def State.thread (s : State) (gid t : Nat) : Option Thread := (s.group gid).bind (fun g => mget g.threads t)
def State.setThread (s : State) (gid t : Nat) (th : Thread) : State := s.modGroup gid (fun g => g.setThread t th)
def State.modThread (s : State) (gid t : Nat) (h : Thread → Thread) : State := s.modGroup gid (fun g => g.modThread t h)

/-- The core a group is on, if it is on one. -/
def Group.core (g : Group) : Option Nat :=
  match g.loc with
  | .placed c _ => some c
  | .resident c _ => some c
  | .retiring c _ => some c
  | _ => none

/-- Whether a group is resident (R346): it has started and holds its core. -/
def Group.isResident (g : Group) : Bool := match g.loc with | .resident _ _ => true | _ => false

/-- The number of the core, or 0 for a group that is on none. -/
def Group.coreN (g : Group) : Nat := g.core.getD 0

/-- The determinism level of a context: 0 open, 1 repeatable, 2 portable (R296). -/
def State.level (s : State) (cid : Nat) : Nat := (s.part (vfOf cid)).level.toNat

/-- The live threads of a group (R72): they have not exited. -/
def Group.live (g : Group) : List Nat := (g.threads.filter (fun e => e.2.live)).map (·.1)

/-- The live threads of a subgroup. -/
def Group.liveSg (g : Group) (sg : Nat) : List Nat := (g.threads.filter (fun e => e.2.live && e.2.sg == sg)).map (·.1)

/-- A group's kernel. -/
def State.kernel (s : State) (kid : Nat) : Option Kernel := mget s.kernels kid

/-- A fresh number for the execution of a slot. -/
def State.bumpInst (s : State) : State := { s with nextInst := s.nextInst + 1 }

/-! ## Sorting -/

/-- Inserts by a key, stable. -/
def insertBy {α : Type} (key : α → Nat) (x : α) : List α → List α
  | [] => [x]
  | y :: l => if key x < key y then x :: y :: l else y :: insertBy key x l

/-- Sorts by a key, stable. -/
def sortBy {α : Type} (key : α → Nat) (l : List α) : List α := l.foldl (fun r x => insertBy key x r) []

/-! ## How a slot ends early -/

/-- A slot that does not complete: a trap (cause, `taddr`, `tinfo`); a wait that issues the slot again; a failed
translation, with the record to write (true: the partition's) and the wait for a replay (R374); a hazard stall; or a
fault or refusal of the model. -/
inductive Exc where
  | trap (c : Cause) (ta : W64) (ti : W32)
  | block (w : Wait)
  | replay (rec : Option (Bool × W64 × W32)) (f : FaultWait)
  | stall
  | fault (f : Fault)
  | refuse (r : Refusal)
  deriving DecidableEq, Repr

/-- What a failed translation means for a thread (R374). -/
def xlExc (f : XlFault) (va : W64) (acc : BitVec 2) : Exc :=
  match f with
  | .refuse c info => .trap c va info
  | .absent info => .replay (some (false, va, info)) ⟨va, none, acc, false⟩
  | .moving _ => .replay none ⟨va, none, acc, false⟩
  | .range ipa info => .replay (some (true, BitVec.ofNat 64 ipa, info)) ⟨va, some ipa, acc, false⟩
  | .limited => .stall

/-! ## Outstanding results -/

/-- Writes one outstanding result. -/
def Thread.putResult (th : Thread) (p : Pend) : Thread :=
  { th with
    regs := p.main.foldl (fun m e => mset m e.1 e.2) th.regs
    opf := p.file.foldl (fun m e => mset m e.1 e.2) th.opf
    preds := p.preds.foldl (fun b e => if e.2 then b ||| (1#8 <<< e.1) else b &&& ~~~(1#8 <<< e.1)) th.preds }

/-- Writes every outstanding result, oldest first (R70). -/
def Thread.flush (th : Thread) : Thread :=
  { th.pend.foldl Thread.putResult th with pend := [] }

/-- Writes the oldest outstanding result whose window is over (RESULT_RETURN). -/
def Thread.returnOne (th : Thread) : Thread :=
  match th.pend.find? (fun p => p.left == 0) with
  | none => th
  | some p => { th.putResult p with pend := th.pend.eraseP (fun p => p.left == 0) }

/-- Whether an outstanding result writes a main register. -/
def Pend.hits (p : Pend) (r : Nat) : Bool := p.main.any (fun e => e.1 == r)
def Pend.hitsFile (p : Pend) (r : Nat) : Bool := p.file.any (fun e => e.1 == r)
def Pend.hitsPred (p : Pend) (r : Nat) : Bool := p.preds.any (fun e => e.1 == r)

/-- Writes the outstanding results that satisfy `q`, oldest first: a later write of the same register waits for them
(R70). -/
def Thread.flushFor (th : Thread) (q : Pend → Bool) : Thread :=
  { (th.pend.filter q).foldl Thread.putResult th with pend := th.pend.filter (fun p => !q p) }

/-- Ends the lookahead windows (R70): the next instruction waits for every outstanding result. -/
def Thread.endWindows (th : Thread) : Thread := { th with pend := th.pend.map (fun p => { p with left := 0 }) }

/-- Counts an instruction inside the windows (R69). -/
def Thread.countWindow (th : Thread) : Thread := { th with pend := th.pend.map (fun p => { p with left := p.left - 1 }) }

/-! ## Allocation -/

/-- Whether main register `r` is held: written, taken by an outstanding result, or in flight (R66, R199, R234). -/
def Thread.held (th : Thread) (r : Nat) : Bool :=
  (mget th.regs r).isSome || th.pend.any (fun p => p.hits r) || (mget th.marks r).isSome

/-- a_T (R234): held main registers and 18 for each initialised limit accumulator. -/
def Thread.alloc (th : Thread) : Nat := (upFrom 0 128).countP th.held + 18 * th.las.length

/-! ## Leaving instances, parking, stopping -/

/-- Removes thread `t` from every convergence instance (R111). -/
def Group.leave (g : Group) (t : Nat) : Group :=
  { g with regions := (mmap (fun _ r => { r with members := r.members.filter (· != t), entered := r.entered.filter (· != t),
                                                 arrived := r.arrived.filter (· != t) }) g.regions).filter
                        (fun e => e.2.members != []) }

/-- The state in which a thread leaves its issue group: it enters its next clause afresh, with invalid latches (R59). -/
def Thread.outside (th : Thread) : Thread :=
  { th with inside := false, l0 := none, l1 := none, cvDone := false, kept := none }

/-- Whether a step of MMAA that has not applied names thread `t` (R199). -/
def stepsLeft (s : State) (gid t : Nat) : Bool :=
  s.mxops.any (fun e => e.2.gid == gid && e.2.stage != .applied &&
    (match e.2.kind with | .mmaa st => st.peers.contains t | _ => false))

/-- R116, R214: a thread that has ended: its outstanding results are written, its frames are gone, its registers are back in
the bank and its quota in the free count (R346). Where steps that name its marked registers have not applied (`keep`), those
registers stay out of the bank (R199). -/
def Thread.exited (th : Thread) (keep : Bool) : Thread :=
  let th := { th.flush.outside with
    live := false, regions := [], wait := .none, retry := false, las := [], frames := [], quota := 0 }
  if keep then { th with regs := th.regs.filter (fun e => (mget th.marks e.1).isSome) }
  else { th with regs := [], marks := [] }

/-- Parks a thread in the parked subgroup of an instruction execution (R111). -/
def Group.park (g : Group) (t inst : Nat) : Group :=
  (g.leave t).modThread t (fun th => { th.outside with parked := some inst, regions := [] })

/-- The cycle at which a thread of the group becomes ready now (R339). -/
def readyNow (s : State) (g : Group) : Nat := (s.core g.coreN).cycle.toNat

/-- R242, R304: Stop of a thread with its record. The thread stays at `epc`. -/
def stopThread (s : State) (gid t : Nat) (c : Cause) (epc ta : W64) (ti : W32) : State :=
  match s.group gid, s.thread gid t with
  | some g, some th =>
    let r : FaultRec := { FaultRec.of c with
      core := BitVec.ofNat 16 g.coreN, addr := ta, pc := epc, wid := th.wid, info := ti }
    let (s, seq) := ctxRecord s g.cid r
    let s := s.setCtx g.cid { s.ctx g.cid with stops := (s.ctx g.cid).stops ++ [(seq, gid, t)] }
    s.modThread gid t (fun th =>
      { th.outside with pc := epc, wait := .stop c seq, cvDone := th.cvDone && decide (epc = th.pc), retry := false })
  | _, _ => s

/-- R241: TakeTrap. `rep` is the repetition that the thread resumes at (R71), `inst` the execution whose parked subgroup
it joins. -/
def takeTrap (s : State) (gid t : Nat) (c : Cause) (epc : W64) (rep : Option RepSt) (ta : W64) (ti : W32) (inst : Nat) :
    State :=
  match s.group gid, s.thread gid t with
  | some g, some th =>
    let s := s.modThread gid t Thread.flush
    let tvec := (s.ctx g.cid).tvec
    if th.msk || tvec == 0#64 then
      (stopThread s gid t c epc ta ti).modThread gid t (fun th => { th with rep := rep })
    else
      let s := s.modThread gid t (fun th =>
        { th with cause := BitVec.ofNat 8 c.code, epc := epc, taddr := ta, tinfo := ti, pmsk := th.msk, msk := true,
                  hcount := 0#32, trapRep := rep.map (fun r => (epc, r)), wait := .none, rep := none, pc := tvec,
                  retry := false, ready := readyNow s g })
      s.modGroup gid (fun g => g.park t inst)
  | _, _ => s

/-- R243: the return from a trap handler: the saved program counter and mask. A change of the mask from clear to set
zeroes the count (R242). -/
def Thread.returnFromTrap (th : Thread) : Thread :=
  { th.outside with
    pc := th.epc
    rep := match th.trapRep with | some (p, r) => if p = th.epc then some r else none | none => none
    trapRep := none
    msk := th.pmsk
    hcount := if th.pmsk && !th.msk then 0#32 else th.hcount }

/-- Sets the trap mask; a change from clear to set zeroes the count (R242). -/
def Thread.setMsk (th : Thread) (m : Bool) : Thread :=
  { th with msk := m, hcount := if m && !th.msk then 0#32 else th.hcount }

/-- R374, R376: the record and the wait of a failed translation. The access is saved: its slot keeps the latches it read. -/
def takeReplay (s : State) (gid t inst : Nat) (rec : Option (Bool × W64 × W32)) (f : FaultWait) : State :=
  match s.group gid, s.thread gid t with
  | some g, some th =>
    let r : FaultRec := { FaultRec.of .translation with
      core := BitVec.ofNat 16 g.coreN, pc := th.pc, wid := th.wid, refault := th.retry }
    let s := match rec with
      | none => s
      | some (false, a, info) => (ctxRecord s g.cid { r with addr := a, info := info }).1
      | some (true, a, info) => partRecord s g.cid { r with addr := a, info := info }
    ((s.modThread gid t (fun th => { th with wait := .replay f, retry := false })).modGroup gid (fun g => g.park t inst)).modThread
      gid t (fun u => { u with kept := if th.inside then some (th.l0, th.l1) else none })
  | _, _ => s

/-! ## The slot being executed -/

/-- What a slot's meaning reads beside its thread: the machine before the slot, the slot, the group and its kernel. -/
structure Env where
  s   : State
  cur : Cur
  g   : Group
  k   : Kernel
  th  : Thread
  deriving DecidableEq, Repr

/-- The slot being executed, if there is one. -/
def envOf (s : State) : Option Env :=
  match s.cur with
  | none => none
  | some c =>
    match s.group c.gid with
    | none => none
    | some g =>
      match mget g.threads c.t, s.kernel g.kid with
      | some th, some k => some ⟨s, c, g, k, th⟩
      | _, _ => none

/-- A thread past its slot (R59): the next slot, repetition, or slot 0 of the next clause. One that performed a saved access
re-enters there (R59, R374). -/
def Thread.advance (th : Thread) (c : Cur) : Thread :=
  let th := { th with pc := c.next, rep := c.nextRep, retry := false }
  if c.next.extractLsb' 0 56 = c.pc.extractLsb' 0 56 && th.kept.isNone then th else th.outside

/-- A thread at a transfer's target (R70, R110). -/
def Thread.jump (th : Thread) (pc : W64) : Thread :=
  { th.endWindows.outside with pc := pc, rep := none, retry := false }

/-- Computations of a slot over the whole machine. -/
abbrev SlotM (α : Type) := StateT State (Except Exc) α

/-- Stops the slot early. -/
def exc {α : Type} (x : Exc) : SlotM α := fun _ => .error x

/-- Raises a trap (R72). -/
def raise {α : Type} (c : Cause) (ta : W64) (ti : W32) : SlotM α := exc (.trap c ta ti)

/-- Raises `illegal-operand` with nothing in the record. -/
def illegalOperand {α : Type} : SlotM α := raise .illegalOperand 0#64 0#32

/-- Lifts a computation that may stop the slot. -/
def liftE {α : Type} (x : Except Exc α) : SlotM α := fun s => match x with | .ok a => .ok (a, s) | .error e => .error e

/-- Changes the current thread. -/
def modTh (e : Env) (h : Thread → Thread) : SlotM Unit := modify (fun s => s.modThread e.cur.gid e.cur.t h)

/-- Changes the current group. -/
def modG (e : Env) (h : Group → Group) : SlotM Unit := modify (fun s => s.modGroup e.cur.gid h)

/-- The current group as it stands. -/
def getG (e : Env) : SlotM Group := do return ((← get).group e.cur.gid).getD e.g

/-- The current thread as it stands. -/
def getTh (e : Env) : SlotM Thread := do return ((← get).thread e.cur.gid e.cur.t).getD e.th

/-- Takes a trap from inside a slot's effect, after what it has already done (TRAP, BKPT, `fp`, EFWD). -/
def trapNow (e : Env) (c : Cause) (epc : W64) (rep : Option RepSt) (ta : W64) (ti : W32) : SlotM Unit :=
  modify (fun s => takeTrap s e.cur.gid e.cur.t c epc rep ta ti e.cur.inst)

end Sys2Proof.Machine
end

