-- ==== Sys2Proof/Machine/Operands.lean ====
section
/-! DEFINITION. Operand forms: the kernel descriptor's fields (R93), the special values of R61-R63, `Read` and `Write` of
R66 with in-flight accumulators (R199), the release of marked sources, the pops of guarded-off threads (R68), and the
latches (R67). All of it acts on one thread. -/
namespace Sys2Proof.Machine

/-! ## Kernel descriptor (R93) -/

/-- Bits [lo+n-1 : lo] of a 512-bit record. -/
def dbits (d : BitVec 512) (lo n : Nat) : Nat := natBits d.toNat lo n

def kdVentry (d : BitVec 512) : W64 := BitVec.ofNat 64 (dbits d 0 56)
def kdSentry (d : BitVec 512) : W64 := BitVec.ofNat 64 (dbits d 64 56)
def kdTsbase (d : BitVec 512) : Nat := dbits d 128 56
def kdWd (d : BitVec 512) (n : Nat) : Nat := dbits d (192 + 8 * n) 8
def kdSgm (d : BitVec 512) : Nat := dbits d 240 3
def kdGrm (d : BitVec 512) : Nat := dbits d 243 3
def kdClm (d : BitVec 512) : Nat := dbits d 246 3
def kdQuota (d : BitVec 512) : Nat := dbits d 256 16
def kdScratch (d : BitVec 512) : Nat := dbits d 272 16
def kdXbank (d : BitVec 512) : Nat := dbits d 288 16
def kdTsmask (d : BitVec 512) : Nat := dbits d 304 16
def kdLlog (d : BitVec 512) : Nat := dbits d 320 4
def kdPw (d : BitVec 512) : Nat := dbits d 328 8
def kdDet (d : BitVec 512) : Nat := dbits d 336 3
def kdPort (d : BitVec 512) : Bool := d.getLsbD 339
def kdNbody (d : BitVec 512) : Nat := dbits d 352 56

/-- The position of field `n` in the work identifier (R324): the widths below it. -/
def widPos (d : BitVec 512) : Nat → Nat
  | 0 => 0
  | n + 1 => widPos d n + kdWd d n

/-- Field `n` of a work identifier (R324). -/
def widField (d : BitVec 512) (wid : W64) (n : Nat) : Nat := natBits wid.toNat (widPos d n) (kdWd d n)

/-- R328: the logical core. -/
def lcoreOf (s : State) (k : Kernel) (g : Group) : Nat :=
  if kdPw k.desc ≠ 0 then g.grp / kdPw k.desc
  else if s.level g.cid = 2 then 0 else g.coreN

/-! ## Special values (R61-R63) -/

/-- A special's value by operand type (R63), for the specials that hold 32 bits. -/
def special32 (t : OT) (isLit : Bool) (v : W32) : W64 :=
  match t with
  | .i64 => if isLit then sext64 v else zext64 v
  | .fl .f64 => if isLit then BitVec.ofNat 64 (roundV .f64 .rn false (decodeF .f32 v.toNat)).bits else zext64 v
  | _ => zext64 v

/-- A constant by operand type (R63). -/
def specialConst (t : OT) (c : Int) : W64 :=
  match t with
  | .i32 => zext64 (BitVec.ofInt 32 c)
  | .i64 => BitVec.ofInt 64 c
  | .fl f => BitVec.ofNat 64 (roundV f .rn false (FV.ofInt c)).bits
  | .pk f => let h := (roundV f .rn false (FV.ofInt c)).bits; BitVec.ofNat 64 (h + h * 65536)

/-- The head of the uniform queue for a thread (R253). -/
def uqHead (g : Group) (th : Thread) : Option W32 :=
  if th.uqpos < g.uqFreed then none else g.uq[th.uqpos - g.uqFreed]?

/-- The 32-bit value of a special that is neither a queue read, `lit` nor a constant (R61). -/
def specialFixed (e : Env) (th : Thread) (i : Nat) : W32 :=
  match i with
  | 4 => BitVec.ofNat 32 th.lane
  | 5 => BitVec.ofNat 32 th.sgt
  | 12 => lo32 th.wid
  | 13 => hi32 th.wid
  | 14 => BitVec.ofNat 32 e.g.grp
  | 15 => BitVec.ofNat 32 (lcoreOf e.s e.k e.g)
  | 3 => 0#32
  | n => if 6 ≤ n ∧ n ≤ 11 then BitVec.ofNat 32 (widField e.k.desc th.wid (n - 6)) else 0#32

/-! ## Read (R66) -/

/-- Computations on one thread. -/
abbrev ThM (α : Type) := StateT Thread (Except Exc) α

def thExc {α : Type} (x : Exc) : ThM α := fun _ => .error x
def thTrap {α : Type} (c : Cause) (ti : W32) : ThM α := thExc (.trap c 0#64 ti)

/-- The fault of R199 on a main register in flight. -/
def markFault (m : Mark) (r : Nat) : Exc :=
  .trap .accumulatorInFlight (BitVec.ofNat 64 (m.batch.getD 0)) (BitVec.ofNat 32 (r + 128 * m.mx))

/-- Reads one main register. -/
def readMain (r : Nat) : ThM W32 := fun th =>
  match mget th.marks r with
  | some m => .error (markFault m r)
  | none =>
    match mget th.regs r with
    | some v => .ok (v, th)
    | none => .error (.trap .releasedRead 0#64 (BitVec.ofNat 32 r))

/-- An operand-file register: always allocated, zero at creation. -/
def Thread.opfAt (th : Thread) (r : Nat) : W32 := mgetD th.opf r 0#32

/-- Reads a latch. -/
def readLatch (l : Option Latch) (wide : Bool) : ThM W64 := fun th =>
  match l with
  | none => .error (.trap .illegalOperand 0#64 0#32)
  | some v =>
    if wide && !v.wide then .error (.trap .illegalOperand 0#64 0#32)
    else .ok (if wide then v.val else zext64 (lo32 v.val), th)

/-- Pops the head of the uniform queue (R61, R253). -/
def popUq (e : Env) : ThM W32 := fun th =>
  match uqHead e.g th with
  | some v => .ok (v, { th with uqpos := th.uqpos + 1 })
  | none => .error (.block .uq)

/-- The head of the uniform queue, not popped. -/
def peekUq (e : Env) : ThM W32 := fun th =>
  match uqHead e.g th with
  | some v => .ok (v, th)
  | none => .error (.block .uq)

/-- `Read` (R66): a source of type `t`, whose literal (if it names `lit`) is number `k` of the slot. -/
def readOp (e : Env) (t : OT) (k : Nat) (o : Operand) : ThM W64 :=
  match o with
  | .main i => do
    let lo ← readMain i.toNat
    if t.wide then
      let hi ← readMain (i.toNat + 1)
      return pair64 lo hi
    else return zext64 lo
  | .opf i => fun th =>
    .ok (if t.wide then pair64 (th.opfAt i.toNat) (th.opfAt (i.toNat + 1)) else zext64 (th.opfAt i.toNat), th)
  | .latch i => fun th => readLatch (if i.toNat = 0 then th.l0 else th.l1) t.wide th
  | .special i =>
    match i.toNat with
    | 0 => do return special32 t false (← popUq e)
    | 1 => do return special32 t false (← peekUq e)
    | 2 => return special32 t true (e.cur.lits.getD k 0#32)
    | 3 => return 0#64
    | n => if 32 ≤ n then return specialConst t ((n : Int) - 64)
           else fun th => .ok (special32 t false (specialFixed e th n), th)

/-- Reads `n` registers from an operand up, at main or operand-file level (R144, R146). -/
def readRun (o : Operand) : Nat → Nat → ThM (List W32)
  | _, 0 => return []
  | k, n + 1 => do
    let v ← match o with
      | .main i => readMain (i.toNat + k)
      | .opf i => (fun th => .ok (th.opfAt (i.toNat + k), th) : ThM W32)
      | _ => return []
    return v :: (← readRun o (k + 1) n)

/-! ## Guard, release, pops (R66, R68) -/

/-- R68: the guard. -/
def guardOf (f : Fields) (th : Thread) : Bool := !f.pe || (th.preds.getLsbD f.pi.toNat != f.pn)

/-- The main registers an operand field names. -/
def regsOfField (k : FK) (o : Operand) : List Nat :=
  match o with
  | .main i =>
    (match k with
     | .src t => if t.wide then [i.toNat, i.toNat + 1] else [i.toNat]
     | .run n => upFrom i.toNat n
     | .runDst n => upFrom i.toNat n
     | .quad => upFrom i.toNat 4
     | .quadDst => upFrom i.toNat 4
     | .casPair => upFrom i.toNat 2
     | .dst w => if w then [i.toNat, i.toNat + 1] else [i.toNat]
     | _ => [])
  | _ => []

/-- The main registers whose sources carry a last-read mark. -/
def marked (en : Enc) (f : Fields) : List Nat :=
  (if f.lr.getLsbD 0 then regsOfField en.a f.a else []) ++ (if f.lr.getLsbD 1 then regsOfField en.b f.b else []) ++
  (if f.lr.getLsbD 2 then regsOfField en.c f.c else [])

/-- Frees main registers; a register named twice is freed once. What an outstanding result or a matrix step still brings to
a freed register is written all the same (logs 82 and 106). -/
def Thread.release (th : Thread) (rs : List Nat) : Thread := { th with regs := rs.foldl mdel th.regs }

/-- A thread that has arrived at a collective frees the marked sources that it owes: before it writes (R66). -/
def Thread.payRel (th : Thread) : Thread := { th.release th.owedRel with owedRel := [] }

/-- How many entries of the uniform queue an operand field pops. -/
def popsOf (k : FK) (o : Operand) : Nat :=
  match k with
  | .src _ => if o = .special 0#7 then 1 else 0
  | _ => 0

/-- The pops of a slot (R62, R160). -/
def popCount (en : Enc) (f : Fields) (withD : Bool) : Nat :=
  popsOf en.a f.a + popsOf en.b f.b + popsOf en.c f.c + (if withD then popsOf en.d f.d else 0)

/-- Pops `n` entries, each of which must be there. -/
def popMany (e : Env) : Nat → ThM Unit
  | 0 => return ()
  | n + 1 => do
    let _ ← popUq e
    popMany e n

/-- R68: what happens for a thread whose guard is false: it takes no fault, not even for a release of a register in flight
(log 82). -/
def guardedOff (e : Env) (en : Enc) (f : Fields) (withD : Bool) : ThM Unit := do
  popMany e (popCount en f withD)
  modify (fun th => th.release (marked en f))

/-! ## Write (R66) -/

/-- Takes main registers that a write needs: traps `quota-exceeded` when the allocation would pass the quota. Outstanding
results for them are written first (R70). -/
def takeMain (rs : List Nat) : ThM Unit := fun th =>
  match rs.find? (fun r => (mget th.marks r).isSome) with
  | some r => .error (markFault ((mget th.marks r).getD ⟨0, none, 0, 0⟩) r)
  | none =>
    let need := th.alloc + rs.countP (fun r => !th.held r)
    if th.quota < need ∧ rs.any (fun r => !th.held r) then
      .error (.trap .quotaExceeded 0#64 (BitVec.ofNat 32 (th.quota + 65536 * need)))
    else .ok ((), th.flushFor (fun p => rs.any p.hits))

/-- Writes main registers, taking them. -/
def writeMain (vs : List (Nat × W32)) : ThM Unit := do
  takeMain (vs.map (·.1))
  modify (fun th => { th with regs := vs.foldl (fun m e => mset m e.1 e.2) th.regs })

/-- Writes operand-file registers. -/
def writeFile (vs : List (Nat × W32)) : ThM Unit := modify (fun th =>
  let th := th.flushFor (fun p => vs.any (fun e => p.hitsFile e.1))
  { th with opf := vs.foldl (fun m e => mset m e.1 e.2) th.opf })

/-- The words of a value of one or two registers. -/
def wordsOf (wide : Bool) (v : W64) : List W32 := if wide then [lo32 v, hi32 v] else [lo32 v]

/-- Pairs words with register numbers from `i` up. -/
def numbered (i : Nat) : List W32 → List (Nat × W32)
  | [] => []
  | v :: vs => (i, v) :: numbered (i + 1) vs

/-- `Write` (R66) of consecutive registers from a destination; special `zero` discards (R65). -/
def writeRun (o : Operand) (vs : List W32) : ThM Unit :=
  match o with
  | .main i => writeMain (numbered i.toNat vs)
  | .opf i => writeFile (numbered i.toNat vs)
  | _ => return ()

/-- `Write` (R66). -/
def writeOp (o : Operand) (wide : Bool) (v : W64) : ThM Unit := writeRun o (wordsOf wide v)

/-- Writes a predicate. -/
def writePred (n : Nat) (b : Bool) : ThM Unit := modify (fun th =>
  let th := th.flushFor (fun p => p.hitsPred n)
  { th with preds := if b then th.preds ||| (1#8 <<< n) else th.preds &&& ~~~(1#8 <<< n) })

/-- R67: l1 := l0, l0 := the result. -/
def Thread.latch (th : Thread) (wide : Bool) (v : W64) : Thread :=
  { th with l1 := th.l0, l0 := some ⟨if wide then v else zext64 (lo32 v), wide⟩ }

/-- The outstanding result of a long-latency instruction (R69): its registers are taken now, its values come later. -/
def postpone (kind : DrainKind) (ahd : BitVec 4) (o : Operand) (vs : List W32) (preds : List (Nat × Bool)) : ThM Unit := do
  match o with
  | .main i => takeMain ((numbered i.toNat vs).map (·.1))
  | .opf i => modify (fun th => th.flushFor (fun p => (numbered i.toNat vs).any (fun e => p.hitsFile e.1)))
  | _ => pure ()
  modify (fun th => th.flushFor (fun p => preds.any (fun e => p.hitsPred e.1)))
  modify (fun th =>
    { th with pend := th.pend ++ [{ kind := kind,
                                     main := (match o with | .main i => numbered i.toNat vs | _ => []),
                                     file := (match o with | .opf i => numbered i.toNat vs | _ => []),
                                     preds := preds, left := ahd.toNat }] })

end Sys2Proof.Machine
end

