-- ==== Sys2Proof/Machine/Flags.lean ====
section
/-! DEFINITION. The sticky flags and their traps (R50, R51), the comparison of integers, and the shape that every
instruction on one thread's registers shares: checks (R64), guard (R68), reads, releases, writes (R66), latches (R67),
flags, the `fp` trap and the advance. -/
namespace Sys2Proof.Machine

/-- R50: raises flags. -/
def Thread.raiseFlags (th : Thread) (fl : FFlags) : Thread := { th with fflags := th.fflags ||| fl }

/-- R51, R242: whether raised flags trap. -/
def fpTraps (th : Thread) (fl : FFlags) : Bool := fl &&& th.fen != 0#6 && !th.msk

/-- What an instruction delivers: a value for d or a predicate, and flags. -/
inductive Res where
  | none
  | val (v : W64)
  | pred (b : Bool)
  deriving DecidableEq, Repr

/-- The values an instruction reads: a, b, c, the registers of a run that c names, and d where it is a source. -/
structure Srcs where
  a   : W64
  b   : W64
  c   : W64
  run : List W32
  d   : W64
  deriving DecidableEq, Repr

/-- The type an operand field is read with; fields that are no source read nothing. -/
def FK.ot : FK → Option OT
  | .src t => some t
  | _ => none

/-- Reads one field, if it is a source. -/
def readField (e : Env) (k : FK) (lit : Nat) (o : Operand) : ThM W64 :=
  match k.ot with
  | some t => readOp e t lit o
  | none => return 0#64

/-- How many registers a run operand reads. -/
def runLen : FK → Nat
  | .run n => n
  | .quad => 4
  | .casPair => 2
  | _ => 0

/-- R66, R62: the reads of a, b and c in that order, and of d where it is a source. -/
def readSrcs (e : Env) (en : Enc) (f : Fields) : ThM Srcs := do
  let a ← readField e en.a 0 f.a
  let b ← readField e en.b (litsOf en.a f.a) f.b
  let c ← readField e en.c (litsOf en.a f.a + litsOf en.b f.b) f.c
  let run ← readRun f.c 0 (runLen en.c)
  let d ← readField e en.d (litsOf en.a f.a + litsOf en.b f.b + litsOf en.c f.c) f.d
  return ⟨a, b, c, run, d⟩

/-- R66, R67: writes the result of a fixed-latency instruction. -/
def putRes (en : Enc) (f : Fields) (r : Res) : ThM Unit := do
  match r, en.d with
  | .val v, .dst w =>
    writeOp f.d w v
    modify (fun th => th.latch w v)
  | .pred b, .pred => writePred ((opBits f.d).toNat) b
  | _, _ => return ()

/-- How many registers a destination field names. -/
def dstLen : FK → Nat
  | .dst w => if w then 2 else 1
  | .runDst n => n
  | .quadDst => 4
  | _ => 0

/-- R74: whether `n` registers from a destination can be written, decided when the instruction issues and before its own
faults (R66). -/
def reserveD (o : Operand) (n : Nat) : ThM Unit := fun th =>
  match o with
  | .main i => match takeMain (upFrom i.toNat n) th with
    | .error x => .error x
    | .ok _ => .ok ((), th)
  | _ => .ok ((), th)

/-- The number of a predicate field. -/
def predIx (o : Operand) : Nat := (opBits o).toNat

/-- The value of a predicate. -/
def Thread.predAt (th : Thread) (n : Nat) : Bool := th.preds.getLsbD n

/-- The body of a thread-local instruction: from its fields' values, its thread and its sources to its result and flags,
or a trap of its own. -/
abbrev AluBody := Env → Thread → Srcs → Except Exc (Res × FFlags)

/-- What a value is through the alternative expansion of a kept erratum (R403): under erratum 6:3, CLZ of zero is 31; of
other errata the manual gives no behaviour (log 60). -/
def oldValue (er : W32) (op : Nat) (x : Srcs) (v : W64) : W64 :=
  if er = 0x00060003#32 ∧ op = 0x219 then (if lo32 x.a = 0#32 then 31#64 else v)
  else Config.erratumValue er op x.a x.b x.c v

/-- What a slot delivers, through the expansion it issues through. -/
def Cur.through (c : Cur) (x : Srcs) (r : Res) : Res :=
  match c.alt, r with
  | some er, .val v => .val (oldValue er (c.word.extractLsb' 0 12).toNat x v)
  | some er, .pred b => .pred (Config.erratumPred er (c.word.extractLsb' 0 12).toNat x.a x.b x.c b)
  | _, r => r

/-- R74: what a slot of a thread-local instruction does to its thread; the answer says which flags it raised. -/
def aluThread (e : Env) (en : Enc) (f : Fields) (body : AluBody) : ThM FFlags := do
  if guardOf f (← get) then
    let x ← readSrcs e en f
    let th ← get
    modify (fun th => th.release (marked en f))
    reserveD f.d (dstLen en.d)
    match body e th x with
    | .error ex => thExc ex
    | .ok (r0, fl) =>
      let r := e.cur.through x r0
      if en.long then
        (match r, en.d with
         | .val v, .dst w => postpone .alu f.ahd f.d (wordsOf w v) []
         | _, _ => return ())
      else putRes en f r
      modify (fun th => th.raiseFlags fl)
      return fl
  else
    guardedOff e en f true
    return 0#6

/-- Runs a computation on the current thread inside the machine. -/
def onThread {α : Type} (e : Env) (m : ThM α) : SlotM α := fun s =>
  match s.thread e.cur.gid e.cur.t with
  | none => .error (.fault .noThread)
  | some th =>
    match m th with
    | .error x => .error x
    | .ok (a, th') => .ok (a, s.setThread e.cur.gid e.cur.t th')

/-- The end of a slot: the windows count it (R69), the thread advances, and raised flags trap (R51). -/
def endSlot (e : Env) (fl : FFlags) : SlotM Unit := do
  let th ← getTh e
  modTh e (fun th => th.advance e.cur)
  if fpTraps th fl then trapNow e .fp e.cur.next e.cur.nextRep 0#64 (BitVec.ofNat 32 fl.toNat)

/-- The checks of R64 for an instruction whose entry is `en`. -/
def checkEnc (en : Enc) (f : Fields) : SlotM Unit :=
  if encOk en f then return () else raise .illegalEncoding 0#64 0#32

/-- R416: the record of the first held access of a kernel's interval. -/
def noteHeld (s : State) (cid kid : Nat) : State :=
  if (s.ctx cid).capNoted.contains kid then s
  else
    let s := (ctxRecord s cid { FaultRec.of .mergeCapacity with ctxl := true }).1
    s.setCtx cid { s.ctx cid with capNoted := kid :: (s.ctx cid).capNoted }

/-- Whether an engine operation of a group waits for a merge entry (R416). -/
def groupHeld (s : State) (gid : Nat) : Bool := s.ops.any (fun o => o.2.gid == some gid && o.2.held)

/-- A thread waits at its slot, which it will issue again; a load or a store that waits for its access keeps the latches. -/
def blockAt (s : State) (gid t : Nat) (w : Wait) : State :=
  s.modThread gid t (fun th => { th.outside with
    wait := w, cvDone := th.cvDone, retry := false
    kept := if (w = .held ∨ w = .tokens ∨ w = .hazard) ∧ th.inside = true then some (th.l0, th.l1) else none })

/-- What a slot that ended early leaves (R72, R74): nothing of its own but the trap, the wait or the stall. A stalled
issue group gives up the port and keeps its place (R339); behind a held engine operation a stall is a blocking point (R416). -/
def resolveExc (e : Env) (s : State) (x : Exc) : Host.Outcome State Fault Refusal :=
  match x with
  | .trap c ta ti => .next (takeTrap s e.cur.gid e.cur.t c e.cur.pc e.th.rep ta ti e.cur.inst)
  | .block w =>
    let s := if w = .held then noteHeld s e.g.cid e.g.kid else s
    .next (blockAt s e.cur.gid e.cur.t w)
  | .replay r f => .next (takeReplay s e.cur.gid e.cur.t e.cur.inst r f)
  | .stall =>
    if groupHeld s e.cur.gid then .next (blockAt s e.cur.gid e.cur.t .hazard)
    else
    let c := s.core e.g.coreN
    .next (match c.port with
      | some ig => (s.modThread e.cur.gid e.cur.t (fun th => { th with retry := false })).setCore e.g.coreN { c with port := none, yielded := c.yielded ++ [{ ig with todo := e.cur.t :: ig.todo, stalled := true, since := c.cycle.toNat }] }
      | none => s)
  | .fault f => .fault f
  | .refuse r => .refused r

/-- Runs a slot: no thread, no slot. -/
def runSlot (m : Env → SlotM Unit) (s : State) : Host.Outcome State Fault Refusal :=
  match envOf s with
  | none => .fault .noThread
  | some e =>
    match m e s with
    | .ok (_, s') => .next s'
    | .error x => resolveExc e s x

/-- A slot of an instruction: its windows count it (R69) and its checks come first (R64). -/
def runInstr (i : Instr) (f : Fields) (m : Env → Enc → SlotM Unit) (s : State) : Host.Outcome State Fault Refusal :=
  runSlot (fun e => do
    match encOf i with
    | none => raise .illegalEncoding 0#64 0#32
    | some en =>
      checkEnc en f
      modTh e Thread.countWindow
      m e en) s

/-- R74: a slot whose effect reaches beyond its thread: reads, releases, then the effect `m`, which answers with the flags
it raised; a guarded-off thread pops and releases only (R68). -/
def guardedSlot (e : Env) (en : Enc) (f : Fields) (m : Srcs → SlotM FFlags) : SlotM Unit := do
  let th ← getTh e
  if guardOf f th then
    let x ← onThread e (readSrcs e en f)
    modTh e (fun th => th.release (marked en f))
    onThread e (reserveD f.d (dstLen en.d))
    let fl ← m x
    modTh e (fun th => th.raiseFlags fl)
    endSlot e fl
  else
    onThread e (guardedOff e en f true)
    endSlot e 0#6

/-- A slot with an effect beyond its thread. -/
def runGuarded (i : Instr) (f : Fields) (m : Env → Enc → Srcs → SlotM FFlags) (s : State) :
    Host.Outcome State Fault Refusal :=
  runInstr i f (fun e en => guardedSlot e en f (m e en)) s

/-- The words that a long-latency instruction delivers, through the expansion it issues through (R403, log 60). -/
def Cur.words (c : Cur) (vs : List W32) : List W32 :=
  match c.alt with
  | some er => vs.map (fun v => lo32 (Config.erratumValue er (c.word.extractLsb' 0 12).toNat 0#64 0#64 0#64 (zext64 v)))
  | none => vs

/-- The words of a value written to d by a long-latency instruction (R69). -/
def deliver (e : Env) (kind : DrainKind) (f : Fields) (vs : List W32) : SlotM Unit :=
  onThread e (postpone kind f.ahd f.d (e.cur.words vs) [])

/-- A slot of a thread-local instruction. -/
def runAlu (i : Instr) (f : Fields) (body : AluBody) (s : State) : Host.Outcome State Fault Refusal :=
  runInstr i f (fun e en => do
    let fl ← onThread e (aluThread e en f body)
    endSlot e fl) s

/-! ## Comparison of integers (R118) -/

/-- The truth of a condition on two integers. -/
def iCmp (cc : BitVec 4) (a b : Int) : Bool :=
  match cc.toNat with
  | 0 => decide (a = b) | 1 => decide (a ≠ b) | 2 => decide (a < b) | 3 => decide (a ≤ b) | 4 => decide (b < a)
  | _ => decide (b ≤ a)

/-- A value with no flags. -/
def ok (v : W64) : Except Exc (Res × FFlags) := .ok (.val v, 0#6)
/-- A 32-bit value with no flags. -/
def ok32 (v : W32) : Except Exc (Res × FFlags) := .ok (.val (zext64 v), 0#6)
/-- A predicate with no flags. -/
def okP (b : Bool) : Except Exc (Res × FFlags) := .ok (.pred b, 0#6)
/-- A floating-point result with its flags. -/
def okF (r : FRes) : Except Exc (Res × FFlags) := .ok (.val (BitVec.ofNat 64 r.bits), r.flags)

/-- The 32-bit sources. -/
def Srcs.a32 (x : Srcs) : W32 := lo32 x.a
def Srcs.b32 (x : Srcs) : W32 := lo32 x.b
def Srcs.c32 (x : Srcs) : W32 := lo32 x.c

end Sys2Proof.Machine
end

