-- ==== Sys2Proof/Machine/Access.lean ====
section
/-! DEFINITION. Memory as threads and engines reach it: what happens-before means here (R260-R262 as vector clocks), races
(R268-R275), the scratchpad (R140), global reads and writes at each determinism level (R162, R273), merge entries
(R415-R416). -/
namespace Sys2Proof.Machine

/-! ## Shapes of a launch (R323) -/

def Kernel.extent (k : Kernel) (n : Nat) : Nat := (k.ext.getD n 0#32).toNat + 1

/-- The product of the extents of fields lo to hi - 1. -/
def Kernel.span (k : Kernel) (lo hi : Nat) : Nat := (upFrom lo (hi - lo)).foldl (fun p n => p * k.extent n) 1

/-- S, T, groups per cluster, groups in the kernel. -/
def Kernel.sgSize (k : Kernel) : Nat := k.span 0 (kdSgm k.desc)
def Kernel.grSize (k : Kernel) : Nat := k.span 0 (kdGrm k.desc)
def Kernel.clSize (k : Kernel) : Nat := k.span (kdGrm k.desc) (kdClm k.desc)
def Kernel.groupCount (k : Kernel) : Nat := k.span (kdGrm k.desc) 6

/-- The cluster of a group and its rank there (R151): `grp` counts the lowest fields fastest. -/
def clusterOf (k : Kernel) (g : Group) : Nat := g.grp / k.clSize
def rankOf (k : Kernel) (g : Group) : Nat := g.grp % k.clSize

/-- Where a thread stands (R258). -/
def placeOf (k : Kernel) (gid : Nat) (g : Group) (sg : Nat) : Place :=
  { gid := gid, sg := sg, kid := g.kid, cl := clusterOf k g, die := g.coreN / 64 }

def Env.place (e : Env) : Place := placeOf e.k e.cur.gid e.g e.th.sg

/-- R258: whether `q` lies in scope `sc` of `p`. -/
def inScope (sc : BitVec 3) (p q : Place) : Bool :=
  match sc.toNat with
  | 0 => p.gid == q.gid && p.sg == q.sg
  | 1 => p.gid == q.gid
  | 2 => p.kid == q.kid && p.cl == q.cl
  | 3 => p.die == q.die || p.gid == q.gid || (p.kid == q.kid && p.cl == q.cl)
  | _ => true

/-- The narrowest scope that holds both (R269). -/
def distOf (p q : Place) : Nat :=
  if inScope 0#3 p q then 0 else if inScope 1#3 p q then 1 else if inScope 2#3 p q then 2
  else if inScope 3#3 p q then 3 else 4

/-! ## Clocks -/

/-- The join of two clocks. -/
def clockJoin (a b : Clock) : Clock := b.foldl (fun m e => mset m e.1 (max (mgetD m e.1 0) e.2)) a

/-- What an agent knows, itself included. -/
def HbState.now (h : HbState) : Clock := mset h.vc h.aid h.clk

/-- The reads of an engine operation are events of an agent of their own, numbered one above the operation (R257, R261):
the operation knows them, and they know its writes. -/
def HbState.reads (h : HbState) : HbState := { h with aid := h.aid + 1, clk := 1, vc := mset h.vc h.aid h.clk }

/-- What an operation's reads alone pass on. -/
def HbState.rdNow (h : HbState) : Clock := mset (mdel h.vc h.aid) (h.aid + 1) 1

/-- What an operation's writes alone pass on. -/
def HbState.wrNow (h : HbState) : Clock := mset (mdel h.vc (h.aid + 1)) h.aid h.clk

/-- After passing on what it knows, an agent's later events are new. -/
def HbState.tick (h : HbState) : HbState := { h with clk := h.clk + 1 }

/-- An agent learns a clock. -/
def HbState.learn (h : HbState) (c : Clock) : HbState := { h with vc := clockJoin h.vc c }

/-- Whether an access of the past happens before an agent's present (R262). -/
def ordered (h : HbState) (st : Stamp) : Bool :=
  st.aid == h.aid || decide (st.clk ≤ mgetD h.vc st.aid 0)

/-! ## Races -/

/-- R268: whether an access of the past and a new one race, given what the new one's agent knows; two WADDs never do
(R161). -/
def racing (h : HbState) (old new : Stamp) : Bool :=
  (old.wr || new.wr) && !ordered h old && !(old.cell && new.cell) &&
    !(match old.atomic, new.atomic with
      | some s1, some s2 => inScope s1 old.place new.place && inScope s2 new.place old.place
      | _, _ => false)

/-- The record of one byte after an access: a plain write follows every access kept, so it alone is kept. -/
def keepStamp (l : List Stamp) (new : Stamp) : List Stamp :=
  if new.wr && new.atomic.isNone then [new]
  else l.filter (fun o => !(o.aid == new.aid && o.wr == new.wr && o.atomic == new.atomic && o.cell == new.cell)) ++ [new]

/-- The lowest racing byte among addresses in order, with the access it races with. -/
def findRace (m : AMap (List Stamp)) (h : HbState) (new : Stamp) : List Nat → Option (Nat × Stamp)
  | [] => none
  | a :: as =>
    match (mgetD m a []).find? (fun o => racing h o new) with
    | some o => some (a, o)
    | none => findRace m h new as

/-- Stamps bytes (R271). -/
def stampAll (m : AMap (List Stamp)) (new : Stamp) (as : List Nat) : AMap (List Stamp) :=
  as.foldl (fun m a => mset m a (keepStamp (mgetD m a []) new)) m

/-- R269: `sys.tinfo` of a race. -/
def raceInfo (old new : Stamp) : W32 :=
  BitVec.ofNat 32 (distOf old.place new.place + bitN new.wr * 256 + bitN old.wr * 512 + bitN old.eng * 1024)

/-- The stamp of an access. -/
def HbState.stamp (h : HbState) (wr : Bool) (atomic : Option (BitVec 3)) (eng : Bool) (p : Place) : Stamp :=
  { aid := h.aid, clk := h.clk, wr := wr, atomic := atomic, eng := eng, cell := false, place := p,
    vc := if wr then h.vc else [], bad := false }

/-- The die that holds a sector's home (R369). Sectors at an endpoint, of which the spec does not say which die counts them,
count by the same bits of their address (log 22). -/
def sectorDie (sec : Nat) : Nat := sec * 32 / 2 ^ 36 % 4

/-- How many 32-byte sectors, among those of die `d`, have a stamp that satisfies `p`; addresses rise. -/
def sectorsOn (d : Nat) (p : Stamp → Bool) (m : AMap (List Stamp)) : Nat := (m.foldl (fun (a : Nat × Option Nat) e =>
  if sectorDie (e.1 / 32) ≠ d ∨ a.2 = some (e.1 / 32) ∨ e.2.any p = false then a else (a.1 + 1, some (e.1 / 32))) (0, none)).1

/-- Whether a sector has a stamp. -/
def sectorStamped (m : AMap (List Stamp)) (sec : Nat) : Bool := (upFrom (32 * sec) 32).any (fun a => (mget m a).isSome)

/-- R426, R428: the first byte of an access that meets stamps whose stored copy fails its check: those of a sector fail
together. -/
def State.stampBad (s : State) (pas : List Nat) : Option Nat :=
  let bad := (s.stamps.filter (fun e => e.2.any (·.bad))).map (·.1 / 32)
  pas.find? (fun a => bad.contains (a / 32))

/-- R12, R271: whether new sectors of a context find room: each die's table has 2^19 sectors, and what a context has beyond
them goes to its shadow region (log 19). -/
def stampsFit (s : State) (cid : Nat) (fresh : List Nat) : Bool :=
  let mine (o : Stamp) : Bool := match mget s.kernels o.place.kid with | some k => k.cid == cid | none => false
  let beyond (d : Nat) : Nat :=
    let n := fresh.countP (fun x => sectorDie x == d)
    min (sectorsOn d mine s.stamps + n) (sectorsOn d (fun _ => true) s.stamps + n - 2 ^ 19)
  decide (beyond 0 + beyond 1 + beyond 2 + beyond 3 ≤ Config.stampRoom (s.ctx cid).msize)

/-- R271: stamps global bytes; when there is no room the context is told once and new sectors get no stamp. -/
def stampGlobal (s : State) (cid : Nat) (new : Stamp) (pas : List Nat) : State :=
  let c := s.ctx cid
  let fresh := (pas.map (· / 32)).eraseDups.filter (fun x => !sectorStamped s.stamps x)
  if fresh = [] ∨ (c.stampOff = none ∧ stampsFit s cid fresh = true) then { s with stamps := stampAll s.stamps new pas }
  else
    let s := { s with stamps := stampAll s.stamps new (pas.filter (fun a => !fresh.contains (a / 32))) }
    if c.stampOff.isSome then s
    else
      let s := (ctxRecord s cid { FaultRec.of .raceMonitorOverflow with ctxl := true }).1
      s.setCtx cid { s.ctx cid with stampOff := some new.place.kid }

/-! ## Release and acquire (R260) -/

/-- What an atomic write at a location releases: its own knowledge when it is a release, and what its FENCEs with W
among the successors cover. -/
def headsOf (h : HbState) (ord : BitVec 2) (sc : BitVec 3) (p : Place) : List RelHead :=
  (if ord == 2#2 || ord == 3#2 then [⟨h.now, sc, p, false⟩] else []) ++
  h.fence.map (fun x => ⟨x.1, x.2, p, false⟩)

/-- The heads that a read of bytes meets. -/
def headsAt (m : AMap (List RelHead)) (as : List Nat) : List RelHead :=
  ((as.flatMap (fun a => mgetD m a [])).filter (fun x => !x.past)).eraseDups

/-- An agent reads a location: as an acquire at a scope it learns the heads in scope; in any case a later FENCE may. -/
def HbState.readHeads (h : HbState) (p : Place) (acq : Option (BitVec 3)) (l : List RelHead) : HbState :=
  let h := { h with seen := h.seen ++ (l.map (fun x => (x.vc, x.scope, x.place))).filter (fun x => !h.seen.contains x) }
  match acq with
  | none => h
  | some sc => l.foldl (fun h x => if inScope x.scope x.place p && inScope sc p x.place then h.learn x.vc else h) h

/-- The heads of the bytes of a location after a write: a read of a read-modify-write meets every head before it in `co`, a
read of another write its own alone (R260). -/
def writeHeads (m : AMap (List RelHead)) (as : List Nat) (keep : Bool) (new : List RelHead) : AMap (List RelHead) :=
  as.foldl (fun m a =>
    let l := ((mgetD m a []).map (fun (x : RelHead) => { x with past := !keep }) ++ new).eraseDups
    if l = [] then mdel m a else mset m a l) m

/-! ## Scratchpad (R140) -/

/-- Whether bytes of the scratchpad are accessible to the group: each lies in its scratch or in the exchange bank. -/
def spOk (k : Kernel) (off n : Nat) : Bool :=
  decide (off + n ≤ 256 * kdScratch k.desc) ||
    ((decide (0x60000 ≤ off) || decide (256 * kdScratch k.desc = 0x60000)) && decide (off + n ≤ 0x60000 + 256 * kdXbank k.desc))

/-- Reads scratchpad bytes: below 0x60000 the scratch, from there on the live exchange bank. -/
def Group.spGet (g : Group) (off n : Nat) : List Byte :=
  g.spad.getN off (min n (0x60000 - off)) ++ g.xlive.getN (off - 0x60000) (n - (0x60000 - off))

/-- Writes scratchpad bytes. -/
def Group.spPut (g : Group) (off : Nat) (bs : List Byte) : Group :=
  { g with spad := g.spad.setN off (bs.take (0x60000 - off))
           xlive := g.xlive.setN (off - 0x60000) (bs.drop (0x60000 - off)) }

/-- The key of a shadow-bank byte among a group's stamps, which is also the address that a race on it reports: R140 gives the
shadow bank no offsets (log 81). -/
def shadowKey (x : Nat) : Nat := 0x100000 + x

/-- R269, R275: the fault of a scratchpad race. -/
def spRace (lvl : Nat) (a : Nat) (old new : Stamp) : Exc :=
  if lvl = 0 then .trap .race (BitVec.ofNat 64 a) (raceInfo old new) else .trap .mergeConflict (BitVec.ofNat 64 a) 0#32

/-- Checks and stamps a scratchpad access of the current thread in a group's scratchpad. -/
def spTouchSt (e : Env) (gid : Nat) (keys : List Nat) (new : HbState → Stamp) : SlotM Unit := do
  let g := ((← get).group gid).getD e.g
  let th ← getTh e
  let new := new th.hb
  match findRace g.stamps th.hb new keys with
  | some (a, o) => exc (spRace (e.s.level e.g.cid) a o new)
  | none => modify (fun s => s.modGroup gid (fun g => { g with stamps := stampAll g.stamps new keys }))

/-- Checks and stamps an access of the current thread in its own scratchpad. -/
def spTouch (e : Env) (keys : List Nat) (wr : Bool) (atomic : Option (BitVec 3)) : SlotM Unit :=
  spTouchSt e e.cur.gid keys (fun h => h.stamp wr atomic false e.place)

/-- R140: traps `permission` for bytes outside the accessible scratchpad. -/
def spCheck (e : Env) (off n : Nat) : SlotM Unit :=
  if spOk e.k off n then return () else raise .permission (BitVec.ofNat 64 off) 0#32

/-- A scratchpad read of the current thread. -/
def spRead (e : Env) (off n : Nat) (acq : Option (BitVec 3)) (atomic : Option (BitVec 3)) : SlotM (List Byte) := do
  spCheck e off n
  spTouch e (upFrom off n) false atomic
  let g ← getG e
  modTh e (fun th => { th with hb := th.hb.readHeads e.place acq (headsAt g.rels (upFrom off n)) })
  return g.spGet off n

/-- A scratchpad write of the current thread; `heads` is what it releases, `keep` that it is a read-modify-write. -/
def spWrite (e : Env) (off : Nat) (bs : List Byte) (atomic : Option (BitVec 3)) (keep : Bool) (heads : List RelHead) :
    SlotM Unit := do
  spCheck e off bs.length
  spTouch e (upFrom off bs.length) true atomic
  modG e (fun g => { g.spPut off bs with rels := writeHeads g.rels (upFrom off bs.length) keep heads })

/-! ## Global memory -/

/-- One queued update applied to memory (R155, R48); updates of tables and queues leave memory alone. -/
def redOpI (o : Nat) (old c : Nat) (w : Nat) : Nat :=
  let sg (n : Nat) : Int := if n.testBit (w - 1) then (n : Int) - 2 ^ w else n
  match o with
  | 0 => (old + c) % 2 ^ w
  | 1 => if sg c < sg old then c else old
  | 2 => if sg old < sg c then c else old
  | 3 => min old c
  | 4 => max old c
  | 5 => old &&& c
  | 6 => old ||| c
  | _ => c

/-- The float operations of R155, with their flags. -/
def redOpF (o : Nat) (old c : Nat) : FRes :=
  match o with
  | 0 => fAdd .f32 .rn old c
  | 1 => fMinMax .f32 false old c
  | 2 => fMinMax .f32 true old c
  | _ => ⟨c, 0#6⟩

/-- WADD on a cell's 128 bits (R47, R48). -/
def waddCell (cell : Nat) (w : Int) (dbl : Bool) (x : W64) : Nat :=
  let v : Int := let n := cell % 2 ^ 120; if n.testBit 119 then (n : Int) - 2 ^ 120 else n
  match decodeF (if dbl then .f64 else .f32) x.toNat with
  | .nan _ => cell ||| 2 ^ 121
  | .inf n => cell ||| (if n then 2 ^ 123 else 2 ^ 122)
  | .fin n m ex =>
    let p := dyad m (ex - w)
    let k0 : Int := roundNat .rn n p.1 p.2
    let k := if n then -k0 else k0
    let lim : Int := 2 ^ 119
    let ovf := decide (k < -lim) || decide (lim ≤ k) || decide (v + k < -lim) || decide (lim ≤ v + k)
    let r := ((v + k) % 2 ^ 120).toNat
    (cell / 2 ^ 120 * 2 ^ 120 + r) ||| (if ovf then 2 ^ 120 else 0)

/-- The bytes that an item writes, given memory (R162, R273). -/
def MItem.effect (m : Memory) : MItem → List (Nat × Byte)
  | .write bs => bs
  | .redI o pa v =>
    let r := redOpI o.toNat (m.getNat pa 4) v.toNat 32
    (upFrom pa 4).zip (leBytes 4 r)
  | .redF o pa v => (upFrom pa 4).zip (leBytes 4 (redOpF o.toNat (m.getNat pa 4) v.toNat).bits)
  | .wadd pa w dbl x => (upFrom pa 16).zip (leBytes 16 (waddCell (m.getNat pa 16) w dbl x))
  | _ => []

/-- R162, R273: the task's view: its snapshot with its own items in order. -/
def taskView (k : Kernel) (g : Group) (m : Memory) : Memory :=
  g.pendW.foldl (fun m r => m.setAll (r.item.effect m)) (k.snap.getD m)

/-- The 32-byte sectors that a queued item takes entries for (R415); a table event takes one of its own. -/
def MItem.sectors : MItem → List Nat
  | .write bs => (bs.map (fun e => e.1 / 32)).eraseDups
  | .redI _ pa _ => [pa / 32]
  | .redF _ pa _ => [pa / 32]
  | .wadd pa _ _ _ => [pa / 32]
  | _ => []

/-- Whether a queued item is a table event (R221). -/
def MItem.isTable : MItem → Bool
  | .fsHit .. => true | .fsCount .. => true | .fsFlush .. => true | .fsUpdate .. => true | .fsDesc .. => true
  | _ => false

/-- The home die of a table event's table. -/
def itemHome (s : State) (cid : Nat) (item : MItem) : Nat :=
  let home (t : Nat) : Nat := match mget (s.ctx cid).tables t with
    | some sl => (sl.table.map (·.home)).getD 0
    | none => 0
  match item with
  | .fsHit t _ _ => home t | .fsCount t _ _ => home t | .fsFlush t _ _ => home t | .fsUpdate t _ _ _ _ => home t
  | .fsDesc _ _ _ d => d
  | _ => 0

/-- The merge entries that a task's queue holds on a die (R415): one for each sector, one for each table event. -/
def entriesOn (d : Nat) (l : List MRec) : Nat :=
  ((l.flatMap (fun r => r.item.sectors)).eraseDups.filter (fun x => sectorDie x == d)).length +
    l.countP (fun r => r.item.isTable && r.home == d)

/-- The merge entries in use on a die, by every context, and those of them that spills hold. -/
def diePending (s : State) (d : Nat) : Nat := s.groups.foldl (fun n e => n + entriesOn d e.2.pendW) 0
def spilledOn (s : State) (d : Nat) : Nat :=
  s.groups.foldl (fun n e => e.2.pendW.foldl (fun n r => n + r.spill.count d) n) 0

/-- The entries that a context's spill holds. -/
def ctxSpilled (s : State) (cid : Nat) : Nat :=
  s.groups.foldl (fun n e => if e.2.cid = cid then e.2.pendW.foldl (fun n r => n + r.spill.length) n else n) 0

/-- The new entries that an item needs beside those that its task holds, by their dies. -/
def newEntries (l : List MRec) (item : MItem) (home : Nat) : List Nat :=
  if item.isTable then [home]
  else
    let have_ := l.flatMap (fun r => r.item.sectors)
    (item.sectors.filter (fun x => !have_.contains x)).map sectorDie

/-- R415: where the new entries of an item come from: the buffers of their dies, 2^18 entries on each, then the context's
spill, 1,024 for each 64 KiB of it. The dies of the spilled ones; none where there is no room for all of them. -/
def takeEntries (s : State) (cid : Nat) (l : List MRec) (item : MItem) (home : Nat) : Option (List Nat) :=
  let need := newEntries l item home
  let spills := (upFrom 0 4).flatMap (fun d =>
    List.replicate (need.count d - (2 ^ 18 - (diePending s d - spilledOn s d))) d)
  if spills = [] ∨ ctxSpilled s cid + spills.length ≤ 1024 * (s.ctx cid).mslen.toNat then some spills else none

/-- R415, R416: whether an item of a group has its entries. -/
def mergeRoom (s : State) (cid : Nat) (l : List MRec) (item : MItem) : Bool :=
  (takeEntries s cid l item (itemHome s cid item)).isSome

/-- Puts an update behind those that its own thread made before it: an engine's stands where its operation was issued
(R273). -/
def queueRec (r : MRec) : List MRec → List MRec
  | [] => [r]
  | x :: l => if x.thread = r.thread ∧ r.po < x.po then r :: x :: l else x :: queueRec r l

/-- A queue with one more update, which takes its entries; none where there is no room (R416). -/
def pushRec (s : State) (cid : Nat) (l : List MRec) (r : MRec) : Option (List MRec) :=
  let home := itemHome s cid r.item
  (takeEntries s cid l r.item home).map (fun sp => queueRec { r with spill := sp, home := home } l)

/-! ## Pages of an interval (R378) -/

/-- The physical granule of a virtual one as a snapshot's page tables have it. -/
def startPage (s : State) (cid : Nat) (snap : Memory) (vg : Nat) : Option Nat :=
  let s0 := { s with mem := snap }
  match walkFrom s0 cid (65536 * vg) 0#2 [0, 1, 2, 3] (s.ctx cid).ptroot.toNat with
  | .ok lf =>
    (stage2 s0 (vfOf cid) (pteAddr lf.pte + 65536 * (vg % leafGranules lf.lvl)) 0#2).map (fun x => x.1 / 65536)
  | .error _ => none

/-- The bytes of one granule of a memory, put at another. -/
def copyGranule (src : Memory) (a : Nat) (dst : Memory) (b : Nat) : Memory :=
  Memory.setAll (dst.filter (fun c => c.1 / 65536 != b))
    ((src.filter (fun c => c.1 / 65536 == a)).map (fun c => (65536 * b + c.1 % 65536, c.2)))

/-- R378: an interval meets a virtual granule at a physical one. A page keeps for the whole interval the place in the snapshot
that it had at the interval's start, wherever it moves; one that was not there at the start gets a place of its own, with its
bytes as the first access meets them. `x`: its virtual, physical and intermediate granule. -/
def Kernel.meetPage (k : Kernel) (s : State) (x : Nat × Nat × Nat) : Kernel :=
  match mget k.snapPages x.1, k.snap with
  | some (h, _), _ => { k with snapPages := mset k.snapPages x.1 (h, x.2) }
  | none, none => k
  | none, some snap =>
    match startPage s k.cid snap x.1 with
    | some h => { k with snapPages := mset k.snapPages x.1 (h, x.2) }
    | none =>
      let h := x.2.1 + 2 ^ 41
      { k with snapPages := mset k.snapPages x.1 (h, x.2), snap := some (copyGranule s.mem x.2.1 snap h) }

/-- Where translated bytes stand in a launch's snapshot and queued updates: as they are in the open level. -/
def State.homes (s : State) (kid : Nat) (vas : List W64) (pas : List Nat) : List Nat × State :=
  match s.kernel kid with
  | none => (pas, s)
  | some k =>
    if k.snap.isNone then (pas, s)
    else
      let pages := ((vas.map (fun v => v.toNat / 65536)).zip
        (pas.map (fun p => (p / 65536, mgetD s.reach (p / 64) (p / 64) / 1024)))).eraseDups
      let k := pages.foldl (fun k x => k.meetPage s x) k
      ((vas.zip pas).map (fun x => match mget k.snapPages (x.1.toNat / 65536) with
          | some (h, _) => 65536 * h + x.2 % 65536
          | none => x.2),
        { s with kernels := mset s.kernels kid k })

/-- The physical and the intermediate address now of a place in a launch's snapshot and queued updates. -/
def Kernel.pageNow (k : Kernel) (a : Nat) : Nat × Nat :=
  match k.snapPages.find? (fun x => x.2.1 == a / 65536) with
  | some x => (65536 * x.2.2.1 + a % 65536, 65536 * x.2.2.2 + a % 65536)
  | none => (a, a)

/-! ## Requests that leave the K7 (R387, R392) -/

/-- R392: a request of `n` bytes that leaves the K7 needs tokens of its virtual function and takes its bytes; none while there
are none. -/
def State.sendBytes (s : State) (cid n : Nat) : Option State :=
  if n ≠ 0 ∧ (s.part (vfOf cid)).limited then none else some (s.spend cid n)

/-- R392: an access takes tokens for its bytes that lie in the memory of an endpoint. Plain writes leave as write-backs, which
are never held (log 97). -/
def State.sendOut (s : State) (cid : Nat) (acc : BitVec 2) (pas : List Nat) : Option State :=
  let n := pas.countP (fun a => decide (2 ^ 55 ≤ a))
  if acc = 1#2 then some (s.spend cid n) else s.sendBytes cid n

/-! ## Pages that move (R378) -/

/-- The entries of a map of bytes within a granule, by their places in it. -/
def granuleOf {α : Type} (m : AMap α) (pg : Nat) : AMap α :=
  (m.filter (fun e => e.1 / 65536 == pg)).map (fun e => (e.1 % 65536, e.2))

/-- Puts entries at their places in a granule; where the page is still there they join what has come since, else they replace
it. -/
def putGranule {α : Type} (m : AMap (List α)) (pg : Nat) (l : AMap (List α)) (still : Bool) : AMap (List α) :=
  let m := if still then m else m.filter (fun e => e.1 / 65536 != pg)
  l.foldl (fun m e => mset m (65536 * pg + e.1) (e.2 ++ mgetD m (65536 * pg + e.1) [])) m

/-- R378: the accesses of a page are known by the page: an invalidation of its translation takes its stamps and heads away
from its frame, and the first access through a new translation puts them where the page stands then (log 116). -/
def State.leavePage (s : State) (cid vg : Nat) : State :=
  let c := s.ctx cid
  match mget c.frames vg, mget c.away vg with
  | some pg, none =>
    let s := s.setCtx cid { c with away := mset c.away vg ⟨granuleOf s.stamps pg, granuleOf s.rels pg⟩ }
    { s with stamps := s.stamps.filter (fun e => e.1 / 65536 != pg), rels := s.rels.filter (fun e => e.1 / 65536 != pg) }
  | _, _ => s

/-- An access of the open level meets a virtual granule at a physical one. -/
def State.meetFrame (s : State) (cid vg pg : Nat) : State :=
  let c := s.ctx cid
  match mget c.away vg with
  | none => if mget c.frames vg = some pg then s else s.setCtx cid { c with frames := mset c.frames vg pg }
  | some x =>
    let still := mget c.frames vg == some pg
    { s.setCtx cid { c with frames := mset c.frames vg pg, away := mdel c.away vg } with
      stamps := putGranule s.stamps pg x.stamps still, rels := putGranule s.rels pg x.rels still }

/-- The pages of an access, in the open level. -/
def State.arrive (s : State) (cid : Nat) (vas : List W64) (pas : List Nat) : State :=
  if s.level cid ≠ 0 then s
  else (((vas.map (fun v => v.toNat / 65536)).zip (pas.map (· / 65536))).eraseDups).foldl
    (fun s x => s.meetFrame cid x.1 x.2) s

/-- R141: whether the slot is a load of class M, which is at a blocking point while it waits for a remote page. -/
def Env.isLoad (e : Env) : Bool :=
  let o := (e.cur.word.extractLsb' 0 12).toNat
  o == 0x700 || o == 0x702 || o == 0x705 || o == 0x708 || (decide (0x900 ≤ o) && decide (o < 0x9A0)) ||
    (decide (0x9F0 ≤ o) && decide (o < 0x9F8))

/-- How a slot waits for tokens of its function's limiter (R341, R392). -/
def Env.farWait (e : Env) : Exc := if e.isLoad then .block .tokens else .stall

/-- How an access of the current thread is translated (R367, R370): traps, or the physical addresses. A request that leaves
the K7 is held while its function has no tokens. -/
def gXlate (e : Env) (via : XlVia) (acc : BitVec 2) (vas : List W64) : SlotM (List Nat) := fun s =>
  match xlateBytes s via e.g.cid acc vas with
  | .error (.limited, _) => .error e.farWait
  | .error (f, va) => .error (xlExc f va acc)
  | .ok (pas, s') => match s'.sendOut e.g.cid acc pas with
    | some s'' => .ok (pas, s''.arrive e.g.cid vas pas)
    | none => .error e.farWait

/-- Where translated bytes stand for the current thread's launch. -/
def gHome (e : Env) (vas : List W64) (pas : List Nat) : SlotM (List Nat) := fun s => .ok (s.homes e.g.kid vas pas)

/-- The race check of a global access (R268-R269): only in the open level. `vas` and `pas` go byte by byte. -/
def gTouchSt (e : Env) (vas : List W64) (pas : List Nat) (new : HbState → Stamp) : SlotM Unit := do
  if e.s.level e.g.cid ≠ 0 then return ()
  else
    let th ← getTh e
    let new := new th.hb
    match (← get).stampBad pas, findRace (← get).stamps th.hb new pas with
    | some a, _ => raise .dataIntegrity (vas.getD (pas.idxOf a) 0#64) 0#32
    | none, some (a, o) => raise .race (vas.getD (pas.idxOf a) 0#64) (raceInfo o new)
    | none, none => modify (fun s => stampGlobal s e.g.cid new pas)

/-- The race check of a plain or atomic access. -/
def gTouch (e : Env) (vas : List W64) (pas : List Nat) (wr : Bool) (atomic : Option (BitVec 3)) : SlotM Unit :=
  gTouchSt e vas pas (fun h => h.stamp wr atomic false e.place)

/-- R313: an atomic read that names an address in a notify page raises `permission`; writes there end in the translation. -/
def notifyCheck (e : Env) (atomic : Option (BitVec 3)) (vas : List W64) (pas : List Nat) : SlotM Unit :=
  match atomic with
  | none => return ()
  | some _ => match pas.find? (notifyPa e.s) with
    | some a => raise .permission (vas.getD (pas.idxOf a) 0#64) (xlInfo false 0#2 0#2 4)
    | none => return ()

/-- Global bytes as the current thread reads them; a failing unit traps `data-integrity`. -/
def gRead (e : Env) (via : XlVia) (acc : BitVec 2) (vas : List W64) (acq : Option (BitVec 3))
    (atomic : Option (BitVec 3)) : SlotM (List Byte) := do
  let pas ← gXlate e via acc vas
  notifyCheck e atomic vas pas
  gTouch e vas pas false atomic
  let s ← get
  match pas.find? (s.unitBad (s.ctx e.g.cid).keyId) with
  | some a => raise .dataIntegrity (vas.getD (pas.idxOf a) 0#64) 0#32
  | none =>
    modTh e (fun th => { th with hb := th.hb.readHeads e.place acq (headsAt s.rels pas) })
    if e.s.level e.g.cid = 0 then return pas.map s.mem.get
    else
      let hs ← gHome e vas pas
      let g ← getG e
      let k := ((← get).kernel e.g.kid).getD e.k
      return hs.map (taskView k g s.mem).get

/-- Queues an item of the current thread for the merge (R162); without a free entry the access is held (R416). -/
def queueItem (e : Env) (va : W64) (item : MItem) : SlotM Unit := do
  let g ← getG e
  match pushRec (← get) e.g.cid g.pendW (.of (some e.cur.t) e.cur.inst e.th.wid va none item) with
  | some l => modG e (fun g => { g with pendW := l })
  | none => exc (.block .held)

/-- Writes bytes one by one under a key. -/
def pokeAll (s : State) (key : Nat) : List (Nat × Byte) → State
  | [] => s
  | (a, b) :: l => pokeAll (s.poke key a [b]) key l

/-- Writes translated bytes; a unit that is written whole is sound again (R428). -/
def pokeRuns (s : State) (key : Nat) (pas : List Nat) (bs : List Byte) : State :=
  match pas with
  | [] => s
  | a :: _ =>
    if pas = upFrom a bs.length ∧ pas.all (fun x => s.ownWindow x == s.ownWindow a) = true then s.poke key a bs
    else
      let s := pokeAll s key (pas.zip bs)
      { s with badUnits := s.badUnits.filter (fun u => !(upFrom (64 * u) 64).all pas.contains) }

/-- The writes that bytes come to whose single-copy atomic unit has `unit` bytes (R146, R147): each is queued by itself,
and a merge drops each by itself (R274). -/
def queueWrites (e : Env) (unit : Nat) : List (W64 × Nat × Byte) → Nat → SlotM Unit
  | _, 0 => return ()
  | [], _ => return ()
  | x :: l, n + 1 => do
    queueItem e x.1 (.write (((x :: l).take unit).map (·.2)))
    queueWrites e unit ((x :: l).drop unit) n

/-- A global write of the current thread, in single-copy atomic units of `unit` bytes. -/
def gWrite (e : Env) (unit : Nat) (vas : List W64) (bs : List Byte) (atomic : Option (BitVec 3)) (keep : Bool)
    (heads : List RelHead) : SlotM Unit := do
  let pas ← gXlate e (.core e.g.coreN) 1#2 vas
  gTouch e vas pas true atomic
  if e.s.level e.g.cid = 0 then
    let s ← get
    match s.writeBad (s.ctx e.g.cid).keyId pas with
    | some a => raise .dataIntegrity (vas.getD (pas.idxOf a) 0#64) 0#32
    | none => modify (fun s =>
      let s := pokeRuns s (s.ctx e.g.cid).keyId pas bs
      { s with rels := writeHeads s.rels pas keep heads })
  else
    let hs ← gHome e vas pas
    queueWrites e unit (vas.zip (hs.zip bs)) bs.length

/-- R140: the address of a global access. -/
def gAddr (a : W64) (b : W32) : W64 := a + sext64 b
/-- R140: the offset of a scratchpad access. -/
def sAddr (a b : W32) : Nat := (a + b).toNat

end Sys2Proof.Machine
end

