-- ==== Sys2Proof/Machine/Tensor.lean ====
section
/-! DEFINITION. Tensor records (R94, R95): their fields and checks, and where an element lies. -/
namespace Sys2Proof.Machine

/-- Records of 64 bytes. -/
abbrev Rec := BitVec 512

/-- A record from its bytes. -/
def recOf (bs : List Byte) : Rec := BitVec.ofNat 512 (leNat bs)
/-- The bytes of a record. -/
def recBytes (r : Rec) : List Byte := leBytes 64 r.toNat

def trBase (r : Rec) : Nat := dbits r 0 64
def trSbase (r : Rec) : Nat := dbits r 64 64
def trFmt (r : Rec) : Nat := dbits r 128 4
def trRank (r : Rec) : Nat := dbits r 132 3
def trSp (r : Rec) : Bool := r.getLsbD 135
/-- An extent as the record holds it. -/
def trDim (r : Rec) (n : Nat) : Nat := dbits r (160 + 32 * n) 32
/-- An extent as engines use it: above the rank it reads as 1. -/
def trExt (r : Rec) (n : Nat) : Nat := if n < trRank r then trDim r n else 1
/-- A stride, signed, of dimension 1 to 3. -/
def trStr (r : Rec) (n : Nat) : Int :=
  if n = 0 then 1 else (BitVec.ofNat 48 (dbits r (288 + 48 * (n - 1)) 48)).toInt

/-- The width of an element in bits (R95). -/
def fmtBits (fmt : Nat) : Nat :=
  match fmt with
  | 0 => 64 | 1 => 32 | 2 => 16 | 3 => 16 | 4 => 8 | 5 => 8 | 6 => 4 | 7 => 8 | 8 => 8 | 9 => 32 | 10 => 32 | _ => 1
/-- Formats with block scales. -/
def fmtBlock (fmt : Nat) : Bool := fmt == 4 || fmt == 5 || fmt == 6
/-- The alignment of an element in bytes. -/
def fmtAlign (fmt : Nat) : Nat := max 1 (fmtBits fmt / 8)

/-- R94: whether a record passes its checks. -/
def trOk (r : Rec) : Bool :=
  let fmt := trFmt r; let rank := trRank r
  dbits r 432 80 == 0 && dbits r 136 24 == 0 && decide (1 ≤ rank) && decide (rank ≤ 4) && decide (fmt ≤ 11) &&
  decide (trBase r < 2 ^ 56) &&
  (upFrom 0 4).all (fun n => if n < rank then decide (1 ≤ trDim r n) else trDim r n == 0) &&
  (upFrom 1 3).all (fun n => decide (n < rank) || trStr r n == 0) &&
  trBase r % fmtAlign fmt == 0 &&
  (fmtBlock fmt || trSbase r == 0) &&
  (!(fmt == 6 || fmt == 11) || (upFrom 1 3).all (fun n => trStr r n * fmtBits fmt % 8 == 0)) &&
  (!fmtBlock fmt || (trDim r 0 % 32 == 0 && trSbase r != 0 && trSbase r % 4 == 0))

/-- R94: the element offset of coordinates. -/
def trOffset (r : Rec) (i0 i1 i2 i3 : Nat) : Int :=
  (i0 : Int) + i1 * trStr r 1 + i2 * trStr r 2 + i3 * trStr r 3

/-- The byte address of the element at an offset (modulo 2^64, or 2^32 in the scratchpad), and its place in the byte. -/
def trAddr (r : Rec) (off : Int) : Nat × Nat :=
  let bit := off * fmtBits (trFmt r)
  let a := ((trBase r : Int) + bit / 8) % (if trSp r then 2 ^ 32 else 2 ^ 64)
  (a.toNat, (bit % 8).toNat)

/-- Whether coordinates lie inside the extents. -/
def trInside (r : Rec) (i0 i1 i2 i3 : Nat) : Bool :=
  decide (i0 < trExt r 0) && decide (i1 < trExt r 1) && decide (i2 < trExt r 2) && decide (i3 < trExt r 3)

/-- The number of a row (R177): i1 + dim1*(i2 + dim2*i3). -/
def trRow (r : Rec) (i1 i2 i3 : Nat) : Nat := i1 + trExt r 1 * (i2 + trExt r 2 * i3)

/-- The address of the scale word of block `q` of a row (R191): words lie densely, dim0/32 to a row. -/
def trScaleAddr (r : Rec) (q row : Nat) : Nat :=
  (trSbase r + 4 * (row * (trDim r 0 / 32) + q)) % (if trSp r then 2 ^ 32 else 2 ^ 64)

/-- The record in a slot; an empty slot holds zeros (R183). -/
def Group.slot (g : Group) (n : Nat) : Rec := mgetD g.slots n 0#512

/-- Installs a record in a slot. -/
def Group.setSlot (g : Group) (n : Nat) (r : Rec) : Group :=
  { g with slots := if r = 0#512 then mdel g.slots n else mset g.slots n r }

/-- The number in a unit field (R139): slot, tile, table, accumulator, engine context. -/
def unitIx (o : Operand) : Nat := (opBits o).toNat - 0x1C0

end Sys2Proof.Machine
end

