-- ==== Sys2Proof/Machine/GlobalMem.lean ====
section
/-! DEFINITION. The meanings of the global loads and stores (R143-R149). -/
namespace Sys2Proof.Machine

/-- `GAddr` (R140): the address, or the `translation` trap of an address above 2^56. -/
def gAddrOk (a : W64) (b : W32) (acc : BitVec 2) : SlotM W64 :=
  let x := gAddr a b
  if x.extractLsb' 56 8 = 0#8 then return x else raise .translation x (xlInfo false 0#2 acc 15)

/-- The `alignment` trap (R244). -/
def aligned (addr : W64) (n : Nat) : SlotM Unit :=
  if addr.toNat % n = 0 then return () else raise .alignment addr (BitVec.ofNat 32 n)

/-- The words that a load of a size code writes (R144). -/
def loadWords (sz : BitVec 3) (bs : List Byte) : List W32 :=
  let v := leNat bs
  match sz.toNat with
  | 1 => [(BitVec.ofNat 8 v).signExtend 32]
  | 3 => [(BitVec.ofNat 16 v).signExtend 32]
  | 5 => [BitVec.ofNat 32 v, BitVec.ofNat 32 (v / 2 ^ 32)]
  | 6 => (upFrom 0 4).map (fun i => BitVec.ofNat 32 (v / 2 ^ (32 * i)))
  | _ => [BitVec.ofNat 32 v]

/-- The bytes of words in order. -/
def wordBytes (ws : List W32) : List Byte := ws.flatMap (fun w => leBytes 4 w.toNat)

/-- The bytes that a store of a size code writes (R144). -/
def storeBytes (sz : BitVec 3) (x : Srcs) : List Byte :=
  match sz.toNat with
  | 6 => wordBytes x.run
  | _ => leBytes (szBytes sz) x.c.toNat

/-- The words of a run of bytes. -/
def bytesWords (bs : List Byte) (n : Nat) : List W32 :=
  let v := leNat bs
  (upFrom 0 n).map (fun i => BitVec.ofNat 32 (v / 2 ^ (32 * i)))

/-- The caches that serve a core's own accesses. -/
def Env.via (e : Env) : XlVia := .core e.g.coreN

/-- LD (R145). -/
def execLd (f : Fields) (s : State) : Host.Outcome State Fault Refusal :=
  runGuarded (.ld f) f (fun e _ x => do
    let n := szBytes (szOf f)
    let a ← gAddrOk x.a x.b32 0#2
    aligned a n
    let bs ← gRead e e.via 0#2 (vaRange a n) none none
    deliver e .ld f (loadWords (szOf f) bs)
    return 0#6) s

/-- ST (R145). -/
def execSt (f : Fields) (s : State) : Host.Outcome State Fault Refusal :=
  runGuarded (.st f) f (fun e _ x => do
    let n := szBytes (szOf f)
    let a ← gAddrOk x.a x.b32 1#2
    aligned a n
    gWrite e n (vaRange a n) (storeBytes (szOf f) x) none false []
    return 0#6) s

/-- LDV (R146). -/
def execLdv (f : Fields) (s : State) : Host.Outcome State Fault Refusal :=
  runGuarded (.ldv f) f (fun e _ x => do
    let n := f.mod.toNat + 1
    let a ← gAddrOk x.a x.b32 0#2
    aligned a 4
    let bs ← gRead e e.via 0#2 (vaRange a (4 * n)) none none
    deliver e .ld f (bytesWords bs n)
    return 0#6) s

/-- STV (R146). -/
def execStv (f : Fields) (s : State) : Host.Outcome State Fault Refusal :=
  runGuarded (.stv f) f (fun e _ x => do
    let a ← gAddrOk x.a x.b32 1#2
    aligned a 4
    gWrite e 4 (vaRange a (4 * (f.mod.toNat + 1))) (wordBytes x.run) none false []
    return 0#6) s

/-- LDNA (R147). -/
def execLdna (f : Fields) (s : State) : Host.Outcome State Fault Refusal :=
  runGuarded (.ldna f) f (fun e _ x => do
    let n := szBytes (szOf f)
    let a ← gAddrOk x.a x.b32 0#2
    let bs ← gRead e e.via 0#2 (vaRange a n) none none
    deliver e .ld f (loadWords (szOf f) bs)
    return 0#6) s

/-- STNA (R147). -/
def execStna (f : Fields) (s : State) : Host.Outcome State Fault Refusal :=
  runGuarded (.stna f) f (fun e _ x => do
    let n := szBytes (szOf f)
    let a ← gAddrOk x.a x.b32 1#2
    gWrite e 1 (vaRange a n) (storeBytes (szOf f) x) none false []
    return 0#6) s

/-- PF (R148): no architectural effect. -/
def execPf (f : Fields) (s : State) : Host.Outcome State Fault Refusal := runGuarded (.pf f) f (fun _ _ _ => return 0#6) s

/-- LDT (R149): an FP64 element goes to a pair, whose index must be even (R64). -/
def execLdt (f : Fields) (s : State) : Host.Outcome State Fault Refusal :=
  runInstr (.ldt f) f (fun e en => do
    let r := e.g.slot (unitIx f.a)
    let wide := trFmt r == 0
    if r ≠ 0#512 ∧ wide = true ∧ (match f.d with | .main i => i.getLsbD 0 | .opf i => i.getLsbD 0 | _ => false) = true then
      raise .illegalEncoding 0#64 0#32
    else guardedSlot e en f (fun x => do
      if r = 0#512 then illegalOperand
      else
        onThread e (reserveD f.d (if wide then 2 else 1))
        let i0 := (lo32 x.b).toNat
        let i1 := (hi32 x.b).toNat
        let i2 := (lo32 x.c).toNat
        let i3 := (hi32 x.c).toNat
        if !trInside r i0 i1 i2 i3 then illegalOperand
        else do
          let (a, bit) := trAddr r (trOffset r i0 i1 i2 i3)
          let n := max 1 (fmtBits (trFmt r) / 8)
          let bs ← if trSp r then spRead e a n none none
            else gRead e (.tensor (e.g.coreN / 64)) 0#2 (vaRange (BitVec.ofNat 64 a) n) none none
          let v := natBits (leNat bs) bit (fmtBits (trFmt r))
          deliver e (if trSp r then .sp else .ld) f (wordsOf wide (BitVec.ofNat 64 v))
          return 0#6)) s

end Sys2Proof.Machine
end

