-- ==== Sys2Proof/Machine/Atomics.lean ====
section
/-! DEFINITION. The meanings of the atomics and wide cells (R154-R162). -/
namespace Sys2Proof.Machine

/-- R414: the trap of an instruction whose result would depend on timing. -/
def nondet {α : Type} (e : Env) : SlotM α := raise .nondeterministic 0#64 (BitVec.ofNat 32 (opAt e.cur.word))

/-- R8: the acquire scope of an ordering. -/
def acqOf (ord : BitVec 2) (sc : BitVec 3) : Option (BitVec 3) := if ord == 1#2 || ord == 3#2 then some sc else none

/-- A read-modify-write of the current thread at one place: from the old value to the new one, or none where nothing is
written (R156, R157). -/
structure Rmw where
  ord : BitVec 2
  sc  : BitVec 3
  n   : Nat
  op  : Nat → Option Nat

/-- After a release the thread's later events are new. -/
def tickRelease (e : Env) (ord : BitVec 2) : SlotM Unit :=
  if ord == 2#2 || ord == 3#2 then modTh e (fun th => { th with hb := th.hb.tick }) else return ()

/-- On global memory, in the open level. -/
def rmwGlobal (e : Env) (a : W64) (r : Rmw) : SlotM Nat := do
  let vas := vaRange a r.n
  let pas ← gXlate e e.via 3#2 vas
  let s ← get
  match pas.find? (s.unitBad (s.ctx e.g.cid).keyId) with
  | some p => raise .dataIntegrity (vas.getD (pas.idxOf p) 0#64) 0#32
  | none =>
    let old := leNat (pas.map s.mem.get)
    let new := r.op old
    gTouch e vas pas new.isSome (some r.sc)
    modTh e (fun th => { th with hb := th.hb.readHeads e.place (acqOf r.ord r.sc) (headsAt s.rels pas) })
    match new with
    | none => return old
    | some v =>
      let th ← getTh e
      modify (fun s =>
        let s := pokeRuns s (s.ctx e.g.cid).keyId pas (leBytes r.n v)
        { s with rels := writeHeads s.rels pas true (headsOf th.hb r.ord r.sc e.place) })
      tickRelease e r.ord
      return old

/-- In the scratchpad. -/
def rmwSp (e : Env) (off : Nat) (r : Rmw) : SlotM Nat := do
  spCheck e off r.n
  let g ← getG e
  let keys := upFrom off r.n
  let old := leNat (g.spGet off r.n)
  let new := r.op old
  spTouch e keys new.isSome (some r.sc)
  modTh e (fun th => { th with hb := th.hb.readHeads e.place (acqOf r.ord r.sc) (headsAt g.rels keys) })
  match new with
  | none => return old
  | some v =>
    let th ← getTh e
    modG e (fun g => { g.spPut off (leBytes r.n v) with
      rels := writeHeads g.rels keys true (headsOf th.hb r.ord r.sc e.place) })
    tickRelease e r.ord
    return old

/-- R156: an atomic by its space: the scratchpad at every level, global memory in the open level only: `nondeterministic` comes
before the checks of the address (log 85). -/
def rmwAt (e : Env) (sp : Bool) (x : Srcs) (r : Rmw) : SlotM Nat := do
  if sp then
    let a := sAddr x.a32 x.b32
    aligned (BitVec.ofNat 64 a) r.n
    rmwSp e a r
  else if e.s.level e.g.cid ≠ 0 then nondet e
  else
    let a ← gAddrOk x.a x.b32 3#2
    aligned a r.n
    rmwGlobal e a r

/-- Whether an atomic names the scratchpad (R154). -/
def atomSp (f : Fields) : Bool := f.mod.getLsbD 3
/-- The operation of an atomic (R155). -/
def atomOp (f : Fields) : Nat := f.mod.toNat % 8

/-- The kind of an atomic's result, by its space (R56). -/
def atomKind (f : Fields) : DrainKind := if atomSp f then .lsp else .ld

/-- ATOM_I32 (R156). -/
def execAtomI32 (ord : BitVec 2) (sc : BitVec 3) (f : Fields) (s : State) : Host.Outcome State Fault Refusal :=
  runGuarded (.atomI32 ord sc f) f (fun e _ x => do
    let old ← rmwAt e (atomSp f) x ⟨ord, sc, 4, fun o => some (redOpI (atomOp f) o x.c32.toNat 32)⟩
    deliver e (atomKind f) f [BitVec.ofNat 32 old]
    return 0#6) s

/-- ATOM_I64 (R156). -/
def execAtomI64 (ord : BitVec 2) (sc : BitVec 3) (f : Fields) (s : State) : Host.Outcome State Fault Refusal :=
  runGuarded (.atomI64 ord sc f) f (fun e _ x => do
    let old ← rmwAt e (atomSp f) x ⟨ord, sc, 8, fun o => some (redOpI (atomOp f) o x.c.toNat 64)⟩
    deliver e (atomKind f) f (wordsOf true (BitVec.ofNat 64 old))
    return 0#6) s

/-- ATOM_F32 (R156): the thread receives the flags of its own operation. -/
def execAtomF32 (ord : BitVec 2) (sc : BitVec 3) (f : Fields) (s : State) : Host.Outcome State Fault Refusal :=
  runGuarded (.atomF32 ord sc f) f (fun e _ x => do
    let old ← rmwAt e (atomSp f) x ⟨ord, sc, 4, fun o => some (redOpF (atomOp f) o x.c32.toNat).bits⟩
    deliver e (atomKind f) f [BitVec.ofNat 32 old]
    return (redOpF (atomOp f) old x.c32.toNat).flags) s

/-- The comparison of ATOMCAS (R157). -/
def casOp (cmp new : Nat) (o : Nat) : Option Nat := if o = cmp then some new else none

/-- ATOMCAS_B32 (R157). -/
def execAtomcasB32 (ord : BitVec 2) (sc : BitVec 3) (f : Fields) (s : State) : Host.Outcome State Fault Refusal :=
  runGuarded (.atomcasB32 ord sc f) f (fun e _ x => do
    let cmp := (x.run.getD 0 0#32).toNat
    let new := (x.run.getD 1 0#32).toNat
    let old ← rmwAt e (atomSp f) x ⟨ord, sc, 4, casOp cmp new⟩
    deliver e (atomKind f) f [BitVec.ofNat 32 old]
    return 0#6) s

/-- ATOMCAS_B64 (R157). -/
def execAtomcasB64 (ord : BitVec 2) (sc : BitVec 3) (f : Fields) (s : State) : Host.Outcome State Fault Refusal :=
  runGuarded (.atomcasB64 ord sc f) f (fun e _ x => do
    let w (i : Nat) : Nat := (x.run.getD i 0#32).toNat
    let old ← rmwAt e (atomSp f) x ⟨ord, sc, 8, casOp (w 0 + 2 ^ 32 * w 1) (w 2 + 2 ^ 32 * w 3)⟩
    deliver e (atomKind f) f (wordsOf true (BitVec.ofNat 64 old))
    return 0#6) s

/-- A global reduction at levels 1 and 2 (R162): translated now, queued for the merge. -/
def queueRed (e : Env) (x : Srcs) (al : Nat) (item : Nat → MItem) : SlotM Unit := do
  let a ← gAddrOk x.a x.b32 3#2
  aligned a al
  let pas ← gXlate e e.via 3#2 (vaRange a al)
  let hs ← gHome e (vaRange a al) pas
  queueItem e a (item (hs.getD 0 0))

/-- RED_I32 (R158). -/
def execRedI32 (ord : BitVec 2) (sc : BitVec 3) (f : Fields) (s : State) : Host.Outcome State Fault Refusal :=
  runGuarded (.redI32 ord sc f) f (fun e _ x => do
    if !atomSp f && e.s.level e.g.cid != 0 then
      queueRed e x 4 (fun pa => .redI (BitVec.ofNat 4 (atomOp f)) pa x.c32)
    else
      let _ ← rmwAt e (atomSp f) x ⟨ord, sc, 4, fun o => some (redOpI (atomOp f) o x.c32.toNat 32)⟩
    return 0#6) s

/-- RED_F32 (R158): sets no flag; `add` on global memory is not deterministic. -/
def execRedF32 (ord : BitVec 2) (sc : BitVec 3) (f : Fields) (s : State) : Host.Outcome State Fault Refusal :=
  runGuarded (.redF32 ord sc f) f (fun e _ x => do
    if !atomSp f && e.s.level e.g.cid != 0 && atomOp f != 0 then
      queueRed e x 4 (fun pa => .redF (BitVec.ofNat 4 (atomOp f)) pa x.c32)
    else
      let _ ← rmwAt e (atomSp f) x ⟨ord, sc, 4, fun o => some (redOpF (atomOp f) o x.c32.toNat).bits⟩
    return 0#6) s

/-! ## Wide cells (R160) -/

/-- Whether a wide-cell instruction names the scratchpad. -/
def cellSp (f : Fields) : Bool := f.mod.getLsbD 0

/-- The window check (R48). -/
def windowOk (w : W32) : SlotM Unit :=
  if -1152 ≤ w.toInt ∧ w.toInt ≤ 1024 then return () else illegalOperand

/-- WADD on a cell, by space and level (R161, R162): atomic, relaxed; two WADDs never race. The window is checked before the
address (log 86). -/
def waddAt (e : Env) (f : Fields) (sc : BitVec 3) (dbl : Bool) (x : Srcs) : SlotM Unit := do
  let w := (lo32 x.d)
  windowOk w
  let st (h : HbState) : Stamp := { h.stamp true (some sc) false e.place with cell := true }
  if cellSp f then
    let a := sAddr x.a32 x.b32
    aligned (BitVec.ofNat 64 a) 16
    spCheck e a 16
    spTouchSt e e.cur.gid (upFrom a 16) st
    let th ← getTh e
    modG e (fun g => { g.spPut a (leBytes 16 (waddCell (leNat (g.spGet a 16)) w.toInt dbl x.c)) with
      rels := writeHeads g.rels (upFrom a 16) true (headsOf th.hb 0#2 sc e.place) })
  else if e.s.level e.g.cid ≠ 0 then queueRed e x 16 (fun pa => .wadd pa w.toInt dbl x.c)
  else
    let a ← gAddrOk x.a x.b32 3#2
    aligned a 16
    let vas := vaRange a 16
    let pas ← gXlate e e.via 3#2 vas
    gTouchSt e vas pas st
    let s ← get
    match pas.find? (s.unitBad (s.ctx e.g.cid).keyId) with
    | some p => raise .dataIntegrity (vas.getD (pas.idxOf p) 0#64) 0#32
    | none =>
      let th ← getTh e
      modify (fun s =>
        let v := waddCell (leNat (pas.map s.mem.get)) w.toInt dbl x.c
        let s := pokeRuns s (s.ctx e.g.cid).keyId pas (leBytes 16 v)
        { s with rels := writeHeads s.rels pas true (headsOf th.hb 0#2 sc e.place) })

/-- WADD_F32 (R160). -/
def execWaddF32 (sc : BitVec 3) (f : Fields) (s : State) : Host.Outcome State Fault Refusal :=
  runGuarded (.waddF32 sc f) f (fun e _ x => do waddAt e f sc false x; return 0#6) s

/-- WADD_F64 (R160). -/
def execWaddF64 (sc : BitVec 3) (f : Fields) (s : State) : Host.Outcome State Fault Refusal :=
  runGuarded (.waddF64 sc f) f (fun e _ x => do waddAt e f sc true x; return 0#6) s

/-- The value of a cell under a window (R49). -/
def wrdVal (cell : Nat) (w : Int) : FRes :=
  if cell.testBit 121 then ⟨FFmt.nanBits .f64, 0#6⟩
  else if cell.testBit 122 && cell.testBit 123 then ⟨FFmt.nanBits .f64, flNv⟩
  else if cell.testBit 122 then ⟨FFmt.withSign .f64 false ((FFmt.infBits .f64).getD 0), 0#6⟩
  else if cell.testBit 123 then ⟨FFmt.withSign .f64 true ((FFmt.infBits .f64).getD 0), 0#6⟩
  else if cell.testBit 120 then ⟨FFmt.nanBits .f64, flNv⟩
  else
    let n : Nat := cell % 2 ^ 120
    let v : Int := if n.testBit 119 then (n : Int) - 2 ^ 120 else n
    roundV .f64 .rn false (.fin (decide (v < 0)) v.natAbs w)

/-- WRD_F64 (R160, R49). -/
def execWrdF64 (sc : BitVec 3) (f : Fields) (s : State) : Host.Outcome State Fault Refusal :=
  runGuarded (.wrdF64 sc f) f (fun e _ x => do
    windowOk x.c32
    let bs ← if cellSp f then do
        let a := sAddr x.a32 x.b32
        aligned (BitVec.ofNat 64 a) 16
        spRead e a 16 none (some sc)
      else do
        let a ← gAddrOk x.a x.b32 0#2
        aligned a 16
        gRead e e.via 0#2 (vaRange a 16) none (some sc)
    let r := wrdVal (leNat bs) x.c32.toInt
    deliver e (if cellSp f then .sp else .ld) f (wordsOf true (BitVec.ofNat 64 r.bits))
    return r.flags) s

/-- The cell that WSET writes (R160). -/
def wsetCell (v : W64) : Nat := (v.signExtend 120).toNat

/-- WSET (R160). -/
def execWset (sc : BitVec 3) (f : Fields) (s : State) : Host.Outcome State Fault Refusal :=
  runGuarded (.wset sc f) f (fun e _ x => do
    let th ← getTh e
    let bs := leBytes 16 (wsetCell x.c)
    let heads := headsOf th.hb 0#2 sc e.place
    if cellSp f then
      let a := sAddr x.a32 x.b32
      aligned (BitVec.ofNat 64 a) 16
      spWrite e a bs (some sc) false heads
    else
      let a ← gAddrOk x.a x.b32 1#2
      aligned a 16
      gWrite e 16 (vaRange a 16) bs (some sc) false heads
    return 0#6) s

end Sys2Proof.Machine
end

