-- ==== Sys2Proof/Machine/Fetch.lean ====
section
/-! DEFINITION. Fetching and decoding: clause headers and words (R53-R55), literals (R62), the decode-table banks and code
regions (R399-R403), the steps of REP (R71), program counters (R58). -/
namespace Sys2Proof.Machine

/-! ## Program counters (R58) -/

/-- The clause address of a program counter. -/
def pcHead (pc : W64) : W64 := pc &&& 0x00FFFFFFFFFFFFF8#64
/-- The slot of a program counter. -/
def pcSlot (pc : W64) : Nat := (pc.extractLsb' 56 4).toNat
/-- The program counter of a slot of a clause; past the last word, slot 0 of the next clause. -/
def pcOf (head : W64) (cnt slot : Nat) : W64 :=
  if cnt < slot then pcHead (head + BitVec.ofNat 64 (8 * (cnt + 2))) else head ||| (BitVec.ofNat 64 slot <<< 56)

/-! ## Clause headers (R53) -/

def hdCnt (h : W64) : Nat := (h.extractLsb' 0 4).toNat
def hdCls (h : W64) : Nat := (h.extractLsb' 4 3).toNat
def hdCv (h : W64) : Bool := h.getLsbD 7
def hdHz (h : W64) : BitVec 8 := h.extractLsb' 8 8
def hdJid (h : W64) : BitVec 8 := h.extractLsb' 24 8

/-- The header checks of R54. -/
def hdOk (h : W64) : Bool :=
  h.extractLsb' 32 32 == 0#32 && h.extractLsb' 16 8 == 0#8 && (hdCv h || hdJid h == 0#8) && decide (hdCls h < 6)

/-! ## Decode-table banks (R399, R403) -/

/-- The entry of an opcode that a bank does not list: the K7 decode, whose expansion index is private (log 17). -/
def k7Entry (op : Nat) : W32 :=
  if 0xF00 ≤ op then 0#32
  else match decodeWord (BitVec.ofNat 64 op) with
    | .emulationVector _ _ => 0#32
    | _ => 0x40000000#32 ||| ((Config.freeBits (4096 + op) 0).setWidth 20).setWidth 32

/-- An entry of a bank (R399). -/
def Bank.entry (b : Bank) (op : Nat) : W32 := mgetD b.entries op (k7Entry op)

/-- The opcodes of a feature of R97. -/
def featOps (i : Nat) : List Nat :=
  match i with
  | 0 => [0xC11]
  | 1 => [0xC11]
  | 2 => upFrom 0xD00 6
  | 3 => upFrom 0xD10 7
  | 4 => [0xB09, 0xB10, 0xB11]
  | 5 => upFrom 0x9E0 32
  | _ => []

/-- The fields of an entry. -/
def entryKind (e : W32) : Nat := (e.extractLsb' 30 2).toNat
def entryKsl (e : W32) : Nat := (e.extractLsb' 27 3).toNat
def entryXidx (e : W32) : Nat := (e.extractLsb' 0 20).toNat

/-- R400: the features of R97 whose opcodes all have kind 1. -/
def Bank.feat (b : Bank) : BitVec 6 :=
  (upFrom 0 6).foldl (fun m i => if (featOps i).all (fun op => entryKind (b.entry op) == 1) then m ||| (1#6 <<< i) else m) 0#6

/-- The decode of a word through a bank (R73, R399): an opcode that the K7 does not define vectors whatever its entry. -/
def decodeVia (b : Bank) (w : W64) : Instr :=
  let op := opAt w
  if 0xF00 ≤ op then decodeWord w
  else
    match mget b.entries op with
    | none => decodeWord w
    | some e =>
      match entryKind e with
      | 0 => .emulationVector 0#2 w
      | 1 => decodeWord w
      | _ => .emulationVector 1#2 w

/-- R403: the erratum whose alternative expansion a word issues through, in a clause whose code region keeps the slots of
`mask`. -/
def altVia (b : Bank) (mask : BitVec 8) (w : W64) : Option W32 :=
  match mget b.entries (opAt w) with
  | none => none
  | some e =>
    if entryKind e = 1 ∧ entryKsl e ≠ 0 ∧ mask.getLsbD (entryKsl e) = true then some (b.errs.getD (entryKsl e - 1) 0#32) else none

/-- The lowest die of a mask of quadrants. -/
def firstDie (m : BitVec 16) : Nat := ((upFrom 0 4).find? (fun d => m.extractLsb' (4 * d) 4 != 0#4)).getD 0

/-- The bank of a context on a die: banks of one number hold the same on every die of its partition (R302). -/
def State.bankOn (s : State) (die cid : Nat) : Bank := mgetD s.banks (4 * die + (s.ctx cid).bank.toNat) Bank.k7

/-- The bank of a context as the loader sees it: on the lowest die of its partition. -/
def State.bank (s : State) (cid : Nat) : Bank := s.bankOn (firstDie (s.part (vfOf cid)).qmask) cid

/-- The errata that the code region of a clause keeps (R402). -/
def codeMask (c : Context) (head : W64) : BitVec 8 :=
  match c.code.find? (fun r => decide (r.base ≤ head.toNat) && decide (head.toNat < r.base + r.size)) with
  | some r => r.mask
  | none => 0#8

/-! ## The words of a clause (R54, R55) -/

/-- A control transfer (R55), by opcode. -/
def isTransferOp (op : Nat) : Bool := (decide (0x10 ≤ op) && decide (op ≤ 0x15)) || op == 0x30 || op == 0x31

/-- Whether a class allows a defined opcode (R55). -/
def classAllows (cls op : Nat) : Bool :=
  let g := op / 256
  let vec := (decide (1 ≤ g) && decide (g ≤ 6)) || op == 0 || op == 1 || op == 0x20 || op == 0x21 || op == 0x22
  match cls with
  | 0 => vec
  | 1 => vec || (decide (7 ≤ g) && decide (g ≤ 10)) || g == 13
  | 2 => vec || g == 11 || g == 12
  | 3 => vec || isTransferOp op
  | 4 => vec || g == 14
  | _ => true

/-- The literal words of a word that vectors (R245): one for each of a, b and c equal to 0x182. -/
def vectorLits (w : W64) : Nat :=
  let f := fieldsAt w
  bitN (isLit f.a) + bitN (isLit f.b) + bitN (isLit f.c)

/-- How many literal words follow a word. -/
def wordLits (d : Instr) (w : W64) : Nat :=
  match d with
  | .emulationVector _ _ => vectorLits w
  | i => litCount i

/-- Whether a word vectors to the emulation handler. -/
def vectors (d : Instr) : Bool :=
  match d with
  | .emulationVector _ _ => true
  | _ => false

/-- R54 on the words of a clause: which of them are instructions, and how many control transfers there are; none where the
clause is illegal. `lits` literal words are still owed, `rep` says a REP waits for its target, `ct` that a transfer has
been seen. A control transfer that the bank disables vectors and then counts as no transfer, of which the spec does not speak
(log 110). -/
def scanWords (dec : W64 → Instr) (cls : Nat) : List W64 → Nat → Bool → Bool → Option (List Bool × Bool)
  | [], lits, rep, ct => if lits ≠ 0 ∨ rep then none else some ([], ct)
  | w :: ws, 0, _, ct =>
    if ct then none
    else
      let d := dec w
      let op := opAt w
      if vectors d then (scanWords dec cls ws (wordLits d w) false false).map (fun r => (true :: r.1, r.2))
      else if !classAllows cls op then none
      else (scanWords dec cls ws (wordLits d w) (op == 1) (isTransferOp op)).map (fun r => (true :: r.1, r.2))
  | w :: ws, lits + 1, rep, ct =>
    if w.extractLsb' 32 32 ≠ 0#32 then none
    else (scanWords dec cls ws lits rep ct).map (fun r => (false :: r.1, r.2))

/-- The slots of a clause that are instructions; none where R54 makes it illegal. -/
def clauseSlots (dec : W64 → Instr) (h : W64) (ws : List W64) : Option (List Bool) :=
  if !hdOk h then none
  else match scanWords dec (hdCls h) ws 0 false false with
    | some (l, ct) => if hdCls h = 3 ∧ !ct then none else some l
    | none => none

/-! ## Reading code -/

/-- Bytes fetched by a core for a context: physical memory as it stands (R164 allows any later state). Bytes at an endpoint wait
for tokens of the limiter (R392). -/
def fetchBytes (s : State) (core cid : Nat) (va : W64) (n : Nat) : Except Exc (List Byte × State) :=
  match xlateBytes s (.core core) cid 2#2 (vaRange va n) with
  | .error (f, a) => .error (xlExc f a 2#2)
  | .ok (pas, s') =>
    match pas.find? (s'.unitBad (s'.ctx cid).keyId), s'.sendOut cid 2#2 pas with
    | some a, _ => .error (.trap .dataIntegrity ((vaRange va n).getD (pas.idxOf a) 0#64) 0#32)
    | none, none => .error .stall
    | none, some s'' => .ok (pas.map s''.mem.get, s'')

/-- A 64-bit word fetched by a core. -/
def fetchWord (s : State) (core cid : Nat) (va : W64) : Except Exc (W64 × State) :=
  match fetchBytes s core cid va 8 with
  | .error x => .error x
  | .ok (bs, s') => .ok (BitVec.ofNat 64 (leNat bs), s')

/-- Consecutive words fetched by a core. -/
def fetchWords (s : State) (core cid : Nat) (va : W64) : Nat → Except Exc (List W64 × State)
  | 0 => .ok ([], s)
  | n + 1 =>
    match fetchWord s core cid va with
    | .error x => .error x
    | .ok (w, s1) =>
      match fetchWords s1 core cid (va + 8#64) n with
      | .error x => .error x
      | .ok (ws, s2) => .ok (w :: ws, s2)

/-! ## REP (R71) -/

/-- One field of a stepped word. -/
def stepField (w : W64) (pos k : Nat) (st : BitVec 4) : W64 :=
  let v := (w.extractLsb' pos 9).toNat
  let v' := (((v : Int) + k * st.toInt) % 512).toNat
  (w &&& ~~~((0x1FF#64) <<< pos)) ||| (BitVec.ofNat 64 v' <<< pos)

/-- The word that repetition k issues. -/
def stepWord (w : W64) (r : RepSt) : W64 :=
  stepField (stepField (stepField (stepField w 16 r.k r.sd) 25 r.k r.sa) 34 r.k r.sb) 43 r.k r.sc

/-- Whether a step is allowed on a field (R71): an operand at main level, even for a pair, indices 0 to 127 throughout. -/
def stepOk (operand wide : Bool) (o : Operand) (rc : Nat) (st : BitVec 4) : Bool :=
  st == 0#4 ||
    (match o with
     | .main i =>
       let last : Int := (i.toNat : Int) + rc * st.toInt
       operand && !(wide && st.getLsbD 0) && decide (0 ≤ last) && decide (last ≤ 127)
     | _ => false)

/-- Whether a field holds a 64-bit operand, or pairs of them (log 108). -/
def FK.wide : FK → Bool
  | .src t => t.wide
  | .dst w => w
  | .quad => true
  | .quadDst => true
  | _ => false

/-- Whether d of a target holds 64 bits: as its entry says, or by what a slot record or an accumulator type names. -/
def wideD (g : Group) (d : Instr) (en : Enc) : Bool :=
  match d with
  | .ldt f => g.slot (unitIx f.a) != 0#512 && trFmt (g.slot (unitIx f.a)) == 0
  | .mmaa f => f.mod == 0xC#4
  | _ => en.d.wide

/-- Whether a field holds an operand (R61): a code, an immediate, a predicate or an unused field is none, and `unit` names a
special. -/
def FK.isOperand : FK → Bool
  | .src _ => true | .dst _ => true | .run _ => true | .runDst _ => true | .quad => true | .quadDst => true
  | .casPair => true | .mainS => true | .mainD => true
  | _ => false

/-- R71: whether a REP word may precede a target. The fields of a word that vectors are raw: each may be an operand. A word
of group 0x0 that vectors is no group-0x0 instruction (log 80). -/
def repTargetOk (g : Group) (r : RepFields) (target : W64) (d : Instr) : Bool :=
  let f := fieldsAt target
  let vec := vectors d
  let en : Enc := (encOf d).getD ⟨.no, .no, .no, .no, true, false⟩
  repFieldsOk r && (vec || opAt target / 256 != 0 || opAt target == 0) &&
    stepOk (vec || en.d.isOperand) (wideD g d en) f.d r.rc.toNat r.sd && stepOk (vec || en.a.isOperand) en.a.wide f.a r.rc.toNat r.sa &&
    stepOk (vec || en.b.isOperand) en.b.wide f.b r.rc.toNat r.sb && stepOk (vec || en.c.isOperand) en.c.wide f.c r.rc.toNat r.sc

/-! ## A slot -/

/-- What a thread finds at its program counter: the clause's word count, the word as stepped, its literals, its decode and
the erratum that it issues under, and the program counter and repetition after it. -/
structure SlotAt where
  cnt     : Nat
  word    : W64
  lits    : List W32
  dec     : Instr
  alt     : Option W32
  next    : W64
  nextRep : Option RepSt

/-- Fetches the slot at a program counter: the header's count, the word, its literal words. -/
def slotAt (s : State) (core cid : Nat) (pc : W64) (rep : Option RepSt) : Except Exc (SlotAt × State) :=
  let head := pcHead pc
  let slot := pcSlot pc
  match fetchWord s core cid head with
  | .error x => .error x
  | .ok (h, s1) =>
    match fetchWord s1 core cid (head + BitVec.ofNat 64 (8 + 8 * slot)) with
    | .error x => .error x
    | .ok (w0, s2) =>
      let w := match rep with | some r => stepWord w0 r | none => w0
      let b := s2.bankOn (core / 64) cid
      let d := decodeVia b w
      let n := wordLits d w
      match fetchWords s2 core cid (head + BitVec.ofNat 64 (16 + 8 * slot)) n with
      | .error x => .error x
      | .ok (ls, s3) =>
        let after := pcOf head (hdCnt h) (slot + 1 + n)
        let nx : W64 × Option RepSt := match rep with
          | some r => if r.k < r.rc then (pc, some { r with k := r.k + 1 }) else (after, none)
          | none => (after, none)
        .ok (⟨hdCnt h, w, ls.map lo32, d, altVia b (codeMask (s2.ctx cid) head) w, nx.1, nx.2⟩, s3)

end Sys2Proof.Machine
end

