-- ==== Sys2Proof/Machine/EngAccess.lean ====
section
/-! DEFINITION. Memory as engine operations reach it (R141, R162, R176, R270): reads and writes with their own ordering
memory, and what stops them; the numbers of engine contexts (R72). -/
namespace Sys2Proof.Machine

/-! ## Engine contexts (R72) -/

def Group.engCtx (g : Group) (c : Nat) : EngCtx := mgetD g.eng c EngCtx.zero

/-- Whether an operation is a copy, gather or collective (R163). -/
def EngKind.isCopyLike (k : EngKind) : Bool := match k with | .task .. => false | _ => true

/-- Whether an operation is a tile task that writes a completion word: an engine signal, kind CW (R207, R257). -/
def EngKind.signals (k : EngKind) : Bool := match k with | .task r _ _ _ _ => r.getLsbD 21 | _ => false

/-- `Issue` (R72). -/
def Group.issue (g : Group) (c : Nat) : Group × Nat :=
  let x := g.engCtx c
  ({ g with eng := mset g.eng c { x with issued := x.issued + 1 } }, x.issued + 1)

/-- Advances a timeline over the numbers completed beyond it; `n` bounds the steps. -/
def advanceTl : Nat → Nat → List Nat → Nat × List Nat
  | 0, tl, l => (tl, l)
  | n + 1, tl, l => if l.contains (tl + 1) then advanceTl n (tl + 1) (l.filter (· != tl + 1)) else (tl, l)

/-- R72, R359: number `n` of a context completes. -/
def Group.complete (g : Group) (c n : Nat) (err : Bool) (d : List DoneOp) : Group :=
  let x := g.engCtx c
  let l := if x.beyond.contains n then x.beyond else n :: x.beyond
  let r := advanceTl (l.length + 1) x.tl l
  { g with eng := mset g.eng c { x with tl := r.1, beyond := r.2, err := x.err || err,
                                        done := mset x.done n d } }

/-- Whether a number has completed. -/
def EngCtx.isDone (x : EngCtx) (n : Nat) : Bool := decide (n ≤ x.tl) || x.beyond.contains n

/-- What all the events of a completed operation pass on. -/
def DoneOp.all (d : DoneOp) : Clock := clockJoin (clockJoin d.rd d.wr) d.sig

/-- What a wait that completes on a timeline learns (R261): the events of every operation up to the timeline. -/
def EngCtx.learnt (x : EngCtx) : Clock :=
  x.done.foldl (fun c e => if e.1 ≤ x.tl then e.2.foldl (fun c d => clockJoin c d.all) c else c) []

/-! ## Engine accesses -/

/-- Who makes an engine access: its group (none: a packet's), context, caches, ordering memory, place, the thread, work
identifier, engine context, number and issue it counts for, and whether it is a copy. -/
structure EngAgent where
  gid    : Option Nat
  cid    : Nat
  via    : XlVia
  hb     : HbState
  place  : Place
  thread : Option Nat
  wid    : W64
  ectx   : Nat
  num    : Nat
  po     : Nat
  copies : Bool

/-- What stops an engine access: a failed translation that waits (with the record to write), an error (R176), a merge entry that
is not free (R416), or a limiter without tokens (R392). -/
inductive EngStop where
  | stall (rec : Option (Bool × W64 × W32)) (f : FaultWait)
  | error (c : Cause) (addr : W64) (info : W32)
  | held
  | limited
  deriving DecidableEq, Repr

/-- R374: what a failed translation means for an engine. -/
def engXl (f : XlFault) (va : W64) (acc : BitVec 2) : EngStop :=
  match xlExc f va acc with
  | .replay r w => .stall r w
  | .trap c a i => .error c a i
  | _ => .limited

/-- The group of an agent, with its kernel. -/
def EngAgent.groupOf (ag : EngAgent) (s : State) : Option (Nat × Group × Kernel) :=
  match ag.gid with
  | none => none
  | some gid => match s.group gid with
    | none => none
    | some g => match s.kernel g.kid with | some k => some (gid, g, k) | none => none

/-- Whether a group has retired: its scratchpad no longer exists (R359). -/
def Group.isRetired (g : Group) : Bool := match g.loc with | .retired => true | _ => false

/-- Scratchpad bytes read by an engine (R140, R270, R275). -/
def engReadSp (s : State) (ag : EngAgent) (off n : Nat) : Except EngStop (List Byte × State) :=
  match ag.groupOf s with
  | none => .error (.error .permission (BitVec.ofNat 64 off) 0#32)
  | some (gid, g, k) =>
    if !spOk k off n then .error (.error .permission (BitVec.ofNat 64 off) 0#32)
    else
      let new := ag.hb.reads.stamp false none true ag.place
      match findRace g.stamps ag.hb.reads new (upFrom off n) with
      | some (a, o) =>
        .error (.error (if s.level ag.cid = 0 then .race else .mergeConflict) (BitVec.ofNat 64 a)
          (if s.level ag.cid = 0 then raceInfo o new else 0#32))
      | none => .ok (g.spGet off n, s.setGroup gid { g with stamps := stampAll g.stamps new (upFrom off n) })

/-- Scratchpad bytes written by an engine; nothing happens to a retired group. -/
def engWriteSp (s : State) (ag : EngAgent) (off : Nat) (bs : List Byte) (atomic : Option (BitVec 3)) (keep : Bool)
    (heads : List RelHead) : Except EngStop State :=
  match ag.groupOf s with
  | none => .ok s
  | some (gid, g, k) =>
    if g.isRetired then .ok s
    else if !spOk k off bs.length then .error (.error .permission (BitVec.ofNat 64 off) 0#32)
    else
      let new := ag.hb.stamp true atomic true ag.place
      match findRace g.stamps ag.hb new (upFrom off bs.length) with
      | some (a, o) =>
        .error (.error (if s.level ag.cid = 0 then .race else .mergeConflict) (BitVec.ofNat 64 a)
          (if s.level ag.cid = 0 then raceInfo o new else 0#32))
      | none =>
        .ok (s.setGroup gid { g.spPut off bs with
          stamps := stampAll g.stamps new (upFrom off bs.length)
          rels := writeHeads g.rels (upFrom off bs.length) keep heads })

/-- The race check of a global engine access (R270): only in the open level. -/
def engTouch (s : State) (ag : EngAgent) (vas : List W64) (pas : List Nat) (wr : Bool) : Except EngStop State :=
  if s.level ag.cid ≠ 0 then .ok s
  else
    let hb := if wr then ag.hb else ag.hb.reads
    let new := hb.stamp wr none true ag.place
    match s.stampBad pas, findRace s.stamps hb new pas with
    | some a, _ => .error (.error .dataIntegrity (vas.getD (pas.idxOf a) 0#64) 0#32)
    | none, some (a, o) => .error (.error .race (vas.getD (pas.idxOf a) 0#64) (raceInfo o new))
    | none, none => .ok (stampGlobal s ag.cid new pas)

/-- Global bytes at translated addresses as an agent reads them (R162). -/
def EngAgent.bytes (ag : EngAgent) (s : State) (vas : List W64) (pas : List Nat) : List Byte × State :=
  match s.level ag.cid, ag.groupOf s with
  | 0, _ => (pas.map s.mem.get, s)
  | _, none => (pas.map s.mem.get, s)
  | _, some (_, g, k) =>
    let (hs, s1) := s.homes g.kid vas pas
    (hs.map (taskView ((s1.kernel g.kid).getD k) g s1.mem).get, s1)

/-- The addresses of an engine access: a request that leaves the K7 is held while its function has no tokens (R392). -/
def viaXlate (s : State) (via : XlVia) (cid : Nat) (acc : BitVec 2) (vas : List W64) : Except EngStop (List Nat × State) :=
  match xlateBytes s via cid acc vas with
  | .error (f, va) => .error (engXl f va acc)
  | .ok (pas, s1) => match s1.sendOut cid acc pas with
    | some s2 => .ok (pas, s2.arrive cid vas pas)
    | none => .error .limited

def engXlate (s : State) (ag : EngAgent) (acc : BitVec 2) (vas : List W64) : Except EngStop (List Nat × State) :=
  viaXlate s ag.via ag.cid acc vas

/-- R313: a copy whose source names an address in a notify page ends with `permission`. -/
def engNotify (s : State) (ag : EngAgent) (vas : List W64) (pas : List Nat) : Except EngStop Unit :=
  match pas.find? (notifyPa s) with
  | some a =>
    if ag.copies then .error (.error .permission (vas.getD (pas.idxOf a) 0#64) (xlInfo false 0#2 0#2 4)) else .ok ()
  | none => .ok ()

/-- Global bytes read by an engine. -/
def engRead (s : State) (ag : EngAgent) (vas : List W64) : Except EngStop (List Byte × State) :=
  match engXlate s ag 0#2 vas with
  | .error x => .error x
  | .ok (pas, s) =>
    match engNotify s ag vas pas, engTouch s ag vas pas false with
    | .error x, _ => .error x
    | .ok _, .error x => .error x
    | .ok _, .ok s =>
      match pas.find? (s.unitBad (s.ctx ag.cid).keyId) with
      | some a => .error (.error .dataIntegrity (vas.getD (pas.idxOf a) 0#64) 0#32)
      | none => .ok (ag.bytes s vas pas)

/-- Global bytes written by an engine: at once in the open level, queued with the issuing task's otherwise (R162). -/
def engWrite (s : State) (ag : EngAgent) (vas : List W64) (bs : List Byte) : Except EngStop State :=
  match engXlate s ag 1#2 vas with
  | .error x => .error x
  | .ok (pas, s) =>
    match engTouch s ag vas pas true with
    | .error x => .error x
    | .ok s =>
      match s.level ag.cid, ag.groupOf s with
      | 0, _ =>
        match s.writeBad (s.ctx ag.cid).keyId pas with
        | some a => .error (.error .dataIntegrity (vas.getD (pas.idxOf a) 0#64) 0#32)
        | none => .ok { pokeRuns s (s.ctx ag.cid).keyId pas bs with rels := writeHeads s.rels pas false [] }
      | _, none =>
        match s.writeBad (s.ctx ag.cid).keyId pas with
        | some a => .error (.error .dataIntegrity (vas.getD (pas.idxOf a) 0#64) 0#32)
        | none => .ok (pokeRuns s (s.ctx ag.cid).keyId pas bs)
      | _, some (gid, g, _) =>
        let (hs, s) := s.homes g.kid vas pas
        match pushRec s ag.cid g.pendW
            (.of ag.thread ag.po ag.wid (vas.getD 0 0#64) (some (ag.ectx, ag.num)) (.write (hs.zip bs))) with
        | some l => .ok (s.setGroup gid { g with pendW := l })
        | none => .error .held

/-- Bytes through a tensor record or a flat side: `sp` selects the scratchpad. -/
def engGet (s : State) (ag : EngAgent) (sp : Bool) (a n : Nat) : Except EngStop (List Byte × State) :=
  if sp then engReadSp s ag a n else engRead s ag (vaRange (BitVec.ofNat 64 a) n)
def engPut (s : State) (ag : EngAgent) (sp : Bool) (a : Nat) (bs : List Byte) : Except EngStop State :=
  if sp then engWriteSp s ag a bs none false [] else engWrite s ag (vaRange (BitVec.ofNat 64 a) bs.length) bs

/-- The record of an engine operation (R304). -/
def engRecord (s : State) (ag : EngAgent) (c : Cause) (addr : W64) (info : W32) (again : Bool) : State :=
  (ctxRecord s ag.cid { FaultRec.of c with
    eng := true, addr := addr, info := info, opnum := BitVec.ofNat 64 ag.num, ectx := BitVec.ofNat 3 ag.ectx,
    wid := ag.wid, refault := again, ctxl := ag.gid.isNone,
    core := BitVec.ofNat 16 (match ag.groupOf s with | some (_, g, _) => g.coreN | none => 0) }).1

/-- R304: whether the record of that number still waits for room in the ring: its agent stays stopped or stalled. -/
def recordLate (s : State) (cid : Nat) (n : Option Nat) : Bool :=
  match n with
  | some n => (s.ctx cid).fqWait.any (fun r => r.seq == n)
  | none => false

/-- The record that a stall writes (R374, R305). -/
def stallRecord (s : State) (ag : EngAgent) (rec : Option (Bool × W64 × W32)) (again : Bool) : State :=
  match rec with
  | none => s
  | some (false, a, info) => engRecord s ag .translation a info again
  | some (true, a, info) =>
    partRecord s ag.cid { FaultRec.of .range with
      eng := true, addr := a, info := info, ectx := BitVec.ofNat 3 ag.ectx,
      core := BitVec.ofNat 16 (match ag.groupOf s with | some (_, g, _) => g.coreN | none => 0) }

end Sys2Proof.Machine
end

