-- ==== Sys2Proof/Machine/Lanes.lean ====
section
/-! DEFINITION. The values of the cross-lane instructions (R115, R135-R137, R43, R44): what each member of Peers() receives,
from the operands every member read at its arrival. -/
namespace Sys2Proof.Machine

/-- What a member of Peers() brought: its thread number, position, operands (a predicate operand is 0 or 1 in a). -/
structure Arr where
  t   : Nat
  pos : Nat
  a   : W64
  b   : W64
  c   : W64
  deriving DecidableEq, Repr

/-- Source j (R134): the a operand of the member at a position, when it is present. -/
def sourceAt (ps : List Arr) (j : Int) : Option W64 :=
  (ps.find? (fun p => (p.pos : Int) == j)).map (·.a)

/-- R135: the position a permutation reads. -/
def permPos (kind : Nat) (me : Arr) : Int :=
  let b := lo32 me.b
  match kind with
  | 0 => b.toInt
  | 1 => (BitVec.ofNat 32 me.pos ^^^ b).toInt
  | 2 => (me.pos : Int) - b.toInt
  | _ => (me.pos : Int) + b.toInt

/-- R135: PERM, PERMX, PERMU, PERMD. -/
def permVal (kind : Nat) (me : Arr) (ps : List Arr) : W64 := (sourceAt ps (permPos kind me)).getD me.c

/-- The lowest position in Peers(). -/
def lowestPos (ps : List Arr) : Nat := ps.foldl (fun m p => min m p.pos) 64

/-- R135: BCAST. -/
def bcastVal (me : Arr) (ps : List Arr) : W64 := (sourceAt ps (lowestPos ps)).getD me.a

/-- R136: VOTE. -/
def voteVal (m : BitVec 4) (ps : List Arr) : Bool :=
  let t := ps.countP (fun p => p.a != 0#64)
  match m.toNat with
  | 0 => t == ps.length | 1 => t != 0 | 2 => t == ps.length || t == 0 | _ => t % 2 == 1

/-- A mask over positions: bit k for position k, or 32 + k for `hi` (R136). -/
def posMask (hi : Bool) (ps : List Arr) : W32 :=
  ps.foldl (fun w p => if (decide (32 ≤ p.pos)) == hi then w ||| (1#32 <<< (p.pos % 32)) else w) 0#32

/-! ## Reductions -/

/-- The width and signedness of an integer type code of R137. -/
def redWidth (ty : Nat) : Nat := if 4 ≤ ty then 64 else 32
def redSigned (ty : Nat) : Bool := ty == 0 || ty == 4

/-- R43: the identity of an operation on a type. -/
def redIdentity (ty op : Nat) : W64 :=
  let f : Option FFmt := match ty with | 2 => some .f32 | 3 => some .f64 | _ => none
  match f with
  | some f =>
    BitVec.ofNat 64 (match op with
      | 0 => f.withSign true 0
      | 1 => f.infBits.getD 0
      | 2 => f.withSign true (f.infBits.getD 0)
      | _ => (roundV f .rn false (FV.ofInt 1)).bits)
  | none =>
    let w := redWidth ty
    BitVec.ofNat 64 (match op with
      | 1 => if redSigned ty then 2 ^ (w - 1) - 1 else 2 ^ w - 1
      | 2 => if redSigned ty then 2 ^ (w - 1) else 0
      | 3 => 1
      | 4 => 2 ^ w - 1
      | _ => 0)

/-- R43: one combination, with the flags it raises. -/
def redCombine (ty op : Nat) (x y : W64) : W64 × FFlags :=
  let f : Option FFmt := match ty with | 2 => some .f32 | 3 => some .f64 | _ => none
  match f with
  | some f =>
    let r : FRes := match op with
      | 0 => fAdd f .rn x.toNat y.toNat
      | 1 => fMinMax f false x.toNat y.toNat
      | 2 => fMinMax f true x.toNat y.toNat
      | _ => fMul f .rn x.toNat y.toNat
    (BitVec.ofNat 64 r.bits, r.flags)
  | none =>
    let w := redWidth ty
    let sv (v : W64) : Int :=
      let n := v.toNat % 2 ^ w
      if redSigned ty && n.testBit (w - 1) then (n : Int) - 2 ^ w else n
    let v : Int := match op with
      | 0 => sv x + sv y
      | 1 => min (sv x) (sv y)
      | 2 => max (sv x) (sv y)
      | 3 => sv x * sv y
      | 4 => ((x &&& y).toNat : Int)
      | 5 => ((x ||| y).toNat : Int)
      | _ => ((x ^^^ y).toNat : Int)
    (BitVec.ofNat 64 (v % 2 ^ w).toNat, 0#6)

/-- One level of the tree: adjacent pairs combined. -/
def redLevel (ty op : Nat) : List W64 → List W64 × FFlags
  | x :: y :: l =>
    let c := redCombine ty op x y
    let r := redLevel ty op l
    (c.1 :: r.1, c.2 ||| r.2)
  | l => (l, 0#6)

/-- The levels of R43's tree from the leaves up (n of them above), and the flags raised anywhere in it. -/
def redTree (ty op : Nat) : Nat → List W64 → List (List W64) × FFlags
  | 0, l => ([l], 0#6)
  | n + 1, l =>
    let r := redLevel ty op l
    let t := redTree ty op n r.1
    (l :: t.1, r.2 ||| t.2)

/-- The 64 leaves (R43). -/
def redLeaves (ty op : Nat) (ps : List Arr) : List W64 :=
  (upFrom 0 64).map (fun (j : Nat) => (sourceAt ps (j : Int)).getD (redIdentity ty op))

/-- R44: the aligned blocks that cover [0, j], as (level, index), largest first: `n` is j + 1, of at most 7 bits. -/
def scanBlocks (n : Nat) : Nat → Nat → List (Nat × Nat)
  | 0, _ => []
  | k + 1, start =>
    if n.testBit k then (k, start / 2 ^ k) :: scanBlocks n k (start + 2 ^ k) else scanBlocks n k start

/-- R44: the fold over blocks, with its flags. -/
def scanFold (ty op : Nat) (tree : List (List W64)) (acc : W64) : List (Nat × Nat) → W64 × FFlags
  | [] => (acc, 0#6)
  | (lv, ix) :: l =>
    let c := redCombine ty op acc ((tree.getD lv []).getD ix 0#64)
    let r := scanFold ty op tree c.1 l
    (r.1, c.2 ||| r.2)

/-- R44: the scan result at a position. -/
def scanAt (ty op : Nat) (ex : Bool) (tree : List (List W64)) (pos : Nat) : W64 × FFlags :=
  scanFold ty op tree (redIdentity ty op) (scanBlocks (if ex then pos else pos + 1) 7 0)

/-- SGRED (R137). -/
def sgredVal (f : Fields) (ps : List Arr) : W64 × FFlags :=
  let t := redTree (redTy f) (redOp f) 6 (redLeaves (redTy f) (redOp f) ps)
  (((t.1.getD 6 []).getD 0 0#64), t.2)

/-- SGSCAN (R137, R44): every member receives the flags of the tree and of every member's prefix. -/
def sgscanVal (f : Fields) (me : Arr) (ps : List Arr) : W64 × FFlags :=
  let t := redTree (redTy f) (redOp f) 6 (redLeaves (redTy f) (redOp f) ps)
  let fl := ps.foldl (fun fl p => fl ||| (scanAt (redTy f) (redOp f) (redEx f) t.1 p.pos).2) t.2
  ((scanAt (redTy f) (redOp f) (redEx f) t.1 me.pos).1, fl)

/-- What a member of Peers() receives from a cross-lane instruction, with its flags. -/
def laneRes (i : Instr) (me : Arr) (ps : List Arr) : Res × FFlags :=
  match i with
  | .elect _ => (.pred (me.pos == lowestPos ps), 0#6)
  | .perm _ => (.val (permVal 0 me ps), 0#6)
  | .permx _ => (.val (permVal 1 me ps), 0#6)
  | .permu _ => (.val (permVal 2 me ps), 0#6)
  | .permd _ => (.val (permVal 3 me ps), 0#6)
  | .bcast _ => (.val (bcastVal me ps), 0#6)
  | .vote f => (.pred (voteVal f.mod ps), 0#6)
  | .ballot f => (.val (zext64 (posMask (f.mod == 1#4) (ps.filter (fun p => p.a != 0#64)))), 0#6)
  | .matchL f => (.val (zext64 (posMask (f.mod == 1#4) (ps.filter (fun p => p.a == me.a)))), 0#6)
  | .sgred f => let r := sgredVal f ps; (.val r.1, r.2)
  | .sgscan f => let r := sgscanVal f me ps; (.val r.1, r.2)
  | _ => (.none, 0#6)

/-- Whether the operand a of an instruction is a predicate (R136). -/
def aIsPred (i : Instr) : Bool :=
  match i with
  | .vote _ => true
  | .ballot _ => true
  | _ => false

end Sys2Proof.Machine
end

