-- ==== Sys2Proof/Machine/Matrix.lean ====
section
/-! DEFINITION. Tiles and the matrix engine (R186-R204): tile rows, the updates of R40-R41, the format table of R196, the
holds of R189, and what an instance of MLDW, MMAA, MSCALE or MCOMMIT does to its group. -/
namespace Sys2Proof.Machine

/-! ## Tiles (R186-R188) -/

def Group.tile (g : Group) (n : Nat) : Tile := mgetD g.tiles n Tile.zero
def Group.setTile (g : Group) (n : Nat) (t : Tile) : Group := { g with tiles := mset g.tiles n t }

def Tile.nrows (t : Tile) : Nat := t.rows.toNat + 1
def Tile.ncols (t : Tile) : Nat := t.cols.toNat + 1
/-- A row's length in bytes (R187). -/
def Tile.rowBytes (t : Tile) : Nat := t.ncols * fmtBits t.fmt.toNat / 8

/-- R187: whether a configuration is valid. -/
def tileCfgOk (rows cols fmt : Nat) : Bool :=
  decide (fmt ≤ 11) && (!fmtBlock fmt || (cols + 1) % 32 == 0) && (fmt != 11 || (cols + 1) % 8 == 0) &&
    decide ((rows + 1) * ((cols + 1) * fmtBits fmt / 8) ≤ 8192) && ((cols + 1) * fmtBits fmt) % 8 == 0

/-- R187: `kf.tcfg` on a tile. -/
def Tile.configure (t : Tile) (v : W64) : Tile :=
  let rows : BitVec 8 := v.extractLsb' 16 8
  let cols : BitVec 12 := v.extractLsb' 4 12
  let fmt : BitVec 4 := v.extractLsb' 0 4
  { t with rows := rows, cols := cols, fmt := fmt, en := tileCfgOk rows.toNat cols.toNat fmt.toNat }

/-- The tile control register as a word (R187). -/
def Tile.tc (t : Tile) : W32 := BitVec.ofNat 32 (t.fmt.toNat + 16 * t.cols.toNat + 65536 * t.rows.toNat + 2 ^ 24 * bitN t.en)

/-- The scale word of a block of a row (R188). -/
def Tile.scaleAt (t : Tile) (r q : Nat) : W32 := mgetD t.scale (r * (t.ncols / 32) + q) 0#32

/-- Writes a scale word; zero words are not listed. -/
def Tile.setScale (t : Tile) (i : Nat) (v : W32) : Tile :=
  { t with scale := if v = 0#32 then mdel t.scale i else mset t.scale i v }

/-- A row of operands: format, element codes, one scale word for each block of 32. -/
structure MxRow where
  fmt    : Nat
  codes  : List Nat
  scales : List W32

/-- `n` element codes of `bits` bits from bytes. -/
def codesOf (bs : List Byte) (bits n : Nat) : List Nat :=
  let v := leNat bs
  (upFrom 0 n).map (fun k => natBits v (k * bits) bits)

/-- Row `r` of a tile. -/
def Tile.row (t : Tile) (r : Nat) : MxRow :=
  { fmt := t.fmt.toNat
    codes := codesOf (t.area.getN (r * t.rowBytes) t.rowBytes) (fmtBits t.fmt.toNat) t.ncols
    scales := (upFrom 0 (t.ncols / 32)).map (t.scaleAt r) }

/-- The scale word of 1.0 (R192). -/
def scaleOne : W32 := 0x0038007F#32

/-- Cuts or pads a row to `k` elements; missing elements are zero. -/
def MxRow.resize (r : MxRow) (k : Nat) : MxRow :=
  { r with codes := (r.codes ++ List.replicate k 0).take k
           scales := (r.scales ++ List.replicate (k / 32 + 1) scaleOne).take (k / 32 + 1) }

/-- The exact values of a row (R34). -/
def MxRow.values (r : MxRow) : List FV :=
  (upFrom 0 r.codes.length).map (fun k =>
    let c := r.codes.getD k 0
    if fmtBlock r.fmt then decodeScaled (tyFmt r.fmt) c (r.scales.getD (k / 32) scaleOne)
    else decodeF (tyFmt r.fmt) c)

/-- The integer values of a row of `.i8` or `.n8`. -/
def MxRow.ints (r : MxRow) : List Int :=
  r.codes.map (fun (c : Nat) => if r.fmt == 7 && decide (128 ≤ c) then (c : Int) - 256 else (c : Int))

/-! ## Updates (R40, R41) -/

/-- R40: delivers an FP32 accumulator value: a NaN is canonical with nv, a subnormal is flushed with af. -/
def flush32 (v : FV) (inv : Bool) : Nat × FFlags :=
  match v with
  | .nan _ => (FFmt.nanBits .f32, flNv)
  | .inf n => ((roundV .f32 .rn false (.inf n)).bits, flIf inv flNv)
  | .fin n m ex =>
    if m = 0 then (FFmt.withSign .f32 n 0, 0#6)
    else
      let p := scalePow m 1 (ex + 126)
      if p.1 < p.2 then (FFmt.withSign .f32 n 0, flAf)
      else let r := roundV .f32 .rn false v; (r.bits, r.flags &&& flOf)

/-- The exact sum of products, and whether an invalid product or sum occurred. -/
def dotV (a w : List FV) : FV × Bool :=
  let ps := (a.zip w).map (fun p => mulV p.1 p.2)
  let s := sumV .rn (ps.map (·.1))
  (s.1, ps.any (·.2) || s.2)

/-- R41: one term of min-plus or max-times rounded to FP32. -/
def termOf (mul : Bool) (a w : FV) : FV × FFlags :=
  let v := if mul then mulV a w else sumV .rn [a, w]
  match v.1 with
  | .nan s => (.nan s, 0#6)
  | x => let r := roundV .f32 .rn false x; (decodeF .f32 r.bits, r.flags &&& flOf)

/-- R41: min-plus and max-times. -/
def tropical (mul : Bool) (acc : Nat) (a w : List FV) : Nat × FFlags :=
  let ts := (a.zip w).map (fun p => termOf mul p.1 p.2)
  let fl := ts.foldl (fun f t => f ||| t.2) 0#6
  if (decodeF .f32 acc).isNan || ts.any (fun t => t.1.isNan) then (FFmt.nanBits .f32, fl ||| flNv)
  else
    let r := ts.foldl (fun x t => (fMinMax .f32 mul x (roundV .f32 .rn false t.1).bits).bits) acc
    let u := flush32 (decodeF .f32 r) false
    (u.1, fl ||| u.2)

/-- `Update` (R40, R41) by `mod` of R197 on one accumulator element. -/
def mxUpdate (smod : Nat) (acc : Nat) (a w : MxRow) : Nat × FFlags :=
  match smod with
  | 4 =>
    let s := (a.ints.zip w.ints).foldl (fun s p => s + p.1 * p.2) 0
    ((((acc : Int) + s) % 2 ^ 32).toNat, 0#6)
  | 12 =>
    let d := dotV a.values w.values
    let v := sumV .rn [decodeF .f64 acc, d.1]
    (match v.1 with
     | .nan _ => (FFmt.nanBits .f64, flNv)
     | x => let r := roundV .f64 .rn false x; (r.bits, r.flags &&& flOf))
  | 1 => tropical false acc a.values w.values
  | 2 => tropical true acc a.values w.values
  | 11 =>
    (if acc != 0 || (a.codes.zip w.codes).any (fun p => p.1 != 0 && p.2 != 0) then 1 else 0, 0#6)
  | _ =>
    let d := dotV a.values w.values
    let v := sumV .rn [decodeF .f32 acc, d.1]
    flush32 v.1 (d.2 || v.2)

/-- The identity of an accumulator (R197), as its bits. -/
def mxIdentity (smod : Nat) : Nat :=
  match smod with
  | 4 => 0 | 12 => 2 ^ 63 | 1 => 0x7F800000 | 2 => 0xFF800000 | 11 => 0 | _ => 0x80000000

/-- The registers of an accumulator element. -/
def mxWidth (smod : Nat) : Nat := if smod = 12 then 2 else 1

/-! ## Formats (R196) -/

/-- The largest K of a weights format. -/
def fmtK (f : Nat) : Nat := match f with | 4 => 64 | 5 => 64 | 6 => 128 | 7 => 64 | 8 => 64 | 11 => 128 | _ => 32

/-- The depth limit for a pair of formats and a semiring, or 0 where the table does not allow them. -/
def mxKmax (a w smod : Nat) : Nat :=
  let lim := if a = w then fmtK w else min (fmtK a) (fmtK w)
  let flt := smod == 0 || smod == 1 || smod == 2
  let lowA := decide (2 ≤ a) && decide (a ≤ 6)
  let trop := if smod = 0 then lim else min lim 32
  if decide (2 ≤ w) && decide (w ≤ 6) && lowA && flt then trop
  else if (w == 7 || w == 8) && (a == 7 || a == 8) && smod == 4 then lim
  else if w == 1 && a == 1 && flt then trop
  else if w == 0 && a == 0 && smod == 12 then lim
  else if w == 11 && a == 11 && smod == 11 then lim
  else if (w == 2 || w == 3) && (a == 2 || a == 3) && smod == 11 then 32
  else 0

/-- Whether a weights tile's format and depth fit some row of the table (R195). -/
def mldwFits (f k : Nat) : Bool := f != 9 && f != 10 && decide (f ≤ 11) && decide (k ≤ fmtK f)

/-- The record format of C that an accumulator needs (R205). -/
def cFmt (smod : Nat) : Nat := match smod with | 4 => 9 | 12 => 0 | 11 => 10 | _ => 1

/-! ## Contexts and holds (R189, R193) -/

def Group.mxCtx (g : Group) (c : Nat) : MxCtx := mgetD g.mx c MxCtx.zero

/-- Whether a matrix operation's batch has completed. -/
def MxOp.doneIn (o : MxOp) (g : Group) : Bool :=
  match o.batch with
  | some n => (g.engCtx (4 + o.mx)).isDone n
  | none => false

/-- The matrix operations of a group's context, in order of issue. -/
def mxOpsOf (s : State) (gid c : Nat) : List (Nat × MxOp) := s.mxops.filter (fun e => e.2.gid == gid && e.2.mx == c)

/-- R193: busy while the open batch is not empty or some batch has not completed; numbers that tile tasks took do not
count. -/
def mxBusy (s : State) (gid : Nat) (g : Group) (c : Nat) : Bool :=
  (mxOpsOf s gid c).any (fun e => !e.2.doneIn g) ||
    (let x := g.engCtx (4 + c)
     (upFrom (x.tl + 1) (x.issued - x.tl)).any (fun n => !x.isDone n &&
       !s.ops.any (fun o => o.2.gid == some gid && o.2.ectx == 4 + c && o.2.num == n)))

/-- R193: whether a subgroup may use a context. -/
def ownerOk (s : State) (gid : Nat) (g : Group) (c sg : Nat) : Bool :=
  !mxBusy s gid g c || (g.mxCtx c).owner == some sg

/-- Whether a matrix operation reads a tile. -/
def MxKind.reads (k : MxKind) (t : Nat) : Bool :=
  match k with
  | .mldw n => n == t
  | .mmaa st => st.tile == some t
  | .mscale _ => false

/-- R189: the first operation that holds a tile. -/
def tileHolder (s : State) (gid : Nat) (g : Group) (t : Nat) : Option MxOp :=
  (s.mxops.find? (fun e => e.2.gid == gid && e.2.kind.reads t && !e.2.doneIn g)).map (·.2)

/-- R189: whether a tile has a pending TLD, or a pending TST. -/
def pendingTld (s : State) (gid t : Nat) : Bool :=
  s.ops.any (fun e => e.2.gid == some gid && (match e.2.kind with | .tld n _ _ _ => n == t | _ => false))
def pendingTst (s : State) (gid t : Nat) : Bool :=
  s.ops.any (fun e => e.2.gid == some gid && (match e.2.kind with | .tst n _ _ _ _ => n == t | _ => false))

/-- R189: the check of a write into a tile. One that is held and has a pending transfer too raises `tile-in-use` at once (log 113). -/
def tileWritable (s : State) (gid : Nat) (g : Group) (t : Nat) : Except Exc Unit :=
  match tileHolder s gid g t with
  | some o => .error (.trap .tileInUse (BitVec.ofNat 64 (o.batch.getD 0)) (BitVec.ofNat 32 (t + 16 * o.mx)))
  | none => if pendingTld s gid t || pendingTst s gid t then .error .stall else .ok ()

/-- R189: the check of a read of a tile. -/
def tileReadable (s : State) (gid t : Nat) : Except Exc Unit :=
  if pendingTld s gid t then .error .stall else .ok ()

/-! ## Instances (R194) -/

/-- What an instance comes to: every member of Peers() traps; or a new state, with the members that trapped at their own
checks. -/
inductive MxOutcome where
  | fail (c : Cause)
  | done (s : State) (trapped : List (Nat × Cause × W64 × W32))

/-- Appends an operation to the open batch and to the engine's queue; what its members know goes with it (R261). -/
def mxAppend (s : State) (gid sg c : Nat) (peers : List Nat) (kind : MxKind) : State :=
  match s.group gid with
  | none => s
  | some g =>
    let know := peers.foldl (fun v t => match mget g.threads t with
      | some th => clockJoin v th.hb.now | none => v) []
    let busy := mxBusy s gid g c
    let x := g.mxCtx c
    let g := peers.foldl (fun g t => g.modThread t (fun th => { th with hb := th.hb.tick })) g
    let g := { g with mx := mset g.mx c { x with owner := if busy then x.owner else some sg } }
    let op : MxOp := { gid := gid, mx := c, batch := none, kind := kind, stage := .requested, vals := [], flags := [],
                       err := false, recd := none, stall := none, hb := { HbState.fresh s.nextAid with clk := 1, vc := mset know (s.nextAid + 1) 1 } }
    let core := s.core g.coreN
    { (s.setGroup gid g).setCore g.coreN { core with mxq := core.mxq ++ [s.nextOp] } with
      mxops := mset s.mxops s.nextOp op, nextOp := s.nextOp + 1, nextAid := s.nextAid + 2 }

/-- R195: MLDW. -/
def mldwInstance (s : State) (gid sg : Nat) (g : Group) (f : Fields) (peers : List Nat) : MxOutcome :=
  let t := unitIx f.a
  let c := unitIx f.c - 4
  let tile := g.tile t
  if !ownerOk s gid g c sg || !tile.en || decide (128 < tile.nrows) || !mldwFits tile.fmt.toNat tile.ncols then
    .fail .illegalOperand
  else
    let s := mxAppend s gid sg c peers (.mldw t)
    .done (s.modGroup gid (fun g => { g with mx := mset g.mx c { g.mxCtx c with
      latchCfg := some (tile.fmt.toNat, tile.nrows, tile.ncols) } })) []

/-- R200: MSCALE. The next step's blocks are those of the weights issued last; with no weights, all four. -/
def mscaleInstance (s : State) (gid sg : Nat) (g : Group) (f : Fields) (ps : List Arr) : MxOutcome :=
  let c := unitIx f.c - 4
  let b := (opBits f.b).toNat
  let off := b % 64
  let st := 2 ^ (b / 64 % 4)
  let blocks := match (g.mxCtx c).latchCfg with | some (_, _, k) => min 4 ((k + 31) / 32) | none => 4
  let word (q : Nat) : Option W64 := sourceAt ps (off + st * q : Nat)
  if !ownerOk s gid g c sg || decide (63 < off + 3 * st) || (upFrom 0 blocks).any (fun q => (word q).isNone) then
    .fail .illegalOperand
  else .done (mxAppend s gid sg c (ps.map (·.t)) (.mscale (some ((upFrom 0 4).map (fun q => lo32 ((word q).getD 0#64)))))) []

/-- R200: `mscale.clr`. -/
def mscaleClrInstance (s : State) (gid sg : Nat) (g : Group) (f : Fields) (peers : List Nat) : MxOutcome :=
  let c := unitIx f.c - 4
  if !ownerOk s gid g c sg then .fail .illegalOperand
  else .done (mxAppend s gid sg c peers (.mscale none)) []

/-- R197: the shape of an MMAA, or none where it raises `illegal-operand`. -/
def mmaaShape (s : State) (gid sg : Nat) (g : Group) (k : Kernel) (f : Fields) (b : W64) : Option MmaaStep :=
  let c := unitIx f.c - 4
  let slot := mmaaSlot f
  let i0 := (lo32 b).toNat
  let i1 := (hi32 b).toNat
  let smod := f.mod.toNat
  let d := match f.d with | .main i => i.toNat | _ => 0
  match (g.mxCtx c).latchCfg with
  | none => none
  | some (wf, n, kk) =>
    let r := g.slot ((opBits f.a).toNat - 0x1D0)
    let t := g.tile (unitIx f.a)
    let af := if slot then trFmt r else t.fmt.toNat
    let m := if slot then min 256 (trExt r 1 - i1) else t.nrows
    let rg := mxWidth smod * ((m * n + k.sgSize - 1) / k.sgSize)
    if !ownerOk s gid g c sg ||
        decide (mxKmax af wf smod < kk) ||
        (if slot then r == 0#512 || decide (trExt r 1 ≤ i1) || (fmtBlock af && i0 % 32 != 0) || (af == 11 && i0 % 8 != 0)
         else !t.en || t.ncols != kk) ||
        decide (128 < d + rg) || (smod == 12 && d % 2 == 1) then none
    else some { mod := f.mod, tile := if slot then none else some (unitIx f.a), arec := r, i0 := i0, i1 := i1, m := m, n := n,
                k := kk, afmt := af, wfmt := wf, d := d, rg := rg, subS := k.sgSize, sg := sg, peers := [] }

/-- R194, R198, R199: a member's own checks for an MMAA. -/
def mmaaMemberFault (th : Thread) (c : Nat) (st : MmaaStep) : Option (Cause × W64 × W32) :=
  let rs := upFrom st.d st.rg
  match rs.find? (fun r => match mget th.marks r with
      | some m => !(m.mx == c && m.base == st.d && m.rg == st.rg) | none => false) with
  | some r =>
    let m := (mget th.marks r).getD ⟨c, none, 0, 0⟩
    some (.accumulatorInFlight, BitVec.ofNat 64 (m.batch.getD 0), BitVec.ofNat 32 (r + 128 * m.mx))
  | none =>
    let fresh := rs.countP (fun r => !th.held r)
    if fresh ≠ 0 ∧ th.quota < th.alloc + fresh then
      some (.quotaExceeded, 0#64, BitVec.ofNat 32 (th.quota + 65536 * (th.alloc + fresh)))
    else none

/-- R198, R199: a member's accumulator range at issue: unallocated registers read as the identity, all are in flight. -/
def mmaaMark (th : Thread) (c : Nat) (st : MmaaStep) : Thread :=
  let th := th.flushFor (fun p => (upFrom st.d st.rg).any p.hits)
  let ident := mxIdentity st.mod.toNat
  let word (r : Nat) : W32 :=
    if st.mod == 12#4 then (if (r - st.d) % 2 = 0 then BitVec.ofNat 32 ident else BitVec.ofNat 32 (ident / 2 ^ 32))
    else BitVec.ofNat 32 ident
  let rs := upFrom st.d st.rg
  { th with
    regs := rs.foldl (fun m r => if (mget m r).isSome then m else mset m r (word r)) th.regs
    marks := rs.foldl (fun m r => mset m r ⟨c, none, st.d, st.rg⟩) th.marks }

/-- R197-R199: MMAA. -/
def mmaaInstance (s : State) (gid sg : Nat) (g : Group) (k : Kernel) (f : Fields) (ps : List Arr) : MxOutcome :=
  let c := unitIx f.c - 4
  match ps with
  | [] => .done s []
  | p :: _ =>
    if ps.any (fun q => q.b != p.b) then .fail .collectiveMismatch
    else match mmaaShape s gid sg g k f p.b with
      | none => .fail .illegalOperand
      | some st =>
        let bad := ps.filterMap (fun q => match mget g.threads q.t with
          | some th => (mmaaMemberFault th.payRel c st).map (fun x => (q.t, x))
          | none => none)
        let good := (ps.map (·.t)).filter (fun t => !bad.any (fun x => x.1 == t))
        if good = [] then .done s bad
        else
          let s := s.modGroup gid (fun g => good.foldl (fun g t => g.modThread t (fun th => mmaaMark th.payRel c st)) g)
          .done (mxAppend s gid sg c good (.mmaa { st with peers := good })) bad

/-- R201: MCOMMIT closes the open batch; the number goes to each member. -/
def mcommitInstance (s : State) (gid sg : Nat) (g : Group) (f : Fields) (ps : List Arr) : MxOutcome × Nat :=
  let c := unitIx f.a - 4
  if !ownerOk s gid g c sg then (.fail .illegalOperand, 0)
  else
    let busy := mxBusy s gid g c
    let (g, n) := g.issue (4 + c)
    let g := { g with
      mx := mset g.mx c { g.mxCtx c with owner := if busy then (g.mxCtx c).owner else some sg }
      threads := mmap (fun _ th => { th with marks := mmap (fun _ m =>
        if m.mx == c && m.batch.isNone then { m with batch := some n } else m) th.marks }) g.threads }
    let s := { s.setGroup gid g with
      mxops := mmap (fun _ o => if o.gid == gid && o.mx == c && o.batch.isNone then { o with batch := some n } else o)
        s.mxops }
    let s := s.modGroup gid (fun g => ps.foldl (fun g p => g.modThread p.t (fun th =>
      match (postpone .alu f.ahd f.d (wordsOf true (BitVec.ofNat 64 n)) []) th.payRel with
      | .ok (_, th') => th'
      | .error _ => th)) g)
    (.done s [], n)

end Sys2Proof.Machine
end

