-- ==== Sys2Proof/Machine/Settle.lean ====
section
/-! DEFINITION. What the K7 completes by itself once what it waits for is there: JOIN instances (R113), collective
instances (R134, R194), group, cluster and launch barriers (R352, R356, R358), claims (R236), the other waits (R341), the
retirement of groups (R332, R346), and the deadlock checks (R114, R166, R236, R345, R357). `settleAll` runs after every step. -/
namespace Sys2Proof.Machine

/-! ## Waking -/

/-- Where a thread that waits at a collective or barrier stands when the wait ends: its marked sources are freed and its
queue entries popped (R66), and it is past its slot. -/
def Thread.wake (th : Thread) (now : Nat) : Thread :=
  let th := th.payRel
  { th.outside with
    pc := th.resume, rep := th.resumeRep, uqpos := th.uqpos + th.owedPop, owedPop := 0, wait := .none,
    ready := now, retry := false }

/-- A thread that issues its slot again; a saved access has the latches that it read (R374). -/
def Thread.again (th : Thread) (now : Nat) : Thread :=
  let th := { th with wait := .none, ready := now }
  match th.kept with
  | some (l0, l1) => { th with inside := true, l0 := l0, l1 := l1 }
  | none => th

/-- Applies a change to each thread of a list. -/
def State.modThreads (s : State) (gid : Nat) (ts : List Nat) (h : Thread → Thread) : State :=
  s.modGroup gid (fun g => ts.foldl (fun g t => g.modThread t h) g)

/-- Withdraws what a waiting thread brought to its barrier, instance or claim queue (R352, R357). -/
def Group.withdraw (g : Group) (t : Nat) (th : Thread) : Group :=
  let g := g.modThread t (fun th => { th with wait := .none, owedRel := [], owedPop := 0 })
  match th.wait with
  | .bar n _ => { g with bars := mmodify g.bars n (fun b => { b with arr := b.arr - 1 }) }
  | .lbar _ => g.modThread t (fun th => { th with lbars := th.lbars - 1 })
  | .join inst _ =>
    { g with regions := mmodify g.regions inst (fun r => { r with arrived := r.arrived.filter (· != t) }) }
  | .claim _ => { g with claims := mmap (fun _ l => l.filter (fun c => c.1 != t)) g.claims }
  | _ => g

/-- The number of the repetition a thread stands at. -/
def Thread.repNo (th : Thread) : Nat := match th.rep with | some r => r.k | none => 0

/-- The instruction at which a thread waits, as the instance whose parked subgroup it joins (R111): its slot and
repetition, and the JOIN's instance (log 20). -/
def Thread.waitsAt (th : Thread) : W64 × Nat × Option Nat :=
  (th.pc, th.repNo, match th.wait with | .join n _ => some n | _ => none)

/-- Raises a cause on waiting threads; those that wait at one instruction leave as one parked subgroup (R111, R340). -/
def trapWaiting (s : State) (gid : Nat) (ts : List Nat) (c : Cause) (ti : Thread → W32) : State :=
  let keys := (ts.filterMap (fun t => (s.thread gid t).map Thread.waitsAt)).eraseDups
  let inst := s.nextInst
  ts.foldl (fun s t =>
    match s.group gid, s.thread gid t with
    | some g, some th =>
      takeTrap (s.setGroup gid (g.withdraw t th)) gid t c th.pc th.rep 0#64 (ti th) (inst + keys.idxOf th.waitsAt)
    | _, _ => s) { s with nextInst := s.nextInst + keys.length }

/-- The first entry of a map for which `q` answers something. -/
def firstOf {α β : Type} (q : Nat → α → Option β) : AMap α → Option β
  | [] => none
  | (k, v) :: m => match q k v with | some b => some b | none => firstOf q m

/-! ## Convergence -/

/-- R111: the convergence set of a thread. -/
def Group.classOf (g : Group) (th : Thread) : List Nat :=
  (g.threads.filter (fun e => e.2.live && e.2.sg == th.sg && e.2.regions.head? == th.regions.head? &&
    e.2.parked == th.parked)).map (·.1)

/-- R113: completes one JOIN instance of a group. -/
def settleJoin (s : State) (gid : Nat) (g : Group) : Option State :=
  firstOf (fun inst (r : Region) =>
    if r.arrived != [] && r.members.all (fun t => r.arrived.contains t) then
      let now := readyNow s g
      some ((s.modThreads gid r.arrived (fun th =>
          let th' := { th with regions := th.regions.filter (· != inst) }
          match th.wait with
          | .join _ true => { th'.again now with cvDone := true }
          | _ => th'.wake now)).modGroup gid (fun g => { g with regions := mdel g.regions inst }))
    else none) g.regions

/-- R408: how many positions the sets have over which the collective at a program counter acts: a translated SGCOLL has sets
of its own size, every other collective takes the whole subgroup. -/
def State.setSize (s : State) (g : Group) (pc : W64) : Nat := mgetD (s.ctx g.cid).sgSize pc.toNat 64

/-- The threads with which a thread shares the collective it stands at: its convergence set, or those of it in its set. -/
def collMates (s : State) (g : Group) (th : Thread) : List Nat :=
  let z := s.setSize g th.pc
  (g.classOf th).filter (fun u => match mget g.threads u with | some w => w.sgt / z == th.sgt / z | none => false)

/-- What a thread brought to the collective it waits at; positions are counted from its set's first. -/
def Thread.arrOf (z t : Nat) (th : Thread) : Option (Arr × Bool × Instr) :=
  match th.wait with
  | .coll i a b c gd => some (⟨t, th.sgt % z, a, b, c⟩, gd, i)
  | _ => none

/-- R134: the result of a cross-lane instruction reaches a member of Peers(): value, latches, flags, and the `fp` trap. -/
def laneDeliver (s : State) (gid inst : Nat) (ps : List Arr) (me : Arr) (i : Instr) : State :=
  match s.group gid, s.thread gid me.t, encOf i, fieldsOf i with
  | some g, some th, some en, some f =>
    let r := laneRes i me ps
    let th := th.wake (readyNow s g)
    let th := match putRes en f r.1 th with | .ok (_, th') => th'.outside | .error _ => th
    let th := th.raiseFlags r.2
    let s := s.setThread gid me.t th
    if fpTraps th r.2 then takeTrap s gid me.t .fp th.pc th.rep 0#64 (BitVec.ofNat 32 r.2.toNat) inst else s
  | _, _, _, _ => s

/-- R194: what a matrix instance comes to. -/
def mxInstance (s : State) (gid sg : Nat) (g : Group) (i : Instr) (ps : List Arr) : MxOutcome :=
  match s.kernel g.kid with
  | none => .done s []
  | some k =>
    match i with
    | .mldw f => mldwInstance s gid sg g f (ps.map (·.t))
    | .mmaa f => mmaaInstance s gid sg g k f ps
    | .mscale f => mscaleInstance s gid sg g f ps
    | .mscaleClr f => mscaleClrInstance s gid sg g f (ps.map (·.t))
    | .mcommit f => (mcommitInstance s gid sg g f ps).1
    | _ => .done s []

/-- Whether an instruction is a matrix collective. -/
def isMxColl (i : Instr) : Bool :=
  match i with
  | .mldw _ => true | .mmaa _ => true | .mscale _ => true | .mscaleClr _ => true | .mcommit _ => true
  | _ => false

/-- R134, R194: the completion of a collective whose members are all there. -/
def collComplete (s : State) (gid : Nat) (g : Group) (sg : Nat) (ms : List (Arr × Bool × Instr)) : State :=
  let all := ms.map (fun m => m.1.t)
  let ps := (ms.filter (fun m => m.2.1)).map (·.1)
  let others := (ms.filter (fun m => !m.2.1)).map (fun m => m.1.t)
  let now := readyNow s g
  match ms with
  | [] => s
  | m :: _ =>
    let i := m.2.2
    if isMxColl i then
      if ms.any (fun x => decide (x.2.2 ≠ i)) then trapWaiting s gid all .collectiveMismatch (fun _ => 0#32)
      else if ps = [] then s.modThreads gid all (fun th => th.wake now)
      else match mxInstance s gid sg g i ps with
        | .fail .collectiveMismatch => trapWaiting s gid all .collectiveMismatch (fun _ => 0#32)
        | .fail c => (trapWaiting s gid (ps.map (·.t)) c (fun _ => 0#32)).modThreads gid others (fun th => th.wake now)
        | .done s bad =>
          let inst := s.nextInst
          let s := bad.foldl (fun s x =>
            match s.group gid, s.thread gid x.1 with
            | some g, some th => takeTrap (s.setGroup gid (g.withdraw x.1 th)) gid x.1 x.2.1 th.pc th.rep x.2.2.1 x.2.2.2 inst
            | _, _ => s) s.bumpInst
          s.modThreads gid (all.filter (fun t => !bad.any (fun x => x.1 == t))) (fun th => th.wake now)
    else
      let inst := s.nextInst
      let s := ps.foldl (fun s me => laneDeliver s gid inst ps me
        (((ms.find? (fun x => x.1.t == me.t)).map (fun x => x.2.2)).getD i)) s.bumpInst
      s.modThreads gid others (fun th => th.wake now)

/-- R134: completes one collective instance of a group. -/
def settleColl (s : State) (gid : Nat) (g : Group) : Option State :=
  firstOf (fun t (th : Thread) =>
    match th.wait with
    | .coll .. =>
      let cls := collMates s g th
      let ms := cls.filterMap (fun u => match mget g.threads u with
        | some w => if w.pc = th.pc && w.repNo == th.repNo then w.arrOf (s.setSize g th.pc) u else none
        | none => none)
      if ms.length == cls.length && ms.any (fun m => m.1.t == t) then some (collComplete s gid g th.sg ms) else none
    | _ => none) g.threads

/-! ## Barriers -/

/-- How many arrivals a barrier's phase expects (R352); none while it is idle. -/
def Barrier.expected (g : Group) (b : Barrier) : Option Nat :=
  match b.mode with
  | .unset => none
  | .live => some g.live.length
  | .fixed n => some n

/-- R165, R353: what a wait on phases p to q − 1 learns. -/
def Barrier.learnt (b : Barrier) (p : W32) : Clock :=
  b.prev.foldl (fun c e =>
    if (BitVec.ofNat 32 e.1 - p).toNat < (b.ph - p).toNat then clockJoin c e.2 else c) []

/-- A clock with what the threads of a group that satisfy `p` know: the arrivals that wait (R260). One that is withdrawn waits
no longer, and brings nothing (R352). -/
def clocksOf (g : Group) (p : Thread → Bool) (c : Clock) : Clock :=
  g.threads.foldl (fun c e => if e.2.live && p e.2 then clockJoin c e.2.hb.now else c) c

/-- A thread released by a barrier knows what every arrival knew; its later events are new to those that learnt of it. -/
def Thread.meet (th : Thread) (c : Clock) : Thread := { th with hb := (th.hb.learn c).tick }

/-- R352: completes the phase of one group barrier. -/
def settleBar (s : State) (gid : Nat) (g : Group) : Option State :=
  firstOf (fun n (b : Barrier) =>
    match b.expected g with
    | none => none
    | some e =>
      if e ≤ b.arr then
        let waits (th : Thread) : Bool := match th.wait with | .bar m p => m == n && p == b.ph | _ => false
        let vc := clocksOf g waits b.vc
        let b' : Barrier := { ph := b.ph + 1#32, arr := 0, mode := .unset, vc := [], prev := mset b.prev b.ph.toNat vc }
        let now := readyNow s g
        some (s.modGroup gid (fun g => { g with
          bars := mset g.bars n b'
          threads := mmap (fun _ th => if waits th then (th.wake now).meet vc else th) g.threads }))
      else none) g.bars

/-- Whether a phase number p has been passed at ph (R165, R168). -/
def phasePast (ph p : W32) : Bool := let d := (ph - p).toNat; decide (1 ≤ d) && decide (d ≤ 2 ^ 31)

/-- The groups of a group's cluster, retired ones apart. -/
def clusterGroups (s : State) (k : Kernel) (g : Group) : List (Nat × Group) :=
  s.groups.filter (fun e => e.2.kid == g.kid && clusterOf k e.2 == clusterOf k g && !e.2.isRetired)

/-- Whether a thread waits at XBAR. -/
def Thread.atXbar (th : Thread) : Bool := match th.wait with | .xbar => true | _ => false

/-- Where a key of a group's stamps and heads stands after an exchange of its banks: those of the live bank, and of the counting
barriers in it, go to the shadow bank and back (R153, R354). -/
def swapKey (a : Nat) : Nat :=
  let x := a % 0x100000
  if 0x60000 ≤ x ∧ x < 0x70000 ∧ a / 0x100000 % 2 = 0 then a + 0x100000 - 0x60000
  else if x < 0x10000 ∧ a / 0x100000 % 2 = 1 then a - 0x100000 + 0x60000
  else a

/-- Exchanges the live and shadow banks of a group, and the stamps and heads of their bytes (R153). -/
def Group.swapBanks (g : Group) : Group :=
  let re {α : Type} (m : AMap α) : AMap α := m.foldl (fun r e => mset r (swapKey e.1) e.2) []
  { g with xlive := g.xshadow, xshadow := g.xlive, stamps := re g.stamps, rels := re g.rels, xphase := g.xphase + 1 }

/-- R153, R356: completes the cluster barrier of a group's cluster. -/
def settleXbar (s : State) (_gid : Nat) (g : Group) : Option State :=
  match s.kernel g.kid with
  | none => none
  | some k =>
    if !g.threads.any (fun e => e.2.atXbar) then none
    else
      let cl := clusterGroups s k g
      if cl.all (fun e => (match e.2.loc with | .placed _ _ => false | _ => true) &&
          e.2.threads.all (fun t => !t.2.live || t.2.atXbar)) then
        let vc := cl.foldl (fun c e => clocksOf e.2 Thread.atXbar c) []
        some (cl.foldl (fun s e =>
          let now := readyNow s e.2
          s.modGroup e.1 (fun g =>
            { g.swapBanks with threads := mmap (fun _ th =>
                if th.atXbar then (th.wake now).meet vc else th) g.threads })) s)
      else none

/-- Whether a thread waits at instance `n` of its launch's barrier. -/
def Thread.atLbar (n : Nat) (th : Thread) : Bool := match th.wait with | .lbar m => m == n | _ => false

/-- The groups of a kernel that have not retired. -/
def kernelGroups (s : State) (kid : Nat) : List (Nat × Group) := s.groups.filter (fun e => e.2.kid == kid && !e.2.isRetired)

/-- Whether every live thread of every started group of a launch waits at instance `n`, and one does. -/
def allAtLbar (s : State) (kid n : Nat) : Bool :=
  let gs := kernelGroups s kid
  gs.any (fun e => e.2.threads.any (fun t => t.2.live && t.2.atLbar n)) &&
    gs.all (fun e => (match e.2.loc with | .placed _ _ => true | _ => false) ||
      e.2.threads.all (fun t => !t.2.live || t.2.atLbar n))

/-- Whether every group of a kernel has started. -/
def allStarted (s : State) (kid : Nat) (k : Kernel) : Bool :=
  k.nextGrp == k.groupCount && (kernelGroups s kid).all (fun e => match e.2.loc with | .placed _ _ => false | _ => true)

/-- R358: instance k of a launch's barrier completes: every k-th LBAR is released. -/
def completeLbar (s : State) (kid : Nat) (k : Kernel) : State :=
  let n := k.lbarAt
  let vc := (kernelGroups s kid).foldl (fun c e => clocksOf e.2 (Thread.atLbar n) c) k.vc
  let s := { s with kernels := mset s.kernels kid { k with lbarAt := n + 1, mergePending := false, vc := [] } }
  (kernelGroups s kid).foldl (fun s e =>
    let now := readyNow s e.2
    s.modGroup e.1 (fun g => { g with threads := mmap (fun _ th =>
      if th.live && th.atLbar n then (th.wake now).meet vc else th) g.threads })) s

/-- Whether something that belongs to the current merge interval of a launch has yet to perform: an engine operation, a matrix
operation, a store of a hart that waits for a merge entry. An engine write takes the place of the instruction that issued it
(R273), so the interval stays open for it (log 83). -/
def intervalOpen (s : State) (kid : Nat) : Bool :=
  let of (gid : Nat) : Bool := match s.group gid with | some g => g.kid == kid | none => false
  s.ops.any (fun o => o.2.gid.any of) || s.mxops.any (fun o => of o.2.gid && o.2.stage != .applied) ||
  s.groups.any (fun e => e.2.kid == kid && e.2.hart.status == .held)

/-- R358: completes one launch barrier, or asks for its merge. -/
def settleLbar (s : State) (kid : Nat) (k : Kernel) : Option State :=
  if k.mergePending || !allStarted s kid k || !allAtLbar s kid k.lbarAt then none
  else if s.level k.cid = 0 then some (completeLbar s kid k)
  else if intervalOpen s kid then none
  else some { s with kernels := mset s.kernels kid { k with mergePending := true } }

/-! ## Claims and other waits -/

/-- R236: grants the claim at the head of one lane's queue. -/
def settleClaim (s : State) (gid : Nat) (g : Group) : Option State :=
  firstOf (fun lane (l : List (Nat × Nat)) =>
    match l with
    | [] => none
    | (t, n) :: rest =>
      if n ≤ mgetD g.reserve lane 0 then
        some (s.modGroup gid (fun g =>
          ({ g with reserve := mset g.reserve lane (mgetD g.reserve lane 0 - n), claims := mset g.claims lane rest }).modThread t
            (fun th => { th.wake (readyNow s g) with quota := th.quota + n })))
      else none) g.claims

/-- R56: whether the operations of the drained kinds that a thread issued are complete. A store queued for the merge at levels 1
and 2 is complete for `st` once it is queued (log 115). -/
def drained (s : State) (gid t : Nat) (hz : BitVec 8) : Bool :=
  let mine (p : EngKind → Bool) : Bool := s.ops.any (fun e => e.2.gid == some gid && e.2.thread == some t && p e.2.kind)
  (!hz.getLsbD 0 || !mine (fun k => match k with | .gath .. => true | _ => false)) &&
  (!hz.getLsbD 4 || !mine (fun k => match k with | .copy .. => true | _ => false)) &&
  (!hz.getLsbD 3 || (!mine (fun k => match k with | .tld .. => true | .tst .. => true | _ => false) &&
    !s.mxops.any (fun e => e.2.gid == gid && e.2.stage != .applied &&
      (match e.2.kind with | .mmaa st => st.peers.contains t | _ => false))))

/-- Whether a thread that waits to issue its slot again may do so now. -/
def wakes (s : State) (gid : Nat) (g : Group) (t : Nat) (th : Thread) : Bool :=
  match th.wait with
  | .barw n p => phasePast (mgetD g.bars n Barrier.zero).ph p
  | .tlwait c n => decide (n ≤ (g.engCtx c).tl)
  | .mwait x n => decide (n ≤ (g.engCtx (4 + x)).tl)
  | .cbwait off p => phasePast (BitVec.ofNat 32 (leNat (g.spGet (off + 4) 4))) p
  | .uq => (uqHead g th).isSome
  | .drain hz => drained s gid t hz
  | .hazard => !groupHeld s gid
  | .tokens => !(s.part (vfOf g.cid)).limited
  | _ => false

/-- Wakes the threads of a group whose condition holds. -/
def settleWaits (s : State) (gid : Nat) (g : Group) : Option State :=
  if g.threads.any (fun e => e.2.live && wakes s gid g e.1 e.2) then
    let now := readyNow s g
    some (s.setGroup gid { g with threads := mmap (fun t th =>
      if th.live && wakes s gid g t th then th.again now else th) g.threads })
  else none

/-- R253: frees the queue entries that every live thread has passed. -/
def settleUq (s : State) (gid : Nat) (g : Group) : Option State :=
  match g.threads.filter (fun e => e.2.live) with
  | [] => none
  | e :: l =>
    let m := l.foldl (fun m x => min m x.2.uqpos) e.2.uqpos
    if g.uqFreed < m ∧ g.uq ≠ [] then
      some (s.setGroup gid { g with uq := g.uq.drop (m - g.uqFreed), uqFreed := m })
    else none

/-! ## Retirement -/

/-- Whether a tile task that a group issued is not complete. -/
def taskRuns (s : State) (gid : Nat) : Bool :=
  s.ops.any (fun e => e.2.gid == some gid && (match e.2.kind with | .task .. => true | _ => false))

/-- R346: the end of a group: its slot, storage, reserves, hart and image are free. -/
def retireGroup (s : State) (gid : Nat) (g : Group) : State :=
  let s := match g.loc with
    | .resident c sl => s.setCore c { s.core c with slots := mdel (s.core c).slots sl }
    | .retiring c sl => s.setCore c { s.core c with slots := mdel (s.core c).slots sl }
    | _ => s
  let s := s.setGroup gid { g with loc := .retired, reserve := [], claims := [], hart := { g.hart with status := .off } }
  match s.kernel g.kid with
  | some k => { s with kernels := mset s.kernels g.kid { k with retired := k.retired + 1 } }
  | none => s

/-- R332, R346: a group whose threads have all exited retires, once its tile tasks are complete and no store of its hart waits
for a merge entry (R416). -/
def settleRetire (s : State) (gid : Nat) (g : Group) : Option State :=
  if g.live ≠ [] ∨ g.hart.status = .held then none
  else
    match g.loc with
    | .resident c sl =>
      if taskRuns s gid then some (s.setGroup gid { g with loc := .retiring c sl }) else some (retireGroup s gid g)
    | .retiring _ _ => if taskRuns s gid then none else some (retireGroup s gid g)
    | _ => none

/-! ## Deadlocks -/

/-- Whether a thread waits at BAR, BARW or XBAR. -/
def Thread.atBarrier (th : Thread) : Bool :=
  match th.wait with | .bar .. => true | .barw .. => true | .xbar => true | _ => false

/-- Whether a thread waits at LBAR. -/
def Thread.atAnyLbar (th : Thread) : Bool := match th.wait with | .lbar _ => true | _ => false

/-- Whether a thread waits at a JOIN or a collective. -/
def Thread.atJoin (th : Thread) : Bool := match th.wait with | .join .. => true | .coll .. => true | _ => false

/-- The number that a barrier deadlock reports (R244). -/
def Thread.barrierNo (th : Thread) : W32 :=
  match th.wait with
  | .bar n _ => BitVec.ofNat 32 n | .barw n _ => BitVec.ofNat 32 n | .xbar => 16#32 | _ => 17#32

/-- The members that a thread at a JOIN or collective waits for. -/
def waitsFor (s : State) (g : Group) (t : Nat) (th : Thread) : List Nat :=
  match th.wait with
  | .join inst _ => ((mget g.regions inst).map (fun r => r.members.filter (fun u => !r.arrived.contains u))).getD []
  | .coll .. => (collMates s g th).filter (fun u => u != t && !(match mget g.threads u with
      | some w => w.atJoin && w.pc = th.pc && w.repNo == th.repNo && (w.arrOf 64 u).isSome | none => false))
  | _ => []

/-- R114: whether a member that is waited for can no longer come, given the waiting members `m`. -/
def stuckMember (g : Group) (m : List Nat) (u : Nat) : Bool :=
  m.contains u ||
    (match mget g.threads u with
     | some w =>
       (match w.wait with
        | .xbar => m != []
        | .lbar _ => m != []
        | .bar _ _ => g.threads.all (fun e => !e.2.live || m.contains e.1 || e.2.atBarrier || e.2.atAnyLbar)
        | .barw _ _ => g.threads.all (fun e => !e.2.live || m.contains e.1 || e.2.atBarrier || e.2.atAnyLbar)
        | _ => false)
     | none => false)

/-- R114: the waiting members that wait only for members that cannot come. -/
def mismatched (s : State) (g : Group) : Nat → List Nat → List Nat
  | 0, m => m
  | n + 1, m =>
    let m' := m.filter (fun t => match mget g.threads t with
      | some th => (waitsFor s g t th).all (stuckMember g m)
      | none => false)
    if m'.length = m.length then m else mismatched s g n m'

/-- R114: raises `collective-mismatch`. -/
def settleMismatch (s : State) (gid : Nat) (g : Group) : Option State :=
  let w := (g.threads.filter (fun e => e.2.live && e.2.atJoin)).map (·.1)
  if w = [] then none
  else
    let m := mismatched s g (w.length + 1) w
    if m = [] then none else some (trapWaiting s gid m .collectiveMismatch (fun _ => 0#32))

/-- R166, R357: raises `barrier-deadlock` on a cluster or a group. -/
def settleBarDead (s : State) (gid : Nat) (g : Group) : Option State :=
  match s.kernel g.kid with
  | none => none
  | some k =>
    let stuck (g : Group) : Bool := g.live != [] && g.threads.all (fun e => !e.2.live || e.2.atBarrier)
    let cl := clusterGroups s k g
    let mixed := g.threads.any (fun e => e.2.live && !e.2.atXbar)
    if !stuck g then none
    else if cl.all (fun e => e.2.live == [] || stuck e.2) && cl.any (fun e => e.2.threads.any (fun t => t.2.live && !t.2.atXbar))
        && cl.all (fun e => match e.2.loc with | .placed _ _ => false | _ => true) then
      some (cl.foldl (fun s e => trapWaiting s e.1 e.2.live .barrierDeadlock Thread.barrierNo) s)
    else if mixed then some (trapWaiting s gid g.live .barrierDeadlock Thread.barrierNo)
    else none

/-- Whether a thread waits in QCLM. -/
def Thread.claiming (th : Thread) : Option Nat := match th.wait with | .claim n => some n | _ => none

/-- R236: raises `claim-deadlock`. -/
def settleClaimDead (s : State) (gid : Nat) (g : Group) : Option State :=
  let ts := (g.threads.filter (fun e => e.2.live && e.2.claiming.isSome)).map (·.1)
  if ts = [] then none
  else if g.threads.all (fun e => !e.2.live || (match e.2.wait with
      | .claim _ => true | .bar .. => true | .barw .. => true | .join .. => true | .coll .. => true
      | .stop .claimDeadlock _ => true | _ => false)) then
    some (trapWaiting s gid ts .claimDeadlock (fun th => BitVec.ofNat 32 (th.claiming.getD 0)))
  else none

/-- The number of 1 bits of the quadrant mask. -/
def quadCount (m : BitVec 16) : Nat := (upFrom 0 16).countP m.getLsbD

/-- R336: the images of a partition's save pool. -/
def poolImages (s : State) (vf : Nat) : Nat := 32 * 16 * quadCount (s.part vf).qmask

/-- The groups of a partition that hold an image: placed and not retired. -/
def heldImages (s : State) (vf : Nat) : Nat := s.groups.countP (fun e => vfOf e.2.cid == vf && !e.2.isRetired)

/-- R345: raises `barrier-deadlock` on the threads of a group that wait at LBAR instance `n`. -/
def raiseLbarDead (s : State) (gid : Nat) (g : Group) (n : Nat) : State :=
  trapWaiting s gid ((g.threads.filter (fun t => t.2.live && t.2.atLbar n)).map (·.1)) .barrierDeadlock (fun _ => 17#32)

/-- R345: a launch whose groups hold every image deadlocks at its barrier: the groups on a core raise it, those evicted when
they are restored. -/
def settleLbarDead (s : State) (kid : Nat) (k : Kernel) : Option State :=
  let vf := vfOf k.cid
  let gs := kernelGroups s kid
  if !k.mergePending && decide (k.nextGrp < k.groupCount) && allAtLbar s kid k.lbarAt &&
      gs.all (fun e => match e.2.loc with | .placed _ _ => false | _ => true) &&
      decide (poolImages s vf ≤ gs.length) && gs.any (fun e => !e.2.lbarDead) then
    some (gs.foldl (fun s e =>
      if e.2.core.isSome then raiseLbarDead s e.1 e.2 k.lbarAt
      else s.modGroup e.1 (fun g => { g with lbarDead := true })) s)
  else none

/-! ## The whole -/

/-- The first completion that stands open, in a fixed order. -/
def settleOnce (s : State) : Option State :=
  let onG (p : State → Nat → Group → Option State) : Option State := firstOf (fun gid g => p s gid g) s.groups
  let onK (p : State → Nat → Kernel → Option State) : Option State := firstOf (fun kid k => p s kid k) s.kernels
  (((((((((((onG settleJoin).or (onG settleColl)).or (onG settleBar)).or (onG settleXbar)).or (onK settleLbar)).or
    (onG settleClaim)).or (onG settleWaits)).or (onG settleUq)).or (onG settleRetire)).or (onG settleMismatch)).or
    (onG settleBarDead)).or ((onG settleClaimDead).or (onK settleLbarDead))

/-- Completions one after the other, at most `n`. -/
def settleN : Nat → State → State
  | 0, s => s
  | n + 1, s => match settleOnce s with | some s' => settleN n s' | none => s

/-- What the K7 completes after a step. What is still open after 4,096 completions waits for the next step. -/
def settleAll (s : State) : State := settleN 4096 s

end Sys2Proof.Machine
end

