-- ==== Sys2Proof/Machine/Clause.lean ====
section
/-! DEFINITION. The meanings of the events of a thread's stream: clause entry (R54-R59), REP (R71), the emulation vector
(R245), results and windows (R69), the handler budget (R242) and held accesses (R416). -/
namespace Sys2Proof.Machine

/-! ## Clause entry -/

/-- The drain bits that cover a kind (R56). -/
def DrainKind.bits : DrainKind → List Nat
  | .ld => [0] | .lsp => [0, 2] | .st => [1] | .sp => [2] | .mx => [3] | .cp => [4] | .fs => [5] | .la => [6] | .uq => [7]
  | .alu => []

/-- Whether a drain mask covers an outstanding result. -/
def Pend.drainedBy (hz : BitVec 8) (p : Pend) : Bool := p.kind.bits.any hz.getLsbD

/-- The innermost region of a thread with a join identifier (R57, R113). -/
def Group.innermost (g : Group) (th : Thread) (jid : BitVec 8) : Option Nat :=
  th.regions.find? (fun n => match mget g.regions n with | some r => r.jid == jid | none => false)

/-- R113: thread `t` leaves the instances above `inst` and arrives at it. -/
def Group.arriveJoin (g : Group) (t inst : Nat) (entry : Bool) : Group :=
  match mget g.threads t with
  | none => g
  | some th =>
    let above := th.regions.takeWhile (· != inst)
    let drop (r : Region) : Region :=
      { r with members := r.members.filter (· != t), entered := r.entered.filter (· != t), arrived := r.arrived.filter (· != t) }
    let regions := above.foldl (fun m n => mmodify m n drop) g.regions
    let regions := mmodify regions inst (fun r => { r with arrived := r.arrived ++ [t] })
    { g with regions := regions.filter (fun e => e.2.members != []) }.setThread t
      { th.outside with regions := th.regions.dropWhile (· != inst), wait := .join inst entry }

/-- CLAUSE_ENTRY (R54, R56, R57): the checks, the drain, the `cv` JOIN; then the thread is in the clause with invalid
latches. -/
def execClauseEntry (s : State) : Host.Outcome State Fault Refusal :=
  runSlot (fun e => do
    let head := pcHead e.th.pc
    let slot := pcSlot e.th.pc
    let (h, s1) ← liftE (fetchWord e.s e.g.coreN e.g.cid head)
    let (ws, s2) ← liftE (fetchWords s1 e.g.coreN e.g.cid (head + 8#64) (hdCnt h + 1))
    set s2
    match clauseSlots (decodeVia (s2.bankOn (e.g.coreN / 64) e.g.cid)) h ws with
    | none => raise .illegalEncoding 0#64 0#32
    | some slots =>
      if !slots.getD slot false then raise .illegalEncoding 0#64 0#32
      else do
        modTh e (fun th => th.flushFor (Pend.drainedBy (hdHz h)))
        if !drained e.s e.cur.gid e.cur.t (hdHz h) then exc (.block (.drain (hdHz h)))
        else
          match if hdCv h && slot == 0 && !e.th.cvDone then e.g.innermost e.th (hdJid h) else none with
          | some inst => modG e (fun g => g.arriveJoin e.cur.t inst true)
          | none => modTh e (fun th => { th with inside := true, l0 := none, l1 := none })) s

/-! ## REP -/

/-- REP (R71): its checks; the thread goes to the target with repetition 0. -/
def execRep (r : RepFields) (s : State) : Host.Outcome State Fault Refusal :=
  runSlot (fun e => do
    let (w, s1) ← liftE (fetchWord e.s e.g.coreN e.g.cid (e.cur.head + BitVec.ofNat 64 (16 + 8 * pcSlot e.cur.pc)))
    set s1
    let d := decodeVia (s1.bankOn (e.g.coreN / 64) e.g.cid) w
    if repTargetOk e.g r w d then
      modTh e (fun th => { th with
        pc := pcOf e.cur.head e.cur.cnt (pcSlot e.cur.pc + 1), rep := some ⟨0, r.rc.toNat, r.sd, r.sa, r.sb, r.sc⟩ })
    else raise .illegalEncoding 0#64 0#32) s

/-! ## The emulation vector -/

/-- R246: the mask of the threads of T's subgroup that share this execution of the slot. -/
def Env.peerMask (e : Env) : W64 :=
  e.cur.mates.foldl (fun m t => match mget e.g.threads t with
    | some th => if th.sg == e.th.sg then m ||| (1#64 <<< th.sgt) else m
    | none => m) 0#64

/-- EMULATION_VECTOR (R245): nothing is read, freed or popped; the window opens and the thread goes to `sys.evec`. With no
handler the slot traps `emulate` (R304). -/
def execEmulationVector (why : BitVec 2) (w : W64) (s : State) : Host.Outcome State Fault Refusal :=
  runSlot (fun e => do
    let evec := (e.s.ctx e.g.cid).evec
    let f := fieldsAt w
    if evec = 0#64 then raise .emulate 0#64 (BitVec.ofNat 32 (opAt w))
    else if 2 ≤ e.th.windows.length then raise .nestedEmulation 0#64 (BitVec.ofNat 32 (opAt w))
    else
      let win : EmuWindow :=
        { word := w, lits := e.cur.lits, l0 := e.th.l0, l1 := e.th.l1, guard := guardOf f e.th, peers := e.peerMask,
          pc := e.cur.pc, next := e.cur.next, nextRep := e.cur.nextRep, here := e.th.rep, rep := e.cur.k, why := why, uqVals := none,
          popped := false, released := false }
      modTh e (fun th => { th.flush with windows := th.windows ++ [win] })
      modG e (fun g => (g.park e.cur.t e.cur.inst).modThread e.cur.t
        (fun th => { th with pc := evec, rep := none, retry := false }))) s

/-! ## Results, budgets, held accesses -/

/-- RESULT_RETURN (R69): the oldest outstanding result whose window is over is written. -/
def execResultReturn (gid t : Nat) (s : State) : Host.Outcome State Fault Refusal :=
  .next (s.modThread gid t Thread.returnOne)

/-- Whether a thread stands inside an instruction whose arrival has taken effect: its next instruction boundary is where that
wait ends (R242, R352; log 84). -/
def Wait.arrived : Wait → Bool
  | .bar .. => true | .xbar => true | .lbar _ => true | .join .. => true | .coll .. => true | .claim _ => true
  | _ => false

/-- Whether a thread stands at an instruction boundary with its handler budget spent (R242). -/
def overBudget (s : State) (g : Group) (th : Thread) : Bool :=
  let b := (s.ctx g.cid).hbudget
  th.live && th.msk && b != 0#32 && decide (b.toNat ≤ th.hcount.toNat) &&
    (match th.wait with | .stop .. => false | w => !w.arrived)

/-- HANDLER_OVERRUN (R242): Stop at the thread's program counter. -/
def execHandlerOverrun (gid t : Nat) (s : State) : Host.Outcome State Fault Refusal :=
  match s.group gid, s.thread gid t with
  | some g, some th =>
    if overBudget s g th then
      .next (stopThread (s.modThread gid t Thread.flush) gid t .handlerOverrun th.pc 0#64 0#32)
    else .next s
  | _, _ => .next s

/-- HELD_ACCESS_PERFORM (R416): the access held for a merge entry is made again; it is held again while none is free. -/
def execHeldAccessPerform (gid t : Nat) (s : State) : Host.Outcome State Fault Refusal :=
  match s.group gid, s.thread gid t with
  | some g, some th => match th.wait with
    | .held => .next (s.setThread gid t (th.again (readyNow s g)))
    | _ => .next s
  | _, _ => .next s

end Sys2Proof.Machine
end

