-- ==== Sys2Proof/Machine/Crypto.lean ====
section
/-! DEFINITION. The cryptography that the manual names: SHA-512 (R420, R421), HKDF-SHA-512 of RFC 5869 (R425), and ECDSA and
ECDH on P-521 with the octet strings of SEC 1 (R303, R422, R425). PRESUMED: the manual names these standards and does not
restate them (log 12). -/
namespace Sys2Proof.Machine

/-! ## Octet strings (R422: big-endian) -/

/-- The `n` bytes of a number, highest first. -/
def beBytes (n v : Nat) : List Byte := (leBytes n v).reverse

/-- The number whose bytes, highest first, are `bs`. -/
def beNat (bs : List Byte) : Nat := leNat bs.reverse

/-! ## SHA-512 -/

/-- Round constants 0 to 19. -/
def shaK0 : List W64 :=
  [0x428A2F98D728AE22#64, 0x7137449123EF65CD#64, 0xB5C0FBCFEC4D3B2F#64, 0xE9B5DBA58189DBBC#64,
   0x3956C25BF348B538#64, 0x59F111F1B605D019#64, 0x923F82A4AF194F9B#64, 0xAB1C5ED5DA6D8118#64,
   0xD807AA98A3030242#64, 0x12835B0145706FBE#64, 0x243185BE4EE4B28C#64, 0x550C7DC3D5FFB4E2#64,
   0x72BE5D74F27B896F#64, 0x80DEB1FE3B1696B1#64, 0x9BDC06A725C71235#64, 0xC19BF174CF692694#64,
   0xE49B69C19EF14AD2#64, 0xEFBE4786384F25E3#64, 0x0FC19DC68B8CD5B5#64, 0x240CA1CC77AC9C65#64]

/-- Round constants 20 to 39. -/
def shaK1 : List W64 :=
  [0x2DE92C6F592B0275#64, 0x4A7484AA6EA6E483#64, 0x5CB0A9DCBD41FBD4#64, 0x76F988DA831153B5#64,
   0x983E5152EE66DFAB#64, 0xA831C66D2DB43210#64, 0xB00327C898FB213F#64, 0xBF597FC7BEEF0EE4#64,
   0xC6E00BF33DA88FC2#64, 0xD5A79147930AA725#64, 0x06CA6351E003826F#64, 0x142929670A0E6E70#64,
   0x27B70A8546D22FFC#64, 0x2E1B21385C26C926#64, 0x4D2C6DFC5AC42AED#64, 0x53380D139D95B3DF#64,
   0x650A73548BAF63DE#64, 0x766A0ABB3C77B2A8#64, 0x81C2C92E47EDAEE6#64, 0x92722C851482353B#64]

/-- Round constants 40 to 59. -/
def shaK2 : List W64 :=
  [0xA2BFE8A14CF10364#64, 0xA81A664BBC423001#64, 0xC24B8B70D0F89791#64, 0xC76C51A30654BE30#64,
   0xD192E819D6EF5218#64, 0xD69906245565A910#64, 0xF40E35855771202A#64, 0x106AA07032BBD1B8#64,
   0x19A4C116B8D2D0C8#64, 0x1E376C085141AB53#64, 0x2748774CDF8EEB99#64, 0x34B0BCB5E19B48A8#64,
   0x391C0CB3C5C95A63#64, 0x4ED8AA4AE3418ACB#64, 0x5B9CCA4F7763E373#64, 0x682E6FF3D6B2B8A3#64,
   0x748F82EE5DEFB2FC#64, 0x78A5636F43172F60#64, 0x84C87814A1F0AB72#64, 0x8CC702081A6439EC#64]

/-- Round constants 60 to 79. -/
def shaK3 : List W64 :=
  [0x90BEFFFA23631E28#64, 0xA4506CEBDE82BDE9#64, 0xBEF9A3F7B2C67915#64, 0xC67178F2E372532B#64,
   0xCA273ECEEA26619C#64, 0xD186B8C721C0C207#64, 0xEADA7DD6CDE0EB1E#64, 0xF57D4F7FEE6ED178#64,
   0x06F067AA72176FBA#64, 0x0A637DC5A2C898A6#64, 0x113F9804BEF90DAE#64, 0x1B710B35131C471B#64,
   0x28DB77F523047D84#64, 0x32CAAB7B40C72493#64, 0x3C9EBE0A15C9BEBC#64, 0x431D67C49C100D4C#64,
   0x4CC5D4BECB3E42B6#64, 0x597F299CFC657E2A#64, 0x5FCB6FAB3AD6FAEC#64, 0x6C44198C4A475817#64]

/-- The initial hash value. -/
def shaInit : List W64 :=
  [0x6A09E667F3BCC908#64, 0xBB67AE8584CAA73B#64, 0x3C6EF372FE94F82B#64, 0xA54FF53A5F1D36F1#64,
   0x510E527FADE682D1#64, 0x9B05688C2B3E6C1F#64, 0x1F83D9ABFB41BD6B#64, 0x5BE0CD19137E2179#64]

def shaS0 (x : W64) : W64 := x.rotateRight 28 ^^^ x.rotateRight 34 ^^^ x.rotateRight 39
def shaS1 (x : W64) : W64 := x.rotateRight 14 ^^^ x.rotateRight 18 ^^^ x.rotateRight 41
def shaT0 (x : W64) : W64 := x.rotateRight 1 ^^^ x.rotateRight 8 ^^^ (x >>> 7)
def shaT1 (x : W64) : W64 := x.rotateRight 19 ^^^ x.rotateRight 61 ^^^ (x >>> 6)

/-- One more word of the message schedule, from the last sixteen (newest first). -/
def shaNext (l : List W64) : W64 := shaT1 (l.getD 1 0#64) + l.getD 6 0#64 + shaT0 (l.getD 14 0#64) + l.getD 15 0#64

/-- The schedule, newest word first, grown by `n` words. -/
def shaGrow : Nat → List W64 → List W64
  | 0, l => l
  | n + 1, l => shaGrow n (shaNext l :: l)

/-- One round on the eight working variables. -/
def shaRound (v : List W64) (kw : W64 × W64) : List W64 :=
  match v with
  | [a, b, c, d, e, f, g, h] =>
    let t1 := h + shaS1 e + ((e &&& f) ^^^ (~~~e &&& g)) + kw.1 + kw.2
    let t2 := shaS0 a + ((a &&& b) ^^^ (a &&& c) ^^^ (b &&& c))
    [t1 + t2, a, b, c, d + t1, e, f, g]
  | v => v

/-- The hash value after a block of sixteen words. -/
def shaBlock (h : List W64) (ws : List W64) : List W64 :=
  let sched := (shaGrow 64 ws.reverse).reverse
  let v := ((shaK0 ++ shaK1 ++ shaK2 ++ shaK3).zip sched).foldl shaRound h
  List.zipWith (· + ·) h v

/-- `n` blocks of the padded message. -/
def shaBlocks : Nat → List Byte → List W64 → List W64
  | 0, _, h => h
  | n + 1, bs, h =>
    shaBlocks n (bs.drop 128) (shaBlock h ((upFrom 0 16).map (fun i => BitVec.ofNat 64 (beNat ((bs.drop (8 * i)).take 8)))))

/-- The message with its padding: a one bit, zeros, and its length in bits. -/
def shaPad (bs : List Byte) : List Byte :=
  bs ++ 0x80#8 :: List.replicate ((239 - bs.length % 128) % 128) 0#8 ++ beBytes 16 (8 * bs.length)

/-- SHA-512 as the 64 bytes of the digest. -/
def sha512Bytes (bs : List Byte) : List Byte :=
  let p := shaPad bs
  (shaBlocks (p.length / 128) p shaInit).flatMap (fun w => beBytes 8 w.toNat)

/-- SHA-512, its first byte in bits [7:0] (R4). -/
def sha512 (bs : List Byte) : BitVec 512 := BitVec.ofNat 512 (leNat (sha512Bytes bs))

/-! ## HKDF-SHA-512 -/

/-- HMAC-SHA-512. -/
def hmac (key msg : List Byte) : List Byte :=
  let k := ((if 128 < key.length then sha512Bytes key else key) ++ List.replicate 128 0#8).take 128
  sha512Bytes (k.map (· ^^^ 0x5C#8) ++ sha512Bytes (k.map (· ^^^ 0x36#8) ++ msg))

/-- The blocks T(i), T(i+1), … of the expansion. -/
def hkdfBlocks (prk info : List Byte) : Nat → Nat → List Byte → List Byte
  | 0, _, _ => []
  | n + 1, i, last =>
    let t := hmac prk (last ++ info ++ [BitVec.ofNat 8 i])
    t ++ hkdfBlocks prk info n (i + 1) t

/-- HKDF (R425): secret, salt, info string, length. -/
def hkdf (secret salt info : List Byte) (len : Nat) : List Byte :=
  (hkdfBlocks (hmac salt secret) info ((len + 63) / 64) 1 []).take len

/-! ## P-521 -/

/-- The field's prime. -/
def ecP : Nat := 2 ^ 521 - 1
/-- The curve's coefficient b; its a is -3. -/
def ecB : Nat :=
  0x51953EB9618E1C9A1F929A21A0B68540EEA2DA725B99B315F3B8B489918EF109E156193951EC7E937B1652C0BD3BB1BF073573DF883D2C34F1EF451FD46B503F00
/-- The order of the base point. -/
def ecN : Nat :=
  0x01FFFFFFFFFFFFFFFFFFFFFFFFFFFFFFFFFFFFFFFFFFFFFFFFFFFFFFFFFFFFFFFFFA51868783BF2F966B7FCC0148F709A5D03BB5C9B8899C47AEBB6FB71E91386409

/-- A point: none is the point at infinity. -/
abbrev EcPoint := Option (Nat × Nat)

/-- The base point. -/
def ecG : EcPoint := some
  (0x00C6858E06B70404E9CD9E3ECB662395B4429C648139053FB521F828AF606B4D3DBAA14B5E77EFE75928FE1DC127A2FFA8DE3348B3C1856A429BF97E7E31C2E5BD66,
   0x011839296A789A3BC0045C8A5FB42C7D1BD998F54449579B446817AFBD17273E662C97EE72995EF42640C550B9013FAD0761353C7086A272C24088BE94769FD16650)

/-- b^e modulo m, over the `n` lowest bits of e. -/
def powMod (m : Nat) : Nat → Nat → Nat → Nat → Nat
  | 0, _, _, acc => acc
  | n + 1, b, e, acc => powMod m n (b * b % m) (e / 2) (if e % 2 = 1 then acc * b % m else acc)

/-- The inverse modulo a prime of at most 521 bits. -/
def invMod (m x : Nat) : Nat := powMod m 521 (x % m) (m - 2) 1

/-- The sum of two points. -/
def ecAdd (a b : EcPoint) : EcPoint :=
  match a, b with
  | none, q => q
  | p, none => p
  | some (x1, y1), some (x2, y2) =>
    if x1 = x2 ∧ (y1 + y2) % ecP = 0 then none
    else
      let l := if x1 = x2 then (3 * x1 * x1 + (ecP - 3)) * invMod ecP (2 * y1) % ecP
        else (y2 + (ecP - y1)) * invMod ecP (x2 + (ecP - x1)) % ecP
      let x := (l * l + (ecP - x1) + (ecP - x2)) % ecP
      some (x, (l * (x1 + (ecP - x)) + (ecP - y1)) % ecP)

/-- The multiple k·q, over the `n` lowest bits of k. -/
def ecMulBits : Nat → Nat → EcPoint → EcPoint → EcPoint
  | 0, _, _, acc => acc
  | n + 1, k, q, acc => ecMulBits n (k / 2) (ecAdd q q) (if k % 2 = 1 then ecAdd acc q else acc)

/-- The multiple k·q of a point. -/
def ecMul (k : Nat) (q : EcPoint) : EcPoint := ecMulBits 521 k q none

/-- A point as 133 bytes: 0x04, X, Y (R422). -/
def ecBytes (q : EcPoint) : List Byte :=
  match q with
  | some (x, y) => 0x04#8 :: (beBytes 66 x ++ beBytes 66 y)
  | none => List.replicate 133 0#8

/-- The point that 133 bytes name, if they name one of the curve (R303). -/
def ecPoint (bs : List Byte) : EcPoint :=
  let x := beNat ((bs.drop 1).take 66)
  let y := beNat ((bs.drop 67).take 66)
  if bs.length = 133 ∧ bs.head? = some 0x04#8 ∧ x < ecP ∧ y < ecP ∧
      y * y % ecP = (x * x * x + (ecP - 3) * x + ecB) % ecP then some (x, y) else none

/-- A private key drawn from the random source: 1 to n - 1. -/
def ecKey (seed : Nat) : Nat := 1 + seed % (ecN - 1)

/-- The shared secret of ECDH (R425): the 66-byte X coordinate. -/
def ecdh (key : Nat) (q : EcPoint) : List Byte := beBytes 66 (match ecMul key q with | some (x, _) => x | none => 0)

/-- The digest of SHA-512 as the number that ECDSA signs. -/
def digestNat (bs : List Byte) : Nat := beNat (sha512Bytes bs)

/-- ECDSA (R422): r and s, 66 bytes each, over the SHA-512 hash of a message, with a private key and a nonce. -/
def ecdsaSign (key nonce : Nat) (msg : List Byte) : List Byte :=
  let r := match ecMul nonce ecG with | some (x, _) => x % ecN | none => 0
  beBytes 66 r ++ beBytes 66 (invMod ecN nonce * (digestNat msg + r * key) % ecN)

/-- The check of an ECDSA signature of 132 bytes over the SHA-512 hash of a message (R420). -/
def ecdsaOk (pub : EcPoint) (msg sig : List Byte) : Bool :=
  let r := beNat (sig.take 66)
  let s := beNat (sig.drop 66)
  let w := invMod ecN s
  sig.length == 132 && decide (0 < r) && decide (r < ecN) && decide (0 < s) && decide (s < ecN) &&
    (match ecAdd (ecMul (digestNat msg * w % ecN) ecG) (ecMul (r * w % ecN) pub) with
     | some (x, _) => x % ecN == r
     | none => false)

end Sys2Proof.Machine
end

