-- ==== Sys2Proof/Machine/Block.lean ====
section
/-! DEFINITION. The shape of blocking points (R59, R134, R341): a thread that arrives leaves its issue group; what its slot
frees and pops is owed until the wait ends. -/
namespace Sys2Proof.Machine

/-- Runs a computation on a copy of the current thread: its answer, and the copy. -/
def onCopy {α : Type} (e : Env) (m : ThM α) : SlotM (α × Thread) := fun s =>
  match s.thread e.cur.gid e.cur.t with
  | none => .error (.fault .noThread)
  | some th => match m th with
    | .error x => .error x
    | .ok r => .ok (r, s)

/-- R59: past a blocking point, outside its issue group. -/
def endBlock (e : Env) : SlotM Unit := modTh e (fun th => (th.advance e.cur).outside)

/-- The thread waits; its slot's frees and pops are owed. -/
def waitAt (e : Env) (w : Wait) (rel : List Nat) (pops : Nat) : SlotM Unit :=
  modTh e (fun th =>
    { th.outside with wait := w, resume := e.cur.next, resumeRep := e.cur.nextRep, owedRel := rel, owedPop := pops,
                      retry := false })

/-- The check that the destination can be written when the wait ends (R66). -/
def dryWrite (en : Enc) (f : Fields) : ThM Unit :=
  match en.d with
  | .dst w => writeOp f.d w 0#64
  | _ => return ()

/-- The reads of an arrival, and the check of its write, on a copy: the sources and the pops they owe. -/
def arriveReads (e : Env) (en : Enc) (f : Fields) : SlotM (Bool × Srcs × Nat) := do
  let th ← getTh e
  let gd := guardOf f th
  let (x, th') ← onCopy e (do
    if gd then
      let x ← readSrcs e en f
      modify (fun th => th.release (marked en f))
      dryWrite en f
      return x
    else
      guardedOff e en f true
      return ⟨0#64, 0#64, 0#64, [], 0#64⟩)
  return (gd, x, th'.uqpos - th.uqpos)

/-- R134, R194: the arrival at a collective instruction. -/
def arriveColl (i : Instr) (f : Fields) (s : State) : Host.Outcome State Fault Refusal :=
  runInstr i f (fun e en => do
    let th ← getTh e
    let (gd, x, pops) ← arriveReads e en f
    let a : W64 := if aIsPred i then BitVec.ofNat 64 (bitN (th.predAt (predIx f.a))) else x.a
    waitAt e (.coll i a x.b x.c gd) (marked en f) pops) s

/-- A blocking point whose thread waits with something owed, or goes on at once: `m` answers with the wait, or none. -/
def arriveAt (i : Instr) (f : Fields) (m : Env → Srcs → SlotM (Option Wait)) (s : State) : Host.Outcome State Fault Refusal :=
  runInstr i f (fun e en => do
    let (gd, x, pops) ← arriveReads e en f
    if gd then
      match ← m e x with
      | some w => waitAt e w (marked en f) pops
      | none =>
        modTh e (fun th => { th.release (marked en f) with uqpos := th.uqpos + pops })
        endBlock e
    else
      modTh e (fun th => { th.release (marked en f) with uqpos := th.uqpos + pops })
      endBlock e) s

/-- The thread waits and issues its slot again: it stands as before the slot, but for the heads that its read has met, which
a later FENCE may acquire (R260). What the slot has stamped stays: its read has performed (R257). -/
def waitKeeping (e : Env) (w : Wait) : SlotM Unit :=
  modTh e (fun th => { e.th.outside with
    wait := w, cvDone := e.th.cvDone, retry := false, hb := { e.th.hb with seen := th.hb.seen } })

/-- A blocking point that issues again until its condition holds: `m` answers with the wait, or completes. -/
def runBlocking (i : Instr) (f : Fields) (m : Env → Enc → Srcs → SlotM (Option Wait)) (s : State) :
    Host.Outcome State Fault Refusal :=
  runInstr i f (fun e en => do
    let th ← getTh e
    if guardOf f th then
      let x ← onThread e (readSrcs e en f)
      modTh e (fun th => th.release (marked en f))
      onThread e (reserveD f.d (dstLen en.d))
      match ← m e en x with
      | some w => waitKeeping e w
      | none => endBlock e
    else
      onThread e (guardedOff e en f true)
      endBlock e) s

end Sys2Proof.Machine
end

