-- ==== Sys2Proof/Machine/Sync.lean ====
section
/-! DEFINITION. The meanings of the fences, barriers, timelines and waits (R163-R171, R352-R359). -/
namespace Sys2Proof.Machine

/-! ## Fences (R163, R164) -/

/-- A fence mask. -/
def maskOf (o : Operand) : BitVec 6 := (opBits o).setWidth 6

/-- Whether operations that a fence waits for are not complete: copies, gathers and collectives for CR and CW, and for CW tile
tasks that write a completion word; matrix steps and tile tasks for MR and MW (log 69). -/
def fenceWaits (s : State) (gid t : Nat) (pred : BitVec 6) : Bool :=
  let mine (p : EngKind → Bool) : Bool := s.ops.any (fun e => e.2.gid == some gid && e.2.thread == some t && p e.2.kind)
  ((pred.getLsbD 2 || pred.getLsbD 3) && mine EngKind.isCopyLike) || (pred.getLsbD 3 && mine EngKind.signals) ||
  ((pred.getLsbD 4 || pred.getLsbD 5) &&
    (mine (fun k => !k.isCopyLike) ||
     s.mxops.any (fun e => e.2.gid == gid && e.2.stage != .applied &&
       (match e.2.kind with | .mmaa st => st.peers.contains t | _ => false))))

/-- What a completed operation passes to a fence with a predecessor mask: the events of the kinds in it (R261). -/
def DoneOp.joins (d : DoneOp) (pred : BitVec 6) : Clock :=
  clockJoin (clockJoin (if pred.getLsbD (if d.mat then 4 else 2) then d.rd else [])
    (if pred.getLsbD (if d.mat then 5 else 3) then d.wr else [])) (if pred.getLsbD 3 then d.sig else [])

/-- R261: what a fence learns of the completed operations of its thread (`fj`). -/
def fenceJoins (s : State) (gid t : Nat) (g : Group) (pred : BitVec 6) : Clock :=
  let v : Clock := g.eng.foldl (fun v x =>
    x.2.done.foldl (fun v e => e.2.foldl (fun v d => if d.who.contains t then clockJoin v (d.joins pred) else v) v) v) []
  if pred.getLsbD 4 then
    s.mxops.foldl (fun v e => if e.2.gid == gid then (match e.2.kind with
      | .mmaa st => if st.peers.contains t then clockJoin v e.2.hb.now else v
      | _ => v) else v) v
  else v

/-- R260: a fence with R among the predecessors acquires the heads read so far; one with W among the successors covers what
the thread then knows. -/
def HbState.fenced (h : HbState) (p : Place) (sc : BitVec 3) (pred succ : BitVec 6) (fj : Clock) : HbState :=
  if pred = 0#6 ∨ succ = 0#6 then h
  else
    let h := h.learn fj
    let h := if pred.getLsbD 0 then
        h.seen.foldl (fun h x => if inScope x.2.1 x.2.2 p && inScope sc p x.2.2 then h.learn x.1 else h) h
      else h
    if succ.getLsbD 1 then
      ({ h with fence := (h.now, sc) :: h.fence.filter (fun x => decide (sc.toNat < x.2.toNat)) }).tick
    else h

/-- FENCE (R163): the waits are hazards. -/
def execFence (sc : BitVec 3) (f : Fields) (s : State) : Host.Outcome State Fault Refusal :=
  runGuarded (.fence sc f) f (fun e _ _ => do
    let pred := maskOf f.b
    let succ := maskOf f.c
    if fenceWaits e.s e.cur.gid e.cur.t pred then exc .stall
    else
      let fj := fenceJoins e.s e.cur.gid e.cur.t e.g pred
      modTh e (fun th => { th with hb := th.hb.fenced e.place sc pred succ fj })
      return 0#6) s

/-- IFENCE (R164): every fetch of this model sees memory as it stands. -/
def execIfence (f : Fields) (s : State) : Host.Outcome State Fault Refusal :=
  runGuarded (.ifence f) f (fun _ _ _ => return 0#6) s

/-- Whether copy operations that a thread issued on cp0 to cp3 are not complete (R164). -/
def copiesLeft (s : State) (gid t : Nat) : Bool :=
  s.ops.any (fun o => o.2.gid == some gid && o.2.thread == some t && decide (o.2.ectx < 4) &&
    (match o.2.kind with | .copy .. => true | .tld .. => true | .tst .. => true | _ => false))

/-- IFENCE_CP (R164): waits, as a hazard, for every copy operation of the thread. -/
def execIfenceCp (f : Fields) (s : State) : Host.Outcome State Fault Refusal :=
  runGuarded (.ifenceCp f) f (fun e _ _ => do
    if copiesLeft e.s e.cur.gid e.cur.t then exc .stall
    else return 0#6) s

/-! ## Group barriers (R165, R352) -/

/-- The barrier number of BAR, BARA and BARW. -/
def barNo (f : Fields) : Nat := (opBits f.a).toNat % 16

/-- R352: an arrival naming an expected count; none where it raises `illegal-operand`. -/
def Barrier.arrive (b : Barrier) (n : W32) (vc : Clock) : Option Barrier :=
  let b' (m : BarMode) : Barrier := { b with arr := b.arr + 1, mode := m, vc := clockJoin b.vc vc }
  if 2048 < n.toNat then none
  else match b.mode with
    | .unset => some (b' (if n = 0#32 then .live else .fixed n.toNat))
    | .live => if n = 0#32 then some (b' .live) else none
    | .fixed m => if n.toNat = m then some (b' (.fixed m)) else none

/-- The arrival of the current thread at a group barrier: the phase it arrived in. One that goes on leaves what it knows; what
one that waits knows is joined when the phase completes (R260). -/
def barArrive (e : Env) (n : Nat) (count : W32) (goesOn : Bool) : SlotM W32 := do
  let g ← getG e
  let th ← getTh e
  let b := mgetD g.bars n Barrier.zero
  match b.arrive count (if goesOn then th.hb.now else []) with
  | none => illegalOperand
  | some b' =>
    modG e (fun g => { g with bars := mset g.bars n b' })
    if goesOn then modTh e (fun th => { th with hb := th.hb.tick })
    return b.ph

/-- BAR (R165): arrives and waits for the phase to complete. -/
def execBar (f : Fields) (s : State) : Host.Outcome State Fault Refusal :=
  arriveAt (.bar f) f (fun e x => do
    let ph ← barArrive e (barNo f) x.b32 false
    return some (.bar (barNo f) ph)) s

/-- BARA (R165): arrives and goes on with the phase. -/
def execBara (f : Fields) (s : State) : Host.Outcome State Fault Refusal :=
  runGuarded (.bara f) f (fun e en x => do
    let ph ← barArrive e (barNo f) x.b32 true
    onThread e (putRes en f (.val (zext64 ph)))
    return 0#6) s

/-- BARW (R165, R353). -/
def execBarw (f : Fields) (s : State) : Host.Outcome State Fault Refusal :=
  runBlocking (.barw f) f (fun e _ x => do
    let b := mgetD e.g.bars (barNo f) Barrier.zero
    if phasePast b.ph x.b32 then
      modTh e (fun th => { th with hb := th.hb.learn (b.learnt x.b32) })
      return none
    else return some (.barw (barNo f) x.b32)) s

/-! ## Counting barriers (R167, R168, R354) -/

/-- The keys under which a group keeps what the updates of a record's open and completed phases release. -/
def cbOpenKey (off : Nat) : Nat := 0x400000 + off
def cbDoneKey (off : Nat) : Nat := 0x200000 + off

/-- The fields of a record. -/
def Group.cbPend (g : Group) (off : Nat) : W32 := BitVec.ofNat 32 (leNat (g.spGet off 4))
def Group.cbPh (g : Group) (off : Nat) : W32 := BitVec.ofNat 32 (leNat (g.spGet (off + 4) 4))
def Group.cbInit (g : Group) (off : Nat) : W32 := BitVec.ofNat 32 (leNat (g.spGet (off + 8) 4))

/-- R168, R354: one update of a record by `delta`, which releases `heads`. -/
def Group.cbUpdate (g : Group) (off : Nat) (delta : W32) (heads : List RelHead) : Group :=
  let pend := g.cbPend off + delta
  let opened := mgetD g.rels (cbOpenKey off) [] ++ heads
  if pend.toInt ≤ 0 then
    let g' := g.spPut off (leBytes 4 (pend + g.cbInit off).toNat ++ leBytes 4 (g.cbPh off + 1#32).toNat)
    { g' with rels := mdel (mset g'.rels (cbDoneKey off) (mgetD g'.rels (cbDoneKey off) [] ++ opened)) (cbOpenKey off) }
  else
    let g' := g.spPut off (leBytes 4 pend.toNat)
    { g' with rels := mset g'.rels (cbOpenKey off) opened }

/-- CBINIT (R168): the alignment is checked before the count (log 87). -/
def execCbinit (f : Fields) (s : State) : Host.Outcome State Fault Refusal :=
  runGuarded (.cbinit f) f (fun e _ x => do
    let a := sAddr x.a32 x.b32
    aligned (BitVec.ofNat 64 a) 16
    if x.c32 = 0#32 ∨ 2 ^ 31 ≤ x.c32.toNat then illegalOperand
    else
      spWrite e a (leBytes 4 x.c32.toNat ++ leBytes 4 0 ++ leBytes 4 x.c32.toNat ++ leBytes 4 0) none false []
      modG e (fun g => { g with rels := mdel (mdel g.rels (cbOpenKey a)) (cbDoneKey a) })
      return 0#6) s

/-- CBADD (R168): an atomic update at group scope. -/
def execCbadd (f : Fields) (s : State) : Host.Outcome State Fault Refusal :=
  runGuarded (.cbadd f) f (fun e _ x => do
    let a := sAddr x.a32 x.b32
    aligned (BitVec.ofNat 64 a) 16
    spCheck e a 16
    spTouch e (upFrom a 16) true (some 1#3)
    let g ← getG e
    modTh e (fun th => { th with hb := th.hb.readHeads e.place none (headsAt g.rels (upFrom a 16)) })
    let th ← getTh e
    let old := g.cbPh a
    modG e (fun g =>
      let g := g.cbUpdate a x.c32 [⟨th.hb.now, 1#3, e.place, false⟩]
      { g with rels := writeHeads g.rels (upFrom a 16) true (headsOf th.hb 0#2 1#3 e.place) })
    modTh e (fun th => { th with hb := th.hb.tick })
    deliver e .sp f [old]
    return 0#6) s

/-- CBWAIT (R168): each of its reads is an atomic read (R257); the last learns what every update of the completed phases
released. -/
def execCbwait (f : Fields) (s : State) : Host.Outcome State Fault Refusal :=
  runBlocking (.cbwait f) f (fun e _ x => do
    let a := sAddr x.a32 x.b32
    aligned (BitVec.ofNat 64 a) 16
    let _ ← spRead e a 16 none (some 1#3)
    let g ← getG e
    if phasePast (g.cbPh a) x.c32 then
      modTh e (fun th => { th with
        hb := (mgetD g.rels (cbDoneKey a) []).foldl (fun h r => h.learn r.vc) th.hb })
      return none
    else return some (.cbwait a x.c32)) s

/-! ## Cluster and launch barriers -/

/-- XBAR (R153, R356): arrives at the cluster barrier and waits. -/
def execXbar (f : Fields) (s : State) : Host.Outcome State Fault Refusal :=
  arriveAt (.xbar f) f (fun _ _ => return some .xbar) s

/-- LBAR (R169, R358): the thread's next instance. -/
def execLbar (f : Fields) (s : State) : Host.Outcome State Fault Refusal :=
  arriveAt (.lbar f) f (fun e _ => do
    let th ← getTh e
    modTh e (fun th => { th with lbars := th.lbars + 1 })
    return some (.lbar (th.lbars + 1))) s

/-! ## Timelines (R170) -/

/-- TLWAIT (R170, R359). -/
def execTlwait (f : Fields) (s : State) : Host.Outcome State Fault Refusal :=
  runBlocking (.tlwait f) f (fun e _ x => do
    let c := unitIx f.a
    let n := x.b.toNat
    let ec := e.g.engCtx c
    if c = 4 ∨ c = 5 ∨ ec.issued < n then illegalOperand
    else if n ≤ ec.tl then
      modTh e (fun th => { th with hb := th.hb.learn ec.learnt })
      return none
    else return some (.tlwait c n)) s

/-- TLREAD (R170): not deterministic at levels 1 and 2 (R414). -/
def execTlread (f : Fields) (s : State) : Host.Outcome State Fault Refusal :=
  runGuarded (.tlread f) f (fun e en _ => do
    if e.s.level e.g.cid ≠ 0 then nondet e
    else
      onThread e (putRes en f (.val (BitVec.ofNat 64 (e.g.engCtx (unitIx f.a)).tl)))
      return 0#6) s

/-- TLREAD_ERR (R170): reads and clears the error bits. -/
def execTlreadErr (f : Fields) (s : State) : Host.Outcome State Fault Refusal :=
  runGuarded (.tlreadErr f) f (fun e en _ => do
    let c := unitIx f.a
    let ec := e.g.engCtx c
    modG e (fun g => { g with eng := mset g.eng c { g.engCtx c with err := false } })
    onThread e (putRes en f (.val (BitVec.ofNat 64 (bitN ec.err))))
    return 0#6) s

/-! ## Waits on words (R171) -/

/-- The comparison of WAITA. -/
def waitaHolds (cc : BitVec 2) (w c : W32) : Bool :=
  match cc.toNat with
  | 0 => w == c | 1 => w != c | 2 => decide (c.toNat ≤ w.toNat) | _ => decide (w.toNat < c.toNat)

/-- A read of WAITA (R171): an atomic read at group scope in the scratchpad, at system scope in global memory, with the checks
of any such read. -/
def waitaRead (e : Env) (glob : Bool) (addr : Nat) : SlotM W32 := do
  let bs ← if glob then gRead e e.via 0#2 (vaRange (BitVec.ofNat 64 addr) 4) (some 5#3) (some 5#3)
    else spRead e addr 4 (some 1#3) (some 1#3)
  return BitVec.ofNat 32 (leNat bs)

/-- WAITA (R171): the satisfying read acquires. In repeatable and portable modes `nondeterministic` comes before the checks of
the address (log 85). -/
def execWaita (f : Fields) (s : State) : Host.Outcome State Fault Refusal :=
  runBlocking (.waita f) f (fun e en x => do
    let glob := f.mod.getLsbD 3
    let cc : BitVec 2 := f.mod.setWidth 2
    let addr ← if glob then do
        if e.s.level e.g.cid ≠ 0 then nondet e
        else
          let a ← gAddrOk x.a x.b32 0#2
          pure a.toNat
      else pure (sAddr x.a32 x.b32)
    aligned (BitVec.ofNat 64 addr) 4
    let w ← waitaRead e glob addr
    if waitaHolds cc w x.c32 then
      onThread e (putRes en f (.val (zext64 w)))
      return none
    else return some (.waita glob addr cc x.c32)) s

/-- The slot at which a waiting thread stands. -/
def waitCur (gid t : Nat) (th : Thread) (inst : Nat) : Cur :=
  { gid := gid, t := t, head := pcHead th.pc, cnt := 0, pc := th.pc, next := th.pc, nextRep := th.rep, word := 0#64,
    lits := [], k := th.repNo, inst := inst, mates := [t], alt := none }

/-- WAITA_RECHECK (R171): the read is repeated after a write. Where the comparison holds, or the read fails, the thread issues
its WAITA again, which then completes or faults; else its read has performed once more. -/
def execWaitaRecheck (gid t : Nat) (s : State) : Host.Outcome State Fault Refusal :=
  match s.thread gid t, envOf { s with cur := (s.thread gid t).map (fun th => waitCur gid t th s.nextInst) } with
  | some th, some e =>
    (match th.wait with
     | .waita glob addr cc c =>
       if !e.g.isResident then .next s
       else match waitaRead e glob addr s with
         | .ok (w, s1) =>
           if waitaHolds cc w c then .next (s.setThread gid t (th.again (readyNow s e.g)))
           else .next (s1.modThread gid t (fun u => { u with hb := { th.hb with seen := u.hb.seen } }))
         | .error _ => .next (s.setThread gid t (th.again (readyNow s e.g)))
     | _ => .next s)
  | _, _ => .next s

end Sys2Proof.Machine
end

