-- ==== Sys2Proof/Machine/Copy.lean ====
section
/-! DEFINITION. Copy requests (R172-R176): their fields and checks, the bytes of a tile, how engine operations are numbered
and how they end; the events of copies. -/
namespace Sys2Proof.Machine

/-! ## Requests (R173) -/

def cqSaddr (r : Rec) : Nat := dbits r 0 56
def cqSslot (r : Rec) : Nat := dbits r 56 4
def cqSkind (r : Rec) : Nat := dbits r 60 2
def cqDaddr (r : Rec) : Nat := dbits r 64 56
def cqDslot (r : Rec) : Nat := dbits r 120 4
def cqDkind (r : Rec) : Nat := dbits r 124 2
def cqLen (r : Rec) : Nat := dbits r 128 32
def cqOrg (r : Rec) (n : Nat) : Nat := dbits r (160 + 32 * n) 32
def cqExt (r : Rec) (n : Nat) : Nat := dbits r (288 + 16 * n) 16
def cqCtx (r : Rec) : Nat := dbits r 352 3
def cqCbe (r : Rec) : Bool := r.getLsbD 355
def cqCwe (r : Rec) : Bool := r.getLsbD 356
def cqCbar (r : Rec) : Nat := dbits r 384 32
def cqCwad (r : Rec) : Nat := dbits r 416 32
def cqCwval (r : Rec) : Nat := dbits r 448 32

/-- The elements of a request's tile. -/
def cqElems (r : Rec) : Nat := cqExt r 0 * cqExt r 1 * cqExt r 2 * cqExt r 3

/-- One side of a copy: a flat range from an address (`sp`: in the scratchpad), or a tile of a tensor record. -/
inductive Side where
  | flat (sp : Bool) (a : Nat)
  | tensor (rec : Rec) (o0 o1 o2 o3 : Nat)

/-- The element format of a copy with a tensor side. -/
def copyFmt (src dst : Option Rec) : Nat := match src, dst with | some r, _ => trFmt r | none, some r => trFmt r | _, _ => 8

/-- Whether a copy also moves scale words: both sides are block-format records (R174). -/
def copyScales (src dst : Option Rec) : Bool :=
  match src, dst with | some a, some b => fmtBlock (trFmt a) && fmtBlock (trFmt b) | _, _ => false

/-- The payload bytes of a request without scale words, and B (R174). -/
def copyPayload (req : Rec) (src dst : Option Rec) : Nat :=
  if src.isNone && dst.isNone then cqLen req else cqElems req * fmtBits (copyFmt src dst) / 8
def copyBytes (req : Rec) (src dst : Option Rec) : Nat :=
  copyPayload req src dst + (if copyScales src dst then cqElems req / 32 * 4 else 0)

/-- The sides of a request; with two records the destination tile starts at the origin (0, 0, 0, 0). -/
def copySrc (req : Rec) (src : Option Rec) : Side :=
  match src with
  | some r => .tensor r (cqOrg req 0) (cqOrg req 1) (cqOrg req 2) (cqOrg req 3)
  | none => .flat (cqSkind req == 1) (cqSaddr req)
def copyDst (req : Rec) (src dst : Option Rec) : Side :=
  match dst with
  | some r => if src.isSome then .tensor r 0 0 0 0 else .tensor r (cqOrg req 0) (cqOrg req 1) (cqOrg req 2) (cqOrg req 3)
  | none => .flat (cqDkind req == 1) (cqDaddr req)

/-- R174: whether extents suit a record. Origins above the rank are accepted; what they name lies outside the extents
(log 92). -/
def extOk (req r : Rec) : Bool := (upFrom 0 4).all (fun n => if n < trRank r then cqExt req n != 0 else cqExt req n == 1)

/-- R174: whether a request passes, given the records its slots hold. -/
def reqOk (k : Kernel) (req : Rec) (src dst : Option Rec) : Bool :=
  let fmt := copyFmt src dst
  let n := copyPayload req src dst
  dbits req 62 2 == 0 && dbits req 126 2 == 0 && dbits req 357 27 == 0 && dbits req 480 32 == 0 &&
  cqSkind req != 3 && cqDkind req != 3 && decide (cqCtx req ≤ 3) &&
  (if src.isNone && dst.isNone then cqLen req != 0 && dbits req 160 192 == 0
   else cqLen req == 0 && (match src with | some r => r != 0#512 && extOk req r | none => true) &&
     (match dst with | some r => r != 0#512 && extOk req r | none => true) &&
     (match src, dst with | some a, some b => trFmt a == trFmt b | _, _ => true) &&
     (!fmtBlock fmt || (cqOrg req 0 % 32 == 0 && cqExt req 0 % 32 == 0)) &&
     (fmt != 11 || (cqOrg req 0 % 8 == 0 && cqExt req 0 % 8 == 0))) &&
  (!cqCwe req || (cqCwad req % 4 == 0 && spOk k (cqCwad req) 4)) &&
  (!cqCbe req || (cqCbar req % 16 == 0 && spOk k (cqCbar req) 16)) &&
  (cqSkind req != 1 || spOk k (cqSaddr req) n) && (cqDkind req != 1 || spOk k (cqDaddr req) n) &&
  !(src.isNone && dst.isNone && cqSkind req == cqDkind req &&
    decide (cqSaddr req < cqDaddr req + n) && decide (cqDaddr req < cqSaddr req + n))

/-- The records that a request's slots hold. -/
def reqSrc (g : Group) (req : Rec) : Option Rec := if cqSkind req = 2 then some (g.slot (cqSslot req)) else none
def reqDst (g : Group) (req : Rec) : Option Rec := if cqDkind req = 2 then some (g.slot (cqDslot req)) else none

/-! ## The bytes of a tile -/

/-- Byte `j` of a side's payload: its address, and how many of its elements lie inside the extents when it holds several
(8 for a whole byte). -/
def Side.byteAt (req : Rec) (fmt j : Nat) : Side → Nat × Nat
  | .flat _ a => (a + j, 8)
  | .tensor r o0 o1 o2 o3 =>
    let bits := fmtBits fmt
    let rb := cqExt req 0 * bits / 8
    let q := j / rb
    let e := j % rb * 8 / bits
    let i1 := o1 + q % cqExt req 1
    let i2 := o2 + q / cqExt req 1 % cqExt req 2
    let i3 := o3 + q / cqExt req 1 / cqExt req 2
    let i0 := o0 + e
    let a := (trAddr r (trOffset r i0 i1 i2 i3)).1 + (if 8 ≤ bits then j % rb % (bits / 8) else 0)
    let inside := trInside r i0 i1 i2 i3
    (a, if !inside then 0 else if bits < 8 then min 8 ((trExt r 0 - i0) * bits) else 8)

/-- Byte `j` of a side's scale words. -/
def Side.scaleByteAt (req : Rec) (j : Nat) : Side → Nat × Nat
  | .flat _ a => (a + j, 8)
  | .tensor r o0 o1 o2 o3 =>
    let w := j / 4
    let nb := cqExt req 0 / 32
    let q := w / nb
    let i1 := o1 + q % cqExt req 1
    let i2 := o2 + q / cqExt req 1 % cqExt req 2
    let i3 := o3 + q / cqExt req 1 / cqExt req 2
    let i0 := o0 + 32 * (w % nb)
    (trScaleAddr r (i0 / 32) (trRow r i1 i2 i3) + j % 4, if trInside r i0 i1 i2 i3 then 8 else 0)

/-- Whether a side lies in the scratchpad. -/
def Side.inSp : Side → Bool
  | .flat sp _ => sp
  | .tensor r _ _ _ _ => trSp r

/-- Runs of consecutive addresses, in order. -/
def runsOf : List Nat → List (Nat × Nat)
  | [] => []
  | a :: l => match runsOf l with
    | (b, n) :: r => if b = a + 1 then (a, n + 1) :: r else (a, 1) :: (b, n) :: r
    | [] => [(a, 1)]

/-- Bytes at addresses in one space. -/
def engGetRuns (s : State) (ag : EngAgent) (sp : Bool) : List (Nat × Nat) → Except EngStop (List Byte × State)
  | [] => .ok ([], s)
  | (a, n) :: l => match engGet s ag sp a n with
    | .error x => .error x
    | .ok (bs, s1) => match engGetRuns s1 ag sp l with
      | .error x => .error x
      | .ok (bs', s2) => .ok (bs ++ bs', s2)

/-- Writes bytes at addresses in one space. -/
def engPutRuns (s : State) (ag : EngAgent) (sp : Bool) : List (Nat × Nat) → List Byte → Except EngStop State
  | [], _ => .ok s
  | (a, n) :: l, bs => match engPut s ag sp a (bs.take n) with
    | .error x => .error x
    | .ok s1 => engPutRuns s1 ag sp l (bs.drop n)

/-- The low `n` bits of a byte. -/
def lowBits (b : Byte) (n : Nat) : Byte := if 8 ≤ n then b else BitVec.ofNat 8 (b.toNat % 2 ^ n)

/-- Moves bytes, as agents of the two sides: from source places to destination places; bytes and bits outside the source's extents read as zero, those
outside the destination's are not written. -/
def moveBytes (s : State) (ag dag : EngAgent) (ssp dsp : Bool) (src dst : List (Nat × Nat)) : Except EngStop State :=
  match engGetRuns s ag ssp (runsOf ((src.filter (fun p => p.2 != 0)).map (·.1))) with
  | .error x => .error x
  | .ok (bs, s1) =>
    -- the source bytes with zeros for those outside
    let data := (src.foldl (fun (r : List Byte × List Byte) p =>
      if p.2 = 0 then (r.1 ++ [0#8], r.2) else (r.1 ++ [lowBits (r.2.headD 0#8) p.2], r.2.drop 1)) ([], bs)).1
    let out := (dst.zip data).filter (fun p => p.1.2 != 0)
    let part := out.filter (fun p => decide (p.1.2 < 8))
    match engGetRuns s1 dag dsp (part.map (fun p => (p.1.1, 1))) with
    | .error x => .error x
    | .ok (old, s2) =>
      let merged := (out.foldl (fun (r : List Byte × List Byte) p =>
        if p.1.2 < 8 then
          let o := r.2.headD 0#8
          (r.1 ++ [BitVec.ofNat 8 (o.toNat / 2 ^ p.1.2 * 2 ^ p.1.2 + p.2.toNat % 2 ^ p.1.2)], r.2.drop 1)
        else (r.1 ++ [p.2], r.2)) ([], old)).1
      engPutRuns s2 dag dsp (runsOf (out.map (fun p => p.1.1))) merged

/-! ## Operations -/

/-- Whether an operation is a copy of bytes. -/
def EngKind.isCopy : EngKind → Bool
  | .copy .. => true | .packet .. => true | .nodeCopy .. => true | _ => false

/-- Whether an operation's own addresses are those of tensor records, which the tensor engine translates; the die's cache
serves the copy and the collective engines (R370). -/
def EngKind.tensors : EngKind → Bool
  | .tld .. => true | .tst .. => true | .gath .. => true | .task .. => true | _ => false

/-- The agent of an operation. -/
def EngOp.agent (o : EngOp) : EngAgent :=
  { gid := o.gid, cid := o.cid, via := if o.kind.tensors then .tensor o.place.die else .die o.place.die, hb := o.hb,
    place := o.place, thread := o.thread, wid := o.wid, ectx := o.ectx, num := o.num, po := o.po, copies := o.kind.isCopy }

/-- The agent of one side of a copy. -/
def EngOp.sideAgent (o : EngOp) (d : Side) : EngAgent :=
  match d with
  | .flat _ _ => o.agent
  | .tensor .. => { o.agent with via := .tensor o.place.die }

/-- Changes an operation. -/
def State.modOp (s : State) (n : Nat) (h : EngOp → EngOp) : State := { s with ops := mmodify s.ops n h }

/-- Adds an operation. -/
def State.addOp (s : State) (o : EngOp) : State :=
  let vc := mset o.hb.vc (s.nextAid + 1) 1
  { s with ops := mset s.ops s.nextOp { o with hb := { o.hb with aid := s.nextAid, vc := vc } },
           nextOp := s.nextOp + 1, nextAid := s.nextAid + 2 }

/-- The ordering memory of a new operation: it observes what its issuer knows (R261). -/
def opHb (know : Clock) : HbState := { HbState.fresh 0 with clk := 1, vc := know }

/-- R72: an operation of the current thread takes the next number of a context. -/
def issueOp (e : Env) (ectx : Nat) (kind : EngKind) : SlotM Nat := do
  let g ← getG e
  let th ← getTh e
  let (g', n) := g.issue ectx
  modify (fun s => (s.setGroup e.cur.gid g').addOp
    { po := e.cur.inst, gid := some e.cur.gid, thread := some e.cur.t, cid := e.g.cid, wid := e.th.wid, ectx := ectx, num := n, kind := kind,
      done := [], err := none, recd := none, stall := none, held := false, flags := 0#6, ended := false, hb := opHb th.hb.now, place := e.place })
  modTh e (fun th => { th with hb := th.hb.tick })
  return n

/-- What the events of an operation pass on (R261). The completion word of a tile task is its last event (R207). -/
def EngOp.passes (o : EngOp) : DoneOp :=
  if o.kind.signals then ⟨o.thread.toList, true, o.hb.rdNow, { o.hb with clk := o.hb.clk - 1 }.wrNow, o.hb.wrNow⟩
  else ⟨o.thread.toList, !o.kind.isCopyLike, o.hb.rdNow, o.hb.wrNow, []⟩

/-- Ends an operation: its number completes (R72, R359), with what its events pass on. -/
def finishOp (s : State) (n : Nat) (o : EngOp) : State :=
  let s := { s with ops := mdel s.ops n }
  match o.gid with
  | none => s
  | some gid => s.modGroup gid (fun g => g.complete o.ectx o.num o.err.isSome [o.passes])

/-- R374, R176: what stops an operation: it stalls with its record, or ends with an error and its record; one held by the
limiter stands as it is and tries again (R392). -/
def stopOp (s : State) (n : Nat) (o : EngOp) (x : EngStop) : State :=
  match x with
  | .limited => s
  | .held => (noteHeld s o.cid ((o.gid.bind s.group).elim 0 (fun g => g.kid))).modOp n (fun o => { o with held := true, stall := none })
  | .stall rec f => (stallRecord s o.agent rec (match o.stall with | some w => w.woken | none => false)).modOp n
      (fun o => { o with stall := some f, held := false })
  | .error c a i =>
    let s := engRecord s o.agent c a i false
    s.modOp n (fun o => { o with err := some c, recd := some (s.ctx o.cid).fqSeq, stall := none, held := false })

/-- Whether an operation has failed and its record is written: it may end (R176, R304). -/
def EngOp.failed (o : EngOp) (s : State) : Bool := o.err.isSome && !recordLate s o.cid o.recd

/-- What stops an operation that is one event: it stalls, or it ends with an error once its record is written. -/
def failOp (s : State) (n : Nat) (o : EngOp) (x : EngStop) : State :=
  let s := stopOp s n o x
  match mget s.ops n with
  | some o => if o.failed s then finishOp s n o else s
  | none => s

/-- Whether an operation may go on: it has not failed and waits for no replay. -/
def EngOp.goes (o : EngOp) : Bool :=
  o.err.isNone && (match o.stall with | some f => f.woken | none => true)

/-- The source, destination and request of a copy operation: B, payload bytes, scales. -/
structure CopyShape where
  src   : Side
  dst   : Side
  pay   : Nat
  total : Nat
  fmt   : Nat
  req   : Rec

/-- The copy that an operation makes; packets and graph nodes copy flat bytes between global addresses. -/
def EngOp.shape (o : EngOp) : Option CopyShape :=
  match o.kind with
  | .copy req src dst => some ⟨copySrc req src, copyDst req src dst, copyPayload req src dst, copyBytes req src dst,
      copyFmt src dst, req⟩
  | .packet _ _ _ a b n => some ⟨.flat false a, .flat false b, n, n, 8, 0#512⟩
  | .nodeCopy _ _ a b n => some ⟨.flat false a, .flat false b, n, n, 8, 0#512⟩
  | _ => none

/-- The place of byte `j` of a side, payload first and scale words after it. -/
def CopyShape.at (c : CopyShape) (d : Side) (j : Nat) : Nat × Nat :=
  if j < c.pay then d.byteAt c.req c.fmt j else d.scaleByteAt c.req (j - c.pay)

/-- How many bytes an operation has performed. -/
def EngOp.count (o : EngOp) : Nat := o.done.foldl (fun n p => n + p.2) 0

/-- R175: the counting-barrier decrement of a copy by `n` bytes, an atomic update at group scope; a race with a plain access
ends the operation with an error (R270, R355). -/
def copyDecrement (s : State) (o : EngOp) (n : Nat) (check : Bool) : Except EngStop State :=
  match o.kind with
  | .copy req _ _ =>
    if !cqCbe req || n == 0 then .ok s
    else match o.agent.groupOf s with
      | none => .ok s
      | some (gid, g, _) =>
        if g.isRetired then .ok s
        else
          let off := cqCbar req
          let new := o.hb.stamp true (some 1#3) true o.place
          match if check then findRace g.stamps o.hb new (upFrom off 16) else none with
          | some (a, old) => .error (.error (if s.level o.cid = 0 then .race else .mergeConflict) (BitVec.ofNat 64 a)
              (if s.level o.cid = 0 then raceInfo old new else 0#32))
          | none =>
            let g := g.cbUpdate off (BitVec.ofNat 32 (2 ^ 32 - n % 2 ^ 32)) [⟨o.hb.wrNow, 1#3, o.place, false⟩]
            .ok (s.setGroup gid { g with stamps := stampAll g.stamps new (upFrom off 16) })
  | _ => .ok s

/-- COPY_DATA_PERFORMED (R175): bytes [off, off + len) of a copy perform, and the counting barrier is decremented by them;
what it counts next is not released by that (R355). -/
def execCopyDataPerformed (op off len : Nat) (s : State) : Host.Outcome State Fault Refusal :=
  match mget s.ops op with
  | none => .next s
  | some o =>
    match o.shape with
    | none => .next s
    | some c =>
      if !o.goes || len == 0 || decide (c.total < off + len) ||
          o.done.any (fun p => decide (p.1 < off + len) && decide (off < p.1 + p.2)) then .next s
      else
        let js := upFrom off len
        match moveBytes s (o.sideAgent c.src) (o.sideAgent c.dst) c.src.inSp c.dst.inSp (js.map (c.at c.src)) (js.map (c.at c.dst)) with
        | .error x => .next (stopOp s op o x)
        | .ok s1 =>
          let o' := { o with done := o.done ++ [(off, len)], stall := none, held := false }
          let s2 := s1.modOp op (fun _ => o')
          match copyDecrement s2 o' len true with
          | .ok s3 => .next (s3.modOp op (fun o => { o with hb := o.hb.tick }))
          | .error x => .next (stopOp s2 op o' x)

/-- The write of a completion word (R175, R207): atomic at group scope; nothing for a retired group. -/
def putCompletionWord (s : State) (o : EngOp) (off : Nat) (v : Nat) : Except EngStop State :=
  engWriteSp s o.agent off (leBytes 4 v) (some 1#3) false [⟨o.hb.wrNow, 1#3, o.place, false⟩]

/-- The completion word of an operation and its number. The word is tried once; an error of it is the operation's, and the
number completes when the record is written (R270, R304). -/
def endWithWord (s : State) (op : Nat) (o : EngOp) (off v : Nat) : State :=
  if o.ended then finishOp s op o
  else match putCompletionWord s o off v with
    | .error (.error c a i) =>
      let o := { o with ended := true }
      failOp (s.modOp op (fun _ => o)) op o (.error c a i)
    | .error _ => finishOp s op o
    | .ok s1 => finishOp s1 op o

/-- The last part of a copy: its completion word and its number. -/
def endCopy (s : State) (op : Nat) (o : EngOp) (req : Rec) : State :=
  if cqCwe req then endWithWord s op o (cqCwad req) (cqCwval req) else finishOp s op o

/-- COPY_COMPLETE (R175, R176): after the last byte the completion word is written and the number completes. A copy that
ended with an error first decrements its counting barrier by the bytes that remain. -/
def execCopyComplete (op : Nat) (s : State) : Host.Outcome State Fault Refusal :=
  match mget s.ops op with
  | none => .next s
  | some o =>
    match o.kind with
    | .copy req src dst =>
      let total := copyBytes req src dst
      if o.failed s then
        .next (endCopy (match copyDecrement s o (total - o.count) false with | .ok s' => s' | .error _ => s) op
          { o with done := [(0, total)] } req)
      else if o.err.isSome || decide (o.count < total) then .next s
      else .next (endCopy s op o req)
    | _ => .next s

end Sys2Proof.Machine
end

