-- ==== Sys2Proof/Machine/Engines.lean ====
section
/-! DEFINITION. The meanings of the engine instructions of R172-R183: copy requests, gathers, product-code sums, top-k
lists, collectives, tensor record slots; the completion of gathers and collectives. -/
namespace Sys2Proof.Machine

/-! ## CPKICK (R172) -/

/-- The requests of a CPKICK, with the records their slots hold, if all of them pass (R172, R174). -/
def kickReqs (k : Kernel) (g : Group) (reqs : List Rec) : Option (List (Rec × Option Rec × Option Rec)) :=
  let l := reqs.map (fun r => (r, reqSrc g r, reqDst g r))
  match l with
  | [] => none
  | q :: _ =>
    if l.all (fun x => cqCtx x.1 == cqCtx q.1 && reqOk k x.1 x.2.1 x.2.2) then some l else none

/-- Issues copies in order; the last number. -/
def issueCopies (e : Env) : List (Rec × Option Rec × Option Rec) → Nat → SlotM Nat
  | [], n => return n
  | (r, a, b) :: l, _ => do
    let n ← issueOp e (cqCtx r) (.copy r a b)
    issueCopies e l n

/-- Cuts bytes into `n` records. -/
def recsOf (bs : List Byte) : Nat → List Rec
  | 0 => []
  | n + 1 => recOf (bs.take 64) :: recsOf (bs.drop 64) n

/-- CPKICK (R172): the range of c is checked before the address (log 88). -/
def execCpkick (f : Fields) (s : State) : Host.Outcome State Fault Refusal :=
  runGuarded (.cpkick f) f (fun e _ x => do
    let n := x.c32.toNat
    if n = 0 ∨ 16 < n then illegalOperand
    else
      let a := sAddr x.a32 x.b32
      aligned (BitVec.ofNat 64 a) 64
      let bs ← spRead e a (64 * n) none none
      let g ← getG e
      match kickReqs e.k g (recsOf bs n) with
      | none => illegalOperand
      | some l =>
        let last ← issueCopies e l 0
        deliver e .cp f (wordsOf true (BitVec.ofNat 64 last))
        return 0#6) s

/-! ## GATH, NBPF (R177, R178) -/

/-- The bytes of a row: their places in the record and, for the last one, how many bits they hold. -/
def rowPlaces (r : Rec) (row : Nat) : List (Nat × Nat) :=
  let bits := trExt r 0 * fmtBits (trFmt r)
  let i1 := row % trExt r 1
  let i2 := row / trExt r 1 % trExt r 2
  let i3 := row / trExt r 1 / trExt r 2
  let a := (trAddr r (trOffset r 0 i1 i2 i3)).1
  (upFrom 0 ((bits + 7) / 8)).map (fun j => (a + j, min 8 (bits - 8 * j)))

/-- GATH (R177). -/
def execGath (f : Fields) (s : State) : Host.Outcome State Fault Refusal :=
  runGuarded (.gath f) f (fun e _ x => do
    let r := e.g.slot (unitIx f.a)
    let row := x.b32.toNat
    let dst := x.c32.toNat
    if r = 0#512 ∨ trExt r 1 * trExt r 2 * trExt r 3 ≤ row ∨ dst % fmtAlign (trFmt r) ≠ 0 ∨
        spOk e.k dst ((trExt r 0 * fmtBits (trFmt r) + 7) / 8) = false then illegalOperand
    else
      let n ← issueOp e 6 (.gath r row dst)
      deliver e .ld f (wordsOf true (BitVec.ofNat 64 n))
      return 0#6) s

/-- GATHER_COMPLETE (R177): the row is moved and the number completes. -/
def execGatherComplete (op : Nat) (s : State) : Host.Outcome State Fault Refusal :=
  match mget s.ops op with
  | none => .next s
  | some o =>
    match o.kind with
    | .gath r row dst =>
      if o.failed s then .next (finishOp s op o)
      else if !o.goes then .next s
      else
        let src := rowPlaces r row
        match moveBytes s o.agent o.agent (trSp r) true src ((upFrom 0 src.length).map (fun j => (dst + j, (src.getD j (0, 8)).2))) with
        | .ok s1 => .next (finishOp s1 op o)
        | .error x => .next (failOp s op o x)
    | _ => .next s

/-- NBPF (R178): no architectural effect. -/
def execNbpf (f : Fields) (s : State) : Host.Outcome State Fault Refusal := runGuarded (.nbpf f) f (fun _ _ _ => return 0#6) s

/-! ## ADCL (R179) -/

/-- The table entries of four codes. -/
def adclEntries (e : Env) (b w : Nat) (codes : W32) : List Nat → SlotM (List Nat)
  | [] => return []
  | q :: qs => do
    let bs ← spRead e (b + w * (256 * q + natBits codes.toNat (8 * q) 8)) w none none
    let l ← adclEntries e b w codes qs
    return leNat bs :: l

/-- ADCL (R179). -/
def execAdcl (f : Fields) (s : State) : Host.Outcome State Fault Refusal :=
  runGuarded (.adcl f) f (fun e _ x => do
    let fmt : FFmt := if f.mod = 0#4 then .f32 else .f16
    let w := if f.mod = 0#4 then 4 else 2
    let b := x.b32.toNat
    aligned (BitVec.ofNat 64 b) w
    spCheck e b (1024 * w)
    let ts ← adclEntries e b w x.a32 [0, 1, 2, 3]
    let vs := decodeF .f32 x.c32.toNat :: ts.map (decodeF fmt)
    let v := sumV .rn vs
    let r := finish .f32 .rn v.1 (v.2 || vs.any FV.isSig)
    deliver e .sp f [BitVec.ofNat 32 r.bits]
    return r.flags) s

/-! ## TOPK (R180) -/

/-- An entry of a list: key bits and identifier. -/
abbrev TopkEntry := W32 × W32

/-- The order of entries: key value, then identifier. -/
def topkCmp (a b : TopkEntry) : Ordering :=
  match cmpV (decodeF .f32 a.1.toNat) (decodeF .f32 b.1.toNat) with
  | .eq => compare a.2.toNat b.2.toNat
  | o => o

/-- Inserts in order. -/
def topkPut (x : TopkEntry) : List TopkEntry → List TopkEntry
  | [] => [x]
  | y :: l => if topkCmp x y = .lt then x :: y :: l else y :: topkPut x l

/-- R180: the list after an insertion, or none where nothing is inserted. -/
def topkInsert (k : Nat) (l : List TopkEntry) (b c : W32) : Option (List TopkEntry) :=
  let key : W32 := if b = 0x80000000#32 then 0#32 else b
  let x := (key, c)
  if (decodeF .f32 b.toNat).isNan || l.any (fun y => topkCmp x y == .eq) then none
  else if l.length < k then some (topkPut x l)
  else match l.getLast? with
    | some y => if topkCmp x y = .lt then some (topkPut x l.dropLast) else none
    | none => none

/-- The entries in bytes. -/
def topkEntries (bs : List Byte) : Nat → List TopkEntry
  | 0 => []
  | n + 1 => (BitVec.ofNat 32 (leNat (bs.take 4)), BitVec.ofNat 32 (leNat ((bs.drop 4).take 4))) ::
      topkEntries (bs.drop 8) n

/-- TOPK (R180, R414): atomic with every other TOPK on the list, so its accesses are atomic at group scope. The determinism level
comes before the checks of the list (log 85), and all the list's capacity must be accessible (log 107). -/
def execTopk (f : Fields) (s : State) : Host.Outcome State Fault Refusal :=
  runGuarded (.topk f) f (fun e _ x => do
    if e.s.level e.g.cid ≠ 0 ∧ f.d ≠ .special 3#7 then nondet e
    else
      let a := x.a32.toNat
      aligned (BitVec.ofNat 64 a) 8
      let h ← spRead e a 8 none (some 1#3)
      let k := leNat (h.take 4)
      let n := leNat (h.drop 4)
      if k = 0 ∨ 256 < k ∨ k < n then illegalOperand
      else
        spCheck e a (8 + 8 * k)
        let bs ← spRead e (a + 8) (8 * n) none (some 1#3)
        match topkInsert k (topkEntries bs n) x.b32 x.c32 with
        | none => deliver e .sp f [0#32]
        | some l =>
          let out := leBytes 4 k ++ leBytes 4 l.length ++ l.flatMap (fun y => leBytes 4 y.1.toNat ++ leBytes 4 y.2.toNat)
          spWrite e a out (some 1#3) true (headsOf (← getTh e).hb 0#2 1#3 e.place)
          deliver e .sp f [1#32]
        return 0#6) s

/-! ## Collectives (R181, R182) -/

def cdSrc (d : Rec) : Nat := dbits d 0 56
def cdDst (d : Rec) : Nat := dbits d 64 56
def cdCount (d : Rec) : Nat := dbits d 128 32
def cdComm (d : Rec) : Nat := dbits d 160 16
def cdRoot (d : Rec) : Nat := dbits d 176 16
def cdCop (d : Rec) : Nat := dbits d 192 4
def cdRop (d : Rec) : Nat := dbits d 196 4
def cdCty (d : Rec) : Nat := dbits d 200 4

/-- Reserved bits and codes (R181). -/
def cdOk (d : Rec) : Bool :=
  dbits d 56 8 == 0 && dbits d 120 8 == 0 && dbits d 204 308 == 0 && decide (cdCop d ≤ 4) && decide (cdRop d ≤ 2) &&
    decide (cdCty d ≤ 4)

/-- The bytes of an element. -/
def ctySize (ty : Nat) : Nat := match ty with | 1 => 2 | 2 => 2 | 3 => 8 | _ => 4

/-- R389: the enabled entries of a context with a communicator number, by index. -/
def commEntries (s : State) (cid comm : Nat) : List (Nat × CommEntry) :=
  (s.part (vfOf cid)).comms.filter (fun e => e.2.en && e.2.ctx.toNat == cid % 16 && e.2.comm.toNat == comm)

/-- R390: whether a route table entry is sound. -/
def routeOk (w : W64) : Bool := w.getLsbD 63 && w.extractLsb' 23 39 == 0#39 && w.extractLsb' 12 4 == 0#4 &&
  decide ((w.extractLsb' 16 3).toNat ≤ 5) && decide ((w.extractLsb' 19 4).toNat ≤ 9)

/-- Counts a call of a rank on an entry: the call's number, from 1, and the machine. -/
def countCall (s : State) (vf n rank : Nat) : Nat × State :=
  let p := s.part vf
  let en := mgetD p.comms n CommEntry.zero
  let c := mgetD en.calls rank 0 + 1
  (c, s.setPart vf { p with comms := mset p.comms n { en with calls := mset en.calls rank c } })

/-- What a communicator number comes to (R389, R390): no communicator; a number that ends every call with an error, with its
entries; or the entry and its number. -/
inductive CommPick where
  | absent
  | broken (ns : List Nat)
  | entry (n : Nat) (c : CommEntry)

/-- R389, R390: looks a communicator up. -/
def pickComm (s : State) (cid comm : Nat) : CommPick :=
  match commEntries s cid comm with
  | [] => .absent
  | [e] => if e.2.route.all routeOk && e.2.np != 0#16 then .entry e.1 e.2 else .broken [e.1]
  | l => .broken (l.map (·.1))

/-- The rank of a group on an entry (R389). -/
def groupRank (c : CommEntry) (grp : Nat) : Option Nat :=
  if grp < c.nloc.toNat then some (c.rbase.toNat + grp) else none

/-- Counts a call on every entry of a list, of the rank that each gives the caller: a call that ends with an error is one too
(R182). -/
def countCalls (s : State) (vf : Nat) (rank : CommEntry → Option Nat) (ns : List Nat) : State :=
  ns.foldl (fun s n => match rank (mgetD (s.part vf).comms n CommEntry.zero) with
    | some r => (countCall s vf n r).2
    | none => s) s

/-- Whether a descriptor's root is a rank of some entry it can mean. -/
def rootOk (s : State) (cid : Nat) (d : Rec) : Bool :=
  (commEntries s cid (cdComm d)).all (fun e => decide (cdRoot d < e.2.np.toNat))

/-- COLL (R182). -/
def execColl (f : Fields) (s : State) : Host.Outcome State Fault Refusal :=
  runGuarded (.coll f) f (fun e _ x => do
    let a := sAddr x.a32 x.b32
    aligned (BitVec.ofNat 64 a) 64
    let bs ← spRead e a 64 none none
    let d := recOf bs
    if !cdOk d then illegalOperand
    else
      let ranks := (commEntries e.s e.g.cid (cdComm d)).filterMap (fun c => groupRank c.2 e.g.grp)
      match pickComm e.s e.g.cid (cdComm d), ranks with
      | .absent, _ => illegalOperand
      | _, [] => illegalOperand
      | .broken ns, rank :: _ =>
        if !rootOk e.s e.g.cid d then illegalOperand
        else
          modify (fun s => countCalls s (vfOf e.g.cid) (groupRank · e.g.grp) ns)
          let op := (← get).nextOp
          let n ← issueOp e 7 (.coll d rank 0)
          modify (fun s => match mget s.ops op with
            | some o => failOp s op o (.error .communicator 0#64 0#32)
            | none => s)
          deliver e .alu f (wordsOf true (BitVec.ofNat 64 n))
          return 0#6
      | .entry i _, rank :: _ =>
        if !rootOk e.s e.g.cid d then illegalOperand
        else
          let (call, s1) := countCall (← get) (vfOf e.g.cid) i rank
          set s1
          let n ← issueOp e 7 (.coll d rank call)
          deliver e .alu f (wordsOf true (BitVec.ofNat 64 n))
          return 0#6) s

/-- The widened form in which a type is combined: FP32 for the 16-bit types. -/
def collWiden (ty v : Nat) : Nat :=
  match ty with
  | 1 => (roundV .f32 .rn false (decodeF .bf16 v)).bits
  | 2 => (roundV .f32 .rn false (decodeF .f16 v)).bits
  | _ => v

/-- One combination (R182), on widened values. -/
def collCombine (ty op x y : Nat) : Nat :=
  match ty, op with
  | 4, 0 => (x + y) % 2 ^ 32
  | 4, 1 => if (BitVec.ofNat 32 y).toInt < (BitVec.ofNat 32 x).toInt then y else x
  | 4, _ => if (BitVec.ofNat 32 x).toInt < (BitVec.ofNat 32 y).toInt then y else x
  | 3, 0 => (fAdd .f64 .rn x y).bits
  | 3, o => (fMinMax .f64 (o == 2) x y).bits
  | _, 0 => (fAdd .f32 .rn x y).bits
  | _, o => (fMinMax .f32 (o == 2) x y).bits

/-- The type's form of a combined value. -/
def collNarrow (ty v : Nat) : Nat :=
  match ty with
  | 1 => (roundV .bf16 .rn false (decodeF .f32 v)).bits
  | 2 => (roundV .f16 .rn false (decodeF .f32 v)).bits
  | _ => v

/-- The ranks at the leaves of a tree. -/
def rtLeaves : RTree → List Nat
  | .leaf r => [r]
  | .node a b => rtLeaves a ++ rtLeaves b

/-- The value of a tree over the ranks' values. -/
def rtEval (ty op : Nat) (xs : List Nat) : RTree → Nat
  | .leaf r => xs.getD r 0
  | .node a b => collCombine ty op (rtEval ty op xs a) (rtEval ty op xs b)

/-- The left fold in ascending rank. -/
def collFold (ty op : Nat) : List Nat → Nat
  | [] => 0
  | x :: l => l.foldl (collCombine ty op) x

/-- One reduced element: by a tree over all ranks where one is given (open level), else by the left fold (R182). -/
def collReduce (ty op : Nat) (tree : Option RTree) (xs : List Nat) : Nat :=
  let ws := xs.map (collWiden ty)
  collNarrow ty (match tree with
    | some t => if (rtLeaves t).length == ws.length && (upFrom 0 ws.length).all (rtLeaves t).contains then rtEval ty op ws t
                else collFold ty op ws
    | none => collFold ty op ws)

/-- Element `i` of a buffer. -/
def elemAt (w i : Nat) (bs : List Byte) : Nat := leNat ((bs.drop (w * i)).take w)

/-- The bytes that a rank contributes and receives (R181). -/
def collIn (d : Rec) (p rank : Nat) : Nat :=
  let n := cdCount d * ctySize (cdCty d)
  match cdCop d with
  | 2 => p * n
  | 3 => if rank = cdRoot d then n else 0
  | _ => n

/-- R181, R182: what a rank's `cdst` receives, from every rank's contribution in rank order. -/
def collOut (d : Rec) (rank : Nat) (trees : List RTree) (parts : List (List Byte)) : List Byte :=
  let w := ctySize (cdCty d)
  let n := cdCount d
  let red (lo : Nat) : List Byte := (upFrom lo n).flatMap (fun i =>
    leBytes w (collReduce (cdCty d) (cdRop d) (trees[i]?) (parts.map (elemAt w i))))
  match cdCop d with
  | 0 => red 0
  | 1 => parts.flatten
  | 2 => red (rank * n)
  | 3 => parts.getD (cdRoot d) []
  | _ => if rank = cdRoot d then red 0 else []

/-- A call of a communicator, as far as it has come. -/
def State.callOf (s : State) (vf n call : Nat) : CommCall :=
  (s.calls.find? (fun c => c.vf == vf && c.entry == n && c.call == call)).getD ⟨vf, n, call, [], none, []⟩

/-- Puts a call back; a call that every local rank has ended is dropped. -/
def State.setCall (s : State) (c : CommCall) (loc : Nat) : State :=
  let rest := s.calls.filter (fun x => !(x.vf == c.vf && x.entry == c.entry && x.call == c.call))
  { s with calls := if loc ≤ c.ended.length then rest else c :: rest }

/-- The contribution of a rank, if it is there. -/
def CommCall.part (c : CommCall) (r : Nat) : Option (BitVec 512 × List Byte) :=
  (c.parts.find? (fun p => p.1 == r)).map (·.2)

/-- Whether every contribution agrees with a descriptor on `cop`, `rop`, `cty`, `count` and `root`. -/
def CommCall.agrees (c : CommCall) (d : Rec) (p : Nat) : Bool :=
  c.parts.all (fun x => dbits x.2.1 128 32 == dbits d 128 32 && dbits x.2.1 176 28 == dbits d 176 28 && x.2.2.length == collIn d p x.1)

/-- The collective an operation makes: descriptor, rank, call. -/
def EngKind.collOf : EngKind → Option (BitVec 512 × Nat × Nat)
  | .coll d r c => some (d, r, c)
  | .nodeColl _ _ d r c => some (d, r, c)
  | _ => none

/-- The end of a collective operation with a state of its call; a graph node's stays until the node completes. -/
def endColl (s : State) (op : Nat) (o : EngOp) (c : CommCall) (rank loc : Nat) (err : Option Cause) : State :=
  let s := s.setCall { c with ended := rank :: c.ended.filter (· != rank) } loc
  let o := { o with err := err, recd := if err.isSome then some (s.ctx o.cid).fqSeq else none, stall := none, held := false, done := [(0, 1)] }
  if o.gid.isSome ∧ (err.isNone ∨ o.failed s) then finishOp s op o else s.modOp op (fun _ => o)

/-- The entry of an operation's communicator: the one of its context and number, enabled or not. -/
def collEntry (s : State) (cid comm : Nat) : Option (Nat × CommEntry) :=
  match commEntries s cid comm with
  | e :: _ => some e
  | [] => (s.part (vfOf cid)).comms.find? (fun e => e.2.ctx.toNat == cid % 16 && e.2.comm.toNat == comm)

/-- A connection as it comes into being (R395). -/
def EthConn.fresh : EthConn := ⟨true, [], [], 0, []⟩

/-- A new packet of data on a connection: sent once, not acknowledged. -/
def EthConn.send (vf : Nat) (c : EthConn) (bs : List Byte) : EthConn :=
  { c with unack := c.unack ++ [⟨c.next, 1, vf, bs.length⟩], next := c.next + 1, out := c.out ++ [.data c.next bs] }

/-- Data cut into frames of up to 9,216 bytes (R395); `n` is how many there are at most. -/
def framesOf : Nat → List Byte → List (List Byte)
  | 0, _ => []
  | _, [] => []
  | n + 1, bs => bs.take 9216 :: framesOf n (bs.drop 9216)

/-- Whether the route of an entry uses a connection of an Ethernet port. -/
def ethRouteUses (w : W64) (port conn : Nat) : Bool :=
  w.getLsbD 62 && (Config.ethRoute w).1 % 16 == port && (Config.ethRoute w).2 == conn

/-- The connection that an entry of a route table uses carries data, while it stands. -/
def State.ethSend (s : State) (vf : Nat) (w : W64) (bs : List Byte) : State :=
  if !w.getLsbD 62 then s
  else
    let n := (Config.ethRoute w).1 % 16
    let p := mgetD s.eth n EthPort.zero
    let c := mgetD p.conns (Config.ethRoute w).2 EthConn.fresh
    if !c.up then s
    else
      let c := (framesOf (bs.length / 9216 + 1) bs).foldl (EthConn.send vf) c
      { s with eth := mset s.eth n { p with conns := mset p.conns (Config.ethRoute w).2 c } }

/-- A rank's contribution goes to the ranks that other endpoints hold: it leaves the K7 as requests of its virtual function
(R392), over Ethernet where the route says so (R390, R395). -/
def sendPart (s : State) (cid : Nat) (en : CommEntry) (bs : List Byte) : Option State :=
  let far := (upFrom 0 en.np.toNat).filter (fun r => !(decide (en.rbase.toNat ≤ r) && decide (r < en.rbase.toNat + en.nloc.toNat)))
  (s.sendBytes cid (bs.length * far.length)).map (fun s => far.foldl (fun s r => s.ethSend (vfOf cid) (en.route.getD r 0#64) bs) s)

/-- COLLECTIVE_COMPLETE (R182): the operation's contribution joins its call, with those of remote ranks that have arrived,
each with its own descriptor; once every rank's is there, `cdst` is written and the operation completes. Ranks that disagree
end with an error. A rank whose own contribution ended with an error leaves the others waiting for it (log 109). -/
def execCollectiveComplete (op : Nat) (remote : List (Nat × BitVec 512 × List Byte)) (trees : List RTree) (s : State) :
    Host.Outcome State Fault Refusal :=
  match mget s.ops op with
  | none => .next s
  | some o =>
    match o.kind.collOf with
    | none => .next s
    | some (d, rank, call) =>
      match collEntry s o.cid (cdComm d) with
      | none => .next s
      | some (n, en) =>
        if o.gid.isSome && o.done != [] && o.failed s then .next (finishOp s op o)
        else if !o.goes || o.done != [] then .next s
        else
          let p := en.np.toNat
          let loc := en.nloc.toNat
          let c := s.callOf (vfOf o.cid) n call
          let mine : Except EngStop (CommCall × State) :=
            if (c.part rank).isSome then .ok (c, s)
            else match engGet s o.agent false (cdSrc d) (collIn d p rank) with
              | .error x => .error x
              | .ok (bs, s1) => match sendPart s1 o.cid en bs with
                | some s2 => .ok ({ c with parts := (rank, d, bs) :: c.parts }, s2)
                | none => .error .limited
          match mine with
          | .error (.error ca a i) => .next (endColl (engRecord s o.agent ca a i false) op o c rank loc (some ca))
          | .error x => .next (stopOp s op o x)
          | .ok (c, s) =>
            let far := remote.filter (fun x => decide (x.1 < p) && (c.part x.1).isNone &&
              !(decide (en.rbase.toNat ≤ x.1) && decide (x.1 < en.rbase.toNat + loc)))
            let c := { c with parts := far ++ c.parts }
            if (upFrom 0 p).any (fun r => (c.part r).isNone) then .next (s.setCall c (loc + 1))
            else if !c.agrees d p then
              .next (endColl (engRecord s o.agent .communicator 0#64 0#32 false) op o c rank loc (some .communicator))
            else
              let ts := if s.level o.cid = 0 then c.trees.getD trees else []
              let c := { c with trees := some ts }
              let out := collOut d rank ts ((upFrom 0 p).map (fun r => ((c.part r).map (·.2)).getD []))
              match engPut s o.agent false (cdDst d) out with
              | .ok s1 => .next (endColl s1 op o c rank loc none)
              | .error (.error ca a i) => .next (endColl (engRecord s o.agent ca a i false) op o c rank loc (some ca))
              | .error x => .next (stopOp (s.setCall c (loc + 1)) op o x)

/-! ## Slots (R183) -/

/-- TSSET (R183). -/
def execTsset (f : Fields) (s : State) : Host.Outcome State Fault Refusal :=
  runGuarded (.tsset f) f (fun e _ x => do
    let a := sAddr x.a32 x.b32
    aligned (BitVec.ofNat 64 a) 64
    let bs ← spRead e a 64 none none
    let r := recOf bs
    if r = 0#512 ∨ trOk r = true then
      modG e (fun g => g.setSlot (unitIx f.c) r)
      return 0#6
    else illegalOperand) s

/-- TSGET (R183). -/
def execTsget (f : Fields) (s : State) : Host.Outcome State Fault Refusal :=
  runGuarded (.tsget f) f (fun e _ x => do
    let a := sAddr x.a32 x.b32
    aligned (BitVec.ofNat 64 a) 64
    let g ← getG e
    spWrite e a (recBytes (g.slot (unitIx f.c))) none false []
    return 0#6) s

end Sys2Proof.Machine
end

