-- ==== Sys2Proof/Machine/QueueOps.lean ====
section
/-! DEFINITION. Queues as every part of the machine reaches them: a context's queue, the notify write (R314), halting
(R318). -/
namespace Sys2Proof.Machine

/-- A queue of a context (R311). -/
def State.queue (s : State) (cid q : Nat) : Queue := mgetD (s.ctx cid).queues q Queue.zero
def State.setQueue (s : State) (cid q : Nat) (v : Queue) : State :=
  s.setCtx cid { s.ctx cid with queues := mset (s.ctx cid).queues q v }
def State.modQueue (s : State) (cid q : Nat) (h : Queue → Queue) : State := s.setQueue cid q (h (s.queue cid q))

/-- Whether a context exists and is not being torn down. -/
def State.hasCtx (s : State) (cid : Nat) : Bool := (s.ctx cid).st != .free && (s.ctx cid).st != .destroying

/-- A change of a queue that exists. -/
def State.onQueue (s : State) (cid q : Nat) (h : Queue → Queue) : State :=
  if s.hasCtx cid && decide (q < 16) then s.modQueue cid q h else s

/-- Halts an enabled queue with a code; a halted queue keeps its first failure (R318, R319). -/
def Queue.halt (u : Queue) (code : BitVec 8) (idx : W32) : Queue :=
  if u.en = false ∨ u.st = .halted then u else { u with st := .halted, err := code, eidx := idx }

/-- Whether a packet is a WAIT. -/
def Pkt.isWait (p : Pkt) : Bool := p.body.extractLsb' 0 8 == 2#8

/-- Whether the processor touches an address for a started packet: the bytes of its signal, or the word that a WAIT
watches. -/
def Pkt.touches (p : Pkt) (va : W64) : Bool :=
  decide ((va - (p.body.extractLsb' 448 56).setWidth 64).toNat < 8) ||
    (p.isWait && decide ((va - (p.body.extractLsb' 64 56).setWidth 64).toNat < 8))

/-- Ends a stall whose address satisfies `p`: the access has performed. -/
def Queue.unstall (u : Queue) (p : W64 → Bool) : Queue :=
  match u.stall with
  | some f => if p f.va then { u with stall := none } else u
  | none => u

/-- The state of an enabled queue that is not halted (R319). -/
def Queue.rest (u : Queue) : QState :=
  if u.active.any Pkt.isWait then .waiting
  else match u.cur with
    | some p => if p.body.getLsbD 10 && u.active != [] then .waiting else .fetching
    | none => if u.ridx = u.widx then .idle else .fetching

/-- Brings the state field of a queue that is enabled and not halted up to date. -/
def Queue.settle (u : Queue) : Queue :=
  match u.st with
  | .disabled => u
  | .halted => u
  | _ => { u with st := u.rest }

/-- R314: a notify write. -/
def Queue.notify (u : Queue) (w : W32) : Queue :=
  if !u.en then u
  else if 2 ^ 31 ≤ (w - u.widx).toNat then u
  else if 2 ^ u.lqlen.toNat < (w - u.ridx).toNat then { u with err := 6#8, eidx := u.ridx, st := .halted }
  else { u with widx := w }.settle

end Sys2Proof.Machine
end

