-- ==== Sys2Proof/Machine/Tiles.lean ====
section
/-! DEFINITION. The meanings of the tile instructions (R186-R192), the rows of a record as engines read and write them, and
the completion of tile transfers. -/
namespace Sys2Proof.Machine

/-! ## Rows of a record -/

/-- How many of `n` elements from column `i0` of a row lie inside a record's extents (R94). -/
def rowCount (r : Rec) (i0 i1 n : Nat) : Nat := if i1 < trExt r 1 then min n (trExt r 0 - i0) else 0

/-- The byte address of element (i0, i1, 0, 0). -/
def rowAddr (r : Rec) (i0 i1 : Nat) : Nat := (trAddr r (trOffset r i0 i1 0 0)).1

/-- Clears the bits of a row's last byte beyond its elements. -/
def trimRow (bs : List Byte) (bits : Nat) : List Byte :=
  if bits % 8 = 0 then bs else bs.dropLast ++ [lowBits (bs.getLast?.getD 0#8) (bits % 8)]

/-- Reads `n` elements of a row into `len` bytes; elements outside the extents read as zero. -/
def readRow (s : State) (ag : EngAgent) (r : Rec) (i0 i1 n len : Nat) : Except EngStop (List Byte × State) :=
  let bits := rowCount r i0 i1 n * fmtBits (trFmt r)
  if bits = 0 then .ok (List.replicate len 0#8, s)
  else match engGet s ag (trSp r) (rowAddr r i0 i1) ((bits + 7) / 8) with
    | .error x => .error x
    | .ok (bs, s1) => .ok ((trimRow bs bits ++ List.replicate len 0#8).take len, s1)

/-- Writes `n` elements of a row; elements outside the extents are not written, and the other bits of a last byte that they
fill only in part stay. -/
def writeRow (s : State) (ag : EngAgent) (r : Rec) (i0 i1 n : Nat) (bs : List Byte) : Except EngStop State :=
  let bits := rowCount r i0 i1 n * fmtBits (trFmt r)
  let a := rowAddr r i0 i1
  if bits = 0 then .ok s
  else if bits % 8 = 0 then engPut s ag (trSp r) a (bs.take (bits / 8))
  else match engGet s ag (trSp r) (a + bits / 8) 1 with
    | .error x => .error x
    | .ok (old, s1) =>
      let o := (old.headD 0#8).toNat
      let v := ((bs.getD (bits / 8) 0#8).toNat % 2 ^ (bits % 8)) + o / 2 ^ (bits % 8) * 2 ^ (bits % 8)
      engPut s1 ag (trSp r) a (bs.take (bits / 8) ++ [BitVec.ofNat 8 v])

/-- The scale words of `nb` blocks of a row from column `i0`; words of blocks outside the extents read as zero. -/
def readScales (s : State) (ag : EngAgent) (r : Rec) (i0 i1 : Nat) : Nat → Nat → Except EngStop (List W32 × State)
  | _, 0 => .ok ([], s)
  | q, nb + 1 =>
    let here : Except EngStop (W32 × State) :=
      if i1 < trExt r 1 ∧ i0 + 32 * q < trExt r 0 then
        match engGet s ag (trSp r) (trScaleAddr r (i0 / 32 + q) (trRow r i1 0 0)) 4 with
        | .error x => .error x
        | .ok (bs, s1) => .ok (BitVec.ofNat 32 (leNat bs), s1)
      else .ok (0#32, s)
    match here with
    | .error x => .error x
    | .ok (w, s1) => match readScales s1 ag r i0 i1 (q + 1) nb with
      | .error x => .error x
      | .ok (ws, s2) => .ok (w :: ws, s2)

/-- Writes scale words of a row's blocks from block `q` on. -/
def writeScales (s : State) (ag : EngAgent) (r : Rec) (i0 i1 : Nat) : Nat → List W32 → Except EngStop State
  | _, [] => .ok s
  | q, w :: ws =>
    if i1 < trExt r 1 ∧ i0 + 32 * q < trExt r 0 then
      match engPut s ag (trSp r) (trScaleAddr r (i0 / 32 + q) (trRow r i1 0 0)) (leBytes 4 w.toNat) with
      | .error x => .error x
      | .ok s1 => writeScales s1 ag r i0 i1 (q + 1) ws
    else writeScales s ag r i0 i1 (q + 1) ws

/-! ## TLD, TST (R191) -/

/-- R191, R197: whether an origin suits a format. -/
def originOk (fmt i0 : Nat) : Bool := (!fmtBlock fmt || i0 % 32 == 0) && (fmt != 11 || i0 % 8 == 0)

/-- R191: whether a record, a tile and an origin go together. -/
def transferOk (r : Rec) (t : Tile) (i0 i1 : Nat) : Bool :=
  r != 0#512 && trFmt r == t.fmt.toNat && t.en && decide (i0 < trExt r 0) && decide (i1 < trExt r 1) &&
    originOk (trFmt r) i0

/-- TLD (R191): its operand checks come before those of R189 (log 114). -/
def execTld (f : Fields) (s : State) : Host.Outcome State Fault Refusal :=
  runGuarded (.tld f) f (fun e _ x => do
    let n := unitIx f.a
    let r := e.g.slot (unitIx f.b)
    let i0 := (lo32 x.c).toNat
    let i1 := (hi32 x.c).toNat
    if !transferOk r (e.g.tile n) i0 i1 then illegalOperand
    else
      liftE (tileWritable e.s e.cur.gid e.g n)
      let num ← issueOp e (f.mod.toNat % 4) (.tld n r i0 i1)
      deliver e .mx f (wordsOf true (BitVec.ofNat 64 num))
      return 0#6) s

/-- TST (R191): it stores the tile as it stands at issue. -/
def execTst (f : Fields) (s : State) : Host.Outcome State Fault Refusal :=
  runGuarded (.tst f) f (fun e _ x => do
    let n := unitIx f.a
    let r := e.g.slot (unitIx f.b)
    let i0 := (lo32 x.c).toNat
    let i1 := (hi32 x.c).toNat
    if !transferOk r (e.g.tile n) i0 i1 then illegalOperand
    else
      liftE (tileReadable e.s e.cur.gid n)
      let num ← issueOp e (f.mod.toNat % 4) (.tst n r i0 i1 (e.g.tile n))
      deliver e .mx f (wordsOf true (BitVec.ofNat 64 num))
      return 0#6) s

/-- The rows of a TLD from row `row` on, `n` of them. -/
def loadTile (s : State) (ag : EngAgent) (r : Rec) (i0 i1 : Nat) (t : Tile) : Nat → Nat → Except EngStop (Tile × State)
  | _, 0 => .ok (t, s)
  | row, n + 1 =>
    match readRow s ag r i0 (i1 + row) t.ncols t.rowBytes with
    | .error x => .error x
    | .ok (bs, s1) =>
      match readScales s1 ag r i0 (i1 + row) 0 (if fmtBlock t.fmt.toNat then t.ncols / 32 else 0) with
      | .error x => .error x
      | .ok (ws, s2) =>
        let t := { t with area := t.area.setN (row * t.rowBytes) bs }
        let t := (upFrom 0 ws.length).foldl (fun t q => t.setScale (row * (t.ncols / 32) + q) (ws.getD q 0#32)) t
        loadTile s2 ag r i0 i1 t (row + 1) n

/-- The rows of a TST from row `row` on, `n` of them. -/
def storeTile (s : State) (ag : EngAgent) (r : Rec) (i0 i1 : Nat) (t : Tile) : Nat → Nat → Except EngStop State
  | _, 0 => .ok s
  | row, n + 1 =>
    match writeRow s ag r i0 (i1 + row) t.ncols (t.area.getN (row * t.rowBytes) t.rowBytes) with
    | .error x => .error x
    | .ok s1 =>
      match writeScales s1 ag r i0 (i1 + row) 0
          (if fmtBlock t.fmt.toNat then (upFrom 0 (t.ncols / 32)).map (t.scaleAt row) else []) with
      | .error x => .error x
      | .ok s2 => storeTile s2 ag r i0 i1 t (row + 1) n

/-- TILE_TRANSFER_COMPLETE (R191): the rows move and the number completes; an error ends it as R176 states. -/
def execTileTransferComplete (op : Nat) (s : State) : Host.Outcome State Fault Refusal :=
  match mget s.ops op with
  | none => .next s
  | some o =>
    if o.failed s then .next (finishOp s op o)
    else if !o.goes then .next s
    else
      let fin : Except EngStop State → Host.Outcome State Fault Refusal
        | .ok s1 => .next (finishOp s1 op o)
        | .error x => .next (failOp s op o x)
      match o.kind, o.gid with
      | .tld n r i0 i1, some gid =>
        (match s.group gid with
         | none => .next s
         | some g =>
           let t := g.tile n
           fin ((loadTile s o.agent r i0 i1 t 0 t.nrows).map (fun p => p.2.modGroup gid (fun g => g.setTile n p.1))))
      | .tst _ r i0 i1 t, _ => fin (storeTile s o.agent r i0 i1 t 0 t.nrows)
      | _, _ => .next s

/-! ## TZERO, TREAD, TWRITE (R192) -/

/-- TZERO (R192): the element area is zero and every scale word 1.0. -/
def execTzero (f : Fields) (s : State) : Host.Outcome State Fault Refusal :=
  runGuarded (.tzero f) f (fun e _ _ => do
    let n := unitIx f.a
    liftE (tileWritable e.s e.cur.gid e.g n)
    modG e (fun g => g.setTile n { g.tile n with area := [], scale := (upFrom 0 512).map (fun i => (i, scaleOne)) })
    return 0#6) s

/-- Whether a word index lies in the area (2,048 words) or the scale area (512). -/
def tileIndexOk (f : Fields) (b : W32) : Bool := decide (b.toNat < (if f.mod = 0#4 then 2048 else 512))

/-- TREAD (R192). -/
def execTread (f : Fields) (s : State) : Host.Outcome State Fault Refusal :=
  runGuarded (.tread f) f (fun e en x => do
    let n := unitIx f.a
    let t := e.g.tile n
    if !tileIndexOk f x.b32 then illegalOperand
    else
      liftE (tileReadable e.s e.cur.gid n)
      let w : W32 := if f.mod = 0#4 then BitVec.ofNat 32 (t.area.getNat (4 * x.b32.toNat) 4) else mgetD t.scale x.b32.toNat 0#32
      onThread e (putRes en f (.val (zext64 w)))
      return 0#6) s

/-- TWRITE (R192): the check of its index comes before those of R189 (log 114). -/
def execTwrite (f : Fields) (s : State) : Host.Outcome State Fault Refusal :=
  runGuarded (.twrite f) f (fun e _ x => do
    let n := unitIx f.a
    if !tileIndexOk f x.b32 then illegalOperand
    else
      liftE (tileWritable e.s e.cur.gid e.g n)
      modG e (fun g =>
        let t := g.tile n
        g.setTile n (if f.mod = 0#4 then { t with area := t.area.setN (4 * x.b32.toNat) (leBytes 4 x.c32.toNat) }
                     else t.setScale x.b32.toNat x.c32))
      return 0#6) s

end Sys2Proof.Machine
end

