-- ==== Sys2Proof/Machine/MatrixOps.lean ====
section
/-! DEFINITION. The meanings of the matrix instructions (R193-R202) and the events of the matrix engine: acceptance, last
multiply-accumulate, completion of a batch. -/
namespace Sys2Proof.Machine

/-! ## Arrivals -/

/-- The matrix context that a field names; `illegal-operand` for another engine context (R190). -/
def mxOf (o : Operand) : SlotM Nat := if unitIx o = 4 ∨ unitIx o = 5 then return unitIx o - 4 else illegalOperand

/-- The arrival at a matrix collective (R194). -/
def arriveMx (i : Instr) (f : Fields) (ctx : Operand) (s : State) : Host.Outcome State Fault Refusal :=
  runInstr i f (fun e en => do
    let (gd, x, pops) ← arriveReads e en f
    if gd then
      let _ ← mxOf ctx
      waitAt e (.coll i x.a x.b x.c gd) (marked en f) pops
    else waitAt e (.coll i x.a x.b x.c gd) (marked en f) pops) s

/-- MLDW (R195). -/
def execMldw (f : Fields) (s : State) : Host.Outcome State Fault Refusal := arriveMx (.mldw f) f f.c s

/-- MMAA (R197). -/
def execMmaa (f : Fields) (s : State) : Host.Outcome State Fault Refusal := arriveMx (.mmaa f) f f.c s

/-- MCOMMIT (R201). -/
def execMcommit (f : Fields) (s : State) : Host.Outcome State Fault Refusal := arriveMx (.mcommit f) f f.a s

/-- MSCALE (R200). -/
def execMscale (f : Fields) (s : State) : Host.Outcome State Fault Refusal := arriveMx (.mscale f) f f.c s

/-- MSCALE_CLR (R200). -/
def execMscaleClr (f : Fields) (s : State) : Host.Outcome State Fault Refusal := arriveMx (.mscaleClr f) f f.c s

/-! ## MWAIT (R201, R52) -/

/-- Whether an operation belongs to a batch of a context numbered n or below. -/
def MxOp.upTo (o : MxOp) (gid mx n : Nat) : Bool :=
  o.gid == gid && o.mx == mx && (match o.batch with | some b => decide (b ≤ n) | none => false)

/-- The flags that a thread's matrix steps up to batch n raised. -/
def mxFlags (s : State) (gid mx n t : Nat) : FFlags :=
  s.mxops.foldl (fun fl e => if e.2.upTo gid mx n then
    e.2.flags.foldl (fun fl p => if p.1 = t then fl ||| p.2 else fl) fl else fl) 0#6

/-- Drops the flags that a thread has received, and the completed operations that hold none. -/
def dropFlags (s : State) (gid mx n t : Nat) : State :=
  { s with mxops := (mmap (fun _ o => if o.upTo gid mx n then { o with flags := o.flags.filter (fun p => p.1 != t) } else o)
      s.mxops).filter (fun e => !(e.2.upTo gid mx n && e.2.stage == .applied && e.2.flags == [])) }

/-- MWAIT (R201): clears the thread's marks of batches up to n, receives the flags of their steps (R52) and what the
operations pass on. -/
def execMwait (f : Fields) (s : State) : Host.Outcome State Fault Refusal :=
  runInstr (.mwait f) f (fun e en => do
    let th ← getTh e
    if guardOf f th then
      let x ← onThread e (readSrcs e en f)
      modTh e (fun th => th.release (marked en f))
      let mx ← mxOf f.a
      let n := x.b.toNat
      let c := e.g.engCtx (4 + mx)
      if c.issued < n then illegalOperand
      else if c.tl < n then exc (.block (.mwait mx n))
      else
        let fl := mxFlags e.s e.cur.gid mx n e.cur.t
        modify (fun s => dropFlags s e.cur.gid mx n e.cur.t)
        modTh e (fun th => { th.raiseFlags fl with
          marks := th.marks.filter (fun m => !(m.2.mx == mx && (match m.2.batch with | some b => decide (b ≤ n) | none => false)))
          hb := th.hb.learn c.learnt })
        let th ← getTh e
        endBlock e
        if fpTraps th fl then trapNow e .fp e.cur.next e.cur.nextRep 0#64 (BitVec.ofNat 32 fl.toNat)
    else
      onThread e (guardedOff e en f true)
      endBlock e) s

/-! ## Steps -/

/-- The agent of a matrix operation's reads of memory (R204). -/
def MxOp.agent (s : State) (o : MxOp) : EngAgent :=
  let g := s.group o.gid
  let cid := (g.map (·.cid)).getD 0
  let k := (g.bind (fun g => s.kernel g.kid))
  let sg := match o.kind with | .mmaa st => st.sg | _ => 0
  let place : Place := match g, k with
    | some g, some k => placeOf k o.gid g sg
    | _, _ => ⟨o.gid, 0, 0, 0, 0⟩
  { gid := some o.gid, cid := cid, via := .tensor place.die, hb := o.hb, place := place, thread := none,
    wid := (g.map (·.gwid)).getD 0#64, ectx := 4 + o.mx, num := o.batch.getD 0, po := 0, copies := false }

/-- `n` rows of `k` elements of a record from (k0, row0), as operands; what lies outside the extents is zero. Scale words are
read where `sc` is set. -/
def readRows (s : State) (ag : EngAgent) (r : Rec) (sc : Bool) (k0 row0 k : Nat) : Nat → Except EngStop (List MxRow × State)
  | 0 => .ok ([], s)
  | n + 1 =>
    let bits := fmtBits (trFmt r)
    match readRow s ag r k0 row0 k ((k * bits + 7) / 8) with
    | .error x => .error x
    | .ok (bs, s1) =>
      match readScales s1 ag r k0 row0 0 (if sc && fmtBlock (trFmt r) then (k + 31) / 32 else 0) with
      | .error x => .error x
      | .ok (ws, s2) =>
        match readRows s2 ag r sc k0 (row0 + 1) k n with
        | .error x => .error x
        | .ok (rows, s3) => .ok ({ fmt := trFmt r, codes := codesOf bs bits k, scales := ws } :: rows, s3)

/-- The rows of A that a step streams, with the scale override where one is set (R198, R200). -/
def aRows (s : State) (ag : EngAgent) (g : Group) (st : MmaaStep) (ov : Option (List W32)) :
    Except EngStop (List MxRow × State) :=
  let scaled (r : MxRow) : MxRow := match ov with
    | some ws => if fmtBlock r.fmt then { r with scales := ws } else r
    | none => r
  match st.tile with
  | some t => .ok ((upFrom 0 st.m).map (fun i => scaled (((g.tile t).row i).resize st.k)), s)
  | none => (readRows s ag st.arec ov.isNone st.i0 st.i1 st.k st.m).map (fun p => (p.1.map scaled, p.2))

/-- The value of an accumulator element in a thread's registers; an unallocated one reads as the identity (R198). -/
def accAt (smod : Nat) (th : Thread) (r w : Nat) : Nat :=
  let word (n k : Nat) : Nat := (mgetD th.regs n (BitVec.ofNat 32 (mxIdentity smod / 2 ^ k))).toNat
  word r 0 + (if w = 2 then word (r + 1) 32 * 2 ^ 32 else 0)

/-- R198: what a step computes: the registers of each member and the flags of each. -/
def mmaaCompute (g : Group) (st : MmaaStep) (rows wts : List MxRow) : List (Nat × Nat × W32) × List (Nat × FFlags) :=
  let smod := st.mod.toNat
  let w := mxWidth smod
  let members := st.peers.filterMap (fun t => (mget g.threads t).map (fun th => (t, th)))
  let elems := (upFrom 0 (st.m * st.n)).filterMap (fun e =>
    match members.find? (fun p => p.2.live && p.2.sgt == e % st.subS) with
    | none => none
    | some (t, th) =>
      let r := st.d + w * (e / st.subS)
      let u := mxUpdate smod (accAt smod th r w) (rows.getD (e / st.n) ⟨0, [], []⟩) (wts.getD (e % st.n) ⟨0, [], []⟩)
      some (t, r, u))
  (elems.flatMap (fun x => (x.1, x.2.1, BitVec.ofNat 32 x.2.2.1) ::
      (if w = 2 then [(x.1, x.2.1 + 1, BitVec.ofNat 32 (x.2.2.1 / 2 ^ 32))] else [])),
   members.map (fun p => (p.1, elems.foldl (fun fl x => if x.1 = p.1 then fl ||| x.2.2.2 else fl) 0#6)))

/-! ## Events -/

/-- Changes a matrix operation. -/
def State.modMx (s : State) (n : Nat) (h : MxOp → MxOp) : State := { s with mxops := mmodify s.mxops n h }

/-- Takes an operation off its core's queue. -/
def State.mxOff (s : State) (core n : Nat) : State :=
  s.setCore core { s.core core with mxq := (s.core core).mxq.filter (· != n) }

/-- Power tokens (R22). -/
def State.tokenFree (s : State) (d : Nat) : Bool := decide ((s.die d).inuse < (s.die d).size.toNat)
def State.takeToken (s : State) (d : Nat) : State := s.setDie d { s.die d with inuse := (s.die d).inuse + 1 }
def State.giveToken (s : State) (d : Nat) : State := s.setDie d { s.die d with inuse := (s.die d).inuse - 1 }

/-- R198, R204: an accepted step streams A and computes. A stalled stream waits, accepted, for its replay; a refused one ends
the step with an error; one that its function's limiter holds does not begin (R392). -/
def streamStep (s : State) (n : Nat) (o : MxOp) (g : Group) (st : MmaaStep) : Option State :=
  let c := g.mxCtx o.mx
  match aRows s (o.agent s) g st c.override with
  | .error (.stall rec f) =>
    some ((stallRecord s (o.agent s) rec o.stall.isSome).modMx n (fun o => { o with stage := .accepted, stall := some f }))
  | .error .limited => none
  | .error .held => none
  | .error (.error ca a i) =>
    let ag := o.agent s
    let s := engRecord s ag ca a i false
    let s := s.modGroup o.gid (fun g => { g with eng := mset g.eng (4 + o.mx) { g.engCtx (4 + o.mx) with err := true } })
    some (s.modMx n (fun o => { o with stage := .accepted, err := true, recd := some (s.ctx ag.cid).fqSeq, stall := none }))
  | .ok (rows, s) =>
    let v := mmaaCompute g st rows ((upFrom 0 st.n).map (c.latch.getD Tile.zero).row)
    some (s.modMx n (fun o => { o with stage := .accepted, vals := v.1, flags := v.2, stall := none }))

/-- MATRIX_ACCEPT (R202): the engine of a core takes the operation whose request came first, when it streams none, no tile
the operation reads has a pending TLD and, for a step, a token is free. A weight load or scale takes effect; a step
captures its operands and computes. A step whose stream stalled goes on with it after its replay. -/
def execMatrixAccept (core : Nat) (s : State) : Host.Outcome State Fault Refusal :=
  match (s.core core).mxq with
  | [] => .next s
  | n :: _ =>
    match mget s.mxops n with
    | none => .next (s.mxOff core n)
    | some o =>
      match s.group o.gid with
      | none => .next (s.mxOff core n)
      | some g =>
        let c := g.mxCtx o.mx
        match o.kind, o.stage, o.stall with
        | .mldw t, .requested, _ =>
          if pendingTld s o.gid t then .next s
          else
            let g := { g with mx := mset g.mx o.mx { c with latch := some (g.tile t) } }
            .next (((s.setGroup o.gid g).modMx n (fun o => { o with stage := .applied })).mxOff core n)
        | .mscale ws, .requested, _ =>
          let g := { g with mx := mset g.mx o.mx { c with override := ws } }
          .next (((s.setGroup o.gid g).modMx n (fun o => { o with stage := .applied })).mxOff core n)
        | .mmaa st, .requested, _ =>
          if !s.tokenFree (core / 64) || (match st.tile with | some t => pendingTld s o.gid t | none => false) then .next s
          else .next ((streamStep (s.takeToken (core / 64)) n o g st).getD s)
        | .mmaa st, .accepted, some f => .next (if f.woken then (streamStep s n o g st).getD s else s)
        | _, _, _ => .next s

/-- R199: an exited thread's registers return to the bank once every step that names them has applied. -/
def returnRegs (s : State) (gid : Nat) (ts : List Nat) : State :=
  ts.foldl (fun s t => if stepsLeft s gid t then s else s.modThread gid t (fun th =>
    if th.live then th else { th with regs := [], marks := [], quota := 0 })) s

/-- MATRIX_LAST_MAC (R22, R202): the step accepted on a core applies: its token returns and its elements are written to the
members that have not exited (R199). -/
def execMatrixLastMac (core : Nat) (s : State) : Host.Outcome State Fault Refusal :=
  match (s.core core).mxq with
  | [] => .next s
  | n :: _ =>
    match mget s.mxops n with
    | none => .next s
    | some o =>
      if o.stage != .accepted || o.stall.isSome || recordLate s (o.agent s).cid o.recd then .next s
      else
        let s := s.modGroup o.gid (fun g => o.vals.foldl (fun g v => g.modThread v.1 (fun th =>
          if th.live then { th with regs := mset th.regs v.2.1 v.2.2 } else th)) g)
        let fl := o.flags.filter (fun p => p.2 != 0#6 && ((s.thread o.gid p.1).map (·.live)).getD false)
        let s := ((s.modMx n (fun o => { o with stage := .applied, vals := [], flags := fl })).mxOff core n).giveToken (core / 64)
        .next (match o.kind with | .mmaa st => returnRegs s o.gid st.peers | _ => s)

/-- MATRIX_BATCH_COMPLETE (R201): a batch whose operations have all applied completes; an empty one when every earlier
number has. -/
def execMatrixBatchComplete (gid mx n : Nat) (s : State) : Host.Outcome State Fault Refusal :=
  match s.group gid with
  | none => .next s
  | some g =>
    let x := g.engCtx (4 + mx)
    let ops := (mxOpsOf s gid mx).filter (fun e => e.2.batch == some n)
    let taskNo := s.ops.any (fun o => o.2.gid == some gid && o.2.ectx == 4 + mx && o.2.num == n)
    if n = 0 ∨ x.issued < n ∨ x.isDone n ∨ taskNo ∨ ops.any (fun e => e.2.stage != .applied) ∨ (ops = [] ∧ x.tl + 1 < n) then
      .next s
    else
      let parts := ops.map (fun e => (⟨match e.2.kind with | .mmaa st => st.peers | _ => [], true, e.2.hb.now, [], []⟩ : DoneOp))
      let s := s.modGroup gid (fun g => g.complete (4 + mx) n false parts)
      .next { s with mxops := s.mxops.filter (fun e =>
        !(e.2.gid == gid && e.2.mx == mx && e.2.batch == some n && e.2.flags == [])) }

end Sys2Proof.Machine
end

