-- ==== Sys2Proof/Machine/TileTask.lean ====
section
/-! DEFINITION. Tile tasks (R205-R207) and the entries of the Gong that they share with kernels and graph nodes (R327,
R330): room, order by keys, dispatch, completion. -/
namespace Sys2Proof.Machine

/-! ## The Gong -/

/-- How many entries of a die's Gong are pending, and whether `n` more fit (R206). -/
def State.gongPending (s : State) (d : Nat) : Nat := (s.die d).gong.countP (fun e => !e.sent)
def State.gongRoom (s : State) (d n : Nat) : Bool := decide (s.gongPending d + n ≤ 4096)

/-- Adds an entry behind every other. -/
def State.gongPut (s : State) (d : Nat) (e : GongEntry) : State := s.setDie d { s.die d with gong := (s.die d).gong ++ [e] }
/-- Marks an entry as dispatched. -/
def State.gongSend (s : State) (d : Nat) (k : GongKind) : State :=
  s.setDie d { s.die d with gong := (s.die d).gong.map (fun e => if e.kind = k then { e with sent := true } else e) }

/-- The priority of an entry: one that has waited 65,536 Gong cycles counts as 3 (R327). -/
def GongEntry.rank (e : GongEntry) : Nat := if e.aged ∨ 65536 ≤ e.age then 3 else e.prio

/-- R327: whether an entry of a die has precedence, by priority, then age, over the other pending entries of its partition
that satisfy `ready`. -/
def State.gongFirst (s : State) (d : Nat) (k : GongKind) (ready : GongEntry → Bool) : Bool :=
  let l := (s.die d).gong
  match l.find? (fun e => e.kind == k) with
  | none => true
  | some mine =>
    let before := l.takeWhile (fun e => e.kind != k)
    !l.any (fun e => e.kind != k && !e.sent && vfOf e.cid == vfOf mine.cid && ready e &&
      (decide (mine.rank < e.rank) || (e.rank == mine.rank && before.any (fun b => b.kind == e.kind))))

/-! ## Task records (R205) -/

def tkCtx (r : Rec) : Nat := dbits r 3 1
def tkAslot (r : Rec) : Nat := dbits r 4 4
def tkWslot (r : Rec) : Nat := dbits r 8 4
def tkCslot (r : Rec) : Nat := dbits r 12 4
def tkSmod (r : Rec) : Nat := dbits r 16 4
def tkCin (r : Rec) : Bool := r.getLsbD 20
def tkCwe (r : Rec) : Bool := r.getLsbD 21
def tkM (r : Rec) : Nat := dbits r 24 8 + 1
def tkN (r : Rec) : Nat := dbits r 32 7 + 1
def tkAk0 (r : Rec) : Nat := dbits r 160 32
def tkAm0 (r : Rec) : Nat := dbits r 192 32
def tkWk0 (r : Rec) : Nat := dbits r 224 32
def tkWn0 (r : Rec) : Nat := dbits r 256 32
def tkCj0 (r : Rec) : Nat := dbits r 288 32
def tkCi0 (r : Rec) : Nat := dbits r 320 32
def tkKtot (r : Rec) : Nat := dbits r 352 32
def tkRk0 (r : Rec) : Nat := dbits r 384 32
def tkRk1 (r : Rec) : Nat := dbits r 416 32
def tkWk (r : Rec) : Nat := dbits r 448 32
def tkCwad (r : Rec) : Nat := dbits r 480 32

/-- R206: whether a task passes. Origins above a record's rank are accepted; what they name lies outside the
extents (log 92). A `ktot` that R205 does not list is accepted (log 103). -/
def taskOk (k : Kernel) (r a w c : Rec) : Bool :=
  dbits r 22 2 == 0 && dbits r 39 1 == 0 && dbits r 40 120 == 0 && dbits r 0 3 == 0 &&
    mmaaMod (BitVec.ofNat 4 (tkSmod r)) && a != 0#512 && w != 0#512 && c != 0#512 &&
    mxKmax (trFmt a) (trFmt w) (tkSmod r) != 0 && trFmt c == cFmt (tkSmod r) &&
    originOk (trFmt a) (tkAk0 r) && originOk (trFmt w) (tkWk0 r) &&
    (!tkCwe r || (tkCwad r % 4 == 0 && spOk k (tkCwad r) 4))

/-- TTASK (R206): a full Gong stalls it. -/
def execTtask (f : Fields) (s : State) : Host.Outcome State Fault Refusal :=
  runGuarded (.ttask f) f (fun e _ x => do
    let ad := sAddr x.a32 x.b32
    aligned (BitVec.ofNat 64 ad) 64
    let bs ← spRead e ad 64 none none
    let r := recOf bs
    let g ← getG e
    let a := g.slot (tkAslot r)
    let w := g.slot (tkWslot r)
    let c := g.slot (tkCslot r)
    let die := e.g.coreN / 64
    if !taskOk e.k r a w c then illegalOperand
    else if !e.s.gongRoom die 1 then exc .stall
    else
      let op := (← get).nextOp
      let n ← issueOp e (4 + tkCtx r) (.task r a w c none)
      modify (fun s => s.gongPut die (.fresh (.task op) e.g.cid e.k.prio.toNat))
      deliver e .alu f (wordsOf true (BitVec.ofNat 64 n))
      return 0#6) s

/-! ## Keys (R207, R330) -/

/-- The keys of an entry: those read, and the one written; 0 is none. -/
def gongKeys (s : State) : GongKind → List Nat × Nat
  | .task op => match mget s.ops op with
    | some o => (match o.kind with
      | .task r _ _ _ _ => ([tkRk0 r, tkRk1 r].filter (· != 0), tkWk r)
      | _ => ([], 0))
    | none => ([], 0)
  | .node gr n => match (mget s.graphs gr).bind (fun g => g.nodes[n]?) with
    | some (r, _) => ([dbits r 128 32, dbits r 160 32].filter (· != 0), dbits r 192 32)
    | none => ([], 0)
  | .kernel _ => ([], 0)

/-- R207: whether an entry must wait for an earlier one. -/
def keysConflict (s : State) (earlier later : GongKind) : Bool :=
  let e := gongKeys s earlier
  let l := gongKeys s later
  (e.2 != 0 && (l.1.contains e.2 || l.2 == e.2)) || (l.2 != 0 && e.1.contains l.2)

/-- The context of an entry. -/
def State.gongCid (s : State) (d : Nat) (k : GongKind) : Nat := (((s.die d).gong.find? (fun e => e.kind == k)).map (·.cid)).getD 0

/-- What completed work passes on by a key that it read or wrote joins what came before. -/
def keyPass (cid : Nat) (know : Clock) (l : List (Nat × Nat × Bool × Clock)) (x : Nat × Bool) : List (Nat × Nat × Bool × Clock) :=
  let same (e : Nat × Nat × Bool × Clock) : Bool := e.1 == cid && e.2.1 == x.1 && e.2.2.1 == x.2
  (cid, x.1, x.2, clockJoin know (((l.find? same).map (·.2.2.2)).getD [])) :: l.filter (fun e => !same e)

/-- Removes an entry whose work is over; later entries that conflict with it by keys will learn what it passes on (R207,
R330). -/
def State.gongDrop (s : State) (d : Nat) (k : GongKind) (know : Clock) : State :=
  let ks := gongKeys s k
  let keys := if know = [] then [] else ks.1.map (fun x => (x, false)) ++ (if ks.2 = 0 then [] else [(ks.2, true)])
  s.setDie d { s.die d with gong := (s.die d).gong.filter (fun e => e.kind != k)
                            keyVcs := keys.foldl (keyPass (s.gongCid d k) know) (s.die d).keyVcs }

/-- What completed work that conflicts by keys has passed on to an entry: what wrote a key that it reads or writes, and what
read a key that it writes (R207, R330). -/
def State.gongKnow (s : State) (d : Nat) (k : GongKind) : Clock :=
  let ks := gongKeys s k
  (s.die d).keyVcs.foldl (fun c e =>
    if e.1 = s.gongCid d k ∧ (e.2.1 = ks.2 ∨ (e.2.2.1 = true ∧ ks.1.contains e.2.1 = true)) then clockJoin c e.2.2.2 else c) []

/-- Whether an earlier entry of the same context on the die that is not complete conflicts. -/
def keyBlocked (s : State) (d cid : Nat) (k : GongKind) : Bool :=
  ((s.die d).gong.takeWhile (fun e => e.kind != k)).any (fun e => e.cid == cid && keysConflict s e.kind k)

/-- The quadrant of a core, and whether it belongs to a partition (R295). -/
def coreIn (p : Partition) (core : Nat) : Bool := p.qmask.getLsbD (core / 16)

/-! ## Running a task -/

/-- Whether a tile task runs on a core. -/
def taskOn (s : State) (core : Nat) : Bool :=
  s.ops.any (fun e => match e.2.kind with | .task _ _ _ _ (some c) => c == core | _ => false)

/-- Whether a Gong entry is a tile task that no earlier entry holds back. -/
def readyTask (s : State) (e : GongEntry) : Bool :=
  match e.kind with
  | .task op => (mget s.ops op).any (fun o => !keyBlocked s o.place.die o.cid (.task op))
  | _ => false

/-- TILE_TASK_DISPATCH (R203, R207, R327): the Gong gives a task that no earlier entry holds back, the first of its partition
by priority and age, to a free engine of its die. -/
def execTileTaskDispatch (op core : Nat) (s : State) : Host.Outcome State Fault Refusal :=
  match mget s.ops op with
  | none => .next s
  | some o =>
    match o.kind with
    | .task r a w c none =>
      let d := o.place.die
      if core / 64 = d ∧ coreIn (s.part (vfOf o.cid)) core ∧ (s.core core).mxq = [] ∧ !taskOn s core ∧
          !keyBlocked s d o.cid (.task op) ∧ s.gongFirst d (.task op) (readyTask s) then
        .next ((s.modOp op (fun o => { o with
          kind := .task r a w c (some core), hb := o.hb.learn (s.gongKnow d (.task op)) })).gongSend d (.task op))
      else .next s
    | _ => .next s

/-- The columns of a row from k0 on, `n` of them. -/
def MxRow.slice (r : MxRow) (k0 n : Nat) : MxRow :=
  { r with codes := (r.codes.drop k0).take n, scales := r.scales.drop (k0 / 32) }

/-- R206: one element: the segments of depth at most `kmax` in ascending order. -/
def taskElem (smod kmax ktot : Nat) (a w : MxRow) (acc : Nat) : Nat × FFlags :=
  (upFrom 0 ((ktot + kmax - 1) / kmax)).foldl (fun (x : Nat × FFlags) q =>
    let n := min kmax (ktot - q * kmax)
    let u := mxUpdate smod x.1 (a.slice (q * kmax) n) (w.slice (q * kmax) n)
    (u.1, x.2 ||| u.2)) (acc, 0#6)

/-- The rows of C from row i on, `n` of them: read where `cin` is set, updated, written. What stops a row comes with the
flags and the machine as the rows before it have left them. -/
def taskRows (s : State) (ag : EngAgent) (r a w c : Rec) (as ws : List MxRow) (fl : FFlags) :
    Nat → Nat → Except (EngStop × FFlags × State) (FFlags × State)
  | _, 0 => .ok (fl, s)
  | i, n + 1 =>
    let smod := tkSmod r
    let wd := fmtBits (cFmt smod) / 8
    let kmax := mxKmax (trFmt a) (trFmt w) smod
    let old : Except EngStop (List Byte × State) :=
      if tkCin r then readRow s ag c (tkCj0 r) (tkCi0 r + i) (tkN r) (wd * tkN r) else .ok ([], s)
    match old with
    | .error x => .error (x, fl, s)
    | .ok (bs, s1) =>
      let nj := rowCount c (tkCj0 r) (tkCi0 r + i) (tkN r)
      let us := (upFrom 0 nj).map (fun j =>
        taskElem smod kmax (tkKtot r) (as.getD i ⟨0, [], []⟩) (ws.getD j ⟨0, [], []⟩)
          (if tkCin r then leNat ((bs.drop (wd * j)).take wd) else mxIdentity smod))
      match writeRow s1 ag c (tkCj0 r) (tkCi0 r + i) (tkN r) (us.flatMap (fun u => leBytes wd u.1)) with
      | .error x => .error (x, fl, s1)
      | .ok s2 => taskRows s2 ag r a w c as ws (us.foldl (fun f u => f ||| u.2) fl) (i + 1) n

/-- R206: the whole task: its flags, and the machine after its writes. -/
def taskRun (s : State) (ag : EngAgent) (r a w c : Rec) : Except (EngStop × FFlags × State) (FFlags × State) :=
  match readRows s ag a true (tkAk0 r) (tkAm0 r) (tkKtot r) (tkM r) with
  | .error x => .error (x, 0#6, s)
  | .ok (as, s1) => match readRows s1 ag w true (tkWk0 r) (tkWn0 r) (tkKtot r) (tkN r) with
    | .error x => .error (x, 0#6, s1)
    | .ok (ws, s2) => taskRows s2 ag r a w c as ws 0#6 0 (tkM r)

/-- The end of a task (R207): the completion word, which carries the flags of the rows that were computed, the number, and the
Gong's entry once the number is complete. -/
def endTask (s : State) (op : Nat) (o : EngOp) (r : Rec) : State :=
  let word := 2 ^ 31 + (if o.err.isSome then 2 ^ 30 else 0) + (o.flags &&& (flNv ||| flOf ||| flAf)).toNat
  let o' := if tkCwe r && !o.ended then { o with hb := o.hb.tick } else o
  let s1 := if tkCwe r then endWithWord s op o' (tkCwad r) word else finishOp s op o'
  if (mget s1.ops op).isSome then s1
  else { s1 with dies := (s.gongDrop o.place.die (.task op) o'.hb.now).dies }

/-- TILE_TASK_COMPLETE (R206, R207, R176): each step takes a token and returns it (R22). What has performed before an error
remains (R270); a stalled task has performed nothing and holds no token. -/
def execTileTaskComplete (op : Nat) (s : State) : Host.Outcome State Fault Refusal :=
  match mget s.ops op with
  | none => .next s
  | some o =>
    match o.kind with
    | .task r a w c (some _) =>
      if o.failed s then .next (endTask s op o r)
      else if !o.goes || !s.tokenFree o.place.die then .next s
      else match taskRun s o.agent r a w c with
        | .ok (fl, s1) => .next (endTask s1 op { o with flags := fl } r)
        | .error (.error ca ad i, fl, s1) =>
          let s2 := stopOp (s1.modOp op (fun o => { o with flags := fl })) op o (.error ca ad i)
          .next (match mget s2.ops op with
            | some o => if o.failed s2 then endTask s2 op o r else s2
            | none => s2)
        | .error (x, _) => .next (stopOp s op o x)
    | _ => .next s

end Sys2Proof.Machine
end

