-- ==== Sys2Proof/Machine/Store.lean ====
section
/-! DEFINITION. The function store (R208-R221): descriptors, search and evaluation, the events of a table, and the
instructions that make them. -/
namespace Sys2Proof.Machine

/-! ## Descriptors (R96) -/

def fdEntry (d : Rec) : Nat := dbits d 0 56
def fdDim (d : Rec) : Nat := dbits d 64 4
def fdM (d : Rec) : Nat := dbits d 68 3
def fdGrow (d : Rec) : Bool := d.getLsbD 71
def fdPol (d : Rec) : Bool := d.getLsbD 72
def fdCap (d : Rec) : Nat := 2 ^ dbits d 80 4
def fdAtol (d : Rec) : Nat := dbits d 96 32
def fdRtol (d : Rec) : Nat := dbits d 128 32
def fdRadr (d : Rec) : Nat := dbits d 160 64
def radR0 (r : Rec) (i : Nat) : W32 := BitVec.ofNat 32 (dbits r (32 * i) 32)
def radMax (r : Rec) (i : Nat) : W32 := BitVec.ofNat 32 (dbits r (256 + 32 * i) 32)

/-- The exact value of an FP32 pattern. -/
def f32v (w : W32) : FV := decodeF .f32 w.toNat
/-- Whether a value is finite. -/
def FV.isFin : FV → Bool | .fin _ _ _ => true | _ => false
/-- Whether a value is finite and not less than zero. -/
def nonNeg (v : FV) : Bool := v.isFin && (v.isZero || !v.neg)

/-- R96 on a descriptor, its radius block apart. `lcap` has four bits, so that the depth 16 the rule names cannot be written: 0
is refused and 15 is the most (log 91). -/
def fdOk (d : Rec) : Bool :=
  dbits d 224 288 == 0 && dbits d 84 12 == 0 && dbits d 73 7 == 0 && dbits d 56 8 == 0 &&
    decide (1 ≤ fdDim d) && decide (fdDim d ≤ 8) && decide (1 ≤ fdM d) && decide (fdM d ≤ 4) && decide (2 ≤ fdCap d) &&
    fdEntry d % 8 == 0 && fdRadr d % 64 == 0 && nonNeg (decodeF .f32 (fdAtol d)) && nonNeg (decodeF .f32 (fdRtol d))

/-- R96 on a radius block. -/
def radOk (d r : Rec) : Bool :=
  (upFrom 0 8).all (fun i =>
    if i < fdDim d then
      nonNeg (f32v (radR0 r i)) && !(f32v (radR0 r i)).isZero && (f32v (radMax r i)).isFin &&
        cmpV (f32v (radMax r i)) (f32v (radR0 r i)) != .lt
    else radR0 r i == 0#32 && radMax r i == 0#32)

/-! ## Search and evaluation (R212, R213) -/

/-- The exact |x - y| of two FP32 values as a fraction; none where it is not finite. -/
def absDiff (x y : W32) : Option (Nat × Nat) :=
  match (sumV .rn [f32v x, (f32v y).flip]).1 with
  | .fin _ m e => if (f32v x).isFin && (f32v y).isFin then some (dyad m e) else none
  | _ => none

/-- A finite value as a fraction, its sign apart. -/
def fracOf : FV → Nat × Nat | .fin _ m e => dyad m e | _ => (0, 1)

def fracLe (a b : Nat × Nat) : Bool := decide (a.1 * b.2 ≤ b.1 * a.2)
def fracLt (a b : Nat × Nat) : Bool := decide (a.1 * b.2 < b.1 * a.2)

/-- The greatest ratio |x_i - x0_i| / r_i, or none where one is above 1. -/
def maxRatio : List W32 → List W32 → List W32 → Option (Nat × Nat)
  | x :: xs, y :: ys, r :: rs =>
    match absDiff x y, maxRatio xs ys rs with
    | some d, some m =>
      let rr := fracOf (f32v r)
      if fracLe d rr then
        let q := (d.1 * rr.2, d.2 * rr.1)
        some (if fracLt m q then q else m)
      else none
    | _, _ => none
  | _, _, _ => some (0, 1)

/-- The record of least greatest ratio, ties to the lower sequence number (records stand in ascending order of it). -/
def nearest (radii : FsRec → List W32) (x : List W32) : List FsRec → Option (FsRec × (Nat × Nat))
  | [] => none
  | r :: rs =>
    match maxRatio x r.x0 (radii r), nearest radii x rs with
    | some q, some (r', q') => if fracLt q' q then some (r', q') else some (r, q)
    | some q, none => some (r, q)
    | none, y => y

/-- R212: the record that a search hits. -/
def fsSearch (t : FsTable) (x : List W32) : Option FsRec :=
  if x.any (fun v => (f32v v).isNan) then none else (nearest (fun r => r.rad) x t.recs).map (·.1)

/-- R213: one result. -/
def fsEval1 (r : FsRec) (d k : Nat) (x : List W32) : W32 :=
  (upFrom 0 d).foldl (fun acc i =>
    let dl := (fSub .f32 .rn (x.getD i 0#32).toNat (r.x0.getD i 0#32).toNat).bits
    BitVec.ofNat 32 (fFma .f32 .rn (r.jac.getD (k * d + i) 0#32).toNat dl acc.toNat).bits) (r.y0.getD k 0#32)

/-- R213: the results. -/
def fsEval (t : FsTable) (r : FsRec) (x : List W32) : List W32 := (upFrom 0 (fdM t.desc)).map (fun k => fsEval1 r (fdDim t.desc) k x)

/-! ## Events of a table -/

/-- The counters by number (R209): hits 0, misses 1, growths 2, insertions 3, evictions 4, duplicates 5, rejects 6,
probes 7, flushes 8. -/
def FsTable.count (t : FsTable) (i : Nat) : FsTable :=
  { t with ctrs := (upFrom 0 9).map (fun j => if j = i then min (t.ctrs.getD j 0 + 1) 0xFFFFFFFF else t.ctrs.getD j 0) }

/-- A count event; a reject also sets its flag (R215). -/
def FsTable.countEv (t : FsTable) (i : Nat) : FsTable := let t := t.count i; if i = 6 then { t with rejected := true } else t

/-- One more hit of a record. -/
def FsRec.hit (r : FsRec) : FsRec := { r with hits := min (r.hits + 1) 0xFFFFFFFF }

/-- R213: a hit of a record; nothing where it is gone (R221). -/
def FsTable.hitEv (t : FsTable) (uid : Nat) : FsTable :=
  if t.recs.any (fun r => r.uid == uid) then
    FsTable.count { t with recs := t.recs.map (fun r => if r.uid = uid then r.hit else r) } 0
  else t

/-- R218: a flush. -/
def FsTable.flushEv (t : FsTable) (all : Bool) : FsTable :=
  let t := FsTable.count { t with recs := [] } 8
  if all then { t with ctrs := List.replicate 8 0 ++ [t.ctrs.getD 8 0], incons := false, rejected := false, next := 1 } else t

/-- R215: the record that a full table gives up. -/
def evictee (pol : Bool) : List FsRec → Option FsRec
  | [] => none
  | r :: rs => match evictee pol rs with
    | some v => if !pol && decide (v.hits < r.hits) then some v else some r
    | none => some r

/-- R209: renumbers the records where the next sequence number would pass 32 bits. -/
def FsTable.renumber (t : FsTable) : FsTable :=
  if t.next ≤ 0xFFFFFFFF then t
  else { t with recs := (t.recs.zip (upFrom 1 t.recs.length)).map (fun p => { p.1 with seq := p.2 }), next := t.recs.length + 1 }

/-- R215: the insertion. -/
def FsTable.insertEv (t : FsTable) (x y jac : List W32) : FsTable :=
  let t := if fdCap t.desc ≤ t.recs.length then
      (match evictee (fdPol t.desc) t.recs with
       | some v => FsTable.count { t with recs := t.recs.filter (fun r => r.seq != v.seq) } 4
       | none => t)
    else t
  let t := t.renumber
  let r : FsRec := { x0 := x, y0 := y, jac := jac, rad := (upFrom 0 (fdDim t.desc)).map (radR0 t.rad), hits := 0, seq := t.next,
                     uid := t.made, bad := false }
  FsTable.count { t with recs := t.recs ++ [r], next := t.next + 1, made := t.made + 1 } 3

/-- R215: whether a record's results lie within the tolerances of y. -/
def withinTol (t : FsTable) (g : FsRec) (x y : List W32) : Bool :=
  ((fsEval t g x).zip y).all (fun p =>
    let d := (sumV .rn [f32v p.1, (f32v p.2).flip]).1.abs
    let lim := (sumV .rn [decodeF .f32 (fdAtol t.desc), (mulV (decodeF .f32 (fdRtol t.desc)) (f32v p.2).abs).1]).1
    d.isFin && cmpV d lim != .gt)

/-- R215: the radius that contains x. -/
def grownRad (r mx x x0 : W32) : W32 :=
  let up : Nat := (roundV .f32 .ru false ((sumV .rn [f32v x, (f32v x0).flip]).1.abs)).bits
  BitVec.ofNat 32 (min mx.toNat (max r.toNat up))

/-- R215 from "one event" on: the table, and whether `incons` was set. -/
def FsTable.updateEv (t : FsTable) (x y jac : List W32) : FsTable × Bool :=
  match t.recs.find? (fun r => r.x0 == x) with
  | some r =>
    let t := FsTable.count { t with recs := t.recs.map (fun q => if q.seq = r.seq then q.hit else q) } 5
    if r.y0 = y then (t, false) else ({ t with incons := true }, true)
  | none =>
    let near := if fdGrow t.desc then nearest (fun _ => (upFrom 0 (fdDim t.desc)).map (radMax t.rad)) x t.recs else none
    match near with
    | some (g, _) =>
      if withinTol t g x y then
        let rad := (upFrom 0 (fdDim t.desc)).map (fun i =>
          grownRad (g.rad.getD i 0#32) (radMax t.rad i) (x.getD i 0#32) (g.x0.getD i 0#32))
        (FsTable.count { t with recs := t.recs.map (fun q => if q.seq = g.seq then { q with rad := rad } else q) } 2, false)
      else (t.insertEv x y jac, false)
    | none => (t.insertEv x y jac, false)

/-! ## Slots of a context -/

/-- The table slot of a context. -/
def State.fsSlot (s : State) (cid n : Nat) : FsSlot := mgetD (s.ctx cid).tables n FsSlot.empty
def State.setFsSlot (s : State) (cid n : Nat) (v : FsSlot) : State :=
  s.setCtx cid { s.ctx cid with tables := mset (s.ctx cid).tables n v }
/-- Changes the table of a slot that holds one. -/
def State.modTable (s : State) (cid n : Nat) (h : FsTable → FsTable) : State :=
  match (s.fsSlot cid n).table with
  | some t => s.setFsSlot cid n { s.fsSlot cid n with table := some (h t) }
  | none => s

/-- R221: the slot as a launch sees it: as it stands, or as it stood at the start of the interval. -/
def seenSlot (s : State) (k : Kernel) (n : Nat) : FsSlot :=
  if s.level k.cid = 0 then s.fsSlot k.cid n else mgetD k.snapTables n FsSlot.empty

/-- The records of a context's tables on a die, one slot apart (R208, R211). -/
def fsUsed (tables : AMap FsSlot) (die skip : Nat) : Nat :=
  tables.foldl (fun n e => match e.2.table with
    | some t => if t.home = die ∧ e.1 ≠ skip then n + fdCap t.desc else n
    | none => n) 0

/-- R211: a descriptor takes a slot: the old table is discarded, the generation rises. -/
def State.fsInstall (s : State) (cid n : Nat) (d rad : Rec) (die : Nat) : State :=
  let old := s.fsSlot cid n
  s.setFsSlot cid n ⟨if d = 0#512 then none else some ⟨d, rad, [], List.replicate 9 0, false, false, 1, 0, die⟩, old.gen + 1⟩

/-- R211: whether a table fits the allotment of a die. -/
def fsRoom (s : State) (k : Kernel) (d : Rec) (n die : Nat) : Bool :=
  let tables := if s.level k.cid = 0 then (s.ctx k.cid).tables else k.snapTables
  decide (fsUsed tables die n + fdCap d ≤ (s.ctx k.cid).fsa.toNat)

/-- An event of a table: at once in the open level, queued for the merge otherwise (R221). -/
def tableEvent (e : Env) (item : MItem) (now : State → State) : SlotM Unit :=
  if e.s.level e.g.cid = 0 then modify now else queueItem e 0#64 item

/-! ## FCALL, FSPROBE (R212-R214, R217) -/

/-- The number of a main register field. -/
def mainIx (o : Operand) : Nat := match o with | .main i => i.toNat | _ => 0

/-- The table that an instruction names, with its slot's generation; `illegal-operand` where the slot is empty. -/
def tableOf (e : Env) (n : Nat) : SlotM (FsTable × Nat) := do
  let sl := seenSlot (← get) e.k n
  match sl.table with
  | some t => return (t, sl.gen)
  | none => illegalOperand

/-- R428: a search or an update reads every record; a failing one traps `data-integrity` before any effect. -/
def fsSound (t : FsTable) : SlotM Unit := if t.recs.any (·.bad) then raise .dataIntegrity 0#64 0#32 else return ()

/-- The range check of R212. -/
def fsRanges (t : FsTable) (a d : Nat) : SlotM Unit :=
  if 127 < a + fdDim t.desc - 1 ∨ 127 < d + fdM t.desc - 1 then illegalOperand else return ()

/-- What the result registers of a miss hold until FRET: no stated value. At levels 1 and 2 it follows from the thread (R412). -/
def missBits (e : Env) (r : Nat) : W32 :=
  lo32 (Config.freeBits (1000 + r) (if e.s.level e.g.cid = 0 then e.s.tick else e.th.wid.toNat))

/-- FCALL (R212-R214). A miss gives its result registers their places. -/
def execFcall (f : Fields) (s : State) : Host.Outcome State Fault Refusal :=
  runInstr (.fcall f) f (fun e en => do
    let th ← getTh e
    if guardOf f th then
      let n := unitIx f.b
      let (t, gen) ← tableOf e n
      let vd := mainIx f.d
      fsRanges t (mainIx f.a) vd
      if th.frames.any (fun fr => fr.table == n) then raise .storeRecursion 0#64 (BitVec.ofNat 32 n)
      else
        fsSound t
        let x ← onThread e (readRun f.a 0 (fdDim t.desc))
        let rs := upFrom vd (fdM t.desc)
        onThread e (takeMain rs)
        match fsSearch t x with
        | some r =>
          tableEvent e (.fsHit n gen r.uid) (fun s => s.modTable e.g.cid n (fun t => t.hitEv r.uid))
          onThread e (postpone .fs f.ahd f.d (fsEval t r x) [])
          endSlot e 0#6
        | none =>
          if 4 ≤ th.frames.length then raise .storeRecursion 0#64 (BitVec.ofNat 32 n)
          else
            tableEvent e (.fsCount n gen 1) (fun s => s.modTable e.g.cid n (fun t => t.countEv 1))
            modTh e (fun th =>
              let th := { th with regs := rs.foldl (fun m r => if th.held r then m
                                    else mset m r (missBits e r)) th.regs }
              { th.jump (BitVec.ofNat 64 (fdEntry t.desc)) with
                frames := ⟨n, gen, vd, fdM t.desc, x, e.cur.next, e.cur.nextRep⟩ :: th.frames })
    else
      onThread e (guardedOff e en f true)
      endSlot e 0#6) s

/-- FSPROBE (R217). -/
def execFsprobe (f : Fields) (s : State) : Host.Outcome State Fault Refusal :=
  runGuarded (.fsprobe f) f (fun e _ _ => do
    let n := unitIx f.b
    let (t, gen) ← tableOf e n
    fsRanges t (mainIx f.a) (mainIx f.d)
    fsSound t
    let x ← onThread e (readRun f.a 0 (fdDim t.desc))
    let r := fsSearch t x
    match r with
    | some r => onThread e (postpone .fs f.ahd f.d (fsEval t r x) [(predIx f.c, true)])
    | none => onThread e (postpone .fs f.ahd f.d [] [(predIx f.c, false)])
    tableEvent e (.fsCount n gen 7) (fun s => s.modTable e.g.cid n (fun t => t.countEv 7))
    return 0#6) s

/-! ## FRET (R215, R220) -/

/-- R215 before its last writes: what the table undergoes, and whether the thread traps `store-incons`. -/
def fretEvent (e : Env) (fr : StoreFrame) (y jac : List W32) : SlotM Bool := do
  let sl := seenSlot (← get) e.k fr.table
  if fr.gen ≠ sl.gen ∨ sl.table.isNone ∨ fr.x.any (fun v => (f32v v).isNan) then return false
  else if (y ++ jac).any (fun v => !(f32v v).isFin) then
    tableEvent e (.fsCount fr.table fr.gen 6) (fun s => s.modTable e.g.cid fr.table (fun t => t.countEv 6))
    return false
  else
    let t := sl.table.getD ⟨0#512, 0#512, [], [], false, false, 1, 0, 0⟩
    fsSound t
    let bad := (t.updateEv fr.x y jac).2
    tableEvent e (.fsUpdate fr.table fr.gen fr.x y jac)
      (fun s => s.modTable e.g.cid fr.table (fun t => (t.updateEv fr.x y jac).1))
    return e.s.level e.g.cid == 0 && bad && (e.s.ctx e.g.cid).ien.getLsbD fr.table

/-- FRET (R215); it ends the windows of its thread (log 90). -/
def execFret (f : Fields) (s : State) : Host.Outcome State Fault Refusal :=
  runInstr (.fret f) f (fun e en => do
    let th ← getTh e
    if guardOf f th then
      match th.frames with
      | [] => illegalOperand
      | fr :: rest =>
        let d := fr.x.length
        if fr.table ≠ unitIx f.c ∨ 127 < mainIx f.a + fr.m - 1 ∨ 127 < mainIx f.b + fr.m * d - 1 then illegalOperand
        else
          let y ← onThread e (readRun f.a 0 fr.m)
          let jac ← onThread e (readRun f.b 0 (fr.m * d))
          onThread e (takeMain (upFrom fr.vd fr.m))
          let inc ← fretEvent e fr y jac
          onThread e (writeMain (numbered fr.vd y))
          modTh e (fun th => { th.jump fr.ret with rep := fr.rep, frames := rest })
          if inc then trapNow e .storeIncons fr.ret fr.rep 0#64 (BitVec.ofNat 32 fr.table)
    else
      onThread e (guardedOff e en f true)
      endSlot e 0#6) s

/-! ## FSDESC, FSFLUSH, FSSTAT (R211, R218, R219) -/

/-- FSDESC (R211). -/
def execFsdesc (f : Fields) (s : State) : Host.Outcome State Fault Refusal :=
  runGuarded (.fsdesc f) f (fun e _ x => do
    let n := unitIx f.c
    let die := e.g.coreN / 64
    let a ← gAddrOk x.a x.b32 0#2
    aligned a 64
    let bs ← gRead e e.via 0#2 (vaRange a 64) none none
    let d := recOf bs
    if d = 0#512 then
      tableEvent e (.fsDesc n d 0#512 die) (fun s => s.fsInstall e.g.cid n d 0#512 die)
      return 0#6
    else if !fdOk d then illegalOperand
    else
      let rb ← gRead e e.via 0#2 (vaRange (BitVec.ofNat 64 (fdRadr d)) 64) none none
      let rad := recOf rb
      if !radOk d rad then illegalOperand
      else if !fsRoom e.s e.k d n die then raise .illegalOperand 0#64 1#32
      else
        tableEvent e (.fsDesc n d rad die) (fun s => s.fsInstall e.g.cid n d rad die)
        return 0#6) s

/-- The event of a flush. -/
def flushSlot (e : Env) (n : Nat) (all : Bool) : SlotM FFlags := do
  let (_, gen) ← tableOf e n
  tableEvent e (.fsFlush n gen all) (fun s => s.modTable e.g.cid n (fun t => t.flushEv all))
  return 0#6

/-- FSFLUSH (R218). -/
def execFsflush (f : Fields) (s : State) : Host.Outcome State Fault Refusal :=
  runGuarded (.fsflush f) f (fun e _ _ => flushSlot e (unitIx f.a) false) s

/-- FSFLUSH_ALL (R218). -/
def execFsflushAll (f : Fields) (s : State) : Host.Outcome State Fault Refusal :=
  runGuarded (.fsflushAll f) f (fun e _ _ => flushSlot e (unitIx f.a) true) s

/-- R219: a word of a table. -/
def fsWord (t : FsTable) (b : Nat) : Nat :=
  match b with
  | 9 => bitN t.incons + 2 * bitN t.rejected
  | 10 => t.recs.length
  | 11 => fdCap t.desc
  | n => t.ctrs.getD n 0

/-- R209: a word of a record. -/
def FsRec.word (r : FsRec) (d w : Nat) : W32 :=
  if w < 8 then r.x0.getD w 0#32
  else if w < 12 then r.y0.getD (w - 8) 0#32
  else if w < 44 then
    (if (w - 12) % 8 < d then r.jac.getD ((w - 12) / 8 * d + (w - 12) % 8) 0#32 else 0#32)
  else if w < 52 then r.rad.getD (w - 44) 0#32
  else if w = 52 then BitVec.ofNat 32 r.hits
  else if w = 53 then BitVec.ofNat 32 r.seq
  else 0#32

/-- FSSTAT (R219). -/
def execFsstat (f : Fields) (s : State) : Host.Outcome State Fault Refusal :=
  runGuarded (.fsstat f) f (fun e _ x => do
    let (t, _) ← tableOf e (unitIx f.a)
    if 11 < x.b32.toNat then illegalOperand
    else
      deliver e .fs f [BitVec.ofNat 32 (fsWord t x.b32.toNat)]
      return 0#6) s

/-- FSSTAT_REC (R219). -/
def execFsstatRec (f : Fields) (s : State) : Host.Outcome State Fault Refusal :=
  runGuarded (.fsstatRec f) f (fun e _ x => do
    let (t, _) ← tableOf e (unitIx f.a)
    let b := x.b32.toNat
    if 2 ^ 22 ≤ b then illegalOperand
    else if (t.recs[b / 64]?).any (·.bad) then raise .dataIntegrity 0#64 0#32
    else
      deliver e .fs f [match t.recs[b / 64]? with | some r => r.word (fdDim t.desc) (b % 64) | none => 0#32]
      return 0#6) s

end Sys2Proof.Machine
end

