-- ==== Sys2Proof/Machine/Hart.lean ====
section
/-! DEFINITION. The hart of a group (R251): RV64GC in user mode under the context's translation, the Xkf instructions
(R252), and how it stops or waits. The RV64GC semantics are PRESUMED from the ratified user ISA (log 15). -/
namespace Sys2Proof.Machine

/-! ## Running a hart -/

/-- How a hart's instruction ends early: an exception (cause, address, information), a failed translation that waits
(R374), a wait that tries the instruction again, a merge entry that is not free (R416). -/
inductive HEx where
  | stop (c : Cause) (a : W64) (i : W32)
  | wait (rec : Option (Bool × W64 × W32)) (f : FaultWait)
  | again
  | held
  deriving DecidableEq, Repr

/-- What a hart's instruction reads beside its hart: the group, its kernel, the hart before the instruction, the number of
this execution. -/
structure HEnv where
  gid : Nat
  g   : Group
  k   : Kernel
  h   : Hart
  po  : Nat

/-- Computations of a hart's instruction over the whole machine. -/
abbrev HartM (α : Type) := StateT State (Except HEx) α

def hex {α : Type} (x : HEx) : HartM α := fun _ => .error x
def hstop {α : Type} (c : Cause) (a : W64) : HartM α := hex (.stop c a 0#32)
def hartIllegal {α : Type} : HartM α := hstop .illegalEncoding 0#64

/-- Whether a hart executes: it runs, a replay has woken it, or it tries a held store again. -/
def Hart.goes (h : Hart) : Bool := match h.status with | .running => true | .held => true | .waiting f => f.woken | _ => false

def State.modHart (s : State) (gid : Nat) (m : Hart → Hart) : State := s.modGroup gid (fun g => { g with hart := m g.hart })
def modH (e : HEnv) (m : Hart → Hart) : HartM Unit := modify (fun s => s.modHart e.gid m)
def getH (e : HEnv) : HartM Hart := do return (((← get).group e.gid).map (·.hart)).getD e.h
def getHG (e : HEnv) : HartM Group := do return ((← get).group e.gid).getD e.g

/-- The hart being executed, if there is one and it executes. -/
def henvOf (s : State) : Option HEnv :=
  match s.curHart with
  | none => none
  | some gid => match s.group gid with
    | none => none
    | some g => match s.kernel g.kid with
      | some k => if g.hart.goes && g.isResident then some ⟨gid, g, k, g.hart, s.nextInst⟩ else none
      | none => none

/-- R251: the record of a hart's exception. -/
def hartRecord (s : State) (e : HEnv) (c : Cause) (a : W64) (i : W32) (again : Bool) : State :=
  (ctxRecord s e.g.cid { FaultRec.of c with
    core := BitVec.ofNat 16 e.g.coreN, addr := a, pc := e.h.pc, wid := e.g.gwid, info := i, hart := true,
    refault := again }).1

/-- Whether the hart tries an access again after a replay (R376). -/
def HEnv.again (e : HEnv) : Bool := match e.h.status with | .waiting _ => true | _ => false

/-- What an instruction that ended early leaves. -/
def resolveH (e : HEnv) (s : State) (x : HEx) : State :=
  match x with
  | .stop c a i => (hartRecord s e c a i false).modHart e.gid (fun h => { h with status := .stopped c })
  | .wait r f =>
    let s := match r with
      | none => s
      | some (false, a, i) => hartRecord s e .translation a i e.again
      | some (true, a, i) => partRecord s e.g.cid { FaultRec.of .range with
          core := BitVec.ofNat 16 e.g.coreN, addr := a, info := i, hart := true }
    s.modHart e.gid (fun h => { h with status := .waiting f })
  | .again => s
  | .held => (noteHeld s e.g.cid e.g.kid).modHart e.gid (fun h => { h with status := .held })

/-- Runs an instruction of the hart. -/
def runHart (m : HEnv → HartM Unit) (s : State) : Host.Outcome State Fault Refusal :=
  match henvOf s with
  | none => .fault .noHart
  | some e =>
    match m e s.bumpInst with
    | .ok (_, s') => .next (s'.modHart e.gid (fun h => match h.status with
        | .waiting _ => { h with status := .running }
        | .held => { h with status := .running }
        | _ => h))
    | .error x => .next (resolveH e s x)

/-! ## Registers -/

/-- The value of an integer register; x0 is zero. -/
def Hart.xr (h : Hart) (r : BitVec 5) : W64 := if r = 0#5 then 0#64 else mgetD h.x r.toNat 0#64
/-- Writes an integer register; x0 discards writes. -/
def Hart.setX (h : Hart) (r : BitVec 5) (v : W64) : Hart := if r = 0#5 then h else { h with x := mset h.x r.toNat v }
def Hart.fr (h : Hart) (r : BitVec 5) : W64 := mgetD h.f r.toNat 0#64
def Hart.setF (h : Hart) (r : BitVec 5) (v : W64) : Hart := { h with f := mset h.f r.toNat v }

/-- A single-precision register value: the canonical NaN where it is not boxed. -/
def unbox (v : W64) : Nat := if hi32 v = 0xFFFFFFFF#32 then (lo32 v).toNat else 0x7FC00000
/-- A boxed single. -/
def nanBox (v : Nat) : W64 := pair64 (BitVec.ofNat 32 v) 0xFFFFFFFF#32

/-- The pattern in a floating-point register. -/
def Hart.fp (h : Hart) (dbl : Bool) (r : BitVec 5) : Nat := if dbl then (h.fr r).toNat else unbox (h.fr r)
/-- Writes a pattern to a floating-point register. -/
def Hart.setFp (h : Hart) (dbl : Bool) (r : BitVec 5) (v : Nat) : Hart :=
  h.setF r (if dbl then BitVec.ofNat 64 v else nanBox v)

/-- The instruction after this one. -/
def hartNext (e : HEnv) (len : Nat) : HartM Unit := modH e (fun h => { h with pc := e.h.pc + BitVec.ofNat 64 len })

/-- Writes rd and goes on. -/
def hartSet (e : HEnv) (len : Nat) (rd : BitVec 5) (v : W64) : HartM Unit := do
  modH e (fun h => h.setX rd v)
  hartNext e len

/-! ## Memory -/

/-- Where the hart stands for the scopes of R258: in its group and in no subgroup. -/
def HEnv.place (e : HEnv) : Place := { placeOf e.k e.gid e.g 0 with sg := 2 ^ 32 }

/-- What a failed translation means for a hart (R374). -/
def hartXl (f : XlFault) (va : W64) (acc : BitVec 2) : HEx :=
  match xlExc f va acc with
  | .trap c a i => .stop c a i
  | .replay r w => .wait r w
  | _ => .again

/-- The physical addresses of bytes. -/
def hXlate (e : HEnv) (acc : BitVec 2) (vas : List W64) : HartM (List Nat) := fun s =>
  match xlateBytes s (.core e.g.coreN) e.g.cid acc vas with
  | .error (f, va) => .error (hartXl f va acc)
  | .ok (pas, s') => match s'.sendOut e.g.cid acc pas with
    | some s'' => .ok (pas, s''.arrive e.g.cid vas pas)
    | none => .error .again

/-- Where translated bytes stand for the hart's launch. -/
def hHome (e : HEnv) (vas : List W64) (pas : List Nat) : HartM (List Nat) := fun s => .ok (s.homes e.g.kid vas pas)

/-- The race check of an access (R268-R269), as of a thread of the group; only in the open level. -/
def hTouch (e : HEnv) (vas : List W64) (pas : List Nat) (wr : Bool) (atomic : Option (BitVec 3)) : HartM Unit := do
  if (← get).level e.g.cid ≠ 0 then return ()
  else
    let h ← getH e
    let new := h.hb.stamp wr atomic false e.place
    match (← get).stampBad pas, findRace (← get).stamps h.hb new pas with
    | some a, _ => hstop .dataIntegrity (vas.getD (pas.idxOf a) 0#64)
    | none, some (a, o) => hex (.stop .race (vas.getD (pas.idxOf a) 0#64) (raceInfo o new))
    | none, none => modify (fun s => stampGlobal s e.g.cid new pas)

/-- The bytes at translated addresses as the hart reads them (R162). -/
def hBytes (e : HEnv) (vas : List W64) (pas : List Nat) (acq : Option (BitVec 3)) : HartM (List Byte) := do
  let s ← get
  match pas.find? (s.unitBad (s.ctx e.g.cid).keyId) with
  | some a => hstop .dataIntegrity (vas.getD (pas.idxOf a) 0#64)
  | none =>
    modH e (fun h => { h with hb := h.hb.readHeads e.place acq (headsAt s.rels pas) })
    if s.level e.g.cid = 0 then return pas.map s.mem.get
    else
      let hs ← hHome e vas pas
      let g ← getHG e
      let k := ((← get).kernel e.g.kid).getD e.k
      return hs.map (taskView k g s.mem).get

/-- A read of global memory. -/
def hRead (e : HEnv) (acc : BitVec 2) (a : W64) (n : Nat) : HartM (List Byte) := do
  let vas := vaRange a n
  let pas ← hXlate e acc vas
  hTouch e vas pas false none
  hBytes e vas pas none

/-- Queues an update of the hart for the merge (R162, R273). -/
def hQueue (e : HEnv) (va : W64) (item : MItem) : HartM Unit := do
  let s ← get
  match pushRec s e.g.cid ((s.group e.gid).getD e.g).pendW (.of none e.po e.g.gwid va none item) with
  | some l => modify (fun s => s.modGroup e.gid (fun g => { g with pendW := l }))
  | none => hex .held

/-- A plain write of global memory. -/
def hWrite (e : HEnv) (a : W64) (bs : List Byte) : HartM Unit := do
  let vas := vaRange a bs.length
  let pas ← hXlate e 1#2 vas
  hTouch e vas pas true none
  if (← get).level e.g.cid = 0 then
    let s ← get
    match s.writeBad (s.ctx e.g.cid).keyId pas with
    | some b => hstop .dataIntegrity (vas.getD (pas.idxOf b) 0#64)
    | none => modify (fun s => { pokeRuns s (s.ctx e.g.cid).keyId pas bs with rels := writeHeads s.rels pas false [] })
  else
    let hs ← hHome e vas pas
    hQueue e a (.write (hs.zip bs))

/-- A misaligned access is an exception. -/
def hAligned (a : W64) (n : Nat) : HartM Unit :=
  if a.toNat % n = 0 then return () else hex (.stop .alignment a (BitVec.ofNat 32 n))

/-- Atomics exist on global memory in the open level only (R251). -/
def hOpen (e : HEnv) : HartM Unit := do
  if (← get).level e.g.cid = 0 then return () else hstop .nondeterministic 0#64

/-- What an AMO writes, on `w` bits. -/
def amoVal (o : RvAmo) (w old c : Nat) : Nat :=
  match o with
  | .swap => c
  | .add => redOpI 0 old c w
  | .xor => old ^^^ c
  | .and => old &&& c
  | .or => old ||| c
  | .min => redOpI 1 old c w
  | .max => redOpI 2 old c w
  | .minu => redOpI 3 old c w
  | .maxu => redOpI 4 old c w

/-- A release makes later events new. -/
def hTick (e : HEnv) (ord : BitVec 2) : HartM Unit :=
  if ord == 2#2 || ord == 3#2 then modH e (fun h => { h with hb := h.hb.tick }) else return ()

/-- The scope of a hart's atomics: the system. -/
def hScope : BitVec 3 := 4#3

/-- A read-modify-write at an aligned address: the old value. -/
def hAmo (e : HEnv) (ord : BitVec 2) (a : W64) (n : Nat) (op : Nat → Nat) : HartM Nat := do
  let vas := vaRange a n
  let pas ← hXlate e 3#2 vas
  hTouch e vas pas true (some hScope)
  let bs ← hBytes e vas pas (if ord.getLsbD 0 then some hScope else none)
  let h ← getH e
  modify (fun s =>
    { pokeRuns s (s.ctx e.g.cid).keyId pas (leBytes n (op (leNat bs))) with
      rels := writeHeads s.rels pas true (headsOf h.hb ord hScope e.place) })
  hTick e ord
  return leNat bs

/-- A value of `n` bytes in a register: words are sign-extended. -/
def hVal (n : Nat) (v : Nat) : W64 := if n = 4 then (BitVec.ofNat 32 v).signExtend 64 else BitVec.ofNat 64 v

/-- LR. -/
def hLr (e : HEnv) (ord : BitVec 2) (a : W64) (n : Nat) : HartM Nat := do
  let vas := vaRange a n
  let pas ← hXlate e 0#2 vas
  hTouch e vas pas false (some hScope)
  let bs ← hBytes e vas pas (if ord.getLsbD 0 then some hScope else none)
  modify (fun s => { s with resv := (e.gid, pas.headD 0 / 8 * 8) :: s.resv.filter (fun r => r.1 != e.gid) })
  return leNat bs

/-- SC: whether it stored. -/
def hSc (e : HEnv) (ord : BitVec 2) (a : W64) (n v : Nat) : HartM Bool := do
  let vas := vaRange a n
  let pas ← hXlate e 1#2 vas
  let has := (← get).resv.contains (e.gid, pas.headD 0 / 8 * 8)
  modify (fun s => { s with resv := s.resv.filter (fun r => r.1 != e.gid) })
  if has then
    hTouch e vas pas true (some hScope)
    let h ← getH e
    let s ← get
    match s.writeBad (s.ctx e.g.cid).keyId pas with
    | some b => hstop .dataIntegrity (vas.getD (pas.idxOf b) 0#64)
    | none =>
      modify (fun s =>
        { pokeRuns s (s.ctx e.g.cid).keyId pas (leBytes n v) with
          rels := writeHeads s.rels pas true (headsOf h.hb ord hScope e.place) })
      hTick e ord
      return true
  else return false

/-! ## Integer semantics -/

/-- An integer operation on 64 bits; a shift uses the low 6 bits of its amount. -/
def rvAlu (o : RvAlu) (a b : W64) : W64 :=
  match o with
  | .add => a + b
  | .sub => a - b
  | .sll => a <<< (b.toNat % 64)
  | .slt => if a.toInt < b.toInt then 1#64 else 0#64
  | .sltu => if a.toNat < b.toNat then 1#64 else 0#64
  | .xor => a ^^^ b
  | .srl => a >>> (b.toNat % 64)
  | .sra => a.sshiftRight (b.toNat % 64)
  | .or => a ||| b
  | .and => a &&& b

/-- An integer operation on 32 bits, its result sign-extended; a shift uses the low 5 bits of its amount. -/
def rvAluW (o : RvAlu) (a b : W64) : W64 :=
  let x := lo32 a
  let y := lo32 b
  (match o with
   | .sub => x - y
   | .sll => x <<< (y.toNat % 32)
   | .srl => x >>> (y.toNat % 32)
   | .sra => x.sshiftRight (y.toNat % 32)
   | _ => x + y).signExtend 64

/-- Division of the M extension on `w`-bit signed or unsigned integers: by zero all ones, on overflow the dividend. -/
def rvDiv (a b : Int) : Int := if b = 0 then -1 else a.tdiv b
/-- Remainder: by zero the dividend. -/
def rvRem (a b : Int) : Int := if b = 0 then a else a.tmod b

def rvMul (o : RvMul) (a b : W64) : W64 :=
  match o with
  | .mul => a * b
  | .mulh => BitVec.ofInt 64 (a.toInt * b.toInt / 2 ^ 64)
  | .mulhsu => BitVec.ofInt 64 (a.toInt * b.toNat / 2 ^ 64)
  | .mulhu => BitVec.ofNat 64 (a.toNat * b.toNat / 2 ^ 64)
  | .div => BitVec.ofInt 64 (rvDiv a.toInt b.toInt)
  | .divu => BitVec.ofInt 64 (rvDiv a.toNat b.toNat)
  | .rem => BitVec.ofInt 64 (rvRem a.toInt b.toInt)
  | .remu => BitVec.ofInt 64 (rvRem a.toNat b.toNat)

def rvMulW (o : RvMul) (a b : W64) : W64 :=
  let x := lo32 a
  let y := lo32 b
  (match o with
   | .div => BitVec.ofInt 32 (rvDiv x.toInt y.toInt)
   | .divu => BitVec.ofInt 32 (rvDiv x.toNat y.toNat)
   | .rem => BitVec.ofInt 32 (rvRem x.toInt y.toInt)
   | .remu => BitVec.ofInt 32 (rvRem x.toNat y.toNat)
   | _ => x * y).signExtend 64

def rvTaken (c : RvBr) (a b : W64) : Bool :=
  match c with
  | .eq => a == b | .ne => a != b | .lt => decide (a.toInt < b.toInt) | .ge => decide (b.toInt ≤ a.toInt)
  | .ltu => decide (a.toNat < b.toNat) | .geu => decide (b.toNat ≤ a.toNat)

/-- The value of a load of width code `w` (0 b, 1 h, 2 w, 3 d, 4 bu, 5 hu, 6 wu). -/
def loadVal (w : BitVec 3) (v : Nat) : W64 :=
  match w.toNat with
  | 0 => (BitVec.ofNat 8 v).signExtend 64
  | 1 => (BitVec.ofNat 16 v).signExtend 64
  | 2 => (BitVec.ofNat 32 v).signExtend 64
  | _ => BitVec.ofNat 64 v

/-! ## Floating point -/

/-- RISC-V flags NV, DZ, OF, UF, NX in bits 4 to 0. -/
def rvFlags (fl : FFlags) : BitVec 8 :=
  BitVec.ofNat 8 (16 * bitN (fl.getLsbD 0) + 8 * bitN (fl.getLsbD 1) + 4 * bitN (fl.getLsbD 2) + 2 * bitN (fl.getLsbD 3) +
    bitN (fl.getLsbD 4))

/-- The mode that an `rm` field selects; none where it is reserved. -/
def rvMode (h : Hart) (rm : BitVec 3) : Option RM :=
  let r : Nat := if rm = 7#3 then (h.fcsr.extractLsb' 5 3).toNat else rm.toNat
  match r with
  | 0 => some .rn | 1 => some .rz | 2 => some .rd | 3 => some .ru | 4 => some .rmm | _ => none

def fmtOf (dbl : Bool) : FFmt := if dbl then .f64 else .f32

/-- Writes a floating-point result and its flags, and goes on. -/
def hartFp (e : HEnv) (len : Nat) (dbl : Bool) (rd : BitVec 5) (r : FRes) : HartM Unit := do
  modH e (fun h => { h.setFp dbl rd r.bits with fcsr := h.fcsr ||| rvFlags r.flags })
  hartNext e len

/-- Writes an integer result of a floating-point instruction. -/
def hartFpX (e : HEnv) (len : Nat) (rd : BitVec 5) (v : W64) (fl : FFlags) : HartM Unit := do
  modH e (fun h => { h.setX rd v with fcsr := h.fcsr ||| rvFlags fl })
  hartNext e len

/-- An instruction with a rounding mode. -/
def withMode (e : HEnv) (rm : BitVec 3) (m : RM → HartM Unit) : HartM Unit :=
  match rvMode e.h rm with
  | some r => m r
  | none => hartIllegal

/-- A correctly rounded square root. -/
def rvSqrt (f : FFmt) (mode : RM) (a : Nat) : FRes :=
  match decodeF f a with
  | .nan s => nanRes f (flIf s flNv)
  | .inf n => if n then nanRes f flNv else ⟨a, 0#6⟩
  | .fin n m x =>
    if m = 0 then ⟨a, 0#6⟩
    else if n then nanRes f flNv
    else
      let odd := x % 2 ≠ 0
      let m := if odd then m * 2 else m
      let hx := (if odd then x - 1 else x) / 2
      let r := isqrt (m <<< 256)
      -- one bit below the root says whether it is inexact
      let p := scalePow (2 * r + (if r * r = m <<< 256 then 0 else 1)) (2 ^ 129) hx
      roundFin f mode false false p.1 p.2

/-- The sign of a pattern and a pattern with a given sign. -/
def fpSign (dbl : Bool) (a : Nat) : Bool := a.testBit (fmtOf dbl).signBit
def fpWithSign (dbl : Bool) (neg : Bool) (a : Nat) : Nat := (fmtOf dbl).withSign neg (a % 2 ^ (fmtOf dbl).signBit)

/-- The range of an integer side. -/
def rvRange : RvInt → Int × Int
  | .w => (-2 ^ 31, 2 ^ 31 - 1) | .wu => (0, 2 ^ 32 - 1) | .l => (-2 ^ 63, 2 ^ 63 - 1) | .lu => (0, 2 ^ 64 - 1)
/-- An integer side's register value: 32-bit results are sign-extended. -/
def rvIntVal (k : RvInt) (v : Int) : W64 :=
  match k with
  | .w => (BitVec.ofInt 32 v).signExtend 64 | .wu => (BitVec.ofInt 32 v).signExtend 64 | _ => BitVec.ofInt 64 v
def rvIntOfReg (k : RvInt) (v : W64) : Int :=
  match k with
  | .w => (lo32 v).toInt | .wu => (lo32 v).toNat | .l => v.toInt | .lu => v.toNat

/-- Float to integer: a NaN gives the largest value. -/
def rvToInt (k : RvInt) (mode : RM) (v : FV) : W64 × FFlags :=
  let (lo, hi) := rvRange k
  if v.isNan then (rvIntVal k hi, flNv) else let r := toIntSat mode lo hi v; (rvIntVal k r.1, r.2)

/-- Two-operand arithmetic. -/
def rvArith (o : RvFp) (dbl : Bool) (mode : RM) (a b : Nat) : FRes :=
  let f := fmtOf dbl
  match o with
  | .add => fAdd f mode a b
  | .sub => fSub f mode a b
  | .mul => fMul f mode a b
  | .div => fDiv f mode a b
  | .sgnj => ⟨fpWithSign dbl (fpSign dbl b) a, 0#6⟩
  | .sgnjn => ⟨fpWithSign dbl (!fpSign dbl b) a, 0#6⟩
  | .sgnjx => ⟨fpWithSign dbl (fpSign dbl a != fpSign dbl b) a, 0#6⟩
  | .min => fMinMax f false a b
  | .max => fMinMax f true a b

/-- Whether an operation rounds. -/
def rvRounds : RvFp → Bool | .add => true | .sub => true | .mul => true | .div => true | _ => false

def flipSign (dbl flip : Bool) (a : Nat) : Nat := if flip then fpWithSign dbl (!fpSign dbl a) a else a

/-! ## Control and status registers -/

/-- The value of a user CSR: fflags, frm, fcsr. -/
def csrRead (h : Hart) (n : BitVec 12) : Option W64 :=
  match n.toNat with
  | 1 => some ((h.fcsr.extractLsb' 0 5).setWidth 64)
  | 2 => some ((h.fcsr.extractLsb' 5 3).setWidth 64)
  | 3 => some (h.fcsr.setWidth 64)
  | _ => none
def csrWrite (h : Hart) (n : BitVec 12) (v : W64) : Hart :=
  match n.toNat with
  | 1 => { h with fcsr := (h.fcsr.extractLsb' 5 3 ++ v.extractLsb' 0 5 : BitVec 8) }
  | 2 => { h with fcsr := (v.extractLsb' 0 3 ++ h.fcsr.extractLsb' 0 5 : BitVec 8) }
  | _ => { h with fcsr := v.extractLsb' 0 8 }

/-- A CSR instruction: f 1 to 3 write, set, clear from a register, 5 to 7 from the field itself. -/
def hartCsr (e : HEnv) (len : Nat) (f : BitVec 3) (rd rs1 : BitVec 5) (n : BitVec 12) : HartM Unit :=
  match csrRead e.h n with
  | none => hartIllegal
  | some old => do
    let src : W64 := if f.getLsbD 2 then rs1.setWidth 64 else e.h.xr rs1
    match (f.extractLsb' 0 2).toNat with
    | 1 => modH e (fun h => csrWrite h n src)
    | 2 => if rs1 = 0#5 then pure () else modH e (fun h => csrWrite h n (old ||| src))
    | _ => if rs1 = 0#5 then pure () else modH e (fun h => csrWrite h n (old &&& ~~~src))
    hartSet e len rd old

/-! ## Ordinary instructions -/

/-- The masks of FENCE: r and w of the hart's bits i, o, r, w. -/
def rvMask (m : BitVec 4) : BitVec 6 := BitVec.ofNat 6 (bitN (m.getLsbD 1) + 2 * bitN (m.getLsbD 0))

/-- One ordinary RV64GC instruction of `len` bytes. -/
def rvExec (e : HEnv) (len : Nat) (i : RvInstr) : HartM Unit :=
  let h := e.h
  match i with
  | .lui rd imm => hartSet e len rd imm
  | .auipc rd imm => hartSet e len rd (h.pc + imm)
  | .jal rd off => modH e (fun g => { g.setX rd (h.pc + BitVec.ofNat 64 len) with pc := h.pc + off })
  | .jalr rd rs1 off =>
    modH e (fun g => { g.setX rd (h.pc + BitVec.ofNat 64 len) with pc := (h.xr rs1 + off) &&& ~~~1#64 })
  | .branch c rs1 rs2 off =>
    if rvTaken c (h.xr rs1) (h.xr rs2) then modH e (fun g => { g with pc := h.pc + off }) else hartNext e len
  | .load w rd rs1 off => do
    let a := h.xr rs1 + off
    let n := 2 ^ (w.toNat % 4)
    hAligned a n
    let bs ← hRead e 0#2 a n
    hartSet e len rd (loadVal w (leNat bs))
  | .store w rs1 rs2 off => do
    let a := h.xr rs1 + off
    let n := 2 ^ w.toNat
    hAligned a n
    hWrite e a (leBytes n (h.xr rs2).toNat)
    hartNext e len
  | .opImm o rd rs1 imm => hartSet e len rd (rvAlu o (h.xr rs1) imm)
  | .opImmW o rd rs1 imm => hartSet e len rd (rvAluW o (h.xr rs1) imm)
  | .op o rd rs1 rs2 => hartSet e len rd (rvAlu o (h.xr rs1) (h.xr rs2))
  | .opW o rd rs1 rs2 => hartSet e len rd (rvAluW o (h.xr rs1) (h.xr rs2))
  | .mulDiv o rd rs1 rs2 => hartSet e len rd (rvMul o (h.xr rs1) (h.xr rs2))
  | .mulDivW o rd rs1 rs2 => hartSet e len rd (rvMulW o (h.xr rs1) (h.xr rs2))
  | .fence pred succ => do
    modH e (fun g => { g with hb := g.hb.fenced e.place hScope (rvMask pred) (rvMask succ) [] })
    hartNext e len
  | .fenceI => hartNext e len
  | .ebreak => hstop .breakpoint h.pc
  | .csr f rd rs1 n => hartCsr e len f rd rs1 n
  | .lr ord dbl rd rs1 => do
    let n := if dbl then 8 else 4
    hOpen e
    hAligned (h.xr rs1) n
    let v ← hLr e ord (h.xr rs1) n
    hartSet e len rd (hVal n v)
  | .sc ord dbl rd rs1 rs2 => do
    let n := if dbl then 8 else 4
    hOpen e
    hAligned (h.xr rs1) n
    let ok ← hSc e ord (h.xr rs1) n (h.xr rs2).toNat
    hartSet e len rd (if ok then 0#64 else 1#64)
  | .amo o ord dbl rd rs1 rs2 => do
    let n := if dbl then 8 else 4
    hOpen e
    hAligned (h.xr rs1) n
    let old ← hAmo e ord (h.xr rs1) n (fun v => amoVal o (8 * n) v ((h.xr rs2).toNat % 2 ^ (8 * n)))
    hartSet e len rd (hVal n old)
  | .fload dbl rd rs1 off => do
    let a := h.xr rs1 + off
    let n := if dbl then 8 else 4
    hAligned a n
    let bs ← hRead e 0#2 a n
    modH e (fun g => g.setFp dbl rd (leNat bs))
    hartNext e len
  | .fstore dbl rs1 rs2 off => do
    let a := h.xr rs1 + off
    let n := if dbl then 8 else 4
    hAligned a n
    hWrite e a (leBytes n (h.fr rs2).toNat)
    hartNext e len
  | .fmadd np na dbl rm rd rs1 rs2 rs3 => withMode e rm (fun mode =>
      hartFp e len dbl rd (fFma (fmtOf dbl) mode (flipSign dbl np (h.fp dbl rs1)) (h.fp dbl rs2)
        (flipSign dbl na (h.fp dbl rs3))))
  | .farith o dbl rm rd rs1 rs2 =>
    if rvRounds o then withMode e rm (fun mode => hartFp e len dbl rd (rvArith o dbl mode (h.fp dbl rs1) (h.fp dbl rs2)))
    else hartFp e len dbl rd (rvArith o dbl .rn (h.fp dbl rs1) (h.fp dbl rs2))
  | .fsqrt dbl rm rd rs1 => withMode e rm (fun mode => hartFp e len dbl rd (rvSqrt (fmtOf dbl) mode (h.fp dbl rs1)))
  | .fcmp o dbl rd rs1 rs2 =>
    let r := fCmp (fmtOf dbl) (match o with | .le => 3#4 | .lt => 2#4 | .eq => 0#4) (h.fp dbl rs1) (h.fp dbl rs2)
    hartFpX e len rd (BitVec.ofNat 64 (bitN r.1)) r.2
  | .fclass dbl rd rs1 => hartSet e len rd (BitVec.ofNat 64 (fClass (fmtOf dbl) (h.fp dbl rs1)))
  | .fcvtToInt dbl k rm rd rs1 => withMode e rm (fun mode =>
      let r := rvToInt k mode (decodeF (fmtOf dbl) (h.fp dbl rs1))
      hartFpX e len rd r.1 r.2)
  | .fcvtFromInt dbl k rm rd rs1 => withMode e rm (fun mode =>
      hartFp e len dbl rd (roundV (fmtOf dbl) mode false (FV.ofInt (rvIntOfReg k (h.xr rs1)))))
  | .fcvtWidth toDbl rm rd rs1 => withMode e rm (fun mode =>
      hartFp e len toDbl rd (roundV (fmtOf toDbl) mode false (decodeF (fmtOf (!toDbl)) (h.fp (!toDbl) rs1))))
  | .fmvToX dbl rd rs1 => hartSet e len rd (if dbl then h.fr rs1 else (lo32 (h.fr rs1)).signExtend 64)
  | .fmvFromX dbl rd rs1 => do
    modH e (fun g => g.setFp dbl rd ((h.xr rs1).toNat % 2 ^ (if dbl then 64 else 32)))
    hartNext e len
  | .illegal => hartIllegal

/-- HART_RV64GC_INSTRUCTION (R251). -/
def execHartRv64gcInstruction (len : BitVec 3) (i : RvInstr) (s : State) : Host.Outcome State Fault Refusal :=
  runHart (fun e => rvExec e len.toNat i) s

/-- Whether engine operations that the hart issued are not complete. -/
def hartPending (s : State) (gid : Nat) : Bool := s.ops.any (fun e => e.2.gid == some gid && e.2.thread.isNone)

/-- HART_ECALL (R251): the stream ends once the operations of the hart's Xkf instructions are done. -/
def execHartEcall (s : State) : Host.Outcome State Fault Refusal :=
  runHart (fun e => do
    if hartPending (← get) e.gid then hex .again
    else modH e (fun h => { h with status := .ended })) s

/-! ## Xkf (R252) -/

/-- KF_UQPUSH. -/
def execKfUqpush (rs1 : BitVec 5) (s : State) : Host.Outcome State Fault Refusal :=
  runHart (fun e => do
    if 64 ≤ e.g.uq.length then hex .again
    else
      modify (fun s => s.modGroup e.gid (fun g => { g with uq := g.uq ++ [lo32 (e.h.xr rs1)] }))
      hartNext e 4) s

/-- Whether a tile is busy for `kf.tcfg` (R189). -/
def tileBusy (s : State) (gid : Nat) (g : Group) (t : Nat) : Bool :=
  (tileHolder s gid g t).isSome || pendingTld s gid t || pendingTst s gid t

/-- KF_TCFG (R187, R189). -/
def execKfTcfg (rd rs1 rs2 : BitVec 5) (s : State) : Host.Outcome State Fault Refusal :=
  runHart (fun e => do
    let n := (e.h.xr rs1).toNat
    let v := e.h.xr rs2
    if 15 < n ∨ v.extractLsb' 25 39 ≠ 0#39 then hartIllegal
    else if tileBusy (← get) e.gid e.g n then hex .again
    else
      let t := (e.g.tile n).configure v
      modify (fun s => s.modGroup e.gid (fun g => g.setTile n t))
      hartSet e 4 rd (zext64 t.tc)) s

/-- KF_TSSET (R183). -/
def execKfTsset (rd rs1 rs2 : BitVec 5) (s : State) : Host.Outcome State Fault Refusal :=
  runHart (fun e => do
    let a := e.h.xr rs1
    let n := (e.h.xr rs2).toNat
    if a.toNat % 64 ≠ 0 ∨ 15 < n then hartIllegal
    else
      let bs ← hRead e 0#2 a 64
      let r := recOf bs
      if r = 0#512 ∨ trOk r = true then
        modify (fun s => s.modGroup e.gid (fun g => g.setSlot n r))
        hartSet e 4 rd 0#64
      else hartSet e 4 rd 1#64) s

/-- An operation of the hart takes the next number of a context (R72). -/
def hartIssue (e : HEnv) (ectx : Nat) (kind : EngKind) : HartM Nat := do
  let g ← getHG e
  let h ← getH e
  let (g', n) := g.issue ectx
  modify (fun s => (s.setGroup e.gid g').addOp
    { po := e.po, gid := some e.gid, thread := none, cid := e.g.cid, wid := e.g.gwid, ectx := ectx, num := n, kind := kind,
      done := [], err := none, recd := none, stall := none, held := false, flags := 0#6, ended := false, hb := opHb h.hb.now, place := e.place })
  modH e (fun h => { h with hb := h.hb.tick })
  return n

/-- Issues the hart's copies in order. -/
def hartCopies (e : HEnv) : List (Rec × Option Rec × Option Rec) → Nat → HartM Nat
  | [], n => return n
  | (r, a, b) :: l, _ => do
    let n ← hartIssue e (cqCtx r) (.copy r a b)
    hartCopies e l n

/-- KF_CPKICK (R172). -/
def execKfCpkick (rd rs1 rs2 : BitVec 5) (s : State) : Host.Outcome State Fault Refusal :=
  runHart (fun e => do
    let a := e.h.xr rs1
    let n := (e.h.xr rs2).toNat
    if a.toNat % 64 ≠ 0 ∨ n = 0 ∨ 16 < n then hartIllegal
    else
      let bs ← hRead e 0#2 a (64 * n)
      match kickReqs e.k (← getHG e) (recsOf bs n) with
      | none => hartSet e 4 rd 0#64
      | some l =>
        let last ← hartCopies e l 0
        hartSet e 4 rd (BitVec.ofNat 64 last)) s

/-- A table event of the hart: at once in the open level, queued for the merge otherwise (R221). -/
def hartTableEvent (e : HEnv) (item : MItem) (now : State → State) : HartM Unit := do
  if (← get).level e.g.cid = 0 then modify now else hQueue e 0#64 item

/-- KF_FSDESC (R211). -/
def execKfFsdesc (rd rs1 rs2 : BitVec 5) (s : State) : Host.Outcome State Fault Refusal :=
  runHart (fun e => do
    let a := e.h.xr rs1
    let n := (e.h.xr rs2).toNat
    let die := e.g.coreN / 64
    if a.toNat % 64 ≠ 0 ∨ 15 < n then hartIllegal
    else
      let bs ← hRead e 0#2 a 64
      let d := recOf bs
      if d = 0#512 then
        hartTableEvent e (.fsDesc n d 0#512 die) (fun s => s.fsInstall e.g.cid n d 0#512 die)
        hartSet e 4 rd 0#64
      else if !fdOk d then hartSet e 4 rd 1#64
      else
        let rb ← hRead e 0#2 (BitVec.ofNat 64 (fdRadr d)) 64
        let rad := recOf rb
        if !radOk d rad then hartSet e 4 rd 1#64
        else if !fsRoom (← get) e.k d n die then hartSet e 4 rd 2#64
        else
          hartTableEvent e (.fsDesc n d rad die) (fun s => s.fsInstall e.g.cid n d rad die)
          hartSet e 4 rd 0#64) s

/-- KF_GID. -/
def execKfGid (rd rs1 : BitVec 5) (s : State) : Host.Outcome State Fault Refusal :=
  runHart (fun e =>
    match (e.h.xr rs1).toNat with
    | 0 => hartSet e 4 rd e.g.gwid
    | 1 => hartSet e 4 rd (BitVec.ofNat 64 e.g.grp)
    | 2 => do hartSet e 4 rd (BitVec.ofNat 64 (lcoreOf (← get) e.k e.g))
    | _ => hartIllegal) s

/-- KF_QNOTIFY (R313): a release at system scope; held for the merge outside the open level (R314). -/
def execKfQnotify (rs1 rs2 : BitVec 5) (s : State) : Host.Outcome State Fault Refusal :=
  runHart (fun e => do
    let off := (e.h.xr rs1).toNat
    let w := lo32 (e.h.xr rs2)
    if off % 64 ≠ 0x10 ∨ 1024 ≤ off then hstop .permission (e.h.xr rs1)
    else
      let q := off / 64
      if (← get).level e.g.cid = 0 then
        let h ← getH e
        modify (fun s => s.modQueue e.g.cid q (fun u => { u.notify w with vc := clockJoin u.vc h.hb.now }))
        modH e (fun h => { h with hb := h.hb.tick })
      else hQueue e 0#64 (.notify q w)
      hartNext e 4) s

/-- KF_HOLD. -/
def execKfHold (rs1 : BitVec 5) (s : State) : Host.Outcome State Fault Refusal :=
  runHart (fun e => if min (e.h.xr rs1).toNat 64 < e.g.uq.length then hex .again else hartNext e 4) s

end Sys2Proof.Machine
end

