-- ==== Sys2Proof/Machine/Packets.lean ====
section
/-! DEFINITION. What a packet processor does to memory and to its queues: reads and signal writes (R318, R374), failing and
completing a packet (R318, R319). -/
namespace Sys2Proof.Machine

/-! ## Places -/

/-- The die of a context's packet processor, to which CREATE has bound it (R16, R311). -/
def State.pktDie (s : State) (cid : Nat) : Nat := (s.ctx cid).qdie

/-- A place that belongs to no group: only the die and the system hold it. -/
def outerPlace (die : Nat) : Place := { gid := 2 ^ 64, sg := 0, kid := 2 ^ 64, cl := 0, die := die }

/-! ## Accesses of the processor -/

/-- Bytes at translated addresses, whose units must pass their check. -/
def procBytes (s : State) (cid : Nat) (vas : List W64) (pas : List Nat) : Except EngStop (List Byte) :=
  match pas.find? (s.unitBad (s.ctx cid).keyId) with
  | some a => .error (.error .dataIntegrity (vas.getD (pas.idxOf a) 0#64) 0#32)
  | none => .ok (pas.map s.mem.get)

/-- The addresses of an access of a context's packet processor; `lim` says that it leaves the K7 only with tokens (R392). -/
def procXlate (s : State) (cid : Nat) (acc : BitVec 2) (vas : List W64) (lim : Bool) : Except EngStop (List Nat × State) :=
  match xlateBytes s (.die (s.pktDie cid)) cid acc vas with
  | .error (f, a) => .error (engXl f a acc)
  | .ok (pas, s1) =>
    if !lim then .ok (pas, s1.arrive cid vas pas)
    else match s1.sendOut cid acc pas with
      | some s2 => .ok (pas, s2.arrive cid vas pas)
      | none => .error .limited

/-- Global bytes read by a context's packet processor. -/
def procRead (s : State) (cid : Nat) (va : W64) (n : Nat) (lim : Bool := true) : Except EngStop (List Byte × State) :=
  let vas := vaRange va n
  match procXlate s cid 0#2 vas lim with
  | .error x => .error x
  | .ok (pas, s1) => match procBytes s1 cid vas pas with
    | .error x => .error x
    | .ok bs => .ok (bs, s1)

/-- Global bytes written by a context's packet processor, with what they release. -/
def procWrite (s : State) (cid : Nat) (va : W64) (bs : List Byte) (heads : List RelHead) (lim : Bool := true) :
    Except EngStop State :=
  let vas := vaRange va bs.length
  match procXlate s cid 1#2 vas lim with
  | .error x => .error x
  | .ok (pas, s1) => match s1.writeBad (s1.ctx cid).keyId pas with
    | some a => .error (.error .dataIntegrity (vas.getD (pas.idxOf a) 0#64) 0#32)
    | none => .ok { pokeRuns s1 (s1.ctx cid).keyId pas bs with rels := writeHeads s1.rels pas false heads }

/-- The record of a context-level cause (R304). -/
def ctxLevel (s : State) (cid : Nat) (c : Cause) (a : W64) (i : W32) (again : Bool) : State :=
  (ctxRecord s cid { FaultRec.of c with ctxl := true, addr := a, info := i, refault := again }).1

/-- R374: a stall of the processor at a queue, with its record. -/
def procStall (s : State) (cid q : Nat) (rec : Option (Bool × W64 × W32)) (f : FaultWait) : State :=
  let again := (s.queue cid q).stall.isSome
  let s := match rec with
    | none => s
    | some (false, a, i) => ctxLevel s cid .translation a i again
    | some (true, a, i) => partRecord s cid { FaultRec.of .range with addr := a, info := i, ctxl := true }
  s.modQueue cid q (fun u => { u with stall := some f })

/-- Whether an access of a queue keeps the processor from going on: it waits for a replay. -/
def Queue.goes (u : Queue) : Bool := match u.stall with | some f => f.woken | none => true

/-- Whether two contexts have one packet processor (R16). -/
def sameProc (a b : Context) : Bool := a.qdie == b.qdie && a.qproc == b.qproc

/-- R318, R16: whether a context's packet processor may act: no queue set that it serves has it waiting for a replay. -/
def State.procGoes (s : State) (cid : Nat) : Bool :=
  s.ctxs.all (fun e => !sameProc (s.ctx cid) e.2 || e.2.queues.all (fun q => q.2.goes))

/-! ## Packet fields (R315) -/

def pkType (b : BitVec 512) : Nat := dbits b 0 8
def pkAcq (b : BitVec 512) : Bool := b.getLsbD 8
def pkRel (b : BitVec 512) : Bool := b.getLsbD 9
def pkBar (b : BitVec 512) : Bool := b.getLsbD 10
def pkHx (b : BitVec 512) : Nat := dbits b 16 4
def pkSval (b : BitVec 512) : Nat := dbits b 384 32
def pkStag (b : BitVec 512) : Nat := dbits b 416 16
def pkSig (b : BitVec 512) : Nat := dbits b 448 56

/-- Whether two flat ranges of `n` bytes overlap. -/
def rangesMeet (a b n : Nat) : Bool := decide (a < b + n) && decide (b < a + n)

/-- The body and `hx` rules of R316 by type. -/
def bodyOk (b : BitVec 512) : Bool :=
  match pkType b with
  | 1 => dbits b 120 8 == 0 && dbits b 184 8 == 0 && pkHx b == 0
  | 2 => dbits b 120 8 == 0 && dbits b 192 192 == 0 && decide (pkHx b < 4) && dbits b 64 56 % 8 == 0
  | 3 => dbits b 64 320 == 0 && pkHx b == 0
  | 4 => dbits b 120 8 == 0 && dbits b 184 8 == 0 && dbits b 224 160 == 0 && pkHx b == 0 && dbits b 192 32 != 0 &&
      !rangesMeet (dbits b 64 56) (dbits b 128 56) (dbits b 192 32)
  | 5 => dbits b 64 320 == 0 && decide (pkHx b < 4)
  | 6 => dbits b 120 8 == 0 && dbits b 141 243 == 0 && pkHx b == 0 && dbits b 64 56 % 64 == 0 &&
      decide (1 ≤ dbits b 128 13) && decide (dbits b 128 13 ≤ 4096)
  | _ => false

/-- R315: whether a packet passes the checks of its read. -/
def packetOk (b : BitVec 512) : Bool :=
  dbits b 504 8 == 0 && dbits b 432 16 == 0 && dbits b 20 44 == 0 && dbits b 11 5 == 0 && (pkType b == 1 || pkStag b == 0) &&
    pkSig b % 8 == 0 && bodyOk b

/-- The status codes of R318. -/
def stOk : BitVec 16 := 0#16
def stBadKdesc : BitVec 16 := 1#16
def stDetMismatch : BitVec 16 := 2#16
def stDetmodeLocked : BitVec 16 := 3#16
def stBadPacket : BitVec 16 := 4#16
def stCopyError : BitVec 16 := 5#16

/-! ## Ends of packets -/

/-- R318: writes a packet's completion signal. A failed translation stalls the processor (the answer is then false); a
refusal halts the queue with `bad-packet`. -/
def writeSignal (s : State) (cid q : Nat) (p : Pkt) (code : BitVec 16) (know : Clock) : State × Bool :=
  let sig := pkSig p.body
  if sig = 0 ∨ sig % 8 ≠ 0 then (s, true)
  else
    let heads : List RelHead := if pkRel p.body then [⟨know, 4#3, outerPlace (s.pktDie cid), false⟩] else []
    match procWrite s cid (BitVec.ofNat 64 sig) (leBytes 8 (pkSval p.body + 2 ^ 32 * code.toNat)) heads with
    | .ok s1 => (s1.modQueue cid q (fun u => u.unstall p.touches), true)
    | .error (.stall rec f) => (procStall s cid q rec f, false)
    | .error (.error c a i) =>
      ((ctxLevel s cid c a i false).modQueue cid q (fun u => u.halt 4#8 p.idx), true)
    | .error .limited => (s, false)
    | .error .held => (s, true)

/-- R318: a packet that fails at its read, header or start checks: the signal, then the halt; `ridx` stays at it. While the
signal waits, the packet stays as it is. -/
def failPacket (s : State) (cid q : Nat) (p : Pkt) (code : BitVec 16) : State :=
  match writeSignal s cid q p code [] with
  | (s, false) => s
  | (s, true) => s.modQueue cid q (fun u => { (u.halt (code.setWidth 8) p.idx) with cur := none })

/-- The start of a packet: `ridx` advances past it, and it is active until it completes. -/
def startPacket (s : State) (cid q : Nat) (p : Pkt) : State :=
  s.modQueue cid q (fun u => { u with ridx := p.idx + 1#32, cur := none, active := u.active ++ [p] }.settle)

/-- R317: what a packet with `rel` passes on to later packets and to the host. -/
def passOn (s : State) (cid q : Nat) (p : Pkt) (know : Clock) : State :=
  if pkRel p.body then
    { s.modQueue cid q (fun u => { u with vc := clockJoin u.vc know }) with hostVc := clockJoin s.hostVc know }
  else s

/-- R318: the completion of a started packet with a status; none while its signal cannot be written. -/
def completePacket (s : State) (cid q ser : Nat) (code : BitVec 16) (know : Clock) : Option State :=
  match (s.queue cid q).active.find? (fun p => p.ser == ser) with
  | none => some s
  | some p =>
    match writeSignal s cid q p code know with
    | (_, false) => none
    | (s, true) =>
      let s := passOn s cid q p know
      some (s.modQueue cid q (fun u =>
        let u := { u with active := u.active.filter (fun x => x.ser != ser) }
        if code = stOk then u.settle else u.halt (code.setWidth 8) p.idx))

/-- A completion whose signal waits leaves the stall and its record. -/
def stalledSignal (s : State) (cid q ser : Nat) (code : BitVec 16) : State :=
  match (s.queue cid q).active.find? (fun p => p.ser == ser) with
  | none => s
  | some p => (writeSignal s cid q p code []).1

/-- Completes a packet, or leaves its signal waiting: the answer says which. -/
def endPacket (s : State) (cid q ser : Nat) (code : BitVec 16) (know : Clock) : State × Bool :=
  match completePacket s cid q ser code know with
  | some s' => (s', true)
  | none => (stalledSignal s cid q ser code, false)

/-- Whether a context's queues may start and complete packets. -/
def State.ctxActive (s : State) (cid : Nat) : Bool := (s.ctx cid).st == .active

end Sys2Proof.Machine
end

