-- ==== Sys2Proof/Machine/System.lean ====
section
/-! DEFINITION. The meanings of the system instructions (R233-R250): traps and returns, system registers, quotas and claims,
the emulation window. -/
namespace Sys2Proof.Machine

/-! ## Traps (R243) -/

/-- An instruction that ends its clause for a thread whose guard is true; any other goes to the next slot. -/
def runEnder (i : Instr) (f : Fields) (m : Env → Srcs → SlotM Unit) (s : State) : Host.Outcome State Fault Refusal :=
  runInstr i f (fun e en => do
    let th ← getTh e
    if guardOf f th then
      let x ← onThread e (readSrcs e en f)
      modTh e (fun th => th.release (marked en f))
      m e x
    else
      onThread e (guardedOff e en f true)
      endSlot e 0#6) s

/-- TRAP (R243). -/
def execTrap (f : Fields) (s : State) : Host.Outcome State Fault Refusal :=
  runEnder (.trap f) f (fun e x => trapNow e .software e.cur.next e.cur.nextRep 0#64 x.a32) s

/-- BKPT (R243). -/
def execBkpt (f : Fields) (s : State) : Host.Outcome State Fault Refusal :=
  runEnder (.bkpt f) f (fun e _ =>
    trapNow e .breakpoint e.cur.next e.cur.nextRep e.cur.pc ((opBits f.a).setWidth 32)) s

/-- TRET (R243). It ends the windows of its thread, as ERET and FRET do (log 90). -/
def execTret (f : Fields) (s : State) : Host.Outcome State Fault Refusal :=
  runEnder (.tret f) f (fun e _ => modTh e (fun th => { th.endWindows.returnFromTrap with retry := false })) s

/-- TMASK (R243). -/
def execTmask (f : Fields) (s : State) : Host.Outcome State Fault Refusal :=
  runGuarded (.tmask f) f (fun e en x => do
    if x.a32.extractLsb' 1 31 ≠ 0#31 then illegalOperand
    else
      let th ← getTh e
      onThread e (putRes en f (.val (BitVec.ofNat 64 (bitN th.msk))))
      modTh e (fun th => th.setMsk (x.a32.getLsbD 0))
      return 0#6) s

/-! ## System registers (R238-R240) -/

/-- The width of a system register: 64 bits, 32 bits, or not in the table. -/
def sysWide (n : Nat) : Option Bool :=
  match n with
  | 0 => some true | 5 => some true | 6 => some true | 9 => some true | 10 => some true
  | n => if n ≤ 13 then some false else none

/-- R240: `sys.tstat`. -/
def Thread.tstat (th : Thread) : W64 := BitVec.ofNat 64 (bitN th.msk + 2 * bitN th.pmsk + 256 * th.windows.length)

/-- The value of a system register. -/
def sysVal (s : State) (g : Group) (th : Thread) (n : Nat) : W64 :=
  let c := s.ctx g.cid
  match n with
  | 0 => (s.core g.coreN).cycle
  | 1 => if s.level g.cid = 2 then 0#64 else BitVec.ofNat 64 g.coreN
  | 2 => th.fflags.setWidth 64
  | 3 => th.fen.setWidth 64
  | 4 => th.cause.setWidth 64
  | 5 => th.epc
  | 6 => th.taddr
  | 7 => zext64 th.tinfo
  | 8 => th.tstat
  | 9 => c.tvec
  | 10 => c.evec
  | 11 => zext64 c.hbudget
  | 12 => c.ien.setWidth 64
  | 13 => zext64 th.hcount
  | _ => 0#64

/-- R414: whether reading a register is not deterministic at a level. -/
def sysNondet (lvl n : Nat) : Bool := lvl != 0 && (n == 0 || n == 13 || (n == 1 && lvl == 1))

/-- SYSR (R239, R414). -/
def execSysr (f : Fields) (s : State) : Host.Outcome State Fault Refusal :=
  runGuarded (.sysr f) f (fun e en _ => do
    let n := (opBits f.a).toNat
    match sysWide n with
    | none => illegalOperand
    | some w =>
      if w ≠ (f.mod == 1#4) then illegalOperand
      else if sysNondet (e.s.level e.g.cid) n then raise .nondeterministic 0#64 (BitVec.ofNat 32 (opAt e.cur.word))
      else
        let th ← getTh e
        onThread e (putRes en f (.val (sysVal e.s e.g th n)))
        return 0#6) s

/-- R58: the bits of a program counter that a register holds. -/
def pcBits (v : W64) : W64 := v &&& 0x0FFFFFFFFFFFFFF8#64

/-- A write of a thread's register (R5, R238). -/
def Thread.sysWrite (th : Thread) (n : Nat) (v : W64) : Thread :=
  match n with
  | 2 => { th with fflags := th.fflags &&& ~~~(v.setWidth 6) }
  | 3 => { th with fen := v.setWidth 6 }
  | 4 => { th with cause := v.setWidth 8 }
  | 5 => { th with epc := pcBits v }
  | 6 => { th with taddr := v }
  | 7 => { th with tinfo := lo32 v }
  | 8 => { th.setMsk (v.getLsbD 0) with pmsk := v.getLsbD 1 }
  | _ => th

/-- SYSW (R239). -/
def execSysw (f : Fields) (s : State) : Host.Outcome State Fault Refusal :=
  runGuarded (.sysw f) f (fun e _ x => do
    let n := (opBits f.a).toNat
    match sysWide n with
    | none => illegalOperand
    | some w =>
      if w ≠ (f.mod == 1#4) then illegalOperand
      else
        modTh e (fun th => th.sysWrite n x.b)
        if n = 12 then modify (fun s => s.setCtx e.g.cid { s.ctx e.g.cid with ien := x.b.setWidth 16 })
        return 0#6) s

/-! ## Quotas (R234-R237) -/

/-- The groups that hold registers of a core: those in its slots, and those whose ended threads' registers its matrix engine
still needs (R199). -/
def coreHolders (s : State) (core : Nat) : List Nat :=
  ((s.core core).slots.map (·.2) ++ (s.core core).mxq.filterMap (fun n => (mget s.mxops n).map (·.gid))).eraseDups

/-- What a core's lane has given away (R234): quotas, reserves, and the registers of ended threads that steps still name
(R199). -/
def laneTaken (s : State) (core lane : Nat) : Nat :=
  (coreHolders s core).foldl (fun n gid => match s.group gid with
    | some g => g.threads.foldl (fun n t => if t.2.lane == lane then n + t.2.quota + (if t.2.live then 0 else t.2.marks.length) else n) (n + mgetD g.reserve lane 0)
    | none => n) 0

/-- F_l (R234). -/
def laneFree (s : State) (core lane : Nat) : Nat := 2048 - laneTaken s core lane

/-- QREL (R235). -/
def execQrel (f : Fields) (s : State) : Host.Outcome State Fault Refusal :=
  runGuarded (.qrel f) f (fun e _ x => do
    let th ← getTh e
    let n := x.a32.toNat
    let room := th.quota - th.alloc
    if room < n then raise .illegalOperand 0#64 (BitVec.ofNat 32 room)
    else
      modTh e (fun th => { th with quota := th.quota - n })
      modG e (fun g => if n = 0 then g else { g with reserve := mset g.reserve th.lane (mgetD g.reserve th.lane 0 + n) })
      return 0#6) s

/-- QCLM (R236): a claim joins its lane's queue. -/
def execQclm (f : Fields) (s : State) : Host.Outcome State Fault Refusal :=
  arriveAt (.qclm f) f (fun e x => do
    let n := x.a32.toNat
    if 256 < e.th.quota + n then illegalOperand
    else if n = 0 then return none
    else
      modG e (fun g => { g with claims := mset g.claims e.th.lane (mgetD g.claims e.th.lane [] ++ [(e.cur.t, n)]) })
      return some (.claim n)) s

/-- QGET (R237, R414). -/
def execQget (f : Fields) (s : State) : Host.Outcome State Fault Refusal :=
  runGuarded (.qget f) f (fun e en _ => do
    let q := f.mod.toNat
    if e.s.level e.g.cid ≠ 0 ∧ 2 ≤ q then raise .nondeterministic 0#64 (BitVec.ofNat 32 (opAt e.cur.word))
    else
      let th ← getTh e
      let v : Nat := match q with
        | 0 => th.quota
        | 1 => th.alloc
        | 2 => mgetD e.g.reserve th.lane 0
        | _ => laneFree e.s e.g.coreN th.lane
      onThread e (putRes en f (.val (BitVec.ofNat 64 v)))
      return 0#6) s

/-! ## The emulation window (R245-R249) -/

/-- The current window; `illegal-operand` where there is none (R246). -/
def windowOf (th : Thread) : Except Exc EmuWindow :=
  match th.windows.getLast? with
  | some w => .ok w
  | none => .error (.trap .illegalOperand 0#64 0#32)

/-- Replaces the current window. -/
def Thread.putWindow (th : Thread) (w : EmuWindow) : Thread := { th with windows := th.windows.dropLast ++ [w] }

/-- The value of the uniform queue for a field of the window: an entry popped, the head, or nothing. -/
def winUq (e : Env) (o : Operand) : ThM W32 :=
  if o = .special 0#7 then popUq e else if o = .special 1#7 then peekUq e else return 0#32

/-- The entries that the fields of a window pop (R247). -/
def EmuWindow.pops (w : EmuWindow) : Nat :=
  let f := fieldsAt w.word
  popsOf (.src .i32) f.a + popsOf (.src .i32) f.b + popsOf (.src .i32) f.c

/-- R247: the first EWIN of a field that names `uq` or `uqp` fixes the values of all of them, in the order a, b, c; the first
of a field that names `uq` pops. -/
def resolveWin (e : Env) (w : EmuWindow) (pop : Bool) : ThM (List W32) := do
  let l ← (match w.uqVals with
    | some l => return l
    | none => do
      let th ← get
      let f := fieldsAt w.word
      let a ← winUq e f.a
      let b ← winUq e f.b
      let c ← winUq e f.c
      modify (fun u => { u with uqpos := th.uqpos })
      return [a, b, c] : ThM (List W32))
  if pop && !w.popped then popMany e w.pops
  modify (fun th => th.putWindow { w with uqVals := some l, popped := w.popped || pop })
  return l

def thIllegal {α : Type} : ThM α := thTrap .illegalOperand 0#32

/-- R247: part `k` of the field `ix` (0 a, 1 b, 2 c) of the window. -/
def winPart (e : Env) (w : EmuWindow) (ix k : Nat) : ThM W32 := do
  let f := fieldsAt w.word
  let o := match ix with | 0 => f.a | 1 => f.b | _ => f.c
  let litIx := match ix with | 0 => 0 | 1 => bitN (isLit f.a) | _ => bitN (isLit f.a) + bitN (isLit f.b)
  match o with
  | .main i => if 127 < i.toNat + k then thIllegal else readMain (i.toNat + k)
  | .opf i =>
    if 15 < i.toNat then thTrap .illegalEncoding 0#32
    else if 15 < i.toNat + k then thIllegal
    else return (← get).opfAt (i.toNat + k)
  | .latch i =>
    if 1 < i.toNat then thTrap .illegalEncoding 0#32
    else match if i.toNat = 0 then w.l0 else w.l1 with
      | none => thIllegal
      | some l => match k with
        | 0 => return lo32 l.val
        | 1 => if l.wide then return hi32 l.val else thIllegal
        | _ => thIllegal
  | .special i =>
    let n := i.toNat
    if 16 ≤ n ∧ n ≤ 31 then thTrap .illegalEncoding 0#32
    else if 2 ≤ k then return 0#32
    else
      let v : W64 ← (match n with
        | 0 => do return zext64 ((← resolveWin e w true).getD ix 0#32)
        | 1 => do return zext64 ((← resolveWin e w false).getD ix 0#32)
        | 2 => return sext64 (w.lits.getD litIx 0#32)
        | n => do
          if 32 ≤ n then return specialConst .i64 ((n : Int) - 64)
          else return zext64 (specialFixed e (← get) n) : ThM W64)
      return if k = 0 then lo32 v else hi32 v

/-- R246: the value of a window entry. -/
def winVal (e : Env) (w : EmuWindow) (n : Nat) : ThM W32 := do
  let f := fieldsAt w.word
  match n with
  | 0 => return lo32 w.word
  | 1 => return hi32 w.word
  | 2 => return BitVec.ofNat 32 (opAt w.word)
  | 3 => return f.mod.setWidth 32
  | 4 => return f.ahd.setWidth 32
  | 5 => return BitVec.ofNat 32 (bitN f.pe + 2 * bitN f.pn + 4 * f.pi.toNat + 32 * bitN w.guard)
  | 6 => return (opBits f.d).setWidth 32
  | 24 => return lo32 w.peers
  | 25 => return hi32 w.peers
  | 26 => return lo32 w.pc
  | 27 => return hi32 w.pc
  | 28 => return lo32 w.next
  | 29 => return hi32 w.next
  | 30 => return BitVec.ofNat 32 w.rep
  | 31 => return w.why.setWidth 32
  | 32 => return BitVec.ofNat 32 (← get).windows.length
  | n =>
    if 8 ≤ n ∧ n ≤ 19 then winPart e w ((n - 8) / 4) ((n - 8) % 4)
    else if 20 ≤ n ∧ n ≤ 22 then return w.lits.getD (n - 20) 0#32
    else thIllegal

/-- EWIN (R246). -/
def execEwin (f : Fields) (s : State) : Host.Outcome State Fault Refusal :=
  runGuarded (.ewin f) f (fun e en _ => do
    let w ← liftE (windowOf e.th)
    let v ← onThread e (winVal e w (opBits f.a).toNat)
    onThread e (putRes en f (.val (zext64 v)))
    return 0#6) s

/-- The main registers of the window's `lr`-marked sources: pairs where the word is an instruction of the K7. -/
def EmuWindow.marks (w : EmuWindow) : List Nat :=
  let f := fieldsAt w.word
  let one (b : Bool) (o : Operand) : List Nat := match o with | .main i => if b then [i.toNat] else [] | _ => []
  match encOf (decodeWord w.word) with
  | some en => marked en f
  | none => one (f.lr.getLsbD 0) f.a ++ one (f.lr.getLsbD 1) f.b ++ one (f.lr.getLsbD 2) f.c

/-- R248, R249: releases the window's marked sources, once; one in flight raises `accumulator-in-flight` (R199). -/
def releaseWin (w : EmuWindow) : ThM Unit := fun th =>
  if w.released then .ok ((), th)
  else match w.marks.find? (fun r => (mget th.marks r).isSome) with
    | some r => .error (markFault ((mget th.marks r).getD ⟨0, none, 0, 0⟩) r)
    | none => .ok ((), (th.release w.marks).putWindow { w with released := true })

/-- EWSET (R248). -/
def execEwset (f : Fields) (s : State) : Host.Outcome State Fault Refusal :=
  runGuarded (.ewset f) f (fun e _ x => do
    let w ← liftE (windowOf e.th)
    let k := (opBits f.b).toNat
    match (fieldsAt w.word).d with
    | .main i =>
      if 127 < i.toNat + k then illegalOperand
      else onThread e (do releaseWin w; writeMain [(i.toNat + k, x.a32)])
    | .opf i =>
      if 15 < i.toNat + k then illegalOperand
      else onThread e (do releaseWin w; writeFile [(i.toNat + k, x.a32)])
    | .special i => if i = 3#7 then onThread e (releaseWin w) else illegalOperand
    | .latch _ => illegalOperand
    return 0#6) s

/-- EWSET_NEXT (R248). -/
def execEwsetNext (f : Fields) (s : State) : Host.Outcome State Fault Refusal :=
  runGuarded (.ewsetNext f) f (fun e _ x => do
    let w ← liftE (windowOf e.th)
    modTh e (fun th => th.putWindow { w with next := x.a, nextRep := none })
    return 0#6) s

/-- ERET (R249): it ends the windows of its thread (log 90); the target is checked under R54 and R58 when the thread enters there. -/
def execEret (f : Fields) (s : State) : Host.Outcome State Fault Refusal :=
  runEnder (.eret f) f (fun e _ => do
    let w ← liftE (windowOf e.th)
    onThread e (do
      if !w.popped then popMany e w.pops
      releaseWin w)
    modTh e (fun th => { th.jump (pcBits w.next) with rep := w.nextRep, windows := th.windows.dropLast })) s

/-- EFWD (R249). -/
def execEfwd (f : Fields) (s : State) : Host.Outcome State Fault Refusal :=
  runEnder (.efwd f) f (fun e _ => do
    let w ← liftE (windowOf e.th)
    modTh e (fun th => { th with windows := th.windows.dropLast })
    trapNow e .emulate w.pc w.here 0#64 (BitVec.ofNat 32 (opAt w.word))) s

end Sys2Proof.Machine
end

