-- ==== Sys2Proof/Machine/Kernels.lean ====
section
/-! DEFINITION. Kernels and groups (R322-R346): the checks of a launch, placement with its lanes, start, eviction, restore,
completion. -/
namespace Sys2Proof.Machine

/-! ## Descriptors and headers (R93, R322, R323) -/

/-- R87: whether widths and marks go together. -/
def marksOk (d : BitVec 512) : Bool :=
  (upFrom 0 6).all (fun n => decide (kdWd d n ≤ 32)) && decide (widPos d 6 ≤ 64) && decide (kdSgm d ≤ kdGrm d) &&
    decide (kdGrm d ≤ kdClm d) && decide (kdClm d ≤ 6) && decide (widPos d (kdSgm d) ≤ 6) &&
    decide (widPos d (kdGrm d) ≤ 11) && decide (widPos d (kdClm d) - widPos d (kdGrm d) ≤ 4)

/-- R93: whether a kernel descriptor passes. -/
def kdescOk (d : BitVec 512) : Bool :=
  dbits d 408 104 == 0 && dbits d 340 12 == 0 && dbits d 324 4 == 0 && dbits d 249 7 == 0 && dbits d 184 8 == 0 &&
    dbits d 120 8 == 0 && dbits d 56 8 == 0 && marksOk d && decide (1 ≤ kdQuota d) && decide (kdQuota d ≤ 256) &&
    decide (kdScratch d ≤ 1536) && decide (kdXbank d ≤ 256) && decide (kdLlog d ≤ 12) && decide (kdPw d ≤ 16) &&
    kdDet d != 0 && (kdVentry d).toNat % 8 == 0 && (kdSentry d).toNat % 2 == 0 && kdTsbase d % 64 == 0 &&
    (kdTsmask d == 0 || kdTsbase d != 0) && (kdPort d || kdNbody d == 0) && (kdPw d != 0 || kdLlog d == 0)

/-- A launch: descriptor address, argument block, extents minus 1, stagger, as a LAUNCH packet or node body holds them. -/
def lhKargs (b : BitVec 512) : Nat := dbits b 64 56
def lhKdesc (b : BitVec 512) : Nat := dbits b 128 56
def lhExt (b : BitVec 512) : List W32 := (upFrom 0 6).map (fun n => BitVec.ofNat 32 (dbits b (192 + 32 * n) 32))

/-- R322: whether the extents suit the widths. -/
def extsOk (d : BitVec 512) (ext : List W32) : Bool :=
  (upFrom 0 6).all (fun n =>
    let x := (ext.getD n 0#32).toNat
    if kdWd d n = 0 then x == 0 else decide (x + 1 ≤ 2 ^ kdWd d n))

/-- R323: in a span every field but the highest has its full extent. -/
def spanOk (d : BitVec 512) (ext : List W32) (lo hi : Nat) : Bool :=
  (upFrom lo (hi - lo)).all (fun n => n + 1 == hi || (ext.getD n 0#32).toNat + 1 == 2 ^ kdWd d n)

/-- The kernel that a launch makes. -/
def mkKernel (s : State) (cid die : Nat) (b d : BitVec 512) (prio : BitVec 2) (rel : Bool) (o : KOrigin) (birth : Clock) :
    Kernel :=
  { cid := cid, die := die, kdesc := BitVec.ofNat 56 (lhKdesc b), desc := d, kargs := BitVec.ofNat 56 (lhKargs b),
    ext := lhExt b, stag := BitVec.ofNat 16 (pkStag b), prio := prio, rel := rel, origin := o, st := .placing, nextGrp := 0,
    started := 0, retired := 0, lbarAt := 1, mergePending := false, interval := 0,
    snap := if s.level cid = 0 then none else some s.mem,
    snapTables := if s.level cid = 0 then [] else (s.ctx cid).tables, snapPages := [], vc := [], birth := birth }

/-- R322: the status of a launch whose header and descriptor have been read. -/
def launchStatus (s : State) (cid : Nat) (b d : BitVec 512) : BitVec 16 :=
  let k := mkKernel s cid 0 b d 0#2 false (.node 0 0) []
  if lhKdesc b % 64 ≠ 0 ∨ kdescOk d = false then stBadKdesc
  else if !(kdDet d).testBit (s.level cid) then stDetMismatch
  else if !(extsOk d k.ext && spanOk d k.ext 0 (kdSgm d) && spanOk d k.ext (kdSgm d) (kdGrm d) &&
      spanOk d k.ext (kdGrm d) (kdClm d) && (kdPw d == 0 || k.groupCount == 2 ^ kdLlog d * kdPw d) &&
      (lhKargs b == 0 || decide (2 ≤ kdQuota d)) && decide ((k.grSize + 63) / 64 * kdQuota d ≤ 2048)) then stBadPacket
  else stOk

/-- Adds a kernel; its number. -/
def State.addKernel (s : State) (k : Kernel) : State × Nat :=
  ({ s with kernels := mset s.kernels s.nextKid k, nextKid := s.nextKid + 1 }, s.nextKid)

/-! ## Work identifiers (R324) -/

/-- The work identifier of a group with the fields below the group mark zero. -/
def gwidOf (k : Kernel) (grp : Nat) : W64 :=
  BitVec.ofNat 64 ((upFrom (kdGrm k.desc) (6 - kdGrm k.desc)).foldl (fun (x : Nat × Nat) n =>
    (x.1 + x.2 % k.extent n * 2 ^ widPos k.desc n, x.2 / k.extent n)) (0, grp)).1

/-- The work identifier of a thread of a group. -/
def widOf (k : Kernel) (gwid : W64) (sg sgt : Nat) : W64 :=
  gwid + BitVec.ofNat 64 (sgt + sg * 2 ^ widPos k.desc (kdSgm k.desc))

/-! ## What a core has room for (R333, R334) -/

/-- The free resources of a core: slots, scratchpad and bank bytes, and for each lane its free quota and how many threads
it holds. -/
structure Room where
  slots : Nat
  spad  : Nat
  xbank : Nat
  lanes : List (Nat × Nat)
  deriving DecidableEq, Repr

/-- The groups on a core, with their kernels. -/
def coreGroups (s : State) (core : Nat) : List (Group × Kernel) :=
  (s.core core).slots.filterMap (fun e => (s.group e.2).bind (fun g => (s.kernel g.kid).map (fun k => (g, k))))

/-- The live threads of a lane. -/
def laneThreads (s : State) (core lane : Nat) : Nat :=
  (s.core core).slots.foldl (fun n e => match s.group e.2 with
    | some g => n + g.threads.countP (fun t => t.2.live && t.2.lane == lane)
    | none => n) 0

/-- R333: what is free on a core. -/
def roomOf (s : State) (core : Nat) : Room :=
  let gs := coreGroups s core
  { slots := 16 - (s.core core).slots.length
    spad := 393216 - gs.foldl (fun n x => n + 256 * kdScratch x.2.desc) 0
    xbank := 65536 - gs.foldl (fun n x => n + 256 * kdXbank x.2.desc) 0
    lanes := (upFrom 0 64).map (fun l => (laneFree s core l, laneThreads s core l)) }

/-- R334: the lanes in the order in which a subgroup takes them. -/
def laneOrder (lanes : List (Nat × Nat)) : List Nat :=
  sortBy (fun l => (2048 - (lanes.getD l (0, 0)).1) * 64 + l) (upFrom 0 64)

/-- R334: one subgroup of `n` threads takes its lanes. -/
def takeLanes (quota n : Nat) (lanes : List (Nat × Nat)) : Option (List Nat × List (Nat × Nat)) :=
  let ls := (laneOrder lanes).take n
  if ls.all (fun l => let x := lanes.getD l (0, 0); decide (quota ≤ x.1) && decide (x.2 < 32)) then
    some (ls, (lanes.zip (upFrom 0 64)).map (fun x =>
      if ls.contains x.2 then (x.1.1 - quota, x.1.2 + 1) else x.1))
  else none

/-- R334: the lanes of every thread of a group, subgroup by subgroup; `m` subgroups of `n` threads. -/
def takeGroup (quota n : Nat) : Nat → List (Nat × Nat) → Option (List Nat × List (Nat × Nat))
  | 0, lanes => some ([], lanes)
  | m + 1, lanes => match takeLanes quota n lanes with
    | none => none
    | some (ls, lanes') => match takeGroup quota n m lanes' with
      | none => none
      | some (rest, lanes'') => some (ls ++ rest, lanes'')

/-- The resources that one group of a kernel takes, and its threads' lanes. -/
def Room.take (k : Kernel) (r : Room) : Option (List Nat × Room) :=
  let sp := 256 * kdScratch k.desc
  let xb := 256 * kdXbank k.desc
  if r.slots = 0 ∨ r.spad < sp ∨ r.xbank < xb then none
  else match takeGroup (kdQuota k.desc) k.sgSize (k.grSize / k.sgSize) r.lanes with
    | none => none
    | some (ls, lanes) => some (ls, { slots := r.slots - 1, spad := r.spad - sp, xbank := r.xbank - xb, lanes := lanes })

/-- How many groups of a kernel, at most `n`, a core has room for. -/
def Room.fits (k : Kernel) : Nat → Room → Nat
  | 0, _ => 0
  | n + 1, r => match r.take k with | some (_, r') => Room.fits k n r' + 1 | none => 0

/-- The cores of a partition on a die. -/
def partCores (p : Partition) (die : Nat) : List Nat := (upFrom (64 * die) 64).filter (coreIn p)

/-- At levels 1 and 2 the K7's choice is fixed (R413, log 102): the cores of the cluster that holds group `grp`. Clusters take
the partition's dies in turn, and their groups the cores of a die in turn. -/
def fixedCores (s : State) (k : Kernel) (grp : Nat) : List Nat :=
  let p := s.part (vfOf k.cid)
  let ds := (upFrom 0 4).filter (fun d => partCores p d != [])
  let j := grp / k.clSize
  let cs := partCores p (ds.getD (j % ds.length) 0)
  (upFrom 0 k.clSize).map (fun i => cs.getD ((j / ds.length * k.clSize + i) % cs.length) 0)

/-- The core of one group at levels 1 and 2. -/
def fixedCore (s : State) (k : Kernel) (g : Group) : Nat := (fixedCores s k g.grp).getD (rankOf k g) 0

/-- Whether a die has room for the next cluster of a kernel. -/
def canPlace (s : State) (k : Kernel) (die : Nat) : Bool :=
  if s.level k.cid = 0 then
    decide (k.clSize ≤ (partCores (s.part (vfOf k.cid)) die).foldl (fun n c =>
      if k.clSize ≤ n then n else n + Room.fits k (k.clSize - n) (roomOf s c)) 0)
  else
    let cs := fixedCores s k k.nextGrp
    cs.headD 0 / 64 == die && cs.all (fun c => decide (cs.count c ≤ Room.fits k (cs.count c) (roomOf s c)))

/-! ## The order of placement (R326, R327, R335) -/

/-- The Gong entry that a kernel holds. -/
def Kernel.entry (kid : Nat) (k : Kernel) : GongKind :=
  match k.origin with | .packet _ _ _ => .kernel kid | .node g n => .node g n

/-- The kernel that a Gong entry stands for. -/
def entryKernel (s : State) (e : GongEntry) : Option (Nat × Kernel) :=
  s.kernels.find? (fun x => x.2.entry x.1 == e.kind)

/-- R344: what an evicted group needs of a core: slot, storage, and in each lane its threads' quota and its reserve. -/
def roomFor (k : Kernel) (g : Group) (r : Room) : Bool :=
  r.slots != 0 && decide (256 * kdScratch k.desc ≤ r.spad) && decide (256 * kdXbank k.desc ≤ r.xbank) &&
    (upFrom 0 64).all (fun l =>
      let ts := g.threads.filter (fun t => t.2.live && t.2.lane == l)
      let x := r.lanes.getD l (0, 0)
      decide (ts.foldl (fun n t => n + t.2.quota) (mgetD g.reserve l 0) ≤ x.1) && decide (x.2 + ts.length ≤ 32))

/-- Whether a group is in its image (R346). -/
def Group.isEvicted (g : Group) : Bool := match g.loc with | .evicted _ => true | _ => false

/-- Whether an evicted group may be restored (R344): its context is active, and no LBAR holds it back; one whose LBAR has
deadlocked is restored all the same (R345). -/
def restorable (s : State) (g : Group) : Bool :=
  g.isEvicted && s.ctxActive g.cid &&
    (!g.atLbar || g.lbarDead || !g.threads.any (fun t => t.2.live && t.2.atAnyLbar))

/-- The evicted groups that a group's cluster has to restore together. -/
def restoreSet (s : State) (k : Kernel) (g : Group) : List (Nat × Group) := (clusterGroups s k g).filter (fun e => e.2.isEvicted)

/-- Cores that the evicted groups of a group's cluster may take on a die, in their order: none where it has no room for them. At
levels 1 and 2 they are those of their placement; in the open level, cores of the die that they left (R344). -/
def restoreCores (s : State) (k : Kernel) (g : Group) (die : Nat) : List Nat :=
  let gs := restoreSet s k g
  if s.level k.cid = 0 then
    let cs := ((partCores (s.part (vfOf k.cid)) die).filter (fun c => roomFor k g (roomOf s c))).take gs.length
    if cs.length = gs.length ∧ g.loc = .evicted die then cs else []
  else
    let cs := gs.map (fun e => fixedCore s k e.2)
    if cs.headD 0 / 64 = die ∧ (cs.zip gs).all (fun x => roomFor k x.2.2 (roomOf s x.1)) = true then cs else []

/-- The evicted group that a kernel restores next: before it places any other (R335). -/
def nextEvicted (s : State) (kid : Nat) : Option Group :=
  (s.groups.find? (fun e => e.2.kid == kid && restorable s e.2)).map (·.2)

/-- Whether a kernel has a group that waits for its placement on a die: an evicted one, or the next that has not been placed. -/
def waitsOn (s : State) (kid : Nat) (k : Kernel) (die : Nat) : Bool :=
  match nextEvicted s kid with
  | some g => if s.level k.cid = 0 then g.loc == .evicted die else fixedCore s k g / 64 == die
  | none => k.st == .placing && decide (k.nextGrp < k.groupCount) &&
      (if s.level k.cid = 0 then partCores (s.part (vfOf k.cid)) die != [] else (fixedCores s k k.nextGrp).headD 0 / 64 == die)

/-- Whether that group could take its place now: its die has room, and the pool has an image for it (R333, R336). -/
def roomOn (s : State) (kid : Nat) (k : Kernel) (die : Nat) : Bool :=
  match nextEvicted s kid with
  | some g => restoreCores s k g die != []
  | none => canPlace s k die && decide (heldImages s (vfOf k.cid) + k.clSize ≤ poolImages s (vfOf k.cid))

/-- Whether another kernel of the partition goes first on a die: its next group stands before this one and has waited there
65,536 Gong cycles (R335), or it has precedence by priority or age and could take its place there (R327). A kernel of a context
that is not active uses no core and holds nothing back. -/
def outranked (s : State) (kid : Nat) (k : Kernel) (die : Nat) : Bool :=
  let l := (s.die k.die).gong
  let me := k.entry kid
  match l.find? (fun e => e.kind == me) with
  | none => false
  | some mine =>
    let before := l.takeWhile (fun e => e.kind != me)
    l.any (fun e =>
      e.kind != me && vfOf e.cid == vfOf k.cid && s.ctxActive e.cid &&
        (match entryKernel s e with
         | some (kid2, k2) =>
           waitsOn s kid2 k2 die &&
             (let earlier := before.any (fun b => b.kind == e.kind)
              (earlier && decide (65536 ≤ mgetD e.waits die 0)) ||
              ((decide (mine.rank < e.rank) || (e.rank == mine.rank && earlier)) && roomOn s kid2 k2 die))
         | none => false))

/-- The next group of a kernel begins to wait for its placement (R335). -/
def State.gongWaits (s : State) (d : Nat) (k : GongKind) : State :=
  s.setDie d { s.die d with gong := (s.die d).gong.map (fun e => if e.kind = k then { e with waits := [] } else e) }

/-! ## GROUP_PLACEMENT (R333-R336) -/

/-- A thread at its creation (R325), its start apart. -/
def Thread.fresh (wid : W64) (sg sgt lane quota : Nat) : Thread :=
  { wid := wid, sg := sg, sgt := sgt, lane := lane, live := true, regs := [], opf := [], l0 := none, l1 := none,
    preds := 0#8, quota := quota, pc := 0#64, rep := none, inside := false, cvDone := false, pend := [], marks := [],
    fflags := 0#6, fen := 0#6, cause := 0#8, epc := 0#64, taddr := 0#64, tinfo := 0#32, msk := false, pmsk := false,
    hcount := 0#32, windows := [], trapRep := none, frames := [], las := [], regions := [], parked := none, wait := .none,
    retry := false, kept := none, resume := 0#64, resumeRep := none, owedRel := [], owedPop := 0, uqpos := 0, lbars := 0, ready := 0,
    hb := HbState.fresh 0 }

/-- A group at its placement. -/
def Group.fresh (kid : Nat) (k : Kernel) (grp core slot : Nat) (lanes : List Nat) : Group :=
  let gwid := gwidOf k grp
  let n := k.sgSize
  { kid := kid, cid := k.cid, grp := grp, gwid := gwid, loc := .placed core slot, preempt := false, atLbar := false, lbarDead := false,
    threads := (upFrom 0 lanes.length).map (fun t =>
      (t, Thread.fresh (widOf k gwid (t / n) (t % n)) (t / n) (t % n) (lanes.getD t 0) (kdQuota k.desc))),
    spad := [], xlive := [], xshadow := [], tiles := [], slots := [], bars := [], eng := [], mx := [], uq := [],
    uqFreed := 0, reserve := [], claims := [], regions := [], hart := Hart.off, pendW := [], stamps := [], rels := [],
    stall := none, xphase := 0 }

/-- The lowest free slot of a core. -/
def freeSlot (c : Core) : Nat := ((upFrom 0 16).find? (fun n => (mget c.slots n).isNone)).getD 16

/-- Places one group on a core, if the core has room. -/
def placeGroup (s : State) (kid : Nat) (k : Kernel) (grp core : Nat) : Option State :=
  match (roomOf s core).take k with
  | none => none
  | some (lanes, _) =>
    let slot := freeSlot (s.core core)
    let c := { s.core core with slots := mset (s.core core).slots slot s.nextGid }
    some { s.setCore core c with
      groups := mset s.groups s.nextGid (Group.fresh kid k grp core slot lanes)
      nextGid := s.nextGid + 1 }

/-- Places groups on cores, in order. -/
def placeGroups (kid : Nat) (k : Kernel) : Nat → List Nat → State → Option State
  | _, [], s => some s
  | grp, c :: cs, s => match placeGroup s kid k grp c with
    | some s' => placeGroups kid k (grp + 1) cs s'
    | none => none

/-- Whether cores belong to a partition and lie on one die. -/
def coresOk (p : Partition) (cores : List Nat) : Bool :=
  match cores with
  | [] => false
  | c :: _ => cores.all (fun x => coreIn p x && x / 64 == c / 64 && decide (x < 256))

/-- GROUP_PLACEMENT (R326, R333): the next cluster of a kernel takes its cores, or nothing; at levels 1 and 2 the cores are fixed
(R413). -/
def execGroupPlacement (kid : Nat) (cores : List Nat) (s : State) : Host.Outcome State Fault Refusal :=
  match s.kernel kid with
  | none => .next s
  | some k =>
    let vf := vfOf k.cid
    if k.st == .placing && decide (k.nextGrp < k.groupCount) && s.ctxActive k.cid && cores.length == k.clSize &&
        coresOk (s.part vf) cores && (s.level k.cid == 0 || cores == fixedCores s k k.nextGrp) && decide (heldImages s vf + k.clSize ≤ poolImages s vf) &&
        !outranked s kid k (cores.headD 0 / 64) && !s.groups.any (fun e => e.2.kid == kid && restorable s e.2) then
      match placeGroups kid k k.nextGrp cores s with
      | none => .next s
      | some s' =>
        let n := k.nextGrp + k.clSize
        let k' := { k with nextGrp := n, st := if k.groupCount ≤ n then KState.running else KState.placing }
        .next ({ s' with kernels := mset s'.kernels kid k' }.gongWaits k.die (k.entry kid))
    else .next s

/-! ## GROUP_START (R325, R326) -/

/-- The records that a group's slots take at its start (R325): those that fail leave their slots empty. -/
def startSlots (cid die : Nat) (k : Kernel) : List Nat → Group → State → Except EngStop (Group × State)
  | [], g, s => .ok (g, s)
  | n :: ns, g, s =>
    let vas := vaRange (BitVec.ofNat 64 (kdTsbase k.desc + 64 * n)) 64
    match viaXlate s (.die die) cid 0#2 vas with
    | .error (.error c ad i) => startSlots cid die k ns g (ctxLevel s cid c ad i false)
    | .error x => .error x
    | .ok (pas, s1) =>
      let (hs, s2) := s1.homes g.kid vas pas
      let m := ((s2.kernel g.kid).bind (·.snap)).getD s2.mem
      let r := recOf (hs.map m.get)
      if pas.any (s2.unitBad (s2.ctx cid).keyId) then startSlots cid die k ns g (ctxLevel s2 cid .dataIntegrity (vas.headD 0#64) 0#32 false)
      else if trOk r then startSlots cid die k ns (g.setSlot n r) s2
      else startSlots cid die k ns g (ctxLevel s2 cid .illegalOperand 0#64 0#32 false)

/-- A thread at its start (R325). -/
def Thread.begin (k : Kernel) (aid now : Nat) (th : Thread) : Thread :=
  { th with
    pc := kdVentry k.desc
    regs := if k.kargs = 0#56 then [] else [(0, k.kargs.setWidth 32), (1, (k.kargs >>> 32).setWidth 32)]
    ready := now
    hb := { HbState.fresh aid with clk := 1, vc := k.birth } }

/-- The hart of a group at its start (R251). -/
def Hart.begin (k : Kernel) (grp aid : Nat) : Hart :=
  if kdSentry k.desc = 0#64 then Hart.off
  else { x := [(10, k.kdesc.setWidth 64), (11, BitVec.ofNat 64 grp)], f := [], fcsr := 0#8, pc := kdSentry k.desc,
         status := .running, hb := { HbState.fresh aid with clk := 1, vc := k.birth } }

/-- Whether the stagger of a launch lets its next group start on a die (R25). -/
def staggerOk (s : State) (die kid : Nat) : Bool := mgetD (s.die die).starts kid 0 == 0

/-- GROUP_START (R326): a placed group's threads and hart start. -/
def execGroupStart (gid : Nat) (s : State) : Host.Outcome State Fault Refusal :=
  match s.group gid with
  | none => .next s
  | some g => match s.kernel g.kid, g.loc with
    | some k, .placed core slot =>
      let die := core / 64
      let st := (s.ctx g.cid).st
      let held := match g.stall with | some f => !f.woken | none => false
      if (st == .active || st == .quiescing) && staggerOk s die g.kid && !held then
        match startSlots g.cid die k ((upFrom 0 16).filter (kdTsmask k.desc).testBit) g s with
        | .error (.stall rec f) =>
          let s := match rec with
            | none => s
            | some (false, a, i) => ctxLevel s g.cid .translation a i g.stall.isSome
            | some (true, a, i) => partRecord s g.cid { FaultRec.of .range with addr := a, info := i, ctxl := true }
          .next (s.modGroup gid (fun g => { g with stall := some f }))
        | .error _ => .next s
        | .ok (g', s1) =>
          let aid := s1.nextAid
          let now := (s1.core core).cycle.toNat
          let g2 := { g' with
            loc := .resident core slot
            stall := none
            threads := mmap (fun t th => th.begin k (aid + 1 + t) now) g'.threads
            hart := Hart.begin k g.grp aid }
          let d := s1.die die
          let s2 := { s1.setGroup gid g2 with
            nextAid := aid + 1 + g2.threads.length
            kernels := mmodify s1.kernels g.kid (fun k => { k with started := k.started + 1 }) }
          .next (if k.stag = 0#16 then s2 else s2.setDie die { d with starts := mset d.starts g.kid k.stag.toNat })
      else .next s
    | _, _ => .next s

/-! ## GROUP_EVICT, GROUP_RESTORE (R341-R344) -/

/-- Whether a wait is a blocking point (R341). -/
def Wait.isBlocking : Wait → Bool
  | .none => false
  | .drain _ => false
  | _ => true

/-- Whether a wait is a stop. -/
def Wait.isStop : Wait → Bool
  | .stop _ _ => true
  | _ => false

/-- Whether a wait is a drain. -/
def Wait.isDrain : Wait → Bool
  | .drain _ => true
  | _ => false

/-- R342: whether a group is evictable. A drain is a blocking point behind an engine operation that waits for a merge entry
(R416). -/
def evictable (s : State) (gid : Nat) (g : Group) : Bool :=
  g.threads.all (fun t => !t.2.live ||
    ((t.2.wait.isBlocking || (t.2.wait.isDrain && groupHeld s gid)) && (!t.2.msk || t.2.wait.isStop))) &&
    !s.mxops.any (fun e => e.2.gid == gid && e.2.stage == .accepted)

/-- R343: whether the Gong asks for a group's slot: its threads wait at LBAR, no die has room for the next unstarted groups
of its launch, and the pool has a free image. At levels 1 and 2 its matrix steps of the interval have been done (log 101). -/
def gongWants (s : State) (gid : Nat) (g : Group) : Bool :=
  match s.kernel g.kid with
  | none => false
  | some k => decide (k.nextGrp < k.groupCount) && g.live != [] && g.threads.all (fun t => !t.2.live || t.2.atAnyLbar) &&
      !(upFrom 0 4).any (canPlace s k) &&
      (s.level g.cid == 0 || !s.mxops.any (fun o => o.2.gid == gid && o.2.stage != .applied)) && decide (heldImages s (vfOf g.cid) < poolImages s (vfOf g.cid))

/-- Takes one group off its core: the outstanding results of its threads are written (R70), what it holds there is free. -/
def evictGroup (gong : Bool) (s : State) (e : Nat × Group) : State :=
  let (gid, g) := e
  match g.loc with
  | .resident core slot =>
    let c := s.core core
    let mine := (s.mxops.filter (fun e => e.2.gid == gid)).map (·.1)
    let s := s.setCore core { c with
      slots := mdel c.slots slot
      port := match c.port with | some ig => if ig.gid = gid then none else some ig | none => none
      yielded := c.yielded.filter (fun ig => ig.gid != gid)
      mxq := c.mxq.filter (fun n => !mine.contains n) }
    { s with resv := s.resv.filter (fun r => r.1 != gid) }.setGroup gid { g with
      loc := .evicted (core / 64), atLbar := gong, preempt := false, threads := mmap (fun _ th => th.flush) g.threads }
  | _ => s

/-- The groups of a group's cluster that leave their cores together (R152); none while one of them has not started. -/
def leavesWith (s : State) (g : Group) : List (Nat × Group) :=
  match s.kernel g.kid with
  | none => []
  | some k =>
    let cl := clusterGroups s k g
    if cl.any (fun e => match e.2.loc with | .placed _ _ => true | _ => false) then []
    else cl.filter (fun e => e.2.isResident)

/-- GROUP_EVICT (R343): a group under a request of QUIESCE or the Gong goes to its image with its cluster once all of it is
evictable. -/
def execGroupEvict (gid : Nat) (s : State) : Host.Outcome State Fault Refusal :=
  match s.group gid with
  | none => .next s
  | some g =>
    let cl := leavesWith s g
    let quiesce := cl.any (fun e => e.2.preempt)
    if g.isResident && (quiesce || cl.all (fun e => gongWants s e.1 e.2)) && cl.all (fun e => evictable s e.1 e.2) then
      .next (cl.foldl (evictGroup (!quiesce)) s)
    else .next s

/-- R304: whether the record of a failed translation still waits for room in its ring: its agent stays stalled. An agent that
stage 2 refused waits for RREPLAY whether or not its record has been written (R305). -/
def recordWaits (s : State) (cid : Nat) (f : FaultWait) : Bool :=
  f.ipa.isNone && (s.ctx cid).fqWait.any (fun r => r.cause == .translation && r.addr == f.va)

/-- What a restored group finds: a wait for a replay is a wait for the access itself, which performs anew (R344), unless its
record waits for room. -/
def Group.resumed (s : State) (core slot now : Nat) (g : Group) : Group :=
  let free (f : FaultWait) : Bool := !recordWaits s g.cid f
  { g with
    loc := .resident core slot, atLbar := false, lbarDead := false
    threads := mmap (fun _ th => match th.wait with
      | .replay f => if free f then { th.again now with retry := true } else { th with ready := now }
      | _ => { th with ready := now }) g.threads
    hart := match g.hart.status with
      | .waiting f => { g.hart with status := .waiting { f with woken := f.woken || free f } }
      | _ => g.hart }

/-- Restores one group on a core, if the core has room; one whose LBAR has deadlocked is trapped (R345). -/
def restoreGroup (s : State) (gid core : Nat) : Option State :=
  match s.group gid with
  | none => none
  | some g => match s.kernel g.kid with
    | none => none
    | some k =>
      if roomFor k g (roomOf s core) then
        let c := s.core core
        let slot := freeSlot c
        let mine := (s.mxops.filter (fun e => e.2.gid == gid && e.2.stage == .requested)).map (·.1)
        let s := s.setCore core { c with slots := mset c.slots slot gid, mxq := c.mxq ++ mine }
        let g' := g.resumed s core slot c.cycle.toNat
        let s := s.setGroup gid g'
        some (if g.lbarDead then raiseLbarDead s gid g' k.lbarAt else s)
      else none

def restoreGroups : List (Nat × Nat) → State → Option State
  | [], s => some s
  | (gid, c) :: l, s => match restoreGroup s gid c with
    | some s' => restoreGroups l s'
    | none => none

/-- The die on which a cluster's groups must lie, if one is on a core (R152). -/
def clusterDie (s : State) (k : Kernel) (g : Group) : Option Nat :=
  (clusterGroups s k g).findSome? (fun e => e.2.core.map (fun c => c / 64))

/-- GROUP_RESTORE (R344): the evicted groups of a group's cluster are placed anew, together, on one die, unless another kernel
goes first there: in the open level on the die they left, at levels 1 and 2 on the cores of their placement. -/
def execGroupRestore (gid : Nat) (cores : List Nat) (s : State) : Host.Outcome State Fault Refusal :=
  match s.group gid with
  | none => .next s
  | some g => match s.kernel g.kid with
    | none => .next s
    | some k =>
      let gs := restoreSet s k g
      let die := cores.headD 0 / 64
      if gs.any (fun e => e.1 == gid) && gs.all (fun e => restorable s e.2) && cores.length == gs.length && coresOk (s.part (vfOf g.cid)) cores &&
          (match clusterDie s k g with | some d => d == die | none => true) && !outranked s g.kid k die &&
          (if s.level g.cid = 0 then gs.all (fun e => e.2.loc == .evicted die) else cores == gs.map (fun e => fixedCore s k e.2)) then
        match restoreGroups ((gs.map (·.1)).zip cores) s with
        | some s' => .next (s'.gongWaits k.die (k.entry g.kid))
        | none => .next s
      else .next s

/-! ## KERNEL_COMPLETE (R332) -/

/-- What the events of a kernel's groups so far come to: of threads, live or not, harts, and operations (R273, R332). -/
def kernelClock (s : State) (kid : Nat) (k : Kernel) : Clock :=
  let mine := s.groups.filter (fun e => e.2.kid == kid)
  let of (gid : Nat) : Bool := mine.any (fun e => e.1 == gid)
  let c := mine.foldl (fun c e =>
    let c := e.2.threads.foldl (fun c t => clockJoin c t.2.hb.now) (clockJoin c e.2.hart.hb.now)
    e.2.eng.foldl (fun c x => x.2.done.foldl (fun c d => d.2.foldl (fun c d => clockJoin c d.all) c) c) c) k.vc
  let c := s.ops.foldl (fun c o => if o.2.gid.any of then clockJoin c o.2.hb.now else c) c
  s.mxops.foldl (fun c o => if of o.2.gid then clockJoin c o.2.hb.now else c) c

/-- Whether every group of a kernel has retired and every operation of its threads is complete. -/
def kernelDrained (s : State) (kid : Nat) (k : Kernel) : Bool :=
  let of (gid : Nat) : Bool := match s.group gid with | some g => g.kid == kid | none => false
  k.groupCount == k.retired && !s.ops.any (fun o => o.2.gid.any of) &&
    !s.mxops.any (fun o => of o.2.gid && o.2.stage != .applied)

/-- Forgets a kernel's groups; where its stamps overflowed, stamping goes on (R271). -/
def dropGroups (s : State) (kid : Nat) (k : Kernel) : State :=
  let gone := (s.groups.filter (fun e => e.2.kid == kid)).map (·.1)
  let s := { s with
    groups := s.groups.filter (fun e => e.2.kid != kid)
    mxops := s.mxops.filter (fun e => !gone.contains e.2.gid) }
  let c := s.ctx k.cid
  let off := c.stampOff.filter (fun n => n != kid && (mget s.kernels n).isSome)
  s.setCtx k.cid { c with stampOff := off, capNoted := c.capNoted.filter (· != kid) }

/-- The last step of a kernel (R332): its signal, once its processor may act (R318), then its Gong entry is free. A graph node's kernel stays done until its
node completes. -/
def closeKernel (s : State) (kid : Nat) (k : Kernel) : State :=
  let know := kernelClock s kid k
  match k.origin with
  | .packet cid q ser =>
    if !s.procGoes cid then { s with kernels := mset s.kernels kid { k with st := .closing } }
    else match endPacket s cid q ser stOk know with
    | (s, false) => { s with kernels := mset s.kernels kid { k with st := .closing } }
    | (s, true) =>
      let s := dropGroups s kid k
      { s.gongDrop k.die (.kernel kid) [] with kernels := mdel s.kernels kid }
  | .node _ _ =>
    let s := dropGroups s kid k
    { s with kernels := mset s.kernels kid { k with st := .done, vc := know } }

/-- KERNEL_COMPLETE (R332): a kernel whose groups and operations are done goes to its final merge, or closes. -/
def execKernelComplete (kid : Nat) (s : State) : Host.Outcome State Fault Refusal :=
  match s.kernel kid with
  | none => .next s
  | some k => match k.st with
    | .running =>
      if kernelDrained s kid k then
        if s.level k.cid = 0 then .next (closeKernel s kid k)
        else .next { s with kernels := mset s.kernels kid { k with st := .merging } }
      else .next s
    | .closing => .next (closeKernel s kid k)
    | _ => .next s

/-! ## GONG_AGING (R327) -/

/-- GONG_AGING (R327): a pending entry that has waited 65,536 Gong cycles counts as priority 3 from now on. -/
def execGongAging (die entry : Nat) (s : State) : Host.Outcome State Fault Refusal :=
  let l := (s.die die).gong
  .next (s.setDie die { s.die die with
    gong := (l.zip (upFrom 0 l.length)).map (fun x =>
      if x.2 = entry ∧ x.1.sent = false ∧ 65536 ≤ x.1.age then { x.1 with aged := true } else x.1) })

end Sys2Proof.Machine
end

