-- ==== Sys2Proof/Machine/Vesper.lean ====
section
/-! DEFINITION. The merge of an interval (R273, R274, R221, R314): merge order, conflicts, what each update does. -/
namespace Sys2Proof.Machine

/-! ## Merge order (R273) -/

/-- The updates of one group in merge order: the hart's first, then the threads' in ascending work identifier; each one's
in its own order. -/
def groupRecs (g : Group) : List MRec :=
  g.pendW.filter (fun r => r.thread.isNone) ++
    (g.threads.flatMap (fun t => if g.pendW.any (fun r => r.thread == some t.1) then [(t.2.wid.toNat, t.1)] else [])
      |> sortBy (fun x => x.1)).flatMap (fun x => g.pendW.filter (fun r => r.thread == some x.2))

/-- The updates of a launch's interval in merge order, each with its task. -/
def mergeRecs (s : State) (kid : Nat) : List (Nat × MRec) :=
  (sortBy (fun e => e.2.grp) (s.groups.filter (fun e => e.2.kid == kid))).flatMap
    (fun e => (groupRecs e.2).map (fun r => (e.2.grp, r)))

/-- The single writes that an update comes to: an engine's write is one for each byte, however the engine cut its transfer
(log 99). -/
def MRec.writes (r : MRec) : List MRec :=
  match r.item, r.eng with
  | .write bs, some _ =>
    (bs.zip (upFrom 0 bs.length)).map (fun x => { r with va := r.va + BitVec.ofNat 64 x.2, item := .write [x.1] })
  | _, _ => [r]

/-- The writes that one instruction made, together: consecutive ones of one task, thread and execution. -/
def sameInstr (a b : Nat × MRec) : Bool :=
  a.1 == b.1 && a.2.thread == b.2.thread && a.2.po == b.2.po &&
    (match a.2.item, b.2.item with | .write _, .write _ => true | _, _ => false)

/-- The single writes of the updates of one instruction; an engine's stand by ascending address. -/
def instrWrites (l : List (Nat × MRec)) : List (Nat × MRec) :=
  let all := l.flatMap (fun e => e.2.writes.map (fun r => (e.1, r)))
  if l.any (fun e => e.2.eng.isSome) then sortBy (fun e => e.2.va.toNat) all else all

/-! ## Conflicts (R274) -/

/-- Whether an update is a queued reduction. -/
def MItem.isRed : MItem → Bool
  | .redI .. => true
  | .redF .. => true
  | .wadd .. => true
  | _ => false

/-- Bytes applied in this merge: by address the tasks that touched it, each marked whether by a reduction. -/
abbrev Applied := AMap (List (Nat × Bool))

/-- Whether a byte was applied by another task in a way that conflicts. -/
def clashes (m : Applied) (task : Nat) (red : Bool) (a : Nat) : Bool :=
  (mgetD m a []).any (fun x => x.1 != task && !(x.2 && red))

/-- Marks bytes as applied. -/
def markApplied (m : Applied) (task : Nat) (red : Bool) (as : List Nat) : Applied :=
  as.foldl (fun m a => let l := mgetD m a []; if l.contains (task, red) then m else mset m a ((task, red) :: l)) m

/-- The record of a dropped update (R274): its lowest conflicting byte is number `i` of it. -/
def dropRecord (s : State) (cid : Nat) (r : MRec) (i : Nat) : State :=
  (ctxRecord s cid { FaultRec.of .mergeConflict with
    ctxl := true, wid := r.wid, addr := r.va + BitVec.ofNat 64 i, hart := r.thread.isNone,
    eng := r.eng.isSome, ectx := BitVec.ofNat 3 ((r.eng.map (·.1)).getD 0),
    opnum := BitVec.ofNat 64 ((r.eng.map (·.2)).getD 0) }).1

/-! ## Applying -/

/-- Whether an event's generation is still the slot's (R221). -/
def genOk (s : State) (cid table gen : Nat) : Bool := (s.fsSlot cid table).gen == gen

/-- An update whose addresses are those at which its pages stand now (R378), with the intermediate addresses. -/
def MItem.place (k : Kernel) (s : State) (i : MItem) : MItem × State :=
  let at_ (s : State) (a : Nat) : State := let x := k.pageNow a; s.reachAt x.1 x.2
  match i with
  | .write bs => (.write (bs.map (fun b => ((k.pageNow b.1).1, b.2))), bs.foldl (fun s b => at_ s b.1) s)
  | .redI o pa v => (.redI o (k.pageNow pa).1 v, at_ s pa)
  | .redF o pa v => (.redF o (k.pageNow pa).1 v, at_ s pa)
  | .wadd pa w d x => (.wadd (k.pageNow pa).1 w d x, at_ s pa)
  | i => (i, s)

/-- R274, R428: the updates of memory of one instruction that are not dropped: an update whose stored entry fails is reported, one
that conflicts is dropped with its record. -/
def keepWrites (cid : Nat) (m : Applied) : List (Nat × MRec) → State → List (Nat × MRec) × State
  | [], s => ([], s)
  | e :: l, s =>
    let bs := e.2.item.effect s.mem
    if e.2.bad then keepWrites cid m l (ctxLevel s cid .dataIntegrity e.2.va 0#32 false)
    else match (upFrom 0 bs.length).find? (fun i => clashes m e.1 e.2.item.isRed ((bs.getD i (0, 0#8)).1)) with
      | some i => keepWrites cid m l (dropRecord s cid e.2 i)
      | none => let r := keepWrites cid m l s; (e :: r.1, r.2)

/-- R428: the failing units that keep bytes from being written: a write covers them whole only together with the other writes of
its instruction, a reduction never does. -/
def failingUnits (s : State) (key : Nat) (red : Bool) (pas : List Nat) : List Nat :=
  ((pas.filter (fun a => s.unitBad key a && (red || !(upFrom (a / 64 * 64) 64).all pas.contains))).map (· / 64)).eraseDups

/-- Applies the updates of memory that one instruction made, with their conflict checks (R274) and those of the units that
they reach (R428): each failing unit is reported once, and nothing is written to it. -/
def applyWrites (k : Kernel) (l : List (Nat × MRec)) (x : State × Applied) : State × Applied :=
  let (s, m) := x
  let cid := k.cid
  let (l, s) := l.foldl (fun (r : List (Nat × MRec) × State) e =>
    let y := e.2.item.place k r.2
    (r.1 ++ [(e.1, { e.2 with item := y.1 })], y.2)) ([], s)
  let (keep, s) := keepWrites cid m l s
  let key := (s.ctx cid).keyId
  let red := keep.any (fun e => e.2.item.isRed)
  let touches (u : Nat) (e : Nat × MRec) : Option Nat := (e.2.item.effect s.mem).findIdx? (fun b => b.1 / 64 == u)
  let bad := failingUnits s key red (keep.flatMap (fun e => (e.2.item.effect s.mem).map (·.1)))
  let s := bad.foldl (fun s u => match keep.findSome? (fun e => (touches u e).map (fun i => e.2.va + BitVec.ofNat 64 i)) with
    | some va => ctxLevel s cid .dataIntegrity va 0#32 false
    | none => s) s
  let keep := keep.filter (fun e => !bad.any (fun u => (touches u e).isSome))
  let bs := keep.flatMap (fun e => e.2.item.effect s.mem)
  (pokeRuns s key (bs.map (·.1)) (bs.map (·.2)), markApplied m ((l.map (·.1)).headD 0) red (bs.map (·.1)))

/-- R221: a queued event of a table at its turn; one whose generation is past is dropped, and one that needs a record whose
stored copy fails is reported (R428). -/
def applyTable (cid : Nat) (item : MItem) (s : State) : State :=
  let recs (t : Nat) : List FsRec := match (s.fsSlot cid t).table with | some tb => tb.recs | none => []
  let fails (s : State) : State := ctxLevel s cid .dataIntegrity 0#64 0#32 false
  match item with
  | .fsHit t gen uid =>
    if !genOk s cid t gen then s
    else if (recs t).any (fun r => r.uid == uid && r.bad) then fails s
    else s.modTable cid t (fun x => x.hitEv uid)
  | .fsCount t gen c => if genOk s cid t gen then s.modTable cid t (fun x => x.countEv c) else s
  | .fsFlush t gen all => if genOk s cid t gen then s.modTable cid t (fun x => x.flushEv all) else s
  | .fsUpdate t gen x y jac =>
    if !genOk s cid t gen then s
    else if (recs t).any (·.bad) then fails s
    else
      let bad := match (s.fsSlot cid t).table with | some tb => (tb.updateEv x y jac).2 | none => false
      let s := s.modTable cid t (fun tb => (tb.updateEv x y jac).1)
      if bad && (s.ctx cid).ien.getLsbD t then ctxLevel s cid .storeIncons 0#64 (BitVec.ofNat 32 t) false else s
  | .fsDesc t d rad die => s.fsInstall cid t d rad die
  | _ => s

/-- Whether an update is one of memory. -/
def MItem.isMem : MItem → Bool
  | .write _ => true
  | i => i.isRed

/-- The updates of one instruction at their turn; notify writes come after the merge. -/
def applyInstr (k : Kernel) (x : State × Applied) (l : List (Nat × MRec)) : State × Applied :=
  let x := if l.any (fun e => e.2.item.isMem) then applyWrites k (instrWrites (l.filter (fun e => e.2.item.isMem))) x else x
  (l.foldl (fun s e =>
    if e.2.item.isTable then
      if e.2.bad then ctxLevel s k.cid .dataIntegrity e.2.va 0#32 false else applyTable k.cid e.2.item s
    else s) x.1, x.2)

/-- The notify writes of the interval, after the merge (R314). -/
def applyNotify (cid : Nat) (s : State) (e : Nat × MRec) : State :=
  match e.2.item with
  | .notify q w => s.modQueue cid q (fun u => u.notify w)
  | _ => s

/-- R273: the whole merge of a launch's interval. -/
def mergeInterval (s : State) (kid : Nat) (k : Kernel) : State :=
  let l := mergeRecs s kid
  let s := ((l.splitBy sameInstr).foldl (applyInstr k) ({ s with reach := [] }, [])).1
  let s := l.foldl (applyNotify k.cid) s
  let s := { s with groups := mmap (fun _ g => if g.kid = kid then { g with pendW := [] } else g) s.groups }
  s.setCtx k.cid { s.ctx k.cid with capNoted := (s.ctx k.cid).capNoted.filter (· != kid) }

/-- After a merge point the agents' later events are new to what the merge point has passed on (R260). -/
def tickAll (s : State) (kid : Nat) : State :=
  let of (gid : Nat) : Bool := match s.group gid with | some g => g.kid == kid | none => false
  { s with
    groups := mmap (fun _ g => if g.kid = kid then
      { g with threads := mmap (fun _ th => { th with hb := th.hb.tick }) g.threads, hart := { g.hart with hb := g.hart.hb.tick } }
      else g) s.groups
    ops := mmap (fun _ o => if o.gid.any of then { o with hb := o.hb.tick } else o) s.ops
    mxops := mmap (fun _ o => if of o.gid then { o with hb := o.hb.tick } else o) s.mxops }

/-- R260: what the merge point passes on reaches the harts and the operations still in progress as it does the threads. -/
def learnAll (s : State) (kid : Nat) (c : Clock) : State :=
  let of (gid : Nat) : Bool := match s.group gid with | some g => g.kid == kid | none => false
  { s with
    groups := mmap (fun _ g => if g.kid = kid then { g with hart := { g.hart with hb := g.hart.hb.learn c } } else g) s.groups
    ops := mmap (fun _ o => if o.gid.any of then { o with hb := o.hb.learn c } else o) s.ops
    mxops := mmap (fun _ o => if of o.gid then { o with hb := o.hb.learn c } else o) s.mxops }

/-- MERGE_APPLY (R273): at a launch barrier whose arrivals are complete, or at the end of a launch; a new interval starts
from a new snapshot, and every event so far comes before every later one (R260). -/
def execMergeApply (kid : Nat) (s : State) : Host.Outcome State Fault Refusal :=
  match s.kernel kid with
  | none => .next s
  | some k =>
    let st := (s.ctx k.cid).st
    if (st == .active || st == .quiescing) && (k.mergePending || k.st == .merging) then
      let s := mergeInterval s kid k
      let k := (s.kernel kid).getD k
      if k.st == .merging then .next { s with kernels := mset s.kernels kid { k with st := .closing } }
      else
        let know := kernelClock s kid k
        let k' := { k with snap := some s.mem, snapTables := (s.ctx k.cid).tables, snapPages := [], interval := k.interval + 1,
                           vc := know }
        .next (completeLbar (learnAll (tickAll s kid) kid know) kid k')
    else .next s

end Sys2Proof.Machine
end

