-- ==== Sys2Proof/Machine/Graphs.lean ====
section
/-! DEFINITION. Graphs (R329-R331): the fields and checks of nodes, their dispatch, their end, and the end of a graph. -/
namespace Sys2Proof.Machine

/-! ## Nodes (R329) -/

def ndType (r : BitVec 512) : Nat := dbits r 0 8
def ndNpred (r : BitVec 512) : Nat := dbits r 8 4
def ndPred (r : BitVec 512) (n : Nat) : Nat := dbits r (64 + 16 * n) 16
def ndBody (r : BitVec 512) : Nat := dbits r 224 56
def ndCrank (r : BitVec 512) : Nat := dbits r 280 16
/-- The predecessors that a node uses. -/
def ndPreds (r : BitVec 512) : List Nat := (upFrom 0 (ndNpred r)).map (ndPred r)

/-- R329: whether node `j` passes, its rank apart. -/
def nodeOk (j : Nat) (r : BitVec 512) : Bool :=
  dbits r 296 216 == 0 && dbits r 12 52 == 0 && decide (1 ≤ ndType r) && decide (ndType r ≤ 4) && decide (ndNpred r ≤ 4) &&
    (ndPreds r).all (fun p => decide (p < j)) && (ndType r == 3 || ndCrank r == 0) && (ndType r != 4 || ndBody r == 0)

/-- The ranks of a communicator (R389); none for no communicator. -/
def commRanks (s : State) (cid comm : Nat) : Nat := match commEntries s cid comm with | e :: _ => e.2.np.toNat | [] => 0

/-- R329: whether the collective nodes of a list have ranks of their communicators. -/
def ranksOk (s : State) (cid : Nat) (l : List (BitVec 512 × NodeBody)) : Bool :=
  l.all (fun x => ndType x.1 != 3 || (match x.2.body with
    | some b => decide (ndCrank x.1 < commRanks s cid (cdComm b))
    | none => false))

/-- The nodes with their numbers. -/
def Graph.numbered (g : Graph) : List (Nat × BitVec 512 × NodeState) := (upFrom 0 g.nodes.length).zip g.nodes

/-- Changes the state of a node. -/
def Graph.setNode (g : Graph) (n : Nat) (st : NodeState) : Graph :=
  { g with nodes := g.numbered.map (fun x => if x.1 = n then (x.2.1, st) else x.2) }

def State.graph (s : State) (gr : Nat) : Option Graph := mget s.graphs gr
def State.setGraph (s : State) (gr : Nat) (g : Graph) : State := { s with graphs := mset s.graphs gr g }

/-- Whether a node has ended. -/
def NodeState.ended : NodeState → Bool
  | .complete => true | .failed _ => true | .skipped => true | _ => false

/-! ## Ends -/

/-- The nodes, still waiting, that depend on a bad one by a predecessor edge or a key edge (R331). -/
def dependants (s : State) (bad : List (Nat × Nat)) : List (Nat × Nat) :=
  s.graphs.flatMap (fun e => e.2.numbered.filterMap (fun x =>
    if x.2.2 == .waiting && !bad.contains (e.1, x.1) &&
        ((ndPreds x.2.1).any (fun p => bad.contains (e.1, p)) ||
         ((s.die e.2.die).gong.takeWhile (fun y => y.kind != .node e.1 x.1)).any (fun y => match y.kind with
           | .node g n => bad.contains (g, n) && y.cid == e.2.cid && keysConflict s y.kind (.node e.1 x.1)
           | _ => false))
    then some (e.1, x.1) else none))

/-- Every node that depends on a bad one, directly or not. -/
def doomed (s : State) : Nat → List (Nat × Nat) → List (Nat × Nat)
  | 0, bad => bad
  | n + 1, bad => match dependants s bad with
    | [] => bad
    | l => doomed s n (bad ++ l)

/-- Ends one node: its state, its Gong entry, and what it passes on by its keys. -/
def endNode (s : State) (gr n : Nat) (st : NodeState) (know : Clock) : State :=
  match s.graph gr with
  | none => s
  | some g => (s.setGraph gr (g.setNode n st)).gongDrop g.die (.node gr n) know

/-- R331: the status of a graph all of whose nodes have ended: that of the failed node of lowest index. -/
def Graph.status (g : Graph) : BitVec 16 :=
  (g.nodes.findSome? (fun x => match x.2 with | .failed c => some c | _ => none)).getD stOk

/-- R331: completes a graph all of whose nodes have ended; while its signal or its processor waits, the graph stays. -/
def closeGraph (s : State) (gr : Nat) : State :=
  match s.graph gr with
  | none => s
  | some g =>
    if !g.nodes.all (fun x => x.2.ended) || !s.procGoes g.cid then s
    else match endPacket s g.cid g.q g.ser g.status (g.vcs.foldl (fun c e => clockJoin c e.2) []) with
      | (s', true) => { s' with graphs := mdel s'.graphs gr }
      | (s', false) => s'

/-- Closes every graph of a list. -/
def closeGraphs (s : State) (l : List Nat) : State := l.foldl closeGraph s

/-- R331: a node completes or fails; what depends on a failed one is skipped; graphs whose nodes have all ended close. -/
def nodeEnds (s : State) (gr n : Nat) (code : BitVec 16) (know : Clock) : State :=
  if code = stOk then
    let s := match s.graph gr with
      | some g => s.setGraph gr { g with vcs := mset g.vcs n know }
      | none => s
    closeGraph (endNode s gr n .complete know) gr
  else
    let bad := doomed s (s.graphs.foldl (fun m e => m + e.2.nodes.length) 1) [(gr, n)]
    let s := bad.foldl (fun s x => endNode s x.1 x.2 (if x = (gr, n) then .failed code else .skipped) []) s
    closeGraphs s (bad.map (·.1)).eraseDups

/-! ## Dispatch (R330) -/

/-- What a node knows at its start: what the packet knew and what its predecessors by edge or key pass on. -/
def Graph.know (s : State) (gr n : Nat) (g : Graph) (r : BitVec 512) : Clock :=
  (ndPreds r).foldl (fun c p => clockJoin c (mgetD g.vcs p [])) (clockJoin g.birth (s.gongKnow g.die (.node gr n)))

/-- An operation of a graph node. -/
def addNodeOp (s : State) (g : Graph) (kind : EngKind) (know : Clock) : State :=
  s.addOp { po := 0, gid := none, thread := none, cid := g.cid, wid := 0#64, ectx := 0, num := 0, kind := kind, done := [],
            err := none, recd := none, stall := none, held := false, flags := 0#6, ended := false, hb := opHb know, place := outerPlace g.die }

/-- Marks a node as dispatched. -/
def dispatched (s : State) (gr n : Nat) (g : Graph) : State :=
  (s.setGraph gr (g.setNode n .dispatched)).gongSend g.die (.node gr n)

/-- A launch node's body as a LAUNCH packet: `sig`, `bar`, `acq` and `rel` are ignored (R329). -/
def launchBody (b : BitVec 512) : BitVec 512 := b &&& ~~~((BitVec.allOnes 56).setWidth 512 <<< 448 ||| 0x700#512)

/-- R329, R315, R316: whether a node's body is a packet of its type. -/
def nodePacketOk (ty : Nat) (b : BitVec 512) : Bool :=
  if ty = 1 then packetOk (launchBody b) && pkType b == 1 else packetOk b && pkType b == 4

/-- R330: dispatches a launch node with its body and descriptor as copied. -/
def dispatchLaunch (s : State) (gr n : Nat) (g : Graph) (b : BitVec 512) (d : Option (BitVec 512)) (know : Clock) : State :=
  let st := if !nodePacketOk 1 b then stBadPacket else match d with
    | some d => launchStatus s g.cid b d
    | none => if lhKdesc b % 64 = 0 then stBadPacket else stBadKdesc
  if st = stOk then
    ((s.setGraph gr (g.setNode n .dispatched)).addKernel
      (mkKernel s g.cid g.die b (d.getD 0#512) g.prio true (.node gr n) know)).1
  else nodeEnds s gr n st []

/-- R330: dispatches a copy node. -/
def dispatchCopy (s : State) (gr n : Nat) (g : Graph) (b : BitVec 512) (know : Clock) : State :=
  if nodePacketOk 2 b then
    addNodeOp (dispatched s gr n g) g (.nodeCopy gr n (dbits b 64 56) (dbits b 128 56) (dbits b 192 32)) know
  else nodeEnds s gr n stBadPacket []

/-- R330: dispatches a collective node; its contribution counts toward its rank's calls (R329, R182). -/
def dispatchColl (s : State) (gr n : Nat) (g : Graph) (r b : BitVec 512) (know : Clock) : State :=
  match pickComm s g.cid (cdComm b) with
  | .entry i _ =>
    if !cdOk b || !rootOk s g.cid b then nodeEnds s gr n stBadPacket []
    else
      let (call, s1) := countCall s (vfOf g.cid) i (ndCrank r)
      addNodeOp (dispatched s1 gr n g) g (.nodeColl gr n b (ndCrank r) call) know
  | .broken ns =>
    nodeEnds (ctxLevel (countCalls s (vfOf g.cid) (fun _ => some (ndCrank r)) ns) g.cid .communicator 0#64 0#32 false) gr n stCopyError []
  | .absent => nodeEnds s gr n stBadPacket []

/-- R330: dispatches a node. -/
def dispatchNode (s : State) (gr n : Nat) (g : Graph) (r : BitVec 512) (x : NodeBody) : State :=
  let know := g.know s gr n r
  if ndType r = 4 then nodeEnds s gr n stOk know
  else match x.body with
    | none => nodeEnds s gr n stBadPacket []
    | some b =>
      if ndType r = 1 then dispatchLaunch s gr n g b x.desc know
      else if ndType r = 2 then dispatchCopy s gr n g b know
      else dispatchColl s gr n g r b know

/-- R330: whether a node still waits and nothing holds it back: its predecessors have completed, and no earlier entry
conflicts by keys. -/
def nodeReady (s : State) (gr n : Nat) (g : Graph) : Bool :=
  match g.nodes[n]? with
  | some (r, .waiting) =>
    s.ctxActive g.cid &&
      (ndPreds r).all (fun p => match g.nodes[p]? with | some (_, .complete) => true | _ => false) &&
      !keyBlocked s g.die g.cid (.node gr n)
  | _ => false

/-- Whether a Gong entry is a ready node of a type: those that use one engine of a die. -/
def readyNode (s : State) (ty : Nat) (e : GongEntry) : Bool :=
  match e.kind with
  | .node gr n => (match s.graph gr with
    | some g => nodeReady s gr n g && (g.nodes[n]?).any (fun x => ndType x.1 == ty)
    | none => false)
  | _ => false

/-- GRAPH_NODE_DISPATCH (R330, R327): a ready node, no other ready one of its partition having precedence at its engine. -/
def execGraphNodeDispatch (graph node : Nat) (s : State) : Host.Outcome State Fault Refusal :=
  match s.graph graph with
  | none => .next s
  | some g => match g.nodes[node]? with
    | some (r, _) =>
      if nodeReady s graph node g && s.gongFirst g.die (.node graph node) (readyNode s (ndType r)) then
        .next (dispatchNode s graph node g r (g.bodies.getD node ⟨none, none⟩))
      else .next s
    | none => .next s

/-! ## GRAPH_NODE_COMPLETE (R331) -/

/-- The operation of a node. -/
def nodeOp (s : State) (gr n : Nat) : Option (Nat × EngOp) :=
  s.ops.find? (fun e => match e.2.kind with
    | .nodeCopy g m _ _ _ => g == gr && m == n
    | .nodeColl g m _ _ _ => g == gr && m == n
    | _ => false)

/-- Whether an operation of a node has ended. -/
def EngOp.over (o : EngOp) (s : State) : Bool :=
  match o.kind with
  | .nodeCopy _ _ _ _ len => if o.err.isSome then o.failed s else decide (len ≤ o.count)
  | _ => o.done != [] && (o.err.isNone || o.failed s)

/-- The kernel of a launch node. -/
def nodeKernel (s : State) (gr n : Nat) : Option (Nat × Kernel) :=
  s.kernels.find? (fun e => e.2.origin == .node gr n)

/-- GRAPH_NODE_COMPLETE (R331): a dispatched node whose work has ended completes or fails; a graph whose signal waited for a
replay is closed. -/
def execGraphNodeComplete (graph node : Nat) (s : State) : Host.Outcome State Fault Refusal :=
  match s.graph graph with
  | none => .next s
  | some g =>
    if g.nodes.all (fun x => x.2.ended) then
      (if s.procGoes g.cid then .next (closeGraph s graph) else .next s)
    else match g.nodes[node]? with
    | some (_, .dispatched) =>
      match nodeOp s graph node, nodeKernel s graph node with
      | some (op, o), _ =>
        if o.over s then
          .next (nodeEnds { s with ops := mdel s.ops op } graph node (if o.err.isSome then stCopyError else stOk) o.hb.now)
        else .next s
      | none, some (kid, k) =>
        if k.st == .done then .next (nodeEnds { s with kernels := mdel s.kernels kid } graph node stOk k.vc) else .next s
      | none, none => .next s
    | _ => .next s

end Sys2Proof.Machine
end

