-- ==== Sys2Proof/Machine/Queues.lean ====
section
/-! DEFINITION. The meanings of the queue events (R311-R320): notify, enable, disable, skip, the reading of packets and their
starts and completions by type. -/
namespace Sys2Proof.Machine

/-! ## Registers of a queue (R311, R314, R319) -/

/-- A notify write of the host (R313): it passes on what completion signals have told the host. -/
def execQnotify (cid q : Nat) (w : W32) (s : State) : Host.Outcome State Fault Refusal :=
  .next (s.onQueue cid q (fun u => { u.notify w with vc := clockJoin u.vc s.hostVc }))

/-- Writing `en` := 1 (R311). -/
def Queue.enable (u : Queue) : Queue :=
  if u.en then u
  else if u.qbase.toNat % 64 ≠ 0 ∨ u.lqlen.toNat < 4 then { u with err := 7#8 }
  else { u with en := true, ridx := 0#32, widx := 0#32, st := .idle, err := 0#8, cur := none, stall := none }

/-- Writing `en` := 0 (R311, R319): in the idle and halted states only. -/
def Queue.disable (u : Queue) : Queue :=
  if u.st = .idle ∨ u.st = .halted then
    { u with en := false, st := .disabled, cur := none, stall := none, active := u.active.filter (fun p => !p.isWait) }
  else u

/-- Writing `skip` := 1 (R319). -/
def Queue.skip (u : Queue) : Queue :=
  if u.st = .halted then
    let u := { u with ridx := if u.ridx = u.eidx ∧ u.err ≠ 6#8 then u.eidx + 1#32 else u.ridx }
    { u with st := u.rest }
  else u

/-- QUEUE_ENABLE (R311). -/
def execQueueEnable (cid q : Nat) (s : State) : Host.Outcome State Fault Refusal := .next (s.onQueue cid q Queue.enable)
/-- QUEUE_DISABLE (R311). -/
def execQueueDisable (cid q : Nat) (s : State) : Host.Outcome State Fault Refusal := .next (s.onQueue cid q Queue.disable)
/-- QUEUE_SKIP (R319). -/
def execQueueSkip (cid q : Nat) (s : State) : Host.Outcome State Fault Refusal := .next (s.onQueue cid q Queue.skip)

/-! ## Reading packets (R312, R318, R322, R329) -/

/-- Whether the processor may read the next packet of a queue. -/
def canFetch (s : State) (cid q : Nat) : Bool :=
  let u := s.queue cid q
  s.ctxActive cid && u.en && u.st != .halted && u.cur.isNone && !u.active.any Pkt.isWait && u.ridx != u.widx && s.procGoes cid

/-- R322: the descriptor that a launch header names, where it is aligned. -/
def readDesc (s : State) (cid : Nat) (b : BitVec 512) : Except EngStop (Option (BitVec 512) × State) :=
  if lhKdesc b % 64 ≠ 0 then .ok (none, s)
  else match procRead s cid (BitVec.ofNat 64 (lhKdesc b)) 64 with
    | .error x => .error x
    | .ok (ds, s1) => .ok (some (recOf ds), s1)

/-- R322, R329: the body of a node, and a launch's descriptor. -/
def readBody (s : State) (cid : Nat) (r : BitVec 512) : Except EngStop (NodeBody × State) :=
  if ndType r = 4 ∨ ndBody r % 64 ≠ 0 then .ok (⟨none, none⟩, s)
  else match procRead s cid (BitVec.ofNat 64 (ndBody r)) 64 with
    | .error x => .error x
    | .ok (bs, s1) =>
      if ndType r ≠ 1 then .ok (⟨some (recOf bs), none⟩, s1)
      else match readDesc s1 cid (recOf bs) with
        | .error x => .error x
        | .ok (d, s2) => .ok (⟨some (recOf bs), d⟩, s2)

/-- The bodies of nodes in order; one that is refused is left out, with its record. -/
def readBodies (s : State) (cid : Nat) : List (BitVec 512) → Except EngStop (List (BitVec 512 × NodeBody) × State)
  | [] => .ok ([], s)
  | r :: rs =>
    let go (b : NodeBody) (s1 : State) : Except EngStop (List (BitVec 512 × NodeBody) × State) :=
      match readBodies s1 cid rs with
      | .error x => .error x
      | .ok (l, s2) => .ok ((r, b) :: l, s2)
    match readBody s cid r with
    | .ok (b, s1) => go b s1
    | .error (.error c a i) => go ⟨none, none⟩ (ctxLevel s cid c a i false)
    | .error x => .error x

/-- R322, R329: what the processor copies with a packet: a launch's descriptor, a graph's nodes. -/
def readCopies (s : State) (cid : Nat) (p : Pkt) : Except EngStop (Pkt × State) :=
  match pkType p.body with
  | 1 => match readDesc s cid p.body with
    | .error x => .error x
    | .ok (d, s1) => .ok ({ p with desc := d }, s1)
  | 6 =>
    let n := dbits p.body 128 13
    match procRead s cid (BitVec.ofNat 64 (dbits p.body 64 56)) (64 * n) with
    | .error x => .error x
    | .ok (bs, s1) =>
      let rs := recsOf bs n
      if !((upFrom 0 n).zip rs).all (fun x => nodeOk x.1 x.2) then
        .ok ({ p with nodes := rs.map (fun r => (r, ⟨none, none⟩)) }, s1)
      else match readBodies s1 cid rs with
        | .error x => .error x
        | .ok (l, s2) => .ok ({ p with nodes := l }, s2)
  | _ => .ok (p, s)

/-- A packet has been read in full: it waits for its start, and a stall of its reading is over. -/
def packetRead (s : State) (cid q : Nat) (p : Pkt) : State :=
  s.modQueue cid q (fun u =>
    { (u.unstall (fun va => !u.active.any (fun x => x.touches va))) with cur := some p, ser := u.ser + 1 }.settle)

/-- A packet fails at its read: it stands read and bad until its signal is written (R315, R318). -/
def badPacket (s : State) (cid q : Nat) (p : Pkt) : State :=
  failPacket (packetRead s cid q { p with bad := true }) cid q { p with bad := true } stBadPacket

/-- A read of the processor for a packet that refuses it: the packet fails, with a record (R374). -/
def refusePacket (s : State) (cid q : Nat) (p : Pkt) (x : EngStop) : State :=
  match x with
  | .stall rec f => procStall s cid q rec f
  | .error c a i => badPacket (ctxLevel s cid c a i false) cid q p
  | .limited => s
  | .held => s

/-- A bad packet whose signal has waited. -/
def waitingBad (s : State) (cid q : Nat) : Option Pkt :=
  let u := s.queue cid q
  if s.ctxActive cid && u.en && u.st != .halted && s.procGoes cid then u.cur.filter (·.bad) else none

/-- PACKET_FETCH (R312, R318, R322, R329): reads packet `ridx` and what is copied with it; one that fails its checks fails
there, and one whose signal has waited fails when it is written. -/
def execPacketFetch (cid q : Nat) (s : State) : Host.Outcome State Fault Refusal :=
  if canFetch s cid q then
    let u := s.queue cid q
    match procRead s cid (BitVec.ofNat 64 (u.qbase.toNat + 64 * (u.ridx.toNat % 2 ^ u.lqlen.toNat))) 64 with
    | .ok (bs, s1) =>
      let p : Pkt := ⟨u.ridx, u.ser, recOf bs, none, [], false⟩
      if !packetOk p.body then .next (badPacket s1 cid q p)
      else match readCopies s1 cid p with
        | .ok (p', s2) => .next (packetRead s2 cid q p')
        | .error x => .next (refusePacket s1 cid q p x)
    | .error (.stall rec f) => .next (procStall s cid q rec f)
    | .error (.error c a i) => .next ((ctxLevel s cid c a i false).modQueue cid q (fun u => u.halt 4#8 u.ridx))
    | .error .limited => .next s
    | .error .held => .next s
  else match waitingBad s cid q with
    | some p => .next (failPacket s cid q p stBadPacket)
    | none => .next s

/-- The packet of a type that may start now: it has been read, its queue runs, and `bar` lets it. -/
def startable (s : State) (cid q ty : Nat) : Option Pkt :=
  let u := s.queue cid q
  match u.cur with
  | some p =>
    if s.ctxActive cid && u.en && u.st != .halted && s.procGoes cid && pkType p.body == ty && !p.bad && !u.active.any Pkt.isWait &&
        (!pkBar p.body || u.active == []) then some p else none
  | none => none

/-- What a packet's work knows at its start (R317). -/
def startClock (s : State) (cid q : Nat) (p : Pkt) : Clock := if pkAcq p.body then (s.queue cid q).vc else []

/-- A packet that completes at its start; while its signal waits it has not started. -/
def instantPacket (s : State) (cid q : Nat) (p : Pkt) (code : BitVec 16) : State :=
  match endPacket (startPacket s cid q p) cid q p.ser code (startClock s cid q p) with
  | (s', true) => s'
  | (_, false) => (writeSignal s cid q p code []).1

/-- LAUNCH (R322): the header is checked and the kernel enters the Gong; a full Gong makes it wait. -/
def execLaunchPkt (cid q : Nat) (s : State) : Host.Outcome State Fault Refusal :=
  match startable s cid q 1 with
  | none => .next s
  | some p =>
    let b := p.body
    match p.desc with
    | none => .next (failPacket s cid q p stBadKdesc)
    | some d =>
      let st := launchStatus s cid b d
      let die := s.pktDie cid
      if st ≠ stOk then .next (failPacket s cid q p st)
      else if !s.gongRoom die 1 then .next s
      else
        let u := s.queue cid q
        let (s2, kid) := (startPacket s cid q p).addKernel
          (mkKernel s cid die b d u.prio (pkRel b) (.packet cid q p.ser) (startClock s cid q p))
        .next (s2.gongPut die (.fresh (.kernel kid) cid u.prio.toNat))

/-- WAIT (R316): the packet starts watching its word. -/
def execWaitPkt (cid q : Nat) (s : State) : Host.Outcome State Fault Refusal :=
  match startable s cid q 2 with
  | none => .next s
  | some p => .next (startPacket s cid q p)

/-- The comparison of a WAIT. -/
def waitTrue (cc : Nat) (x v : W64) : Bool :=
  match cc with
  | 0 => x == v | 1 => x != v | 2 => decide (v.toNat ≤ x.toNat) | _ => decide (x.toNat < v.toNat)

/-- What the latest write of a byte is, and what its agent knew then. -/
def lastWrite (m : AMap (List Stamp)) (a : Nat) : Clock :=
  match ((mgetD m a []).filter (·.wr)).getLast? with
  | some o => mset o.vc o.aid o.clk
  | none => []

/-- R317: what happens before the write that satisfied a WAIT, and that write: what its agent knew, whatever its ordering, and
what it released to the scopes that hold the processor. -/
def watchedClock (s : State) (cid : Nat) (wad : Nat) : Clock :=
  match xlateBytes s (.die (s.pktDie cid)) cid 0#2 (vaRange (BitVec.ofNat 64 wad) 8) with
  | .error _ => []
  | .ok (pas, s1) => (headsAt s1.rels pas).foldl (fun c h =>
      if inScope h.scope h.place (outerPlace (s1.pktDie cid)) then clockJoin c h.vc else c)
      (pas.foldl (fun c a => clockJoin c (lastWrite s1.stamps a)) [])

/-- WAIT_SATISFIED (R316): the word compares true and the packet completes. -/
def execWaitSatisfied (cid q : Nat) (s : State) : Host.Outcome State Fault Refusal :=
  let u := s.queue cid q
  match u.active.find? Pkt.isWait with
  | none => .next s
  | some p =>
    if !(s.ctxActive cid && s.procGoes cid) then .next s
    else match procRead s cid (BitVec.ofNat 64 (dbits p.body 64 56)) 8 with
      | .error (.stall rec f) => .next (procStall s cid q rec f)
      | .error (.error c a i) => (match endPacket s cid q p.ser stBadPacket [] with
          | (s', true) => .next (ctxLevel s' cid c a i false)
          | (s', false) => .next s')
      | .error .limited => .next s
      | .error .held => .next s
      | .ok (bs, s1) =>
        if waitTrue (pkHx p.body) (BitVec.ofNat 64 (leNat bs)) (BitVec.ofNat 64 (dbits p.body 128 64)) then
          let s2 := s1.modQueue cid q (fun u =>
            { (u.unstall p.touches) with vc := clockJoin u.vc (watchedClock s1 cid (dbits p.body 64 56)) })
          .next (endPacket s2 cid q p.ser stOk (startClock s2 cid q p)).1
        else .next (s1.modQueue cid q (fun u => u.unstall p.touches))

/-- MARK (R316). -/
def execMarkPkt (cid q : Nat) (s : State) : Host.Outcome State Fault Refusal :=
  match startable s cid q 3 with
  | none => .next s
  | some p => .next (instantPacket s cid q p stOk)

/-- COPY (R316): a copy of no thread on the processor's die. -/
def execCopyPkt (cid q : Nat) (s : State) : Host.Outcome State Fault Refusal :=
  match startable s cid q 4 with
  | none => .next s
  | some p =>
    let b := p.body
    .next ((startPacket s cid q p).addOp
      { po := 0, gid := none, thread := none, cid := cid, wid := 0#64, ectx := 0, num := 0,
        kind := .packet cid q p.ser (dbits b 64 56) (dbits b 128 56) (dbits b 192 32), done := [], err := none,
        recd := none, stall := none, held := false, flags := 0#6, ended := false, hb := opHb (startClock s cid q p), place := outerPlace (s.pktDie cid) })

/-- COPY_PACKET_COMPLETE (R316): after the last byte the packet completes, with `copy-error` where the copy failed. -/
def execCopyPacketComplete (op : Nat) (s : State) : Host.Outcome State Fault Refusal :=
  match mget s.ops op with
  | none => .next s
  | some o => match o.kind with
    | .packet cid q ser _ _ len =>
      if (if o.err.isSome then !o.failed s else decide (o.count < len)) || !s.procGoes cid then .next s
      else match endPacket s cid q ser (if o.err.isSome then stCopyError else stOk) o.hb.now with
        | (s', true) => .next { s' with ops := mdel s'.ops op }
        | (s', false) => .next s'
    | _ => .next s

/-- DETMODE (R320). -/
def execDetmodePkt (cid q : Nat) (s : State) : Host.Outcome State Fault Refusal :=
  match startable s cid q 5 with
  | none => .next s
  | some p =>
    if pkHx p.body = s.level cid then .next (instantPacket s cid q p stOk)
    else .next (failPacket s cid q p stDetmodeLocked)

/-- GRAPH (R329): the nodes, copied when the packet was read, are checked and entered; the packet waits until the Gong has
room for all of them. -/
def execGraphPkt (cid q : Nat) (s : State) : Host.Outcome State Fault Refusal :=
  match startable s cid q 6 with
  | none => .next s
  | some p =>
    let n := p.nodes.length
    if !((upFrom 0 n).zip p.nodes).all (fun x => nodeOk x.1 x.2.1) || !ranksOk s cid p.nodes then
      .next (failPacket s cid q p stBadPacket)
    else
      let die := s.pktDie cid
      if !s.gongRoom die n then .next s
      else
        let u := s.queue cid q
        let gr := s.nextKid
        let g : Graph := { cid := cid, q := q, ser := p.ser, die := die, prio := u.prio,
                           nodes := p.nodes.map (fun r => (r.1, .waiting)), bodies := p.nodes.map (·.2),
                           birth := startClock s cid q p, vcs := [] }
        let s3 := { (startPacket s cid q p).setGraph gr g with nextKid := gr + 1 }
        .next ((upFrom 0 n).foldl (fun s j => s.gongPut die (.fresh (.node gr j) cid u.prio.toNat)) s3)

end Sys2Proof.Machine
end

