-- ==== Sys2Proof/Machine/Contexts.lean ====
section
/-! DEFINITION. The commands of a partition's control page (R297-R299) and the life of a context (R300-R310): CREATE,
DESTROY, QUIESCE, RESUME, RESUMET, SETBUDGET. A command that ends with a status other than `ok` changes nothing else. -/
namespace Sys2Proof.Machine

/-! ## Commands (R297-R299) -/

/-- The number of a partition's context. -/
def ctxId (vf : Nat) (n : BitVec 4) : Nat := 16 * vf + n.toNat

/-- The status codes of R299. -/
def csOk : BitVec 8 := 0#8
def csBadCmd : BitVec 8 := 1#8
def csBadState : BitVec 8 := 2#8
def csBadRecord : BitVec 8 := 3#8
def csNoRoom : BitVec 8 := 4#8
def csDetMismatch : BitVec 8 := 5#8
def csShapeMismatch : BitVec 8 := 6#8
def csImageInvalid : BitVec 8 := 7#8
def csNoStop : BitVec 8 := 8#8
def csKeyFailed : BitVec 8 := 9#8

/-- The command completes: it is no longer busy, and CTXSTAT has its status. -/
def endCmd (s : State) (vf : Nat) (st : BitVec 8) (ilen : W32) : State :=
  s.setPart vf { s.part vf with cmd := none, st := st, ilen := ilen }

/-- Runs the pending command if it is the one named: in a state that it does not allow it ends with `bad-state`. The body
answers the machine and the status, or none while the command cannot complete. -/
def runCmd (code : BitVec 8) (allowed : CtxState → Bool)
    (body : State → Nat → BitVec 56 → Option (State × BitVec 8 × W32)) (vf : Nat) (s : State) :
    Host.Outcome State Fault Refusal :=
  match (s.part vf).cmd with
  | none => .next s
  | some c =>
    if c.cmd ≠ code ∨ c.res = true then .next s
    else
      let cid := ctxId vf c.ctx
      if !allowed (s.ctx cid).st then .next (endCmd s vf csBadState 0#32)
      else match body s cid c.arg with
        | none => .next s
        | some (s', st, ilen) => .next (endCmd s' vf st ilen)

/-- CTXCMD_INVALID (R298): an undefined code, or a reserved bit set in CTXCMD or CTXARG. -/
def execCtxcmdInvalid (vf : Nat) (s : State) : Host.Outcome State Fault Refusal :=
  match (s.part vf).cmd with
  | none => .next s
  | some c => if c.res ∨ c.cmd = 0#8 ∨ 9 < c.cmd.toNat then .next (endCmd s vf csBadCmd 0#32) else .next s

/-! ## Intermediate memory, as commands reach it -/

/-- Whether a unit, reached through an intermediate address, fails its check for every live context of a partition: an
uncorrectable error, a key that no context holds any more (R427), another tweak (R379). -/
def unitLost (s : State) (vf pa ipa : Nat) : Bool :=
  s.badUnits.contains (pa / 64) ||
    (match mget s.unitKey (pa / 64) with
     | some (k, t) => t != ipa / 64 || !s.ctxs.any (fun e => vfOf e.1 == vf && e.2.st != .free && e.2.keyId == k)
     | none => false)

/-- Bytes at intermediate addresses; none where stage 2 refuses one or a unit fails its check. -/
def ipaRead (s : State) (vf ipa n : Nat) : Option (List Byte) :=
  (upFrom ipa n).mapM (fun a => match stage2 s vf a 0#2 with
    | some (pa, _) => if unitLost s vf pa a then none else some (s.mem.get pa)
    | none => none)

/-- The physical and intermediate addresses of `n` bytes that may be written; none where stage 2 refuses one. -/
def ipaPlaces (s : State) (vf ipa n : Nat) : Option (List (Nat × Nat)) :=
  (upFrom ipa n).mapM (fun a => (stage2 s vf a 1#2).map (fun x => (x.1, a)))

/-- What the K7 writes into a partition's memory for the hypervisor: units written whole lose their seal, the others keep theirs
(log 12); none where a unit written in part fails its check (R428). `places`: the physical and the intermediate address of each
byte. -/
def pokeOpen (s : State) (vf : Nat) (places : List (Nat × Nat)) (bs : List Byte) : Option State :=
  let pas := places.map (·.1)
  let whole (u : Nat) : Bool := (upFrom (64 * u) 64).all pas.contains
  if places.any (fun x => unitLost s vf x.1 x.2 && !whole (x.1 / 64)) then none
  else some { pokeRuns s noKey pas bs with unitKey := s.unitKey.filter (fun e => !whole e.1) }

/-- Whether enabled ranges cover the granules from `gran` to `last`; `fuel` bounds the ranges taken. -/
def rangesCover (p : Partition) : Nat → Nat → Nat → Bool
  | 0, gran, last => decide (last < gran)
  | fuel + 1, gran, last =>
    if last < gran then true
    else match findRange p gran with
      | some e => rangesCover p fuel (e.lim.toNat + 1) last
      | none => false

/-- R302: whether the partition's range table covers `n` bytes from an intermediate address. -/
def covered (s : State) (vf ipa n : Nat) : Bool :=
  n == 0 || rangesCover (s.part vf) ((s.part vf).ranges.length + 1) (ipa / 65536) ((ipa + n - 1) / 65536)

/-! ## CREATE (R301-R303, R425) -/

/-- The fields of the context record (R301). -/
def crKpub (r : BitVec 512) : Nat := dbits r 384 56
def crKreq (r : BitVec 512) : Bool := r.getLsbD 372
def crFsa (r : BitVec 512) : Nat := dbits r 352 18
def crMslen (r : BitVec 512) : Nat := dbits r 320 32
def crMsbase (r : BitVec 512) : Nat := dbits r 256 56
def crHbud (r : BitVec 512) : Nat := dbits r 224 32
def crMsize (r : BitVec 512) : Nat := dbits r 192 32
def crShbase (r : BitVec 512) : Nat := dbits r 128 56
def crLfq (r : BitVec 512) : Nat := dbits r 120 4
def crFqbase (r : BitVec 512) : Nat := dbits r 64 56
def crPtroot (r : BitVec 512) : Nat := dbits r 0 56

/-- R301: the rules of the record that its own bits decide, given the level. `lfq` has four bits, and 16 does not fit
them. -/
def crOk (r : BitVec 512) (lvl : Nat) : Bool :=
  dbits r 440 72 == 0 && dbits r 373 11 == 0 && dbits r 312 8 == 0 && dbits r 184 8 == 0 && dbits r 124 4 == 0 &&
    dbits r 56 8 == 0 && decide (crFsa r ≤ 131072) && decide (crMsbase r % 65536 = 0) && decide (1 ≤ crMsize r) &&
    decide (crShbase r % 65536 = 0) && decide (4 ≤ crLfq r) && decide (crFqbase r % 64 = 0) &&
    decide (crPtroot r % 2 ^ 20 = 0) && (crKreq r == decide (crKpub r ≠ 0)) && decide (lvl ≤ 2) &&
    (lvl == 0 || crShbase r == 0) && (lvl != 0 || crMslen r == 0)

/-- The regions that the record reserves (R302), as (base, length). -/
def crRegions (r : BitVec 512) (lvl : Nat) : List (Nat × Nat) :=
  if lvl = 0 then [(crShbase r, crMsize r * 1024)] else [(crMsbase r, crMslen r * 65536)]

/-- Whether two regions share a byte. -/
def overlaps (a b : Nat × Nat) : Bool :=
  a.2 != 0 && b.2 != 0 && decide (a.1 < b.1 + b.2) && decide (b.1 < a.1 + a.2)

/-- R302: whether the addresses of the record are covered and its reserved regions are free. -/
def crPlaced (s : State) (vf : Nat) (r : BitVec 512) : Bool :=
  let regions := crRegions r (s.part vf).level.toNat
  let ring := (crFqbase r, 64 * 2 ^ crLfq r)
  covered s vf (crPtroot r) (2 ^ 20) && covered s vf ring.1 ring.2 && regions.all (fun g => covered s vf g.1 g.2) &&
    (!crKreq r || covered s vf (crKpub r) 266) &&
    regions.all (fun g => !overlaps g ring && !(reservedRegions s vf).any (overlaps g))

/-- The quadrants of a partition on a die. -/
def quadsOn (m : BitVec 16) (die : Nat) : Nat := (upFrom (4 * die) 4).countP m.getLsbD

/-- The records promised to the contexts of a partition, on each die (R302). -/
def fsaSum (s : State) (vf : Nat) : Nat :=
  s.ctxs.foldl (fun n e => if vfOf e.1 = vf ∧ e.2.st ≠ .free then n + e.2.fsa.toNat else n) 0

/-- R302: whether the sum of the allotments, with a new one, keeps to the partition's share of every die it is on. -/
def fsaFits (s : State) (vf more : Nat) : Bool :=
  let m := (s.part vf).qmask
  (upFrom 0 4).all (fun d => quadsOn m d == 0 || decide (fsaSum s vf + more ≤ 32768 * quadsOn m d))

/-- The info strings of R425. -/
def strBytes (t : String) : List Byte := t.toList.map (fun c => BitVec.ofNat 8 c.toNat)

/-- The fresh ephemeral private key of the `n`th agreement (R303). -/
def ephKey (n : Nat) : Nat := ecKey (Config.random (3 * n))

/-- Its public point (R422: 133 bytes). -/
def ephPoint (n : Nat) : List Byte := ecBytes (ecMul (ephKey n) ecG)

/-- R425: the 66 bytes Z, the X coordinate that the tenant's point gives, or a draw of the random source on the chip. -/
def sharedZ (n : Nat) : Option (List Byte) → List Byte
  | some point => ecdh (ephKey n) (ecPoint point)
  | none => beBytes 66 (Config.random (3 * n + 1))

/-- The keys of a context (R425). -/
def withKeys (c : Context) (n : Nat) (point : Option (List Byte)) : Context :=
  let key (info : String) (len : Nat) : List Byte := hkdf (sharedZ n point) (ephPoint n) (strBytes info) len
  { c with keyId := n, kmem := key "kf7-mem" 64, ktag := key "kf7-tag" 32, klink := key "kf7-link" 32, kwrap := key "kf7-wrap" 32 }

/-- The context that an accepted record makes, its keys apart (R302). -/
def newContext (r : BitVec 512) : Context :=
  { Context.free with
    st := .active
    ptroot := BitVec.ofNat 56 (crPtroot r), fqbase := BitVec.ofNat 56 (crFqbase r), lfq := BitVec.ofNat 4 (crLfq r)
    msize := BitVec.ofNat 32 (crMsize r), shbase := BitVec.ofNat 56 (crShbase r)
    msbase := BitVec.ofNat 56 (crMsbase r), mslen := BitVec.ofNat 32 (crMslen r), fsa := BitVec.ofNat 18 (crFsa r)
    bank := r.extractLsb' 370 2, kreq := crKreq r, kpub := BitVec.ofNat 56 (crKpub r)
    hbudget := if crHbud r = 0 then 65536#32 else if crHbud r = 2 ^ 32 - 1 then 0#32 else BitVec.ofNat 32 (crHbud r) }

/-- R302, R16: the context comes into being, its queue set bound to a packet processor of the partition's lowest die (which of
the sixteen is firmware's choice, log 18), and the partition's level is locked. Translations cached before may lead into
its reserved region: they go. -/
def installCtx (s : State) (vf cid : Nat) (c : Context) : State :=
  let c := { c with qdie := firstDie (s.part vf).qmask, qproc := (Config.freeBits 2100 s.nextAid).toNat % 16 }
  let s := tlbDrop { s with nextAid := s.nextAid + 1 } (fun cid _ _ => vfOf cid == vf)
  let s := s.setCtx cid c
  s.setPart vf { s.part vf with lock := true }

/-- R303: the key agreement; the device's point goes to the bytes that follow the tenant's. -/
def agreeKeys (s : State) (vf : Nat) (r : BitVec 512) (c : Context) : Except (BitVec 8) (Context × State) :=
  if !crKreq r then .ok (withKeys c s.nextAid none, s)
  else match ipaRead s vf (crKpub r) 133, ipaPlaces s vf (crKpub r + 133) 133 with
    | some pt, some places =>
      if (ecPoint pt).isNone then .error csKeyFailed
      else match pokeOpen s vf places (ephPoint s.nextAid) with
        | some s' => .ok (withKeys c s.nextAid (some pt), s')
        | none => .error csBadRecord
    | _, _ => .error csBadRecord

/-- The body of CREATE. -/
def createCtx (s : State) (cid : Nat) (arg : BitVec 56) : State × BitVec 8 :=
  let vf := vfOf cid
  match (if arg.toNat % 64 = 0 then ipaRead s vf arg.toNat 64 else none) with
  | none => (s, csBadRecord)
  | some bs =>
    let r := recOf bs
    if !crOk r (s.part vf).level.toNat || !crPlaced s vf r then (s, csBadRecord)
    else if !fsaFits s vf (crFsa r) then (s, csNoRoom)
    else match agreeKeys s vf r (newContext r) with
      | .error st => (s, st)
      | .ok (c, s') => (installCtx s' vf cid c, csOk)

/-- CREATE (R302). -/
def execCreate (vf : Nat) (s : State) : Host.Outcome State Fault Refusal :=
  runCmd 1#8 (· == .free) (fun s cid arg => let r := createCtx s cid arg; some (r.1, r.2, 0#32)) vf s

/-! ## DESTROY, TEARDOWN_COMPLETE (R310) -/

/-- The accepted matrix steps of a context that hold a token of a die (R22); the steps of a tile task take and return theirs
within its run. -/
def tokensOf (s : State) (cid die : Nat) : Nat :=
  s.mxops.countP (fun e => e.2.stage == .accepted && (match s.group e.2.gid with
    | some g => g.cid == cid && g.coreN / 64 == die
    | none => false))

/-- A core without the groups and matrix operations named. -/
def Core.without (c : Core) (gids mxs : List Nat) : Core :=
  { c with
    slots := c.slots.filter (fun e => !gids.contains e.2)
    port := match c.port with | some ig => if gids.contains ig.gid then none else some ig | none => none
    yielded := c.yielded.filter (fun ig => !gids.contains ig.gid)
    mxq := c.mxq.filter (fun n => !mxs.contains n) }

/-- A die without the entries of a context. -/
def Die.without (d : Die) (cid : Nat) (kids : List Nat) (tokens : Nat) : Die :=
  { d with
    gong := d.gong.filter (fun e => e.cid != cid)
    keyVcs := d.keyVcs.filter (fun e => e.1 != cid)
    starts := d.starts.filter (fun e => !kids.contains e.1)
    inuse := d.inuse - tokens }

/-- Everything that a context runs is dropped: threads, harts, kernels, graphs, engine and matrix operations,
contributions to collectives. -/
def dropWork (s : State) (cid : Nat) : State :=
  let gids := (s.groups.filter (fun e => e.2.cid == cid)).map (·.1)
  let kids := (s.kernels.filter (fun e => e.2.cid == cid)).map (·.1)
  let mxs := (s.mxops.filter (fun e => gids.contains e.2.gid)).map (·.1)
  let p := s.part (vfOf cid)
  { s with
    cores := mmap (fun _ c => c.without gids mxs) s.cores
    dies := mmap (fun n d => d.without cid kids (tokensOf s cid n)) s.dies
    resv := s.resv.filter (fun r => !gids.contains r.1)
    groups := s.groups.filter (fun e => e.2.cid != cid)
    kernels := s.kernels.filter (fun e => e.2.cid != cid)
    graphs := s.graphs.filter (fun e => e.2.cid != cid)
    ops := s.ops.filter (fun e => e.2.cid != cid)
    mxops := s.mxops.filter (fun e => !gids.contains e.2.gid)
    calls := s.calls.filter (fun c => !(c.vf == vfOf cid &&
      (mgetD p.comms c.entry CommEntry.zero).ctx == BitVec.ofNat 4 cid)) }

/-- DESTROY (R310): every thread, hart and packet stops and engine operations are cancelled; no signal is written from
now on. -/
def execDestroy (vf : Nat) (s : State) : Host.Outcome State Fault Refusal :=
  runCmd 2#8 (· != .free) (fun s cid _ =>
    let s := dropWork s cid
    some (s.setCtx cid { s.ctx cid with st := .destroying, queues := [] }, csOk, 0#32)) vf s

/-- TEARDOWN_COMPLETE (R310): the keys, the fault queue, the regions, the allotments and the bank binding end; the context
is free. Its race stamps go with its shadow. -/
def execTeardownComplete (cid : Nat) (s : State) : Host.Outcome State Fault Refusal :=
  if (s.ctx cid).st ≠ .destroying then .next s
  else
    let key := (s.ctx cid).keyId
    let mine (a : Nat) : Bool := (mget s.unitKey (a / 64)).any (fun x => x.1 == key)
    let s := tlbDrop s (fun c _ _ => c == cid)
    let s := { s with
      stamps := s.stamps.filter (fun e => !mine e.1)
      rels := s.rels.filter (fun e => !mine e.1) }
    .next (s.setCtx cid Context.free)

/-! ## QUIESCE, QUIESCE_COMPLETE, RESUME (R300, R306) -/

/-- Whether a group is on a core. -/
def Group.onCore (g : Group) : Bool := g.core.isSome

/-- QUIESCE (R306): packet processing stops, and every group on a core is asked to leave it. -/
def execQuiesce (vf : Nat) (s : State) : Host.Outcome State Fault Refusal :=
  runCmd 3#8 (· == .active) (fun s cid _ =>
    let s := s.setCtx cid { s.ctx cid with st := .quiescing }
    let s := { s with groups := mmap (fun _ g =>
      if g.cid = cid ∧ g.onCore then { g with preempt := true } else g) s.groups }
    some (s, csOk, 0#32)) vf s

/-- Whether an operation waits for a merge entry, or is a tile task that such ones keep from being dispatched: it is saved with the
context (R416, R419). -/
def EngOp.savable (s : State) (n : Nat) (o : EngOp) : Bool :=
  o.held ||
    (match o.kind with
     | .task _ _ _ _ none =>
       s.ops.any (fun e => e.2.cid == o.cid && e.2.held) && (keyBlocked s o.place.die o.cid (.task n) ||
         (partCores (s.part (vfOf o.cid)) o.place.die).all (taskOn s))
     | _ => false)

/-- QUIESCE_COMPLETE (R300): the last group has left its core and the last engine operation is complete; an engine access that
waits for a merge entry is saved with its operation (R416, R419). -/
def execQuiesceComplete (cid : Nat) (s : State) : Host.Outcome State Fault Refusal :=
  if (s.ctx cid).st == .quiescing && !s.groups.any (fun e => e.2.cid == cid && e.2.onCore) &&
      !s.ops.any (fun e => e.2.cid == cid && !e.2.savable s e.1) then
    .next (s.setCtx cid { s.ctx cid with st := .quiesced })
  else .next s

/-- RESUME (R298): the context is active; launches and evictions go on. -/
def execResume (vf : Nat) (s : State) : Host.Outcome State Fault Refusal :=
  runCmd 4#8 (· == .quiesced) (fun s cid _ => some (s.setCtx cid { s.ctx cid with st := .active }, csOk, 0#32)) vf s

/-! ## RESUMET, SETBUDGET (R242, R298, R304) -/

/-- Whether a thread waits for the resumption of stop record `seq`. -/
def Thread.stoppedAs (th : Thread) (seq : Nat) : Bool := match th.wait with | .stop _ n => n == seq | _ => false

/-- R242: a stopped thread goes on at its stopping point with its count at zero. -/
def resumeStopped (s : State) (cid gid t : Nat) (g : Group) (seq : Nat) : State :=
  let s := s.modThread gid t (fun th => { th.again (readyNow s g) with hcount := 0#32 })
  s.setCtx cid { s.ctx cid with stops := (s.ctx cid).stops.filter (fun x => x.1 != seq) }

/-- RESUMET (R298): the thread stopped by the record goes on. While the record itself waits for room the thread stays
stopped (R304), and the command with it. -/
def execResumet (vf : Nat) (s : State) : Host.Outcome State Fault Refusal :=
  runCmd 8#8 (fun st => st == .active || st == .quiescing || st == .quiesced) (fun s cid arg =>
    let seq := arg.toNat
    match (s.ctx cid).stops.find? (fun x => x.1 == seq) with
    | none => some (s, csNoStop, 0#32)
    | some (_, gid, t) =>
      match s.group gid, s.thread gid t with
      | some g, some th =>
        if !th.stoppedAs seq then some (s, csNoStop, 0#32)
        else if (s.ctx cid).fqWait.any (fun r => r.seq == seq) then none
        else some (resumeStopped s cid gid t g seq, csOk, 0#32)
      | _, _ => some (s, csNoStop, 0#32)) vf s

/-- SETBUDGET (R298): `sys.hbudget` := the low 32 bits of the argument. -/
def execSetbudget (vf : Nat) (s : State) : Host.Outcome State Fault Refusal :=
  runCmd 9#8 (fun st => st == .active || st == .quiesced) (fun s cid arg =>
    some (s.setCtx cid { s.ctx cid with hbudget := arg.setWidth 32 }, csOk, 0#32)) vf s

end Sys2Proof.Machine
end

