-- ==== Sys2Proof/Machine/Control.lean ====
section
/-! DEFINITION. The meanings of the control instructions (R109-R117): transfers, convergence, exit, yield. -/
namespace Sys2Proof.Machine

/-- The target of a displacement (R110). -/
def dispTarget (e : Env) (a : W64) : W64 := (e.cur.head + (sext64 (lo32 a) <<< 3)) &&& 0x00FFFFFFFFFFFFFF#64

/-- The address of the next clause (R110). -/
def nextClause (e : Env) : W64 := pcOf e.cur.head e.cur.cnt (e.cur.cnt + 1)

/-- A 64-bit target of BRX or CALLX: a clause header. -/
def headTarget (a : W64) : Except Exc W64 :=
  if a.extractLsb' 56 8 = 0#8 ∧ a.extractLsb' 0 3 = 0#3 then .ok a else .error (.trap .illegalOperand 0#64 0#32)

/-- A return program counter (R58). -/
def retTarget (a : W64) : Except Exc W64 :=
  if a.extractLsb' 60 4 = 0#4 ∧ a.extractLsb' 0 3 = 0#3 then .ok a else .error (.trap .illegalOperand 0#64 0#32)

/-- A control transfer (R110): its target, and the return address where it writes one; a thread whose guard is false goes
to the next clause. -/
def runTransfer (i : Instr) (f : Fields) (target : Env → Thread → Srcs → Except Exc (W64 × Option W64)) (s : State) :
    Host.Outcome State Fault Refusal :=
  runInstr i f (fun e en => do
    let th ← getTh e
    if guardOf f th then
      let x ← onThread e (readSrcs e en f)
      modTh e (fun th => th.release (marked en f))
      onThread e (reserveD f.d (dstLen en.d))
      let (pc, ret) ← liftE (target e th x)
      match ret with
      | some r => onThread e (putRes en f (.val r))
      | none => pure ()
      modTh e (fun th => th.jump pc)
    else
      onThread e (guardedOff e en f true)
      modTh e (fun th => th.advance e.cur)) s

/-- NOP (R117). -/
def execNop (f : Fields) (s : State) : Host.Outcome State Fault Refusal :=
  runAlu (.nop f) f (fun _ _ _ => .ok (.none, 0#6)) s

/-- BRA (R110). -/
def execBra (f : Fields) (s : State) : Host.Outcome State Fault Refusal :=
  runTransfer (.bra f) f (fun e _ x => .ok (dispTarget e x.a, none)) s

/-- BRP (R110). -/
def execBrp (f : Fields) (s : State) : Host.Outcome State Fault Refusal :=
  runTransfer (.brp f) f (fun e th x => .ok (dispTarget e (if th.predAt (predIx f.c) then x.a else x.b), none)) s

/-- BRX (R110). -/
def execBrx (f : Fields) (s : State) : Host.Outcome State Fault Refusal :=
  runTransfer (.brx f) f (fun _ _ x => (headTarget x.a).map (fun t => (t, none))) s

/-- CALL (R110). -/
def execCall (f : Fields) (s : State) : Host.Outcome State Fault Refusal :=
  runTransfer (.call f) f (fun e _ x => .ok (dispTarget e x.a, some (nextClause e))) s

/-- CALLX (R110). -/
def execCallx (f : Fields) (s : State) : Host.Outcome State Fault Refusal :=
  runTransfer (.callx f) f (fun e _ x => (headTarget x.a).map (fun t => (t, some (nextClause e)))) s

/-- RET (R110). -/
def execRet (f : Fields) (s : State) : Host.Outcome State Fault Refusal :=
  runTransfer (.ret f) f (fun _ _ x => (retTarget x.a).map (fun t => (t, none))) s

/-- YIELD (R117): the next clause; the thread leaves its issue group and is ready from the current cycle. -/
def execYield (f : Fields) (s : State) : Host.Outcome State Fault Refusal :=
  runTransfer (.yield f) f (fun e _ _ => .ok (nextClause e, none)) s

/-- The jid of CONV and JOIN. -/
def jidOf (f : Fields) : BitVec 8 := (opBits f.a).setWidth 8

/-- CONV (R112). -/
def execConvJ (f : Fields) (s : State) : Host.Outcome State Fault Refusal :=
  runInstr (.convJ f) f (fun e _ => do
    modTh e (fun th => if th.parked.isSome then { th with parked := none, regions := [] } else th)
    let g ← getG e
    let th ← getTh e
    let top := match th.regions with
      | n :: _ => (mget g.regions n).bind (fun r =>
          if r.jid == jidOf f && !r.entered.contains e.cur.t then some n else none)
      | [] => none
    match top with
    | some n =>
      modG e (fun g => { g with regions := mmodify g.regions n (fun r => { r with entered := r.entered ++ [e.cur.t] }) })
    | none =>
      let cls := g.classOf th
      if cls.any (fun t => match mget g.threads t with | some u => decide (16 ≤ u.regions.length) | none => false) then
        illegalOperand
      else
        let n := (← get).nextInst
        modify State.bumpInst
        modG e (fun g =>
          let g := cls.foldl (fun g t => g.modThread t (fun u => { u with regions := n :: u.regions })) g
          { g with regions := mset g.regions n ⟨jidOf f, th.sg, cls, [e.cur.t], []⟩ })
    endSlot e 0#6) s

/-- JOIN (R113): arrives at the innermost instance; without one it completes at once. -/
def execJoinJ (f : Fields) (s : State) : Host.Outcome State Fault Refusal :=
  runInstr (.joinJ f) f (fun e _ => do
    match e.g.innermost e.th (jidOf f) with
    | none => endBlock e
    | some inst =>
      modG e (fun g => g.arriveJoin e.cur.t inst false)
      modTh e (fun th => { th with resume := e.cur.next, resumeRep := e.cur.nextRep, owedRel := [], owedPop := 0 })) s

/-- EXIT (R116): outstanding results are written, the registers and the quota return (but for registers that matrix steps
still name, R199), every instance is left. -/
def execExit (f : Fields) (s : State) : Host.Outcome State Fault Refusal :=
  runInstr (.exit f) f (fun e en => do
    let th ← getTh e
    if guardOf f th then
      modG e (fun g => (g.leave e.cur.t).modThread e.cur.t (fun th =>
        th.exited (stepsLeft e.s e.cur.gid e.cur.t)))
    else
      onThread e (guardedOff e en f true)
      modTh e (fun th => th.advance e.cur)) s

end Sys2Proof.Machine
end

