-- ==== Sys2Proof/Machine/Convert.lean ====
section
/-! DEFINITION. The meanings of conversion and random numbers (R128 to R132, R39): each is a thread-local instruction of the shared shape `runAlu`. -/
namespace Sys2Proof.Machine

/-- The range of an integer type code (R128). -/
def intRange (t : Nat) : Int × Int :=
  match t with
  | 7 => (-128, 127) | 8 => (0, 255) | 9 => (-32768, 32767) | 10 => (0, 65535)
  | 11 => (-2 ^ 31, 2 ^ 31 - 1) | 12 => (0, 2 ^ 32 - 1) | 13 => (-2 ^ 63, 2 ^ 63 - 1) | _ => (0, 2 ^ 64 - 1)
/-- The width in bits of an integer type code. -/
def intWidth (t : Nat) : Nat :=
  match t with
  | 7 => 8 | 8 => 8 | 9 => 16 | 10 => 16 | 11 => 32 | 12 => 32 | _ => 64
/-- Whether an integer type code is signed. -/
def intSigned (t : Nat) : Bool := t % 2 == 1
/-- The integer in the low bits of a source (R128). -/
def intOf (t : Nat) (a : W64) : Int :=
  let n := natBits a.toNat 0 (intWidth t)
  if intSigned t && n.testBit (intWidth t - 1) then (n : Int) - 2 ^ intWidth t else n
/-- The low bits of an integer as a destination of the type holds them: sign-extended for signed types. -/
def putInt (t : Nat) (v : Int) : W64 :=
  let n := (v % 2 ^ intWidth t).toNat
  if intSigned t && n.testBit (intWidth t - 1) then BitVec.ofInt 64 ((n : Int) - 2 ^ intWidth t) else BitVec.ofNat 64 n
/-- The value of a source of any type (R129): E4M3, E5M2 and E2M1 are single elements with no block scale. -/
def valueOf (t : Nat) (a : W64) : FV :=
  if t < 7 then decodeF (tyFmt t) (natBits a.toNat 0 ((tyFmt t).signBit + 1)) else FV.ofInt (intOf t a)
/-- CVT (R129, R36, R37). -/
def convert (dst src : Nat) (sat : Bool) (mode : RM) (a : W64) : W64 × FFlags :=
  if dst < 7 then let r := roundV (tyFmt dst) mode sat (valueOf src a); (BitVec.ofNat 64 r.bits, r.flags)
  else if src < 7 then
    let r := toIntSat mode (intRange dst).1 (intRange dst).2 (valueOf src a); (putInt dst r.1, r.2)
  else
    let v := intOf src a
    (putInt dst (if sat then max (intRange dst).1 (min (intRange dst).2 v) else v), 0#6)
/-- A conversion's result. -/
def okC (r : W64 × FFlags) : Except Exc (Res × FFlags) := .ok (.val r.1, r.2)

/-- UNPK2 (R131). -/
def unpackHalf (m : BitVec 4) (a : W32) : W32 :=
  let h : BitVec 16 := if m.getLsbD 0 then a.extractLsb' 16 16 else a.extractLsb' 0 16
  if m.getLsbD 1 then h.signExtend 32 else h.setWidth 32
/-- PACKQ (R131). -/
def packPart (m : BitVec 4) (a b c : W32) : W32 :=
  let w := if m = 0#4 then 8 else 4
  let pos := if m = 0#4 then 8 * (b.toNat % 4) else 4 * (b.toNat % 8)
  let mask : W32 := BitVec.ofNat 32 ((2 ^ w - 1) <<< pos)
  (c &&& ~~~mask) ||| ((a <<< pos) &&& mask)
/-- R39. -/
def rndc (k : W64) (st ct : W32) : W64 :=
  let z := (pair64 ct st) ^^^ k
  let z := (z ^^^ (z >>> 30)) * 0xBF58476D1CE4E5B9#64
  let z := (z ^^^ (z >>> 27)) * 0x94D049BB133111EB#64
  z ^^^ (z >>> 31)

/-- CVT (R129). -/
def execCvt (f : Fields) (s : State) : Host.Outcome State Fault Refusal :=
  runAlu (.cvt f) f (fun _ _ x => okC (convert (cvtDst f) (cvtSrc f) (cvtSat f) (RM.ofMod f.mod) x.a)) s

/-- CVTS (R130). -/
def execCvts (f : Fields) (s : State) : Host.Outcome State Fault Refusal :=
  runAlu (.cvts f) f (fun _ _ x => okF (roundRs (tyFmt (cvtDst f)) (cvtSat f) (x.b32.setWidth 16) (valueOf (cvtSrc f) x.a))) s

/-- FRND_F32 (R131). -/
def execFrndF32 (f : Fields) (s : State) : Host.Outcome State Fault Refusal :=
  runAlu (.frndF32 f) f (fun _ _ x => okF (fRnd .f32 (RM.ofMod f.mod) x.a.toNat)) s

/-- FRND_F64 (R131). -/
def execFrndF64 (f : Fields) (s : State) : Host.Outcome State Fault Refusal :=
  runAlu (.frndF64 f) f (fun _ _ x => okF (fRnd .f64 (RM.ofMod f.mod) x.a.toNat)) s

/-- SCALEB_F32 (R131). -/
def execScalebF32 (f : Fields) (s : State) : Host.Outcome State Fault Refusal :=
  runAlu (.scalebF32 f) f (fun _ _ x => okF (fScaleb (RM.ofMod f.mod) x.a.toNat x.b32.toInt)) s

/-- FREXP_F32 (R131). -/
def execFrexpF32 (f : Fields) (s : State) : Host.Outcome State Fault Refusal :=
  runAlu (.frexpF32 f) f (fun _ _ x => let r := fFrexp x.a.toNat; .ok (.val (BitVec.ofNat 64 r.1), r.2.2)) s

/-- FREXP_EXP_F32 (R131). -/
def execFrexpExpF32 (f : Fields) (s : State) : Host.Outcome State Fault Refusal :=
  runAlu (.frexpExpF32 f) f (fun _ _ x => let r := fFrexp x.a.toNat; .ok (.val (zext64 (BitVec.ofInt 32 r.2.1)), r.2.2)) s

/-- PACK2 (R131). -/
def execPack2 (f : Fields) (s : State) : Host.Outcome State Fault Refusal :=
  runAlu (.pack2 f) f (fun _ _ x => ok32 ((x.b32 <<< 16) ||| (x.a32 &&& 0xFFFF#32))) s

/-- UNPK2 (R131). -/
def execUnpk2 (f : Fields) (s : State) : Host.Outcome State Fault Refusal :=
  runAlu (.unpk2 f) f (fun _ _ x => ok32 (unpackHalf f.mod x.a32)) s

/-- PACKQ (R131). -/
def execPackq (f : Fields) (s : State) : Host.Outcome State Fault Refusal :=
  runAlu (.packq f) f (fun _ _ x => ok32 (packPart f.mod x.a32 x.b32 x.c32)) s

/-- RNDC (R132). -/
def execRndc (f : Fields) (s : State) : Host.Outcome State Fault Refusal :=
  runAlu (.rndc f) f (fun _ _ x => ok32 (lo32 (rndc x.a x.b32 x.c32))) s

/-- RNDC_W (R132). -/
def execRndcW (f : Fields) (s : State) : Host.Outcome State Fault Refusal :=
  runAlu (.rndcW f) f (fun _ _ x => ok (rndc x.a x.b32 x.c32)) s

end Sys2Proof.Machine
end

