-- ==== Sys2Proof/Machine/CrossLane.lean ====
section
/-! DEFINITION. The meanings of the cross-lane instructions (R115, R134-R137): each is an arrival at a collective instance;
`laneRes` gives what its completion delivers. -/
namespace Sys2Proof.Machine

/-- ELECT (R115). -/
def execElect (f : Fields) (s : State) : Host.Outcome State Fault Refusal := arriveColl (.elect f) f s

/-- PERM (R135). -/
def execPerm (f : Fields) (s : State) : Host.Outcome State Fault Refusal := arriveColl (.perm f) f s

/-- PERMX (R135). -/
def execPermx (f : Fields) (s : State) : Host.Outcome State Fault Refusal := arriveColl (.permx f) f s

/-- PERMU (R135). -/
def execPermu (f : Fields) (s : State) : Host.Outcome State Fault Refusal := arriveColl (.permu f) f s

/-- PERMD (R135). -/
def execPermd (f : Fields) (s : State) : Host.Outcome State Fault Refusal := arriveColl (.permd f) f s

/-- BCAST (R135). -/
def execBcast (f : Fields) (s : State) : Host.Outcome State Fault Refusal := arriveColl (.bcast f) f s

/-- VOTE (R136). -/
def execVote (f : Fields) (s : State) : Host.Outcome State Fault Refusal := arriveColl (.vote f) f s

/-- BALLOT (R136). -/
def execBallot (f : Fields) (s : State) : Host.Outcome State Fault Refusal := arriveColl (.ballot f) f s

/-- MATCH (R136). -/
def execMatchL (f : Fields) (s : State) : Host.Outcome State Fault Refusal := arriveColl (.matchL f) f s

/-- SGRED (R137). -/
def execSgred (f : Fields) (s : State) : Host.Outcome State Fault Refusal := arriveColl (.sgred f) f s

/-- SGSCAN (R137). -/
def execSgscan (f : Fields) (s : State) : Host.Outcome State Fault Refusal := arriveColl (.sgscan f) f s

end Sys2Proof.Machine
end

