-- ==== Sys2Proof/Machine/Float.lean ====
section
/-! DEFINITION. The meanings of FP32 and FP64 (R121 to R126): each is a thread-local instruction of the shared shape `runAlu`. -/
namespace Sys2Proof.Machine

/-- The sign bits that `mod` names (R126). -/
def signMask (m : BitVec 4) : W64 :=
  match m.toNat with
  | 0 => 0x80000000#64 | 1 => 0x8000000000000000#64 | _ => 0x80008000#64

/-- FADD_F32 (R121). -/
def execFaddF32 (f : Fields) (s : State) : Host.Outcome State Fault Refusal :=
  runAlu (.faddF32 f) f (fun _ _ x => okF (fAdd .f32 (RM.ofMod f.mod) x.a.toNat x.b.toNat)) s

/-- FSUB_F32 (R121). -/
def execFsubF32 (f : Fields) (s : State) : Host.Outcome State Fault Refusal :=
  runAlu (.fsubF32 f) f (fun _ _ x => okF (fSub .f32 (RM.ofMod f.mod) x.a.toNat x.b.toNat)) s

/-- FMUL_F32 (R121). -/
def execFmulF32 (f : Fields) (s : State) : Host.Outcome State Fault Refusal :=
  runAlu (.fmulF32 f) f (fun _ _ x => okF (fMul .f32 (RM.ofMod f.mod) x.a.toNat x.b.toNat)) s

/-- FDIV_F32 (R121). -/
def execFdivF32 (f : Fields) (s : State) : Host.Outcome State Fault Refusal :=
  runAlu (.fdivF32 f) f (fun _ _ x => okF (fDiv .f32 (RM.ofMod f.mod) x.a.toNat x.b.toNat)) s

/-- FFMA_F32 (R121). -/
def execFfmaF32 (f : Fields) (s : State) : Host.Outcome State Fault Refusal :=
  runAlu (.ffmaF32 f) f (fun _ _ x => okF (fFma .f32 (RM.ofMod f.mod) x.a.toNat x.b.toNat x.c.toNat)) s

/-- FMIN_F32 (R122). -/
def execFminF32 (f : Fields) (s : State) : Host.Outcome State Fault Refusal :=
  runAlu (.fminF32 f) f (fun _ _ x => okF (fMinMax .f32 false x.a.toNat x.b.toNat)) s

/-- FMAX_F32 (R122). -/
def execFmaxF32 (f : Fields) (s : State) : Host.Outcome State Fault Refusal :=
  runAlu (.fmaxF32 f) f (fun _ _ x => okF (fMinMax .f32 true x.a.toNat x.b.toNat)) s

/-- FCMP_F32 (R123). -/
def execFcmpF32 (f : Fields) (s : State) : Host.Outcome State Fault Refusal :=
  runAlu (.fcmpF32 f) f (fun _ _ x => let r := fCmp .f32 f.mod x.a.toNat x.b.toNat; .ok (.pred r.1, r.2)) s

/-- FRCP_F32 (R124). -/
def execFrcpF32 (f : Fields) (s : State) : Host.Outcome State Fault Refusal :=
  runAlu (.frcpF32 f) f (fun _ _ x => okF (fRcp .f32 x.a.toNat)) s

/-- FRSQ_F32 (R124). -/
def execFrsqF32 (f : Fields) (s : State) : Host.Outcome State Fault Refusal :=
  runAlu (.frsqF32 f) f (fun _ _ x => okF (fRsq .f32 x.a.toNat)) s

/-- FSQRT_F32 (R124). -/
def execFsqrtF32 (f : Fields) (s : State) : Host.Outcome State Fault Refusal :=
  runAlu (.fsqrtF32 f) f (fun _ _ x => okF (fSqrt .f32 x.a.toNat)) s

/-- FCLASS_F32 (R125). -/
def execFclassF32 (f : Fields) (s : State) : Host.Outcome State Fault Refusal :=
  runAlu (.fclassF32 f) f (fun _ _ x => ok32 (BitVec.ofNat 32 (fClass .f32 x.a.toNat))) s

/-- FADD_F64 (R121). -/
def execFaddF64 (f : Fields) (s : State) : Host.Outcome State Fault Refusal :=
  runAlu (.faddF64 f) f (fun _ _ x => okF (fAdd .f64 (RM.ofMod f.mod) x.a.toNat x.b.toNat)) s

/-- FSUB_F64 (R121). -/
def execFsubF64 (f : Fields) (s : State) : Host.Outcome State Fault Refusal :=
  runAlu (.fsubF64 f) f (fun _ _ x => okF (fSub .f64 (RM.ofMod f.mod) x.a.toNat x.b.toNat)) s

/-- FMUL_F64 (R121). -/
def execFmulF64 (f : Fields) (s : State) : Host.Outcome State Fault Refusal :=
  runAlu (.fmulF64 f) f (fun _ _ x => okF (fMul .f64 (RM.ofMod f.mod) x.a.toNat x.b.toNat)) s

/-- FDIV_F64 (R121). -/
def execFdivF64 (f : Fields) (s : State) : Host.Outcome State Fault Refusal :=
  runAlu (.fdivF64 f) f (fun _ _ x => okF (fDiv .f64 (RM.ofMod f.mod) x.a.toNat x.b.toNat)) s

/-- FFMA_F64 (R121). -/
def execFfmaF64 (f : Fields) (s : State) : Host.Outcome State Fault Refusal :=
  runAlu (.ffmaF64 f) f (fun _ _ x => okF (fFma .f64 (RM.ofMod f.mod) x.a.toNat x.b.toNat x.c.toNat)) s

/-- FMIN_F64 (R122). -/
def execFminF64 (f : Fields) (s : State) : Host.Outcome State Fault Refusal :=
  runAlu (.fminF64 f) f (fun _ _ x => okF (fMinMax .f64 false x.a.toNat x.b.toNat)) s

/-- FMAX_F64 (R122). -/
def execFmaxF64 (f : Fields) (s : State) : Host.Outcome State Fault Refusal :=
  runAlu (.fmaxF64 f) f (fun _ _ x => okF (fMinMax .f64 true x.a.toNat x.b.toNat)) s

/-- FCMP_F64 (R123). -/
def execFcmpF64 (f : Fields) (s : State) : Host.Outcome State Fault Refusal :=
  runAlu (.fcmpF64 f) f (fun _ _ x => let r := fCmp .f64 f.mod x.a.toNat x.b.toNat; .ok (.pred r.1, r.2)) s

/-- FRCP_F64 (R124). -/
def execFrcpF64 (f : Fields) (s : State) : Host.Outcome State Fault Refusal :=
  runAlu (.frcpF64 f) f (fun _ _ x => okF (fRcp .f64 x.a.toNat)) s

/-- FRSQ_F64 (R124). -/
def execFrsqF64 (f : Fields) (s : State) : Host.Outcome State Fault Refusal :=
  runAlu (.frsqF64 f) f (fun _ _ x => okF (fRsq .f64 x.a.toNat)) s

/-- FSQRT_F64 (R124). -/
def execFsqrtF64 (f : Fields) (s : State) : Host.Outcome State Fault Refusal :=
  runAlu (.fsqrtF64 f) f (fun _ _ x => okF (fSqrt .f64 x.a.toNat)) s

/-- FCLASS_F64 (R125). -/
def execFclassF64 (f : Fields) (s : State) : Host.Outcome State Fault Refusal :=
  runAlu (.fclassF64 f) f (fun _ _ x => ok32 (BitVec.ofNat 32 (fClass .f64 x.a.toNat))) s

/-- FEXP2_F32 (R124). -/
def execFexp2F32 (f : Fields) (s : State) : Host.Outcome State Fault Refusal :=
  runAlu (.fexp2F32 f) f (fun _ _ x => okF (fExp2 x.a.toNat)) s

/-- FLOG2_F32 (R124). -/
def execFlog2F32 (f : Fields) (s : State) : Host.Outcome State Fault Refusal :=
  runAlu (.flog2F32 f) f (fun _ _ x => okF (fLog2 x.a.toNat)) s

/-- FSINP_F32 (R124). -/
def execFsinpF32 (f : Fields) (s : State) : Host.Outcome State Fault Refusal :=
  runAlu (.fsinpF32 f) f (fun _ _ x => okF (fSinCos false x.a.toNat)) s

/-- FCOSP_F32 (R124). -/
def execFcospF32 (f : Fields) (s : State) : Host.Outcome State Fault Refusal :=
  runAlu (.fcospF32 f) f (fun _ _ x => okF (fSinCos true x.a.toNat)) s

/-- FABS (R126). -/
def execFabs (f : Fields) (s : State) : Host.Outcome State Fault Refusal :=
  runAlu (.fabs f) f (fun _ _ x => ok (x.a &&& ~~~signMask f.mod)) s

/-- FNEG (R126). -/
def execFneg (f : Fields) (s : State) : Host.Outcome State Fault Refusal :=
  runAlu (.fneg f) f (fun _ _ x => ok (x.a ^^^ signMask f.mod)) s

/-- FCOPYSIGN (R126). -/
def execFcopysign (f : Fields) (s : State) : Host.Outcome State Fault Refusal :=
  runAlu (.fcopysign f) f (fun _ _ x => ok ((x.a &&& ~~~signMask f.mod) ||| (x.b &&& signMask f.mod))) s

end Sys2Proof.Machine
end

