-- ==== Sys2Proof/Machine/Images.lean ====
section
/-! DEFINITION. Checkpoint images (R307, R308): what CHECKPOINT writes, and how RESTORE brings it back. The cipher is not
modelled: an image's wrapped key and body are free bytes (log 13), and the machine knows the images it has written. -/
namespace Sys2Proof.Machine

/-! ## Resident pages -/

/-- The entries of a table of each level (R365). -/
def ptEntries (lvl : Nat) : Nat := match lvl with | 0 => 131072 | 3 => 32 | _ => 512

/-- The 64 KiB granules that an entry of each level spans. -/
def ptSpan (lvl : Nat) : Nat := match lvl with | 0 => 2 ^ 23 | 1 => 2 ^ 14 | 2 => 32 | _ => 1

/-- A page by its virtual, physical and intermediate granule. -/
abbrev Page := Nat × Nat × Nat

/-- The granules of a leaf that stage 2 maps. -/
def leafPages (s : State) (cid : Nat) (v : Nat) (lvl : Nat) (e : W64) : List Page :=
  (upFrom 0 (leafGranules lvl)).filterMap (fun j =>
    (stage2 s (vfOf cid) (pteAddr e + 65536 * j) 0#2).map (fun x => (v + j, x.1 / 65536, pteAddr e / 65536 + j)))

/-- The pages below a table, in ascending virtual address: `v` is the first granule that the table maps. -/
def tablePages (s : State) (cid : Nat) : List Nat → Nat → Nat → List Page
  | [], _, _ => []
  | lvl :: rest, t, v =>
    (upFrom 0 (ptEntries lvl)).flatMap (fun i =>
      match stage2 s (vfOf cid) (t + 8 * i) 0#2 with
      | none => []
      | some (pa, _) =>
        let e : W64 := BitVec.ofNat 64 (s.mem.getNat pa 8)
        let v' := v + i * ptSpan lvl
        if s.bytesBad (s.ctx cid).keyId pa 8 || !pteV e || pteBad e lvl then []
        else if pteLf e then leafPages s cid v' lvl e
        else tablePages s cid rest (pteAddr e) v')

/-- The resident pages of a context. -/
def residentPages (s : State) (cid : Nat) : List Page :=
  tablePages s cid [0, 1, 2, 3] (s.ctx cid).ptroot.toNat 0

/-- The bytes of granules, each pair (to, from), by the first. -/
def regranule (pairs : List (Nat × Nat)) (m : Memory) : Memory :=
  pairs.foldl (fun v x => copyGranule m x.2 v x.1) []

/-- Memory with granules replaced, each pair (to, from), by those of another. -/
def putGranules (pairs : List (Nat × Nat)) (m v : Memory) : Memory :=
  pairs.foldl (fun m x => copyGranule v x.2 m x.1) m

/-- An address whose granule moves; none where no pair (from, to) has it. -/
def moveAddr (pairs : List (Nat × Nat)) (a : Nat) : Option Nat :=
  (pairs.find? (fun x => x.1 == a / 65536)).map (fun x => 65536 * x.2 + a % 65536)

/-- A queued update with its addresses moved; one whose page is not there is lost. -/
def MItem.move (f : Nat → Option Nat) : MItem → Option MItem
  | .write bs => some (.write (bs.filterMap (fun b => (f b.1).map (fun a => (a, b.2)))))
  | .redI o a v => (f a).map (fun a => .redI o a v)
  | .redF o a v => (f a).map (fun a => .redF o a v)
  | .wadd a w d x => (f a).map (fun a => .wadd a w d x)
  | i => some i

/-- A group with the addresses of its queued updates moved. -/
def Group.movePend (f : Nat → Option Nat) (g : Group) : Group :=
  { g with pendW := g.pendW.filterMap (fun r => (r.item.move f).map (fun i => { r with item := i })) }

/-! ## CHECKPOINT (R307) -/

/-- The header of an image (R307): 128 bytes. -/
def Image.header (i : Image) : List Byte :=
  leBytes 64 (1 + i.level.toNat * 2 ^ 16 + i.units.toNat * 2 ^ 32 + i.qmask.toNat * 2 ^ 64) ++
    ((Config.imageWrap i.id ++ List.replicate 64 0#8).take 64)

/-- Byte `n` of an image. -/
def Image.byteAt (i : Image) (n : Nat) : Byte := if n < 128 then i.header.getD n 0#8 else Config.imageBody i.id n

/-- Where the pages of a launch stand in its snapshot and queued updates, as (virtual granule, place): those that its interval
has met, and those that were there at its start (R378). -/
def Kernel.places (s : State) (pages : List Page) (k : Kernel) : List (Nat × Nat) :=
  match k.snap with
  | none => []
  | some snap =>
    k.snapPages.map (fun x => (x.1, x.2.1)) ++
      (pages.filter (fun p => (mget k.snapPages p.1).isNone)).filterMap (fun p =>
        (startPage s k.cid snap p.1).map (fun h => (p.1, h)))

/-- A launch as an image holds it: its snapshot by virtual address. -/
def Kernel.saved (s : State) (pages : List Page) (k : Kernel) : Kernel :=
  { k with snap := k.snap.map (regranule (k.places s pages)), snapPages := [] }

/-- A group as an image holds it: its queued updates by virtual address. -/
def Group.saved (s : State) (pages : List Page) (g : Group) : Group :=
  match s.kernel g.kid with
  | some k => g.movePend (moveAddr ((k.places s pages).map (fun x => (x.2, x.1))))
  | none => g

/-- Writes an image, unit by unit, until the buffer ends: `n` more units of 64 bytes, from byte `off`. -/
def writeImage (vf : Nat) (i : Image) (arg : Nat) : Nat → Nat → State → State
  | 0, _, s => s
  | n + 1, off, s =>
    match stage2 s vf (arg + off) 1#2 with
    | none => s
    | some (pa, _) => writeImage vf i arg n (off + 64) (s.poke (2 ^ 63) pa ((upFrom off 64).map i.byteAt))

/-- The length of an image in 64 KiB units (R307): `Config.imageUnits`, or what its header and its pages alone take. -/
def unitsFor (n pages : Nat) : BitVec 32 := BitVec.ofNat 32 (max (Config.imageUnits n).toNat (pages + 1))

/-- The 64-byte units of a context's pages, by virtual unit, that fail their check (R428): an image keeps them failing. -/
def lostUnits (s : State) (key : Nat) (pages : List Page) : List Nat :=
  pages.flatMap (fun x => (upFrom 0 1024).filterMap (fun j =>
    if s.badUnits.contains (1024 * x.2.1 + j) || (mget s.unitKey (1024 * x.2.1 + j)).any (fun y => y != (key, 1024 * x.2.2 + j))
    then some (1024 * x.1 + j) else none))

/-- The image of a quiesced context as it stands. -/
def takeImage (s : State) (cid : Nat) : Image :=
  let pages := residentPages s cid
  let gs := s.groups.filter (fun e => e.2.cid == cid)
  let p := s.part (vfOf cid)
  let n := s.images.length
  { id := n, keyId := (s.ctx cid).keyId, level := p.level, qmask := p.qmask, units := unitsFor n pages.length, ctx := s.ctx cid
    groups := mmap (fun _ g => g.saved s pages) gs
    kernels := mmap (fun _ k => k.saved s pages) (s.kernels.filter (fun e => e.2.cid == cid))
    graphs := s.graphs.filter (fun e => e.2.cid == cid)
    ops := s.ops.filter (fun e => e.2.cid == cid)
    mxops := s.mxops.filter (fun e => gs.any (fun x => x.1 == e.2.gid))
    calls := s.calls.filter (fun c => c.vf == vfOf cid && (mgetD p.comms c.entry CommEntry.zero).ctx == BitVec.ofNat 4 cid)
    gong := s.dies.flatMap (fun d => d.2.gong.filter (fun e => e.cid == cid))
    grans := pages.map (fun x => (x.1, x.2.2))
    pages := regranule (pages.map (fun x => (x.1, x.2.1))) s.mem
    lost := lostUnits s (s.ctx cid).keyId pages
    inst := s.nextInst }

/-- CHECKPOINT (R307): the image goes to the buffer; `ilen` tells its length. An address that is not 64 KiB aligned ends with
`bad-record` (log 104). -/
def execCheckpoint (vf : Nat) (s : State) : Host.Outcome State Fault Refusal :=
  runCmd 5#8 (· == .quiesced) (fun s cid arg =>
    if arg.toNat % 65536 ≠ 0 then some (s, csBadRecord, 0#32)
    else
      let i := takeImage s cid
      let s := writeImage vf i arg.toNat (1024 * i.units.toNat) 0 { s with images := s.images ++ [i] }
      some (s, csOk, i.units)) vf s

/-! ## RESTORE (R308) -/

/-- R298: whether a context is empty. -/
def ctxEmpty (s : State) (cid : Nat) : Bool :=
  let c := s.ctx cid
  !c.loaded && c.tables.all (fun e => e.2.table.isNone) && !s.groups.any (fun e => e.2.cid == cid) &&
    c.queues.all (fun e => !e.2.en && e.2.cur.isNone && e.2.active == [])

/-- Whether the bytes at an address are an image's, up to its length; `n` units of 64 bytes from byte `off`. -/
def holdsImage (s : State) (vf : Nat) (i : Image) (arg : Nat) : Nat → Nat → Bool
  | 0, _ => true
  | n + 1, off =>
    ipaRead s vf (arg + off) 64 ==
        some (((upFrom off 64).map (fun k => if 64 ≤ k ∧ k < 128 then (ipaRead s vf (arg + k) 1).elim 0#8 (·.headD 0#8)
          else i.byteAt k))) &&
      holdsImage s vf i arg n (off + 64)

/-- Whether a key wrapped as the header says opens the image under the target's key: it is the context's own image, or the
tenant wrapped its key again (R308). -/
def opensAs (s : State) (vf cid : Nat) (i : Image) (arg : Nat) : Bool :=
  match ipaRead s vf (arg + 64) 64 with
  | none => false
  | some w =>
    (i.keyId == (s.ctx cid).keyId && w == ((Config.imageWrap i.id ++ List.replicate 64 0#8).take 64)) ||
      Config.rewrapped (s.ctx cid).kwrap w i.id

/-- What the bytes of an image hold that this machine has not written since its start, if they open under a wrapping key
(R308): any (log 13). -/
opaque foreignImage : List Byte → List Byte → Option Image

/-- R307, R308: an image of another K7: its header's reserved bits are zero and its tag holds. -/
def readForeign (s : State) (vf cid arg : Nat) : Option Image :=
  match ipaRead s vf arg 64 with
  | none => none
  | some h =>
    let x := leNat h
    let units := natBits x 32 32
    if natBits x 0 16 ≠ 1 ∨ natBits x 18 14 ≠ 0 ∨ natBits x 80 432 ≠ 0 ∨ units = 0 then none
    else match ipaRead s vf arg (65536 * units) with
      | none => none
      | some bs => (foreignImage (s.ctx cid).kwrap bs).map (fun i =>
          { i with level := BitVec.ofNat 2 (natBits x 16 2), qmask := BitVec.ofNat 16 (natBits x 64 16),
                   units := BitVec.ofNat 32 units })

/-- The image at an address, if its tag holds under the context's key. -/
def findImage (s : State) (vf cid arg : Nat) : Option Image :=
  (s.images.find? (fun i => decide (0 < i.units.toNat) && opensAs s vf cid i arg &&
    holdsImage s vf i arg (1024 * i.units.toNat) 0)).or (readForeign s vf cid arg)

/-- The quadrant counts of the dies that a partition is on, in ascending die order (R295). -/
def shapeOf (m : BitVec 16) : List Nat := ((upFrom 0 4).map (quadsOn m)).filter (· != 0)

/-- The dies that a partition is on. -/
def diesOf (m : BitVec 16) : List Nat := (upFrom 0 4).filter (fun d => quadsOn m d != 0)

/-- The die of the target that stands for a die of the source: the same place in ascending order. -/
def dieFor (src dst : BitVec 16) (d : Nat) : Nat :=
  let l := diesOf dst
  l.getD (((diesOf src).idxOf d) % l.length) 0

/-- R308: the homes of tables on the target, in ascending slot order; `used` lists the records taken on each die. -/
def homeTables (dies : List Nat) (fsa : Nat) : AMap FsSlot → AMap Nat → Option (AMap FsSlot)
  | [], _ => some []
  | (n, sl) :: rest, used =>
    match sl.table with
    | none => (homeTables dies fsa rest used).map (fun l => (n, sl) :: l)
    | some t =>
      match dies.find? (fun d => decide (mgetD used d 0 + fdCap t.desc ≤ fsa)) with
      | none => none
      | some d =>
        (homeTables dies fsa rest (mset used d (mgetD used d 0 + fdCap t.desc))).map
          (fun l => (n, { sl with table := some { t with home := d } }) :: l)

/-- What the numbers of an image's objects become: offsets that make them new, the target's context and dies, and where each
page stands on the target. -/
structure Renumber where
  cid : Nat
  gid : Nat
  kid : Nat
  op  : Nat
  aid : Nat
  opAid : Nat
  die : Nat
  dieOf : Nat → Nat
  pages : List Page

/-- One more than the highest key of a map. -/
def topKey {α : Type} (m : AMap α) : Nat := m.foldl (fun n e => max n (e.1 + 1)) 0

/-- A map with the objects of an image added under shifted keys. -/
def addShifted {α : Type} (base : Nat) (f : Nat → α → α) (into m : AMap α) : AMap α :=
  m.foldl (fun r e => mset r (e.1 + base) (f e.1 e.2)) into

/-- A new agent of the image: it brings no stamps and no knowledge of accesses before the checkpoint (R307). -/
def freshHb (n : Nat) : HbState := { HbState.fresh n with clk := 1 }

/-- A group of an image in its new place, evicted or retired; its queued updates are brought back apart. -/
def Group.renumber (r : Renumber) (gid : Nat) (g : Group) : Group :=
  let a := r.aid + 2048 * gid
  { g with
    cid := r.cid, kid := g.kid + r.kid, pendW := []
    loc := match g.loc with | .evicted d => .evicted (r.dieOf d) | x => x
    threads := mmap (fun t th => { th with hb := freshHb (a + 1 + t) }) g.threads
    hart := { g.hart with hb := freshHb a }
    stamps := [], rels := []
    bars := mmap (fun _ b => { b with vc := [], prev := [] }) g.bars
    eng := mmap (fun _ x => { x with done := mmap (fun _ l => l.map (fun d => { d with rd := [], wr := [], sig := [] })) x.done }) g.eng }

/-- Where a kernel's completion goes, renumbered. -/
def KOrigin.renumber (r : Renumber) : KOrigin → KOrigin
  | .packet _ q idx => .packet r.cid q idx
  | .node g n => .node (g + r.kid) n

/-- A Gong entry, renumbered; a tile task that waits for a merge entry is dispatched anew. -/
def GongEntry.renumber (r : Renumber) (e : GongEntry) : GongEntry :=
  { e with
    cid := r.cid, waits := []
    sent := match e.kind with | .task _ => false | _ => e.sent
    kind := match e.kind with
      | .kernel k => .kernel (k + r.kid)
      | .node g n => .node (g + r.kid) n
      | .task n => .task (n + r.op) }

/-- A snapshot's tables with their homes on the target. -/
def rehome (tables now : AMap FsSlot) (die : Nat) : AMap FsSlot :=
  mmap (fun n sl => { sl with table := sl.table.map (fun t =>
    { t with home := ((mgetD now n FsSlot.empty).table.map (·.home)).getD die }) }) tables

/-- The place of a page in the snapshots of restored launches: its physical granule, or a place of its own where the target
has none. -/
def Renumber.place (r : Renumber) (vg : Nat) : Nat :=
  match r.pages.find? (fun p => p.1 == vg) with
  | some p => p.2.1
  | none => 2 ^ 42 + vg

/-- A kernel of an image. -/
def Kernel.renumber (r : Renumber) (m : Memory) (tables : AMap FsSlot) (k : Kernel) : Kernel :=
  let vgs := ((k.snap.getD []).map (fun c => c.1 / 65536)).eraseDups
  let vgs := vgs ++ (r.pages.map (·.1)).filter (fun v => !vgs.contains v)
  { k with
    cid := r.cid, die := r.die, origin := k.origin.renumber r
    snap := k.snap.map (putGranules (vgs.map (fun v => (r.place v, v))) m)
    snapPages := if k.snap.isNone then [] else vgs.foldl (fun p v => mset p v (r.place v,
      match r.pages.find? (fun x => x.1 == v) with | some x => x.2 | none => (r.place v, r.place v))) []
    snapTables := rehome k.snapTables tables r.die, vc := [], birth := [] }

/-- What an operation does, renumbered; a tile task is dispatched anew. -/
def EngKind.renumber (r : Renumber) : EngKind → EngKind
  | .packet _ q ser a b n => .packet r.cid q ser a b n
  | .nodeCopy g n a b len => .nodeCopy (g + r.kid) n a b len
  | .nodeColl g n d rk c => .nodeColl (g + r.kid) n d rk c
  | .task t a w c _ => .task t a w c none
  | k => k

/-- An engine operation that waits for a merge entry (R419). -/
def EngOp.renumber (r : Renumber) (n : Nat) (o : EngOp) : EngOp :=
  { o with
    gid := o.gid.map (· + r.gid), cid := r.cid, kind := o.kind.renumber r, hb := freshHb (r.opAid + 2 * n)
    place := { o.place with gid := o.place.gid + r.gid, kid := o.place.kid + r.kid, die := r.dieOf o.place.die } }

/-- The context after a restore: what it was created with, and what the image holds. -/
def Context.restored (c i : Context) (r : Renumber) (tables : AMap FsSlot) : Context :=
  { c with
    queues := mmap (fun _ q => { q with vc := [], stall := q.stall.map (fun f => { f with woken := true }) }) i.queues
    tables := tables, code := i.code, loaded := i.loaded, tvec := i.tvec, evec := i.evec, hbudget := i.hbudget, ien := i.ien
    sgSize := i.sgSize
    fqSeq := max c.fqSeq i.fqSeq
    stops := i.stops.map (fun x => (x.1, x.2.1 + r.gid, x.2.2))
    capNoted := i.capNoted.map (· + r.kid) }

/-- Where an image's pages go: to the pages that the target's tables map there, else to the intermediate granules that they had
(log 13). -/
def pagePlaces (s : State) (cid : Nat) (i : Image) : List Page :=
  let mine := residentPages s cid
  i.grans.filterMap (fun x => (mine.find? (fun p => p.1 == x.1)).or
    ((stage2 s (vfOf cid) (65536 * x.2) 1#2).map (fun y => (x.1, y.1 / 65536, x.2))))

/-- Brings an image's pages back under the target's key; a unit that failed its check still does (R428). -/
def putPages (s : State) (cid : Nat) (pages : List Page) (v : Memory) (lost : List Nat) : State :=
  pages.foldl (fun s x =>
    let s := { s with reach := (upFrom (1024 * x.2.1) 1024).zip (upFrom (1024 * x.2.2) 1024) }.poke (s.ctx cid).keyId
      (65536 * x.2.1) (v.getN (65536 * x.1) 65536)
    { s with badUnits := (lost.filter (· / 1024 == x.1)).map (fun u => 1024 * x.2.1 + u % 1024) ++ s.badUnits }) s

/-- R308: loads an image into a context, its queued updates apart; `tables` are its tables with their homes. -/
def loadImage (s : State) (cid : Nat) (i : Image) (r : Renumber) (tables : AMap FsSlot) : State :=
  let s := putPages s cid r.pages i.pages i.lost
  let s := s.setCtx cid ((s.ctx cid).restored i.ctx r tables)
  let d := s.die r.die
  let s := s.setDie r.die { d with gong := d.gong ++ i.gong.map (GongEntry.renumber r) }
  let calls := (i.calls.map (fun c => { c with vf := vfOf cid })).filter (fun c =>
    !s.calls.any (fun x => x.vf == c.vf && x.entry == c.entry && x.call == c.call))
  let ops := max (topKey i.ops) (topKey i.mxops)
  { s with
    groups := addShifted r.gid (Group.renumber r) s.groups i.groups
    kernels := addShifted r.kid (fun _ k => k.renumber r s.mem tables) s.kernels i.kernels
    graphs := addShifted r.kid (fun _ g => { g with cid := cid, die := r.die, birth := [], vcs := [] }) s.graphs i.graphs
    ops := addShifted r.op (EngOp.renumber r) s.ops i.ops
    mxops := addShifted r.op (fun n o => { o with gid := o.gid + r.gid, hb := freshHb (r.opAid + 2 * ops + 2 * n) }) s.mxops i.mxops
    calls := s.calls ++ calls
    nextGid := r.gid + topKey i.groups, nextKid := r.kid + max (topKey i.kernels) (topKey i.graphs)
    nextOp := r.op + ops, nextAid := r.opAid + 4 * ops, nextInst := max s.nextInst i.inst }

/-- R419: the pending updates of a group of an image take their entries one by one; none where there is no room. -/
def refit (cid gid : Nat) (r : Renumber) : List MRec → State → Option State
  | [], s => some s
  | x :: l, s =>
    match s.group gid with
    | none => some s
    | some g =>
      let item := match x.item with
        | .fsDesc t d rad die => .fsDesc t d rad (r.dieOf die)
        | i => (i.move (fun a => some (65536 * r.place (a / 65536) + a % 65536))).getD i
      match takeEntries s cid g.pendW item (itemHome s cid item) with
      | none => none
      | some sp => refit cid gid r l (s.setGroup gid { g with
          pendW := g.pendW ++ [{ x with item := item, spill := sp, home := itemHome s cid item }] })

/-- R419: the pending updates of every group. -/
def refitAll (cid : Nat) (r : Renumber) : List (Nat × Group) → State → Option State
  | [], s => some s
  | (gid, g) :: l, s => (refit cid (gid + r.gid) r g.pendW s).bind (refitAll cid r l)

/-- The numbers that the objects of an image take in a context of this machine (R308). -/
def renumberOf (s : State) (cid : Nat) (i : Image) : Renumber :=
  let m := (s.part (vfOf cid)).qmask
  { cid := cid, gid := s.nextGid, kid := s.nextKid, op := s.nextOp, aid := s.nextAid,
    opAid := s.nextAid + 2048 * topKey i.groups, die := firstDie m, dieOf := dieFor i.qmask m, pages := pagePlaces s cid i }

/-- The body of RESTORE. -/
def restoreCtx (s : State) (cid : Nat) (arg : BitVec 56) : State × BitVec 8 :=
  let vf := vfOf cid
  let p := s.part vf
  match findImage s vf cid arg.toNat with
  | none => (s, csImageInvalid)
  | some i =>
    if i.level ≠ p.level then (s, csDetMismatch)
    else if p.level = 1#2 ∧ shapeOf i.qmask ≠ shapeOf p.qmask then (s, csShapeMismatch)
    else match homeTables (diesOf p.qmask) (s.ctx cid).fsa.toNat i.ctx.tables [] with
      | none => (s, csNoRoom)
      | some tables =>
        let r := renumberOf s cid i
        match refitAll cid r i.groups (loadImage s cid i r tables) with
        | some s' => (s', csOk)
        | none => (s, csNoRoom)

/-- RESTORE (R308): into a quiesced, empty context. -/
def execRestore (vf : Nat) (s : State) : Host.Outcome State Fault Refusal :=
  runCmd 6#8 (· == .quiesced) (fun s cid arg =>
    if !ctxEmpty s cid then some (s, csBadState, 0#32)
    else let r := restoreCtx s cid arg; some (r.1, r.2, 0#32)) vf s

end Sys2Proof.Machine
end

