-- ==== Sys2Proof/Machine/Integer.lean ====
section
/-! DEFINITION. The meanings of the integer instructions of R118 and R119: each is a thread-local instruction of the shared shape `runAlu`. -/
namespace Sys2Proof.Machine

/-- The signed quotient of R119, toward zero. -/
def divS (a b : W32) : W32 := if b = 0#32 then 0xFFFFFFFF#32 else BitVec.ofInt 32 (Int.tdiv a.toInt b.toInt)

/-- The unsigned quotient of R119. -/
def divU (a b : W32) : W32 := if b = 0#32 then 0xFFFFFFFF#32 else BitVec.ofNat 32 (a.toNat / b.toNat)

/-- Element `k` of a word of `w`-bit elements (R42). -/
def elemI (sgn : Bool) (w : Nat) (a : W32) (k : Nat) : Int :=
  let n := natBits a.toNat (w * k) w
  if sgn && n.testBit (w - 1) then (n : Int) - 2 ^ w else n

/-- R42: the sum of the products of `n` elements. -/
def dotI (sgn : Bool) (w n : Nat) (a b : W32) : Int :=
  (upFrom 0 n).foldl (fun s k => s + elemI sgn w a k * elemI sgn w b k) 0

/-- IADD_I32 (R118). -/
def execIaddI32 (f : Fields) (s : State) : Host.Outcome State Fault Refusal :=
  runAlu (.iaddI32 f) f (fun _ _ x => ok32 (x.a32 + x.b32)) s

/-- IADD_I64 (R118). -/
def execIaddI64 (f : Fields) (s : State) : Host.Outcome State Fault Refusal :=
  runAlu (.iaddI64 f) f (fun _ _ x => ok (x.a + x.b)) s

/-- ISUB_I32 (R118). -/
def execIsubI32 (f : Fields) (s : State) : Host.Outcome State Fault Refusal :=
  runAlu (.isubI32 f) f (fun _ _ x => ok32 (x.a32 - x.b32)) s

/-- ISUB_I64 (R118). -/
def execIsubI64 (f : Fields) (s : State) : Host.Outcome State Fault Refusal :=
  runAlu (.isubI64 f) f (fun _ _ x => ok (x.a - x.b)) s

/-- IMUL_I32 (R118). -/
def execImulI32 (f : Fields) (s : State) : Host.Outcome State Fault Refusal :=
  runAlu (.imulI32 f) f (fun _ _ x => ok32 (x.a32 * x.b32)) s

/-- IMULH_I32 (R118). -/
def execImulhI32 (f : Fields) (s : State) : Host.Outcome State Fault Refusal :=
  runAlu (.imulhI32 f) f (fun _ _ x => ok32 (hi32 (sext64 x.a32 * sext64 x.b32))) s

/-- IMULH_N32 (R118). -/
def execImulhN32 (f : Fields) (s : State) : Host.Outcome State Fault Refusal :=
  runAlu (.imulhN32 f) f (fun _ _ x => ok32 (hi32 (zext64 x.a32 * zext64 x.b32))) s

/-- IMAD_I32 (R118). -/
def execImadI32 (f : Fields) (s : State) : Host.Outcome State Fault Refusal :=
  runAlu (.imadI32 f) f (fun _ _ x => ok32 (x.a32 * x.b32 + x.c32)) s

/-- IMADW_I64 (R118). -/
def execImadwI64 (f : Fields) (s : State) : Host.Outcome State Fault Refusal :=
  runAlu (.imadwI64 f) f (fun _ _ x => ok (sext64 x.a32 * sext64 x.b32 + x.c)) s

/-- IMIN_I32 (R118). -/
def execIminI32 (f : Fields) (s : State) : Host.Outcome State Fault Refusal :=
  runAlu (.iminI32 f) f (fun _ _ x => ok32 (if x.b32.slt x.a32 then x.b32 else x.a32)) s

/-- IMIN_N32 (R118). -/
def execIminN32 (f : Fields) (s : State) : Host.Outcome State Fault Refusal :=
  runAlu (.iminN32 f) f (fun _ _ x => ok32 (if x.b32.ult x.a32 then x.b32 else x.a32)) s

/-- IMAX_I32 (R118). -/
def execImaxI32 (f : Fields) (s : State) : Host.Outcome State Fault Refusal :=
  runAlu (.imaxI32 f) f (fun _ _ x => ok32 (if x.a32.slt x.b32 then x.b32 else x.a32)) s

/-- IMAX_N32 (R118). -/
def execImaxN32 (f : Fields) (s : State) : Host.Outcome State Fault Refusal :=
  runAlu (.imaxN32 f) f (fun _ _ x => ok32 (if x.a32.ult x.b32 then x.b32 else x.a32)) s

/-- IABS_I32 (R118). -/
def execIabsI32 (f : Fields) (s : State) : Host.Outcome State Fault Refusal :=
  runAlu (.iabsI32 f) f (fun _ _ x => ok32 (if x.a32.slt 0#32 then -x.a32 else x.a32)) s

/-- INEG_I32 (R118). -/
def execInegI32 (f : Fields) (s : State) : Host.Outcome State Fault Refusal :=
  runAlu (.inegI32 f) f (fun _ _ x => ok32 (-x.a32)) s

/-- ICMP_I32 (R118). -/
def execIcmpI32 (f : Fields) (s : State) : Host.Outcome State Fault Refusal :=
  runAlu (.icmpI32 f) f (fun _ _ x => okP (iCmp f.mod x.a32.toInt x.b32.toInt)) s

/-- ICMP_N32 (R118). -/
def execIcmpN32 (f : Fields) (s : State) : Host.Outcome State Fault Refusal :=
  runAlu (.icmpN32 f) f (fun _ _ x => okP (iCmp f.mod x.a32.toNat x.b32.toNat)) s

/-- ICMP_I64 (R118). -/
def execIcmpI64 (f : Fields) (s : State) : Host.Outcome State Fault Refusal :=
  runAlu (.icmpI64 f) f (fun _ _ x => okP (iCmp f.mod x.a.toInt x.b.toInt)) s

/-- ICMP_N64 (R118). -/
def execIcmpN64 (f : Fields) (s : State) : Host.Outcome State Fault Refusal :=
  runAlu (.icmpN64 f) f (fun _ _ x => okP (iCmp f.mod x.a.toNat x.b.toNat)) s

/-- LEA (R118). -/
def execLea (f : Fields) (s : State) : Host.Outcome State Fault Refusal :=
  runAlu (.lea f) f (fun _ _ x => ok32 (x.a32 + (x.b32 <<< f.mod.toNat))) s

/-- LEA_I64 (R118). -/
def execLeaI64 (f : Fields) (s : State) : Host.Outcome State Fault Refusal :=
  runAlu (.leaI64 f) f (fun _ _ x => ok (x.a + (sext64 x.b32 <<< f.mod.toNat))) s

/-- IDIV_I32 (R119). -/
def execIdivI32 (f : Fields) (s : State) : Host.Outcome State Fault Refusal :=
  runAlu (.idivI32 f) f (fun _ _ x => ok32 (divS x.a32 x.b32)) s

/-- IDIV_N32 (R119). -/
def execIdivN32 (f : Fields) (s : State) : Host.Outcome State Fault Refusal :=
  runAlu (.idivN32 f) f (fun _ _ x => ok32 (divU x.a32 x.b32)) s

/-- IREM_I32 (R119); a zero divisor leaves a. -/
def execIremI32 (f : Fields) (s : State) : Host.Outcome State Fault Refusal :=
  runAlu (.iremI32 f) f (fun _ _ x => ok32 (if x.b32 = 0#32 then x.a32 else x.a32 - x.b32 * divS x.a32 x.b32)) s

/-- IREM_N32 (R119). -/
def execIremN32 (f : Fields) (s : State) : Host.Outcome State Fault Refusal :=
  runAlu (.iremN32 f) f (fun _ _ x => ok32 (if x.b32 = 0#32 then x.a32 else x.a32 - x.b32 * divU x.a32 x.b32)) s

/-- IDOT4_I8 (R118). -/
def execIdot4I8 (f : Fields) (s : State) : Host.Outcome State Fault Refusal :=
  runAlu (.idot4I8 f) f (fun _ _ x => ok32 (BitVec.ofInt 32 (x.c32.toInt + dotI true 8 4 x.a32 x.b32))) s

/-- IDOT4_N8 (R118). -/
def execIdot4N8 (f : Fields) (s : State) : Host.Outcome State Fault Refusal :=
  runAlu (.idot4N8 f) f (fun _ _ x => ok32 (BitVec.ofInt 32 (x.c32.toNat + dotI false 8 4 x.a32 x.b32))) s

/-- IDOT8_I4 (R118). -/
def execIdot8I4 (f : Fields) (s : State) : Host.Outcome State Fault Refusal :=
  runAlu (.idot8I4 f) f (fun _ _ x => ok32 (BitVec.ofInt 32 (x.c32.toInt + dotI true 4 8 x.a32 x.b32))) s

/-- ICLAMP_I32 (R118). -/
def execIclampI32 (f : Fields) (s : State) : Host.Outcome State Fault Refusal :=
  runAlu (.iclampI32 f) f (fun _ _ x => ok32 (let m := if x.a32.slt x.b32 then x.b32 else x.a32; if x.c32.slt m then x.c32 else m)) s

end Sys2Proof.Machine
end

