-- ==== Sys2Proof/Machine/LimitAcc.lean ====
section
/-! DEFINITION. The limit accumulators (R222-R229). -/
namespace Sys2Proof.Machine

/-! ## Arithmetic -/

/-- FP64 operations on bit patterns, rounded to nearest. -/
def dAdd (a b : Nat) : Nat := (fAdd .f64 .rn a b).bits
def dSub (a b : Nat) : Nat := (fSub .f64 .rn a b).bits
def dMul (a b : Nat) : Nat := (fMul .f64 .rn a b).bits
def dDiv (a b : Nat) : Nat := (fDiv .f64 .rn a b).bits

/-- The value of an FP64 pattern. -/
def f64v (n : Nat) : FV := decodeF .f64 n

/-- 1.0. -/
def dOne : Nat := (roundV .f64 .rn false (FV.ofInt 1)).bits

/-- x times 2^-k, exact. -/
def FV.scale (v : FV) (k : Int) : FV := match v with | .fin n m e => .fin n m (e + k) | v => v

/-- The largest magnitude of a list, NaNs ignored; +0 where there is none (R226). -/
def largest (l : List Nat) : FV :=
  l.foldl (fun m x => match f64v x with
    | .nan _ => m
    | v => if cmpV m v.abs = .lt then v.abs else m) (.fin false 0 0)

/-- |a| ≤ lim; false for a NaN. -/
def absLe (a : Nat) (lim : FV) : Bool := !(f64v a).isNan && !lim.isNan && cmpV (f64v a).abs lim != .gt

/-! ## The estimate (R226-R228) -/

/-- R226: one column after `cur`, from index j on: the entries computed, and whether a divisor stopped the building. -/
def epsColumn (lim : FV) : List Nat → List Nat → List Nat × Bool
  | p1 :: ps, c0 :: c1 :: cs =>
    let d := dSub c1 c0
    if absLe d lim then ([], true)
    else
      let r := epsColumn lim ps (c1 :: cs)
      (dAdd p1 (dDiv dOne d) :: r.1, r.2)
  | _, _ => ([], false)

/-- R226: the columns after column c, n of them: the estimate, and whether a divisor stopped the building. `prev` is column
c − 1 from index 1 on. -/
def epsBuild : Nat → Nat → List Nat → List Nat → Nat → Nat × Bool
  | 0, _, _, _, est => (est, false)
  | n + 1, c, prev, cur, est =>
    let col := epsColumn ((largest cur).scale (-40)) prev cur
    let est := if c % 2 = 1 then col.1.getLast?.getD est else est
    if col.2 then (est, true) else epsBuild n (c + 1) (cur.drop 1) col.1 est

/-- The method `eps`. -/
def epsEstimate (h : List Nat) : Nat × Bool :=
  epsBuild (2 * ((h.length - 1) / 2)) 0 (List.replicate h.length 0) h (h.getLast?.getD 0)

/-- The differences of neighbours. -/
def diffs : List Nat → List Nat
  | a :: b :: l => dSub b a :: diffs (b :: l)
  | _ => []

/-- A sum with its partial sums in order. -/
def dSum : List Nat → Nat
  | [] => 0
  | x :: l => l.foldl dAdd x

/-- The method `lsq` (R227). -/
def lsqEstimate (h : List Nat) : Nat × Bool :=
  let d := diffs h
  let last := h.getLast?.getD 0
  let lead := d.dropLast
  let num := dSum ((lead.zip (d.drop 1)).map (fun p => dMul p.1 p.2))
  let den := dSum (lead.map (fun x => dMul x x))
  let mh := (roundV .f64 .rn false (largest h)).bits
  if absLe den (f64v (dMul (943 * 2 ^ 52) (dMul mh mh))) then (last, true)
  else
    let lam := dDiv num den
    let t := dSub dOne lam
    if absLe t ((FV.ofInt 1).scale (-40)) then (last, true)
    else (dAdd last (dDiv (dMul (d.getLast?.getD 0) lam) t), false)

/-- R228: the estimate, `short` and `fallbk`. -/
def LimAcc.estimate (a : LimAcc) : Nat × Bool × Bool :=
  let h := a.hist.map (·.toNat)
  if h.length < 3 then (h.getLast?.getD a.sum.toNat, true, false)
  else
    let r := if a.lsq then lsqEstimate h else epsEstimate h
    (r.1, false, r.2)

/-- R228: `stag`. -/
def LimAcc.stagnant (a : LimAcc) : Bool :=
  let d := diffs (a.hist.map (·.toNat))
  let n := d.length
  decide (3 ≤ n) &&
    absLe (d.getD (n - 3) 0) (f64v (d.getD (n - 2) 0)).abs && absLe (d.getD (n - 2) 0) (f64v (d.getD (n - 1) 0)).abs

/-- R228: `conv`. -/
def LimAcc.converged (a : LimAcc) (est : Nat) : Bool :=
  match a.prev with
  | none => false
  | some p =>
    let x := f64v est
    let y := f64v p.toNat
    !x.isNan && !x.isInf && !y.isNan && !y.isInf && cmpV (sumV .rn [x, y.flip]).1.abs (f64v a.tol.toNat) != .gt

/-- R225: Push. -/
def LimAcc.push (a : LimAcc) (v : W64) : LimAcc :=
  { a with hist := (if a.dep ≤ a.hist.length then a.hist.drop 1 else a.hist) ++ [v] }

/-- R225: a term, with the flags of its addition. -/
def LimAcc.add (a : LimAcc) (t : FV) : LimAcc × FFlags :=
  let v := sumV .rn [f64v a.sum.toNat, t]
  let r := finish .f64 .rn v.1 (v.2 || (f64v a.sum.toNat).isSig || t.isSig)
  let sum : W64 := BitVec.ofNat 64 r.bits
  let count : W64 := if a.count = BitVec.allOnes 64 then a.count else a.count + 1#64
  let a := { a with sum := sum, count := count }
  (if a.ivl ≠ 0 ∧ count.toNat % a.ivl = 0 then a.push sum else a, r.flags)

/-! ## Meanings -/

/-- The number of an accumulator. -/
def laIx (f : Fields) : Nat := unitIx f.a
where unitIx (o : Operand) : Nat := (opBits o).toNat - 0x1C0

/-- R222: an initialised accumulator, or `accumulator-misuse`. -/
def laOf (e : Env) (f : Fields) : SlotM LimAcc := do
  match mget (← getTh e).las (laIx f) with
  | some a => return a
  | none => raise .accumulatorMisuse 0#64 (BitVec.ofNat 32 (laIx f))

/-- Writes an accumulator back. -/
def putLa (e : Env) (f : Fields) (a : LimAcc) : SlotM Unit := modTh e (fun th => { th with las := mset th.las (laIx f) a })

/-- R224: whether a configuration and a tolerance pass. -/
def laCfgOk (b : W32) (tol : W64) : Bool :=
  let dep := natBits b.toNat 0 4
  let t := f64v tol.toNat
  natBits b.toNat 5 11 == 0 && (dep == 0 || (decide (3 ≤ dep) && decide (dep ≤ 8))) && !t.isNan && (t.isZero || !t.neg)

/-- LAINIT (R224). -/
def execLainit (f : Fields) (s : State) : Host.Outcome State Fault Refusal :=
  runGuarded (.lainit f) f (fun e _ x => do
    let b := x.b32
    if !laCfgOk b x.c then illegalOperand
    else if natBits b.toNat 0 4 = 0 then
      modTh e (fun th => { th with las := mdel th.las (laIx f) })
      return 0#6
    else
      let th ← getTh e
      if (mget th.las (laIx f)).isNone ∧ th.quota < th.alloc + 18 then
        raise .quotaExceeded 0#64 (BitVec.ofNat 32 (th.quota + 65536 * (th.alloc + 18)))
      else
        putLa e f { dep := natBits b.toNat 0 4, ivl := natBits b.toNat 16 16, lsq := b.getLsbD 4, tol := x.c, sum := 0#64,
                    count := 0#64, hist := [], prev := none, status := 0#32 }
        return 0#6) s

/-- LAADD_F32 (R225). -/
def execLaaddF32 (f : Fields) (s : State) : Host.Outcome State Fault Refusal :=
  runGuarded (.laaddF32 f) f (fun e _ x => do
    let a ← laOf e f
    let r := a.add (decodeF .f32 x.b32.toNat)
    putLa e f r.1
    return r.2) s

/-- LAADD_F64 (R225). -/
def execLaaddF64 (f : Fields) (s : State) : Host.Outcome State Fault Refusal :=
  runGuarded (.laaddF64 f) f (fun e _ x => do
    let a ← laOf e f
    let r := a.add (f64v x.b.toNat)
    putLa e f r.1
    return r.2) s

/-- LACKP (R225). -/
def execLackp (f : Fields) (s : State) : Host.Outcome State Fault Refusal :=
  runGuarded (.lackp f) f (fun e _ _ => do
    let a ← laOf e f
    putLa e f (a.push a.sum)
    return 0#6) s

/-- LAEST (R226-R228). -/
def execLaest (f : Fields) (s : State) : Host.Outcome State Fault Refusal :=
  runGuarded (.laest f) f (fun e _ _ => do
    let a ← laOf e f
    let r := a.estimate
    let est : W64 := BitVec.ofNat 64 r.1
    let st := bitN (a.converged r.1) + 2 * bitN a.stagnant + 4 * bitN r.2.2 + 8 * bitN r.2.1 + 16 * a.hist.length
    putLa e f { a with prev := some est, status := BitVec.ofNat 32 st }
    deliver e .la f (wordsOf true est)
    return 0#6) s

/-- R229: a selected value. -/
def LimAcc.sel (a : LimAcc) (b : Nat) : W64 :=
  match b with
  | 0 => a.sum
  | 1 => a.count
  | 10 => a.prev.getD 0#64
  | 11 => a.tol
  | n => a.hist.getD (n - 2) 0#64

/-- LAGET (R229). -/
def execLaget (f : Fields) (s : State) : Host.Outcome State Fault Refusal :=
  runGuarded (.laget f) f (fun e _ x => do
    let a ← laOf e f
    if 11 < x.b32.toNat then illegalOperand
    else
      deliver e .la f (wordsOf true (a.sel x.b32.toNat))
      return 0#6) s

/-- LASTAT (R229). -/
def execLastat (f : Fields) (s : State) : Host.Outcome State Fault Refusal :=
  runGuarded (.lastat f) f (fun e _ _ => do
    let a ← laOf e f
    deliver e .la f [a.status]
    return 0#6) s

end Sys2Proof.Machine
end

