-- ==== Sys2Proof/Machine/Pages.lean ====
section
/-! DEFINITION. Page commands (R375, R376): replays wake those that wait for a translation, invalidations drop cached
entries. Commands of a register set start in the order of their writes; its oldest is the one that may execute. -/
namespace Sys2Proof.Machine

/-! ## Waiters (R374) -/

/-- A change of a waiting translation: `p` selects those it wakes. -/
def FaultWait.wakeIf (p : FaultWait → Bool) (f : FaultWait) : FaultWait := if p f then { f with woken := true } else f

/-- Wakes a thread that waits for a replay: it walks again. -/
def Thread.wakeIf (p : FaultWait → Bool) (now : Nat) (th : Thread) : Thread :=
  match th.wait with
  | .replay f => if th.live && p f then { th.again now with retry := true } else th
  | _ => th

/-- Wakes a group's waiters: threads, hart, its start. -/
def Group.wakeIf (p : FaultWait → Bool) (now : Nat) (g : Group) : Group :=
  { g with
    threads := mmap (fun _ th => th.wakeIf p now) g.threads
    hart := match g.hart.status with
      | .waiting f => { g.hart with status := .waiting (f.wakeIf p) }
      | _ => g.hart
    stall := g.stall.map (FaultWait.wakeIf p) }

/-- Wakes the waiters of a context that satisfy `p`. -/
def wakeCtx (s : State) (cid : Nat) (p : FaultWait → Bool) : State :=
  let mine (gid : Nat) : Bool := match s.group gid with | some g => g.cid == cid | none => false
  let s' := { s with
    groups := mmap (fun _ g => if g.cid = cid then g.wakeIf p (readyNow s g) else g) s.groups
    ops := mmap (fun _ o => if o.cid = cid then { o with stall := o.stall.map (FaultWait.wakeIf p) } else o) s.ops
    mxops := mmap (fun _ o => if mine o.gid then { o with stall := o.stall.map (FaultWait.wakeIf p) } else o) s.mxops }
  let c := s'.ctx cid
  s'.setCtx cid { c with queues := mmap (fun _ q => { q with stall := q.stall.map (FaultWait.wakeIf p) }) c.queues }

/-- The translations that a context waits for. -/
def ctxWaits (s : State) (cid : Nat) : List FaultWait :=
  let gs := s.groups.filter (fun e => e.2.cid == cid)
  gs.flatMap (fun e =>
    e.2.threads.filterMap (fun t => match t.2.wait with | .replay f => if t.2.live then some f else none | _ => none) ++
      (match e.2.hart.status with | .waiting f => [f] | _ => []) ++ e.2.stall.toList) ++
  (s.ops.filter (fun e => e.2.cid == cid)).filterMap (fun e => e.2.stall) ++
  (s.mxops.filter (fun e => gs.any (fun g => g.1 == e.2.gid))).filterMap (fun e => e.2.stall) ++
  (s.ctx cid).queues.filterMap (fun e => e.2.stall)

/-- Whether a woken waiter of a context has not walked again yet. One of an evicted group walks when it is restored (R374), a
queue when its context is active again. -/
def wokenLeft (s : State) (cid : Nat) : Bool :=
  s.groups.any (fun e => e.2.cid == cid &&
      (e.2.threads.any (fun t => t.2.live && t.2.retry) ||
        (match e.2.hart.status with | .waiting f => f.woken | _ => false) || e.2.stall.any (fun f => f.woken))) ||
    s.ops.any (fun e => e.2.cid == cid && e.2.stall.any (fun f => f.woken)) ||
    s.mxops.any (fun e => (match s.group e.2.gid with | some g => g.cid == cid | none => false) && e.2.stall.any (fun f => f.woken)) ||
    (s.ctx cid).queues.any (fun e => e.2.en && e.2.stall.any (fun f => f.woken))

/-! ## Commands -/

/-- The partition's contexts. -/
def partCtxs (s : State) (vf : Nat) : List Nat := (s.ctxs.filter (fun e => vfOf e.1 == vf)).map (·.1)

/-- The oldest command of a register set, if it is the one named. -/
def pgHead (s : State) (cid : Nat) (code : BitVec 8) : Option PgCmd :=
  match (s.ctx cid).pgq with
  | [] => none
  | c :: _ => if c.code = code then some c else none

/-- The oldest command of a register set is complete. -/
def pgDone (s : State) (cid : Nat) : State := s.setCtx cid { s.ctx cid with pgq := (s.ctx cid).pgq.drop 1 }

/-- R375: a woken waiter walks again from `ptroot`: no cached entry, leaf or not, covers its address any more. -/
def dropFor (s : State) (cid : Nat) (l : List FaultWait) : State :=
  tlbDrop s (fun c va size => c == cid && l.any (fun f => decide (va ≤ f.va.toNat / 65536) && decide (f.va.toNat / 65536 < va + size)))

/-- A replay: it wakes the waiters of `targets` that satisfy `p` once no record of theirs waits for room, and completes when
every one of them has started its walk. -/
def runReplay (code : BitVec 8) (targets : State → Nat → PgCmd → List Nat) (p : PgCmd → FaultWait → Bool) (cid : Nat)
    (s : State) : Host.Outcome State Fault Refusal :=
  match pgHead s cid code with
  | none => .next s
  | some c =>
    let ts := targets s cid c
    if c.started then
      if ts.any (wokenLeft s) then .next s else .next (pgDone s cid)
    else if ts.any (fun t => (ctxWaits s t).any (fun f => p c f && recordWaits s t f)) then .next s
    else
      let s' := ts.foldl (fun s t => wakeCtx (dropFor s t ((ctxWaits s t).filter (p c))) t (p c)) s
      .next (s'.setCtx cid { s'.ctx cid with pgq := { c with started := true } :: (s'.ctx cid).pgq.drop 1 })

/-- The context that a command names. -/
def pgTarget (cid : Nat) (c : PgCmd) : Nat := ctxId (vfOf cid) c.ctx

/-- How many bytes of memory an update changes. -/
def MItem.size : MItem → Nat
  | .write bs => bs.length
  | .redI .. => 4
  | .redF .. => 4
  | .wadd .. => 16
  | _ => 0

/-- The virtual granules of an update of memory. -/
def MRec.granules (r : MRec) : List Nat :=
  if r.item.size = 0 then []
  else upFrom (r.va.toNat / 65536) ((r.va.toNat + r.item.size - 1) / 65536 - r.va.toNat / 65536 + 1)

/-- Whether an update of a context's tasks, made before slot execution `mark` in granules that satisfy `p`, has not performed:
at levels 1 and 2 a write performs when it merges (R267, R273). -/
def unmerged (s : State) (cid mark : Nat) (p : Nat → Bool) : Bool :=
  s.groups.any (fun e => e.2.cid == cid && e.2.pendW.any (fun r => decide (r.po < mark) && r.granules.any p))

/-- The granules that the cached entries of a predicate cover, as (first, count). -/
def tlbSpan (s : State) (p : Nat → Nat → Nat → Bool) : List (Nat × Nat) :=
  ((s.cores.flatMap (fun c => c.2.tlb) ++ s.dies.flatMap (fun d => d.2.tlb ++ d.2.tensorTlb)).filter
    (fun e => p e.cid e.va e.size)).map (fun e => (e.va, e.size))

/-- R378: the pages of contexts at the open level whose translations a command drops leave their frames. -/
def leavePages (s : State) (ts : List Nat) (p : Nat → Nat → Bool) : State :=
  ts.foldl (fun s t =>
    if s.level t ≠ 0 then s else (s.ctx t).frames.foldl (fun s x => if p t x.1 then s.leavePage t x.1 else s) s) s

/-- A command that drops cached translations. Accesses are whole steps: those that used one have performed, but for queued
updates of `target`, which the command awaits. -/
def runInval (code : BitVec 8) (target : Nat → PgCmd → Option Nat) (p : Nat → PgCmd → Nat → Nat → Nat → Bool) (cid : Nat)
    (s : State) : Host.Outcome State Fault Refusal :=
  match pgHead s cid code with
  | none => .next s
  | some c =>
    let waits (s : State) (c : PgCmd) : Bool := match target cid c with
      | some t => unmerged s t c.mark
          (fun g => p cid c t g 1 || c.span.any (fun x => decide (x.1 ≤ g) && decide (g < x.1 + x.2)))
      | none => false
    if c.started then if waits s c then .next s else .next (pgDone s cid)
    else
      let c := { c with started := true, span := tlbSpan s (p cid c), mark := s.nextInst }
      let ts := match target cid c with | some t => [t] | none => partCtxs s (vfOf cid)
      let s := leavePages (tlbDrop s (p cid c)) ts (fun t g => p cid c t g 1)
      if waits s c then .next (s.setCtx cid { s.ctx cid with pgq := c :: (s.ctx cid).pgq.drop 1 }) else .next (pgDone s cid)

/-- Whether a waiter's address lies in the granule of a command. -/
def inGranule (c : PgCmd) (a : Nat) : Bool := a / 65536 == c.arg.toNat / 65536

/-- REPLAY (R375): the waiters of the context whose virtual address lies in the granule; those that stage 2 refused wait
for RREPLAY (R374). -/
def execReplay (cid : Nat) (s : State) : Host.Outcome State Fault Refusal :=
  runReplay 1#8 (fun _ cid c => [pgTarget cid c]) (fun c f => f.ipa.isNone && inGranule c f.va.toNat) cid s

/-- REPLAYALL (R375). -/
def execReplayall (cid : Nat) (s : State) : Host.Outcome State Fault Refusal :=
  runReplay 2#8 (fun _ cid c => [pgTarget cid c]) (fun _ f => f.ipa.isNone) cid s

/-- INVAL (R375): an entry that covers the granule is dropped whole. -/
def execInval (cid : Nat) (s : State) : Host.Outcome State Fault Refusal :=
  runInval 3#8 (fun cid c => some (pgTarget cid c)) (fun cid c t va size => t == pgTarget cid c &&
    decide (va ≤ c.arg.toNat / 65536) && decide (c.arg.toNat / 65536 < va + size)) cid s

/-- INVALALL (R375). -/
def execInvalall (cid : Nat) (s : State) : Host.Outcome State Fault Refusal :=
  runInval 4#8 (fun cid c => some (pgTarget cid c)) (fun cid c t _ _ => t == pgTarget cid c) cid s

/-- RREPLAY (R375): the waiters of the partition whose intermediate address lies in the granule. -/
def execRreplay (cid : Nat) (s : State) : Host.Outcome State Fault Refusal :=
  runReplay 5#8 (fun s cid _ => partCtxs s (vfOf cid))
    (fun c f => match f.ipa with | some a => inGranule c a | none => false) cid s

/-- RREPLAYALL (R375). -/
def execRreplayall (cid : Nat) (s : State) : Host.Outcome State Fault Refusal :=
  runReplay 6#8 (fun s cid _ => partCtxs s (vfOf cid)) (fun _ f => f.ipa.isSome) cid s

/-- RSYNC (R375): no translation is in progress between steps. -/
def execRsync (cid : Nat) (s : State) : Host.Outcome State Fault Refusal :=
  runInval 7#8 (fun _ _ => none) (fun cid _ t _ _ => vfOf t == vfOf cid) cid s

/-! ## Writes of PGCMD -/

/-- Whether a code of a page command is defined. -/
def pgDefined (code : BitVec 8) : Bool := decide (1 ≤ code.toNat) && decide (code.toNat ≤ 7)

/-- PGCMD_DISCARD (R375): a write that finds 64 commands pending, or whose code is undefined, is discarded and flagged. -/
def execPgcmdDiscard (cid : Nat) (v : W64) (s : State) : Host.Outcome State Fault Refusal :=
  let c := s.ctx cid
  if 64 ≤ c.pgq.length then .next (s.setCtx cid { c with pglost := true })
  else if !pgDefined (v.setWidth 8) then .next (s.setCtx cid { c with pgbad := true })
  else .next s

/-- A write of PGCMD (R375): the command joins the queue with the PGARG of this moment. -/
def writePgcmd (cid : Nat) (v : W64) (s : State) : Host.Outcome State Fault Refusal :=
  let c := s.ctx cid
  if 64 ≤ c.pgq.length ∨ pgDefined (v.setWidth 8) = false then execPgcmdDiscard cid v s
  else
    let x : PgCmd := { code := v.setWidth 8, ctx := v.extractLsb' 16 4, rel := v.getLsbD 8, arg := c.parg, started := false,
                        span := [], mark := 0 }
    .next (s.setCtx cid { c with pgq := c.pgq ++ [x] })

end Sys2Proof.Machine
end

