-- ==== Sys2Proof/Machine/Registers.lean ====
section
/-! DEFINITION. Writes of system and control registers (R5, R6): partitions (R294-R297), fault queues (R304, R305), range
entries (R368), communicators (R389, R390), queues (R311), power (R23), virtual functions (R388, R392), ETHCFG (R395). -/
namespace Sys2Proof.Machine

/-! ## Partitions (R294-R296) -/

/-- Whether a virtual function has a partition: one without quadrants cannot exist. -/
def State.hasPart (s : State) (vf : Nat) : Bool := (s.part vf).qmask != 0#16

/-- PARTCFG's `wt` as held (R295): 0 counts as 1, more than 64 as 64. -/
def clampWt (w : BitVec 8) : BitVec 8 := if w = 0#8 then 1#8 else if 64 < w.toNat then 64#8 else w

/-- Whether quadrants are free for a partition. -/
def quadsFree (s : State) (vf : Nat) (m : BitVec 16) : Bool := s.parts.all (fun e => e.1 == vf || e.2.qmask &&& m == 0#16)

/-- PARTCFG_WRITE (R295): a mask that would leave the partition without quadrants, or take another's, is not written. -/
def execPartcfgWrite (vf : Nat) (v : W64) (s : State) : Host.Outcome State Fault Refusal :=
  let m : BitVec 16 := v.setWidth 16
  if s.hasPart vf && m != 0#16 && quadsFree s vf m then
    .next (s.setPart vf { s.part vf with wt := clampWt (v.extractLsb' 16 8), qmask := m })
  else .next s

/-- PARTITION_CREATE (R294, R295, R305): its registers are at their reset values; those of the virtual function itself stay
(R388, R392). -/
def execPartitionCreate (vf : Nat) (cfg : W64) (s : State) : Host.Outcome State Fault Refusal :=
  let m : BitVec 16 := cfg.setWidth 16
  let p := s.part vf
  if vf < 64 ∧ s.hasPart vf = false ∧ m ≠ 0#16 ∧ quadsFree s vf m = true then
    .next (s.setPart vf { Partition.fresh with
      wt := clampWt (cfg.extractLsb' 16 8), qmask := m, own := p.own, ownEn := p.ownEn, link := p.link,
      tok := p.tok, burst := p.burst, rate := p.rate, rlEn := p.rlEn })
  else .next s

/-- Whether every context of a partition is free. -/
def ctxsFree (s : State) (vf : Nat) : Bool := s.ctxs.all (fun e => vfOf e.1 != vf || e.2.st == .free)

/-- PARTITION_DESTROY (R296): a partition whose contexts are all free ends, and DETMODE `lock` with it. -/
def execPartitionDestroy (vf : Nat) (s : State) : Host.Outcome State Fault Refusal :=
  let p := s.part vf
  if s.hasPart vf && ctxsFree s vf then
    .next (s.setPart vf { Partition.fresh with
      own := p.own, ownEn := p.ownEn, link := p.link, tok := p.tok, burst := p.burst, rate := p.rate, rlEn := p.rlEn })
  else .next s

/-- DETMODE_WRITE (R296): ignored while `lock` is set; `lock` itself is set by the K7 only. -/
def execDetmodeWrite (vf : Nat) (v : W32) (s : State) : Host.Outcome State Fault Refusal :=
  if s.hasPart vf && !(s.part vf).lock then .next (s.setPart vf { s.part vf with level := v.setWidth 2 }) else .next s

/-! ## Power (R23, R24) -/

/-- `size` as held: 0 counts as 1, more than 64 as 64. -/
def clampSize (n : BitVec 16) : BitVec 16 := if n = 0#16 then 1#16 else if 64 < n.toNat then 64#16 else n

/-- PWRPOOL_WRITE (R23): `inuse` is read only; tokens already held are kept. -/
def execPwrpoolWrite (die : Nat) (v : W64) (s : State) : Host.Outcome State Fault Refusal :=
  if die < 4 then
    .next (s.setDie die { s.die die with limit := v.extractLsb' 32 16, size := clampSize (v.setWidth 16) })
  else .next s

/-! ## Fault queues (R304, R305) -/

/-- Whether PFQCTL and PFQBASE let the queue be enabled. -/
def pfqReady (base : BitVec 56) (l : BitVec 5) : Bool :=
  base.toNat % 64 == 0 && decide (4 ≤ l.toNat) && decide (l.toNat ≤ 16)

/-- PFQ_ENABLE (R305): a write of PFQCTL with `en` = 1. -/
def execPfqEnable (vf : Nat) (v : W64) (s : State) : Host.Outcome State Fault Refusal :=
  let p := s.part vf
  if s.hasPart vf && v.getLsbD 5 && !p.pfqEn then
    let l : BitVec 5 := v.setWidth 5
    .next (s.setPart vf { p with lpfq := l, pfqEn := pfqReady p.pfqb l })
  else .next s

/-- A write of PFQCTL with `en` = 0: `lpfq` takes effect only where the queue was disabled. -/
def pfqDisable (vf : Nat) (v : W64) (s : State) : State :=
  let p := s.part vf
  s.setPart vf { p with lpfq := if p.pfqEn then p.lpfq else v.setWidth 5, pfqEn := false }

/-- PFQCONS_WRITE (R305). -/
def execPfqconsWrite (vf : Nat) (v : W64) (s : State) : Host.Outcome State Fault Refusal :=
  if s.hasPart vf then .next (s.setPart vf { s.part vf with pcons := v.setWidth 32 }) else .next s

/-- FQCONS_WRITE (R304). -/
def execFqconsWrite (cid : Nat) (v : W32) (s : State) : Host.Outcome State Fault Refusal :=
  if s.hasCtx cid then .next (s.setCtx cid { s.ctx cid with fqcons := v }) else .next s

/-- FAULT_RECORD_DEFERRED (R304, R305): the oldest record that waits is written when there is room, with `late` = 1. -/
def execFaultRecordDeferred (partition : Bool) (id : Nat) (s : State) : Host.Outcome State Fault Refusal :=
  if partition then
    match (s.part id).prWait with
    | [] => .next s
    | r :: rest => match pfqPut s id { r with late := true } with
      | none => .next s
      | some s' => .next (s'.setPart id { s'.part id with prWait := rest })
  else
    match (s.ctx id).fqWait with
    | [] => .next s
    | r :: rest => match fqPut s id { r with late := true } with
      | none => .next s
      | some s' => .next (s'.setCtx id { s'.ctx id with fqWait := rest })

/-! ## Entries of the control page (R368, R388-R390) -/

/-- A range entry as its bits say (R368). -/
def rangeOf (v : BitVec 256) : RangeEntry :=
  { base := v.extractLsb' 64 40, lim := v.extractLsb' 128 40, off := v.extractLsb' 192 40,
    x := v.getLsbD 3, w := v.getLsbD 2, r := v.getLsbD 1, en := v.getLsbD 0 }

/-- RANGE_ENTRY_WRITE (R368): translations that begin later see it; cached ones stay until RSYNC. -/
def execRangeEntryWrite (vf n : Nat) (v : BitVec 256) (s : State) : Host.Outcome State Fault Refusal :=
  if s.hasPart vf && decide (n < 48) then
    .next (s.setPart vf { s.part vf with ranges := mset (s.part vf).ranges n (rangeOf v) })
  else .next s

/-- VFOWN_WRITE (R388, R426): with `en` = 1 the two devices agree a link key. -/
def execVfownWrite (vf : Nat) (v : W64) (s : State) : Host.Outcome State Fault Refusal :=
  if vf < 64 then
    let own : BitVec 12 := v.setWidth 12
    let en := v.getLsbD 12
    .next ({ s with tick := s.tick + 1 }.setPart vf { s.part vf with
      own := own, ownEn := en, link := if en then Config.linkKey s.tick own else (s.part vf).link })
  else .next s

/-- R390: the route table as the collective engine reads it; a table that cannot be read is an invalid one. -/
def readRoute (s : State) (vf rtab np : Nat) : List W64 :=
  match ipaRead s vf rtab (8 * np) with
  | some bs => (upFrom 0 np).map (fun i => BitVec.ofNat 64 (leNat ((bs.drop (8 * i)).take 8)))
  | none => [0#64]

/-! ## Failed links (R391) -/

/-- The operations in progress of a communicator end with an error. -/
def endCommOps (s : State) (vf n : Nat) (e : CommEntry) : State :=
  s.ops.foldl (fun st x =>
    match x.2.kind.collOf with
    | none => st
    | some (d, rank, call) =>
      if vfOf x.2.cid = vf ∧ x.2.cid % 16 = e.ctx.toNat ∧ cdComm d = e.comm.toNat ∧ x.2.err = none ∧ x.2.done = [] then
        endColl st x.1 x.2 (st.callOf vf n call) rank e.nloc.toNat (some .communicator)
      else st) s

/-- R391: one communicator of a partition whose route uses a failed link. -/
def failComm (s : State) (vf n : Nat) (e : CommEntry) : State :=
  let s := endCommOps s vf n e
  let s := s.setPart vf { s.part vf with comms := mset (s.part vf).comms n { e with en := false, fail := true } }
  ctxLevel s (16 * vf + e.ctx.toNat) .communicator 0#64 0#32 false

/-- Whether an entry's route uses a fabric port: one of the bundles, at the entry's place in each. -/
def usesPort (port : Nat) (w : W64) : Bool :=
  !w.getLsbD 62 && (w.extractLsb' 19 4).toNat == port % 10 && decide (port < 60) && Config.routeUses w port

/-- Whether an entry's route uses a connection of an Ethernet port. -/
def usesConn (port conn : Nat) (w : W64) : Bool := ethRouteUses w port conn

/-- Whether a route uses a port or a connection that has failed. -/
def routeFailed (s : State) (route : List W64) : Bool :=
  s.ports.any (fun p => p.2.st == .failed && route.any (usesPort p.1)) ||
    s.eth.any (fun p => p.2.conns.any (fun c => !c.2.up && route.any (usesConn p.1 c.1)))

/-- A write of a communicator entry (R389, R390); `en` says that it writes that field. Writing `en` clears `fail`, and with `en`
= 1 the route table is read. Calls go on being counted (R391) for the same communicator; another's begin anew. One that is
enabled over a failed link, where routes are followed, fails at once (R391). -/
def commWrite (vf n : Nat) (v : BitVec 128) (writesEn : Bool) (s : State) : State :=
  let old := mgetD (s.part vf).comms n CommEntry.zero
  let rtab : BitVec 56 := v.extractLsb' 64 56
  let np : BitVec 16 := v.extractLsb' 16 16
  let en := v.getLsbD 0
  let same := old.ctx == v.extractLsb' 120 4 && old.comm == v.extractLsb' 4 12
  let e : CommEntry :=
    { ctx := v.extractLsb' 120 4, rtab := rtab, nloc := v.extractLsb' 48 16, rbase := v.extractLsb' 32 16, np := np,
      comm := v.extractLsb' 4 12, fail := old.fail && !writesEn, en := en,
      route := if en && writesEn then readRoute s vf rtab.toNat np.toNat else old.route
      calls := if same then old.calls else [] }
  let s := s.setPart vf { s.part vf with comms := mset (s.part vf).comms n e }
  let s := { s with calls := if same then s.calls else s.calls.filter (fun c => !(c.vf == vf && c.entry == n)) }
  if en && writesEn && (s.part vf).level != 0#2 && routeFailed s e.route then failComm s vf n e else s

/-- COMM_ENTRY_WRITE (R389, R390). -/
def execCommEntryWrite (vf n : Nat) (v : BitVec 128) (s : State) : Host.Outcome State Fault Refusal :=
  .next (if s.hasPart vf && decide (n < 64) then commWrite vf n v true s else s)

/-! ## Registers without behaviour of their own -/

/-- A write of CTXCMD (R297): it starts a command with the CTXARG of this moment, unless one is executing. -/
def writeCtxcmd (vf : Nat) (v : W64) (s : State) : State :=
  let p := s.part vf
  match p.cmd with
  | some _ => s
  | none =>
    let c : CtxCmd :=
      { cmd := v.setWidth 8, ctx := v.extractLsb' 8 4, res := p.argRes || v.extractLsb' 12 52 != 0#52, arg := p.arg }
    s.setPart vf { p with cmd := some c }

/-- A write of CTXARG (R297). -/
def writeCtxarg (vf : Nat) (v : W64) (s : State) : State :=
  let p := s.part vf
  match p.cmd with
  | some _ => s
  | none => s.setPart vf { p with arg := v.setWidth 56, argRes := v.extractLsb' 56 8 != 0#8 }

/-- A write of QCTL (R311): `lqlen` and `prio` while disabled, then `skip`, then `en`. -/
def Queue.writeCtl (u : Queue) (v : W64) : Queue :=
  let u := if u.en then u else { u with lqlen := v.extractLsb' 8 4, prio := v.extractLsb' 4 2 }
  let u := if v.getLsbD 1 then u.skip else u
  if v.getLsbD 0 then u.enable else u.disable

/-- An entry of a decode-table bank as held (R399): reserved bits read as zero, kind 3 as 2. -/
def bankWord (v : W64) : W32 :=
  let w : W32 := v.setWidth 32 &&& 0xF80FFFFF#32
  if w.extractLsb' 30 2 = 3#2 then w &&& 0xBFFFFFFF#32 else w

/-- The contexts bound to a bank of a die: those of the partitions that use the die (R302, R400). -/
def nbound (s : State) (die n : Nat) : Nat :=
  s.ctxs.countP (fun e => e.2.st != .free && e.2.bank.toNat == n && (s.part (vfOf e.1)).qmask.extractLsb' (4 * die) 4 != 0#4)

/-- BANKINFO as it reads (R400). -/
def Bank.info (b : Bank) (bound : Nat) : Nat :=
  b.feat.toNat + b.nkept.toNat * 2 ^ 32 + bound % 256 * 2 ^ 40 + b.gen.toNat * 2 ^ 48

/-- An expansion of a bank's store. -/
def Bank.expansion (b : Bank) (i : Nat) : List Byte := (mget b.store i).getD (Config.expansion i)

/-- What BH_n is the hash of (R421): the entries, BANKINFO and BANKERR, the expansions that `xidx` and `xidx` + 1 reach. -/
def Bank.bytes (b : Bank) : List Byte :=
  (upFrom 0 4096).flatMap (fun op => leBytes 4 (b.entry op).toNat) ++ leBytes 8 (b.info 0) ++
    (upFrom 0 7).flatMap (fun i => leBytes 4 (b.errs.getD i 0#32).toNat) ++
    (upFrom 0 4096).flatMap (fun op => b.expansion (entryXidx (b.entry op)) ++ b.expansion (entryXidx (b.entry op) + 1))

/-- A bank with its hash. -/
def Bank.hashed (b : Bank) : Bank := { b with hash := sha512 b.bytes }

/-- A digest as 64 bytes. -/
def digestBytes (d : BitVec 512) : List Byte := leBytes 64 d.toNat

/-- Whether the package answers on the fabric: its firmware has started and it has not stopped (R420, R26). -/
def State.onFabric (s : State) : Bool := s.started && !s.dead

/-- The bank of a die. -/
def State.bankAt (s : State) (die n : Nat) : Bank := mgetD s.banks (4 * die + n) Bank.k7
def State.setBank (s : State) (die n : Nat) (b : Bank) : State := { s with banks := mset s.banks (4 * die + n) b }

/-- SHA-512(M ‖ SHA-512(image)): what an image makes of a measurement register (R420). -/
def extend (m : BitVec 512) (image : List Byte) : BitVec 512 := sha512 (digestBytes m ++ sha512Bytes image)

/-- Extends measurement register `n`. -/
def State.measure (s : State) (n : Nat) (image : List Byte) : State :=
  { s with meas := mset s.meas n (extend (mgetD s.meas n 0#512) image) }

/-- Gives every die one bank's contents, hashed, and measures them into M3 (R420, R421). -/
def loadBank (n : Nat) (b : Bank) (s : State) : State :=
  ((upFrom 0 4).foldl (fun s d => s.setBank d n b.hashed) s).measure 3 b.bytes

/-- A write of one entry through the management interface (R399): firmware's own load of the bank with that entry changed, the
same on every die, only while no context is bound (R400, R421; log 17). -/
def writeEntry (n op : Nat) (v : W64) (s : State) : State :=
  if !s.onFabric ∨ (upFrom 0 4).any (fun d => nbound s d n != 0) = true then s
  else
    let b := s.bankAt 0 n
    loadBank n { b with entries := mset b.entries op (bankWord v) } s

/-- Changes an Ethernet port (R395). -/
def State.modEth (s : State) (p : Nat) (h : EthPort → EthPort) : State :=
  if p < 16 then { s with eth := mset s.eth p (h (mgetD s.eth p EthPort.zero)) } else s

/-- REGISTER_WRITE (R5): reserved bits and read-only registers ignore the write. -/
def execRegisterWrite (r : RegName) (v : W64) (s : State) : Host.Outcome State Fault Refusal :=
  match r with
  | .ctxcmd vf => .next (if s.hasPart vf then writeCtxcmd vf v s else s)
  | .ctxarg vf => .next (if s.hasPart vf then writeCtxarg vf v s else s)
  | .ctxstat _ => .next s
  | .pfqbase vf =>
    .next (if s.hasPart vf && !(s.part vf).pfqEn then s.setPart vf { s.part vf with pfqb := v.setWidth 56 } else s)
  | .pfqctl vf =>
    if v.getLsbD 5 then execPfqEnable vf v s else .next (if s.hasPart vf then pfqDisable vf v s else s)
  | .pfqprod _ => .next s
  | .pgcmd cid => if s.hasCtx cid then writePgcmd cid v s else .next s
  | .pgarg cid => .next (if s.hasCtx cid then s.setCtx cid { s.ctx cid with parg := v.setWidth 56 } else s)
  | .pgstat cid =>
    let c := s.ctx cid
    .next (if s.hasCtx cid then
      s.setCtx cid { c with pgbad := c.pgbad && !v.getLsbD 2, pglost := c.pglost && !v.getLsbD 1 } else s)
  | .fqprod _ => .next s
  | .qbase cid q =>
    .next (if s.hasCtx cid && decide (q < 16) && !(s.queue cid q).en then
      s.modQueue cid q (fun u => { u with qbase := v.setWidth 56 }) else s)
  | .qctl cid q => .next (s.onQueue cid q (fun u => u.writeCtl v))
  | .qread _ _ => .next s
  | .qstat _ _ => .next s
  | .notifyReserved _ _ => .next s
  | .rlcfg vf =>
    .next (if vf < 64 then s.setPart vf { s.part vf with
      burst := v.extractLsb' 16 16, rate := v.extractLsb' 1 15, rlEn := v.getLsbD 0 } else s)
  | .apbase cid => .next (if s.hasCtx cid then s.setCtx cid { s.ctx cid with ap := v.extractLsb' 32 24 } else s)
  | .ethMac p => .next (s.modEth p (fun x => { x with mac := v.setWidth 48 }))
  | .ethIp p => .next (s.modEth p (fun x => { x with ip := x.ip.extractLsb' 64 64 ++ v }))
  | .ethIpHi p => .next (s.modEth p (fun x => { x with ip := v ++ x.ip.extractLsb' 0 64 }))
  | .ethUdp p => .next (s.modEth p (fun x => { x with udp := v.setWidth 16 }))
  | .epid => .next s
  | .portstat _ => .next s
  | .meas _ => .next s
  | .bankEntry die n op => .next (if die < 4 ∧ n < 4 ∧ op < 0xF00 then writeEntry n op v s else s)
  | .bankinfo _ _ => .next s
  | .bankerr _ _ _ => .next s
  | .pwrpool die => execPwrpoolWrite die v s
  | .vfown vf => execVfownWrite vf v s
  | .partcfg vf => execPartcfgWrite vf v s
  | .detmode vf => execDetmodeWrite vf (v.setWidth 32) s

end Sys2Proof.Machine
end

