-- ==== Sys2Proof/Machine/Link.lean ====
section
/-! DEFINITION. The Shogar fabric and Ethernet as the K7 meets them (R382-R395): ports, received packets and the window, rate
limiting, failed links, the reliable transport. -/
namespace Sys2Proof.Machine

/-! ## Checks -/

/-- One bit of a CRC-32C. -/
def crcBit (c : W32) : W32 := if c.getLsbD 0 then (c >>> 1) ^^^ 0x82F63B78#32 else c >>> 1

/-- One byte of a CRC-32C. -/
def crcByte (c : W32) (b : Byte) : W32 := (upFrom 0 8).foldl (fun c _ => crcBit c) (c ^^^ b.setWidth 32)

/-- The CRC-32C of bytes (R383, R394). -/
def crc32c (bs : List Byte) : W32 := ~~~(bs.foldl crcByte 0xFFFFFFFF#32)

/-! ## Sending -/

/-- A packet of the K7, numbered after its earlier ones to its destination (R383). -/
def sendPacket (s : State) (ptyp : BitVec 4) (cls : BitVec 2) (dst : BitVec 15) (vf : BitVec 6) (addr : BitVec 56)
    (data : List Byte) : State :=
  let n := s.outbox.countP (fun p => p.dst == dst && p.src == s.epid.setWidth 15)
  let p : FabricPacket :=
    { e2e := crc32c data, tag := BitVec.ofNat 16 n, addr := addr, vf := vf, ptyp := ptyp,
      nfl := BitVec.ofNat 4 ((data.length + 31) / 32), cls := cls, src := s.epid.setWidth 15, dst := dst, res := 0#42,
      aux := 0#64, data := data, sealOk := true }
  { s with outbox := s.outbox ++ [p] }

/-- R392: bytes of a reply leave for a virtual function: they are never held, and `tok` may go below zero, to -2^31. -/
def chargeTokens (s : State) (vf n : Nat) : State := s.setPart vf ((s.part vf).spend n)

/-- A reply to a request that named the window of a virtual function. -/
def reply (s : State) (p : FabricPacket) (vf : Nat) (ptyp : BitVec 4) (data : List Byte) : State :=
  sendPacket (chargeTokens s vf data.length) ptyp 1#2 p.src p.vf p.addr data

/-! ## The window (R387) -/

/-- What a fabric address names. -/
inductive Place387 where
  | notify (cid off : Nat)
  | control (vf off : Nat)
  | aperture (cid off : Nat)
  | nothing
  deriving DecidableEq, Repr

/-- R387: the layout of the window. -/
def windowAt (addr : Nat) : Place387 :=
  if 2 ^ 43 ≤ addr then .nothing
  else if 2 ^ 42 ≤ addr then .aperture ((addr - 2 ^ 42) / 2 ^ 32) (addr % 2 ^ 32)
  else if 2 ^ 36 ≤ addr ∧ addr < 2 ^ 36 + 2 ^ 26 then .control ((addr - 2 ^ 36) / 2 ^ 20) (addr % 2 ^ 20)
  else if addr < 2 ^ 26 then .notify (addr / 2 ^ 20 * 16 + addr / 2 ^ 16 % 16) (addr % 2 ^ 16)
  else .nothing

/-- The virtual function of a place. -/
def Place387.vf : Place387 → Option Nat
  | .notify cid _ => some (vfOf cid)
  | .control vf _ => some vf
  | .aperture cid _ => some (vfOf cid)
  | .nothing => none

/-- The state of a queue as a number (R319). -/
def QState.num : QState → Nat
  | .disabled => 0 | .idle => 1 | .fetching => 2 | .waiting => 3 | .halted => 4

/-- A register of a notify page as it reads (R311). -/
def notifyRead (s : State) (cid off : Nat) : W64 :=
  let q := off / 64
  let u := s.queue cid q
  if 16 ≤ q then 0#64
  else match off % 64 with
    | 0x00 => u.qbase.setWidth 64
    | 0x08 => BitVec.ofNat 64 (u.lqlen.toNat * 256 + u.prio.toNat * 16 + bitN u.en)
    | 0x18 => u.ridx.setWidth 64
    | 0x20 => BitVec.ofNat 64 (u.eidx.toNat * 2 ^ 32 + u.err.toNat * 256 + u.st.num)
    | _ => 0#64

/-- R383: the bytes of a write, those that its mask does not select as `old` has them: bit i of `aux` is byte i; bytes past
the mask are all written. -/
def maskInto (aux : W64) (old data : List Byte) : List Byte :=
  ((upFrom 0 data.length).zip data).map (fun x => if 64 ≤ x.1 ∨ aux.getLsbD x.1 = true then x.2 else old.getD x.1 0#8)

/-- Whether a mask selects one of `n` bytes of a write from byte `i`. -/
def masksAny (aux : W64) (data : List Byte) (i n : Nat) : Bool :=
  (upFrom i n).any (fun i => decide (i < data.length) && (decide (64 ≤ i) || aux.getLsbD i))

/-- A write to a notify page (R311, R313). -/
def notifyWrite (s : State) (cid off : Nat) (v : W64) : Host.Outcome State Fault Refusal :=
  let q := off / 64
  if 16 ≤ q then .next s
  else match off % 64 with
    | 0x00 => execRegisterWrite (.qbase cid q) v s
    | 0x08 => execRegisterWrite (.qctl cid q) v s
    | 0x10 => execQnotify cid q (v.setWidth 32) s
    | _ => .next s

/-- The registers of a control page (R297, R304, R305, R368, R375, R388, R389, R392), DETMODE (R296), and those that
the hypervisor may only read (R23, R295, R386, R388, R400). -/
inductive CtlReg where
  | reg (r : RegName)
  | view (r : RegName)
  | pfqcons
  | fqcons (c : Nat)
  | range (n : Nat)
  | comm (n : Nat)
  deriving DecidableEq, Repr

/-- The numbers that the model gives the registers of a partition's page. -/
def CtlReg.ofNum (vf n : Nat) : CtlReg :=
  if n = 0 then .reg (.ctxcmd vf) else if n = 1 then .reg (.ctxarg vf) else if n = 2 then .reg (.ctxstat vf)
  else if n = 3 then .reg (.pfqbase vf) else if n = 4 then .reg (.pfqctl vf) else if n = 5 then .reg (.pfqprod vf)
  else if n = 6 then .pfqcons else if n = 7 then .reg (.rlcfg vf)
  else if n < 32 then .fqcons (n % 16)
  else if n < 48 then .reg (.fqprod (16 * vf + n % 16))
  else if n < 64 then .reg (.pgcmd (16 * vf + n % 16))
  else if n < 80 then .reg (.pgarg (16 * vf + n % 16))
  else if n < 96 then .reg (.pgstat (16 * vf + n % 16))
  else if n < 112 then .reg (.apbase (16 * vf + n % 16))
  else if n < 160 then .range (n - 112)
  else if n < 224 then .comm (n - 160)
  else if n < 288 then .view (.portstat (n - 224))
  else if n < 304 then .view (.bankinfo ((n - 288) / 4) (n % 4))
  else if n < 416 then .view (.bankerr ((n - 304) / 28) ((n - 304) / 7 % 4) ((n - 304) % 7))
  else if n < 420 then .view (.pwrpool (n - 416))
  else if n = 420 then .view (.vfown vf)
  else if n = 421 then .view (.partcfg vf)
  else if n = 422 then .reg (.detmode vf)
  else .view .epid

/-- A range entry as it reads. -/
def RangeEntry.bits (e : RangeEntry) : Nat :=
  bitN e.en + 2 * bitN e.r + 4 * bitN e.w + 8 * bitN e.x + e.base.toNat * 2 ^ 64 + e.lim.toNat * 2 ^ 128 +
    e.off.toNat * 2 ^ 192

/-- A communicator entry as it reads. -/
def CommEntry.bits (e : CommEntry) : Nat :=
  bitN e.en + 2 * bitN e.fail + 16 * e.comm.toNat + e.np.toNat * 2 ^ 16 + e.rbase.toNat * 2 ^ 32 + e.nloc.toNat * 2 ^ 48 +
    e.rtab.toNat * 2 ^ 64 + e.ctx.toNat * 2 ^ 120

/-- PARTCFG as it reads (R295). -/
def pcfgOf (p : Partition) : Nat := p.qmask.toNat + p.wt.toNat * 2 ^ 16
/-- DETMODE as it reads (R296). -/
def detmOf (p : Partition) : Nat := p.level.toNat + 4 * bitN p.lock

/-- What a register reads, as bits (R5: write-only fields read zero). -/
def regRead (s : State) (r : RegName) : Nat :=
  match r with
  | .ctxcmd _ => 0
  | .ctxarg vf => (s.part vf).arg.toNat
  | .ctxstat vf =>
    let p := s.part vf
    bitN p.cmd.isSome + 256 * p.st.toNat + p.ilen.toNat * 2 ^ 32
  | .pfqbase vf => (s.part vf).pfqb.toNat
  | .pfqctl vf => (s.part vf).lpfq.toNat + 32 * bitN (s.part vf).pfqEn
  | .pfqprod vf => (s.part vf).pprod.toNat
  | .pgcmd _ => 0
  | .pgarg cid => (s.ctx cid).parg.toNat
  | .pgstat cid =>
    let c := s.ctx cid
    bitN (c.pgq != []) + 2 * bitN c.pglost + 4 * bitN c.pgbad + 256 * c.pgq.length
  | .fqprod cid => (s.ctx cid).fqprod.toNat
  | .qbase cid q => (notifyRead s cid (64 * q)).toNat
  | .qctl cid q => (notifyRead s cid (64 * q + 0x08)).toNat
  | .qread cid q => (notifyRead s cid (64 * q + 0x18)).toNat
  | .qstat cid q => (notifyRead s cid (64 * q + 0x20)).toNat
  | .notifyReserved _ _ => 0
  | .rlcfg vf =>
    let p := s.part vf
    bitN p.rlEn + 2 * p.rate.toNat + p.burst.toNat * 2 ^ 16 + (p.tok % 2 ^ 32).toNat * 2 ^ 32
  | .apbase cid => (s.ctx cid).ap.toNat * 2 ^ 32
  | .ethMac p => (mgetD s.eth p EthPort.zero).mac.toNat
  | .ethIp p => (mgetD s.eth p EthPort.zero).ip.toNat % 2 ^ 64
  | .ethIpHi p => (mgetD s.eth p EthPort.zero).ip.toNat / 2 ^ 64
  | .ethUdp p => (mgetD s.eth p EthPort.zero).udp.toNat
  | .epid => s.epid.toNat
  | .portstat p =>
    let x := mgetD s.ports p FabPort.zero
    (match x.st with | .down => 0 | .training => 1 | .up => 2 | .failed => 3) + x.hdr.toNat * 2 ^ 12 +
      x.rsnd.toNat * 2 ^ 32 + x.drop.toNat * 2 ^ 48
  | .meas n => (mgetD s.meas n 0#512).toNat
  | .bankEntry die n op => ((s.bankAt die n).entry op).toNat
  | .bankinfo die n => (s.bankAt die n).info (nbound s die n)
  | .bankerr die n i => ((s.bankAt die n).errs.getD i 0#32).toNat
  | .pwrpool die => (s.die die).size.toNat + (s.die die).inuse % 2 ^ 16 * 2 ^ 16 + (s.die die).limit.toNat * 2 ^ 32
  | .vfown vf => (s.part vf).own.toNat + 2 ^ 12 * bitN (s.part vf).ownEn
  | .partcfg vf => if s.hasPart vf then pcfgOf (s.part vf) else 0
  | .detmode vf => detmOf (s.part vf)

/-- A read of a control page: one flit. -/
def controlRead (s : State) (vf off : Nat) : List Byte :=
  match Config.controlReg off with
  | none => List.replicate 32 0#8
  | some n => leBytes 32 (match CtlReg.ofNum vf n with
    | .reg r => regRead s r
    | .view r => regRead s r
    | .pfqcons => (s.part vf).pcons.toNat
    | .fqcons c => (s.ctx (16 * vf + c)).fqcons.toNat
    | .range n => (mgetD (s.part vf).ranges n RangeEntry.zero).bits
    | .comm n => (mgetD (s.part vf).comms n CommEntry.zero).bits)

/-- A write to a control page, of the bytes that its mask selects; a bit that is cleared by writing 1 (R5) stays where its byte
is not written. -/
def controlWrite (s : State) (vf off : Nat) (aux : W64) (data : List Byte) : Host.Outcome State Fault Refusal :=
  match Config.controlReg off with
  | none => .next s
  | some n =>
    let r := CtlReg.ofNum vf n
    let old := match r with | .reg (.pgstat _) => [] | _ => controlRead s vf off
    let d := maskInto aux old data
    let v : W64 := BitVec.ofNat 64 (leNat (d.take 8))
    if !masksAny aux data 0 (match r with | .range _ => 32 | .comm _ => 16 | _ => 8) then .next s
    else match r with
      | .reg r => execRegisterWrite r v s
      | .view _ => .next s
      | .pfqcons => execPfqconsWrite vf v s
      | .fqcons c => execFqconsWrite (16 * vf + c) (v.setWidth 32) s
      | .range n => execRangeEntryWrite vf n (BitVec.ofNat 256 (leNat (d.take 32))) s
      | .comm n =>
        let v : BitVec 128 := BitVec.ofNat 128 (leNat (d.take 16))
        if masksAny aux data 0 1 then execCommEntryWrite vf n v s
        else .next (if s.hasPart vf && decide (n < 64) then commWrite vf n v false s else s)

/-- The registers of a notify page that a write covers, in ascending order, each with the bytes that its mask selects. -/
def notifyWrites (cid off : Nat) (aux : W64) (data : List Byte) : List Nat → State → Host.Outcome State Fault Refusal
  | [], s => .next s
  | i :: l, s =>
    if masksAny aux data (8 * i) 8 then
      let old := List.replicate (8 * i) 0#8 ++ leBytes 8 (notifyRead s cid (off + 8 * i)).toNat
      let v : W64 := BitVec.ofNat 64 (leNat (((maskInto aux old data).drop (8 * i)).take 8))
      match notifyWrite s cid (off + 8 * i) v with
      | .next s => notifyWrites cid off aux data l s
      | x => x
    else notifyWrites cid off aux data l s

/-- A write to a notify page, of the bytes that its mask selects. -/
def notifyWriteMasked (s : State) (cid off : Nat) (aux : W64) (data : List Byte) : Host.Outcome State Fault Refusal :=
  notifyWrites cid off aux data (upFrom 0 ((data.length + 7) / 8)) s

/-! ## The aperture (R387) -/

/-- The virtual address of an offset of a context's aperture. -/
def apertureVa (s : State) (cid off : Nat) : W64 := BitVec.ofNat 64 ((s.ctx cid).ap.toNat * 2 ^ 32 + off)

/-- The record of a refused access: faults are not replayed. -/
def apertureFault (s : State) (cid : Nat) (va : W64) (x : EngStop) : State :=
  match x with
  | .stall (some (false, a, i)) _ => ctxLevel s cid .translation a i false
  | .stall (some (true, a, i)) _ => partRecord s cid { FaultRec.of .range with addr := a, info := i, ctxl := true }
  | .stall none f =>
    ctxLevel s cid .translation va (match xlate s (.die (s.pktDie cid)) cid f.va f.acc with
      | .error (.moving i) => i
      | _ => xlInfo false 2#2 f.acc 3) false
  | .error c a i => ctxLevel s cid c a i false
  | .held => s
  | .limited => s

/-- A read of the aperture: zeros where it is refused. -/
def apertureRead (s : State) (cid off : Nat) : List Byte × State :=
  let zero := List.replicate 32 0#8
  let va := apertureVa s cid off
  if !s.hasCtx cid then (zero, s)
  else match procRead s cid va 32 (lim := false) with
    | .ok r => r
    | .error x => (zero, apertureFault s cid va x)

/-- The bytes of a write that its mask selects (R383): bit i of `aux` is byte i; bytes past the mask are all written. -/
def maskedBytes (aux : W64) (data : List Byte) : List (Nat × Byte) :=
  ((upFrom 0 data.length).zip data).filter (fun x => decide (64 ≤ x.1) || aux.getLsbD x.1)

/-- Writes selected bytes, each at its own address; the first refusal ends the write. -/
def apertureBytes (cid : Nat) (va : W64) : List (Nat × Byte) → State → Except EngStop State
  | [], s => .ok s
  | (i, b) :: rest, s => match procWrite s cid (va + BitVec.ofNat 64 i) [b] [] (lim := false) with
    | .error x => .error x
    | .ok s => apertureBytes cid va rest s

/-- A write of the aperture: all of it or, where it is refused, nothing. A write without holes goes as a whole. -/
def apertureWrite (s : State) (cid off : Nat) (aux : W64) (data : List Byte) : State :=
  let va := apertureVa s cid off
  let l := maskedBytes aux data
  if !s.hasCtx cid ∨ l = [] then s
  else match (if l.length = data.length then procWrite s cid va data [] (lim := false) else apertureBytes cid va l s) with
    | .ok s' => s'
    | .error x => apertureFault s cid va x

/-- An atomic of the aperture, translated as a read-modify-write: the old bytes go back, and what its operands make of them is
written. -/
def apertureAtomic (s : State) (cid off : Nat) (aux : W64) : List Byte × State :=
  let va := apertureVa s cid off
  let vas := vaRange va 8
  let zero := List.replicate 8 0#8
  if !s.hasCtx cid then (zero, s)
  else match procXlate s cid 3#2 vas false with
    | .error x => (zero, apertureFault s cid va x)
    | .ok (pas, s1) => match procBytes s1 cid vas pas with
      | .error x => (zero, apertureFault s cid va x)
      | .ok old =>
        let new := (Config.fabricAtomic aux old ++ zero).take 8
        (old, { pokeRuns s1 (s1.ctx cid).keyId pas new with rels := writeHeads s1.rels pas true [] })

/-! ## Received packets (R383, R388) -/

/-- Counts a dropped packet. -/
def countDrop (s : State) (port : Nat) : State :=
  let x := mgetD s.ports port FabPort.zero
  { s with ports := mset s.ports port { x with drop := if x.drop = 0xFFFF#16 then x.drop else x.drop + 1#16 } }

/-- R383: whether a packet has a reserved value or too many flits. -/
def packetBad (p : FabricPacket) : Bool :=
  decide (7 ≤ p.ptyp.toNat) || decide (8 < p.nfl.toNat) || p.cls == 3#2 || p.res != 0#42 || p.data.length != 32 * p.nfl.toNat

/-- How far a tag lies beyond another, modulo 2^16. -/
def tagBeyond (a b : Nat) : Nat := (a + 2 ^ 16 - b % 2 ^ 16) % 2 ^ 16

/-- The first missing tag and those received beyond it, when `next` has come; `fuel` bounds the steps. -/
def nextTag : Nat → Nat → List Nat → List Nat
  | 0, next, ahead => next :: ahead
  | fuel + 1, next, ahead =>
    if ahead.contains next then nextTag fuel ((next + 1) % 2 ^ 16) (ahead.filter (· != next)) else next :: ahead

/-- Marks a tag of a source as received: the head of the list is the first tag still missing, the rest those received
beyond it. -/
def markTag (l : List Nat) (tag : Nat) : List Nat :=
  let next := l.headD 0
  let ahead := l.drop 1
  if 2 ^ 15 ≤ tagBeyond tag next ∨ ahead.contains tag = true then next :: ahead
  else nextTag (ahead.length + 2) next (tag :: ahead)

/-- The tags received from a source. -/
def State.seenFrom (s : State) (src : BitVec 15) : List Nat := mgetD s.reqSeen src.toNat [0]

/-- R383: whether a notify may take effect: every earlier packet of its source, from 1 to 2^15 - 1 below, has been received. -/
def notifyReady (s : State) (p : FabricPacket) : Bool :=
  let d := tagBeyond p.tag.toNat ((s.seenFrom p.src).headD 0)
  d == 0 || decide (2 ^ 15 ≤ d)

/-- Continues an outcome. -/
def andThen (x : Host.Outcome State Fault Refusal) (h : State → Host.Outcome State Fault Refusal) :
    Host.Outcome State Fault Refusal :=
  match x with
  | .next s => h s
  | .fault f => .fault f
  | .refused r => .refused r

/-- A request that reaches the window (R387); its source may reach that virtual function. -/
def windowAccess (s : State) (p : FabricPacket) (vf : Nat) (w : Place387) : Host.Outcome State Fault Refusal :=
  match p.ptyp.toNat, w with
  | 0, .notify cid off => .next (reply s p vf 3#4 (leBytes 32 (notifyRead s cid off).toNat))
  | 0, .control v off => .next (reply s p vf 3#4 (controlRead s v off))
  | 0, .aperture cid off =>
    let r := apertureRead s cid off
    .next (reply r.2 p vf 3#4 r.1)
  | 1, .notify cid off => andThen (notifyWriteMasked s cid off p.aux p.data) (fun s => .next (reply s p vf 4#4 []))
  | 1, .control v off => andThen (controlWrite s v off p.aux p.data) (fun s => .next (reply s p vf 4#4 []))
  | 1, .aperture cid off => .next (reply (apertureWrite s cid off p.aux p.data) p vf 4#4 [])
  | 2, .aperture cid off =>
    let r := apertureAtomic s cid off p.aux
    .next (reply r.2 p vf 3#4 (r.1 ++ List.replicate 24 0#8))
  | 5, .aperture cid off => .next (apertureWrite s cid off p.aux p.data)
  | 6, .notify cid off =>
    notifyWrite s cid off (if p.data = [] then p.aux else BitVec.ofNat 64 (leNat (p.data.take 8)))
  | _, _ => .next s

/-- A request at its address: other addresses read zero and discard writes; another endpoint's is dropped (R387, R388). -/
def requestAt (s : State) (port : Nat) (p : FabricPacket) : Host.Outcome State Fault Refusal :=
  let w := windowAt p.addr.toNat
  match w.vf with
  | none =>
    .next (if p.ptyp = 0#4 then sendPacket s 3#4 1#2 p.src p.vf p.addr (List.replicate 32 0#8)
      else if p.ptyp = 1#4 then sendPacket s 4#4 1#2 p.src p.vf p.addr [] else s)
  | some vf =>
    if (s.part vf).ownEn && p.src == (s.part vf).own.setWidth 15 then windowAccess s p vf w else .next (countDrop s port)

/-- The notify among those held that takes effect next: no earlier request of its source is missing, and none of its source's
that are held is earlier. -/
def nextNotify (s : State) : Option FabricPacket :=
  s.notifyHold.find? (fun p => notifyReady s p &&
    !s.notifyHold.any (fun q => q.src == p.src && q.tag != p.tag && decide (tagBeyond p.tag.toNat q.tag.toNat < 2 ^ 15)))

/-- Held notifies take effect, each source's in the order of its tags; `n` is how many there are at most. -/
def releaseNotifies (port : Nat) : Nat → State → Host.Outcome State Fault Refusal
  | 0, s => .next s
  | n + 1, s =>
    match nextNotify s with
    | none => .next s
    | some p => andThen (requestAt { s with notifyHold := s.notifyHold.erase p } port p) (releaseNotifies port n)

/-! ## Identity and attestation (R423, R424) -/

/-- The banks of a virtual function's contexts (R424). -/
def cbankOf (s : State) (vf : Nat) : Nat :=
  (upFrom 0 16).foldl (fun n c => n + (if (s.ctx (16 * vf + c)).st = .free then 0 else (s.ctx (16 * vf + c)).bank.toNat) * 4 ^ c) 0

/-- The device identity point (R422). -/
def identityPoint : List Byte := ecBytes (ecMul (ecKey Config.identityKey) ecG)

/-- The report but for its signature: 888 bytes (R424). -/
def reportBody (s : State) (vf : Nat) (nonce : List Byte) : List Byte :=
  let p := s.part vf
  let has := s.hasPart vf
  leBytes 16 (1 + 7 * 2 ^ 16 + vf * 2 ^ 32) ++ ((nonce ++ List.replicate 32 0#8).take 32) ++ List.replicate 32 0#8 ++
    sha512Bytes identityPoint ++
    (upFrom 0 4).flatMap (fun n => digestBytes (mgetD s.meas n 0#512)) ++
    (upFrom 0 4).flatMap (fun n => digestBytes (s.bankAt 0 n).hash) ++
    leBytes 8 (if has then pcfgOf p else 0) ++ leBytes 4 (if has then detmOf p else 0) ++
    leBytes 4 (if has then cbankOf s vf else 0) ++ List.replicate 216 0#8

/-- The whole report: 1,024 bytes. -/
def reportOf (s : State) (vf : Nat) (nonce : List Byte) : List Byte :=
  let body := reportBody s vf nonce
  body ++ ecdsaSign (ecKey Config.identityKey) (ecKey (Config.random (3 * s.tick + 2))) body ++ List.replicate 4 0#8

/-- ATTESTATION_REQUEST (R423): four service-class read replies of 256 bytes each. -/
def execAttestationRequest (src : BitVec 15) (vf : BitVec 6) (nonce : List Byte) (s : State) :
    Host.Outcome State Fault Refusal :=
  if s.onFabric then
    let r := reportOf s vf.toNat nonce
    let s := { s with tick := s.tick + 1 }
    .next ((upFrom 0 4).foldl (fun s n => sendPacket s 3#4 2#2 src vf 0#56 ((r.drop (256 * n)).take 256)) s)
  else .next s

/-- IDENTITY_REQUEST (R423): the identity point in one reply. -/
def execIdentityRequest (src : BitVec 15) (s : State) : Host.Outcome State Fault Refusal :=
  if s.onFabric then
    .next (sendPacket s 3#4 2#2 src 0#6 1#56 (identityPoint ++ List.replicate 27 0#8))
  else .next s

/-! ## FABRIC_PACKET_RECEIVE -/

/-- A service-class packet (R423): the window plays no part. -/
def servicePacket (s : State) (p : FabricPacket) : Host.Outcome State Fault Refusal :=
  if p.ptyp ≠ 1#4 then .next s
  else if p.addr = 0#56 then execAttestationRequest p.src (p.aux.setWidth 6) (p.data.take 32) s
  else if p.addr = 1#56 then execIdentityRequest p.src s
  else .next s

/-- A sound packet for this endpoint: a notify waits for earlier requests of its source; replies answer nothing that the
model leaves open. -/
def acceptPacket (s : State) (port : Nat) (p : FabricPacket) : Host.Outcome State Fault Refusal :=
  match p.cls.toNat with
  | 0 =>
    if p.ptyp = 6#4 then releaseNotifies port (s.notifyHold.length + 1) { s with notifyHold := s.notifyHold ++ [p] }
    else andThen (requestAt s port p) (fun s => releaseNotifies port s.notifyHold.length s)
  | 2 => servicePacket s p
  | _ => .next s

/-- The context that a packet's address names. -/
def Place387.ctx : Place387 → Option Nat
  | .notify cid _ => some cid
  | .aperture cid _ => some cid
  | _ => none

/-- Whether the source of a packet may reach what its address names (R388): requests name the window, others do not. -/
def packetOwned (s : State) (p : FabricPacket) : Bool :=
  p.cls != 0#2 || (match (windowAt p.addr.toNat).vf with
    | some vf => (s.part vf).ownEn && p.src == (s.part vf).own.setWidth 15
    | none => true)

/-- The units at an endpoint that the data of a reply is of. -/
def replyUnits (p : FabricPacket) : List Nat :=
  if p.cls = 1#2 ∧ p.ptyp = 3#4 then unitsOf (2 ^ 55 + p.src.toNat % 2 ^ 12 * 2 ^ 43 + p.addr.toNat % 2 ^ 43) p.data.length else []

/-- R394, R426, R428: a packet whose end-to-end check or tag fails is asked for once more; failing again it is reported: that of
a request with a record of the context that its address names, that of a reply to who consumes its data, whose units fail. One
that may not reach what it names is dropped and counted, and causes nothing else (R388). A request of a control page names no
context: nobody consumes it (log 117). -/
def packetFails (s : State) (port : Nat) (p : FabricPacket) : State :=
  let key := (p.src.toNat, p.tag.toNat)
  if !packetOwned s p then
    countDrop { s with reqSeen := mset s.reqSeen p.src.toNat (markTag (s.seenFrom p.src) p.tag.toNat) } port
  else if s.askedAgain.contains key then
    let s := { s with
      askedAgain := s.askedAgain.erase key, reqSeen := mset s.reqSeen p.src.toNat (markTag (s.seenFrom p.src) p.tag.toNat)
      badUnits := (replyUnits p).filter (fun u => !s.badUnits.contains u) ++ s.badUnits }
    match (windowAt p.addr.toNat).ctx with
    | some cid =>
      let va : W64 := match windowAt p.addr.toNat with | .aperture cid off => apertureVa s cid off | _ => 0#64
      if p.cls = 0#2 ∧ s.hasCtx cid = true then ctxLevel s cid .dataIntegrity va 0#32 false else s
    | none => s
  else { s with askedAgain := key :: s.askedAgain }

/-- FABRIC_PACKET_RECEIVE (R383, R384, R387, R388, R394): at a port that is up; a packet with a reserved value is dropped and
counted; one for another endpoint goes on. -/
def execFabricPacketReceive (port : Nat) (p : FabricPacket) (s : State) : Host.Outcome State Fault Refusal :=
  let x := mgetD s.ports port FabPort.zero
  if !s.onFabric || !decide (port < 64) || x.st != .up then .next s
  else
    let s := { s with ports := mset s.ports port { x with resends := 0 } }
    if packetBad p then .next (countDrop s port)
    else if p.dst ≠ s.epid.setWidth 15 then .next { s with outbox := s.outbox ++ [p] }
    else if !p.sealOk || crc32c p.data != p.e2e then
      andThen (.next (packetFails s port p)) (fun s => releaseNotifies port s.notifyHold.length s)
    else
      let s := { s with
        askedAgain := s.askedAgain.erase (p.src.toNat, p.tag.toNat)
        reqSeen := mset s.reqSeen p.src.toNat (markTag (s.seenFrom p.src) p.tag.toNat) }
      acceptPacket s port p

/-! ## Failed links (R391) -/

/-- R391: every communicator, at the repeatable and portable levels, whose route uses the link. -/
def linkFails (s : State) (uses : W64 → Bool) : State :=
  s.parts.foldl (fun s p =>
    if p.2.level = 0#2 then s
    else p.2.comms.foldl (fun s c => if c.2.en && c.2.route.any uses then failComm s p.1 c.1 c.2 else s) s) s

/-- FLIT_CHECK_FAIL (R384, R386, R391): the flit and every later one are sent again; after 16 consecutive failed resends the
port fails. How many later flits there are is a free value. -/
def execFlitCheckFail (port : Nat) (s : State) : Host.Outcome State Fault Refusal :=
  let x := mgetD s.ports port FabPort.zero
  if port < 64 ∧ x.st = .up ∧ s.dead = false then
    if x.resends = 16 then
      .next (linkFails { s with ports := mset s.ports port { x with st := .failed, resends := 0 } } (usesPort port))
    else
      let n := x.rsnd.toNat + 1 + (Config.freeBits 2001 s.tick).toNat
      .next { s with
        tick := s.tick + 1
        ports := mset s.ports port { x with rsnd := BitVec.ofNat 16 (min n 0xFFFF), resends := x.resends + 1 } }
  else .next s

/-- PORT_TRAINING (R384, R386): headroom H := 5·t + 9 flits for a round trip of t nanoseconds. -/
def execPortTraining (port : Nat) (rtt : Nat) (ok : Bool) (s : State) : Host.Outcome State Fault Refusal :=
  let x := mgetD s.ports port FabPort.zero
  if port < 64 ∧ x.st ≠ .up ∧ s.dead = false then
    let up := { x with st := PortState.up, hdr := BitVec.ofNat 20 (5 * rtt + 9), resends := 0 }
    let trying := { x with st := PortState.training }
    .next { s with ports := mset s.ports port (if ok then up else trying) }
  else .next s

/-! ## Rate limiting (R392) -/

/-- LIMITER_REFILL (R392): 256·rate/3.3 bytes, rounded down, up to `burst`. -/
def execLimiterRefill (vf : Nat) (s : State) : Host.Outcome State Fault Refusal :=
  if vf < 64 then
    let p := s.part vf
    .next (s.setPart vf { p with tok := min ((p.burst.toNat * 1024 : Nat) : Int) (p.tok + (2560 * p.rate.toNat / 33 : Nat)) })
  else .next s

/-! ## Ethernet (R395) -/

/-- The connection of a port. -/
def EthPort.conn (p : EthPort) (n : Nat) : EthConn := mgetD p.conns n EthConn.fresh

/-- Changes a connection. -/
def State.setConn (s : State) (port n : Nat) (c : EthConn) : State :=
  let p := mgetD s.eth port EthPort.zero
  { s with eth := mset s.eth port { p with conns := mset p.conns n c } }

/-- ETHERNET_FRAME_RECEIVE (R395): an acknowledgement ends the sending of its packet; data is acknowledged, and delivered
once. -/
def execEthernetFrameReceive (port conn : Nat) (frame : EthFrame) (s : State) : Host.Outcome State Fault Refusal :=
  let c := (mgetD s.eth port EthPort.zero).conn conn
  if port < 16 ∧ c.up ∧ s.dead = false then
    match frame with
    | .ack n => .next (s.setConn port conn { c with unack := c.unack.filter (fun x => x.num != n) })
    | .data n bs =>
      if 9216 < bs.length then .next s
      else
        let c := { c with out := c.out ++ [.ack n] }
        .next (s.setConn port conn (if c.inbox.any (fun x => x.1 == n) then c else { c with inbox := c.inbox ++ [(n, bs)] }))
  else .next s

/-- A packet is sent again, up to 64 times in all (R395), when its virtual function has tokens (R392). -/
def resendOne (s : State) (x : EthSent) : EthSent × State :=
  if 64 ≤ x.sent ∨ (s.part x.vf).limited = true then (x, s) else ({ x with sent := x.sent + 1 }, chargeTokens s x.vf x.len)

/-- What a connection has not had acknowledged is sent again (R395). -/
def resend (s : State) (port conn : Nat) : State :=
  let c := (mgetD s.eth port EthPort.zero).conn conn
  if c.up then
    let r := c.unack.foldl (fun (r : List EthSent × State) x => let y := resendOne r.2 x; (r.1 ++ [y.1], y.2)) ([], s)
    r.2.setConn port conn { c with unack := r.1 }
  else s

/-- ETH_CONNECTION_FAIL (R395, R391): a packet has been sent 64 times without acknowledgement. -/
def execEthConnectionFail (port conn : Nat) (s : State) : Host.Outcome State Fault Refusal :=
  let c := (mgetD s.eth port EthPort.zero).conn conn
  if port < 16 ∧ c.up ∧ c.unack.any (fun x => decide (64 ≤ x.sent)) = true ∧ s.dead = false then
    .next (linkFails (s.setConn port conn { c with up := false, unack := [] }) (usesConn port conn))
  else .next s

end Sys2Proof.Machine
end

