-- ==== Sys2Proof/Machine/Logic.lean ====
section
/-! DEFINITION. The meanings of the logic and bit instructions of R120: each is a thread-local instruction of the shared shape `runAlu`. -/
namespace Sys2Proof.Machine

/-- R120: a shift amount, at most the width. -/
def shAmt (w : Nat) (b : W32) : Nat := min b.toNat w

/-- BFE's field (R120): bits above 31 read as 0. -/
def fieldAt (a : W32) (pos len : Nat) : Nat := natBits a.toNat pos len

/-- A field of `len` bits, sign-extended. -/
def signField (n len : Nat) : W32 :=
  if len = 0 then 0#32 else if n.testBit (len - 1) then BitVec.ofInt 32 ((n : Int) - 2 ^ len) else BitVec.ofNat 32 n

/-- BFI (R120). -/
def insertField (a b c : W32) : W32 :=
  let pos := b.toNat % 256
  let len := if 32 ≤ pos then 0 else min (b.toNat / 256 % 256) (32 - pos)
  let mask : W32 := BitVec.ofNat 32 ((2 ^ len - 1) <<< pos)
  (c &&& ~~~mask) ||| (BitVec.ofNat 32 (natBits a.toNat 0 len <<< pos) &&& mask)

/-- The number of leading zeros. -/
def leadingZeros (a : W32) : Nat := if a = 0#32 then 32 else 31 - a.toNat.log2

/-- BPERM (R120): bytes of c:a picked by the nibbles of b. -/
def permBytes (a b c : W32) : W32 :=
  let src := a.toNat + c.toNat * 2 ^ 32
  let pick (i : Nat) : Nat :=
    let s := natBits b.toNat (4 * i) 4
    if 8 ≤ s then 0 else natBits src (8 * (s % 8)) 8
  BitVec.ofNat 32 (pick 0 + pick 1 * 2 ^ 8 + pick 2 * 2 ^ 16 + pick 3 * 2 ^ 24)

/-- AND (R120). -/
def execAnd (f : Fields) (s : State) : Host.Outcome State Fault Refusal :=
  runAlu (.and f) f (fun _ _ x => ok32 (x.a32 &&& x.b32)) s

/-- OR (R120). -/
def execOr (f : Fields) (s : State) : Host.Outcome State Fault Refusal :=
  runAlu (.or f) f (fun _ _ x => ok32 (x.a32 ||| x.b32)) s

/-- XOR (R120). -/
def execXor (f : Fields) (s : State) : Host.Outcome State Fault Refusal :=
  runAlu (.xor f) f (fun _ _ x => ok32 (x.a32 ^^^ x.b32)) s

/-- ANDN (R120). -/
def execAndn (f : Fields) (s : State) : Host.Outcome State Fault Refusal :=
  runAlu (.andn f) f (fun _ _ x => ok32 (x.a32 &&& ~~~x.b32)) s

/-- NOT (R120). -/
def execNot (f : Fields) (s : State) : Host.Outcome State Fault Refusal :=
  runAlu (.not f) f (fun _ _ x => ok32 (~~~x.a32)) s

/-- SHL (R120). -/
def execShl (f : Fields) (s : State) : Host.Outcome State Fault Refusal :=
  runAlu (.shl f) f (fun _ _ x => ok32 (x.a32 <<< shAmt 32 x.b32)) s

/-- SHR (R120). -/
def execShr (f : Fields) (s : State) : Host.Outcome State Fault Refusal :=
  runAlu (.shr f) f (fun _ _ x => ok32 (x.a32 >>> shAmt 32 x.b32)) s

/-- SAR (R120). -/
def execSar (f : Fields) (s : State) : Host.Outcome State Fault Refusal :=
  runAlu (.sar f) f (fun _ _ x => ok32 (x.a32.sshiftRight (shAmt 32 x.b32))) s

/-- ROTL (R120). -/
def execRotl (f : Fields) (s : State) : Host.Outcome State Fault Refusal :=
  runAlu (.rotl f) f (fun _ _ x => ok32 (x.a32.rotateLeft (x.b32.toNat % 32))) s

/-- SHL_I64 (R120). -/
def execShlI64 (f : Fields) (s : State) : Host.Outcome State Fault Refusal :=
  runAlu (.shlI64 f) f (fun _ _ x => ok (x.a <<< shAmt 64 x.b32)) s

/-- SHR_I64 (R120). -/
def execShrI64 (f : Fields) (s : State) : Host.Outcome State Fault Refusal :=
  runAlu (.shrI64 f) f (fun _ _ x => ok (x.a >>> shAmt 64 x.b32)) s

/-- SAR_I64 (R120). -/
def execSarI64 (f : Fields) (s : State) : Host.Outcome State Fault Refusal :=
  runAlu (.sarI64 f) f (fun _ _ x => ok (x.a.sshiftRight (shAmt 64 x.b32))) s

/-- BFE_N32 (R120). -/
def execBfeN32 (f : Fields) (s : State) : Host.Outcome State Fault Refusal :=
  runAlu (.bfeN32 f) f (fun _ _ x => ok32 (BitVec.ofNat 32 (fieldAt x.a32 (x.b32.toNat % 256) (min (x.c32.toNat % 256) 32)))) s

/-- BFE_I32 (R120). -/
def execBfeI32 (f : Fields) (s : State) : Host.Outcome State Fault Refusal :=
  runAlu (.bfeI32 f) f (fun _ _ x => ok32 (let len := min (x.c32.toNat % 256) 32; signField (fieldAt x.a32 (x.b32.toNat % 256) len) len)) s

/-- BFI (R120). -/
def execBfi (f : Fields) (s : State) : Host.Outcome State Fault Refusal :=
  runAlu (.bfi f) f (fun _ _ x => ok32 (insertField x.a32 x.b32 x.c32)) s

/-- POPC (R120). -/
def execPopc (f : Fields) (s : State) : Host.Outcome State Fault Refusal :=
  runAlu (.popc f) f (fun _ _ x => ok32 (BitVec.ofNat 32 ((upFrom 0 32).countP x.a32.getLsbD))) s

/-- CLZ (R120). -/
def execClz (f : Fields) (s : State) : Host.Outcome State Fault Refusal :=
  runAlu (.clz f) f (fun _ _ x => ok32 (BitVec.ofNat 32 (leadingZeros x.a32))) s

/-- BREV (R120). -/
def execBrev (f : Fields) (s : State) : Host.Outcome State Fault Refusal :=
  runAlu (.brev f) f (fun _ _ x => ok32 (x.a32.reverse)) s

/-- BPERM (R120). -/
def execBperm (f : Fields) (s : State) : Host.Outcome State Fault Refusal :=
  runAlu (.bperm f) f (fun _ _ x => ok32 (permBytes x.a32 x.b32 x.c32)) s

end Sys2Proof.Machine
end

