-- ==== Sys2Proof/Machine/Moves.lean ====
section
/-! DEFINITION. The meanings of the moves and predicate instructions of R133: each is a thread-local instruction of the shared shape `runAlu`. -/
namespace Sys2Proof.Machine

/-- The operations of PSET (R133). -/
def psetOp (m : BitVec 4) (a b : Bool) : Bool :=
  match m.toNat with
  | 0 => a && b | 1 => a || b | 2 => a != b | 3 => a && !b | 4 => a | 5 => !a | 6 => false | _ => true

/-- MOV (R133). -/
def execMov (f : Fields) (s : State) : Host.Outcome State Fault Refusal :=
  runAlu (.mov f) f (fun _ _ x => ok (x.a)) s

/-- MOVS (R133). -/
def execMovs (f : Fields) (s : State) : Host.Outcome State Fault Refusal :=
  runAlu (.movs f) f (fun _ _ x => ok (sext64 x.a32)) s

/-- SEL (R133). -/
def execSel (f : Fields) (s : State) : Host.Outcome State Fault Refusal :=
  runAlu (.sel f) f (fun _ th x => ok (if th.predAt (predIx f.c) then x.a else x.b)) s

/-- PSET (R133). -/
def execPset (f : Fields) (s : State) : Host.Outcome State Fault Refusal :=
  runAlu (.pset f) f (fun _ th _ => okP (psetOp f.mod (th.predAt (predIx f.a)) (th.predAt (predIx f.b)))) s

/-- PMOV_GET (R133). -/
def execPmovGet (f : Fields) (s : State) : Host.Outcome State Fault Refusal :=
  runAlu (.pmovGet f) f (fun _ th _ => ok32 (th.preds.setWidth 32)) s

/-- PMOV_PUT (R133): p_i := a[i]; an instruction that writes no value leaves the latches alone (R67). -/
def execPmovPut (f : Fields) (s : State) : Host.Outcome State Fault Refusal :=
  runInstr (.pmovPut f) f (fun e en => do
    onThread e (do
      if guardOf f (← get) then
        let x ← readSrcs e en f
        modify (fun th => th.release (marked en f))
        modify (fun th => { th.flushFor (fun p => p.preds != []) with preds := x.a32.setWidth 8 })
      else guardedOff e en f true)
    endSlot e 0#6) s

end Sys2Proof.Machine
end

