-- ==== Sys2Proof/Machine/Nysol.lean ====
section
/-! DEFINITION. Nysol bodies (R101-R103): their encoding, and the rules that make a body valid. What a translator makes of a
body stands in Translate.lean (R405). -/
namespace Sys2Proof.Machine

/-- A source of a Nysol instruction: kind, type tag, value. -/
structure NySrc where
  kind : Nat
  tag  : Nat
  val  : Nat
  deriving DecidableEq, Repr

/-- A Nysol instruction. -/
structure NyIns where
  op    : Nat
  fl    : Nat
  ty    : Nat
  guard : Option Nat
  dst   : Nat
  srcs  : List NySrc
  deriving DecidableEq, Repr

/-! ## Encoding (R101) -/

/-- An unsigned LEB128 number of at most `fuel` bytes. -/
def uleb : Nat → List Byte → Option (Nat × List Byte)
  | 0, _ => none
  | _ + 1, [] => none
  | fuel + 1, b :: bs =>
    if b.toNat < 128 then some (b.toNat, bs)
    else (uleb fuel bs).map (fun r => (b.toNat - 128 + 128 * r.1, r.2))

/-- The first `n` bytes and the rest. -/
def takeBytes (n : Nat) (bs : List Byte) : Option (List Byte × List Byte) :=
  if bs.length < n then none else some (bs.take n, bs.drop n)

/-- One source. -/
def nySource (bs : List Byte) : Option (NySrc × List Byte) :=
  match bs with
  | [] => none
  | t :: bs =>
    let kind := t.toNat % 8
    let tag := t.toNat / 8
    let num (n : Nat) : Option (NySrc × List Byte) := (takeBytes n bs).map (fun r => (⟨kind, tag, leNat r.1⟩, r.2))
    match kind with
    | 0 => (uleb 5 bs).map (fun r => (⟨0, tag, r.1⟩, r.2))
    | 1 => num 1
    | 2 => num 4
    | 3 => num 8
    | 4 => (uleb 5 bs).map (fun r => (⟨4, tag, r.1⟩, r.2))
    | _ => none

/-- `n` sources. -/
def nySources : Nat → List Byte → Option (List NySrc × List Byte)
  | 0, bs => some ([], bs)
  | n + 1, bs => match nySource bs with
    | none => none
    | some (x, bs) => (nySources n bs).map (fun r => (x :: r.1, r.2))

/-- One instruction. A number in more than five ULEB128 bytes is refused: the manual sets no length limit (log 111). -/
def nyInstr (bs : List Byte) : Option (NyIns × List Byte) :=
  match bs with
  | o0 :: o1 :: fl :: ty :: bs =>
    let g : Option (Option Nat × List Byte) :=
      if fl.getLsbD 4 then (uleb 5 bs).map (fun r => (some r.1, r.2)) else some (none, bs)
    match g with
    | none => none
    | some (guard, bs) => match uleb 5 bs with
      | none => none
      | some (dst, bs) => match bs with
        | [] => none
        | ns :: bs => (nySources ns.toNat bs).map (fun r =>
            (⟨o0.toNat + 256 * o1.toNat, fl.toNat, ty.toNat, guard, dst, r.1⟩, r.2))
  | _ => none

/-- Every instruction of a body; `fuel` bounds their number. -/
def nyInstrs : Nat → List Byte → Option (List NyIns)
  | _, [] => some []
  | 0, _ => none
  | fuel + 1, bs => match nyInstr bs with
    | none => none
    | some (i, bs) => (nyInstrs fuel bs).map (fun l => i :: l)

/-! ## Rules of one instruction (R101-R103) -/

/-- Whether a source is well formed, for `nv` registers and `nb` blocks. -/
def NySrc.ok (nv nb : Nat) (x : NySrc) : Bool :=
  decide (x.tag ≤ 21) &&
    (match x.kind with
     | 0 => decide (1 ≤ x.val) && decide (x.val ≤ nv)
     | 1 => x.val != 2 && decide (x.val < 128) && !(decide (16 ≤ x.val) && decide (x.val < 32))
     | 4 => decide (1 ≤ x.val) && decide (x.val ≤ nb)
     | _ => true)

/-- The opcodes that SGCOLL may carry (R103). -/
def sgcollOps : List Nat := [0x610, 0x611, 0x612, 0x613, 0x614, 0x618, 0x619, 0x61A, 0x620, 0x621]

/-- The pairs of a PHI. -/
def phiPairs : List NySrc → Option (List (Nat × NySrc))
  | [] => some []
  | b :: v :: rest => if b.kind = 4 ∧ v.kind ≠ 4 then (phiPairs rest).map (fun l => (b.val, v) :: l) else none
  | _ => none

/-- Whether a source suits a field of a native entry. -/
def FK.takes (k : FK) (x : NySrc) : Bool :=
  match k with
  | .src _ => decide (x.kind ≤ 3)
  | .pred => x.kind == 0 && x.tag == 19
  | .raw => x.kind == 2
  | _ => false

/-- Whether the sources of an SGCOLL are those of its native opcode (R103). -/
def sgSources (op mod : Nat) (l : List NySrc) : Bool :=
  let none9 := operandOf 0#9
  let f : Fields := { ahd := 0#4, d := none9, a := none9, b := none9,
                      c := operandOf (BitVec.ofNat 9 ((l.getLast?.map (·.val)).getD 0)), lr := 0#3, pn := false, pi := 0#3,
                      pe := false, mod := BitVec.ofNat 4 mod }
  match (decodeOp op f).bind encOf with
  | some e =>
    let ks := [e.a, e.b, e.c].filter (· != .no)
    ks.length == l.length && (ks.zip l).all (fun p => p.1.takes p.2)
  | none => false

/-- The sources of the portable-only operations (R103). -/
def NyIns.formOk (i : NyIns) : Bool :=
  match i.op with
  | 0x1000 => (phiPairs i.srcs).isSome
  | 0x1001 => (match i.srcs with
    | o :: z :: l => o.kind == 2 && z.kind == 2 && sgcollOps.contains o.val && [1, 2, 4, 8, 16, 32, 64].contains z.val &&
        sgSources o.val (i.fl % 16) l
    | _ => false)
  | 0x1002 => (match i.srcs with | [k] => k.kind == 2 && decide (k.val ≤ 1) | _ => false)
  | 0x1003 => i.srcs == []
  | 0x1004 => (match i.srcs with | [b] => b.kind == 4 | _ => false)
  | _ => true

/-- Whether an instruction that has no result names none (R101): the portable-only operations but PHI and SGCOLL, and the native
opcodes whose entry writes no d. -/
def NyIns.resultOk (i : NyIns) : Bool :=
  i.dst == 0 ||
    (match i.op with
     | 0x1000 => true
     | 0x1001 => true
     | 0x1002 => false
     | 0x1003 => false
     | 0x1004 => false
     | op =>
       let z := operandOf 0#9
       let f : Fields := { ahd := 0#4, d := z, a := z, b := z, c := z, lr := 0#3, pn := false, pi := 0#3, pe := false,
                           mod := BitVec.ofNat 4 i.fl }
       match (decodeOp op f).bind encOf with
       | some e => (match e.d with | .no => false | .src _ => false | _ => true)
       | none => op != 1)

/-- Whether an instruction alone is well formed. -/
def NyIns.ok (nv nb : Nat) (i : NyIns) : Bool :=
  decide (i.op ≤ 0x1004) && decide (i.fl < 64) && decide (i.ty ≤ 21) && decide (i.dst ≤ nv) &&
    (match i.guard with | some g => decide (1 ≤ g) && decide (g ≤ nv) | none => true) &&
    i.srcs.all (NySrc.ok nv nb) && i.formOk && i.resultOk

/-! ## Blocks -/

/-- A block: its number and its instructions, each with its place in the body. -/
abbrev NyBlock := Nat × List (Nat × NyIns)

/-- The blocks of a body; the first instruction must be a BLK. -/
def nyBlocks : List (Nat × NyIns) → List NyBlock → Option (List NyBlock)
  | [], acc => some acc.reverse
  | (n, i) :: rest, acc =>
    if i.op = 0x1004 then nyBlocks rest (((i.srcs.map (·.val)).headD 0, []) :: acc)
    else match acc with
      | [] => none
      | (b, l) :: acc => nyBlocks rest ((b, l ++ [(n, i)]) :: acc)

/-- Whether an instruction never goes on to the next one: BRA, BRP, BRX, RET, EXIT, FRET, TRET, ERET, EFWD without a guard. -/
def NyIns.ends (i : NyIns) : Bool :=
  i.guard.isNone && [0x10, 0x11, 0x12, 0x15, 0x30, 0xD01, 0xE01, 0xE1A, 0xE1B].contains i.op

/-- The blocks to which a block may go: those it names outside its PHIs, and the next one. -/
def nySucc (b : NyBlock) (next : Option Nat) : List Nat :=
  let named := b.2.flatMap (fun x => if x.2.op = 0x1000 then [] else (x.2.srcs.filter (fun y => y.kind == 4)).map (·.val))
  match b.2.getLast? with
  | some x => if x.2.ends then named else named ++ next.toList
  | none => next.toList

/-- The edges of a body. -/
def nyEdges : List NyBlock → List (Nat × Nat)
  | [] => []
  | b :: rest => (nySucc b (rest.head?.map (·.1))).map (fun t => (b.1, t)) ++ nyEdges rest

/-! ## Definitions before uses -/

/-- The registers that a block defines. -/
def nyDefs (b : NyBlock) : List Nat := b.2.flatMap (fun x => if x.2.dst = 0 then [] else [x.2.dst])

/-- What is defined at a block's end, given what is at its start (none: no path leads there). -/
def nyOut (blocks : List NyBlock) (ins : AMap (Option (List Nat))) (b : Nat) : Option (List Nat) :=
  (mgetD ins b none).map (fun l => l ++ ((blocks.filter (fun x => x.1 == b)).flatMap nyDefs))

/-- One round: what is defined at the start of every block on every path so far. -/
def nyRound (blocks : List NyBlock) (edges : List (Nat × Nat)) (first : Nat) (ins : AMap (Option (List Nat))) :
    AMap (Option (List Nat)) :=
  blocks.foldl (fun m b =>
    let outs := (edges.filter (fun e => e.2 == b.1)).filterMap (fun e => nyOut blocks ins e.1)
    let outs := if b.1 = first then [] :: outs else outs
    mset m b.1 (match outs with
      | [] => none
      | o :: rest => some (o.filter (fun r => rest.all (fun l => l.contains r))))) []

/-- `n` rounds. -/
def nyRounds (blocks : List NyBlock) (edges : List (Nat × Nat)) (first : Nat) :
    Nat → AMap (Option (List Nat)) → AMap (Option (List Nat))
  | 0, m => m
  | n + 1, m => nyRounds blocks edges first n (nyRound blocks edges first m)

/-- Whether every use in a block follows a definition. -/
def nyUses (outOf : Nat → Option (List Nat)) : List Nat → List (Nat × NyIns) → Bool
  | _, [] => true
  | have_, (_, i) :: rest =>
    let ok (r : Nat) : Bool := have_.contains r
    (match i.guard with | some g => ok g | none => true) &&
      (if i.op = 0x1000 then
        ((phiPairs i.srcs).getD []).all (fun p => p.2.kind != 0 ||
          (match outOf p.1 with | some l => l.contains p.2.val | none => true))
       else i.srcs.all (fun x => x.kind != 0 || ok x.val)) &&
      nyUses outOf (if i.dst = 0 then have_ else i.dst :: have_) rest

/-! ## Regions (R103) -/

/-- The regions open at a block's end, innermost first, and which place closes which region; none where a RGNEND closes
nothing. -/
def nyRegions : List (Nat × NyIns) → List Nat → List (Nat × Nat) → Option (List Nat × List (Nat × Nat))
  | [], st, cl => some (st, cl)
  | (n, i) :: rest, st, cl =>
    if i.op = 0x1002 then nyRegions rest (n :: st) cl
    else if i.op = 0x1003 then
      match st with
      | [] => none
      | r :: st => nyRegions rest st ((r, n) :: cl)
    else nyRegions rest st cl

/-- Follows the edges with the stack of open regions; `fuel` bounds the blocks taken. A block met again must be met with
the same stack. The answer is the closings found, and the blocks met. -/
def nyWalk (blocks : List NyBlock) (edges : List (Nat × Nat)) :
    Nat → List (Nat × List Nat) → AMap (List Nat) → List (Nat × Nat) → Option (List (Nat × Nat) × AMap (List Nat))
  | _, [], seen, cl => some (cl, seen)
  | 0, _ :: _, _, _ => none
  | fuel + 1, (b, st) :: todo, seen, cl =>
    match mget seen b with
    | some st' => if st = st' then nyWalk blocks edges fuel todo seen cl else none
    | none =>
      match nyRegions ((blocks.filter (fun x => x.1 == b)).flatMap (·.2)) st [] with
      | none => none
      | some (out, more) =>
        let nexts := (edges.filter (fun e => e.1 == b)).map (fun e => (e.2, out))
        if nexts = [] ∧ out ≠ [] then none
        else nyWalk blocks edges fuel (nexts ++ todo) (mset seen b st) (cl ++ more)

/-- The walks from the body's first block, then from the blocks that no edge enters, then from what is left. -/
def nyStarts (blocks : List NyBlock) (edges : List (Nat × Nat)) (first : Nat) : List Nat :=
  let free := (blocks.map (·.1)).filter (fun b => !edges.any (fun e => e.2 == b))
  first :: free ++ blocks.map (·.1)

/-- Walks from each start that no earlier walk has met. -/
def nyWalks (blocks : List NyBlock) (edges : List (Nat × Nat)) : List Nat → AMap (List Nat) → List (Nat × Nat) →
    Option (List (Nat × Nat))
  | [], _, cl => some cl
  | b :: bs, seen, cl =>
    if (mget seen b).isSome then nyWalks blocks edges bs seen cl
    else match nyWalk blocks edges (blocks.length + edges.length + 1) [(b, [])] seen cl with
      | none => none
      | some (cl, seen) => nyWalks blocks edges bs seen cl

/-- Whether regions nest, and each is closed, at one place that every path from its opening meets. -/
def regionsOk (blocks : List NyBlock) (edges : List (Nat × Nat)) (first : Nat) : Bool :=
  match nyWalks blocks edges (nyStarts blocks edges first) [] [] with
  | none => false
  | some cl => cl.all (fun x => cl.all (fun y => x.1 != y.1 || x.2 == y.2)) &&
      (blocks.flatMap (·.2)).all (fun x => x.2.op != 0x1002 || cl.any (fun y => y.1 == x.1))

/-! ## Bodies -/

/-- Whether no number stands twice. -/
def noRepeat : List Nat → Bool
  | [] => true
  | x :: l => !l.contains x && noRepeat l

/-- The instructions and blocks of a body whose encoding keeps R101, with its numbers of blocks and registers. -/
def nyOpen (bs : List Byte) : Option (List NyIns × List NyBlock × Nat × Nat) :=
  if bs.length < 16 ∨ leNat (bs.take 4) ≠ bs.length ∨ leNat ((bs.drop 12).take 4) ≠ 0 then none
  else match nyInstrs bs.length (bs.drop 16) with
    | none => none
    | some l => (nyBlocks ((upFrom 0 l.length).zip l) []).map (fun blocks =>
        (l, blocks, leNat ((bs.drop 4).take 4), leNat ((bs.drop 8).take 4)))

/-- R101-R103: whether the bytes are a valid body. -/
def nysolOk (bs : List Byte) : Bool :=
  match nyOpen bs with
  | none => false
  | some (l, blocks, nb, nv) =>
    let edges := nyEdges blocks
    let first := (blocks.head?.map (·.1)).getD 0
    let start := (upFrom 1 nb).map (fun b => (b, (none : Option (List Nat))))
    let ins := nyRounds blocks edges first (nb + 1) start
    let defs := blocks.flatMap nyDefs
    let prd (g : Nat) : Bool := l.any (fun i => i.dst == g && i.ty == 19)
    l.all (NyIns.ok nv nb) && l.all (fun i => i.guard.all prd) && blocks.length == nb && noRepeat (blocks.map (·.1)) &&
      noRepeat defs && defs.length == nv &&
      blocks.all (fun b => match mgetD ins b.1 none with
        | none => true
        | some have_ => nyUses (nyOut blocks ins) have_ b.2) &&
      regionsOk blocks edges first

end Sys2Proof.Machine
end

