-- ==== Sys2Proof/Machine/Translate.lean ====
section
/-! DEFINITION. The translation of a Nysol body into native clauses (R405-R408). Every native opcode of the body becomes that
opcode, its sources in the fields a, b, c that its entry uses and its result in d; BLK and RGN shape the code only, PHI
becomes moves on the edges, SGCOLL the native opcode with the size of its sets. Where values live is the translator's choice
(log 14). -/
namespace Sys2Proof.Machine

/-! ## Where values live -/

/-- The place of a virtual register: main registers, a predicate, or the thread's spill bytes. -/
inductive NyPlace where
  | reg (n words : Nat)
  | prd (n : Nat)
  | spill (off words : Nat)
  deriving DecidableEq, Repr

/-- How many main registers a type takes (R102). -/
def nyWords (tag : Nat) : Nat := if [4, 8, 10, 15].contains tag then 2 else if tag = 11 then 4 else 1

/-- The least multiple of `n` from `m` up. -/
def roundUp (m n : Nat) : Nat := (m + n - 1) / n * n

/-- Places as given out: the next main register, predicate and spill word. -/
structure NyAlloc where
  reg   : Nat
  prd   : Nat
  spill : Nat
  map   : AMap NyPlace

/-- The main registers from which temporaries may stand. -/
def nyTop : Nat := 76

/-- The place of one more value: predicates 0 to 4 and main registers 2 to 75 first, then spill bytes. -/
def NyAlloc.add (x : NyAlloc) (key tag : Nat) : NyAlloc :=
  let w := nyWords tag
  let r := roundUp x.reg w
  let o := roundUp x.spill w
  if tag = 19 ∧ x.prd < 5 then { x with prd := x.prd + 1, map := mset x.map key (.prd x.prd) }
  else if r + w ≤ nyTop then { x with reg := r + w, map := mset x.map key (.reg r w) }
  else { x with spill := o + w, map := mset x.map key (.spill o w) }

/-- The place of an MMAA's result, the first of `share` registers: a step's accumulators are as many as its shape says (R197). -/
def NyAlloc.addAcc (share : Nat) (x : NyAlloc) (i : NyIns) : NyAlloc :=
  if share < nyWords i.ty then x.add (2 * i.dst) i.ty
  else { x with reg := x.reg + share, map := mset x.map (2 * i.dst) (.reg x.reg (nyWords i.ty)) }

/-- The places of every virtual register v (key 2v), and of what the edges bring to a PHI (key 2v + 1). The results of MMAAs share
the registers that the others leave. -/
def nyAlloc (l : List NyIns) : NyAlloc :=
  let acc := l.filter (fun i => i.op == 0xC11 && i.dst != 0)
  let x := l.foldl (fun x i =>
    if i.dst = 0 ∨ i.op = 0xC11 then x
    else
      let x := x.add (2 * i.dst) i.ty
      if i.op = 0x1000 then x.add (2 * i.dst + 1) i.ty else x) ⟨2, 0, 0, []⟩
  let x := if acc = [] then x else { x with reg := roundUp x.reg 4 }
  acc.foldl (NyAlloc.addAcc ((nyTop - x.reg) / acc.length / 2 * 2)) x

/-- What the translation of an instruction needs: the places, the first temporary, and the register of the spill base. -/
structure NyCtx where
  map  : AMap NyPlace
  tmp  : Nat
  base : Nat

/-! ## Words -/

/-- A literal word: a number, the displacement of a block from the clause's header, half of a block's address or of the next
clause's. -/
inductive NyLit where
  | num (v : W32)
  | rel (b : Nat)
  | half (b : Nat) (hi : Bool)
  | after (hi : Bool)
  deriving DecidableEq, Repr

/-- A native word with its literals, whether it ends its clause, and the size of the sets over which it is collective. -/
structure NyOut where
  word : W64
  lits : List NyLit
  ctl  : Bool
  sets : Option Nat
  deriving DecidableEq, Repr

/-- The codes of `lit`, `zero` and a constant as operand fields (R61). -/
def opLit : Nat := 0x182
def opZero : Nat := 0x183
def opConst (n : Nat) : Nat := 0x1C0 + n

/-- The fields of a native word; the guard is a predicate and whether it is negated. -/
def nyFields (d a b c mod : Nat) (g : Option (Nat × Bool)) : Fields :=
  { ahd := 0#4, d := operandOf (BitVec.ofNat 9 d), a := operandOf (BitVec.ofNat 9 a), b := operandOf (BitVec.ofNat 9 b),
    c := operandOf (BitVec.ofNat 9 c), lr := 0#3, pn := (g.map (·.2)).getD false,
    pi := BitVec.ofNat 3 ((g.map (·.1)).getD 0), pe := g.isSome, mod := BitVec.ofNat 4 mod }

/-- A word that neither ends its clause nor is collective over sets. -/
def nyOp (op d a b c mod : Nat) (lits : List NyLit) (g : Option (Nat × Bool)) : NyOut :=
  ⟨packWord (BitVec.ofNat 12 op) (nyFields d a b c mod g), lits, false, none⟩

/-- MOV of one or two words (R133). -/
def nyMov (d a words : Nat) (lits : List NyLit) (g : Option (Nat × Bool)) : NyOut := nyOp 0x600 d a 0 0 (words - 1) lits g

/-- Moves `n` main registers. -/
def nyMoves (n d a : Nat) (g : Option (Nat × Bool)) : List NyOut :=
  if d = a then [] else (upFrom 0 n).map (fun i => nyMov (d + i) (a + i) 1 [] g)

/-- The size code of a memory access of some words (R144). -/
def nySz (words : Nat) : Nat := match words with | 1 => 4 | 2 => 5 | _ => 6

/-- A value in main registers: its own, or temporaries from `t` on. -/
def NyPlace.load (cx : NyCtx) (t : Nat) : NyPlace → Nat × List NyOut
  | .reg n _ => (n, [])
  | .prd p => (t, [nyOp 0x603 t (opConst 1) opZero p 0 [] none])
  | .spill off w => (t, [nyOp 0x800 t cx.base opLit 0 (nySz w) [.num (BitVec.ofNat 32 (4 * off))] none])

/-- Brings a value from main registers to its place. -/
def NyPlace.store (cx : NyCtx) (r : Nat) (g : Option (Nat × Bool)) : NyPlace → List NyOut
  | .reg n w => nyMoves w n r g
  | .prd p => [nyOp 0x110 p r opZero 0 1 [] g]
  | .spill off w => [nyOp 0x801 0 cx.base opLit r (nySz w) [.num (BitVec.ofNat 32 (4 * off))] g]

/-- How many main registers a place takes as a value. -/
def NyPlace.words : NyPlace → Nat
  | .reg _ w => w
  | .prd _ => 1
  | .spill _ w => w

/-! ## Sources -/

/-- What a source comes to in a field: the field's code, the words before the instruction, its literals. -/
abbrev NyArg := Nat × List NyOut × List NyLit

/-- A source as `words` registers, with temporaries from `t` on. -/
def nyValue (cx : NyCtx) (t words : Nat) (x : NySrc) : Option NyArg :=
  match x.kind with
  | 0 => match mget cx.map (2 * x.val) with
    | some p => if p.words = words then some ((p.load cx t).1, (p.load cx t).2, []) else none
    | none => none
  | 1 => some (0x180 + x.val, [], [])
  | 2 => some (opLit, [], [.num (BitVec.ofNat 32 x.val)])
  | 3 => if words = 2 then some (t, [nyMov t opLit 1 [.num (BitVec.ofNat 32 x.val)] none,
            nyMov (t + 1) opLit 1 [.num (BitVec.ofNat 32 (x.val / 2 ^ 32))] none], []) else none
  | _ => if words = 2 then some (t, [nyMov t opLit 1 [.half x.val false] none, nyMov (t + 1) opLit 1 [.half x.val true] none], [])
         else some (opLit, [], [.rel x.val])

/-- A source as registers, whatever its kind. -/
def nyInRegs (cx : NyCtx) (t words : Nat) (x : NySrc) : Option (Nat × List NyOut) :=
  match nyValue cx t words x with
  | none => none
  | some (n, pre, lits) => if x.kind = 0 ∨ x.kind = 3 then some (n, pre) else some (t, pre ++ [nyMov t n words lits none])

/-- How many registers a source takes as a value. -/
def NySrc.words (cx : NyCtx) (x : NySrc) : Nat :=
  match x.kind with
  | 0 => ((mget cx.map (2 * x.val)).map NyPlace.words).getD 1
  | 3 => 2
  | _ => 1

/-- Sources in consecutive registers from `t` on until they fill `n`; the words before, and the sources left. -/
def nyGather (cx : NyCtx) : Nat → Nat → List NySrc → Option (List NyOut × List NySrc)
  | _, 0, l => some ([], l)
  | _, _ + 1, [] => none
  | t, n + 1, x :: l =>
    let w := x.words cx
    match nyInRegs cx (cx.tmp + 32) w x, nyGather cx (t + w) (n + 1 - w) l with
    | some (r, pre), some (rest, left) => some (pre ++ nyMoves w t r none ++ rest, left)
    | _, _ => none

/-- A run of `n` registers: one value of that many words, or as many sources as fill it. The answer is the first register, the
words before, and the sources left. -/
def nyRun (cx : NyCtx) (t n : Nat) (l : List NySrc) : Option (Nat × List NyOut × List NySrc) :=
  let one : Option (Nat × List NyOut) := match l with | x :: _ => if x.kind = 0 then nyInRegs cx t n x else none | [] => none
  match one with
  | some (r, pre) => some (r, pre, l.drop 1)
  | none => (nyGather cx t n l).map (fun g => (t, g.1, g.2))

/-- The predicate that a source names, with predicate `p` as a temporary. -/
def nyPred (cx : NyCtx) (t p v : Nat) : Option (Nat × List NyOut) :=
  match mget cx.map (2 * v) with
  | some (.prd k) => some (k, [])
  | some pl => let r := pl.load cx t; some (p, r.2 ++ [nyOp 0x110 p r.1 opZero 0 1 [] none])
  | none => none

/-- Fills one source field of a kind; `t` and `p` are its temporaries, `keep` how many sources later fields need. -/
def nyField (cx : NyCtx) (t p keep : Nat) (k : FK) (l : List NySrc) : Option (NyArg × List NySrc) :=
  let run (n : Nat) : Option (NyArg × List NySrc) := (nyRun cx t n l).map (fun r => ((r.1, r.2.1, []), r.2.2))
  let code (base : Nat) : Option (NyArg × List NySrc) := match l with
    | x :: l => if x.kind = 2 ∧ x.val < 512 then some ((base + x.val, [], []), l)
        else if x.kind = 1 ∧ base ≠ 0 then some ((0x180 + x.val, [], []), l) else none
    | [] => none
  match k with
  | .no => some ((0, [], []), l)
  | .src t' => (match l with
    | x :: l => (nyValue cx t (if t'.wide then 2 else 1) x).map (fun v => (v, l))
    | [] => none)
  | .pred => (match l with
    | x :: l => if x.kind = 0 then (nyPred cx t p x.val).map (fun r => ((r.1, r.2, []), l)) else none
    | [] => some ((0, [], []), []))
  | .imm8 _ => code 0
  | .mask6 => code 0
  | .raw => code 0
  | .unit _ => code 0x1C0
  | .run n => run n
  | .quad => run 4
  | .casPair => run 2
  | .mainS => run (max 1 (l.length - keep))
  | _ => none

/-- How many sources a field needs at least. -/
def FK.needs : FK → Nat
  | .no => 0 | .run n => n | .quad => 1 | .dst _ => 0 | .runDst _ => 0 | .quadDst => 0 | .mainD => 0 | _ => 1

/-! ## Instructions -/

/-- The destination field, and the words after the instruction that bring its result to its place; `gd` is the guard. -/
def nyDest (cx : NyCtx) (t : Nat) (k : FK) (dst : Option NyPlace) (gd : Option (Nat × Bool)) : Option (Nat × List NyOut) :=
  let main (n : Nat) : Option (Nat × List NyOut) := match dst with
    | none => some (if n = 1 ∨ n = 2 then opZero else t, [])
    | some (.reg r w) => if w = n then some (r, []) else none
    | some p => if p.words = n then some (t, p.store cx t gd) else none
  match k with
  | .no => if dst.isNone then some (0, []) else none
  | .dst w => main (if w then 2 else 1)
  | .runDst n => (match dst with
    | some (.reg r w) => if n ≤ w then some (r, []) else some (t, nyMoves w r t gd)
    | some (.prd _) => none
    | some p => some (t, p.store cx t gd)
    | none => some (t, []))
  | .quadDst => main 4
  | .pred => (match dst with
    | none => some (6, [])
    | some (.prd k) => some (k, [])
    | some p => some (6, [nyOp 0x603 t (opConst 1) opZero 6 0 [] gd] ++ p.store cx t gd))
  | .mainD => (match dst with
    | none => some (t, [])
    | some p => some (t, p.store cx t gd))
  | _ => none

/-- The destination of an MMAA, whose accumulators the engine reads and writes in place. -/
def nyAcc (dst : Option NyPlace) : Option (Nat × List NyOut) :=
  match dst with
  | some (.reg r _) => some (r, [])
  | _ => none

/-- The return address of a CALL or CALLX whose result is spilled is stored before the callee can need it: a clause of its own
brings the next clause's address there. -/
def nyCallStore (cx : NyCtx) (t : Nat) (p : NyPlace) (gd : Option (Nat × Bool)) : List NyOut :=
  { nyOp 0 0 0 0 0 0 [] none with ctl := true } ::
    nyMov t opLit 1 [.after false] none :: nyMov (t + 1) opLit 1 [.after true] none :: p.store cx t gd

/-- The fields of the entry of a native opcode; CVT and its like name types in their c field, MMAA's b depends on its a. -/
def nyEnc (op mod : Nat) (srcs : List NySrc) : Option Enc :=
  let a := if op = 0xC11 then 0x1C0 + ((srcs.head?.map (·.val)).getD 0) else 0
  let enc (c : Nat) : Option Enc := (decodeOp op (nyFields 0 a 0 c mod none)).bind encOf
  match enc 0 with
  | some e => if e.c = .raw then enc ((srcs.getLast?.map (·.val)).getD 0) else some e
  | none => none

/-- The fields of an opcode that vectors: as many sources as there are, of the widths that they have. -/
def nyAny (cx : NyCtx) (srcs : List NySrc) : Enc :=
  let k (n : Nat) : FK := match srcs[n]? with
    | none => .no
    | some x => .src (OT.ofWide (x.kind == 3 || (x.kind == 0 && ((mget cx.map (2 * x.val)).map NyPlace.words).getD 1 == 2)))
  ⟨.dst false, k 0, k 1, k 2, true, false⟩

/-- A native instruction with its guard, result and sources: the words before, the instruction, the words after. An FSPROBE whose
sources name no predicate writes predicate 6. -/
def nyNative (cx : NyCtx) (op : Nat) (i : NyIns) (srcs : List NySrc) (sets : Option Nat) : Option (List NyOut) :=
  let vec := (decodeOp op (nyFields 0 0 0 0 (i.fl % 16) none)).isNone
  let e := if vec then some (nyAny cx srcs) else nyEnc op (i.fl % 16) srcs
  let guard : Option (Option (Nat × Bool) × List NyOut) := match i.guard with
    | none => some (none, [])
    | some v => (nyPred cx cx.tmp 7 v).map (fun r => (some (r.1, i.fl.testBit 5), r.2))
  match e, guard with
  | some e, some (gd, pg) =>
    let probe := op == 0xD02 && !srcs.getLast?.any (fun x => x.kind == 0 && x.tag == 19)
    match nyField cx cx.tmp 5 (e.b.needs + if probe then 0 else e.c.needs) e.a srcs with
    | none => none
    | some (a, l) => match nyField cx (cx.tmp + 8) 6 e.c.needs e.b l with
      | none => none
      | some (b, l) => match (if probe then some ((6, [], []), l) else nyField cx (cx.tmp + 16) 6 0 e.c l) with
        | none => none
        | some (c, l) =>
          let d : Option (NyArg × List NySrc × List NyOut) := match e.d with
            | .src t => (nyField cx (cx.tmp + 32) 6 0 (.src t) l).map (fun r => (r.1, r.2, []))
            | k =>
              let dst := if i.dst = 0 then none else mget cx.map (2 * i.dst)
              if vec && dst.isNone then some ((0, [], []), l, [])
              else if op = 0xC11 then (nyAcc dst).map (fun r => ((r.1, [], []), l, r.2))
              else (nyDest cx (cx.tmp + 32) (if vec then .dst ((dst.map NyPlace.words).getD 1 == 2) else k) dst gd).map
                (fun r => ((r.1, [], []), l, r.2))
          match d with
          | some (d, [], post) =>
            let early := match mget cx.map (2 * i.dst) with
              | some (.spill off w) => if i.dst ≠ 0 ∧ (op = 0x13 ∨ op = 0x14) then nyCallStore cx d.1 (.spill off w) gd else []
              | _ => []
            let post := if early = [] then post else []
            some (pg ++ a.2.1 ++ b.2.1 ++ c.2.1 ++ d.2.1 ++ early ++
              [⟨packWord (BitVec.ofNat 12 op) (nyFields d.1 a.1 b.1 c.1 (i.fl % 16) gd),
                a.2.2 ++ b.2.2 ++ c.2.2 ++ d.2.2, isTransferOp op, sets⟩] ++ post)
          | _ => none
  | _, _ => none

/-- REP in a body: its sources name no count and no steps, so that it repeats its target once, which changes nothing but that a
REP with a guard or `mod`, without a target, or before an instruction of group 0x0 other than NOP, raises `illegal-encoding` (R71).
It stands before a NOP of its own, or before a second REP where it raises. -/
def nyRep (i : NyIns) (rest : List (Nat × NyIns)) : Option (List NyOut) :=
  let target := (rest.find? (fun x => x.2.op != 0x1002 && x.2.op != 0x1003)).map (fun x => x.2.op)
  let good := i.guard.isNone && i.fl == 0 && (match target with | some op => op == 0 || decide (0x100 ≤ op) | none => false)
  if i.srcs ≠ [] ∨ i.dst ≠ 0 then none
  else some [{ nyOp 1 0 0 0 0 0 (if good then [.num 0#32] else [.num 1#32, .num 0#32]) none with ctl := false }]

/-- One instruction of a body that is no PHI (R407), with those that follow it in its block. -/
def nyCode (cx : NyCtx) (i : NyIns) (rest : List (Nat × NyIns)) : Option (List NyOut) :=
  match i.op with
  | 0x001 => nyRep i rest
  | 0x1001 => (match i.srcs with
    | o :: z :: rest => nyNative cx o.val i rest (if z.val < 64 then some z.val else none)
    | _ => none)
  | 0x1002 => some []
  | 0x1003 => some []
  | 0x1004 => some []
  | op => nyNative cx op i i.srcs none

/-! ## PHI -/

/-- Brings a source to a place. -/
def nyBring (cx : NyCtx) (x : NySrc) (p : NyPlace) : Option (List NyOut) :=
  (nyInRegs cx (cx.tmp + 32) p.words x).map (fun r => r.2 ++ p.store cx r.1 none)

/-- What the edge from block `b` to a block brings to that block's PHIs; `later` lists what `b` defines after the edge
leaves it. -/
def nyEdge (cx : NyCtx) (blocks : List NyBlock) (b to_ : Nat) (later : List Nat) : Option (List NyOut) :=
  let phis := ((blocks.filter (fun x => x.1 == to_)).flatMap (·.2)).filter (fun x => x.2.op == 0x1000 && x.2.dst != 0)
  let moves := phis.flatMap (fun x => (((phiPairs x.2.srcs).getD []).filter (fun q => q.1 == b &&
    !(q.2.kind == 0 && later.contains q.2.val))).map (fun q => (x.2.dst, q.2)))
  (moves.mapM (fun (m : Nat × NySrc) => match mget cx.map (2 * m.1 + 1) with
    | some p => nyBring cx m.2 p
    | none => none)).map List.flatten

/-- What a block's PHIs take at its start. -/
def nyPhis (cx : NyCtx) (b : NyBlock) : List NyOut :=
  (b.2.filter (fun x => x.2.op == 0x1000)).flatMap (fun x =>
    match mget cx.map (2 * x.2.dst + 1), mget cx.map (2 * x.2.dst) with
    | some i, some p => let r := i.load cx (cx.tmp + 32); r.2 ++ p.store cx r.1 none
    | _, _ => [])

/-! ## Blocks and clauses -/

/-- The words of a block's instructions; before one that may leave the block stands what its edges bring. -/
def nyBlockCode (cx : NyCtx) (blocks : List NyBlock) (b : Nat) : List (Nat × NyIns) → Option (List NyOut)
  | [] => some []
  | (_, i) :: rest =>
    if i.op = 0x1000 then nyBlockCode cx blocks b rest
    else
      let later := rest.flatMap (fun x => if x.2.dst = 0 then [] else [x.2.dst])
      let outs := ((i.srcs.filter (fun x => x.kind == 4)).map (·.val)).mapM (fun t => nyEdge cx blocks b t later)
      match outs, nyCode cx i rest, nyBlockCode cx blocks b rest with
      | some e, some w, some r => some (e.flatten ++ w ++ r)
      | _, _, _ => none

/-- Every block with its words; a block that goes on to the next ends with what that edge brings. -/
def nyAllCode (cx : NyCtx) (blocks : List NyBlock) : List NyBlock → Option (List (Nat × List NyOut))
  | [] => some []
  | b :: rest =>
    let goes := match b.2.getLast? with | some x => !x.2.ends | none => true
    let last := match rest with
      | n :: _ => if goes then nyEdge cx blocks b.1 n.1 [] else some []
      | [] => some []
    match nyBlockCode cx blocks b.1 b.2, last, nyAllCode cx blocks rest with
    | some w, some e, some r => some ((b.1, nyPhis cx b ++ w ++ e) :: r)
    | _, _, _ => none

/-- How many words a native word takes. -/
def NyOut.size (o : NyOut) : Nat := 1 + o.lits.length

/-- A block's words cut into clauses of at most 16 words; a control transfer ends its clause. -/
def nyCut : List NyOut → List NyOut → List (List NyOut)
  | [], cur => if cur = [] then [] else [cur]
  | o :: l, cur =>
    let full := decide (16 < (cur.map NyOut.size).sum + o.size)
    let cur' := if full then [o] else cur ++ [o]
    let done := if full then [cur] else []
    if o.ctl then done ++ cur' :: nyCut l [] else done ++ nyCut l cur'

/-- The clauses of every block, each with the block that it starts; a block without words is a NOP. -/
def nyClauses (l : List (Nat × List NyOut)) : List (Option Nat × List NyOut) :=
  l.flatMap (fun b => match nyCut b.2 [] with
    | [] => [(some b.1, [nyOp 0 0 0 0 0 0 [] none])]
    | c :: cs => (some b.1, c) :: cs.map (fun c => (none, c)))

/-- Clauses with their addresses. -/
def nyPlaced : Nat → List (Option Nat × List NyOut) → List (Nat × Option Nat × List NyOut)
  | _, [] => []
  | a, c :: l => (a, c) :: nyPlaced (a + 8 * ((c.2.map NyOut.size).sum + 1)) l

/-- A literal word at a clause, which the clause at `next` follows. -/
def NyLit.value (addr : Nat → Nat) (h next : Nat) : NyLit → W64
  | .num v => v.setWidth 64
  | .rel b => (BitVec.ofInt 32 (((addr b : Int) - (h : Int)) / 8)).setWidth 64
  | .half b hi => BitVec.ofNat 64 (if hi then addr b / 2 ^ 32 else addr b % 2 ^ 32)
  | .after hi => BitVec.ofNat 64 (if hi then next / 2 ^ 32 else next % 2 ^ 32)

/-- The bytes of a clause: its header names the mixed class (R53, R55). -/
def nyClauseBytes (addr : Nat → Nat) (c : Nat × Option Nat × List NyOut) : List Byte :=
  let n := (c.2.2.map NyOut.size).sum
  leBytes 8 (n - 1 + 5 * 16) ++
    c.2.2.flatMap (fun o => leBytes 8 o.word.toNat ++ o.lits.flatMap (fun x => leBytes 8 (x.value addr c.1 (c.1 + 8 * (n + 1))).toNat))

/-- The program counters of a clause's slots that are collective over sets, with their sizes. -/
def nySets (h : Nat) : Nat → List NyOut → List (Nat × Nat)
  | _, [] => []
  | n, o :: l => (match o.sets with | some z => [(h + n * 2 ^ 56, z)] | none => []) ++ nySets h (n + o.size) l

/-- A translated kernel: quota, scratch units, clauses, and the program counters of its collectives over sets. -/
structure NyKernel where
  quota   : Nat
  scratch : Nat
  code    : List Byte
  sets    : List (Nat × Nat)

/-- R405: the translation of a body's blocks for a descriptor, its clauses to stand at an address. The prologue finds the
thread's spill bytes: the low bits of its work identifier number it within its group. -/
def nyTranslate (d : BitVec 512) (va : Nat) (l : List NyIns) (blocks : List NyBlock) : Option NyKernel :=
  let al := nyAlloc l
  let tmp := roundUp al.reg 4
  let cx : NyCtx := ⟨al.map, tmp, tmp + 48⟩
  let bits := widPos d (kdGrm d)
  let stride := roundUp (4 * al.spill) 16
  let scratch := kdScratch d + (stride * 2 ^ bits + 255) / 256
  let start := if al.spill = 0 then [] else
    [nyOp 0x200 tmp 0x18C opLit 0 0 [.num (BitVec.ofNat 32 (2 ^ bits - 1))] none,
     nyOp 0x107 cx.base tmp opLit opLit 0 [.num (BitVec.ofNat 32 stride), .num (BitVec.ofNat 32 (256 * kdScratch d))] none]
  match nyAllCode cx blocks blocks with
  | none => none
  | some code =>
    let placed := nyPlaced va (nyClauses ((if start = [] then [] else [(0, start)]) ++ code))
    let addr (b : Nat) : Nat := ((placed.find? (fun c => c.2.1 == some b)).map (·.1)).getD va
    let words := placed.flatMap (fun c => c.2.2)
    let temps := words.any (fun o => decide (tmp ≤ (wbits o.word 16 9).toNat) && decide ((wbits o.word 16 9).toNat < 128))
    let las := if words.any (fun o => opAt o.word == 0xD10) then 72 else 0
    let quota := (if temps then cx.base + 1 else max 2 tmp) + las
    if 256 < quota ∨ 1536 < scratch then none
    else some ⟨quota, scratch, placed.flatMap (nyClauseBytes addr), placed.flatMap (fun c => nySets c.1 0 c.2.2)⟩

end Sys2Proof.Machine
end

