-- ==== Sys2Proof/Machine/Objects.lean ====
section
/-! DEFINITION. LOAD (R298): Limbel objects (R91-R100), features and errata (R401, R402), Nysol bodies (R405). The object lies
at an intermediate address; its segments go to the virtual addresses that its program headers name. -/
namespace Sys2Proof.Machine

/-! ## The file (R91, R92) -/

/-- A section header. -/
structure Sec where
  ty   : Nat
  addr : Nat
  off  : Nat
  size : Nat
  link : Nat
  info : Nat
  deriving DecidableEq, Repr

/-- A program header. -/
structure Seg where
  ty   : Nat
  off  : Nat
  va   : Nat
  fsz  : Nat
  msz  : Nat
  deriving DecidableEq, Repr

/-- An object file: how its bytes are read, the bytes that relocations have changed, its headers. -/
structure Obj where
  rd    : Nat → Nat → Option (List Byte)
  patch : AMap Byte
  secs  : List Sec
  segs  : List Seg

/-- A little-endian field of some bytes. -/
def fld (bs : List Byte) (off n : Nat) : Nat := leNat ((bs.drop off).take n)

def secOf (bs : List Byte) : Sec := ⟨fld bs 4 4, fld bs 16 8, fld bs 24 8, fld bs 32 8, fld bs 40 4, fld bs 44 4⟩
def segOf (bs : List Byte) : Seg := ⟨fld bs 0 4, fld bs 8 8, fld bs 16 8, fld bs 32 8, fld bs 40 8⟩

/-- Bytes of the file as relocated. -/
def Obj.bytes (o : Obj) (off n : Nat) : Option (List Byte) :=
  (o.rd off n).map (fun bs => (bs.zip (upFrom off n)).map (fun x => mgetD o.patch x.2 x.1))

/-- Replaces bytes. -/
def Obj.put (o : Obj) (off : Nat) (bs : List Byte) : Obj :=
  { o with patch := ((upFrom off bs.length).zip bs).foldl (fun m x => mset m x.1 x.2) o.patch }

/-- The LOF section types (R92). -/
def stText : Nat := 0x70000010
def stScalar : Nat := 0x70000011
def stNysol : Nat := 0x70000012
def stKdesc : Nat := 0x70000013
def stTensor : Nat := 0x70000014
def stFstable : Nat := 0x70000015
def stCompat : Nat := 0x70000016
def stEmu : Nat := 0x70000017

def Obj.ofType (o : Obj) (t : Nat) : List Sec := o.secs.filter (fun x => x.ty == t)

/-- Records of `n` bytes of a section: file offset and bytes; none where the section is no whole number of them. -/
def Obj.records (o : Obj) (n : Nat) (x : Sec) : Option (List (Nat × List Byte)) :=
  if x.size % n ≠ 0 then none
  else (upFrom 0 (x.size / n)).mapM (fun i => (o.bytes (x.off + n * i) n).map (fun bs => (x.off + n * i, bs)))

/-- The records of every section of a type. -/
def Obj.allRecords (o : Obj) (t n : Nat) : Option (List (Nat × List Byte)) :=
  ((o.ofType t).mapM (o.records n)).map List.flatten

/-- R91: whether a file header is that of a K7 object. -/
def headerOk (h : List Byte) : Bool :=
  h.take 4 == [0x7F#8, 0x45#8, 0x4C#8, 0x46#8] && fld h 4 1 == 2 && fld h 5 1 == 1 && fld h 18 2 == 0x9A70

/-- Reads a file's headers. -/
def openObj (rd : Nat → Nat → Option (List Byte)) (h : List Byte) : Option Obj :=
  let sh := (upFrom 0 (fld h 60 2)).mapM (fun i => (rd (fld h 40 8 + fld h 58 2 * i) 64).map secOf)
  let ph := (upFrom 0 (fld h 56 2)).mapM (fun i => (rd (fld h 32 8 + fld h 54 2 * i) 56).map segOf)
  match sh, ph with
  | some secs, some segs => some ⟨rd, [], secs, segs⟩
  | _, _ => none

/-- The file offset of a virtual address. -/
def Obj.offOf (o : Obj) (va : Nat) : Option Nat :=
  (o.segs.find? (fun g => g.ty == 1 && decide (g.va ≤ va) && decide (va < g.va + g.fsz))).map (fun g => g.off + (va - g.va))

/-! ## Relocations (R99) -/

/-- A relocation: type, place, file offset of the place, symbol value, addend. -/
structure Reloc where
  ty  : Nat
  p   : Nat
  off : Nat
  sym : Int
  add : Int
  text : Sec

/-- A signed 64-bit number. -/
def signed64 (n : Nat) : Int := (BitVec.ofNat 64 n).toInt

/-- The relocations of a relocation section. -/
def Obj.relocsOf (o : Obj) (x : Sec) : Option (List Reloc) :=
  match o.secs[x.info]?, o.secs[x.link]? with
  | some target, some symtab =>
    match o.records 24 x with
    | none => none
    | some l => l.mapM (fun r =>
        let p := fld r.2 0 8
        let info := fld r.2 8 8
        (o.rd (symtab.off + 24 * (info / 2 ^ 32)) 24).map (fun y =>
          { ty := info % 2 ^ 32, p := p, off := target.off + (p - target.addr), sym := (fld y 8 8 : Nat),
            add := signed64 (fld r.2 16 8), text := target }))
  | _, _ => none

/-- Every relocation (SHT_RELA is type 4). -/
def Obj.relocs (o : Obj) : Option (List Reloc) := ((o.secs.filter (fun x => x.ty == 4)).mapM o.relocsOf).map List.flatten

/-- The clause headers of a text section from an address up; `fuel` bounds their number. -/
def Obj.headers (o : Obj) (x : Sec) : Nat → Nat → List Nat
  | 0, _ => []
  | fuel + 1, a =>
    if x.addr + x.size ≤ a then []
    else match o.rd (x.off + (a - x.addr)) 8 with
      | none => []
      | some bs => a :: Obj.headers o x fuel (a + 8 * (leNat bs % 16 + 2))

/-- Every clause header of the object's text. -/
def Obj.allHeaders (o : Obj) : List Nat := (o.ofType stText).flatMap (fun x => o.headers x (x.size / 8 + 1) x.addr)

/-- The header of the clause that holds a place. -/
def Obj.headOf (o : Obj) (p : Nat) : Option Nat := (o.allHeaders.filter (fun a => decide (a ≤ p))).getLast?

/-- The slot of a kernel's tensor array in which a record lies. -/
def Obj.tensorSlot (o : Obj) (v : Int) : Option Nat :=
  match o.allRecords stKdesc 64 with
  | none => none
  | some l => l.findSome? (fun r =>
      let d := recOf r.2
      let i := v - (kdTsbase d : Nat)
      if 0 ≤ i ∧ i % 64 = 0 ∧ i / 64 < 16 ∧ kdTsbase d ≠ 0 then some (i / 64).toNat else none)

/-- The number of a function-store entry of the object. -/
def Obj.tableSlot (o : Obj) (v : Int) : Option Nat :=
  (o.ofType stFstable).findSome? (fun x =>
    let i := v - (x.addr : Nat)
    if 0 ≤ i ∧ i % 128 = 0 ∧ i / 128 < 16 ∧ i < (x.size : Nat) then some (i / 128).toNat else none)

/-- Writes the low bits of a value at a place. -/
def Obj.putNum (o : Obj) (off n : Nat) (v : Int) : Obj := o.put off (leBytes n (v % 2 ^ (8 * n)).toNat)

/-- Writes an operand field of the word at a place. -/
def Obj.putField (o : Obj) (r : Reloc) (bits : List Nat) (base : Nat) (n : Option Nat) : Option Obj :=
  let b := (r.add % 64).toNat
  match n, o.bytes r.off 8 with
  | some n, some w =>
    if 0 ≤ r.add ∧ r.add < 64 ∧ bits.contains b then
      let w := leNat w
      some (o.put r.off (leBytes 8 (w - natBits w b 9 * 2 ^ b + (base + n) * 2 ^ b)))
    else none
  | _, _ => none

/-- Whether a value fits `n` unsigned bits. -/
def fitsU (n : Nat) (v : Int) : Bool := decide (0 ≤ v) && decide (v < 2 ^ n)

/-! RISC-V relocations (R99): those of the psABI (PRESUMED, log 73). -/

/-- Replaces bits of the `n` bytes at a place: pairs of (bit of the place, bit of the value). -/
def Obj.putBits (o : Obj) (off n : Nat) (l : List (Nat × Nat)) (v : Int) : Option Obj :=
  (o.bytes off n).map (fun bs =>
    let w := (v % 2 ^ 64).toNat
    o.put off (leBytes n (l.foldl (fun x p =>
      let b := if x.testBit p.1 then x - 2 ^ p.1 else x
      if w.testBit p.2 then b + 2 ^ p.1 else b) (leNat bs))))

/-- A run of `n` bits, from value bit `j` on at place bit `i` on. -/
def bitRun (i j n : Nat) : List (Nat × Nat) := (upFrom 0 n).map (fun k => (i + k, j + k))

/-- The immediates of the RISC-V formats: (place bit, value bit). -/
def rvImmU : List (Nat × Nat) := bitRun 12 12 20
def rvImmI : List (Nat × Nat) := bitRun 20 0 12
def rvImmS : List (Nat × Nat) := bitRun 7 0 5 ++ bitRun 25 5 7
def rvImmB : List (Nat × Nat) := [(31, 12), (7, 11)] ++ bitRun 25 5 6 ++ bitRun 8 1 4
def rvImmJ : List (Nat × Nat) := [(31, 20), (20, 11)] ++ bitRun 21 1 10 ++ bitRun 12 12 8
def rvImmCB : List (Nat × Nat) := [(12, 8), (2, 5)] ++ bitRun 10 3 2 ++ bitRun 5 6 2 ++ bitRun 3 1 2
def rvImmCJ : List (Nat × Nat) := [(12, 11), (11, 4), (8, 10), (7, 6), (6, 7), (2, 5)] ++ bitRun 9 8 2 ++ bitRun 3 1 3

/-- Whether a displacement is even and fits `n` signed bits. -/
def fitsDisp (n : Nat) (v : Int) : Bool := decide (v % 2 = 0) && decide (-(2 ^ (n - 1)) ≤ v) && decide (v < 2 ^ (n - 1))

/-- Whether a value fits an auipc or lui with the 12 bits that follow it. -/
def fitsHi (v : Int) : Bool := decide (-(2 ^ 31) ≤ v + 0x800) && decide (v + 0x800 < 2 ^ 31)

/-- The low 12 bits of a place's high-part relocation, which a low-part relocation of its instruction completes. -/
def pcrelLo (all : List Reloc) (r : Reloc) : Option Int :=
  (all.find? (fun h => h.ty == 23 && decide ((h.p : Int) = r.sym))).map (fun h => h.sym + h.add - (h.p : Int))

/-- Changes the `n` bytes at a place by a value. -/
def Obj.addNum (o : Obj) (off n : Nat) (v : Int) : Option Obj :=
  (o.bytes off n).map (fun bs => o.putNum off n ((leNat bs : Int) + v))

/-- The number of bytes of the ULEB128 number at a place, at most `fuel`. -/
def Obj.ulebLen (o : Obj) (off : Nat) : Nat → Nat
  | 0 => 0
  | fuel + 1 => match o.bytes off 1 with
    | some [b] => if b.toNat < 128 then 1 else 1 + Obj.ulebLen o (off + 1) fuel
    | _ => 1

/-- Writes a ULEB128 number in the bytes of the one at a place; `old` says to subtract from that one. -/
def Obj.putUleb (o : Obj) (off : Nat) (v : Int) (old : Bool) : Option Obj :=
  let n := o.ulebLen off 10
  (o.bytes off n).map (fun bs =>
    let was : Nat := ((bs.zip (upFrom 0 n)).map (fun x => x.1.toNat % 128 * 128 ^ x.2)).sum
    let w := ((if old then (was : Int) - v else v) % 128 ^ n).toNat
    o.put off ((upFrom 0 n).map (fun i => BitVec.ofNat 8 (w / 128 ^ i % 128 + (if i + 1 < n then 128 else 0)))))

/-- One relocation of scalar code; none where its value does not fit, or where it needs tables that an object does not have
(GOT, TLS, PLT slots). -/
def Obj.relocateRv (all : List Reloc) (o : Obj) (r : Reloc) : Option Obj :=
  let v := r.sym + r.add
  let pc := v - (r.p : Int)
  match r.ty with
  | 0 => some o
  | 1 => some (o.putNum r.off 4 v)
  | 2 => some (o.putNum r.off 8 v)
  | 3 => some (o.putNum r.off 8 r.add)
  | 16 => if fitsDisp 13 pc then o.putBits r.off 4 rvImmB pc else none
  | 17 => if fitsDisp 21 pc then o.putBits r.off 4 rvImmJ pc else none
  | 18 => if fitsHi pc then (o.putBits r.off 4 rvImmU (pc + 0x800)).bind (fun o => o.putBits (r.off + 4) 4 rvImmI pc) else none
  | 19 => if fitsHi pc then (o.putBits r.off 4 rvImmU (pc + 0x800)).bind (fun o => o.putBits (r.off + 4) 4 rvImmI pc) else none
  | 23 => if fitsHi pc then o.putBits r.off 4 rvImmU (pc + 0x800) else none
  | 24 => (pcrelLo all r).bind (o.putBits r.off 4 rvImmI)
  | 25 => (pcrelLo all r).bind (o.putBits r.off 4 rvImmS)
  | 26 => if fitsHi v then o.putBits r.off 4 rvImmU (v + 0x800) else none
  | 27 => o.putBits r.off 4 rvImmI v
  | 28 => o.putBits r.off 4 rvImmS v
  | 33 => o.addNum r.off 1 v
  | 34 => o.addNum r.off 2 v
  | 35 => o.addNum r.off 4 v
  | 36 => o.addNum r.off 8 v
  | 37 => o.addNum r.off 1 (-v)
  | 38 => o.addNum r.off 2 (-v)
  | 39 => o.addNum r.off 4 (-v)
  | 40 => o.addNum r.off 8 (-v)
  | 43 => some o
  | 44 => if fitsDisp 9 pc then o.putBits r.off 2 rvImmCB pc else none
  | 45 => if fitsDisp 12 pc then o.putBits r.off 2 rvImmCJ pc else none
  | 51 => some o
  | 52 => (o.bytes r.off 1).map (fun bs =>
      let b : Int := (leNat bs : Int)
      o.putNum r.off 1 (b / 64 * 64 + (b % 64 - v) % 64))
  | 53 => (o.bytes r.off 1).map (fun bs => o.putNum r.off 1 ((leNat bs : Int) / 64 * 64 + v % 64))
  | 54 => some (o.putNum r.off 1 v)
  | 55 => some (o.putNum r.off 2 v)
  | 56 => some (o.putNum r.off 4 v)
  | 57 => some (o.putNum r.off 4 pc)
  | 59 => some (o.putNum r.off 4 pc)
  | 60 => o.putUleb r.off v false
  | 61 => o.putUleb r.off v true
  | _ => none

/-- One relocation; none where its check fails. -/
def Obj.relocate (all : List Reloc) (o : Obj) (r : Reloc) : Option Obj :=
  let v := r.sym + r.add
  if r.text.ty = stScalar then o.relocateRv all r
  else match r.ty with
  | 1 => some (o.putNum r.off 8 v)
  | 2 => if fitsU 32 v then some (o.putNum r.off 4 v) else none
  | 3 => some (o.putNum r.off 4 v)
  | 4 => if fitsU 56 v then some (o.putNum r.off 4 (v / 2 ^ 32)) else none
  | 5 =>
    (match o.headOf r.p with
     | none => none
     | some h =>
       let q := (v - (h : Nat)) / 8
       if 0 ≤ v ∧ o.allHeaders.contains v.toNat ∧ -(2 ^ 31) ≤ q ∧ q < 2 ^ 31 then some (o.putNum r.off 4 q) else none)
  | 6 => o.putField r [25, 34, 43] (0x180 + 64) (o.tensorSlot r.sym)
  | 7 => o.putField r [25, 34, 43] (0x180 + 64) (o.tableSlot r.sym)
  | 8 => if fitsU 56 v then some (o.putNum r.off 7 v) else none
  | 9 => o.putField r [25] (0x180 + 80) (o.tensorSlot r.sym)
  | _ => none

/-- Every relocation in order, those that name slots after the rest; whether all passed. -/
def Obj.relocateAll (o : Obj) (l : List Reloc) : Obj × Bool :=
  let slots (r : Reloc) : Bool := r.ty == 6 || r.ty == 7 || r.ty == 9
  (l.filter (fun r => !slots r) ++ l.filter slots).foldl (fun x r =>
    match x.1.relocate l r with | some o => (o, x.2) | none => (x.1, false)) (o, true)

/-! ## Records (R93-R98) -/

/-- The compat record: generation, features, errata. -/
structure Compat where
  gen  : Nat
  feat : Nat
  errs : List W32

/-- R97: the object's compat record; one that breaks the rule is none. -/
def Obj.compat (o : Obj) : Option Compat :=
  match o.ofType stCompat with
  | [] => some ⟨7, 0, []⟩
  | x :: _ => match o.bytes x.off 32 with
    | none => none
    | some h =>
      let n := fld h 12 4
      if fld h 16 16 ≠ 0 ∨ fld h 8 4 ≠ 0 ∨ 256 < n ∨ 64 ≤ fld h 4 4 ∨ fld h 2 2 ≠ 1 then none
      else (o.bytes (x.off + 32) (4 * n)).map (fun bs =>
        ⟨fld h 0 2, fld h 4 4, (upFrom 0 n).map (fun i => BitVec.ofNat 32 (fld bs (4 * i) 4))⟩)

/-- R98: whether a handler entry keeps the rule. -/
def emuOk (bs : List Byte) : Bool := fld bs 7 1 == 0 && (fld bs 8 1 == 1 || fld bs 8 1 == 2) && fld bs 9 7 == 0

/-- Whether every record keeps R93 to R98. -/
def Obj.recordsOk (o : Obj) : Bool :=
  (match o.allRecords stKdesc 64 with | some l => l.all (fun r => kdescOk (recOf r.2)) | none => false) &&
  (match o.allRecords stTensor 64 with | some l => l.all (fun r => trOk (recOf r.2)) | none => false) &&
  (match o.allRecords stFstable 128 with
   | some l => l.all (fun r => fdOk (recOf (r.2.take 64)) && radOk (recOf (r.2.take 64)) (recOf (r.2.drop 64)))
   | none => false) &&
  (match o.allRecords stEmu 16 with
   | some l => l.all (fun r => emuOk r.2) && decide (l.countP (fun r => fld r.2 8 1 == 1) ≤ 1) &&
       decide (l.countP (fun r => fld r.2 8 1 == 2) ≤ 1)
   | none => false) &&
  o.compat.isSome

/-! ## Errata (R402) -/

/-- The slots of a bank that keep the declared errata; the first that it does not keep is the error. -/
def keptMask (b : Bank) : List W32 → BitVec 8 → Except W32 (BitVec 8)
  | [], m => .ok m
  | e :: rest, m =>
    match (upFrom 0 b.nkept.toNat).find? (fun i => b.errs[i]? == some e) with
    | some i => keptMask b rest (m ||| (1#8 <<< (i + 1)))
    | none => .error e

/-- R402: the code regions with the object's, or the erratum that is refused. -/
def withRegion (c : Context) (b : Bank) (errs : List W32) (x : Sec) : Except W32 (List CodeRegion) :=
  match errs with
  | [] => .ok c.code
  | e :: _ =>
    match keptMask b errs 0#8 with
    | .error e => .error e
    | .ok m =>
      if 16 ≤ c.code.length ∨ c.code.any (fun r => overlaps (r.base, r.size) (x.addr, x.size)) then .error e
      else .ok (c.code ++ [⟨x.addr, x.size, m⟩])

/-! ## Nysol (R405) -/

/-- The bytes of the body at an address. -/
def Obj.bodyAt (o : Obj) (va : Nat) : Option (List Byte) :=
  match o.offOf va with
  | none => none
  | some off => (o.bytes off 4).bind (fun h => o.bytes off (leNat h))

/-- Whether the bodies of a section are valid, one after another at multiples of 8 bytes, as the section is aligned (log 112);
`fuel` bounds their number. -/
def Obj.bodiesIn (o : Obj) (x : Sec) : Nat → Nat → Bool
  | 0, off => decide (x.size ≤ off)
  | fuel + 1, off =>
    if x.size ≤ off then true
    else match o.bytes (x.off + off) 4 with
      | none => false
      | some h =>
        let n := leNat h
        decide (16 ≤ n) && decide (off + n ≤ x.size) &&
          (match o.bytes (x.off + off) n with | some b => nysolOk b | none => false) &&
          Obj.bodiesIn o x fuel (roundUp (off + n) 8)

/-- Whether every Nysol body of the object is valid: those that its kernels name, and all of `.kf.nysol` (R92, R100). -/
def Obj.bodiesOk (o : Obj) (kds : List (Nat × List Byte)) : Bool :=
  kds.all (fun r => !kdPort (recOf r.2) || (match o.bodyAt (kdNbody (recOf r.2)) with | some b => nysolOk b | none => false)) &&
    (o.ofType stNysol).all (fun x => o.bodiesIn x (x.size / 16 + 1) 0)

/-- The descriptor of a translated kernel: a new vector entry, quota and scratch. -/
def kdTranslated (d : BitVec 512) (ventry quota scratch : Nat) : BitVec 512 :=
  let keep := ~~~(BitVec.ofNat 512 (2 ^ 56 - 1 + (2 ^ 32 - 1) * 2 ^ 256))
  (d &&& keep) ||| BitVec.ofNat 512 (ventry % 2 ^ 56 + quota % 2 ^ 16 * 2 ^ 256 + scratch % 2 ^ 16 * 2 ^ 272)

/-- Translates kernels one after another into the segment kept for them (R405): the object with its new descriptors, the
clauses made so far, and the program counters of their collectives over sets (R408). -/
def translateAll (va room : Nat) : List (Nat × List Byte) → Obj → List Byte → AMap Nat →
    Option (Obj × List Byte × AMap Nat)
  | [], o, out, sets => some (o, out, sets)
  | r :: rest, o, out, sets =>
    let d := recOf r.2
    match ((o.bodyAt (kdNbody d)).bind nyOpen).bind (fun b => nyTranslate d (va + out.length) b.1 b.2.1) with
    | none => none
    | some k =>
      if room < out.length + k.code.length then none
      else translateAll va room rest (o.put r.1 (leBytes 64 (kdTranslated d (va + out.length) k.quota k.scratch).toNat))
        (out ++ k.code) (k.sets.foldl (fun m x => mset m x.1 x.2) sets)

/-! ## LOAD -/

/-- The physical and intermediate address of a byte of the context, whatever its permissions: LOAD writes its segments past `w` (log 94). -/
def ctxPlace (s : State) (cid va : Nat) : Option (Nat × Nat) :=
  match walkFrom s cid va 0#2 [0, 1, 2, 3] (s.ctx cid).ptroot.toNat with
  | .error _ => none
  | .ok lf =>
    let ipa := pteAddr lf.pte + va % (leafGranules lf.lvl * 65536)
    (stage2 s (vfOf cid) ipa 0#2).map (fun x => (x.1, ipa))

/-- Writes bytes of the context; none where a page is not there, or where a unit written in part fails its check (R428). -/
def ctxPut (s : State) (cid va : Nat) (bs : List Byte) : Option State :=
  ((upFrom va bs.length).mapM (ctxPlace s cid)).bind (fun places =>
    let s := places.foldl (fun s x => s.reachAt x.1 x.2) s
    let pas := places.map (·.1)
    if (s.writeBad (s.ctx cid).keyId pas).isSome then none else some (pokeRuns s (s.ctx cid).keyId pas bs))

/-- Writes the segments, and the translated clauses after them. -/
def loadSegs (cid : Nat) (o : Obj) : List Seg → State → Option State
  | [], s => some s
  | g :: rest, s =>
    if g.ty ≠ 1 then loadSegs cid o rest s
    else match o.bytes g.off (min g.fsz g.msz) with
      | none => none
      | some bs => (ctxPut s cid g.va (bs ++ List.replicate (g.msz - g.fsz) 0#8)).bind (loadSegs cid o rest)

/-- R98: the handlers that the object brings. -/
def Context.withHandlers (c : Context) (emu : List (Nat × List Byte)) : Context :=
  emu.foldl (fun c r =>
    let a : W64 := BitVec.ofNat 64 (fld r.2 0 7)
    if fld r.2 8 1 = 1 then { c with tvec := a } else { c with evec := a }) c

/-- The statuses of R99 for a refused object. -/
def lsBadMachine : BitVec 8 := 0x10#8
def lsBadRecord : BitVec 8 := 0x11#8
def lsFeature : BitVec 8 := 0x12#8
def lsErratum : BitVec 8 := 0x13#8
def lsNysol : BitVec 8 := 0x14#8
def lsReloc : BitVec 8 := 0x15#8

/-- The set sizes of a context after an object has been brought in: those of code that it overwrites are gone. -/
def setsAfter (o : Obj) (old new : AMap Nat) : AMap Nat :=
  new.foldl (fun m x => mset m x.1 x.2) (old.filter (fun x => !o.segs.any (fun g =>
    (g.ty == 1 || g.ty == 0x70000001) && decide (g.va ≤ x.1 % 2 ^ 56) && decide (x.1 % 2 ^ 56 < g.va + g.msz))))

/-- Brings a checked object into the context. Where a page is not there, LOAD reports `bad-record` (log 93). -/
def placeObj (s : State) (cid : Nat) (o : Obj) (clauses : List Byte) (sets : AMap Nat) (code : List CodeRegion) (tva : Nat) :
    State × BitVec 8 :=
  match (loadSegs cid o o.segs s).bind (fun s => ctxPut s cid tva clauses) with
  | none => (s, lsBadRecord)
  | some s' =>
    let c := (s'.ctx cid).withHandlers ((o.allRecords stEmu 16).getD [])
    (s'.setCtx cid { c with code := code, loaded := true, sgSize := setsAfter o c.sgSize sets }, csOk)

/-- R100: the checks of an object in their order; `o` is relocated, and `fits` says that every relocation passed its
check. -/
def checkObj (s : State) (cid : Nat) (o : Obj) (fits : Bool) : State × BitVec 8 :=
  match o.compat, o.allRecords stKdesc 64 with
  | some k, some kds =>
    let b := s.bank cid
    let native := k.gen == 7 && k.feat &&& b.feat.toNat == k.feat
    let seg := (o.segs.find? (fun g => g.ty == 0x70000001)).getD ⟨0, 0, 0, 0, 0⟩
    if !o.recordsOk then (s, lsBadRecord)
    else if !native && (kds.isEmpty || kds.any (fun r => !kdPort (recOf r.2))) then (s, lsFeature)
    else match withRegion (s.ctx cid) b k.errs ((o.ofType stText).headD ⟨0, 0, 0, 0, 0, 0⟩) with
      | .error e =>
        let p := s.part (vfOf cid)
        (s.setPart (vfOf cid) { p with arg := e.setWidth 56, argRes := false }, lsErratum)
      | .ok code =>
        if !o.bodiesOk kds then (s, lsNysol)
        else match translateAll seg.va seg.msz (if native then [] else kds) o [] [] with
          | none => (s, lsNysol)
          | some (o, clauses, sets) => if fits then placeObj s cid o clauses sets code seg.va else (s, lsReloc)
  | _, _ => (s, lsBadRecord)

/-- The body of LOAD. Bytes of the object that cannot be read are reported as `bad-machine` in its header and as `bad-record`
beyond it (log 93). -/
def loadBody (s : State) (cid : Nat) (arg : BitVec 56) : State × BitVec 8 :=
  let rd (off n : Nat) : Option (List Byte) := ipaRead s (vfOf cid) (arg.toNat + off) n
  match rd 0 64 with
  | none => (s, lsBadMachine)
  | some h =>
    if !headerOk h then (s, lsBadMachine)
    else match openObj rd h with
      | none => (s, lsBadRecord)
      | some o => match o.relocs with
        | none => (s, lsBadRecord)
        | some l => let r := o.relocateAll l; checkObj s cid r.1 r.2

/-- LOAD (R100). -/
def execLoadObj (vf : Nat) (s : State) : Host.Outcome State Fault Refusal :=
  runCmd 7#8 (fun st => st == .active || st == .quiesced) (fun s cid arg =>
    let r := loadBody s cid arg; some (r.1, r.2, 0#32)) vf s

end Sys2Proof.Machine
end

