-- ==== Sys2Proof/Machine/Packed.lean ====
section
/-! DEFINITION. The meanings of packed FP16 and BF16 (R127, R42): each is a thread-local instruction of the shared shape `runAlu`. -/
namespace Sys2Proof.Machine

/-- The halves of a word. -/
def loHalf (x : W32) : Nat := x.toNat % 65536
def hiHalf (x : W32) : Nat := x.toNat / 65536

/-- R127: an operation on both halves; the flags are ORed. -/
def halves (op : Nat → Nat → FRes) (a b : W32) : FRes :=
  let l := op (loHalf a) (loHalf b); let h := op (hiHalf a) (hiHalf b)
  ⟨l.bits + h.bits * 65536, l.flags ||| h.flags⟩
/-- The same with three operands. -/
def halves3 (op : Nat → Nat → Nat → FRes) (a b c : W32) : FRes :=
  let l := op (loHalf a) (loHalf b) (loHalf c); let h := op (hiHalf a) (hiHalf b) (hiHalf c)
  ⟨l.bits + h.bits * 65536, l.flags ||| h.flags⟩
/-- HCMP2's mask of one half. -/
def cmpMask (fm : FFmt) (cc : BitVec 4) (a b : Nat) : FRes :=
  let r := fCmp fm cc a b; ⟨if r.1 then 0xFFFF else 0, r.2⟩
/-- HDOT2 (R42): the exact sum rounded once to FP32. -/
def fDot2 (fm : FFmt) (mode : RM) (a b c : W32) : FRes :=
  let x0 := decodeF fm (loHalf a); let x1 := decodeF fm (hiHalf a)
  let y0 := decodeF fm (loHalf b); let y1 := decodeF fm (hiHalf b)
  let z := decodeF .f32 c.toNat
  let p := mulV x0 y0; let q := mulV x1 y1
  let r := sumV mode [z, p.1, q.1]
  finish .f32 mode r.1 (p.2 || q.2 || r.2 || x0.isSig || x1.isSig || y0.isSig || y1.isSig || z.isSig)

/-- HADD2_F16 (R127). -/
def execHadd2F16 (f : Fields) (s : State) : Host.Outcome State Fault Refusal :=
  runAlu (.hadd2F16 f) f (fun _ _ x => okF (halves (fAdd .f16 (RM.ofMod f.mod)) x.a32 x.b32)) s

/-- HMUL2_F16 (R127). -/
def execHmul2F16 (f : Fields) (s : State) : Host.Outcome State Fault Refusal :=
  runAlu (.hmul2F16 f) f (fun _ _ x => okF (halves (fMul .f16 (RM.ofMod f.mod)) x.a32 x.b32)) s

/-- HFMA2_F16 (R127). -/
def execHfma2F16 (f : Fields) (s : State) : Host.Outcome State Fault Refusal :=
  runAlu (.hfma2F16 f) f (fun _ _ x => okF (halves3 (fFma .f16 (RM.ofMod f.mod)) x.a32 x.b32 x.c32)) s

/-- HMIN2_F16 (R127). -/
def execHmin2F16 (f : Fields) (s : State) : Host.Outcome State Fault Refusal :=
  runAlu (.hmin2F16 f) f (fun _ _ x => okF (halves (fMinMax .f16 false) x.a32 x.b32)) s

/-- HMAX2_F16 (R127). -/
def execHmax2F16 (f : Fields) (s : State) : Host.Outcome State Fault Refusal :=
  runAlu (.hmax2F16 f) f (fun _ _ x => okF (halves (fMinMax .f16 true) x.a32 x.b32)) s

/-- HCMP2_F16 (R127). -/
def execHcmp2F16 (f : Fields) (s : State) : Host.Outcome State Fault Refusal :=
  runAlu (.hcmp2F16 f) f (fun _ _ x => okF (halves (cmpMask .f16 f.mod) x.a32 x.b32)) s

/-- HDOT2_F16 (R42). -/
def execHdot2F16 (f : Fields) (s : State) : Host.Outcome State Fault Refusal :=
  runAlu (.hdot2F16 f) f (fun _ _ x => okF (fDot2 .f16 (RM.ofMod f.mod) x.a32 x.b32 x.c32)) s

/-- HADD2_BF16 (R127). -/
def execHadd2Bf16 (f : Fields) (s : State) : Host.Outcome State Fault Refusal :=
  runAlu (.hadd2Bf16 f) f (fun _ _ x => okF (halves (fAdd .bf16 (RM.ofMod f.mod)) x.a32 x.b32)) s

/-- HMUL2_BF16 (R127). -/
def execHmul2Bf16 (f : Fields) (s : State) : Host.Outcome State Fault Refusal :=
  runAlu (.hmul2Bf16 f) f (fun _ _ x => okF (halves (fMul .bf16 (RM.ofMod f.mod)) x.a32 x.b32)) s

/-- HFMA2_BF16 (R127). -/
def execHfma2Bf16 (f : Fields) (s : State) : Host.Outcome State Fault Refusal :=
  runAlu (.hfma2Bf16 f) f (fun _ _ x => okF (halves3 (fFma .bf16 (RM.ofMod f.mod)) x.a32 x.b32 x.c32)) s

/-- HMIN2_BF16 (R127). -/
def execHmin2Bf16 (f : Fields) (s : State) : Host.Outcome State Fault Refusal :=
  runAlu (.hmin2Bf16 f) f (fun _ _ x => okF (halves (fMinMax .bf16 false) x.a32 x.b32)) s

/-- HMAX2_BF16 (R127). -/
def execHmax2Bf16 (f : Fields) (s : State) : Host.Outcome State Fault Refusal :=
  runAlu (.hmax2Bf16 f) f (fun _ _ x => okF (halves (fMinMax .bf16 true) x.a32 x.b32)) s

/-- HCMP2_BF16 (R127). -/
def execHcmp2Bf16 (f : Fields) (s : State) : Host.Outcome State Fault Refusal :=
  runAlu (.hcmp2Bf16 f) f (fun _ _ x => okF (halves (cmpMask .bf16 f.mod) x.a32 x.b32)) s

/-- HDOT2_BF16 (R42). -/
def execHdot2Bf16 (f : Fields) (s : State) : Host.Outcome State Fault Refusal :=
  runAlu (.hdot2Bf16 f) f (fun _ _ x => okF (fDot2 .bf16 (RM.ofMod f.mod) x.a32 x.b32 x.c32)) s

end Sys2Proof.Machine
end

