-- ==== Sys2Proof/Machine/Schedule.lean ====
section
/-! DEFINITION. The issue-group builder (R338, R339): which threads are ready, the hazards of their next slots, the classes that
compete for a core's port, and when an issue group yields it. -/
namespace Sys2Proof.Machine

/-! ## Readiness (R338) -/

/-- Whether a thread has not exited and waits at nothing. -/
def Thread.isReady (th : Thread) : Bool := th.live && th.wait == .none

/-- Whether the slot of an instruction would stall at a hazard: a fence, a tile with a transfer pending, a full task queue
(R163, R164, R189, R206). -/
def slotStalls (s : State) (gid t : Nat) (g : Group) (th : Thread) (i : Instr) : Bool :=
  let stalls (x : Except Exc Unit) : Bool := match x with | .error .stall => true | _ => false
  match i with
  | .fence _ f => guardOf f th && fenceWaits s gid t (maskOf f.b)
  | .ifenceCp f => guardOf f th && copiesLeft s gid t
  | .tld f => guardOf f th && stalls (tileWritable s gid g (unitIx f.a))
  | .tzero f => guardOf f th && stalls (tileWritable s gid g (unitIx f.a))
  | .twrite f => guardOf f th && stalls (tileWritable s gid g (unitIx f.a))
  | .tst f => guardOf f th && stalls (tileReadable s gid (unitIx f.a))
  | .tread f => guardOf f th && stalls (tileReadable s gid (unitIx f.a))
  | .ttask f => guardOf f th && !s.gongRoom (g.coreN / 64) 1
  | _ => false

/-- Whether the drain of the clause that a thread is to enter, or a hazard of its next slot, keeps it from being ready; behind a
held engine operation it issues, and comes to a blocking point there (R416). -/
def hazard (s : State) (gid t : Nat) (g : Group) (th : Thread) : Bool :=
  match fetchWord s g.coreN g.cid (pcHead th.pc), slotAt s g.coreN g.cid th.pc th.rep with
  | .ok (h, _), .ok (sl, _) =>
    !groupHeld s gid && ((!th.inside && !drained s gid t (hdHz h)) || slotStalls s gid t g th sl.dec)
  | _, _ => false

/-! ## The builder (R339) -/

/-- The threads that some issue group of a core holds. -/
def Core.formed (c : Core) (gid : Nat) : List Nat :=
  (c.yielded ++ c.port.toList).flatMap (fun ig => if ig.gid = gid then ig.members else [])

/-- The first threads of distinct lanes, at most `n`. -/
def distinctLanes : Nat → List Nat → List (Nat × Thread) → List (Nat × Thread)
  | 0, _, _ => []
  | _, _, [] => []
  | n + 1, seen, (t, th) :: l =>
    if seen.contains th.lane then distinctLanes (n + 1) seen l else (t, th) :: distinctLanes n (th.lane :: seen) l

/-- The age of a class. -/
def classAge : List (Nat × Thread) → Nat
  | [] => 0
  | e :: l => l.foldl (fun m x => min m x.2.ready) e.2.ready

/-- A class that competes for the port: age, group slot, program counter, the issue group it makes. -/
structure Cand where
  age  : Nat
  slot : Nat
  pc   : Nat
  ig   : IssueGroup

/-- Whether one class goes before another. -/
def Cand.before (a b : Cand) : Bool :=
  decide (a.age < b.age) || (a.age == b.age && (decide (a.slot < b.slot) || (a.slot == b.slot && decide (a.pc < b.pc))))

/-- The PC classes of one group's ready threads (R339). -/
def groupCands (s : State) (slot gid : Nat) (formed : List Nat) (g : Group) : List Cand :=
  let ts := g.threads.filter (fun e => e.2.isReady && !formed.contains e.1 && !hazard s gid e.1 g e.2)
  let keys := (ts.map (fun e => e.2.pc)).eraseDups
  keys.map (fun k =>
    let cls := ts.filter (fun e => e.2.pc == k)
    let pick := distinctLanes 64 [] (sortBy (fun e => e.2.ready * 64 + e.2.lane) cls)
    let ms := (sortBy (fun e => e.2.lane) pick).map (·.1)
    ⟨classAge cls, slot, k.toNat, { gid := gid, members := ms, todo := ms, mates := ms, pc := k, inst := s.nextInst,
                                    cycles := 0, stalled := false, since := classAge cls }⟩)

/-- Every class of a core; an issue group at a hazard competes once it has cleared. -/
def coreCands (s : State) (c : Core) : List Cand :=
  c.slots.flatMap (fun e => match s.group e.2 with
    | some g => if g.isResident then groupCands s e.1 e.2 (c.formed e.2) g else []
    | none => []) ++
  (c.yielded.filter (fun ig => !ig.stalled)).map (fun ig => ⟨ig.since, ((c.slots.find? (fun e => e.2 == ig.gid)).map (·.1)).getD 16, ig.pc.toNat,
                            { ig with cycles := 0 }⟩)

/-- The class that goes first. -/
def firstCand : List Cand → Option Cand
  | [] => none
  | c :: l => match firstCand l with | some d => if d.before c then some d else some c | none => some c

/-- ISSUE_GROUP_FORM (R339): a free port takes the oldest class. -/
def execIssueGroupForm (core : Nat) (s : State) : Host.Outcome State Fault Refusal :=
  let c := s.core core
  match c.port with
  | some _ => .next s
  | none =>
    match firstCand (coreCands s c) with
    | none => .next s
    | some k =>
      .next ((s.setCore core { c with
        port := some k.ig
        yielded := c.yielded.filter (fun ig => !(ig.gid == k.ig.gid && ig.inst == k.ig.inst)) }).bumpInst)

/-- The issue cycles of a word (R107). -/
def issueCost (w : W64) : Nat :=
  let op := opAt w
  if op = 0x311 ∨ op = 0x313 ∨ op = 0x315 then 4
  else if (0x300 ≤ op ∧ op ≤ 0x30D ∧ op % 2 = 1) ∨ op = 0x31D then 2
  else 1

/-- Whether the next slot of an issue group that has done its last takes it past 64 issue cycles (R339). -/
def overPort (s : State) (core : Nat) (ig : IssueGroup) : Bool :=
  match ig.members.head?.bind (fun t => s.thread ig.gid t), s.group ig.gid with
  | some th, some g =>
    let cost := match slotAt s core g.cid th.pc th.rep with | .ok (sl, _) => issueCost sl.word | .error _ => 1
    ig.todo == [] && decide (64 < ig.cycles + cost)
  | _, _ => false

/-- ISSUE_PORT_YIELD (R339): the issue group on the port gives it up before a slot that would take it past 64 issue cycles, and
stays formed, at the program counter of that slot. -/
def execIssuePortYield (core : Nat) (s : State) : Host.Outcome State Fault Refusal :=
  let c := s.core core
  match c.port with
  | none => .next s
  | some ig =>
    if overPort s core ig then
      let pc := ((ig.members.head?.bind (fun t => s.thread ig.gid t)).map (·.pc)).getD ig.pc
      .next (s.setCore core { c with port := none, yielded := c.yielded ++ [{ ig with since := c.cycle.toNat, pc := pc }] })
    else .next s

/-! ## Hazards that clear (R339) -/

/-- The threads of a group that are ready but for a hazard: their readiness cycle is not before this one. -/
def Group.refresh (s : State) (gid : Nat) (formed : List Nat) (now : Nat) (g : Group) : Group :=
  { g with threads := mmap (fun t th =>
      if th.isReady && !formed.contains t && hazard s gid t g th then { th with ready := now } else th) g.threads }

/-- An issue group at a hazard competes again from the cycle at which the hazard clears. -/
def IssueGroup.refresh (s : State) (now : Nat) (ig : IssueGroup) : IssueGroup :=
  if !ig.stalled then ig
  else match ig.todo.head?.bind (fun t => (s.thread ig.gid t).map (fun th => (t, th))), s.group ig.gid with
    | some (t, th), some g => if hazard s ig.gid t g th then ig else { ig with stalled := false, since := now }
    | _, _ => { ig with stalled := false, since := now }

/-- What the builder of a core sees anew after a step. -/
def refreshCore (s : State) (core : Nat) (c : Core) : State :=
  let now := c.cycle.toNat
  let s := s.setCore core { c with yielded := c.yielded.map (IssueGroup.refresh s now) }
  c.slots.foldl (fun s e => s.modGroup e.2 (fun g =>
    if g.isResident then g.refresh s e.2 (c.formed e.2) now else g)) s

/-- What the K7 completes by itself after a step, and what its builders then see. -/
def settle (s : State) : State :=
  let s := settleAll s
  s.cores.foldl (fun s e => refreshCore s e.1 e.2) s

end Sys2Proof.Machine
end

