-- ==== Sys2Proof/Machine/Scratch.lean ====
section
/-! DEFINITION. The meanings of the scratchpad and exchange instructions (R150-R152). -/
namespace Sys2Proof.Machine

/-- LDSP (R150). -/
def execLdsp (f : Fields) (s : State) : Host.Outcome State Fault Refusal :=
  runGuarded (.ldsp f) f (fun e _ x => do
    let n := szBytes (szOf f)
    let a := sAddr x.a32 x.b32
    aligned (BitVec.ofNat 64 a) n
    let bs ← spRead e a n none none
    deliver e .sp f (loadWords (szOf f) bs)
    return 0#6) s

/-- STSP (R150). -/
def execStsp (f : Fields) (s : State) : Host.Outcome State Fault Refusal :=
  runGuarded (.stsp f) f (fun e _ x => do
    let n := szBytes (szOf f)
    let a := sAddr x.a32 x.b32
    aligned (BitVec.ofNat 64 a) n
    spWrite e a (storeBytes (szOf f) x) none false []
    return 0#6) s

/-- LDSPV (R150). -/
def execLdspv (f : Fields) (s : State) : Host.Outcome State Fault Refusal :=
  runGuarded (.ldspv f) f (fun e _ x => do
    let n := f.mod.toNat + 1
    let a := sAddr x.a32 x.b32
    aligned (BitVec.ofNat 64 a) 4
    let bs ← spRead e a (4 * n) none none
    deliver e .sp f (bytesWords bs n)
    return 0#6) s

/-- STSPV (R150). -/
def execStspv (f : Fields) (s : State) : Host.Outcome State Fault Refusal :=
  runGuarded (.stspv f) f (fun e _ x => do
    let a := sAddr x.a32 x.b32
    aligned (BitVec.ofNat 64 a) 4
    spWrite e a (wordBytes x.run) none false []
    return 0#6) s

/-! ## Exchange (R151, R152) -/

/-- The group of a rank in the current group's cluster. -/
def Env.atRank (e : Env) (s : State) (rank : Nat) : Option (Nat × Group) :=
  s.groups.find? (fun x => x.2.kid == e.g.kid && clusterOf e.k x.2 == clusterOf e.k e.g && rankOf e.k x.2 == rank)

/-- The checks of an exchange access, in order: rank, bank, alignment to `al`. -/
def xchCheck (e : Env) (x : Nat) (rank : W32) (n al : Nat) : SlotM Unit := do
  if e.k.clSize ≤ rank.toNat then illegalOperand
  else if 256 * kdXbank e.k.desc < x + n then raise .permission (BitVec.ofNat 64 x) 0#32
  else aligned (BitVec.ofNat 64 x) al

/-- A store to the shadow bank of the group of a rank; one to a retired group is discarded. -/
def xchWrite (e : Env) (x : Nat) (rank : W32) (bs : List Byte) : SlotM Unit := do
  match e.atRank (← get) rank.toNat with
  | none => return ()
  | some (gid, g) =>
    if g.isRetired then return ()
    else do
      let keys := upFrom (shadowKey x) bs.length
      spTouchSt e gid keys (fun h => h.stamp true none false e.place)
      modify (fun s => s.modGroup gid (fun g =>
        { g with xshadow := g.xshadow.setN x bs, rels := writeHeads g.rels keys false [] }))

/-- XST (R151). -/
def execXst (f : Fields) (s : State) : Host.Outcome State Fault Refusal :=
  runGuarded (.xst f) f (fun e _ x => do
    let n := szBytes (szOf f)
    xchCheck e x.a32.toNat x.b32 n n
    xchWrite e x.a32.toNat x.b32 (storeBytes (szOf f) x)
    return 0#6) s

/-- XSTV (R151). -/
def execXstv (f : Fields) (s : State) : Host.Outcome State Fault Refusal :=
  runGuarded (.xstv f) f (fun e _ x => do
    xchCheck e x.a32.toNat x.b32 (4 * (f.mod.toNat + 1)) 4
    xchWrite e x.a32.toNat x.b32 (wordBytes x.run)
    return 0#6) s

/-- RLD (R152): the live bank of the group of a rank; a retired group's reads as zero. -/
def execRld (f : Fields) (s : State) : Host.Outcome State Fault Refusal :=
  runGuarded (.rld f) f (fun e _ x => do
    let n := szBytes (szOf f)
    let a := x.a32.toNat
    xchCheck e a x.b32 n n
    let bs ← match e.atRank (← get) x.b32.toNat with
      | none => pure (List.replicate n (0#8 : Byte))
      | some (gid, g) =>
        if g.isRetired then pure (List.replicate n (0#8 : Byte))
        else do
          let keys := upFrom (0x60000 + a) n
          spTouchSt e gid keys (fun h => h.stamp false none false e.place)
          modTh e (fun th => { th with hb := th.hb.readHeads e.place none (headsAt g.rels keys) })
          pure (g.xlive.getN a n)
    deliver e .sp f (loadWords (szOf f) bs)
    return 0#6) s

end Sys2Proof.Machine
end

