-- ==== Sys2Proof/Machine/Trust.lean ====
section
/-! DEFINITION. The start of the package and its measurements (R420, R421), decode-table banks (R399, R400), thermal limits
and the critical temperature (R26), uncorrectable errors (R428). -/
namespace Sys2Proof.Machine

/-! ## Measurements (R420) -/

/-- The vendor's public key, whose hash is fused in Dawn. -/
def vendorPoint : EcPoint := ecMul (ecKey Config.vendorKey) ecG

/-- Whether bytes carry the vendor's signature. -/
def vendorSigned (bytes sig : List Byte) : Bool := ecdsaOk vendorPoint bytes sig

/-- Whether an image carries the vendor's signature. -/
def signedOk (i : SignedImage) : Bool := vendorSigned i.bytes i.sig

/-- The package stops (R420): its endpoint is unreachable and nothing runs any more. -/
def State.stopPackage (s : State) : State := { s with dead := true }

/-- The stages of the start in order, each checked before it runs (R420). -/
def runStages : Nat → List SignedImage → State → State
  | _, [], s => { s with started := true }
  | n, i :: rest, s => if signedOk i then runStages (n + 1) rest (s.measure n i.bytes) else s.stopPackage

/-- PACKAGE_RESET (R420): everything of the package is at its reset value, and the memory of other endpoints (R369) and the
images written (R307) stay, sealed under keys that are gone (R427); Dawn, stage 1 and stage 2 start stage 1, stage 2 and the runtime firmware, which sets the endpoint
number (R388). -/
def execPackageReset (images : List SignedImage) (s : State) : Host.Outcome State Fault Refusal :=
  let base := { State.reset with
    tick := s.tick + 1, nextAid := s.nextAid, agenda := s.agenda, images := s.images
    unitKey := s.unitKey.filter (fun e => decide (2 ^ 49 ≤ e.1)), badUnits := s.badUnits.filter (fun u => decide (2 ^ 49 ≤ u)), mem := s.mem.filter (fun c => decide (2 ^ 55 ≤ c.1)) }
  match images with
  | [a, b, c] =>
    let s' := runStages 0 [a, b, c] base
    let s' := { s' with epid := (Config.freeBits 2000 s.tick).setWidth 12 }
    .next { s' with mem := s'.mem.filter (fun c => !s'.ownWindow c.1) }
  | _ => .next base.stopPackage

/-- FIRMWARE_UPDATE (R420): the runtime firmware, once it runs, measures it into M3; with a failed signature the package
stops. -/
def execFirmwareUpdate (image : SignedImage) (s : State) : Host.Outcome State Fault Refusal :=
  if !s.onFabric then .next s
  else if signedOk image then .next (s.measure 3 image.bytes) else .next s.stopPackage

/-! ## Banks (R399, R400, R421) -/

/-- The entries that a load gives a bank: reserved bits read as zero, and 0xF00 to 0xFFF ignore writes. -/
def loadEntries (l : AMap W32) : AMap W32 :=
  l.foldl (fun m e => if e.1 < 0xF00 then mset m e.1 (bankWord (e.2.setWidth 64)) else m) []

/-- What a load makes of a bank. -/
def loadedBank (x : BankImage) : Bank :=
  { entries := loadEntries x.entries, gen := x.gen, nkept := x.nkept, errs := x.errs.take 7, store := x.store, hash := 0#512 }

/-- BANK_LOAD (R421): on every die, only while no context is bound; abandoned where the hashes of the dies differ. The runtime
firmware measures what it loads into M3. -/
def execBankLoad (n : Nat) (load : BankImage) (s : State) : Host.Outcome State Fault Refusal :=
  if !s.onFabric ∨ 4 ≤ n ∨ (upFrom 0 4).any (fun d => nbound s d n != 0) = true then .next s
  else
    let b := loadedBank load
    if vendorSigned b.bytes load.sig = false then .next s.stopPackage
    else if load.agree = false then .next s
    else .next (loadBank n b s)

/-! ## Power and temperature (R24, R26) -/

/-- R24: the pool size that a power limit gives. -/
def sizeFor (limit : BitVec 16) : Nat := max 1 (min 64 (64 * (limit.toNat - 250) / 350))

/-- THERMAL_LIMIT (R26): firmware lowers or restores `size`, never above the value of R24. -/
def execThermalLimit (die : Nat) (size : BitVec 16) (s : State) : Host.Outcome State Fault Refusal :=
  if die < 4 then
    let d := s.die die
    .next (s.setDie die { d with size := BitVec.ofNat 16 (min (clampSize size).toNat (sizeFor d.limit)) })
  else .next s

/-- CRITICAL_TEMPERATURE (R26): the package stops and every context loses its state. -/
def execCriticalTemperature (die : Nat) (s : State) : Host.Outcome State Fault Refusal :=
  if die < 4 then
    .next { s.stopPackage with
      ctxs := [], kernels := [], graphs := [], groups := [], ops := [], mxops := [], calls := [], resv := []
      cores := mmap (fun _ c => { c with slots := [], port := none, yielded := [], mxq := [] }) s.cores
      dies := mmap (fun _ d => { d with gong := [], inuse := 0, starts := [] }) s.dies }
  else .next s

/-! ## Uncorrectable errors (R428) -/

/-- A record of an installed table whose stored copy fails: number 2^56 + 2^40·context + 2^32·table + index (log 98). -/
def spoilRec (s : State) (n : Nat) : State :=
  let i := n % 2 ^ 32
  s.modTable (n / 2 ^ 40 % 2 ^ 16) (n / 2 ^ 32 % 2 ^ 8) (fun t =>
    { t with recs := (upFrom 0 t.recs.length).zip t.recs |>.map (fun x => if x.1 = i then { x.2 with bad := true } else x.2) })

/-- The race stamps of a 32-byte sector fail: number 2^58 + the sector's number (log 98). -/
def spoilStamp (s : State) (n : Nat) : State :=
  { s with stamps := mmap (fun a l => if a / 32 = n then l.map (fun (x : Stamp) => { x with bad := true }) else l) s.stamps }

/-- A write-back finds that its unit fails: number 2^59 + the address. The unit keeps its failing check, and the context under
whose key it is sealed has a record, with the address by which its accesses have met the page (log 98). -/
def spoilWriteBack (s : State) (pa : Nat) : State :=
  let s := if s.badUnits.contains (pa / 64) then s else { s with badUnits := pa / 64 :: s.badUnits }
  match mget s.unitKey (pa / 64) with
  | none => s
  | some (key, _) => match s.ctxs.find? (fun e => e.2.st != .free && e.2.keyId == key) with
    | none => s
    | some (cid, c) =>
      let va := match c.frames.find? (fun x => x.2 == pa / 65536) with
        | some x => 65536 * x.1 + pa / 64 * 64 % 65536
        | none => 0
      ctxLevel s cid .dataIntegrity (BitVec.ofNat 64 va) 0#32 false

/-- A merge entry whose stored copy fails: number 2^57 + 2^24·group + place in its task's queue (log 98). -/
def spoilEntry (s : State) (n : Nat) : State :=
  s.modGroup (n / 2 ^ 24 % 2 ^ 32) (fun g =>
    { g with pendW := (upFrom 0 g.pendW.length).zip g.pendW |>.map (fun x => if x.1 = n % 2 ^ 24 then { x.2 with bad := true } else x.2) })

/-- UNCORRECTABLE_ERROR (R428): a stored unit fails its check from now on, until a write covers it whole; in the SRAM die, a
record of a function store, a merge entry or the race stamps of a sector; or the unit of a write-back. -/
def execUncorrectableError (unitAddr : Nat) (s : State) : Host.Outcome State Fault Refusal :=
  let u := unitAddr / 64
  if 2 ^ 59 ≤ unitAddr then .next (if paExists (unitAddr - 2 ^ 59) then spoilWriteBack s (unitAddr - 2 ^ 59) else s)
  else if 2 ^ 58 ≤ unitAddr then .next (spoilStamp s (unitAddr - 2 ^ 58))
  else if 2 ^ 57 ≤ unitAddr then .next (spoilEntry s unitAddr)
  else if 2 ^ 56 ≤ unitAddr then .next (spoilRec s unitAddr)
  else if paExists unitAddr && !s.badUnits.contains u then .next { s with badUnits := u :: s.badUnits }
  else .next s

end Sys2Proof.Machine
end

