-- ==== Sys2Proof/Machine/Dispatch.lean ====
section
/-! DEFINITION. The dispatcher: one arm for each instruction, calling its meaning. -/
namespace Sys2Proof.Machine

/-- What an instruction does to the machine. -/
def exec (i : Instr) (s : State) : Host.Outcome State Fault Refusal :=
  match i with
  | .nop f => Sys2Proof.Machine.execNop f s
  | .rep r => Sys2Proof.Machine.execRep r s
  | .bra f => Sys2Proof.Machine.execBra f s
  | .brp f => Sys2Proof.Machine.execBrp f s
  | .brx f => Sys2Proof.Machine.execBrx f s
  | .call f => Sys2Proof.Machine.execCall f s
  | .callx f => Sys2Proof.Machine.execCallx f s
  | .ret f => Sys2Proof.Machine.execRet f s
  | .convJ f => Sys2Proof.Machine.execConvJ f s
  | .joinJ f => Sys2Proof.Machine.execJoinJ f s
  | .elect f => Sys2Proof.Machine.execElect f s
  | .exit f => Sys2Proof.Machine.execExit f s
  | .yield f => Sys2Proof.Machine.execYield f s
  | .iaddI32 f => Sys2Proof.Machine.execIaddI32 f s
  | .iaddI64 f => Sys2Proof.Machine.execIaddI64 f s
  | .isubI32 f => Sys2Proof.Machine.execIsubI32 f s
  | .isubI64 f => Sys2Proof.Machine.execIsubI64 f s
  | .imulI32 f => Sys2Proof.Machine.execImulI32 f s
  | .imulhI32 f => Sys2Proof.Machine.execImulhI32 f s
  | .imulhN32 f => Sys2Proof.Machine.execImulhN32 f s
  | .imadI32 f => Sys2Proof.Machine.execImadI32 f s
  | .imadwI64 f => Sys2Proof.Machine.execImadwI64 f s
  | .iminI32 f => Sys2Proof.Machine.execIminI32 f s
  | .iminN32 f => Sys2Proof.Machine.execIminN32 f s
  | .imaxI32 f => Sys2Proof.Machine.execImaxI32 f s
  | .imaxN32 f => Sys2Proof.Machine.execImaxN32 f s
  | .iabsI32 f => Sys2Proof.Machine.execIabsI32 f s
  | .inegI32 f => Sys2Proof.Machine.execInegI32 f s
  | .icmpI32 f => Sys2Proof.Machine.execIcmpI32 f s
  | .icmpN32 f => Sys2Proof.Machine.execIcmpN32 f s
  | .icmpI64 f => Sys2Proof.Machine.execIcmpI64 f s
  | .icmpN64 f => Sys2Proof.Machine.execIcmpN64 f s
  | .lea f => Sys2Proof.Machine.execLea f s
  | .leaI64 f => Sys2Proof.Machine.execLeaI64 f s
  | .idivI32 f => Sys2Proof.Machine.execIdivI32 f s
  | .idivN32 f => Sys2Proof.Machine.execIdivN32 f s
  | .iremI32 f => Sys2Proof.Machine.execIremI32 f s
  | .iremN32 f => Sys2Proof.Machine.execIremN32 f s
  | .idot4I8 f => Sys2Proof.Machine.execIdot4I8 f s
  | .idot4N8 f => Sys2Proof.Machine.execIdot4N8 f s
  | .idot8I4 f => Sys2Proof.Machine.execIdot8I4 f s
  | .iclampI32 f => Sys2Proof.Machine.execIclampI32 f s
  | .and f => Sys2Proof.Machine.execAnd f s
  | .or f => Sys2Proof.Machine.execOr f s
  | .xor f => Sys2Proof.Machine.execXor f s
  | .andn f => Sys2Proof.Machine.execAndn f s
  | .not f => Sys2Proof.Machine.execNot f s
  | .shl f => Sys2Proof.Machine.execShl f s
  | .shr f => Sys2Proof.Machine.execShr f s
  | .sar f => Sys2Proof.Machine.execSar f s
  | .rotl f => Sys2Proof.Machine.execRotl f s
  | .shlI64 f => Sys2Proof.Machine.execShlI64 f s
  | .shrI64 f => Sys2Proof.Machine.execShrI64 f s
  | .sarI64 f => Sys2Proof.Machine.execSarI64 f s
  | .bfeN32 f => Sys2Proof.Machine.execBfeN32 f s
  | .bfeI32 f => Sys2Proof.Machine.execBfeI32 f s
  | .bfi f => Sys2Proof.Machine.execBfi f s
  | .popc f => Sys2Proof.Machine.execPopc f s
  | .clz f => Sys2Proof.Machine.execClz f s
  | .brev f => Sys2Proof.Machine.execBrev f s
  | .bperm f => Sys2Proof.Machine.execBperm f s
  | .faddF32 f => Sys2Proof.Machine.execFaddF32 f s
  | .faddF64 f => Sys2Proof.Machine.execFaddF64 f s
  | .fsubF32 f => Sys2Proof.Machine.execFsubF32 f s
  | .fsubF64 f => Sys2Proof.Machine.execFsubF64 f s
  | .fmulF32 f => Sys2Proof.Machine.execFmulF32 f s
  | .fmulF64 f => Sys2Proof.Machine.execFmulF64 f s
  | .ffmaF32 f => Sys2Proof.Machine.execFfmaF32 f s
  | .ffmaF64 f => Sys2Proof.Machine.execFfmaF64 f s
  | .fdivF32 f => Sys2Proof.Machine.execFdivF32 f s
  | .fdivF64 f => Sys2Proof.Machine.execFdivF64 f s
  | .fminF32 f => Sys2Proof.Machine.execFminF32 f s
  | .fminF64 f => Sys2Proof.Machine.execFminF64 f s
  | .fmaxF32 f => Sys2Proof.Machine.execFmaxF32 f s
  | .fmaxF64 f => Sys2Proof.Machine.execFmaxF64 f s
  | .fcmpF32 f => Sys2Proof.Machine.execFcmpF32 f s
  | .fcmpF64 f => Sys2Proof.Machine.execFcmpF64 f s
  | .frcpF32 f => Sys2Proof.Machine.execFrcpF32 f s
  | .frcpF64 f => Sys2Proof.Machine.execFrcpF64 f s
  | .frsqF32 f => Sys2Proof.Machine.execFrsqF32 f s
  | .frsqF64 f => Sys2Proof.Machine.execFrsqF64 f s
  | .fsqrtF32 f => Sys2Proof.Machine.execFsqrtF32 f s
  | .fsqrtF64 f => Sys2Proof.Machine.execFsqrtF64 f s
  | .fexp2F32 f => Sys2Proof.Machine.execFexp2F32 f s
  | .flog2F32 f => Sys2Proof.Machine.execFlog2F32 f s
  | .fsinpF32 f => Sys2Proof.Machine.execFsinpF32 f s
  | .fcospF32 f => Sys2Proof.Machine.execFcospF32 f s
  | .fclassF32 f => Sys2Proof.Machine.execFclassF32 f s
  | .fclassF64 f => Sys2Proof.Machine.execFclassF64 f s
  | .fabs f => Sys2Proof.Machine.execFabs f s
  | .fneg f => Sys2Proof.Machine.execFneg f s
  | .fcopysign f => Sys2Proof.Machine.execFcopysign f s
  | .hadd2F16 f => Sys2Proof.Machine.execHadd2F16 f s
  | .hadd2Bf16 f => Sys2Proof.Machine.execHadd2Bf16 f s
  | .hmul2F16 f => Sys2Proof.Machine.execHmul2F16 f s
  | .hmul2Bf16 f => Sys2Proof.Machine.execHmul2Bf16 f s
  | .hfma2F16 f => Sys2Proof.Machine.execHfma2F16 f s
  | .hfma2Bf16 f => Sys2Proof.Machine.execHfma2Bf16 f s
  | .hmin2F16 f => Sys2Proof.Machine.execHmin2F16 f s
  | .hmin2Bf16 f => Sys2Proof.Machine.execHmin2Bf16 f s
  | .hmax2F16 f => Sys2Proof.Machine.execHmax2F16 f s
  | .hmax2Bf16 f => Sys2Proof.Machine.execHmax2Bf16 f s
  | .hcmp2F16 f => Sys2Proof.Machine.execHcmp2F16 f s
  | .hcmp2Bf16 f => Sys2Proof.Machine.execHcmp2Bf16 f s
  | .hdot2F16 f => Sys2Proof.Machine.execHdot2F16 f s
  | .hdot2Bf16 f => Sys2Proof.Machine.execHdot2Bf16 f s
  | .cvt f => Sys2Proof.Machine.execCvt f s
  | .cvts f => Sys2Proof.Machine.execCvts f s
  | .frndF32 f => Sys2Proof.Machine.execFrndF32 f s
  | .frndF64 f => Sys2Proof.Machine.execFrndF64 f s
  | .scalebF32 f => Sys2Proof.Machine.execScalebF32 f s
  | .frexpF32 f => Sys2Proof.Machine.execFrexpF32 f s
  | .frexpExpF32 f => Sys2Proof.Machine.execFrexpExpF32 f s
  | .pack2 f => Sys2Proof.Machine.execPack2 f s
  | .unpk2 f => Sys2Proof.Machine.execUnpk2 f s
  | .packq f => Sys2Proof.Machine.execPackq f s
  | .rndc f => Sys2Proof.Machine.execRndc f s
  | .rndcW f => Sys2Proof.Machine.execRndcW f s
  | .mov f => Sys2Proof.Machine.execMov f s
  | .movs f => Sys2Proof.Machine.execMovs f s
  | .sel f => Sys2Proof.Machine.execSel f s
  | .pset f => Sys2Proof.Machine.execPset f s
  | .pmovGet f => Sys2Proof.Machine.execPmovGet f s
  | .pmovPut f => Sys2Proof.Machine.execPmovPut f s
  | .perm f => Sys2Proof.Machine.execPerm f s
  | .permx f => Sys2Proof.Machine.execPermx f s
  | .permu f => Sys2Proof.Machine.execPermu f s
  | .permd f => Sys2Proof.Machine.execPermd f s
  | .bcast f => Sys2Proof.Machine.execBcast f s
  | .vote f => Sys2Proof.Machine.execVote f s
  | .ballot f => Sys2Proof.Machine.execBallot f s
  | .matchL f => Sys2Proof.Machine.execMatchL f s
  | .sgred f => Sys2Proof.Machine.execSgred f s
  | .sgscan f => Sys2Proof.Machine.execSgscan f s
  | .ld f => Sys2Proof.Machine.execLd f s
  | .st f => Sys2Proof.Machine.execSt f s
  | .ldv f => Sys2Proof.Machine.execLdv f s
  | .stv f => Sys2Proof.Machine.execStv f s
  | .pf f => Sys2Proof.Machine.execPf f s
  | .ldt f => Sys2Proof.Machine.execLdt f s
  | .ldna f => Sys2Proof.Machine.execLdna f s
  | .stna f => Sys2Proof.Machine.execStna f s
  | .ldsp f => Sys2Proof.Machine.execLdsp f s
  | .stsp f => Sys2Proof.Machine.execStsp f s
  | .ldspv f => Sys2Proof.Machine.execLdspv f s
  | .stspv f => Sys2Proof.Machine.execStspv f s
  | .xst f => Sys2Proof.Machine.execXst f s
  | .xstv f => Sys2Proof.Machine.execXstv f s
  | .rld f => Sys2Proof.Machine.execRld f s
  | .atomI32 ord sc f => Sys2Proof.Machine.execAtomI32 ord sc f s
  | .atomI64 ord sc f => Sys2Proof.Machine.execAtomI64 ord sc f s
  | .atomF32 ord sc f => Sys2Proof.Machine.execAtomF32 ord sc f s
  | .atomcasB32 ord sc f => Sys2Proof.Machine.execAtomcasB32 ord sc f s
  | .atomcasB64 ord sc f => Sys2Proof.Machine.execAtomcasB64 ord sc f s
  | .redI32 ord sc f => Sys2Proof.Machine.execRedI32 ord sc f s
  | .redF32 ord sc f => Sys2Proof.Machine.execRedF32 ord sc f s
  | .waddF32 sc f => Sys2Proof.Machine.execWaddF32 sc f s
  | .waddF64 sc f => Sys2Proof.Machine.execWaddF64 sc f s
  | .wrdF64 sc f => Sys2Proof.Machine.execWrdF64 sc f s
  | .wset sc f => Sys2Proof.Machine.execWset sc f s
  | .fence sc f => Sys2Proof.Machine.execFence sc f s
  | .ifence f => Sys2Proof.Machine.execIfence f s
  | .ifenceCp f => Sys2Proof.Machine.execIfenceCp f s
  | .bar f => Sys2Proof.Machine.execBar f s
  | .bara f => Sys2Proof.Machine.execBara f s
  | .barw f => Sys2Proof.Machine.execBarw f s
  | .cbinit f => Sys2Proof.Machine.execCbinit f s
  | .cbadd f => Sys2Proof.Machine.execCbadd f s
  | .cbwait f => Sys2Proof.Machine.execCbwait f s
  | .xbar f => Sys2Proof.Machine.execXbar f s
  | .lbar f => Sys2Proof.Machine.execLbar f s
  | .tlwait f => Sys2Proof.Machine.execTlwait f s
  | .tlread f => Sys2Proof.Machine.execTlread f s
  | .tlreadErr f => Sys2Proof.Machine.execTlreadErr f s
  | .waita f => Sys2Proof.Machine.execWaita f s
  | .waitaRecheck gid t => Sys2Proof.Machine.execWaitaRecheck gid t s
  | .cpkick f => Sys2Proof.Machine.execCpkick f s
  | .gath f => Sys2Proof.Machine.execGath f s
  | .nbpf f => Sys2Proof.Machine.execNbpf f s
  | .adcl f => Sys2Proof.Machine.execAdcl f s
  | .topk f => Sys2Proof.Machine.execTopk f s
  | .coll f => Sys2Proof.Machine.execColl f s
  | .tsset f => Sys2Proof.Machine.execTsset f s
  | .tsget f => Sys2Proof.Machine.execTsget f s
  | .tld f => Sys2Proof.Machine.execTld f s
  | .tst f => Sys2Proof.Machine.execTst f s
  | .tzero f => Sys2Proof.Machine.execTzero f s
  | .tread f => Sys2Proof.Machine.execTread f s
  | .twrite f => Sys2Proof.Machine.execTwrite f s
  | .mldw f => Sys2Proof.Machine.execMldw f s
  | .mmaa f => Sys2Proof.Machine.execMmaa f s
  | .mcommit f => Sys2Proof.Machine.execMcommit f s
  | .mwait f => Sys2Proof.Machine.execMwait f s
  | .mscale f => Sys2Proof.Machine.execMscale f s
  | .mscaleClr f => Sys2Proof.Machine.execMscaleClr f s
  | .ttask f => Sys2Proof.Machine.execTtask f s
  | .fcall f => Sys2Proof.Machine.execFcall f s
  | .fret f => Sys2Proof.Machine.execFret f s
  | .fsprobe f => Sys2Proof.Machine.execFsprobe f s
  | .fsdesc f => Sys2Proof.Machine.execFsdesc f s
  | .fsflush f => Sys2Proof.Machine.execFsflush f s
  | .fsflushAll f => Sys2Proof.Machine.execFsflushAll f s
  | .fsstat f => Sys2Proof.Machine.execFsstat f s
  | .fsstatRec f => Sys2Proof.Machine.execFsstatRec f s
  | .lainit f => Sys2Proof.Machine.execLainit f s
  | .laaddF32 f => Sys2Proof.Machine.execLaaddF32 f s
  | .laaddF64 f => Sys2Proof.Machine.execLaaddF64 f s
  | .lackp f => Sys2Proof.Machine.execLackp f s
  | .laest f => Sys2Proof.Machine.execLaest f s
  | .laget f => Sys2Proof.Machine.execLaget f s
  | .lastat f => Sys2Proof.Machine.execLastat f s
  | .trap f => Sys2Proof.Machine.execTrap f s
  | .tret f => Sys2Proof.Machine.execTret f s
  | .tmask f => Sys2Proof.Machine.execTmask f s
  | .bkpt f => Sys2Proof.Machine.execBkpt f s
  | .sysr f => Sys2Proof.Machine.execSysr f s
  | .sysw f => Sys2Proof.Machine.execSysw f s
  | .qrel f => Sys2Proof.Machine.execQrel f s
  | .qclm f => Sys2Proof.Machine.execQclm f s
  | .qget f => Sys2Proof.Machine.execQget f s
  | .ewin f => Sys2Proof.Machine.execEwin f s
  | .ewset f => Sys2Proof.Machine.execEwset f s
  | .ewsetNext f => Sys2Proof.Machine.execEwsetNext f s
  | .eret f => Sys2Proof.Machine.execEret f s
  | .efwd f => Sys2Proof.Machine.execEfwd f s
  | .emulationVector why w => Sys2Proof.Machine.execEmulationVector why w s
  | .clauseEntry => Sys2Proof.Machine.execClauseEntry s
  | .issueGroupForm core => Sys2Proof.Machine.execIssueGroupForm core s
  | .issuePortYield core => Sys2Proof.Machine.execIssuePortYield core s
  | .resultReturn gid t => Sys2Proof.Machine.execResultReturn gid t s
  | .handlerOverrun gid t => Sys2Proof.Machine.execHandlerOverrun gid t s
  | .heldAccessPerform gid t => Sys2Proof.Machine.execHeldAccessPerform gid t s
  | .kfUqpush rs1 => Sys2Proof.Machine.execKfUqpush rs1 s
  | .kfTcfg rd rs1 rs2 => Sys2Proof.Machine.execKfTcfg rd rs1 rs2 s
  | .kfTsset rd rs1 rs2 => Sys2Proof.Machine.execKfTsset rd rs1 rs2 s
  | .kfCpkick rd rs1 rs2 => Sys2Proof.Machine.execKfCpkick rd rs1 rs2 s
  | .kfFsdesc rd rs1 rs2 => Sys2Proof.Machine.execKfFsdesc rd rs1 rs2 s
  | .kfGid rd rs1 => Sys2Proof.Machine.execKfGid rd rs1 s
  | .kfQnotify rs1 rs2 => Sys2Proof.Machine.execKfQnotify rs1 rs2 s
  | .kfHold rs1 => Sys2Proof.Machine.execKfHold rs1 s
  | .hartEcall => Sys2Proof.Machine.execHartEcall s
  | .matrixAccept core => Sys2Proof.Machine.execMatrixAccept core s
  | .matrixLastMac core => Sys2Proof.Machine.execMatrixLastMac core s
  | .matrixBatchComplete gid mx n => Sys2Proof.Machine.execMatrixBatchComplete gid mx n s
  | .copyDataPerformed op off len => Sys2Proof.Machine.execCopyDataPerformed op off len s
  | .copyComplete op => Sys2Proof.Machine.execCopyComplete op s
  | .tileTransferComplete op => Sys2Proof.Machine.execTileTransferComplete op s
  | .gatherComplete op => Sys2Proof.Machine.execGatherComplete op s
  | .collectiveComplete op remote trees => Sys2Proof.Machine.execCollectiveComplete op remote trees s
  | .tileTaskDispatch op core => Sys2Proof.Machine.execTileTaskDispatch op core s
  | .tileTaskComplete op => Sys2Proof.Machine.execTileTaskComplete op s
  | .gongAging die entry => Sys2Proof.Machine.execGongAging die entry s
  | .groupPlacement kid cores => Sys2Proof.Machine.execGroupPlacement kid cores s
  | .groupStart gid => Sys2Proof.Machine.execGroupStart gid s
  | .groupEvict gid => Sys2Proof.Machine.execGroupEvict gid s
  | .groupRestore gid cores => Sys2Proof.Machine.execGroupRestore gid cores s
  | .kernelComplete kid => Sys2Proof.Machine.execKernelComplete kid s
  | .mergeApply kid => Sys2Proof.Machine.execMergeApply kid s
  | .graphNodeDispatch graph node => Sys2Proof.Machine.execGraphNodeDispatch graph node s
  | .graphNodeComplete graph node => Sys2Proof.Machine.execGraphNodeComplete graph node s
  | .qnotify cid q w => Sys2Proof.Machine.execQnotify cid q w s
  | .queueEnable cid q => Sys2Proof.Machine.execQueueEnable cid q s
  | .queueDisable cid q => Sys2Proof.Machine.execQueueDisable cid q s
  | .queueSkip cid q => Sys2Proof.Machine.execQueueSkip cid q s
  | .packetFetch cid q => Sys2Proof.Machine.execPacketFetch cid q s
  | .launchPkt cid q => Sys2Proof.Machine.execLaunchPkt cid q s
  | .waitPkt cid q => Sys2Proof.Machine.execWaitPkt cid q s
  | .waitSatisfied cid q => Sys2Proof.Machine.execWaitSatisfied cid q s
  | .markPkt cid q => Sys2Proof.Machine.execMarkPkt cid q s
  | .copyPkt cid q => Sys2Proof.Machine.execCopyPkt cid q s
  | .copyPacketComplete op => Sys2Proof.Machine.execCopyPacketComplete op s
  | .detmodePkt cid q => Sys2Proof.Machine.execDetmodePkt cid q s
  | .graphPkt cid q => Sys2Proof.Machine.execGraphPkt cid q s
  | .create vf => Sys2Proof.Machine.execCreate vf s
  | .destroy vf => Sys2Proof.Machine.execDestroy vf s
  | .teardownComplete cid => Sys2Proof.Machine.execTeardownComplete cid s
  | .quiesce vf => Sys2Proof.Machine.execQuiesce vf s
  | .quiesceComplete cid => Sys2Proof.Machine.execQuiesceComplete cid s
  | .resume vf => Sys2Proof.Machine.execResume vf s
  | .checkpoint vf => Sys2Proof.Machine.execCheckpoint vf s
  | .restore vf => Sys2Proof.Machine.execRestore vf s
  | .loadObj vf => Sys2Proof.Machine.execLoadObj vf s
  | .resumet vf => Sys2Proof.Machine.execResumet vf s
  | .setbudget vf => Sys2Proof.Machine.execSetbudget vf s
  | .ctxcmdInvalid vf => Sys2Proof.Machine.execCtxcmdInvalid vf s
  | .replay cid => Sys2Proof.Machine.execReplay cid s
  | .replayall cid => Sys2Proof.Machine.execReplayall cid s
  | .inval cid => Sys2Proof.Machine.execInval cid s
  | .invalall cid => Sys2Proof.Machine.execInvalall cid s
  | .rreplay cid => Sys2Proof.Machine.execRreplay cid s
  | .rreplayall cid => Sys2Proof.Machine.execRreplayall cid s
  | .rsync cid => Sys2Proof.Machine.execRsync cid s
  | .pgcmdDiscard cid v => Sys2Proof.Machine.execPgcmdDiscard cid v s
  | .detmodeWrite vf v => Sys2Proof.Machine.execDetmodeWrite vf v s
  | .pwrpoolWrite die v => Sys2Proof.Machine.execPwrpoolWrite die v s
  | .partcfgWrite vf v => Sys2Proof.Machine.execPartcfgWrite vf v s
  | .pfqEnable vf v => Sys2Proof.Machine.execPfqEnable vf v s
  | .pfqconsWrite vf v => Sys2Proof.Machine.execPfqconsWrite vf v s
  | .fqconsWrite cid v => Sys2Proof.Machine.execFqconsWrite cid v s
  | .faultRecordDeferred partition id => Sys2Proof.Machine.execFaultRecordDeferred partition id s
  | .rangeEntryWrite vf n v => Sys2Proof.Machine.execRangeEntryWrite vf n v s
  | .vfownWrite vf v => Sys2Proof.Machine.execVfownWrite vf v s
  | .commEntryWrite vf n v => Sys2Proof.Machine.execCommEntryWrite vf n v s
  | .registerWrite r v => Sys2Proof.Machine.execRegisterWrite r v s
  | .partitionCreate vf cfg => Sys2Proof.Machine.execPartitionCreate vf cfg s
  | .partitionDestroy vf => Sys2Proof.Machine.execPartitionDestroy vf s
  | .packageReset images => Sys2Proof.Machine.execPackageReset images s
  | .bankLoad n load => Sys2Proof.Machine.execBankLoad n load s
  | .thermalLimit die size => Sys2Proof.Machine.execThermalLimit die size s
  | .criticalTemperature die => Sys2Proof.Machine.execCriticalTemperature die s
  | .fabricPacketReceive port p => Sys2Proof.Machine.execFabricPacketReceive port p s
  | .attestationRequest src vf nonce => Sys2Proof.Machine.execAttestationRequest src vf nonce s
  | .identityRequest src => Sys2Proof.Machine.execIdentityRequest src s
  | .flitCheckFail port => Sys2Proof.Machine.execFlitCheckFail port s
  | .portTraining port rtt ok => Sys2Proof.Machine.execPortTraining port rtt ok s
  | .ethConnectionFail port conn => Sys2Proof.Machine.execEthConnectionFail port conn s
  | .limiterRefill vf => Sys2Proof.Machine.execLimiterRefill vf s
  | .hartRv64gcInstruction len w => Sys2Proof.Machine.execHartRv64gcInstruction len w s
  | .uncorrectableError unitAddr => Sys2Proof.Machine.execUncorrectableError unitAddr s
  | .ethernetFrameReceive port conn frame => Sys2Proof.Machine.execEthernetFrameReceive port conn frame s
  | .firmwareUpdate image => Sys2Proof.Machine.execFirmwareUpdate image s

end Sys2Proof.Machine
end

