-- ==== Sys2Proof/Machine/Run.lean ====
section
/-! DEFINITION. How the machine goes on: the next thread-slot of a core's issue port (R59, R339), the next instruction of a
hart (R251), the passing of core cycles (R21), and what it does next when nothing from outside is to be done. -/
namespace Sys2Proof.Machine

/-! ## Time -/

/-- A core's cycles pass: `sys.cycle` counts them, and `sys.hcount` of each thread of the core with `msk` set (R242). -/
def passCycles (s : State) (core n : Nat) : State :=
  let c := s.core core
  let s := s.setCore core { c with cycle := c.cycle + BitVec.ofNat 64 n }
  c.slots.foldl (fun s e => s.modGroup e.2 (fun g =>
    { g with threads := mmap (fun _ th =>
        if th.live && th.msk then { th with hcount := th.hcount + BitVec.ofNat 32 n } else th) g.threads })) s

/-- How Gong cycles of die `die` count for an entry of the Gong of die `home`: it has been pending that long (R327), and its
kernel's next group, evicted or not yet placed, has waited that long for placement on the die (R335). Counts stop at 65,536, where they take effect. -/
def GongEntry.pass (s : State) (die n home : Nat) (e : GongEntry) : GongEntry :=
  let e := if home = die ∧ e.sent = false then { e with age := min (e.age + n) 65536 } else e
  match entryKernel s e with
  | some (kid, k) =>
    if waitsOn s kid k die then
      { e with waits := mset e.waits die (min (mgetD e.waits die 0 + n) 65536) }
    else e
  | none => e

/-- Periods of a die's Gong pass (R25): they count down the stagger of each launch, and count for pending entries. -/
def passGong (s : State) (die n : Nat) : State :=
  let s := s.setDie die { s.die die with starts := (mmap (fun _ k => k - n) (s.die die).starts).filter (fun e => e.2 != 0) }
  { s with dies := mmap (fun d x => { x with gong := x.gong.map (GongEntry.pass s die n d) }) s.dies }

/-! ## Lanes -/

/-- Takes thread `t` out of the slot that the port's issue group executes. -/
def popTodo (s : State) (core t : Nat) : State :=
  let c := s.core core
  match c.port with
  | some ig => s.setCore core { c with port := some { ig with todo := ig.todo.filter (· != t) } }
  | none => s

/-- Takes thread `t` out of those that share the slot's execution: it has not entered the clause with them. -/
def dropMate (core t : Nat) (s : State) : State :=
  let c := s.core core
  match c.port with
  | some ig => s.setCore core { c with port := some { ig with mates := ig.mates.filter (· != t) } }
  | none => s

/-- After a thread's part in a slot (R59, R339): a thread that is outside its clause has left the issue group and, if it
can run, is ready from now; when all have done the slot its cycles have passed; an empty issue group frees the port. -/
def laneDone (core gid t cost : Nat) (s : State) : State :=
  let s := { s with cur := none }
  match s.thread gid t, s.group gid with
  | some th, some g =>
    let stays := th.isReady && th.inside
    let s := if th.isReady && !th.inside then s.setThread gid t { th with ready := readyNow s g } else s
    let c := s.core core
    match c.port with
    | none => s
    | some ig =>
      let ig := if stays then ig else { ig with members := ig.members.filter (· != t), todo := ig.todo.filter (· != t) }
      let fin := ig.todo == []
      let ig := if fin then { ig with cycles := ig.cycles + cost } else ig
      let s := s.setCore core { c with port := if ig.members = [] then none else some ig }
      if fin then passCycles s core cost else s
  | _, _ => s

/-- Applies a function to the next state of an outcome. -/
def Outcome.map (h : State → State) : Host.Outcome State Fault Refusal → Host.Outcome State Fault Refusal
  | .next s => .next (h s)
  | .fault f => .fault f
  | .refused r => .refused r

/-- The next slot of the port's issue group, which has done its last (R59, R339): it yields first where the slot would take
it past 64 issue cycles. -/
def nextSlot (s : State) (core : Nat) (ig : IssueGroup) : Host.Outcome State Fault Refusal :=
  let c := s.core core
  match ig.members.head?.bind (fun t => s.thread ig.gid t) with
  | none => .next (s.setCore core { c with port := none })
  | some th =>
    if overPort s core ig then exec (.issuePortYield core) s
    else
      .next ((s.setCore core { c with
        port := some { ig with pc := th.pc, todo := ig.members, mates := ig.members, inst := s.nextInst } }).bumpInst)

/-- What a thread is about to execute, when it enters a clause. -/
def entryCur (ig : IssueGroup) (t : Nat) (th : Thread) : Cur :=
  { gid := ig.gid, t := t, head := pcHead th.pc, cnt := 0, pc := th.pc, next := th.pc, nextRep := th.rep, word := 0#64,
    lits := [], k := th.repNo, inst := ig.inst, mates := ig.mates, alt := none }

/-- What a thread is about to execute, at a slot. -/
def slotCur (ig : IssueGroup) (t : Nat) (th : Thread) (sl : SlotAt) : Cur :=
  { gid := ig.gid, t := t, head := pcHead th.pc, cnt := sl.cnt, pc := th.pc, next := sl.next, nextRep := sl.nextRep,
    word := sl.word, lits := sl.lits, k := th.repNo, inst := ig.inst, mates := ig.mates, alt := sl.alt }

/-- A failed fetch of a slot: the thread traps or waits there (R110). -/
def fetchFails (s : State) (cur : Cur) (x : Exc) : Host.Outcome State Fault Refusal :=
  match envOf { s with cur := some cur } with
  | some e => resolveExc e e.s x
  | none => .next s

/-- The slot of one thread: fetched, decoded through its context's bank, executed. -/
def threadSlot (s : State) (core : Nat) (ig : IssueGroup) (t : Nat) (g : Group) (th : Thread) :
    Host.Outcome State Fault Refusal :=
  match slotAt s core g.cid th.pc th.rep with
  | .error x => Outcome.map (laneDone core ig.gid t 1) (fetchFails (popTodo s core t) (entryCur ig t th) x)
  | .ok (sl, s1) =>
    Outcome.map (laneDone core ig.gid t (issueCost sl.word))
      (exec sl.dec { popTodo s1 core t with cur := some (slotCur ig t th sl) })

/-- One thread of the issue group: its budget, its results whose window is over, its clause entry, or its slot. -/
def laneThread (s : State) (core : Nat) (ig : IssueGroup) (t : Nat) (g : Group) (th : Thread) :
    Host.Outcome State Fault Refusal :=
  if !(th.isReady && th.pc == ig.pc) then
    .next (laneDone core ig.gid t 1 (dropMate core t (popTodo (s.modThread ig.gid t Thread.outside) core t)))
  else if overBudget s g th then
    Outcome.map (fun s => laneDone core ig.gid t 1 (dropMate core t s)) (exec (.handlerOverrun ig.gid t) (popTodo s core t))
  else if th.pend.any (fun p => p.left == 0) then exec (.resultReturn ig.gid t) s
  else if !th.inside then
    Outcome.map (fun s' => match s'.thread ig.gid t with
        | some th' => if th'.inside then { s' with cur := none } else laneDone core ig.gid t 1 (dropMate core t (popTodo s' core t))
        | none => s')
      (exec .clauseEntry { s with cur := some (entryCur ig t th) })
  else threadSlot s core ig t g th

/-- The next thing that happens at a core's issue port: every thread of the issue group enters the clause before any does
the slot. -/
def laneStep (s : State) (core : Nat) : Host.Outcome State Fault Refusal :=
  match (s.core core).port with
  | none => exec (.issueGroupForm core) s
  | some ig =>
    match ig.todo with
    | [] => nextSlot s core ig
    | t0 :: _ =>
      let t := (ig.todo.find? (fun t => match s.thread ig.gid t with | some th => !th.inside | none => true)).getD t0
      match s.thread ig.gid t, s.group ig.gid with
      | some th, some g => laneThread s core ig t g th
      | _, _ => .next (s.setCore core { s.core core with port := none })

/-! ## Harts -/

/-- What a failed fetch means for a hart (R374). -/
def fetchHEx (x : Exc) : HEx :=
  match x with
  | .trap c a i => .stop c a i
  | .replay r f => .wait r f
  | _ => .again

/-- The word at a hart's program counter: 16 bits, and 16 more where the first say so. -/
def hartWord (s : State) (core cid : Nat) (pc : W64) : Except Exc (W32 × State) :=
  match fetchBytes s core cid pc 2 with
  | .error x => .error x
  | .ok (b0, s1) =>
    if leNat b0 % 4 ≠ 3 then .ok (BitVec.ofNat 32 (leNat b0), s1)
    else match fetchBytes s1 core cid (pc + 2#64) 2 with
      | .error x => .error x
      | .ok (b1, s2) => .ok (BitVec.ofNat 32 (leNat (b0 ++ b1)), s2)

/-- The next instruction of a group's hart (R251): fetched, decoded, executed. -/
def hartStep (s : State) (gid : Nat) : Host.Outcome State Fault Refusal :=
  match henvOf { s with curHart := some gid } with
  | none => .next s
  | some e =>
    match hartWord s e.g.coreN e.g.cid e.h.pc with
    | .error x => .next (resolveH e s (fetchHEx x))
    | .ok (w, s1) => Outcome.map (fun s => { s with curHart := none }) (exec (decodeHart w) { s1 with curHart := some gid })

/-! ## Walking ahead (R371) -/

/-- The tensor records that an engine operation goes along. -/
def EngKind.recs : EngKind → List Rec
  | .copy _ a b => a.toList ++ b.toList
  | .tld _ r _ _ => [r]
  | .tst _ r _ _ _ => [r]
  | .gath r _ _ => [r]
  | .task _ a w c _ => [a, w, c]
  | _ => []

/-- The address of element `n` of a record in global memory, along its shape and strides. -/
def aheadAt (r : Rec) (n : Nat) : Option W64 :=
  let i0 := n % trExt r 0
  let i1 := n / trExt r 0 % trExt r 1
  let i2 := n / (trExt r 0 * trExt r 1) % trExt r 2
  let i3 := n / (trExt r 0 * trExt r 1 * trExt r 2) % trExt r 3
  if trSp r || !trInside r i0 i1 i2 i3 then none else some (BitVec.ofNat 64 (trAddr r (trOffset r i0 i1 i2 i3)).1)

/-- The tensor translation engine walks ahead to element `n` of record `i` of an operation in progress. -/
def goAhead (s : State) (op i n : Nat) : State :=
  match mget s.ops op with
  | none => s
  | some o => match o.kind.recs[i]?.bind (aheadAt · n) with
    | some va => walkAhead s o.place.die o.cid va
    | none => s

/-! ## What happens next by itself -/

/-- What the K7 may do next without anything from outside. -/
inductive Internal where
  | lanes (core : Nat)
  | hart (gid : Nat)
  | cycles (core : Nat)
  | gong (die : Nat)
  | overrun (gid t : Nat)
  | held (gid t : Nat)
  | recheck (gid t : Nat)
  | place (kid : Nat)
  | start (gid : Nat)
  | evict (gid : Nat)
  | restore (gid : Nat)
  | kernelEnd (kid : Nat)
  | merge (kid : Nat)
  | nodeStart (graph node : Nat)
  | nodeEnd (graph node : Nat)
  | fetch (cid q : Nat)
  | packet (cid q : Nat)
  | waitEnd (cid q : Nat)
  | opData (op : Nat)
  | opEnd (op : Nat)
  | taskStart (op : Nat)
  | accept (core : Nat)
  | lastMac (core : Nat)
  | batch (gid mx n : Nat)
  | late (partition : Bool) (id : Nat)
  | command (vf : Nat)
  | page (cid : Nat)
  | quiesced (cid : Nat)
  | torn (cid : Nat)
  | aging (die entry : Nat)
  | ahead (op : Nat)
  | resend (port conn : Nat)
  | ethFail (port conn : Nat)
  deriving DecidableEq, Repr

/-- The cores that a kernel's next cluster takes: on the lowest die with room, the lowest cores; at levels 1 and 2 those that
are fixed. -/
def pickCores (s : State) (k : Kernel) : List Nat :=
  if s.level k.cid ≠ 0 then fixedCores s k k.nextGrp
  else
    ((upFrom 0 4).findSome? (fun d =>
      let l := ((partCores (s.part (vfOf k.cid)) d).flatMap (fun c =>
        List.replicate (Room.fits k k.clSize (roomOf s c)) c)).take k.clSize
      if l.length = k.clSize then some l else none)).getD []

/-- The cores that the evicted groups of a group's cluster take. -/
def pickRestore (s : State) (gid : Nat) : List Nat :=
  match s.group gid with
  | none => []
  | some g => match s.kernel g.kid with
    | none => []
    | some k => ((upFrom 0 4).findSome? (fun d => match restoreCores s k g d with | [] => none | l => some l)).getD []

/-- The core that a tile task takes. -/
def pickEngine (s : State) (o : EngOp) : Nat :=
  ((partCores (s.part (vfOf o.cid)) o.place.die).find? (fun c => (s.core c).mxq == [] && !taskOn s c)).getD 0

/-- A packet that has been read starts, by its type (R315). -/
def startByType (cid q : Nat) (s : State) : Host.Outcome State Fault Refusal :=
  match (s.queue cid q).cur with
  | none => .next s
  | some p =>
    match pkType p.body with
    | 1 => execLaunchPkt cid q s
    | 2 => execWaitPkt cid q s
    | 3 => execMarkPkt cid q s
    | 4 => execCopyPkt cid q s
    | 5 => execDetmodePkt cid q s
    | _ => execGraphPkt cid q s

/-- An engine operation ends, by its kind. -/
def endByKind (op : Nat) (s : State) : Host.Outcome State Fault Refusal :=
  match mget s.ops op with
  | none => .next s
  | some o =>
    match o.kind with
    | .copy .. => execCopyComplete op s
    | .tld .. => execTileTransferComplete op s
    | .tst .. => execTileTransferComplete op s
    | .gath .. => execGatherComplete op s
    | .coll .. => execCollectiveComplete op [] [] s
    | .nodeColl .. => execCollectiveComplete op [] [] s
    | .task .. => execTileTaskComplete op s
    | .packet .. => execCopyPacketComplete op s
    | .nodeCopy .. => .next s

/-- The command of a partition, by its code (R298). -/
def commandByCode (vf : Nat) (s : State) : Host.Outcome State Fault Refusal :=
  match (s.part vf).cmd with
  | none => .next s
  | some c =>
    if c.res then execCtxcmdInvalid vf s
    else match c.cmd.toNat with
      | 1 => execCreate vf s
      | 2 => execDestroy vf s
      | 3 => execQuiesce vf s
      | 4 => execResume vf s
      | 5 => execCheckpoint vf s
      | 6 => execRestore vf s
      | 7 => execLoadObj vf s
      | 8 => execResumet vf s
      | 9 => execSetbudget vf s
      | _ => execCtxcmdInvalid vf s

/-- The oldest page command of a register set, by its code (R375). -/
def pageByCode (cid : Nat) (s : State) : Host.Outcome State Fault Refusal :=
  match (s.ctx cid).pgq with
  | [] => .next s
  | c :: _ => match c.code.toNat with
    | 1 => execReplay cid s
    | 2 => execReplayall cid s
    | 3 => execInval cid s
    | 4 => execInvalall cid s
    | 5 => execRreplay cid s
    | 6 => execRreplayall cid s
    | _ => execRsync cid s

/-- How many bytes a copy performs next: at most 64. -/
def nextPart (o : EngOp) : Nat := min 64 (o.shape.elim 0 (fun c => c.total - o.count))

/-- Does one of them. -/
def doInternal (x : Internal) (s : State) : Host.Outcome State Fault Refusal :=
  match x with
  | .lanes c => laneStep s c
  | .hart gid => hartStep s gid
  | .cycles c => .next (passCycles s c 64)
  | .gong d => .next (passGong s d 64)
  | .overrun gid t => execHandlerOverrun gid t s
  | .held gid t => execHeldAccessPerform gid t s
  | .recheck gid t => execWaitaRecheck gid t s
  | .place kid => match s.kernel kid with
    | some k => execGroupPlacement kid (pickCores s k) s
    | none => .next s
  | .start gid => execGroupStart gid s
  | .evict gid => execGroupEvict gid s
  | .restore gid => execGroupRestore gid (pickRestore s gid) s
  | .kernelEnd kid => execKernelComplete kid s
  | .merge kid => execMergeApply kid s
  | .nodeStart g n => execGraphNodeDispatch g n s
  | .nodeEnd g n => execGraphNodeComplete g n s
  | .fetch cid q => execPacketFetch cid q s
  | .packet cid q => startByType cid q s
  | .waitEnd cid q => execWaitSatisfied cid q s
  | .opData op => match mget s.ops op with
    | some o => execCopyDataPerformed op o.count (nextPart o) s
    | none => .next s
  | .opEnd op => endByKind op s
  | .taskStart op => match mget s.ops op with
    | some o => execTileTaskDispatch op (pickEngine s o) s
    | none => .next s
  | .accept c => execMatrixAccept c s
  | .lastMac c => execMatrixLastMac c s
  | .batch gid mx n => execMatrixBatchComplete gid mx n s
  | .late p id => execFaultRecordDeferred p id s
  | .command vf => commandByCode vf s
  | .page cid => pageByCode cid s
  | .quiesced cid => execQuiesceComplete cid s
  | .torn cid => execTeardownComplete cid s
  | .aging d n => execGongAging d n s
  | .ahead op => .next (goAhead s op (s.tick % 3) s.tick)
  | .resend p c => .next (resend s p c)
  | .ethFail p c => execEthConnectionFail p c s

/-- The candidates of the cores. -/
def coreInternals (s : State) : List Internal :=
  s.cores.flatMap (fun e =>
    (if e.2.port.isSome || !(coreCands s e.2).isEmpty then [Internal.lanes e.1] else []) ++
    (if e.2.mxq.isEmpty then [] else [Internal.accept e.1, Internal.lastMac e.1]) ++ [.cycles e.1])

/-- The candidates of one group. -/
def groupInternals (gid : Nat) (g : Group) : List Internal :=
  (if g.hart.goes && g.isResident then [.hart gid] else []) ++
  (match g.loc with
   | .placed _ _ => [.start gid]
   | .resident _ _ => [.evict gid]
   | .evicted _ => [.restore gid]
   | _ => []) ++
  g.threads.flatMap (fun t =>
    (match t.2.wait with
     | .held => [.held gid t.1]
     | .waita .. => [.recheck gid t.1]
     | _ => []) ++ (if t.2.live && t.2.msk then [.overrun gid t.1] else [])) ++
  (upFrom 0 2).flatMap (fun mx =>
    let x := g.engCtx (4 + mx)
    (upFrom (x.tl + 1) (x.issued - x.tl)).map (fun n => .batch gid mx n))

/-- The candidates of one context. -/
def ctxInternals (cid : Nat) (c : Context) : List Internal :=
  c.queues.flatMap (fun q => if q.2.en then [.fetch cid q.1, .packet cid q.1, .waitEnd cid q.1] else []) ++
  (if c.fqWait.isEmpty then [] else [.late false cid]) ++ (if c.pgq.isEmpty then [] else [.page cid]) ++
  (if c.st == .quiescing then [.quiesced cid] else []) ++ (if c.st == .destroying then [.torn cid] else [])

/-- The candidates of a die's Gong: entries that have waited long enough to count as priority 3 (R327). -/
def gongInternals (die : Nat) (l : List GongEntry) : List Internal :=
  ((l.zip (upFrom 0 l.length)).filter (fun x => !x.1.sent && !x.1.aged && decide (65536 ≤ x.1.age))).map (fun x => .aging die x.2)

/-- The candidates of an Ethernet port. -/
def ethInternals (port : Nat) (p : EthPort) : List Internal :=
  p.conns.flatMap (fun c =>
    if c.2.up && c.2.unack != [] then
      .resend port c.1 :: (if c.2.unack.any (fun x => decide (64 ≤ x.sent)) then [.ethFail port c.1] else [])
    else [])

/-- Everything that may happen next by itself: the cycles of every core pass, busy or not (R21). -/
def internals (s : State) : List Internal :=
  .cycles (s.tick % 256) :: coreInternals s ++ s.groups.flatMap (fun e => groupInternals e.1 e.2) ++
  (if s.dies.any (fun e => e.2.gong.any (fun x => !x.sent)) then (upFrom 0 4).map .gong
   else s.dies.flatMap (fun e => if e.2.starts.isEmpty then [] else [.gong e.1])) ++
  s.dies.flatMap (fun e => gongInternals e.1 e.2.gong) ++ s.eth.flatMap (fun e => ethInternals e.1 e.2) ++
  s.kernels.flatMap (fun e => [.place e.1, .kernelEnd e.1, .merge e.1]) ++
  s.graphs.flatMap (fun e => (upFrom 0 e.2.nodes.length).flatMap (fun n => [.nodeStart e.1 n, .nodeEnd e.1 n])) ++
  s.ops.flatMap (fun e => [.opData e.1, .opEnd e.1, .taskStart e.1] ++ (if e.2.kind.recs = [] then [] else [.ahead e.1])) ++
  s.ctxs.flatMap (fun e => ctxInternals e.1 e.2) ++
  s.parts.flatMap (fun e => (if e.2.cmd.isSome then [.command e.1] else []) ++
    (if e.2.prWait.isEmpty then [] else [.late true e.1]))

/-- What the machine does when nothing from outside is to be done: the candidates in turn, by the counter (log 3). -/
def goOn (s : State) : Host.Outcome State Fault Refusal :=
  if s.dead then .next s
  else
    let l := internals s
    match l[s.tick % l.length]? with
    | some x => doInternal x s
    | none => .next s

/-! ## The agenda -/

/-- Whether an event is a package reset: nothing else happens to a package that has stopped (R26, R420). -/
def isReset (i : Instr) : Bool := match i with | .packageReset _ => true | _ => false

/-- What an entry of the agenda does. -/
def perform (a : Action) (s : State) : Host.Outcome State Fault Refusal :=
  match a with
  | .event i => if s.dead && !isReset i then .next s else exec i s
  | .lanes core => if s.dead then .next s else laneStep s core
  | .hart gid => if s.dead then .next s else hartStep s gid
  | .tick core n => .next (if s.dead then s else if core < 256 then passCycles s core n else passGong s (core - 256) n)
  | .ahead op i n => .next (if s.dead then s else goAhead s op i n)
  | .resend port conn => .next (if s.dead then s else resend s port conn)

/-! ## A machine about to fetch -/

/-- The code granule of `fetchState`: virtual granule 1 at physical granule 1. -/
def codeTlb : TlbEntry := { cid := 0, va := 1, size := 1, pa := 1, ipa := 1, r := true, w := true, x := true, a := true, d := true }

/-- The machine with one context, one kernel and one resident group of one thread on core 0, and code bytes at 0x10000. -/
def fetchState (s : State) (code : List Byte) (hart : Hart) : State :=
  let s := s.setPart 0 { Partition.fresh with qmask := 1#16 }
  let s := s.setCtx 0 { Context.free with st := .active, msize := 1#32 }
  let k : Kernel :=
    { cid := 0, die := 0, kdesc := 0#56, desc := 0#512, kargs := 0#56, ext := [], stag := 0#16, prio := 0#2, rel := false,
      origin := .packet 0 0 0, st := .running, nextGrp := 1, started := 1, retired := 0, lbarAt := 1,
      mergePending := false, interval := 0, snap := none, snapTables := [], snapPages := [], vc := [], birth := [] }
  let g := Group.fresh 0 k 0 0 0 [0]
  let g := { g with
    loc := .resident 0 0, hart := hart
    threads := mmap (fun _ th => { th with pc := 0x10000#64, inside := true, quota := 128 }) g.threads }
  let ig : IssueGroup :=
    { gid := 0, members := [0], todo := [0], mates := [0], pc := 0x10000#64, inst := s.nextInst, cycles := 0, stalled := false,
      since := 0 }
  let c : Core := { Core.zero with slots := [(0, 0)], port := some ig, tlb := [codeTlb] }
  let s := s.setCore 0 c
  { { s with reach := [] }.poke 0 0x10000 code with
    dead := false, badUnits := [], banks := mdel s.banks 0
    kernels := mset s.kernels 0 k, groups := mset s.groups 0 g, nextKid := s.nextKid + 1, nextGid := s.nextGid + 1
    nextAid := s.nextAid + 2, nextInst := s.nextInst + 1 }

/-- The hart of `fetchState`, running at 0x10000. -/
def fetchHart : Hart := { Hart.off with pc := 0x10000#64, status := .running }

/-- The machine whose next step fetches and runs an instruction: a hart's in up to 32 bits, a thread's in the first slot of
a clause of class 5 (log 18). -/
def fetchMachine (s : State) (nbits w : Nat) : State :=
  if nbits ≤ 32 then { fetchState s (leBytes 4 w) fetchHart with agenda := [.hart 0] }
  else { fetchState s (leBytes 8 0x5F ++ leBytes 8 w) Hart.off with agenda := [.lanes 0] }

end Sys2Proof.Machine
end

