-- ==== Sys2Proof/Machine/Step.lean ====
section
/-! DEFINITION. The step of the machine: it takes the next entry of its agenda, or what it does when the agenda is empty,
and then completes what stands open. -/
namespace Sys2Proof.Machine

/-- One step of the machine. -/
def step (s : State) : Host.Outcome State Fault Refusal :=
  match s.agenda with
  | a :: rest => Outcome.map settle (perform a { s with agenda := rest, tick := s.tick + 1 })
  | [] => Outcome.map settle (goOn { s with tick := s.tick + 1 })

/-- The machine with an instruction where `step` fetches its next one. -/
def State.withFetchWord (s : State) (nbits w : Nat) : State := fetchMachine s nbits w

end Sys2Proof.Machine
end

