-- ==== Sys2Proof/Safety.lean ====
section
/-! DEFINITION. The terms that claims about the machine are stated in: a safe step and a sound state; when a vector slot
can run (R66, R68, R74); what a slot of a thread-local instruction leaves; which part of the machine a change stays in. -/
namespace Sys2Proof.Machine

/-! ## Safe runs -/

/-- A state whose physical memory has its canonical form, so that equal memories are equal data. -/
def State.Sound (s : State) : Prop := s.mem.wf = true

/-- A step that goes on: it ends in a next state, and in no fault or refusal. -/
def Goes (o : Host.Outcome State Fault Refusal) : Prop := ∃ t, o = .next t

/-- A run is safe as long as it goes on. -/
def SafeRun : Nat → State → Prop
  | 0, _ => True
  | n + 1, s => ∃ t, step s = .next t ∧ SafeRun n t

/-! ## A slot that can run -/

/-- The slot in execution holds instruction `i` with fields `f`: `e` is what its meaning reads, `en` its entry in the
encoding tables, its fields pass R64, and it issues through the K7's own expansion, not that of a kept erratum (R403). -/
structure AtSlot (i : Instr) (f : Fields) (s : State) (e : Env) (en : Enc) : Prop where
  env   : envOf s = some e
  entry : encOf i = some en
  legal : encOk en f = true
  plain : e.cur.alt = none

/-- Such a slot issues its effect: its guard is true (R68), its sources can be read (R66), giving `x` and leaving the
thread as `th` (pops included), and its destination can be taken once the marked sources are free (R74). -/
structure Issues (i : Instr) (f : Fields) (s : State) (e : Env) (en : Enc) (x : Srcs) (th : Thread) : Prop
    extends AtSlot i f s e en where
  guard : guardOf f e.th.countWindow = true
  reads : readSrcs e en f e.th.countWindow = .ok (x, th)
  room  : reserveD f.d (dstLen en.d) (th.release (marked en f)) = .ok ((), th.release (marked en f))

/-- A slot that arrives at a blocking point (R59): its guard is true, and on a copy of the thread its sources can be read,
giving `x` and owing `pops` queue entries, and its destination can be written. -/
structure Arrives (i : Instr) (f : Fields) (s : State) (e : Env) (en : Enc) (x : Srcs) (pops : Nat) : Prop
    extends AtSlot i f s e en where
  reads : arriveReads e en f (s.setThread e.cur.gid e.cur.t e.th.countWindow) =
    .ok ((true, x, pops), s.setThread e.cur.gid e.cur.t e.th.countWindow)

/-- A thread that waits at a blocking point (R59): outside its issue group, past the slot when the wait ends, with the
sources it frees and the queue entries it pops owed until then. -/
def Thread.waiting (th : Thread) (cur : Cur) (w : Wait) (rel : List Nat) (pops : Nat) : Thread :=
  { th.outside with wait := w, resume := cur.next, resumeRep := cur.nextRep, owedRel := rel, owedPop := pops, retry := false }

/-! ## Accesses that go through -/

/-- A global access of the current thread in the open level that goes through, from the state `s1` in which its slot's
sources are free: every byte translates by `via` (R367, R370) and what leaves the K7 has its tokens (R392), giving the physical
bytes `pas` and the state `s2`; the stamps that it meets pass their check (R426); with its own stamp `new` it races with no
earlier access (R268); and its stamps have room (R12, R271). -/
structure GlobalVia (e : Env) (via : XlVia) (th : Thread) (s1 : State) (acc : BitVec 2) (vas : List W64) (new : Stamp)
    (pas : List Nat) (s2 : State) : Prop where
  atOpen : e.s.level e.g.cid = 0
  xl     : gXlate e via acc vas s1 = .ok (pas, s2)
  sound  : s2.stampBad pas = none
  quiet  : findRace s2.stamps th.hb new pas = none
  room   : (s2.ctx e.g.cid).stampOff = none
  fits   : stampsFit s2 e.g.cid ((pas.map (· / 32)).eraseDups.filter (fun x => !sectorStamped s2.stamps x)) = true

/-- The same through the core's own translation, with the stamp of a plain or atomic access. -/
abbrev GlobalOk (e : Env) (th : Thread) (s1 : State) (acc : BitVec 2) (vas : List W64) (wr : Bool)
    (atomic : Option (BitVec 3)) (pas : List Nat) (s2 : State) : Prop :=
  GlobalVia e e.via th s1 acc vas (th.hb.stamp wr atomic false e.place) pas s2

/-- Every byte read passes its check (R379, R428). -/
abbrev SoundBytes (e : Env) (s : State) (pas : List Nat) : Prop :=
  ∀ pa, pa ∈ pas → s.unitBad (s.ctx e.g.cid).keyId pa = false

/-- A scratchpad access of the current thread that goes through: the bytes are accessible (R140) and it races with no
earlier access (R275). -/
abbrev SpadOk (e : Env) (th : Thread) (off n : Nat) (wr : Bool) (atomic : Option (BitVec 3)) : Prop :=
  spOk e.k off n = true ∧ findRace e.g.stamps th.hb (th.hb.stamp wr atomic false e.place) (upFrom off n) = none

/-- Memory holds `bs` at `pas`, and every other byte is as in `m`. -/
def Stored (m m' : Memory) (pas : List Nat) (bs : List Byte) : Prop :=
  (∀ a, a ∉ pas → m'.get a = m.get a) ∧ (m.wf = true → pas.Nodup → pas.map m'.get = bs)

/-- Physical memory holds `bs` at `pas`, and every other byte is as before; bytes of the K7's own window are discarded (R387). -/
def StoredMem (s t : State) (pas : List Nat) (bs : List Byte) : Prop :=
  (∀ a, a ∉ pas → t.mem.get a = s.mem.get a) ∧
    (s.Sound → pas.Nodup → pas.map t.mem.get = (pas.zip bs).map (fun x => if s.ownWindow x.1 then s.mem.get x.1 else x.2))

/-! ## What a thread-local slot leaves -/

/-- `Write` (R66) of words to consecutive registers from a destination, outstanding results for them first (R70). -/
def Thread.write (th : Thread) (o : Operand) (vs : List W32) : Thread :=
  match o with
  | .main i =>
    let ws := numbered i.toNat vs
    let th := th.flushFor (fun p => (ws.map (·.1)).any p.hits)
    { th with regs := ws.foldl (fun m e => mset m e.1 e.2) th.regs }
  | .opf i =>
    let ws := numbered i.toNat vs
    let th := th.flushFor (fun p => ws.any (fun e => p.hitsFile e.1))
    { th with opf := ws.foldl (fun m e => mset m e.1 e.2) th.opf }
  | _ => th

/-- A predicate's new value, outstanding results for it first. -/
def Thread.writeP (th : Thread) (n : Nat) (b : Bool) : Thread :=
  let th := th.flushFor (fun p => p.hitsPred n)
  { th with preds := if b then th.preds ||| (1#8 <<< n) else th.preds &&& ~~~(1#8 <<< n) }

/-- An outstanding result for a destination (R69): its registers wait for earlier results and are held from now on. -/
def Thread.owe (th : Thread) (kind : DrainKind) (left : Nat) (o : Operand) (vs : List W32) : Thread :=
  let ws : List (Nat × W32) := match o with | .main i => numbered i.toNat vs | .opf i => numbered i.toNat vs | _ => []
  let th : Thread := match o with
    | .main _ => th.flushFor (fun p => (ws.map (·.1)).any p.hits)
    | .opf _ => th.flushFor (fun p => ws.any (fun e => p.hitsFile e.1))
    | _ => th
  { th with pend := th.pend ++ [{ kind := kind, main := (match o with | .main _ => ws | _ => []),
                                   file := (match o with | .opf _ => ws | _ => []), preds := [], left := left }] }

/-- What an instruction delivers to its thread: a value for d with the latches (R67), later for a long-latency one (R69);
or a predicate. -/
def Thread.deliver (th : Thread) (en : Enc) (f : Fields) (r : Res) : Thread :=
  match r, en.d with
  | .val v, .dst w =>
    if en.long then th.owe .alu f.ahd.toNat f.d (wordsOf w v) else (th.write f.d (wordsOf w v)).latch w v
  | .pred b, .pred => if en.long then th else th.writeP (opBits f.d).toNat b
  | _, _ => th

/-- The thread after a slot that delivered `r` and raised `fl`: marked sources are free, the result is there, the flags are
sticky (R50), and it stands at the next slot (R59). -/
def Thread.afterAlu (th : Thread) (cur : Cur) (en : Enc) (f : Fields) (r : Res) (fl : FFlags) : Thread :=
  (((th.release (marked en f)).deliver en f r).raiseFlags fl).advance cur

/-! ## Where a change stays -/

/-- Two states agree but for the groups. -/
def SameOutside (s t : State) : Prop := { t with groups := s.groups } = s

/-- Two states agree but for thread `n` of group `gid`. -/
def OnlyThread (gid n : Nat) (s t : State) : Prop :=
  ∃ th, t = s.setThread gid n th

/-- Two states agree but for group `gid`. -/
def OnlyGroup (gid : Nat) (s t : State) : Prop :=
  ∃ g, t = s.setGroup gid g

/-- Main registers of a thread other than those listed are as before. -/
def KeepsRegs (rs : List Nat) (a b : Thread) : Prop := ∀ r, r ∉ rs → mget b.regs r = mget a.regs r

/-- Every byte of physical memory outside `lo` to `lo + n - 1` reads as before. -/
def KeepsMem (lo n : Nat) (s t : State) : Prop := ∀ a, a < lo ∨ lo + n ≤ a → t.mem.get a = s.mem.get a

end Sys2Proof.Machine
end

