-- ==== Sys2Proof/Certificates/Slice0/Obligations.lean ====
section
/-! DEFINITION. The statements for the provers: what the numbered rules of the manual say the instructions and events of the
Kryfel K7 do, said of the model. Tables of results come first, in arithmetic of their own; each statement is a proposition
`Obligations.<Name>`. -/
open Sys2Proof Sys2Proof.Machine

namespace Sys2Proof.Spec

/-! ## Results of the thread-local instructions -/

/-- The low 32 bits of an integer, as a result. -/
def i32 (v : Int) : Res := .val (zext64 (BitVec.ofInt 32 v))
/-- The low 64 bits of an integer, as a result. -/
def i64 (v : Int) : Res := .val (BitVec.ofInt 64 v)

/-- A condition of ICMP on two integers (R118). -/
def cmpHolds (cc : BitVec 4) (a b : Int) : Bool :=
  if cc = 0#4 then a == b else if cc = 1#4 then a != b else if cc = 2#4 then decide (a < b)
  else if cc = 3#4 then decide (a ≤ b) else if cc = 4#4 then decide (a > b) else decide (a ≥ b)

/-- The signed 8-bit element `k` of a word. -/
def byteS (a : W32) (k : Nat) : Int := (a.extractLsb' (8 * k) 8).toInt
/-- The unsigned 8-bit element `k` of a word. -/
def byteU (a : W32) (k : Nat) : Int := (a.extractLsb' (8 * k) 8).toNat
/-- The signed 4-bit element `k` of a word. -/
def nibS (a : W32) (k : Nat) : Int := (a.extractLsb' (4 * k) 4).toInt

/-- The results of R118, in the integers. -/
def r118 (i : Instr) (x : Srcs) : Option Res :=
  let a := x.a32.toInt; let b := x.b32.toInt; let c := x.c32.toInt
  let ua : Int := x.a32.toNat; let ub : Int := x.b32.toNat
  match i with
  | .iaddI32 _ => some (i32 (a + b))
  | .iaddI64 _ => some (i64 (x.a.toInt + x.b.toInt))
  | .isubI32 _ => some (i32 (a - b))
  | .isubI64 _ => some (i64 (x.a.toInt - x.b.toInt))
  | .imulI32 _ => some (i32 (a * b))
  | .imulhI32 _ => some (i32 (a * b / 2 ^ 32))
  | .imulhN32 _ => some (i32 (ua * ub / 2 ^ 32))
  | .imadI32 _ => some (i32 (a * b + c))
  | .imadwI64 _ => some (i64 (a * b + x.c.toInt))
  | .iminI32 _ => some (i32 (min a b))
  | .iminN32 _ => some (i32 (min ua ub))
  | .imaxI32 _ => some (i32 (max a b))
  | .imaxN32 _ => some (i32 (max ua ub))
  | .iabsI32 _ => some (i32 a.natAbs)
  | .inegI32 _ => some (i32 (-a))
  | .icmpI32 f => some (.pred (cmpHolds f.mod a b))
  | .icmpN32 f => some (.pred (cmpHolds f.mod ua ub))
  | .icmpI64 f => some (.pred (cmpHolds f.mod x.a.toInt x.b.toInt))
  | .icmpN64 f => some (.pred (cmpHolds f.mod (x.a.toNat : Int) (x.b.toNat : Int)))
  | .lea f => some (i32 (a + b * 2 ^ f.mod.toNat))
  | .leaI64 f => some (i64 (x.a.toInt + b * 2 ^ f.mod.toNat))
  | .idot4I8 _ => some (i32 (c + byteS x.a32 0 * byteS x.b32 0 + byteS x.a32 1 * byteS x.b32 1 +
      byteS x.a32 2 * byteS x.b32 2 + byteS x.a32 3 * byteS x.b32 3))
  | .idot4N8 _ => some (i32 (c + byteU x.a32 0 * byteU x.b32 0 + byteU x.a32 1 * byteU x.b32 1 +
      byteU x.a32 2 * byteU x.b32 2 + byteU x.a32 3 * byteU x.b32 3))
  | .idot8I4 _ => some (i32 (c + nibS x.a32 0 * nibS x.b32 0 + nibS x.a32 1 * nibS x.b32 1 +
      nibS x.a32 2 * nibS x.b32 2 + nibS x.a32 3 * nibS x.b32 3 + nibS x.a32 4 * nibS x.b32 4 +
      nibS x.a32 5 * nibS x.b32 5 + nibS x.a32 6 * nibS x.b32 6 + nibS x.a32 7 * nibS x.b32 7))
  | .iclampI32 _ => some (i32 (min (max a b) c))
  | _ => none

/-- The results of R119, in the integers: a zero divisor gives all ones, and the dividend as the remainder. -/
def r119 (i : Instr) (x : Srcs) : Option Res :=
  let a := x.a32.toInt; let b := x.b32.toInt
  let ua := x.a32.toNat; let ub := x.b32.toNat
  match i with
  | .idivI32 _ => some (i32 (if b = 0 then -1 else Int.tdiv a b))
  | .idivN32 _ => some (i32 (if ub = 0 then 2 ^ 32 - 1 else ((ua / ub : Nat) : Int)))
  | .iremI32 _ => some (i32 (if b = 0 then a else Int.tmod a b))
  | .iremN32 _ => some (i32 (if ub = 0 then (ua : Int) else ((ua % ub : Nat) : Int)))
  | _ => none

/-- Bit `k` of a BFI result: inside the field a's bit, outside it c's (R120). -/
def bfiBit (a b c : W32) (k : Nat) : Bool :=
  let pos := b.toNat % 256
  let len := if 32 ≤ pos then 0 else min (b.toNat / 256 % 256) (32 - pos)
  if pos ≤ k ∧ k < pos + len then a.getLsbD (k - pos) else c.getLsbD k

/-- A 32-bit word from its bits. -/
def ofBits (g : Nat → Bool) : W32 := BitVec.ofNat 32 ((List.range 32).foldl (fun n k => n + (if g k then 2 ^ k else 0)) 0)

/-- Byte `n` of the eight bytes c:a (R120). -/
def byteOf (a c : W32) (n : Nat) : Nat := if n < 4 then (a.toNat / 256 ^ n) % 256 else (c.toNat / 256 ^ (n - 4)) % 256

/-- The byte that a selector of BPERM gives (R120). -/
def bpermByte (a b c : W32) (i : Nat) : Nat :=
  let s := (b.toNat / 16 ^ i) % 16
  if 8 ≤ s then 0 else byteOf a c s

/-- The results of R120: shifts as multiplication and division by powers of two. -/
def r120 (i : Instr) (x : Srcs) : Option Res :=
  let a := x.a32; let b := x.b32; let c := x.c32
  let pos := b.toNat % 256
  let len := min (c.toNat % 256) 32
  let fld : Int := ((a.toNat / 2 ^ pos) % 2 ^ len : Nat)
  match i with
  | .and _ => some (.val (zext64 (ofBits (fun k => a.getLsbD k && b.getLsbD k))))
  | .or _ => some (.val (zext64 (ofBits (fun k => a.getLsbD k || b.getLsbD k))))
  | .xor _ => some (.val (zext64 (ofBits (fun k => a.getLsbD k != b.getLsbD k))))
  | .andn _ => some (.val (zext64 (ofBits (fun k => a.getLsbD k && !b.getLsbD k))))
  | .not _ => some (.val (zext64 (ofBits (fun k => !a.getLsbD k))))
  | .shl _ => some (i32 (if 32 ≤ b.toNat then 0 else (a.toNat : Int) * 2 ^ b.toNat))
  | .shr _ => some (i32 (if 32 ≤ b.toNat then 0 else (a.toNat : Int) / 2 ^ b.toNat))
  | .sar _ => some (i32 (if 32 ≤ b.toNat then (if a.toInt < 0 then -1 else 0) else a.toInt / 2 ^ b.toNat))
  | .rotl _ => some (.val (zext64 (ofBits (fun k => a.getLsbD ((k + 32 - b.toNat % 32) % 32)))))
  | .shlI64 _ => some (i64 (if 64 ≤ b.toNat then 0 else (x.a.toNat : Int) * 2 ^ b.toNat))
  | .shrI64 _ => some (i64 (if 64 ≤ b.toNat then 0 else (x.a.toNat : Int) / 2 ^ b.toNat))
  | .sarI64 _ => some (i64 (if 64 ≤ b.toNat then (if x.a.toInt < 0 then -1 else 0) else x.a.toInt / 2 ^ b.toNat))
  | .bfeN32 _ => some (i32 fld)
  | .bfeI32 _ => some (i32 (if 0 < len ∧ 2 ^ (len - 1) ≤ fld then fld - 2 ^ len else fld))
  | .bfi _ => some (.val (zext64 (ofBits (bfiBit a b c))))
  | .popc _ => some (i32 (((List.range 32).filter a.getLsbD).length : Int))
  | .clz _ => some (i32 (((List.range 32).countP (fun n => decide (a.toNat < 2 ^ (31 - n))) : Nat) : Int))
  | .brev _ => some (.val (zext64 (ofBits (fun k => a.getLsbD (31 - k)))))
  | .bperm _ => some (i32 ((bpermByte a b c 0 + 256 * bpermByte a b c 1 + 65536 * bpermByte a b c 2 +
      16777216 * bpermByte a b c 3 : Nat) : Int))
  | _ => none

/-- A float result with its flags. -/
def fl (r : FRes) : Option (Res × FFlags) := some (.val (BitVec.ofNat 64 r.bits), r.flags)

/-- R122: the lesser operand (greater, for `mx`), with -0 below +0; the other operand of a NaN, the canonical NaN of
two; a signalling operand sets `nv`. -/
def minMax (f : FFmt) (mx : Bool) (a b : Nat) : FRes :=
  let va := decodeF f a; let vb := decodeF f b
  ⟨(if va.isNan then (if vb.isNan then f.nanBits else b) else if vb.isNan then a
    else if (cmpV va vb == .lt || (cmpV va vb == .eq && va.neg)) != mx then a else b),
   if va.isSig || vb.isSig then flNv else 0#6⟩

/-- The results of FP32 and FP64 (R121-R125): one rounding of the exact result under `mod`, by the operations of chapter
02. -/
def rFloat (i : Instr) (x : Srcs) : Option (Res × FFlags) :=
  let a := x.a.toNat; let b := x.b.toNat; let c := x.c.toNat
  match i with
  | .faddF32 f => fl (fAdd .f32 (RM.ofMod f.mod) a b)
  | .faddF64 f => fl (fAdd .f64 (RM.ofMod f.mod) a b)
  | .fsubF32 f => fl (fSub .f32 (RM.ofMod f.mod) a b)
  | .fsubF64 f => fl (fSub .f64 (RM.ofMod f.mod) a b)
  | .fmulF32 f => fl (fMul .f32 (RM.ofMod f.mod) a b)
  | .fmulF64 f => fl (fMul .f64 (RM.ofMod f.mod) a b)
  | .ffmaF32 f => fl (fFma .f32 (RM.ofMod f.mod) a b c)
  | .ffmaF64 f => fl (fFma .f64 (RM.ofMod f.mod) a b c)
  | .fdivF32 f => fl (fDiv .f32 (RM.ofMod f.mod) a b)
  | .fdivF64 f => fl (fDiv .f64 (RM.ofMod f.mod) a b)
  | .fcmpF32 f => some (.pred (fCmp .f32 f.mod a b).1, (fCmp .f32 f.mod a b).2)
  | .fcmpF64 f => some (.pred (fCmp .f64 f.mod a b).1, (fCmp .f64 f.mod a b).2)
  | .frcpF32 _ => fl (fRcp .f32 a)
  | .frcpF64 _ => fl (fRcp .f64 a)
  | .frsqF32 _ => fl (fRsq .f32 a)
  | .frsqF64 _ => fl (fRsq .f64 a)
  | .fsqrtF32 _ => fl (fSqrt .f32 a)
  | .fsqrtF64 _ => fl (fSqrt .f64 a)
  | .fexp2F32 _ => fl (fExp2 a)
  | .flog2F32 _ => fl (fLog2 a)
  | .fsinpF32 _ => fl (fSinCos false a)
  | .fcospF32 _ => fl (fSinCos true a)
  | .fclassF32 _ => some (i32 (fClass .f32 a), 0#6)
  | .fclassF64 _ => some (i32 (fClass .f64 a), 0#6)
  | _ => none

/-- FMIN and FMAX (R122). -/
def r122 (i : Instr) (x : Srcs) : Option (Res × FFlags) :=
  match i with
  | .fminF32 _ => fl (minMax .f32 false x.a.toNat x.b.toNat)
  | .fminF64 _ => fl (minMax .f64 false x.a.toNat x.b.toNat)
  | .fmaxF32 _ => fl (minMax .f32 true x.a.toNat x.b.toNat)
  | .fmaxF64 _ => fl (minMax .f64 true x.a.toNat x.b.toNat)
  | _ => none

/-- Which bits of a 64-bit value are sign bits at the width in `mod` (R126). -/
def isSignBit (m : BitVec 4) (k : Nat) : Bool :=
  if m = 0#4 then k == 31 else if m = 1#4 then k == 63 else k == 15 || k == 31

/-- A 64-bit value from its bits. -/
def ofBits64 (g : Nat → Bool) : W64 := BitVec.ofNat 64 ((List.range 64).foldl (fun n k => n + (if g k then 2 ^ k else 0)) 0)

/-- The results of R126: sign bits cleared, inverted, or taken from b; the other bits move. -/
def r126 (i : Instr) (x : Srcs) : Option Res :=
  match i with
  | .fabs f => some (.val (ofBits64 (fun k => x.a.getLsbD k && !isSignBit f.mod k)))
  | .fneg f => some (.val (ofBits64 (fun k => x.a.getLsbD k != isSignBit f.mod k)))
  | .fcopysign f => some (.val (ofBits64 (fun k => if isSignBit f.mod k then x.b.getLsbD k else x.a.getLsbD k)))
  | _ => none

/-- The halves of a word. -/
def lo16 (a : W32) : Nat := a.toNat % 65536
def hi16 (a : W32) : Nat := a.toNat / 65536

/-- A packed result: each half by itself, the flags joined (R127). -/
def packed (lo hi : FRes) : Option (Res × FFlags) :=
  some (.val (BitVec.ofNat 64 (lo.bits + 65536 * hi.bits)), lo.flags ||| hi.flags)

/-- The results of the packed instructions but for the dot product (R127). -/
def r127 (i : Instr) (x : Srcs) : Option (Res × FFlags) :=
  let two (op : Nat → Nat → FRes) := packed (op (lo16 x.a32) (lo16 x.b32)) (op (hi16 x.a32) (hi16 x.b32))
  let three (op : Nat → Nat → Nat → FRes) :=
    packed (op (lo16 x.a32) (lo16 x.b32) (lo16 x.c32)) (op (hi16 x.a32) (hi16 x.b32) (hi16 x.c32))
  let mask (f : FFmt) (cc : BitVec 4) (a b : Nat) : FRes :=
    ⟨if (fCmp f cc a b).1 then 65535 else 0, (fCmp f cc a b).2⟩
  match i with
  | .hadd2F16 f => two (fAdd .f16 (RM.ofMod f.mod))
  | .hadd2Bf16 f => two (fAdd .bf16 (RM.ofMod f.mod))
  | .hmul2F16 f => two (fMul .f16 (RM.ofMod f.mod))
  | .hmul2Bf16 f => two (fMul .bf16 (RM.ofMod f.mod))
  | .hfma2F16 f => three (fFma .f16 (RM.ofMod f.mod))
  | .hfma2Bf16 f => three (fFma .bf16 (RM.ofMod f.mod))
  | .hmin2F16 _ => two (minMax .f16 false)
  | .hmin2Bf16 _ => two (minMax .bf16 false)
  | .hmax2F16 _ => two (minMax .f16 true)
  | .hmax2Bf16 _ => two (minMax .bf16 true)
  | .hcmp2F16 f => two (mask .f16 f.mod)
  | .hcmp2Bf16 f => two (mask .bf16 f.mod)
  | .hdot2F16 f => fl (fDot2 .f16 (RM.ofMod f.mod) x.a32 x.b32 x.c32)
  | .hdot2Bf16 f => fl (fDot2 .bf16 (RM.ofMod f.mod) x.a32 x.b32 x.c32)
  | _ => none

/-- A field of `w` bits of a word at bit `pos` replaced by the low bits of another (R131). -/
def putField (w pos : Nat) (a c : W32) : W32 :=
  ofBits (fun k => if pos ≤ k ∧ k < pos + w then a.getLsbD (k - pos) else c.getLsbD k)

/-- The results of the conversions and of the random numbers (R129-R132). -/
def rConvert (i : Instr) (x : Srcs) : Option (Res × FFlags) :=
  match i with
  | .cvt f => some (.val (convert (cvtDst f) (cvtSrc f) (cvtSat f) (RM.ofMod f.mod) x.a).1,
      (convert (cvtDst f) (cvtSrc f) (cvtSat f) (RM.ofMod f.mod) x.a).2)
  | .cvts f => fl (roundRs (tyFmt (cvtDst f)) (cvtSat f) (x.b32.setWidth 16) (valueOf (cvtSrc f) x.a))
  | .frndF32 f => fl (fRnd .f32 (RM.ofMod f.mod) x.a.toNat)
  | .frndF64 f => fl (fRnd .f64 (RM.ofMod f.mod) x.a.toNat)
  | .scalebF32 f => fl (fScaleb (RM.ofMod f.mod) x.a.toNat x.b32.toInt)
  | .frexpF32 _ => some (.val (BitVec.ofNat 64 (fFrexp x.a.toNat).1), (fFrexp x.a.toNat).2.2)
  | .frexpExpF32 _ => some (i32 (fFrexp x.a.toNat).2.1, (fFrexp x.a.toNat).2.2)
  | .pack2 _ => some (i32 ((lo16 x.a32 : Int) + 65536 * (lo16 x.b32 : Int)), 0#6)
  | .unpk2 f =>
    let h : Nat := if f.mod.getLsbD 0 then hi16 x.a32 else lo16 x.a32
    some (i32 (if f.mod.getLsbD 1 ∧ 32768 ≤ h then (h : Int) - 65536 else h), 0#6)
  | .packq f => some (.val (zext64 (if f.mod = 0#4 then putField 8 (8 * (x.b32.toNat % 4)) x.a32 x.c32
      else putField 4 (4 * (x.b32.toNat % 8)) x.a32 x.c32)), 0#6)
  | .rndc _ => some (.val (zext64 (lo32 (rndc x.a x.b32 x.c32))), 0#6)
  | .rndcW _ => some (.val (rndc x.a x.b32 x.c32), 0#6)
  | _ => none

/-- PSET's functions (R133). -/
def psetSpec (m : BitVec 4) (a b : Bool) : Bool :=
  match m.toNat with
  | 0 => a && b | 1 => a || b | 2 => a != b | 3 => a && !b | 4 => a | 5 => !a | 6 => false | _ => true

/-- The results of the moves (R133) that deliver to d; predicates are read before the slot. -/
def r133 (i : Instr) (th : Thread) (x : Srcs) : Option Res :=
  let p (o : Operand) : Bool := th.preds.getLsbD (opBits o).toNat
  match i with
  | .mov _ => some (.val x.a)
  | .movs _ => some (i64 x.a32.toInt)
  | .sel f => some (.val (if p f.c then x.a else x.b))
  | .pset f => some (.pred (psetSpec f.mod (p f.a) (p f.b)))
  | .pmovGet _ => some (i32 (th.preds.toNat : Int))
  | _ => none

/-- The slot traps `illegal-encoding` at itself, and nothing else happens, whatever its guard (R64). -/
def IllegalHere (i : Instr) : Prop :=
  ∀ (s : State) (e : Env), envOf s = some e →
    exec i s = .next (takeTrap s e.cur.gid e.cur.t .illegalEncoding e.cur.pc e.th.rep 0#64 0#32 e.cur.inst)

end Sys2Proof.Spec

/-! ## Thread-local instructions -/

/-- R64: a slot whose fields break a rule of its entry traps `illegal-encoding` whatever its guard. For IADD, whose d, a
and b are used and whose c is not: a level index that R61 reserves, a special index from 16 to 31, an odd index of a
pair, a latch or a special register other than `zero` as d, a mark for an operand that is not at main level, anything in
c, `ahd` or `mod`, and a predicate number or its negation without a guard. -/
def Obligations.IllegalEncodings : Prop :=
  (∀ (i : Instr) (f : Fields) (en : Enc), fieldsOf i = some f → encOf i = some en → encOk en f = false →
    Spec.IllegalHere i) ∧
  (∀ (i : Instr) (f : Fields), (i = .iaddI32 f ∨ i = .iaddI64 f) →
    ((∃ k : BitVec 7, (f.d = .opf k ∨ f.a = .opf k ∨ f.b = .opf k) ∧ 16 ≤ k.toNat) ∨
     (∃ k : BitVec 7, (f.a = .latch k ∨ f.b = .latch k) ∧ 2 ≤ k.toNat) ∨
     (∃ k : BitVec 7, (f.a = .special k ∨ f.b = .special k) ∧ 16 ≤ k.toNat ∧ k.toNat ≤ 31) ∨
     (∃ k : BitVec 7, i = .iaddI64 f ∧ k.toNat % 2 = 1 ∧
       (f.d = .main k ∨ f.a = .main k ∨ f.b = .main k ∨ f.d = .opf k ∨ f.a = .opf k ∨ f.b = .opf k)) ∨
     (∃ k : BitVec 7, f.d = .latch k ∨ f.d = .special k ∧ k ≠ 3#7) ∨
     f.lr.getLsbD 0 = true ∧ (∀ k, f.a ≠ .main k) ∨ f.lr.getLsbD 1 = true ∧ (∀ k, f.b ≠ .main k) ∨
     f.lr.getLsbD 2 = true ∨ f.c ≠ .main 0#7 ∨ f.ahd ≠ 0#4 ∨ f.mod ≠ 0#4 ∨
     f.pe = false ∧ (f.pi ≠ 0#3 ∨ f.pn = true)) →
    Spec.IllegalHere i)

/-- R118: when a slot of an integer instruction issues, the machine goes on with the result delivered, no flag raised,
and nothing else of the machine changed; ICMP with a condition of 6 to 15 traps `illegal-encoding`. -/
def Obligations.IntegerResults : Prop :=
  (∀ (i : Instr) (f : Fields), (i = .icmpI32 f ∨ i = .icmpN32 f ∨ i = .icmpI64 f ∨ i = .icmpN64 f) → 6 ≤ f.mod.toNat →
    Spec.IllegalHere i) ∧
  ∀ (i : Instr) (f : Fields) (s : State) (e : Env) (en : Enc) (x : Srcs) (th : Thread) (r : Res),
    fieldsOf i = some f → Issues i f s e en x th → Spec.r118 i x = some r →
    exec i s = .next (s.setThread e.cur.gid e.cur.t (th.afterAlu e.cur en f r 0#6))

/-- R119: the divisions deliver their result late, as an outstanding result. -/
def Obligations.DivisionResults : Prop :=
  ∀ (i : Instr) (f : Fields) (s : State) (e : Env) (en : Enc) (x : Srcs) (th : Thread) (r : Res),
    fieldsOf i = some f → Issues i f s e en x th → Spec.r119 i x = some r →
    en.long = true ∧ exec i s = .next (s.setThread e.cur.gid e.cur.t (th.afterAlu e.cur en f r 0#6))

/-- R120, R403: the logic and bit instructions. A slot that its region sends through the alternative expansion of
erratum 6:3 gives 31 for CLZ of zero, which R403 says; that it otherwise gives what CLZ gives, with every other effect
of its entry, is the model's choice (log 60). -/
def Obligations.LogicResults : Prop :=
  (∀ (i : Instr) (f : Fields) (s : State) (e : Env) (en : Enc) (x : Srcs) (th : Thread) (r : Res),
    fieldsOf i = some f → Issues i f s e en x th → Spec.r120 i x = some r →
    exec i s = .next (s.setThread e.cur.gid e.cur.t (th.afterAlu e.cur en f r 0#6))) ∧
  (∀ (f : Fields) (s : State) (e : Env) (en : Enc) (x : Srcs) (th : Thread) (r : Res), envOf s = some e →
    encOf (.clz f) = some en → encOk en f = true → guardOf f e.th.countWindow = true →
    readSrcs e en f e.th.countWindow = .ok (x, th) →
    reserveD f.d (dstLen en.d) (th.release (marked en f)) = .ok ((), th.release (marked en f)) →
    e.cur.alt = some 0x00060003#32 → e.cur.word.extractLsb' 0 12 = 0x219#12 → Spec.r120 (.clz f) x = some r →
    exec (.clz f) s = .next (s.setThread e.cur.gid e.cur.t
      (th.afterAlu e.cur en f (if x.a32 = 0#32 then .val 31#64 else r) 0#6)))

/-- R121, R123-R125: the floating-point instructions, where their flags do not trap (R51). -/
def Obligations.FloatResults : Prop :=
  ∀ (i : Instr) (f : Fields) (s : State) (e : Env) (en : Enc) (x : Srcs) (th : Thread) (r : Res) (fl : FFlags),
    fieldsOf i = some f → Issues i f s e en x th → Spec.rFloat i x = some (r, fl) → fpTraps th fl = false →
    exec i s = .next (s.setThread e.cur.gid e.cur.t (th.afterAlu e.cur en f r fl))

/-- R122: FMIN and FMAX; `mod` must be 0. -/
def Sys2Proof.Spec.MinMaxResults : Prop :=
  (∀ (i : Instr) (f : Fields), (i = .fminF32 f ∨ i = .fminF64 f ∨ i = .fmaxF32 f ∨ i = .fmaxF64 f) → f.mod ≠ 0#4 →
    Spec.IllegalHere i) ∧
  ∀ (i : Instr) (f : Fields) (s : State) (e : Env) (en : Enc) (x : Srcs) (th : Thread) (r : Res) (fl : FFlags),
    fieldsOf i = some f → Issues i f s e en x th → Spec.r122 i x = some (r, fl) → fpTraps th fl = false →
    exec i s = .next (s.setThread e.cur.gid e.cur.t (th.afterAlu e.cur en f r fl))

/-- R126: FABS, FNEG and FCOPYSIGN move bits and set no flag; a width of 3 to 15 traps `illegal-encoding`. -/
def Sys2Proof.Spec.SignResults : Prop :=
  (∀ (i : Instr) (f : Fields), (i = .fabs f ∨ i = .fneg f ∨ i = .fcopysign f) → 3 ≤ f.mod.toNat → Spec.IllegalHere i) ∧
  ∀ (i : Instr) (f : Fields) (s : State) (e : Env) (en : Enc) (x : Srcs) (th : Thread) (r : Res),
    fieldsOf i = some f → Issues i f s e en x th → Spec.r126 i x = some r →
    exec i s = .next (s.setThread e.cur.gid e.cur.t (th.afterAlu e.cur en f r 0#6))

/-- R127, R42: the packed instructions. -/
def Sys2Proof.Spec.PackedResults : Prop :=
  ∀ (i : Instr) (f : Fields) (s : State) (e : Env) (en : Enc) (x : Srcs) (th : Thread) (r : Res) (fl : FFlags),
    fieldsOf i = some f → Issues i f s e en x th → Spec.r127 i x = some (r, fl) → fpTraps th fl = false →
    exec i s = .next (s.setThread e.cur.gid e.cur.t (th.afterAlu e.cur en f r fl))

/-- R129-R132: the conversions and the random numbers. -/
def Sys2Proof.Spec.ConvertResults : Prop :=
  ∀ (i : Instr) (f : Fields) (s : State) (e : Env) (en : Enc) (x : Srcs) (th : Thread) (r : Res) (fl : FFlags),
    fieldsOf i = some f → Issues i f s e en x th → Spec.rConvert i x = some (r, fl) → fpTraps th fl = false →
    exec i s = .next (s.setThread e.cur.gid e.cur.t (th.afterAlu e.cur en f r fl))

/-- R133: the moves deliver to d or to a predicate, and PMOV.put sets the eight predicates from the low bits of a. -/
def Obligations.MoveResults : Prop :=
  (∀ (i : Instr) (f : Fields) (s : State) (e : Env) (en : Enc) (x : Srcs) (th : Thread) (r : Res),
    fieldsOf i = some f → Issues i f s e en x th → Spec.r133 i th x = some r →
    exec i s = .next (s.setThread e.cur.gid e.cur.t (th.afterAlu e.cur en f r 0#6))) ∧
  (∀ (f : Fields) (s : State) (e : Env) (en : Enc) (x : Srcs) (th : Thread),
    Issues (.pmovPut f) f s e en x th →
    exec (.pmovPut f) s = .next (s.setThread e.cur.gid e.cur.t
      (({ (th.release (marked en f)).flushFor (fun p => p.preds != []) with preds := x.a32.setWidth 8 } : Thread).advance
        e.cur)))

/-! ## Control -/

namespace Sys2Proof.Spec

/-- Where a control transfer of R110 goes, and the return address it writes: displacements count 8-byte units from the
header of the clause, addresses wrap at 2^56; none where the entry traps. -/
def transfer (i : Instr) (e : Env) (th : Thread) (x : Srcs) : Option (W64 × Option W64) :=
  let head : Int := e.cur.head.toNat
  let rel (a : W64) : W64 := BitVec.ofInt 64 ((head + 8 * (lo32 a).toInt) % 2 ^ 56)
  let next : W64 := BitVec.ofInt 64 ((head + 8 * (e.cur.cnt + 2)) % 2 ^ 56)
  match i with
  | .bra _ => some (rel x.a, none)
  | .brp f => some (rel (if th.preds.getLsbD (opBits f.c).toNat then x.a else x.b), none)
  | .brx _ => if x.a.toNat < 2 ^ 56 ∧ x.a.toNat % 8 = 0 then some (x.a, none) else none
  | .call _ => some (rel x.a, some next)
  | .callx _ => if x.a.toNat < 2 ^ 56 ∧ x.a.toNat % 8 = 0 then some (x.a, some next) else none
  | .ret _ => if x.a.toNat < 2 ^ 60 ∧ x.a.toNat % 8 = 0 then some (x.a, none) else none
  | .yield _ => some (next, none)
  | _ => none

end Sys2Proof.Spec

/-- R110, R117: a transfer that issues writes its return address, frees its marked sources and goes to its target, where
it enters a clause afresh; NOP goes to the next slot. -/
def Sys2Proof.Spec.TransferTargets : Prop :=
  (∀ (i : Instr) (f : Fields) (s : State) (e : Env) (en : Enc) (x : Srcs) (th : Thread) (pc : W64) (ret : Option W64),
    fieldsOf i = some f → Issues i f s e en x th → e.cur.head.toNat < 2 ^ 56 → e.cur.head.toNat % 8 = 0 →
    Spec.transfer i e th x = some (pc, ret) →
    exec i s = .next (s.setThread e.cur.gid e.cur.t
      (((th.release (marked en f)).deliver en f (match ret with | some r => .val r | none => .none)).jump pc))) ∧
  (∀ (f : Fields) (s : State) (e : Env) (en : Enc) (x : Srcs) (th : Thread), Issues (.nop f) f s e en x th →
    exec (.nop f) s = .next (s.setThread e.cur.gid e.cur.t (th.afterAlu e.cur en f .none 0#6)))

/-- R110: a target that is no clause header (BRX, CALLX), or no program counter (RET), traps `illegal-operand` at the
slot. -/
def Sys2Proof.Spec.BadTargetsTrap : Prop :=
  ∀ (i : Instr) (f : Fields) (s : State) (e : Env) (en : Enc) (x : Srcs) (th : Thread),
    ((i = .brx f ∨ i = .callx f) ∧ ¬ (x.a.toNat < 2 ^ 56 ∧ x.a.toNat % 8 = 0) ∨
      i = .ret f ∧ ¬ (x.a.toNat < 2 ^ 60 ∧ x.a.toNat % 8 = 0)) →
    Issues i f s e en x th →
    exec i s = .next (takeTrap s e.cur.gid e.cur.t .illegalOperand e.cur.pc e.th.rep 0#64 0#32 e.cur.inst)

namespace Sys2Proof.Spec

/-- The instructions that wait for other threads or for a condition, or act on convergence: their entries say how a
thread whose guard is false counts (R68, R112, R113, R134, R165, R194, R236). -/
def waitsOrJoins (i : Instr) : Bool :=
  match i with
  | .convJ _ => true | .joinJ _ => true | .elect _ => true | .perm _ => true | .permx _ => true | .permu _ => true
  | .permd _ => true | .bcast _ => true | .vote _ => true | .ballot _ => true | .matchL _ => true | .sgred _ => true
  | .sgscan _ => true | .bar _ => true | .barw _ => true | .xbar _ => true | .lbar _ => true | .cbwait _ => true
  | .tlwait _ => true | .waita _ => true | .mldw _ => true | .mmaa _ => true | .mcommit _ => true | .mwait _ => true
  | .mscale _ => true | .mscaleClr _ => true | .qclm _ => true | _ => false

/-- Whether an LDT delivers an FP64 element to an odd index, which R149 and R64 forbid whatever the guard. -/
def oddPair (e : Env) (f : Fields) : Bool :=
  e.g.slot (unitIx f.a) != 0#512 && trFmt (e.g.slot (unitIx f.a)) == 0 &&
    (match f.d with | .main k => k.toNat % 2 == 1 | .opf k => k.toNat % 2 == 1 | _ => false)

end Sys2Proof.Spec

/-- R68: a thread whose guard is false pops and frees what its slot names, reads and writes nothing else, and goes on:
every instruction that acts on its own thread or on memory, transfers and the threads' system instructions included. It
takes no fault, not even where it frees a register in flight (log 82). -/
def Obligations.GuardedOff : Prop :=
  ∀ (i : Instr) (f : Fields) (s : State) (e : Env) (en : Enc) (th : Thread),
    fieldsOf i = some f → Spec.waitsOrJoins i = false → (i = .ldt f → Spec.oddPair e f = false) →
    AtSlot i f s e en → guardOf f e.th.countWindow = false →
    popMany e (popCount en f true) e.th.countWindow = .ok ((), th) →
    exec i s = .next (s.setThread e.cur.gid e.cur.t ((th.release (marked en f)).advance e.cur))

/-- R116, R199, R214: EXIT ends the thread: it holds no quota and no register, but for its accumulators in flight while
a matrix step that names it has not applied, no limit accumulator and no frame, it is a member of no instance, and no
other thread changes. -/
def Obligations.ExitEndsThread : Prop :=
  ∀ (f : Fields) (s : State) (e : Env) (en : Enc), AtSlot (.exit f) f s e en → guardOf f e.th.countWindow = true →
    ∃ t g th, exec (.exit f) s = .next t ∧ SameOutside s t ∧ t.group e.cur.gid = some g ∧
      mget g.threads e.cur.t = some th ∧ th.live = false ∧ th.las = [] ∧ th.frames = [] ∧ th.quota = 0 ∧
      (stepsLeft s e.cur.gid e.cur.t = false → th.regs = []) ∧
      (stepsLeft s e.cur.gid e.cur.t = true → th.regs = e.th.flush.regs.filter (fun p => (mget e.th.marks p.1).isSome)) ∧
      th.regions = [] ∧ th.wait = .none ∧
      (∀ n r, (n, r) ∈ g.regions → e.cur.t ∉ r.members) ∧ g.spad = e.g.spad ∧ g.bars = e.g.bars ∧ g.pendW = e.g.pendW ∧
      (∀ n, n ≠ e.cur.t → mget g.threads n = mget e.g.threads n) ∧
      (∀ gid, gid ≠ e.cur.gid → t.group gid = s.group gid)

/-- R112: CONV enters the top instance of its join identifier that the thread has not entered; otherwise it makes a new
one whose members are the thread's class, pushed onto every member's stack and entered by the thread. -/
def Sys2Proof.Spec.ConvEntersOrCreates : Prop :=
  ∀ (f : Fields) (s : State) (e : Env) (en : Enc), AtSlot (.convJ f) f s e en → e.th.parked = none →
    msorted e.g.threads = true →
    (∀ n r rs, e.th.regions = n :: rs → mget e.g.regions n = some r → r.jid = jidOf f → e.cur.t ∉ r.entered →
      ∃ t g, exec (.convJ f) s = .next t ∧ SameOutside s t ∧ t.group e.cur.gid = some g ∧
        mget g.regions n = some { r with entered := r.entered ++ [e.cur.t] } ∧
        (mget g.threads e.cur.t).map (·.pc) = some e.cur.next ∧
        (∀ m, m ≠ n → mget g.regions m = mget e.g.regions m)) ∧
    ((∀ n rs, e.th.regions = n :: rs →
        ∀ r, mget e.g.regions n = some r → r.jid = jidOf f → e.cur.t ∈ r.entered) →
      (∀ n th, n ∈ e.g.classOf e.th → mget e.g.threads n = some th → th.regions.length < 16) →
      ∃ t g, exec (.convJ f) s = .next t ∧ t.nextInst = s.nextInst + 1 ∧ t.group e.cur.gid = some g ∧
        mget g.regions s.nextInst = some ⟨jidOf f, e.th.sg, e.g.classOf e.th, [e.cur.t], []⟩ ∧
        (mget g.threads e.cur.t).map (·.pc) = some e.cur.next ∧
        (∀ n th, n ≠ e.cur.t → n ∈ e.g.classOf e.th → mget e.g.threads n = some th →
          ∃ th', mget g.threads n = some th' ∧ th'.regions.head? = some s.nextInst ∧ th.regions <:+ th'.regions) ∧
        (∀ n, n ∉ e.g.classOf e.th → n ≠ e.cur.t → mget g.threads n = mget e.g.threads n))

/-- R113: JOIN without an instance completes at once with no effect; with one, the thread arrives at it and waits,
outside its issue group; once every member of the thread's top instance has arrived, the instance is gone and the thread
goes on past the slot. -/
def Sys2Proof.Spec.JoinArrivesOrPasses : Prop :=
  ∀ (f : Fields) (s : State) (e : Env) (en : Enc), AtSlot (.joinJ f) f s e en →
    (e.g.innermost e.th (jidOf f) = none →
      exec (.joinJ f) s = .next (s.setThread e.cur.gid e.cur.t ((e.th.countWindow.advance e.cur).outside))) ∧
    (∀ n r, e.g.innermost e.th (jidOf f) = some n → mget e.g.regions n = some r → e.cur.t ∈ r.members →
      ∃ t g th, exec (.joinJ f) s = .next t ∧ SameOutside s t ∧ t.group e.cur.gid = some g ∧
        mget g.threads e.cur.t = some th ∧ th.wait = .join n false ∧ th.resume = e.cur.next ∧ th.inside = false ∧
        mget g.regions n = some { r with arrived := r.arrived ++ [e.cur.t] } ∧
        (∀ rs, e.th.regions = n :: rs → msorted e.g.regions = true → settleJoin s e.cur.gid e.g = none →
          (∀ m, m ∈ r.members → m ∈ r.arrived ∨ m = e.cur.t) →
          ∃ u v g', settleJoin t e.cur.gid g = some u ∧ u.group e.cur.gid = some g' ∧ mget g'.regions n = none ∧
            mget g'.threads e.cur.t = some v ∧ v.wait = .none ∧ v.pc = e.cur.next ∧ v.rep = e.cur.nextRep))

/-- R71: REP sends its thread to the next word of the clause with repetition 0 of rc + 1, where the word's fields may be
stepped so (of pairs and of words that vector, by logs 108 and 80). -/
def Obligations.RepStartsRepetition : Prop :=
  ∀ (r : RepFields) (s s1 : State) (e : Env) (w : W64), envOf s = some e →
    fetchWord s e.g.coreN e.g.cid (e.cur.head + BitVec.ofNat 64 (16 + 8 * pcSlot e.cur.pc)) = .ok (w, s1) →
    s1.thread e.cur.gid e.cur.t = some e.th →
    repTargetOk e.g r w (decodeVia (s1.bankOn (e.g.coreN / 64) e.g.cid) w) = true →
    exec (.rep r) s = .next (s1.setThread e.cur.gid e.cur.t { e.th with
      pc := pcOf e.cur.head e.cur.cnt (pcSlot e.cur.pc + 1)
      rep := some ⟨0, r.rc.toNat, r.sd, r.sa, r.sb, r.sc⟩ })

/-! ## Cross-lane instructions -/

namespace Sys2Proof.Spec

/-- What the members of Peers() brought to the collective `i` at which the threads `ts` of a group wait: those whose
guard is true, by their positions in a set of `z` (R134, R408). -/
def peers (g : Group) (z : Nat) (ts : List Nat) : List Arr :=
  ts.filterMap (fun n => match mget g.threads n with
    | some w => (match w.wait with
      | .coll _ a b c gd => if gd then some ⟨n, w.sgt % z, a, b, c⟩ else none
      | _ => none)
    | none => none)

end Sys2Proof.Spec

/-- R134: a collective instruction's thread arrives with the operands it read and waits, outside its issue group. Once
every member of its class stands there, the instance completes: each member of Peers() gets what `laneRes` gives for it,
with its marked sources freed and its flags raised, past the slot; a member whose guard is false goes on past the slot;
no other thread changes. -/
def Sys2Proof.Spec.CrossLaneCompletes : Prop :=
  ∀ (i : Instr) (f : Fields) (s : State) (e : Env) (en : Enc) (x : Srcs) (pops : Nat),
    (i = .elect f ∨ i = .perm f ∨ i = .permx f ∨ i = .permu f ∨ i = .permd f ∨ i = .bcast f ∨ i = .vote f ∨
      i = .ballot f ∨ i = .matchL f ∨ i = .sgred f ∨ i = .sgscan f) →
    Arrives i f s e en x pops → e.th.live = true → msorted e.g.threads = true → settleColl s e.cur.gid e.g = none →
    let a := if aIsPred i then (if e.th.preds.getLsbD (opBits f.a).toNat then 1#64 else 0#64) else x.a
    let th := e.th.countWindow.waiting e.cur (.coll i a x.b x.c true) (marked en f) pops
    let t := s.setThread e.cur.gid e.cur.t th
    exec i s = .next t ∧
    (∀ g, t.group e.cur.gid = some g →
      let cls := collMates t g th
      let ps := Spec.peers g (t.setSize g th.pc) cls
      (∀ n v, n ∈ cls → mget g.threads n = some v → v.pc = th.pc ∧ v.repNo = th.repNo ∧ ∃ a b c gd, v.wait = .coll i a b c gd) →
      (∀ p v, p ∈ ps → mget g.threads p.t = some v → ∃ w,
        putRes en f (laneRes i p ps).1 (v.wake (readyNow t g)) = .ok ((), w) ∧
        fpTraps (w.outside.raiseFlags (laneRes i p ps).2) (laneRes i p ps).2 = false) →
      ∃ u h, settleColl t e.cur.gid g = some u ∧ u.group e.cur.gid = some h ∧ u.mem = t.mem ∧
        (∀ p v w, p ∈ ps → mget g.threads p.t = some v →
          putRes en f (laneRes i p ps).1 (v.wake (readyNow t g)) = .ok ((), w) →
          mget h.threads p.t = some (w.outside.raiseFlags (laneRes i p ps).2)) ∧
        (∀ n v, n ∈ cls → (∀ p, p ∈ ps → p.t ≠ n) → mget g.threads n = some v →
          mget h.threads n = some (v.wake (readyNow t g))) ∧
        (∀ n, n ∉ cls → mget h.threads n = mget g.threads n))

namespace Sys2Proof.Spec

/-- R43, R137: the identity of operation `op` on type `ty`. -/
def redId (ty op : Nat) : W64 :=
  match ty with
  | 2 => (match op with | 0 => 0x80000000#64 | 1 => 0x7F800000#64 | 2 => 0xFF800000#64 | _ => 0x3F800000#64)
  | 3 => (match op with
    | 0 => 0x8000000000000000#64 | 1 => 0x7FF0000000000000#64 | 2 => 0xFFF0000000000000#64 | _ => 0x3FF0000000000000#64)
  | 0 => (match op with | 1 => 0x7FFFFFFF#64 | 2 => 0x80000000#64 | 3 => 1#64 | 4 => 0xFFFFFFFF#64 | _ => 0#64)
  | 1 => (match op with | 1 => 0xFFFFFFFF#64 | 3 => 1#64 | 4 => 0xFFFFFFFF#64 | _ => 0#64)
  | 4 => (match op with
    | 1 => 0x7FFFFFFFFFFFFFFF#64 | 2 => 0x8000000000000000#64 | 3 => 1#64 | 4 => 0xFFFFFFFFFFFFFFFF#64 | _ => 0#64)
  | _ => (match op with | 1 => 0xFFFFFFFFFFFFFFFF#64 | 3 => 1#64 | 4 => 0xFFFFFFFFFFFFFFFF#64 | _ => 0#64)

/-- R137: one combination of integers of a width, signed or not. -/
def redOneInt (w : Nat) (signed : Bool) (op : Nat) (x y : W64) : W64 :=
  let a : BitVec w := x.setWidth w
  let b : BitVec w := y.setWidth w
  let le (p q : BitVec w) : Bool := if signed then p.sle q else p.ule q
  (match op with
   | 0 => a + b
   | 1 => if le a b then a else b
   | 2 => if le a b then b else a
   | 3 => a * b
   | 4 => a &&& b
   | 5 => a ||| b
   | _ => a ^^^ b).setWidth 64

/-- R43, R137: one combination, with its flags; float operations round with rn, their minima and maxima follow R122. -/
def redOne (ty op : Nat) (x y : W64) : W64 × FFlags :=
  let flt (f : FFmt) : W64 × FFlags :=
    let r : FRes := match op with
      | 0 => fAdd f .rn x.toNat y.toNat
      | 1 => minMax f false x.toNat y.toNat
      | 2 => minMax f true x.toNat y.toNat
      | _ => fMul f .rn x.toNat y.toNat
    (BitVec.ofNat 64 r.bits, r.flags)
  match ty with
  | 0 => (redOneInt 32 true op x y, 0#6)
  | 1 => (redOneInt 32 false op x y, 0#6)
  | 2 => flt .f32
  | 3 => flt .f64
  | 4 => (redOneInt 64 true op x y, 0#6)
  | _ => (redOneInt 64 false op x y, 0#6)

/-- R43: node `n` of level `lv` of the tree over 64 positions, with the flags raised below it. -/
def redNode (ty op : Nat) (ps : List Arr) : Nat → Nat → W64 × FFlags
  | 0, n => (((ps.find? (fun p => p.pos == n)).map (·.a)).getD (redId ty op), 0#6)
  | lv + 1, n =>
    let l := redNode ty op ps lv (2 * n)
    let r := redNode ty op ps lv (2 * n + 1)
    let c := redOne ty op l.1 r.1
    (c.1, l.2 ||| r.2 ||| c.2)

/-- R44: the fold over the tree's aligned blocks that cover the first `n` positions, largest first: the blocks below 2^k
from position `start` up, behind what `acc` holds. -/
def scanFrom (ty op : Nat) (ps : List Arr) (n : Nat) : Nat → Nat → W64 × FFlags → W64 × FFlags
  | 0, _, acc => acc
  | k + 1, start, acc =>
    if n / 2 ^ k % 2 = 1 then
      let c := redOne ty op acc.1 (redNode ty op ps k (start / 2 ^ k)).1
      scanFrom ty op ps n k (start + 2 ^ k) (c.1, acc.2 ||| c.2)
    else scanFrom ty op ps n k start acc

/-- R44: the result for a position: over the positions up to it, or below it for `ex`. -/
def scanOf (ty op : Nat) (ex : Bool) (ps : List Arr) (pos : Nat) : W64 × FFlags :=
  scanFrom ty op ps (if ex then pos else pos + 1) 7 0 (redId ty op, 0#6)

end Sys2Proof.Spec

/-- R135, R136, R137, R115, R43, R44: what the members of Peers() receive. A permutation reads the a of the member at
the position it names, and its own c where there is none; BCAST reads the a of the lowest position; VOTE, BALLOT and
MATCH look at all members; ELECT picks the lowest position; SGRED combines all 64 positions along the fixed tree, and
SGSCAN the tree's blocks up to its own position, with the flags of every combination. Positions are distinct and below
64. -/
def Sys2Proof.Spec.CrossLaneValues : Prop :=
  ∀ (f : Fields) (ps : List Arr) (me : Arr), me ∈ ps → (∀ p q, p ∈ ps → q ∈ ps → p.pos = q.pos → p = q) →
    (∀ p, p ∈ ps → p.pos < 64) →
    (∀ (i : Instr) (j : Int),
      (i = .perm f ∧ j = (lo32 me.b).toInt ∨ i = .permx f ∧ j = (BitVec.ofNat 32 me.pos ^^^ lo32 me.b).toInt ∨
        i = .permu f ∧ j = me.pos - (lo32 me.b).toInt ∨ i = .permd f ∧ j = me.pos + (lo32 me.b).toInt) →
      (∀ p, p ∈ ps → (p.pos : Int) = j → laneRes i me ps = (.val p.a, 0#6)) ∧
      ((∀ p, p ∈ ps → (p.pos : Int) ≠ j) → laneRes i me ps = (.val me.c, 0#6))) ∧
    (∀ p, p ∈ ps → (∀ q, q ∈ ps → p.pos ≤ q.pos) → laneRes (.bcast f) me ps = (.val p.a, 0#6)) ∧
    (laneRes (.elect f) me ps = (.pred (decide (∀ q, q ∈ ps → me.pos ≤ q.pos)), 0#6)) ∧
    (f.mod = 0#4 → laneRes (.vote f) me ps = (.pred (decide (∀ p, p ∈ ps → p.a ≠ 0#64)), 0#6)) ∧
    (f.mod = 1#4 → laneRes (.vote f) me ps = (.pred (decide (∃ p, p ∈ ps ∧ p.a ≠ 0#64)), 0#6)) ∧
    (f.mod = 2#4 → laneRes (.vote f) me ps =
      (.pred (decide ((∀ p, p ∈ ps → p.a ≠ 0#64) ∨ ∀ p, p ∈ ps → p.a = 0#64)), 0#6)) ∧
    (f.mod = 3#4 → laneRes (.vote f) me ps =
      (.pred (decide ((ps.filter (fun p => p.a != 0#64)).length % 2 = 1)), 0#6)) ∧
    (∀ k, k < 32 → ∃ v, laneRes (.ballot f) me ps = (.val (zext64 v), 0#6) ∧
      v.getLsbD k = decide (∃ p, p ∈ ps ∧ p.a ≠ 0#64 ∧ p.pos = k + (if f.mod = 1#4 then 32 else 0))) ∧
    (∀ k, k < 32 → ∃ v, laneRes (.matchL f) me ps = (.val (zext64 v), 0#6) ∧
      v.getLsbD k = decide (∃ p, p ∈ ps ∧ p.a = me.a ∧ p.pos = k + (if f.mod = 1#4 then 32 else 0))) ∧
    (∀ (ty op : Nat) (ex : Bool), (opBits f.c).toNat = op + 16 * ty + 256 * ex.toNat → ty < 6 → op < 7 →
      (ty = 2 ∨ ty = 3 → op < 4) →
      (ex = false → laneRes (.sgred f) me ps = (.val (Spec.redNode ty op ps 6 0).1, (Spec.redNode ty op ps 6 0).2)) ∧
      laneRes (.sgscan f) me ps = (.val (Spec.scanOf ty op ex ps me.pos).1,
        ps.foldl (fun fl p => fl ||| (Spec.scanOf ty op ex ps p.pos).2) (Spec.redNode ty op ps 6 0).2))

/-! ## Global memory -/

namespace Sys2Proof.Spec

/-- The bytes of a little-endian number, and of words in order (R4). -/
def bytesOf (n v : Nat) : List Byte := (List.range n).map (fun k => BitVec.ofNat 8 (v / 256 ^ k))
def numOf (bs : List Byte) : Nat := (bs.zipIdx.map (fun e => e.1.toNat * 256 ^ e.2)).sum
def bytesOfWords (ws : List W32) : List Byte := ws.flatMap (fun w => bytesOf 4 w.toNat)
def wordsOfBytes (bs : List Byte) (n : Nat) : List W32 :=
  (List.range n).map (fun k => BitVec.ofNat 32 (numOf bs / 2 ^ (32 * k)))

/-- The bytes of an access by the size code in `mod` (R144). -/
def sizeOf (f : Fields) : Nat :=
  match f.mod.toNat % 8 with
  | 0 => 1 | 1 => 1 | 2 => 2 | 3 => 2 | 4 => 4 | 5 => 8 | _ => 16

/-- What a load of a size code writes (R144): signed codes extend the sign. -/
def loaded (f : Fields) (bs : List Byte) : List W32 :=
  match f.mod.toNat % 8 with
  | 1 => [BitVec.ofInt 32 (BitVec.ofNat 8 (numOf bs)).toInt]
  | 3 => [BitVec.ofInt 32 (BitVec.ofNat 16 (numOf bs)).toInt]
  | 5 => wordsOfBytes bs 2
  | 6 => wordsOfBytes bs 4
  | _ => wordsOfBytes bs 1

/-- What a store of a size code writes (R144). -/
def stored (f : Fields) (x : Srcs) : List Byte :=
  if f.mod.toNat % 8 = 6 then bytesOfWords x.run else bytesOf (sizeOf f) x.c.toNat

/-- A plain load: its length in bytes, the alignment it asks for, and what it writes. -/
def load (i : Instr) (bs : List Byte) : Option (Nat × Nat × List W32) :=
  match i with
  | .ld f => some (sizeOf f, sizeOf f, loaded f bs)
  | .ldv f => some (4 * (f.mod.toNat + 1), 4, wordsOfBytes bs (f.mod.toNat + 1))
  | .ldna f => some (sizeOf f, 1, loaded f bs)
  | _ => none

/-- A plain store: its alignment, its single-copy atomic unit, and the bytes it writes. -/
def store (i : Instr) (x : Srcs) : Option (Nat × Nat × List Byte) :=
  match i with
  | .st f => some (sizeOf f, sizeOf f, stored f x)
  | .stv _ => some (4, 4, bytesOfWords x.run)
  | .stna f => some (1, 1, stored f x)
  | _ => none

/-- The address of a global access (R140): pair a plus the sign-extended b. -/
def gaddr (x : Srcs) : W64 := x.a + BitVec.ofInt 64 x.b32.toInt
/-- The offset of a scratchpad access (R140). -/
def saddr (x : Srcs) : Nat := (x.a32.toNat + x.b32.toNat) % 2 ^ 32

/-- What the current thread reads at the repeatable and portable levels (R162): the snapshot of its launch's interval,
with the updates that its group has queued in their order. -/
def viewed (e : Env) (s : State) : Memory :=
  e.g.pendW.foldl (fun m r => m.setAll (r.item.effect m)) ((((s.kernel e.g.kid).getD e.k).snap).getD s.mem)

end Sys2Proof.Spec

/-- R145-R147, R162: a global load that goes through owes its destination the bytes that it reads. In the open level
these are what memory holds; memory is as translation left it, and only the thread and the race stamps change. At the
repeatable and portable levels they are those of the interval's snapshot with the updates that the thread's own group
has queued applied in their order; only the thread changes, and the launch may note where its snapshot has the page. -/
def Obligations.GlobalLoads : Prop :=
  (∀ (i : Instr) (f : Fields) (s s2 : State) (e : Env) (en : Enc) (x : Srcs) (th : Thread) (pas : List Nat)
    (n al : Nat) (ws : List W32),
    fieldsOf i = some f → Issues i f s e en x th → (Spec.gaddr x).toNat < 2 ^ 56 →
    GlobalOk e th (s.setThread e.cur.gid e.cur.t (th.release (marked en f))) 0#2 (vaRange (Spec.gaddr x) n) false none
      pas s2 →
    Spec.load i (pas.map s2.mem.get) = some (n, al, ws) → (Spec.gaddr x).toNat % al = 0 → SoundBytes e s2 pas →
    ∃ sts h, exec i s = .next (({ s2 with stamps := sts } : State).setThread e.cur.gid e.cur.t
      ((({ th.release (marked en f) with hb := h } : Thread).owe .ld f.ahd.toNat f.d ws).advance e.cur))) ∧
  (∀ (i : Instr) (f : Fields) (s s2 : State) (e : Env) (en : Enc) (x : Srcs) (th : Thread) (pas : List Nat)
    (n al : Nat) (ws : List W32),
    fieldsOf i = some f → Issues i f s e en x th → (Spec.gaddr x).toNat < 2 ^ 56 → e.s.level e.g.cid ≠ 0 →
    gXlate e e.via 0#2 (vaRange (Spec.gaddr x) n) (s.setThread e.cur.gid e.cur.t (th.release (marked en f))) =
      .ok (pas, s2) →
    Spec.load i ((s2.homes e.g.kid (vaRange (Spec.gaddr x) n) pas).1.map
      (Spec.viewed e (s2.homes e.g.kid (vaRange (Spec.gaddr x) n) pas).2).get) = some (n, al, ws) →
    (Spec.gaddr x).toNat % al = 0 → SoundBytes e s2 pas →
    ∃ h, exec i s = .next ((s2.homes e.g.kid (vaRange (Spec.gaddr x) n) pas).2.setThread e.cur.gid e.cur.t
      ((({ th.release (marked en f) with hb := h } : Thread).owe .ld f.ahd.toNat f.d ws).advance e.cur)))

/-- R145-R147: a global store (ST, STV, STNA) that goes through, in the open level, writes its bytes at the addresses
its own bytes translate to; every other byte is as translation left it, and the thread goes on. -/
def Sys2Proof.Spec.GlobalStores : Prop :=
  ∀ (i : Instr) (f : Fields) (s s2 : State) (e : Env) (en : Enc) (x : Srcs) (th : Thread) (pas : List Nat)
    (al unit : Nat) (bs : List Byte),
    fieldsOf i = some f → Issues i f s e en x th → (Spec.gaddr x).toNat < 2 ^ 56 →
    Spec.store i x = some (al, unit, bs) → (Spec.gaddr x).toNat % al = 0 →
    GlobalOk e th (s.setThread e.cur.gid e.cur.t (th.release (marked en f))) 1#2 (vaRange (Spec.gaddr x) bs.length)
      true none pas s2 →
    s2.writeBad (s2.ctx e.g.cid).keyId pas = none →
    ∃ t, exec i s = .next t ∧ StoredMem s2 t pas bs ∧
      t.groups = (s.setThread e.cur.gid e.cur.t ((th.release (marked en f)).advance e.cur)).groups ∧
      t.ctxs = s2.ctxs ∧ t.kernels = s2.kernels ∧ t.parts = s2.parts ∧ t.agenda = s2.agenda

namespace Sys2Proof.Spec

/-- The single-copy atomic units of a store, in order: the address of each, and its bytes where the launch has them. -/
def units (unit : Nat) (vas : List W64) (hs : List Nat) (bs : List Byte) : List (W64 × MItem) :=
  (List.range (bs.length / unit)).map (fun k =>
    (vas.getD (unit * k) 0#64, .write (((hs.zip bs).drop (unit * k)).take unit)))

/-- The machine after updates of the current thread have joined the queue of its group one by one, each with the merge
entries that it needs (R162, R273, R415); none where an entry is missing. -/
def queued (e : Env) : List (W64 × MItem) → State → Option State
  | [], s => some s
  | (va, item) :: l, s =>
    (s.group e.cur.gid).bind (fun g =>
      (pushRec s e.g.cid g.pendW (.of (some e.cur.t) e.cur.inst e.th.wid va none item)).bind (fun p =>
        queued e l (s.setGroup e.cur.gid { g with pendW := p })))

/-- A reduction's update of the place where the launch has its first byte (R155, R158). -/
def redItem (i : Instr) (x : Srcs) (h : Nat) : Option (Nat × MItem) :=
  match i with
  | .redI32 _ _ f => some (4, .redI (BitVec.ofNat 4 (f.mod.toNat % 8)) h x.c32)
  | .redF32 _ _ f => if f.mod.toNat % 8 = 0 then none else some (4, .redF (BitVec.ofNat 4 (f.mod.toNat % 8)) h x.c32)
  | .waddF32 _ _ => some (16, .wadd h (lo32 x.d).toInt false x.c)
  | .waddF64 _ _ => some (16, .wadd h (lo32 x.d).toInt true x.c)
  | _ => none

/-- Whether a reduction names the scratchpad (R154, R160). -/
def redSp (i : Instr) : Bool :=
  match i with
  | .redI32 _ _ f => f.mod.getLsbD 3 | .redF32 _ _ f => f.mod.getLsbD 3
  | .waddF32 _ f => f.mod.getLsbD 0 | .waddF64 _ f => f.mod.getLsbD 0 | _ => false

/-- Whether the window that WADD names is one of R48. -/
def windowFits (i : Instr) (x : Srcs) : Prop :=
  match i with
  | .waddF32 _ _ => -1152 ≤ (lo32 x.d).toInt ∧ (lo32 x.d).toInt ≤ 1024
  | .waddF64 _ _ => -1152 ≤ (lo32 x.d).toInt ∧ (lo32 x.d).toInt ≤ 1024
  | _ => True

end Sys2Proof.Spec

/-- R162, R273, R415: at the repeatable and portable levels a global store changes no memory: one update for each
single-copy atomic unit (all of an ST, each word of an STV, each byte of an STNA) joins the queue of its group, behind
those its thread made before; a reduction and a WADD join it as one update. The thread goes on. -/
def Sys2Proof.Spec.StoresWaitForMerge : Prop :=
  (∀ (i : Instr) (f : Fields) (s s2 t : State) (e : Env) (en : Enc) (x : Srcs) (th : Thread) (pas : List Nat)
    (al unit : Nat) (bs : List Byte),
    fieldsOf i = some f → Issues i f s e en x th → (Spec.gaddr x).toNat < 2 ^ 56 → e.s.level e.g.cid ≠ 0 →
    Spec.store i x = some (al, unit, bs) → (Spec.gaddr x).toNat % al = 0 →
    gXlate e e.via 1#2 (vaRange (Spec.gaddr x) bs.length)
      (s.setThread e.cur.gid e.cur.t (th.release (marked en f))) = .ok (pas, s2) →
    Spec.queued e (Spec.units unit (vaRange (Spec.gaddr x) bs.length)
      (s2.homes e.g.kid (vaRange (Spec.gaddr x) bs.length) pas).1 bs)
      (s2.homes e.g.kid (vaRange (Spec.gaddr x) bs.length) pas).2 = some t →
    exec i s = .next (t.setThread e.cur.gid e.cur.t ((th.release (marked en f)).advance e.cur)) ∧ t.mem = s2.mem) ∧
  (∀ (i : Instr) (f : Fields) (s s2 t : State) (e : Env) (en : Enc) (x : Srcs) (th : Thread) (pas : List Nat)
    (n : Nat) (item : MItem),
    fieldsOf i = some f → Issues i f s e en x th → (Spec.gaddr x).toNat < 2 ^ 56 → e.s.level e.g.cid ≠ 0 →
    Spec.redSp i = false → Spec.windowFits i x →
    gXlate e e.via 3#2 (vaRange (Spec.gaddr x) n)
      (s.setThread e.cur.gid e.cur.t (th.release (marked en f))) = .ok (pas, s2) →
    Spec.redItem i x ((s2.homes e.g.kid (vaRange (Spec.gaddr x) n) pas).1.getD 0 0) = some (n, item) →
    (Spec.gaddr x).toNat % n = 0 →
    Spec.queued e [(Spec.gaddr x, item)] (s2.homes e.g.kid (vaRange (Spec.gaddr x) n) pas).2 = some t →
    exec i s = .next (t.setThread e.cur.gid e.cur.t ((th.release (marked en f)).advance e.cur)) ∧ t.mem = s2.mem)

/-- R142, R145, R146, R150: an address that is no multiple of what the access asks for traps `alignment` at the slot,
with the address, and nothing else happens. -/
def Sys2Proof.Spec.MisalignedTraps : Prop :=
  ∀ (i : Instr) (f : Fields) (s : State) (e : Env) (en : Enc) (x : Srcs) (th : Thread) (n al : Nat) (ws : List W32)
    (unit : Nat) (bs : List Byte),
    fieldsOf i = some f → Issues i f s e en x th → (Spec.gaddr x).toNat < 2 ^ 56 →
    (Spec.load i [] = some (n, al, ws) ∨ Spec.store i x = some (al, unit, bs)) → (Spec.gaddr x).toNat % al ≠ 0 →
    exec i s = .next (takeTrap s e.cur.gid e.cur.t .alignment e.cur.pc e.th.rep (Spec.gaddr x) (BitVec.ofNat 32 al)
      e.cur.inst)

/-- R374: a load whose address has no valid translation of kind absent writes a `translation` record to the context's
ring and waits, parked, for a replay; it changes no register and issues again later. -/
def Sys2Proof.Spec.AbsentPageWaits : Prop :=
  ∀ (f : Fields) (s : State) (e : Env) (en : Enc) (x : Srcs) (th : Thread) (va : W64) (info : W32),
    Issues (.ld f) f s e en x th → (Spec.gaddr x).toNat < 2 ^ 56 → (Spec.gaddr x).toNat % Spec.sizeOf f = 0 →
    xlateBytes (s.setThread e.cur.gid e.cur.t (th.release (marked en f))) (.core e.g.coreN) e.g.cid 0#2
      (vaRange (Spec.gaddr x) (Spec.sizeOf f)) = .error (.absent info, va) →
    ∃ t th', exec (.ld f) s = .next t ∧ t.thread e.cur.gid e.cur.t = some th' ∧
      th'.wait = .replay ⟨va, none, 0#2, false⟩ ∧ th'.regs = e.th.regs ∧ th'.pc = e.th.pc ∧
      th'.parked = some e.cur.inst ∧ (t.ctx e.g.cid).fqSeq = (s.ctx e.g.cid).fqSeq + 1

namespace Sys2Proof.Spec

/-- The words that an element of a tensor record comes to (R149): FP64 two, every other format one, its bits at the
bottom. -/
def element (r : Rec) (bs : List Byte) (bit : Nat) : List W32 :=
  let v := numOf bs / 2 ^ bit % 2 ^ fmtBits (trFmt r)
  if trFmt r = 0 then [BitVec.ofNat 32 v, BitVec.ofNat 32 (v / 2 ^ 32)] else [BitVec.ofNat 32 v]

end Sys2Proof.Spec

/-- R149: LDT owes its destination the element of the tensor record in its slot, which lies in global memory or in the
scratchpad. An FP64 element goes to an even pair of registers; an odd one traps `illegal-encoding`. -/
def Obligations.TensorLoad : Prop :=
  (∀ (f : Fields) (s s2 : State) (e : Env) (en : Enc) (x : Srcs) (th : Thread) (pas : List Nat) (a bit : Nat),
    Issues (.ldt f) f s e en x th →
    let r := e.g.slot (unitIx f.a)
    let n := max 1 (fmtBits (trFmt r) / 8)
    let rel := th.release (marked en f)
    r ≠ 0#512 → Spec.oddPair e f = false →
    trInside r (lo32 x.b).toNat (hi32 x.b).toNat (lo32 x.c).toNat (hi32 x.c).toNat = true →
    reserveD f.d (if trFmt r = 0 then 2 else 1) rel = .ok ((), rel) →
    trAddr r (trOffset r (lo32 x.b).toNat (hi32 x.b).toNat (lo32 x.c).toNat (hi32 x.c).toNat) = (a, bit) →
    (trSp r = false →
      GlobalVia e (.tensor (e.g.coreN / 64)) th (s.setThread e.cur.gid e.cur.t rel) 0#2 (vaRange (BitVec.ofNat 64 a) n)
        (th.hb.stamp false none false e.place) pas s2 →
      SoundBytes e s2 pas →
      ∃ sts h, exec (.ldt f) s = .next (({ s2 with stamps := sts } : State).setThread e.cur.gid e.cur.t
        ((({ rel with hb := h } : Thread).owe .ld f.ahd.toNat f.d (Spec.element r (pas.map s2.mem.get) bit)).advance
          e.cur))) ∧
    (trSp r = true → SpadOk e th a n false none →
      ∃ sts h, exec (.ldt f) s = .next ((s.modGroup e.cur.gid (fun g => { g with stamps := sts })).setThread e.cur.gid
        e.cur.t ((({ rel with hb := h } : Thread).owe .sp f.ahd.toNat f.d
          (Spec.element r (e.g.spGet a n) bit)).advance e.cur)))) ∧
  (∀ (f : Fields) (s : State) (e : Env) (en : Enc), AtSlot (.ldt f) f s e en → Spec.oddPair e f = true →
    exec (.ldt f) s = .next (takeTrap s e.cur.gid e.cur.t .illegalEncoding e.cur.pc e.th.rep 0#64 0#32 e.cur.inst))

/-! ## Scratchpad and exchange -/

namespace Sys2Proof.Spec

/-- A scratchpad load. -/
def spLoad (i : Instr) (bs : List Byte) : Option (Nat × Nat × List W32) :=
  match i with
  | .ldsp f => some (sizeOf f, sizeOf f, loaded f bs)
  | .ldspv f => some (4 * (f.mod.toNat + 1), 4, wordsOfBytes bs (f.mod.toNat + 1))
  | _ => none

/-- A scratchpad store. -/
def spStore (i : Instr) (x : Srcs) : Option (Nat × List Byte) :=
  match i with
  | .stsp f => some (sizeOf f, stored f x)
  | .stspv _ => some (4, bytesOfWords x.run)
  | _ => none

/-- A store to the exchange bank of another group (R151). -/
def xStore (i : Instr) (x : Srcs) : Option (Nat × List Byte) :=
  match i with
  | .xst f => some (sizeOf f, stored f x)
  | .xstv _ => some (4, bytesOfWords x.run)
  | _ => none

end Sys2Proof.Spec

/-- R140, R150: a scratchpad load that goes through owes its destination the bytes there; only the thread and the
group's stamps change. -/
def Sys2Proof.Spec.ScratchLoads : Prop :=
  ∀ (i : Instr) (f : Fields) (s : State) (e : Env) (en : Enc) (x : Srcs) (th : Thread) (n al : Nat) (ws : List W32),
    fieldsOf i = some f → Issues i f s e en x th →
    Spec.spLoad i (e.g.spGet (Spec.saddr x) n) = some (n, al, ws) → Spec.saddr x % al = 0 →
    SpadOk e th (Spec.saddr x) n false none →
    ∃ sts h, exec i s = .next ((s.modGroup e.cur.gid (fun g => { g with stamps := sts })).setThread e.cur.gid e.cur.t
      ((({ th.release (marked en f) with hb := h } : Thread).owe .sp f.ahd.toNat f.d ws).advance e.cur))

namespace Sys2Proof.Spec

/-- The scratchpad of a group holds `bs` from `off` up, in its scratch below 0x60000 and in its live exchange bank from
there on, and every other byte of it is as in `g` (R140). -/
def spStored (g g' : Group) (off : Nat) (bs : List Byte) : Prop :=
  Stored g.spad g'.spad (upFrom off (min bs.length (0x60000 - off))) (bs.take (0x60000 - off)) ∧
  Stored g.xlive g'.xlive (upFrom (off - 0x60000) (bs.length - (0x60000 - off))) (bs.drop (0x60000 - off))

end Sys2Proof.Spec

/-- R140, R150: a scratchpad store that goes through writes its bytes there and no other byte of the scratchpad or of
memory. -/
def Sys2Proof.Spec.ScratchStores : Prop :=
  ∀ (i : Instr) (f : Fields) (s : State) (e : Env) (en : Enc) (x : Srcs) (th : Thread) (al : Nat) (bs : List Byte),
    fieldsOf i = some f → Issues i f s e en x th → Spec.spStore i x = some (al, bs) → Spec.saddr x % al = 0 →
    SpadOk e th (Spec.saddr x) bs.length true none →
    ∃ t g, exec i s = .next t ∧ SameOutside s t ∧ t.group e.cur.gid = some g ∧
      Spec.spStored e.g g (Spec.saddr x) bs ∧
      mget g.threads e.cur.t = some ((th.release (marked en f)).advance e.cur) ∧
      g.xshadow = e.g.xshadow ∧ g.tiles = e.g.tiles ∧ g.slots = e.g.slots ∧ g.bars = e.g.bars ∧ g.pendW = e.g.pendW ∧
      (∀ n, n ≠ e.cur.t → mget g.threads n = mget e.g.threads n)

/-- R140: bytes outside the accessible scratchpad trap `permission` at the slot. -/
def Sys2Proof.Spec.ScratchOutsideTraps : Prop :=
  ∀ (i : Instr) (f : Fields) (s : State) (e : Env) (en : Enc) (x : Srcs) (th : Thread) (n al : Nat) (ws : List W32)
    (bs : List Byte),
    fieldsOf i = some f → Issues i f s e en x th →
    (Spec.spLoad i [] = some (n, al, ws) ∨ Spec.spStore i x = some (al, bs) ∧ n = bs.length) → Spec.saddr x % al = 0 →
    spOk e.k (Spec.saddr x) n = false →
    exec i s = .next (takeTrap s e.cur.gid e.cur.t .permission e.cur.pc e.th.rep (BitVec.ofNat 64 (Spec.saddr x)) 0#32
      e.cur.inst)

/-- R151, R152: XST and XSTV write the shadow bank of the group of rank b in the cluster, and nothing else of that group
but stamps and heads; RLD reads the live bank of such a group. -/
def Obligations.ExchangeAccesses : Prop :=
  (∀ (i : Instr) (f : Fields) (s : State) (e : Env) (en : Enc) (x : Srcs) (th : Thread) (al gid : Nat) (bs : List Byte)
    (g : Group),
    fieldsOf i = some f → Issues i f s e en x th → Spec.xStore i x = some (al, bs) →
    x.b32.toNat < e.k.clSize → x.a32.toNat + bs.length ≤ 256 * kdXbank e.k.desc → x.a32.toNat % al = 0 →
    e.atRank (s.setThread e.cur.gid e.cur.t (th.release (marked en f))) x.b32.toNat = some (gid, g) →
    (s.setThread e.cur.gid e.cur.t (th.release (marked en f))).group gid = some g → g.isRetired = false →
    findRace g.stamps th.hb (th.hb.stamp true none false e.place) (upFrom (shadowKey x.a32.toNat) bs.length) = none →
    ∃ t g', exec i s = .next t ∧ SameOutside s t ∧ t.group gid = some g' ∧
      Stored g.xshadow g'.xshadow (upFrom x.a32.toNat bs.length) bs ∧ g'.spad = g.spad ∧ g'.xlive = g.xlive ∧
      (t.thread e.cur.gid e.cur.t).map (·.pc) = some e.cur.next) ∧
  (∀ (f : Fields) (s : State) (e : Env) (en : Enc) (x : Srcs) (th : Thread) (gid : Nat) (g : Group),
    Issues (.rld f) f s e en x th → x.b32.toNat < e.k.clSize →
    x.a32.toNat + Spec.sizeOf f ≤ 256 * kdXbank e.k.desc → x.a32.toNat % Spec.sizeOf f = 0 →
    e.atRank (s.setThread e.cur.gid e.cur.t (th.release (marked en f))) x.b32.toNat = some (gid, g) →
    (s.setThread e.cur.gid e.cur.t (th.release (marked en f))).group gid = some g → g.isRetired = false →
    findRace g.stamps th.hb (th.hb.stamp false none false e.place) (upFrom (0x60000 + x.a32.toNat) (Spec.sizeOf f)) = none →
    ∃ t th' h, exec (.rld f) s = .next t ∧ SameOutside s t ∧ t.thread e.cur.gid e.cur.t = some th' ∧
      th' = ((({ th.release (marked en f) with hb := h } : Thread).owe .sp f.ahd.toNat f.d
        (Spec.loaded f (g.xlive.getN x.a32.toNat (Spec.sizeOf f)))).advance e.cur))

/-! ## Atomics and wide cells -/

namespace Sys2Proof.Spec

/-- The integer operations of R155 at a width: add, the four minima and maxima, and, or, exchange. -/
def redInt (w : Nat) (o : Nat) (old c : Nat) : Nat :=
  let a : BitVec w := BitVec.ofNat w old
  let b : BitVec w := BitVec.ofNat w c
  (match o with
   | 0 => a + b
   | 1 => if b.toInt < a.toInt then b else a
   | 2 => if a.toInt < b.toInt then b else a
   | 3 => if b.toNat < a.toNat then b else a
   | 4 => if a.toNat < b.toNat then b else a
   | 5 => a &&& b
   | 6 => a ||| b
   | _ => b).toNat

/-- An atomic read-modify-write: its ordering and scope, its width in bytes, the new value from the old (none: nothing
is written), the words it delivers, and the flags it raises (R155-R158). -/
structure Atomic where
  ord   : BitVec 2
  sc    : BitVec 3
  n     : Nat
  new   : Nat → Option Nat
  gives : Nat → Option (List W32)
  flags : Nat → FFlags

/-- The atomics and reductions; their operation is `mod` [2:0] (R154). -/
def atomic (i : Instr) (x : Srcs) : Option Atomic :=
  let w32 (v : Nat) : Option (List W32) := some [BitVec.ofNat 32 v]
  let w64 (v : Nat) : Option (List W32) := some [BitVec.ofNat 32 v, BitVec.ofNat 32 (v / 2 ^ 32)]
  let r (k : Nat) : Nat := (x.run.getD k 0#32).toNat
  match i with
  | .atomI32 ord sc f => some ⟨ord, sc, 4, fun o => some (redInt 32 (f.mod.toNat % 8) o x.c32.toNat), w32, fun _ => 0#6⟩
  | .atomI64 ord sc f => some ⟨ord, sc, 8, fun o => some (redInt 64 (f.mod.toNat % 8) o x.c.toNat), w64, fun _ => 0#6⟩
  | .atomF32 ord sc f => some ⟨ord, sc, 4, fun o => some (redOpF (f.mod.toNat % 8) o x.c32.toNat).bits, w32,
      fun o => (redOpF (f.mod.toNat % 8) o x.c32.toNat).flags⟩
  | .atomcasB32 ord sc _ => some ⟨ord, sc, 4, fun o => if o = r 0 then some (r 1) else none, w32, fun _ => 0#6⟩
  | .atomcasB64 ord sc _ => some ⟨ord, sc, 8,
      fun o => if o = r 0 + 2 ^ 32 * r 1 then some (r 2 + 2 ^ 32 * r 3) else none, w64, fun _ => 0#6⟩
  | .redI32 ord sc f => some ⟨ord, sc, 4, fun o => some (redInt 32 (f.mod.toNat % 8) o x.c32.toNat), fun _ => none,
      fun _ => 0#6⟩
  | .redF32 ord sc f => some ⟨ord, sc, 4, fun o => some (redOpF (f.mod.toNat % 8) o x.c32.toNat).bits, fun _ => none,
      fun _ => 0#6⟩
  | _ => none

/-- The thread after an atomic, its ordering memory apart. -/
def afterAtomic (th : Thread) (cur : Cur) (f : Fields) (k : DrainKind) (ws : Option (List W32)) (fl : FFlags) : Thread :=
  (((match ws with | some l => th.owe k f.ahd.toNat f.d l | none => th).raiseFlags fl).advance cur)

end Sys2Proof.Spec

/-- R155-R158: an atomic that goes through on global memory, in the open level, reads its bytes, writes what its
operation gives (nothing, for a compare that fails), owes its destination the old value, and changes no other byte. -/
def Sys2Proof.Spec.GlobalAtomics : Prop :=
  ∀ (i : Instr) (f : Fields) (s s2 : State) (e : Env) (en : Enc) (x : Srcs) (th : Thread) (pas : List Nat)
    (a : Spec.Atomic),
    fieldsOf i = some f → Issues i f s e en x th → Spec.atomic i x = some a → f.mod.getLsbD 3 = false →
    (Spec.gaddr x).toNat < 2 ^ 56 → (Spec.gaddr x).toNat % a.n = 0 →
    let old := Spec.numOf (pas.map s2.mem.get)
    GlobalOk e th (s.setThread e.cur.gid e.cur.t (th.release (marked en f))) 3#2 (vaRange (Spec.gaddr x) a.n)
      (a.new old).isSome (some a.sc) pas s2 →
    SoundBytes e s2 pas → fpTraps th (a.flags old) = false →
    ∃ t h, exec i s = .next t ∧
      StoredMem s2 t (if (a.new old).isSome then pas else []) (((a.new old).map (Spec.bytesOf a.n)).getD []) ∧
      t.groups = (s.setThread e.cur.gid e.cur.t (Spec.afterAtomic { th.release (marked en f) with hb := h } e.cur f .ld
        (a.gives old) (a.flags old))).groups ∧
      t.ctxs = s2.ctxs ∧ t.kernels = s2.kernels ∧ t.parts = s2.parts ∧ t.agenda = s2.agenda

/-- R156, R158: the same in the scratchpad, at every level. -/
def Sys2Proof.Spec.ScratchAtomics : Prop :=
  ∀ (i : Instr) (f : Fields) (s : State) (e : Env) (en : Enc) (x : Srcs) (th : Thread) (a : Spec.Atomic),
    fieldsOf i = some f → Issues i f s e en x th → Spec.atomic i x = some a → f.mod.getLsbD 3 = true →
    Spec.saddr x % a.n = 0 →
    let old := Spec.numOf (e.g.spGet (Spec.saddr x) a.n)
    SpadOk e th (Spec.saddr x) a.n (a.new old).isSome (some a.sc) → fpTraps th (a.flags old) = false →
    ∃ t g h, exec i s = .next t ∧ SameOutside s t ∧ t.group e.cur.gid = some g ∧
      Spec.spStored e.g g (Spec.saddr x) (((a.new old).map (Spec.bytesOf a.n)).getD []) ∧
      mget g.threads e.cur.t = some (Spec.afterAtomic { th.release (marked en f) with hb := h } e.cur f .lsp
        (a.gives old) (a.flags old)) ∧
      g.xshadow = e.g.xshadow ∧ g.bars = e.g.bars ∧ g.pendW = e.g.pendW ∧
      (∀ n, n ≠ e.cur.t → mget g.threads n = mget e.g.threads n)

/-- R414, R156, R158: an atomic on global memory that delivers its old value, and `red.add.f32`, trap `nondeterministic`
at the repeatable and portable levels, with the opcode in `sys.tinfo`. -/
def Sys2Proof.Spec.AtomicsNondeterministic : Prop :=
  ∀ (i : Instr) (f : Fields) (o : BitVec 2) (sc : BitVec 3) (s : State) (e : Env) (en : Enc) (x : Srcs) (th : Thread),
    (i = .atomI32 o sc f ∨ i = .atomI64 o sc f ∨ i = .atomF32 o sc f ∨ i = .atomcasB32 o sc f ∨ i = .atomcasB64 o sc f ∨
      i = .redF32 o sc f ∧ f.mod.toNat % 8 = 0) →
    Issues i f s e en x th → f.mod.getLsbD 3 = false → e.s.level e.g.cid ≠ 0 →
    exec i s = .next (takeTrap s e.cur.gid e.cur.t .nondeterministic e.cur.pc e.th.rep 0#64
      (BitVec.ofNat 32 (opAt e.cur.word)) e.cur.inst)

namespace Sys2Proof.Spec

/-- The signed 120-bit sum of a cell. -/
def cellSum (cell : Nat) : Int := (BitVec.ofNat 120 cell).toInt

/-- A cell instruction in the scratchpad: the cell it leaves (none: it writes none), the words it delivers and its
flags. -/
def cellOp (i : Instr) (x : Srcs) (cell : Nat) : Option (Option Nat × Option (List W32) × FFlags) :=
  match i with
  | .waddF32 _ _ => some (some (waddCell cell (lo32 x.d).toInt false x.c), none, 0#6)
  | .waddF64 _ _ => some (some (waddCell cell (lo32 x.d).toInt true x.c), none, 0#6)
  | .wrdF64 _ _ =>
    let r := wrdVal cell x.c32.toInt
    some (none, some [BitVec.ofNat 32 r.bits, BitVec.ofNat 32 (r.bits / 2 ^ 32)], r.flags)
  | .wset _ _ => some (some ((BitVec.ofInt 120 x.c.toInt).toNat), none, 0#6)
  | _ => none

/-- The window that a cell instruction names, if it names one (R48). -/
def cellWindow (i : Instr) (x : Srcs) : Int :=
  match i with
  | .waddF32 _ _ => (lo32 x.d).toInt
  | .waddF64 _ _ => (lo32 x.d).toInt
  | .wrdF64 _ _ => x.c32.toInt
  | _ => 0

/-- Whether a cell instruction writes. -/
def cellWrites (i : Instr) : Bool := match i with | .wrdF64 _ _ => false | _ => true

/-- What a cell instruction needs of a mapping (R374): WADD reads and writes, WRD reads, WSET writes. -/
def cellAcc (i : Instr) : BitVec 2 := match i with | .wrdF64 _ _ => 0#2 | .wset _ _ => 1#2 | _ => 3#2

/-- The stamp of a cell access: atomic at its scope; WADDs never race with each other (R161). -/
def cellStamp (i : Instr) (p : Place) (h : HbState) : Option Stamp :=
  match i with
  | .waddF32 sc _ => some { h.stamp true (some sc) false p with cell := true }
  | .waddF64 sc _ => some { h.stamp true (some sc) false p with cell := true }
  | .wrdF64 sc _ => some (h.stamp false (some sc) false p)
  | .wset sc _ => some (h.stamp true (some sc) false p)
  | _ => none

end Sys2Proof.Spec

/-- R160, R161: the wide-cell instructions on a scratchpad cell: WADD adds under its window, WSET sets the sum and
clears the flags, WRD owes its destination the value under its window; no other byte of the scratchpad changes. -/
def Sys2Proof.Spec.WideCells : Prop :=
  ∀ (i : Instr) (f : Fields) (s : State) (e : Env) (en : Enc) (x : Srcs) (th : Thread) (st : Stamp) (new : Option Nat)
    (ws : Option (List W32)) (fl : FFlags),
    fieldsOf i = some f → Issues i f s e en x th → f.mod.getLsbD 0 = true → Spec.saddr x % 16 = 0 →
    spOk e.k (Spec.saddr x) 16 = true →
    -1152 ≤ Spec.cellWindow i x → Spec.cellWindow i x ≤ 1024 →
    Spec.cellStamp i e.place th.hb = some st → findRace e.g.stamps th.hb st (upFrom (Spec.saddr x) 16) = none →
    Spec.cellOp i x (Spec.numOf (e.g.spGet (Spec.saddr x) 16)) = some (new, ws, fl) → fpTraps th fl = false →
    ∃ t g h, exec i s = .next t ∧ SameOutside s t ∧ t.group e.cur.gid = some g ∧
      Spec.spStored e.g g (Spec.saddr x) ((new.map (Spec.bytesOf 16)).getD []) ∧
      mget g.threads e.cur.t = some (Spec.afterAtomic { th.release (marked en f) with hb := h } e.cur f .sp ws fl)

/-- R160, R161, R162: the same on a cell of global memory. In the open level WADD and WSET write the cell's bytes and no
other, WRD owes its destination the value under its window. At the other levels WRD reads its task's view, and WSET
joins the queue of its group as one update (WADD: `StoresWaitForMerge`). -/
def Sys2Proof.Spec.GlobalCells : Prop :=
  (∀ (i : Instr) (f : Fields) (s s2 : State) (e : Env) (en : Enc) (x : Srcs) (th : Thread) (st : Stamp) (pas : List Nat)
    (new : Option Nat) (ws : Option (List W32)) (fl : FFlags),
    fieldsOf i = some f → Issues i f s e en x th → f.mod.getLsbD 0 = false → (Spec.gaddr x).toNat < 2 ^ 56 →
    (Spec.gaddr x).toNat % 16 = 0 → -1152 ≤ Spec.cellWindow i x → Spec.cellWindow i x ≤ 1024 →
    Spec.cellStamp i e.place th.hb = some st →
    Spec.cellOp i x (Spec.numOf (pas.map s2.mem.get)) = some (new, ws, fl) → fpTraps th fl = false →
    GlobalVia e e.via th (s.setThread e.cur.gid e.cur.t (th.release (marked en f))) (Spec.cellAcc i)
      (vaRange (Spec.gaddr x) 16) st pas s2 →
    (∀ pa, pa ∈ pas → notifyPa s pa = false) →
    (match i with | .wset _ _ => s2.writeBad (s2.ctx e.g.cid).keyId pas = none | _ => SoundBytes e s2 pas) →
    ∃ t h, exec i s = .next t ∧
      StoredMem s2 t (if new.isSome then pas else []) ((new.map (Spec.bytesOf 16)).getD []) ∧
      t.groups = (s.setThread e.cur.gid e.cur.t
        (Spec.afterAtomic { th.release (marked en f) with hb := h } e.cur f .ld ws fl)).groups ∧
      t.ctxs = s2.ctxs ∧ t.kernels = s2.kernels ∧ t.parts = s2.parts ∧ t.agenda = s2.agenda) ∧
  (∀ (sc : BitVec 3) (f : Fields) (s s2 : State) (e : Env) (en : Enc) (x : Srcs) (th : Thread) (pas : List Nat),
    Issues (.wrdF64 sc f) f s e en x th → f.mod.getLsbD 0 = false → (Spec.gaddr x).toNat < 2 ^ 56 →
    (Spec.gaddr x).toNat % 16 = 0 → -1152 ≤ x.c32.toInt → x.c32.toInt ≤ 1024 → e.s.level e.g.cid ≠ 0 →
    gXlate e e.via 0#2 (vaRange (Spec.gaddr x) 16) (s.setThread e.cur.gid e.cur.t (th.release (marked en f))) =
      .ok (pas, s2) →
    (∀ pa, pa ∈ pas → notifyPa s pa = false) → SoundBytes e s2 pas →
    let v := s2.homes e.g.kid (vaRange (Spec.gaddr x) 16) pas
    let r := wrdVal (Spec.numOf (v.1.map (Spec.viewed e v.2).get)) x.c32.toInt
    fpTraps th r.flags = false →
    ∃ h, exec (.wrdF64 sc f) s = .next (v.2.setThread e.cur.gid e.cur.t
      (Spec.afterAtomic { th.release (marked en f) with hb := h } e.cur f .ld
        (some [BitVec.ofNat 32 r.bits, BitVec.ofNat 32 (r.bits / 2 ^ 32)]) r.flags))) ∧
  (∀ (sc : BitVec 3) (f : Fields) (s s2 t : State) (e : Env) (en : Enc) (x : Srcs) (th : Thread) (pas : List Nat),
    Issues (.wset sc f) f s e en x th → f.mod.getLsbD 0 = false → (Spec.gaddr x).toNat < 2 ^ 56 →
    (Spec.gaddr x).toNat % 16 = 0 → e.s.level e.g.cid ≠ 0 →
    gXlate e e.via 1#2 (vaRange (Spec.gaddr x) 16) (s.setThread e.cur.gid e.cur.t (th.release (marked en f))) =
      .ok (pas, s2) →
    let v := s2.homes e.g.kid (vaRange (Spec.gaddr x) 16) pas
    Spec.queued e (Spec.units 16 (vaRange (Spec.gaddr x) 16) v.1 (Spec.bytesOf 16 (BitVec.ofInt 120 x.c.toInt).toNat)) v.2 =
      some t →
    exec (.wset sc f) s = .next (t.setThread e.cur.gid e.cur.t ((th.release (marked en f)).advance e.cur)) ∧
      t.mem = s2.mem)

/-- R47-R49: what WADD and WRD make of a cell, for a finite FP64 operand whose rounded count of units keeps the sum
inside 119 bits and no special flag set: the sum grows by the operand's value in units of 2^w rounded to nearest, ties
to even, and no flag changes; WRD of a clean cell is the sum times 2^w, rounded once to FP64. -/
def Sys2Proof.Spec.CellArithmetic : Prop :=
  (∀ (cell m : Nat) (w ex k : Int) (n : Bool) (x : W64), decodeF .f64 x.toNat = .fin n m ex → cell < 2 ^ 120 →
    k = (roundNat .rn n (dyad m (ex - w)).1 (dyad m (ex - w)).2 : Nat) →
    -(2 ^ 119) ≤ (if n then -k else k) → (if n then -k else k) < 2 ^ 119 →
    -(2 ^ 119) ≤ Spec.cellSum cell + (if n then -k else k) → Spec.cellSum cell + (if n then -k else k) < 2 ^ 119 →
    waddCell cell w true x < 2 ^ 120 ∧
      Spec.cellSum (waddCell cell w true x) = Spec.cellSum cell + (if n then -k else k)) ∧
  (∀ (cell : Nat) (w : Int), cell < 2 ^ 120 →
    wrdVal cell w = roundV .f64 .rn false (.fin (decide (Spec.cellSum cell < 0)) (Spec.cellSum cell).natAbs w))

/-! ## Fences, barriers, waits -/

/-- R163, R164, R148: a fence whose predecessors are complete changes only what its thread knows of the order of events;
the instruction fences, once the thread's copies are complete for IFENCE.cp, and PF change nothing; each goes on to the
next slot. -/
def Obligations.FencesPass : Prop :=
  (∀ (sc : BitVec 3) (f : Fields) (s : State) (e : Env) (en : Enc) (x : Srcs) (th : Thread),
    Issues (.fence sc f) f s e en x th → fenceWaits e.s e.cur.gid e.cur.t (maskOf f.b) = false →
    let h := th.hb.fenced e.place sc (maskOf f.b) (maskOf f.c) (fenceJoins e.s e.cur.gid e.cur.t e.g (maskOf f.b))
    exec (.fence sc f) s = .next (s.setThread e.cur.gid e.cur.t
      (({ th.release (marked en f) with hb := h } : Thread).advance e.cur))) ∧
  (∀ (i : Instr) (f : Fields) (s : State) (e : Env) (en : Enc) (x : Srcs) (th : Thread),
    (i = .ifence f ∨ i = .pf f ∨ i = .ifenceCp f ∧ copiesLeft s e.cur.gid e.cur.t = false) → Issues i f s e en x th →
    exec i s = .next (s.setThread e.cur.gid e.cur.t ((th.release (marked en f)).advance e.cur)))

namespace Sys2Proof.Spec

/-- A thread whose wait has ended stands past its slot, outside its issue group (R59). -/
def past (cur : Cur) (th : Thread) : Prop :=
  th.wait = .none ∧ th.pc = cur.next ∧ th.rep = cur.nextRep ∧ th.inside = false

/-- Every live thread of a group that has started satisfies `p`. -/
def allLive (g : Group) (p : Thread → Prop) : Prop :=
  (∀ c n, g.loc ≠ .placed c n) ∧ ∀ n th, (n, th) ∈ g.threads → th.live = true → p th

end Sys2Proof.Spec

/-- R165, R352, R153, R356, R169, R358: an arrival at a group barrier counts, once its count is at most 2048 and agrees
with what the phase expects: BARA goes on with the phase in its destination, BAR waits; XBAR and LBAR wait too. The
arrival that completes the barrier lets its thread go on past the slot: the last of a BAR's phase, the last of a
cluster's threads at XBAR, which exchanges the banks, and the last of a launch's at LBAR in the open level; in the
others the launch then merges. -/
def Sys2Proof.Spec.BarrierArrivals : Prop :=
  (∀ (f : Fields) (s : State) (e : Env) (en : Enc) (x : Srcs) (th : Thread),
    Issues (.bara f) f s e en x th →
    let b := mgetD e.g.bars (barNo f) Barrier.zero
    x.b32.toNat ≤ 2048 → (b.mode = .unset ∨ (b.mode = .live ∧ x.b32 = 0#32) ∨ b.mode = .fixed x.b32.toNat) →
    ∃ t g b' h, exec (.bara f) s = .next t ∧ SameOutside s t ∧ t.group e.cur.gid = some g ∧
      mget g.bars (barNo f) = some b' ∧ b'.arr = b.arr + 1 ∧ b'.ph = b.ph ∧
      (b.mode = .unset → b'.mode = if x.b32 = 0#32 then .live else .fixed x.b32.toNat) ∧
      mget g.threads e.cur.t = some ((({ th.release (marked en f) with hb := h } : Thread).deliver en f
        (.val (zext64 b.ph))).advance e.cur)) ∧
  (∀ (f : Fields) (s : State) (e : Env) (en : Enc) (x : Srcs) (pops : Nat), Arrives (.bar f) f s e en x pops →
    let b := mgetD e.g.bars (barNo f) Barrier.zero
    x.b32.toNat ≤ 2048 → (b.mode = .unset ∨ (b.mode = .live ∧ x.b32 = 0#32) ∨ b.mode = .fixed x.b32.toNat) →
    ∃ t g th' b', exec (.bar f) s = .next t ∧ SameOutside s t ∧ t.group e.cur.gid = some g ∧
      mget g.threads e.cur.t = some th' ∧ th'.wait = .bar (barNo f) b.ph ∧ th'.inside = false ∧ th'.resume = e.cur.next ∧
      th'.owedRel = marked en f ∧ th'.regs = e.th.regs ∧ mget g.bars (barNo f) = some b' ∧ b'.arr = b.arr + 1 ∧
      b'.ph = b.ph ∧
      (∀ m, settleBar s e.cur.gid e.g = none → b'.expected g = some m → m ≤ b'.arr →
        ∃ u v, settleBar t e.cur.gid g = some u ∧ u.thread e.cur.gid e.cur.t = some v ∧ Spec.past e.cur v)) ∧
  (∀ (f : Fields) (s : State) (e : Env) (en : Enc) (x : Srcs) (pops : Nat), Arrives (.xbar f) f s e en x pops →
    ∃ t g th', exec (.xbar f) s = .next t ∧ SameOutside s t ∧ t.group e.cur.gid = some g ∧
      mget g.threads e.cur.t = some th' ∧ th'.wait = .xbar ∧ th'.inside = false ∧ th'.resume = e.cur.next ∧
      th'.owedRel = marked en f ∧ th'.regs = e.th.regs ∧ g.xlive = e.g.xlive ∧ g.xshadow = e.g.xshadow ∧
      (msorted s.groups = true → e.g.isRetired = false →
        (∀ n h, (n, h) ∈ clusterGroups t e.k g → Spec.allLive h (fun w => w.wait = .xbar)) →
        ∃ u v g', settleXbar t e.cur.gid g = some u ∧ u.group e.cur.gid = some g' ∧ mget g'.threads e.cur.t = some v ∧
          Spec.past e.cur v ∧ g'.xlive = g.xshadow ∧ g'.xshadow = g.xlive)) ∧
  (∀ (f : Fields) (s : State) (e : Env) (en : Enc) (x : Srcs) (pops : Nat), Arrives (.lbar f) f s e en x pops →
    ∃ t k th', exec (.lbar f) s = .next t ∧ t.kernel e.g.kid = some k ∧ t.thread e.cur.gid e.cur.t = some th' ∧
      th'.wait = .lbar (e.th.lbars + 1) ∧ th'.lbars = e.th.lbars + 1 ∧ th'.inside = false ∧ th'.resume = e.cur.next ∧
      th'.owedRel = marked en f ∧ th'.regs = e.th.regs ∧ t.mem = s.mem ∧
      (msorted s.groups = true → e.g.isRetired = false → e.th.live = true → k.mergePending = false →
        k.lbarAt = e.th.lbars + 1 → k.nextGrp = k.groupCount →
        (∀ n h, (n, h) ∈ kernelGroups t e.g.kid → Spec.allLive h (fun w => w.wait = .lbar (e.th.lbars + 1))) →
        (s.level k.cid = 0 → ∃ u v, settleLbar t e.g.kid k = some u ∧ u.thread e.cur.gid e.cur.t = some v ∧
          Spec.past e.cur v) ∧
        (s.level k.cid ≠ 0 → intervalOpen t e.g.kid = false → ∃ u, settleLbar t e.g.kid k = some u ∧
          (u.kernel e.g.kid).map (·.mergePending) = some true)))

/-- R352, R353: when the arrivals of a barrier reach what its phase expects, the phase number grows by one, the arrivals
start again from zero with no expectation, and every thread that waited for this phase goes on past its slot. -/
def Sys2Proof.Spec.BarrierPhaseCompletes : Prop :=
  ∀ (s : State) (gid n : Nat) (g : Group) (b : Barrier) (m : Nat), s.group gid = some g → g.bars = [(n, b)] →
    b.expected g = some m → m ≤ b.arr →
    ∃ t g' b', settleBar s gid g = some t ∧ SameOutside s t ∧ t.group gid = some g' ∧ mget g'.bars n = some b' ∧
      b'.ph = b.ph + 1#32 ∧ b'.arr = 0 ∧ b'.mode = .unset ∧
      (∀ k th, mget g.threads k = some th → th.wait = .bar n b.ph →
        ∃ th', mget g'.threads k = some th' ∧ th'.wait = .none ∧ th'.pc = th.resume) ∧
      (∀ k th, mget g.threads k = some th → th.wait ≠ .bar n b.ph → mget g'.threads k = some th)

/-- R165, R168, R170: a wait whose condition holds completes at once: its thread goes on to the next slot, outside its
issue group, with its marked sources free; the group's memories and barriers are unchanged. -/
def Sys2Proof.Spec.WaitsThatHold : Prop :=
  ∀ (i : Instr) (f : Fields) (s : State) (e : Env) (en : Enc) (x : Srcs) (th : Thread), Issues i f s e en x th →
    (i = .barw f ∧ phasePast (mgetD e.g.bars (barNo f) Barrier.zero).ph x.b32 = true ∨
     i = .tlwait f ∧ unitIx f.a ≠ 4 ∧ unitIx f.a ≠ 5 ∧ x.b.toNat ≤ (e.g.engCtx (unitIx f.a)).tl ∧
       (e.g.engCtx (unitIx f.a)).tl ≤ (e.g.engCtx (unitIx f.a)).issued ∨
     i = .cbwait f ∧ Spec.saddr x % 16 = 0 ∧ SpadOk e th (Spec.saddr x) 16 false (some 1#3) ∧
       phasePast (e.g.cbPh (Spec.saddr x)) x.c32 = true) →
    ∃ t g h, exec i s = .next t ∧ SameOutside s t ∧ t.group e.cur.gid = some g ∧
      mget g.threads e.cur.t = some (((({ th.release (marked en f) with hb := h } : Thread).advance e.cur).outside)) ∧
      g.spad = e.g.spad ∧ g.bars = e.g.bars ∧ g.eng = e.g.eng ∧
      (∀ n, n ≠ e.cur.t → mget g.threads n = mget e.g.threads n)

/-- R171: WAITA on a word of the scratchpad, or in the open level of global memory, that satisfies its comparison
delivers the word and goes on; WAITA_RECHECK lets a thread that waits so issue again once the word satisfies it. -/
def Sys2Proof.Spec.WaitOnWord : Prop :=
  (∀ (f : Fields) (s : State) (e : Env) (en : Enc) (x : Srcs) (th : Thread), Issues (.waita f) f s e en x th →
    f.mod.getLsbD 3 = false → Spec.saddr x % 4 = 0 → SpadOk e th (Spec.saddr x) 4 false (some 1#3) →
    waitaHolds (f.mod.setWidth 2) (BitVec.ofNat 32 (Spec.numOf (e.g.spGet (Spec.saddr x) 4))) x.c32 = true →
    ∃ t th' h, exec (.waita f) s = .next t ∧ SameOutside s t ∧ t.thread e.cur.gid e.cur.t = some th' ∧
      th' = ((({ th.release (marked en f) with hb := h } : Thread).deliver en f
        (.val (zext64 (BitVec.ofNat 32 (Spec.numOf (e.g.spGet (Spec.saddr x) 4)))))).advance e.cur).outside) ∧
  (∀ (f : Fields) (s s2 : State) (e : Env) (en : Enc) (x : Srcs) (th : Thread) (pas : List Nat),
    Issues (.waita f) f s e en x th → f.mod.getLsbD 3 = true → (Spec.gaddr x).toNat < 2 ^ 56 →
    (Spec.gaddr x).toNat % 4 = 0 →
    GlobalOk e th (s.setThread e.cur.gid e.cur.t (th.release (marked en f))) 0#2 (vaRange (Spec.gaddr x) 4) false (some 5#3)
      pas s2 →
    SoundBytes e s2 pas → (∀ pa, pa ∈ pas → notifyPa s pa = false) →
    waitaHolds (f.mod.setWidth 2) (BitVec.ofNat 32 (Spec.numOf (pas.map s2.mem.get))) x.c32 = true →
    ∃ t th' h, exec (.waita f) s = .next t ∧ t.mem = s2.mem ∧ t.thread e.cur.gid e.cur.t = some th' ∧
      th' = ((({ th.release (marked en f) with hb := h } : Thread).deliver en f
        (.val (zext64 (BitVec.ofNat 32 (Spec.numOf (pas.map s2.mem.get)))))).advance e.cur).outside) ∧
  (∀ (gid t addr : Nat) (cc : BitVec 2) (c : W32) (s : State) (g : Group) (k : Kernel) (th : Thread), s.group gid = some g →
    s.kernel g.kid = some k → mget g.threads t = some th → g.isResident = true → th.wait = .waita false addr cc c →
    waitaHolds cc (BitVec.ofNat 32 (Spec.numOf (g.spGet addr 4))) c = true →
    exec (.waitaRecheck gid t) s = .next (s.setThread gid t (th.again (readyNow s g))))

/-- R167, R168, R354: CBINIT writes a record of count, phase 0 and count; CBADD adds to the pending count, and where
that falls to zero or below, the record starts its next phase with the initial count added; it owes its destination the
phase before. -/
def Obligations.CountingBarriers : Prop :=
  (∀ (f : Fields) (s : State) (e : Env) (en : Enc) (x : Srcs) (th : Thread), Issues (.cbinit f) f s e en x th →
    Spec.saddr x % 16 = 0 → x.c32 ≠ 0#32 → x.c32.toNat < 2 ^ 31 →
    SpadOk e th (Spec.saddr x) 16 true none →
    ∃ t g, exec (.cbinit f) s = .next t ∧ SameOutside s t ∧ t.group e.cur.gid = some g ∧
      Spec.spStored e.g g (Spec.saddr x)
        (Spec.bytesOf 4 x.c32.toNat ++ Spec.bytesOf 4 0 ++ Spec.bytesOf 4 x.c32.toNat ++ Spec.bytesOf 4 0) ∧
      mget g.threads e.cur.t = some ((th.release (marked en f)).advance e.cur)) ∧
  (∀ (f : Fields) (s : State) (e : Env) (en : Enc) (x : Srcs) (th : Thread), Issues (.cbadd f) f s e en x th →
    Spec.saddr x % 16 = 0 → SpadOk e th (Spec.saddr x) 16 true (some 1#3) →
    e.g.spad.wf = true → e.g.xlive.wf = true →
    ∃ t g h, exec (.cbadd f) s = .next t ∧ SameOutside s t ∧ t.group e.cur.gid = some g ∧
      (let p := e.g.cbPend (Spec.saddr x) + x.c32
       if p.toInt ≤ 0 then g.cbPend (Spec.saddr x) = p + e.g.cbInit (Spec.saddr x) ∧
         g.cbPh (Spec.saddr x) = e.g.cbPh (Spec.saddr x) + 1#32
       else g.cbPend (Spec.saddr x) = p ∧ g.cbPh (Spec.saddr x) = e.g.cbPh (Spec.saddr x)) ∧
      g.cbInit (Spec.saddr x) = e.g.cbInit (Spec.saddr x) ∧
      mget g.threads e.cur.t = some ((({ th.release (marked en f) with hb := h } : Thread).owe .sp f.ahd.toNat f.d
        [e.g.cbPh (Spec.saddr x)]).advance e.cur))

/-- R170: TLREAD delivers a timeline in the open level, and traps `nondeterministic` at the others; TLREAD.err delivers
the error bit and clears it. -/
def Obligations.TimelineReads : Prop :=
  (∀ (f : Fields) (s : State) (e : Env) (en : Enc) (x : Srcs) (th : Thread), Issues (.tlread f) f s e en x th →
    exec (.tlread f) s = if e.s.level e.g.cid = 0 then
        .next (s.setThread e.cur.gid e.cur.t (((th.release (marked en f)).deliver en f
          (.val (BitVec.ofNat 64 (e.g.engCtx (unitIx f.a)).tl))).advance e.cur))
      else .next (takeTrap s e.cur.gid e.cur.t .nondeterministic e.cur.pc e.th.rep 0#64 (BitVec.ofNat 32 (opAt e.cur.word))
        e.cur.inst)) ∧
  (∀ (f : Fields) (s : State) (e : Env) (en : Enc) (x : Srcs) (th : Thread), Issues (.tlreadErr f) f s e en x th →
    ∃ t g, exec (.tlreadErr f) s = .next t ∧ SameOutside s t ∧ t.group e.cur.gid = some g ∧
      (g.engCtx (unitIx f.a)).err = false ∧ (g.engCtx (unitIx f.a)).tl = (e.g.engCtx (unitIx f.a)).tl ∧
      mget g.threads e.cur.t = some (((th.release (marked en f)).deliver en f
        (.val (if (e.g.engCtx (unitIx f.a)).err then 1#64 else 0#64))).advance e.cur))

/-! ## Traps -/

/-- R241, R242: a trap on a thread with `sys.msk` clear in a context with a handler saves the cause, the program counter
and the details, masks traps, zeroes the count and sends the thread to `sys.tvec`, parked; its registers keep their
values, the outstanding results among them written. -/
def Sys2Proof.Spec.TrapEntry : Prop :=
  ∀ (s : State) (gid n inst : Nat) (g : Group) (th : Thread) (c : Cause) (epc ta : W64) (rep : Option RepSt) (ti : W32),
    s.group gid = some g → mget g.threads n = some th → th.msk = false → (s.ctx g.cid).tvec ≠ 0#64 →
    let t := takeTrap s gid n c epc rep ta ti inst
    SameOutside s t ∧ ∃ th', t.thread gid n = some th' ∧
      th'.cause.toNat = c.code ∧ th'.epc = epc ∧ th'.taddr = ta ∧ th'.tinfo = ti ∧ th'.pmsk = false ∧ th'.msk = true ∧
      th'.hcount = 0#32 ∧ th'.pc = (s.ctx g.cid).tvec ∧ th'.rep = none ∧ th'.wait = .none ∧ th'.inside = false ∧
      th'.parked = some inst ∧ th'.regions = [] ∧ th'.pend = [] ∧ th'.regs = th.flush.regs ∧ th'.opf = th.flush.opf ∧
      th'.preds = th.flush.preds ∧ th'.fflags = th.fflags ∧ th'.fen = th.fen ∧ th'.quota = th.quota ∧
      th'.windows = th.windows ∧ th'.frames = th.frames ∧ th'.las = th.las ∧ th'.uqpos = th.uqpos

/-- R242, R304: a trap on a thread with `sys.msk` set, or in a context with no handler, stops the thread at `epc` under
a record with the context's next sequence number. -/
def Sys2Proof.Spec.TrapStops : Prop :=
  ∀ (s : State) (gid n inst : Nat) (g : Group) (th : Thread) (c : Cause) (epc ta : W64) (rep : Option RepSt) (ti : W32),
    s.group gid = some g → mget g.threads n = some th → (th.msk = true ∨ (s.ctx g.cid).tvec = 0#64) →
    let t := takeTrap s gid n c epc rep ta ti inst
    (t.ctx g.cid).fqSeq = (s.ctx g.cid).fqSeq + 1 ∧
    (t.ctx g.cid).stops = (s.ctx g.cid).stops ++ [((s.ctx g.cid).fqSeq + 1, gid, n)] ∧
    ∃ th', t.thread gid n = some th' ∧ th'.wait = .stop c ((s.ctx g.cid).fqSeq + 1) ∧ th'.pc = epc ∧ th'.rep = rep ∧
      th'.inside = false ∧ th'.msk = th.msk ∧ th'.cause = th.cause ∧ th'.epc = th.epc ∧ th'.regs = th.flush.regs ∧
      th'.regions = th.regions

/-- R243: TRAP and BKPT trap with the next slot as `sys.epc`; TRET goes back to `sys.epc` with the mask from `sys.pmsk`;
TMASK delivers the old mask and sets the new one. -/
def Obligations.TrapInstructions : Prop :=
  ∀ (f : Fields) (s : State) (e : Env) (en : Enc) (x : Srcs) (th : Thread),
    let s1 := s.setThread e.cur.gid e.cur.t (th.release (marked en f))
    (Issues (.trap f) f s e en x th →
      exec (.trap f) s = .next (takeTrap s1 e.cur.gid e.cur.t .software e.cur.next e.cur.nextRep 0#64 x.a32 e.cur.inst)) ∧
    (Issues (.bkpt f) f s e en x th →
      exec (.bkpt f) s = .next (takeTrap s1 e.cur.gid e.cur.t .breakpoint e.cur.next e.cur.nextRep e.cur.pc
        ((opBits f.a).setWidth 32) e.cur.inst)) ∧
    (Issues (.tret f) f s e en x th → ∃ th', exec (.tret f) s = .next (s.setThread e.cur.gid e.cur.t th') ∧
      th'.pc = th.epc ∧ th'.msk = th.pmsk ∧ th'.pmsk = th.pmsk ∧ th'.epc = th.epc ∧ th'.inside = false ∧ th'.l0 = none ∧
      th'.l1 = none ∧ th'.regs = (th.release (marked en f)).regs ∧ th'.regions = th.regions ∧ th'.parked = th.parked ∧
      th'.hcount = (if th.pmsk && !th.msk then 0#32 else th.hcount) ∧ (th.trapRep = none → th'.rep = none) ∧
      (∀ r, th.trapRep = some (th.epc, r) → th'.rep = some r)) ∧
    (Issues (.tmask f) f s e en x th → x.a32.toNat ≤ 1 →
      exec (.tmask f) s = .next (s.setThread e.cur.gid e.cur.t (Thread.advance { (th.release (marked en f)).deliver en f
        (.val (if th.msk then 1#64 else 0#64)) with
          msk := decide (x.a32 = 1#32), hcount := if x.a32 = 1#32 ∧ th.msk = false then 0#32 else th.hcount } e.cur)))

namespace Sys2Proof.Spec

/-- The system registers (R240): whether each holds 64 bits, and what a read of it gives. -/
def sysReg (e : Env) (th : Thread) : Nat → Option (Bool × Nat)
  | 0 => some (true, (e.s.core e.g.coreN).cycle.toNat)
  | 1 => some (false, if e.s.level e.g.cid = 2 then 0 else e.g.coreN)
  | 2 => some (false, th.fflags.toNat)
  | 3 => some (false, th.fen.toNat)
  | 4 => some (false, th.cause.toNat)
  | 5 => some (true, th.epc.toNat)
  | 6 => some (true, th.taddr.toNat)
  | 7 => some (false, th.tinfo.toNat)
  | 8 => some (false, th.msk.toNat + 2 * th.pmsk.toNat + 256 * th.windows.length)
  | 9 => some (true, (e.s.ctx e.g.cid).tvec.toNat)
  | 10 => some (true, (e.s.ctx e.g.cid).evec.toNat)
  | 11 => some (false, (e.s.ctx e.g.cid).hbudget.toNat)
  | 12 => some (false, (e.s.ctx e.g.cid).ien.toNat)
  | 13 => some (false, th.hcount.toNat)
  | _ => none

/-- The registers whose reads R414 forbids at a level. -/
def sysForbidden (lvl n : Nat) : Prop := lvl ≠ 0 ∧ (n = 0 ∨ n = 13 ∨ n = 1 ∧ lvl = 1)

/-- What a write of a system register does to its thread (R238-R240): the others are read-only. -/
def sysWritten (th : Thread) (v : W64) : Nat → Thread
  | 2 => { th with fflags := th.fflags &&& ~~~(v.setWidth 6) }
  | 3 => { th with fen := v.setWidth 6 }
  | 4 => { th with cause := v.setWidth 8 }
  | 5 => { th with epc := v &&& 0x0FFFFFFFFFFFFFF8#64 }
  | 6 => { th with taddr := v }
  | 7 => { th with tinfo := v.setWidth 32 }
  | 8 => { th with msk := v.getLsbD 0, pmsk := v.getLsbD 1,
                   hcount := if v.getLsbD 0 && !th.msk then 0#32 else th.hcount }
  | _ => th

end Sys2Proof.Spec

/-- R238-R240, R414: SYSR delivers a system register of its width and SYSW writes one; a register beyond the table or of
the other width traps `illegal-operand`; SYSR traps `nondeterministic` where its level forbids the register. -/
def Obligations.SystemRegisters : Prop :=
  ∀ (f : Fields) (s : State) (e : Env) (en : Enc) (x : Srcs) (th : Thread),
    let n := (opBits f.a).toNat
    let w := decide (f.mod = 1#4)
    (∀ v, Issues (.sysr f) f s e en x th → Spec.sysReg e (th.release (marked en f)) n = some (w, v) →
      ¬ Spec.sysForbidden (e.s.level e.g.cid) n →
      exec (.sysr f) s = .next (s.setThread e.cur.gid e.cur.t (((th.release (marked en f)).deliver en f
        (.val (BitVec.ofNat 64 v))).advance e.cur))) ∧
    (∀ v, Issues (.sysr f) f s e en x th → Spec.sysReg e (th.release (marked en f)) n = some (w, v) →
      Spec.sysForbidden (e.s.level e.g.cid) n →
      exec (.sysr f) s = .next (takeTrap s e.cur.gid e.cur.t .nondeterministic e.cur.pc e.th.rep 0#64
        (BitVec.ofNat 32 (opAt e.cur.word)) e.cur.inst)) ∧
    (∀ v, Issues (.sysw f) f s e en x th → Spec.sysReg e (th.release (marked en f)) n = some (w, v) →
      ∃ t, exec (.sysw f) s = .next t ∧
        t.thread e.cur.gid e.cur.t = some ((Spec.sysWritten (th.release (marked en f)) x.b n).advance e.cur) ∧
        (t.ctx e.g.cid).ien = (if n = 12 then x.b.setWidth 16 else (s.ctx e.g.cid).ien) ∧
        { t.ctx e.g.cid with ien := 0#16 } = { s.ctx e.g.cid with ien := 0#16 } ∧
        t.mem = s.mem ∧ t.kernels = s.kernels ∧ t.cores = s.cores ∧ t.parts = s.parts) ∧
    (∀ i, (i = .sysr f ∨ i = .sysw f) → Issues i f s e en x th →
      (∀ v, Spec.sysReg e (th.release (marked en f)) n ≠ some (w, v)) →
      exec i s = .next (takeTrap s e.cur.gid e.cur.t .illegalOperand e.cur.pc e.th.rep 0#64 0#32 e.cur.inst))

/-- R235-R237: QREL moves free quota of its thread to the group's reserve on its lane; QCLM joins its lane's claims and
waits until the reserve covers its claim, which alone on its lane it takes at once, or goes on when it claims nothing;
QGET delivers the quota, the allocation, the reserve, or what is free. -/
def Obligations.Quotas : Prop :=
  (∀ (f : Fields) (s : State) (e : Env) (en : Enc) (x : Srcs) (th : Thread), Issues (.qrel f) f s e en x th →
    let th1 := th.release (marked en f)
    th1.alloc + x.a32.toNat ≤ th1.quota →
    ∃ t g, exec (.qrel f) s = .next t ∧ SameOutside s t ∧ t.group e.cur.gid = some g ∧
      mget g.threads e.cur.t = some (Thread.advance { th1 with quota := th1.quota - x.a32.toNat } e.cur) ∧
      mgetD g.reserve th.lane 0 = mgetD e.g.reserve th.lane 0 + x.a32.toNat ∧
      (∀ l, l ≠ th.lane → mget g.reserve l = mget e.g.reserve l) ∧
      (∀ n, n ≠ e.cur.t → mget g.threads n = mget e.g.threads n)) ∧
  (∀ (f : Fields) (s : State) (e : Env) (en : Enc) (x : Srcs) (th : Thread), Issues (.qrel f) f s e en x th →
    let th1 := th.release (marked en f)
    th1.quota - th1.alloc < x.a32.toNat →
    exec (.qrel f) s = .next (takeTrap s e.cur.gid e.cur.t .illegalOperand e.cur.pc e.th.rep 0#64
      (BitVec.ofNat 32 (th1.quota - th1.alloc)) e.cur.inst)) ∧
  (∀ (f : Fields) (s : State) (e : Env) (en : Enc) (x : Srcs) (pops : Nat), Arrives (.qclm f) f s e en x pops →
    e.th.quota + x.a32.toNat ≤ 256 →
    ∃ t g th', exec (.qclm f) s = .next t ∧ SameOutside s t ∧ t.group e.cur.gid = some g ∧
      mget g.threads e.cur.t = some th' ∧ th'.inside = false ∧
      (x.a32 ≠ 0#32 → th'.wait = .claim x.a32.toNat ∧ th'.resume = e.cur.next ∧ th'.quota = e.th.quota ∧
        mgetD g.claims e.th.lane [] = mgetD e.g.claims e.th.lane [] ++ [(e.cur.t, x.a32.toNat)] ∧
        (e.g.claims = [] → x.a32.toNat ≤ mgetD e.g.reserve e.th.lane 0 →
          ∃ u v, settleClaim t e.cur.gid g = some u ∧ u.thread e.cur.gid e.cur.t = some v ∧ Spec.past e.cur v ∧
            v.quota = e.th.quota + x.a32.toNat)) ∧
      (x.a32 = 0#32 → th'.wait = e.th.wait ∧ th'.pc = e.cur.next ∧ g.claims = e.g.claims)) ∧
  (∀ (s : State) (gid lane n k r : Nat) (g : Group) (th : Thread), s.group gid = some g →
    g.claims = [(lane, [(n, k)])] → mget g.reserve lane = some r → k ≤ r → mget g.threads n = some th →
    ∃ t g' th', settleClaim s gid g = some t ∧ t.group gid = some g' ∧ mget g'.reserve lane = some (r - k) ∧
      mget g'.threads n = some th' ∧ th'.quota = th.quota + k ∧ th'.wait = .none ∧ th'.pc = th.resume) ∧
  (∀ (f : Fields) (s : State) (e : Env) (en : Enc) (x : Srcs) (th : Thread), Issues (.qget f) f s e en x th →
    (e.s.level e.g.cid = 0 ∨ f.mod.toNat < 2) →
    let th1 := th.release (marked en f)
    exec (.qget f) s = .next (s.setThread e.cur.gid e.cur.t ((th1.deliver en f (.val (BitVec.ofNat 64
      (match f.mod.toNat with
       | 0 => th1.quota | 1 => th1.alloc | 2 => mgetD e.g.reserve th1.lane 0
       | _ => laneFree s e.g.coreN th1.lane)))).advance e.cur)))

/-! ## The emulation window -/

namespace Sys2Proof.Spec

/-- The entries of a window that read the slot itself (R246). -/
def winEntry (w : EmuWindow) (depth : Nat) : Nat → Option Nat
  | 0 => some (w.word.toNat % 2 ^ 32)
  | 1 => some (w.word.toNat / 2 ^ 32)
  | 2 => some (opAt w.word)
  | 3 => some (fieldsAt w.word).mod.toNat
  | 4 => some (fieldsAt w.word).ahd.toNat
  | 5 => some ((fieldsAt w.word).pe.toNat + 2 * (fieldsAt w.word).pn.toNat + 4 * (fieldsAt w.word).pi.toNat + 32 * w.guard.toNat)
  | 6 => some (opBits (fieldsAt w.word).d).toNat
  | 20 => some (w.lits.getD 0 0#32).toNat
  | 21 => some (w.lits.getD 1 0#32).toNat
  | 22 => some (w.lits.getD 2 0#32).toNat
  | 24 => some (w.peers.toNat % 2 ^ 32)
  | 25 => some (w.peers.toNat / 2 ^ 32)
  | 26 => some (w.pc.toNat % 2 ^ 32)
  | 27 => some (w.pc.toNat / 2 ^ 32)
  | 28 => some (w.next.toNat % 2 ^ 32)
  | 29 => some (w.next.toNat / 2 ^ 32)
  | 30 => some (w.rep % 2 ^ 32)
  | 31 => some w.why.toNat
  | 32 => some depth
  | _ => none

/-- The operand field a, b or c of a window's word. -/
def winField (w : EmuWindow) : Nat → Operand
  | 0 => (fieldsAt w.word).a
  | 1 => (fieldsAt w.word).b
  | _ => (fieldsAt w.word).c

/-- The thread once the window's marked sources are released (R248). -/
def winReleased (w : EmuWindow) (th : Thread) : Thread :=
  if w.released then th
  else { th.release w.marks with windows := th.windows.dropLast ++ [{ w with released := true }] }

end Sys2Proof.Spec

/-- R245-R249: a slot with no entry opens a window and sends its thread to `sys.evec`; EWIN reads the window, EWSET
writes a register of its destination, releasing its marked sources once; ERET closes it at its `next`; EFWD closes it
and traps `emulate` at the slot. -/
def Obligations.EmulationWindow : Prop :=
  (∀ (why : BitVec 2) (w : W64) (s : State) (e : Env), envOf s = some e → (e.s.ctx e.g.cid).evec ≠ 0#64 →
    e.th.windows.length < 2 →
    ∃ t th' win, exec (.emulationVector why w) s = .next t ∧ SameOutside s t ∧ t.thread e.cur.gid e.cur.t = some th' ∧
      th'.pc = (e.s.ctx e.g.cid).evec ∧ th'.rep = none ∧ th'.inside = false ∧ th'.parked = some e.cur.inst ∧
      th'.windows = e.th.windows ++ [win] ∧ th'.regs = e.th.flush.regs ∧ th'.uqpos = e.th.uqpos ∧ win.word = w ∧
      win.lits = e.cur.lits ∧ win.l0 = e.th.l0 ∧ win.l1 = e.th.l1 ∧ win.pc = e.cur.pc ∧ win.next = e.cur.next ∧
      win.rep = e.cur.k ∧ win.why = why ∧ win.released = false) ∧
  (∀ (f : Fields) (s : State) (e : Env) (en : Enc) (x : Srcs) (th : Thread) (w : EmuWindow) (v : Nat),
    Issues (.ewin f) f s e en x th → e.th.windows.getLast? = some w →
    (Spec.winEntry w (th.release (marked en f)).windows.length (opBits f.a).toNat = some v ∨
     ∃ k ix r u, (opBits f.a).toNat = 8 + 4 * ix + k ∧ k < 4 ∧ ix < 3 ∧ Spec.winField w ix = .main r ∧
       r.toNat + k ≤ 127 ∧ mget (th.release (marked en f)).marks (r.toNat + k) = none ∧
       mget (th.release (marked en f)).regs (r.toNat + k) = some u ∧ v = u.toNat) →
    exec (.ewin f) s = .next (s.setThread e.cur.gid e.cur.t (((th.release (marked en f)).deliver en f
      (.val (zext64 (BitVec.ofNat 32 v)))).advance e.cur))) ∧
  (∀ (f : Fields) (s : State) (e : Env) (en : Enc) (x : Srcs) (th : Thread) (w : EmuWindow) (d : BitVec 7),
    Issues (.ewset f) f s e en x th → e.th.windows.getLast? = some w → (fieldsAt w.word).d = .main d →
    d.toNat + (opBits f.b).toNat ≤ 127 → (∀ r, r ∈ w.marks → mget th.marks r = none) →
    let o := Operand.main (BitVec.ofNat 7 (d.toNat + (opBits f.b).toNat))
    let th1 := Spec.winReleased w (th.release (marked en f))
    reserveD o 1 th1 = .ok ((), th1) →
    exec (.ewset f) s = .next (s.setThread e.cur.gid e.cur.t ((th1.write o [x.a32]).advance e.cur))) ∧
  (∀ (f : Fields) (s : State) (e : Env) (en : Enc) (x : Srcs) (th : Thread) (w : EmuWindow),
    Issues (.ewsetNext f) f s e en x th → e.th.windows.getLast? = some w →
    exec (.ewsetNext f) s = .next (s.setThread e.cur.gid e.cur.t (Thread.advance { th.release (marked en f) with
      windows := th.windows.dropLast ++ [{ w with next := x.a, nextRep := none }] } e.cur))) ∧
  (∀ (f : Fields) (s : State) (e : Env) (en : Enc) (x : Srcs) (th : Thread) (w : EmuWindow),
    Issues (.eret f) f s e en x th → e.th.windows.getLast? = some w → (∀ r, r ∈ w.marks → mget th.marks r = none) →
    (w.uqVals.isSome ∨ ∀ ix, ix < 3 → Spec.winField w ix ≠ .special 0#7) →
    ∃ th', exec (.eret f) s = .next (s.setThread e.cur.gid e.cur.t th') ∧ th'.pc = w.next &&& 0x0FFFFFFFFFFFFFF8#64 ∧
      th'.rep = w.nextRep ∧ th'.windows = th.windows.dropLast ∧ th'.inside = false ∧
      th'.regs = (if w.released then th.release (marked en f) else (th.release (marked en f)).release w.marks).regs ∧
      th'.opf = th.opf ∧ th'.preds = th.preds ∧ th'.msk = th.msk) ∧
  (∀ (f : Fields) (s : State) (e : Env) (en : Enc) (x : Srcs) (th : Thread) (w : EmuWindow),
    Issues (.efwd f) f s e en x th → e.th.windows.getLast? = some w →
    exec (.efwd f) s = .next (takeTrap (s.setThread e.cur.gid e.cur.t { th.release (marked en f) with
      windows := th.windows.dropLast }) e.cur.gid e.cur.t .emulate w.pc w.here 0#64 (BitVec.ofNat 32 (opAt w.word))
      e.cur.inst))

/-! ## Limit accumulators -/

namespace Sys2Proof.Spec

/-- A limit accumulator as LAINIT makes it (R224). -/
def laFresh (b : W32) (tol : W64) : LimAcc :=
  { dep := b.toNat % 16, ivl := b.toNat / 2 ^ 16, lsq := b.getLsbD 4, tol := tol, sum := 0#64, count := 0#64, hist := [],
    prev := none, status := 0#32 }

/-- A history with one more checkpoint: a full one loses its oldest (R225). -/
def laPushed (a : LimAcc) (v : W64) : List W64 := (if a.dep ≤ a.hist.length then a.hist.drop 1 else a.hist) ++ [v]

end Sys2Proof.Spec

/-- R224, R225: LAINIT makes or frees an accumulator; LAADD adds a term to the sum, counts it, and keeps a checkpoint of
the sum at each multiple of the interval; LACKP keeps one at once, the oldest leaving a full history. -/
def Sys2Proof.Spec.LimitSums : Prop :=
  (∀ (f : Fields) (s : State) (e : Env) (en : Enc) (x : Srcs) (th : Thread), Issues (.lainit f) f s e en x th →
    laCfgOk x.b32 x.c = true → let th1 := th.release (marked en f)
    (x.b32.toNat % 16 = 0 ∨ (mget th1.las (laIx f)).isSome ∨ th1.alloc + 18 ≤ th1.quota) →
    exec (.lainit f) s = .next (s.setThread e.cur.gid e.cur.t (Thread.advance { th1 with
      las := if x.b32.toNat % 16 = 0 then mdel th1.las (laIx f)
        else mset th1.las (laIx f) (Spec.laFresh x.b32 x.c) } e.cur))) ∧
  (∀ (i : Instr) (f : Fields) (s : State) (e : Env) (en : Enc) (x : Srcs) (th : Thread) (a : LimAcc) (y : FV),
    Issues i f s e en x th → mget (th.release (marked en f)).las (laIx f) = some a →
    (i = .laaddF64 f ∧ y = decodeF .f64 x.b.toNat ∨ i = .laaddF32 f ∧ y = decodeF .f32 x.b32.toNat) →
    let old := decodeF .f64 a.sum.toNat
    let v := sumV .rn [old, y]
    let r := finish .f64 .rn v.1 (v.2 || old.isSig || y.isSig)
    let sum : W64 := BitVec.ofNat 64 r.bits
    let n : W64 := if a.count = BitVec.allOnes 64 then a.count else a.count + 1#64
    let h := if a.ivl ≠ 0 ∧ n.toNat % a.ivl = 0 then Spec.laPushed a sum else a.hist
    let a' : LimAcc := { a with sum := sum, count := n, hist := h }
    let th1 : Thread := { th.release (marked en f) with las := mset th.las (laIx f) a' }
    fpTraps th r.flags = false →
    exec i s = .next (s.setThread e.cur.gid e.cur.t ((th1.raiseFlags r.flags).advance e.cur))) ∧
  (∀ (f : Fields) (s : State) (e : Env) (en : Enc) (x : Srcs) (th : Thread) (a : LimAcc),
    Issues (.lackp f) f s e en x th → mget (th.release (marked en f)).las (laIx f) = some a →
    let a' : LimAcc := { a with hist := Spec.laPushed a a.sum }
    exec (.lackp f) s = .next (s.setThread e.cur.gid e.cur.t (Thread.advance { th.release (marked en f) with
      las := mset th.las (laIx f) a' } e.cur)))

/-- R226-R229: LAEST owes its destination the estimate and keeps it with its status; LAGET owes a selected value and
LASTAT the status. With fewer than three checkpoints the estimate is the last of them, or the sum. -/
def Sys2Proof.Spec.LimitEstimates : Prop :=
  (∀ (i : Instr) (f : Fields) (s : State) (e : Env) (en : Enc) (x : Srcs) (th : Thread) (a : LimAcc), Issues i f s e en x th →
    mget (th.release (marked en f)).las (laIx f) = some a →
    let owes (las : AMap LimAcc) (vs : List W32) : Thread :=
      (Thread.owe { th.release (marked en f) with las := las } .la f.ahd.toNat f.d vs).advance e.cur
    let est := a.estimate
    let st := (a.converged est.1).toNat + 2 * a.stagnant.toNat + 4 * est.2.2.toNat + 8 * est.2.1.toNat + 16 * a.hist.length
    let a' : LimAcc := { a with prev := some (BitVec.ofNat 64 est.1), status := BitVec.ofNat 32 st }
    (i = .laest f →
      exec i s = .next (s.setThread e.cur.gid e.cur.t (owes (mset th.las (laIx f) a')
        [BitVec.ofNat 32 est.1, BitVec.ofNat 32 (est.1 / 2 ^ 32)]))) ∧
    (i = .laget f → x.b32.toNat ≤ 11 → ∃ v : W64,
      (x.b32 = 0#32 → v = a.sum) ∧ (x.b32 = 1#32 → v = a.count) ∧ (x.b32 = 10#32 → v = a.prev.getD 0#64) ∧
      (x.b32 = 11#32 → v = a.tol) ∧ (∀ k, x.b32.toNat = 2 + k → k < 8 → v = a.hist.getD k 0#64) ∧
      exec i s = .next (s.setThread e.cur.gid e.cur.t (owes th.las [v.setWidth 32, (v >>> 32).setWidth 32]))) ∧
    (i = .lastat f → exec i s = .next (s.setThread e.cur.gid e.cur.t (owes th.las [a.status])))) ∧
  (∀ a : LimAcc, a.hist.length < 3 → a.estimate = ((a.hist.getLast?.getD a.sum).toNat, true, false))

/-! ## The function store -/

namespace Sys2Proof.Spec

/-- An outstanding result of words for a destination (R69). -/
def owed (k : DrainKind) (f : Fields) (vs : List W32) (ps : List (Nat × Bool)) : Pend :=
  { kind := k, main := (match f.d with | .main i => numbered i.toNat vs | _ => []),
    file := (match f.d with | .opf i => numbered i.toNat vs | _ => []), preds := ps, left := f.ahd.toNat }

/-- A table with one more of its counters (R209): it stops at 2^32 - 1. -/
def counted (t t' : FsTable) (i : Nat) : Prop :=
  ∀ j, j < 9 → t'.ctrs.getD j 0 = if j = i then min (t.ctrs.getD j 0 + 1) 0xFFFFFFFF else t.ctrs.getD j 0

end Sys2Proof.Spec

/-- R212-R214: FCALL of an installed table, in the open level. A hit counts on its record and owes the result, evaluated
there; a miss counts, keeps the call on the store stack and goes to the entry of the function. -/
def Sys2Proof.Spec.StoreCalls : Prop :=
  ∀ (f : Fields) (s : State) (e : Env) (en : Enc) (t : FsTable) (x : List W32),
    AtSlot (.fcall f) f s e en → guardOf f e.th.countWindow = true → s.level e.g.cid = 0 → e.k.cid = e.g.cid →
    (s.fsSlot e.g.cid (unitIx f.b)).table = some t → (∀ r, r ∈ t.recs → r.bad = false) →
    1 ≤ fdDim t.desc → 1 ≤ fdM t.desc → mainIx f.a + fdDim t.desc ≤ 128 → mainIx f.d + fdM t.desc ≤ 128 →
    (∀ fr, fr ∈ e.th.frames → fr.table ≠ unitIx f.b) →
    readRun f.a 0 (fdDim t.desc) e.th.countWindow = .ok (x, e.th.countWindow) →
    (∃ r, f.d = .main r) → reserveD f.d (fdM t.desc) e.th.countWindow = .ok ((), e.th.countWindow) →
    (∀ r, fsSearch t x = some r → ∃ u t', exec (.fcall f) s = .next u ∧
      u.thread e.cur.gid e.cur.t = some ((e.th.countWindow.owe .fs f.ahd.toNat f.d (fsEval t r x)).advance e.cur) ∧
      (u.fsSlot e.g.cid (unitIx f.b)).table = some t' ∧ Spec.counted t t' 0 ∧ t'.desc = t.desc ∧
      (u.fsSlot e.g.cid (unitIx f.b)).gen = (s.fsSlot e.g.cid (unitIx f.b)).gen ∧ u.mem = s.mem ∧ u.kernels = s.kernels) ∧
    (fsSearch t x = none → e.th.frames.length < 4 → ∃ u t' th', exec (.fcall f) s = .next u ∧
      u.thread e.cur.gid e.cur.t = some th' ∧ th'.pc.toNat = fdEntry t.desc ∧ th'.rep = none ∧ th'.inside = false ∧
      th'.frames = ⟨unitIx f.b, (s.fsSlot e.g.cid (unitIx f.b)).gen, mainIx f.d, fdM t.desc, x, e.cur.next, e.cur.nextRep⟩ ::
        e.th.frames ∧
      KeepsRegs (upFrom (mainIx f.d) (fdM t.desc))
        (e.th.countWindow.flushFor (fun p => (upFrom (mainIx f.d) (fdM t.desc)).any p.hits)) th' ∧
      (u.fsSlot e.g.cid (unitIx f.b)).table = some t' ∧ Spec.counted t t' 1 ∧ t'.recs = t.recs ∧ u.mem = s.mem)

/-- R215, R217: FRET leaves the function with its results, the frame gone, and gives the table the evaluation point;
FSPROBE owes a hit's results and a predicate, and counts a probe. -/
def Sys2Proof.Spec.StoreReturns : Prop :=
  (∀ (f : Fields) (s : State) (e : Env) (en : Enc) (fr : StoreFrame) (rest : List StoreFrame) (t : FsTable) (y jac : List W32),
    AtSlot (.fret f) f s e en → guardOf f e.th.countWindow = true → s.level e.g.cid = 0 → e.k.cid = e.g.cid →
    e.th.frames = fr :: rest →
    fr.table = unitIx f.c → 1 ≤ fr.m → 1 ≤ fr.x.length → mainIx f.a + fr.m ≤ 128 → mainIx f.b + fr.m * fr.x.length ≤ 128 →
    readRun f.a 0 fr.m e.th.countWindow = .ok (y, e.th.countWindow) →
    readRun f.b 0 (fr.m * fr.x.length) e.th.countWindow = .ok (jac, e.th.countWindow) →
    reserveD (.main (BitVec.ofNat 7 fr.vd)) fr.m e.th.countWindow = .ok ((), e.th.countWindow) → fr.vd < 128 →
    (s.fsSlot e.g.cid fr.table).table = some t → (∀ r, r ∈ t.recs → r.bad = false) → (s.ctx e.g.cid).ien.getLsbD fr.table = false →
    ∃ u th', exec (.fret f) s = .next u ∧ u.thread e.cur.gid e.cur.t = some th' ∧ th'.pc = fr.ret ∧ th'.rep = fr.rep ∧
      th'.frames = rest ∧ th'.inside = false ∧ (∀ k, k < fr.m → mget th'.regs (fr.vd + k) = y[k]?) ∧ u.mem = s.mem ∧
      (fr.gen = (s.fsSlot e.g.cid fr.table).gen → fr.x.any (fun v => (f32v v).isNan) = false →
        (y ++ jac).all (fun v => (f32v v).isFin) = true →
        (u.fsSlot e.g.cid fr.table).table = some (t.updateEv fr.x y jac).1) ∧
      (fr.gen ≠ (s.fsSlot e.g.cid fr.table).gen → u.ctxs = s.ctxs)) ∧
  (∀ (f : Fields) (s : State) (e : Env) (en : Enc) (x : Srcs) (th : Thread) (t : FsTable) (v : List W32),
    Issues (.fsprobe f) f s e en x th → s.level e.g.cid = 0 → e.k.cid = e.g.cid →
    (s.fsSlot e.g.cid (unitIx f.b)).table = some t → (∀ r, r ∈ t.recs → r.bad = false) →
    1 ≤ fdDim t.desc → 1 ≤ fdM t.desc → mainIx f.a + fdDim t.desc ≤ 128 → mainIx f.d + fdM t.desc ≤ 128 →
    let th1 := th.release (marked en f)
    readRun f.a 0 (fdDim t.desc) th1 = .ok (v, th1) → reserveD f.d (fdM t.desc) th1 = .ok ((), th1) →
    ∃ u t' th', exec (.fsprobe f) s = .next u ∧ u.thread e.cur.gid e.cur.t = some th' ∧ th'.pc = e.cur.next ∧
      th'.pend.getLast? = some (match fsSearch t v with
        | some r => Spec.owed .fs f (fsEval t r v) [(predIx f.c, true)]
        | none => Spec.owed .fs f [] [(predIx f.c, false)]) ∧
      (u.fsSlot e.g.cid (unitIx f.b)).table = some t' ∧ Spec.counted t t' 7 ∧ t'.recs = t.recs ∧ u.mem = s.mem)

/-- R211, R218, R219: FSDESC of a zero descriptor empties its slot and raises its generation, and a passing one installs
an empty table there; FSFLUSH drops the records and counts a flush, FSFLUSH_ALL clears the other counters too; FSSTAT
and FSSTAT_REC owe a word of a table or a record. -/
def Obligations.StoreTables : Prop :=
  (∀ (f : Fields) (s s2 : State) (e : Env) (en : Enc) (x : Srcs) (th : Thread) (bs : List Byte),
    Issues (.fsdesc f) f s e en x th → s.level e.g.cid = 0 →
    (Spec.gaddr x).toNat < 2 ^ 56 → (Spec.gaddr x).toNat % 64 = 0 →
    gRead e e.via 0#2 (vaRange (Spec.gaddr x) 64) none none (s.setThread e.cur.gid e.cur.t (th.release (marked en f))) =
      .ok (bs, s2) → (s2.ctx e.g.cid).tables = (s.ctx e.g.cid).tables →
    (recOf bs = 0#512 → ∃ u, exec (.fsdesc f) s = .next u ∧
      u.fsSlot e.g.cid (unitIx f.c) = ⟨none, (s.fsSlot e.g.cid (unitIx f.c)).gen + 1⟩ ∧ u.mem = s2.mem ∧
      (u.thread e.cur.gid e.cur.t).map (·.pc) = some e.cur.next) ∧
    (∀ rb s3, recOf bs ≠ 0#512 → fdOk (recOf bs) = true →
      gRead e e.via 0#2 (vaRange (BitVec.ofNat 64 (fdRadr (recOf bs))) 64) none none s2 = .ok (rb, s3) →
      (s3.ctx e.g.cid).tables = (s.ctx e.g.cid).tables →
      radOk (recOf bs) (recOf rb) = true → fsRoom s e.k (recOf bs) (unitIx f.c) (e.g.coreN / 64) = true →
      ∃ u t, exec (.fsdesc f) s = .next u ∧
        u.fsSlot e.g.cid (unitIx f.c) = ⟨some t, (s.fsSlot e.g.cid (unitIx f.c)).gen + 1⟩ ∧ t.desc = recOf bs ∧
        t.rad = recOf rb ∧ t.recs = [] ∧ t.next = 1 ∧ t.home = e.g.coreN / 64 ∧ t.incons = false ∧ t.rejected = false ∧
        (∀ j, t.ctrs.getD j 0 = 0) ∧ u.mem = s3.mem)) ∧
  (∀ (i : Instr) (f : Fields) (s : State) (e : Env) (en : Enc) (x : Srcs) (th : Thread) (t : FsTable),
    (i = .fsflush f ∨ i = .fsflushAll f) → Issues i f s e en x th → s.level e.g.cid = 0 → e.k.cid = e.g.cid →
    (s.fsSlot e.g.cid (unitIx f.a)).table = some t →
    ∃ u t', exec i s = .next u ∧ (u.fsSlot e.g.cid (unitIx f.a)).table = some t' ∧ t'.recs = [] ∧ t'.desc = t.desc ∧
      (i = .fsflush f → Spec.counted t t' 8 ∧ t'.incons = t.incons ∧ t'.rejected = t.rejected ∧ t'.next = t.next) ∧
      (i = .fsflushAll f → t'.incons = false ∧ t'.rejected = false ∧ t'.next = 1 ∧ (∀ j, j < 8 → t'.ctrs.getD j 0 = 0) ∧
        t'.ctrs.getD 8 0 = min (t.ctrs.getD 8 0 + 1) 0xFFFFFFFF) ∧
      u.thread e.cur.gid e.cur.t = some ((th.release (marked en f)).advance e.cur) ∧ u.mem = s.mem) ∧
  (∀ (i : Instr) (f : Fields) (s : State) (e : Env) (en : Enc) (x : Srcs) (th : Thread) (t : FsTable) (w : W32),
    Issues i f s e en x th → (seenSlot s e.k (unitIx f.a)).table = some t →
    (i = .fsstat f ∧ (x.b32.toNat ≤ 8 ∧ w = BitVec.ofNat 32 (t.ctrs.getD x.b32.toNat 0) ∨
        x.b32 = 9#32 ∧ w = BitVec.ofNat 32 (t.incons.toNat + 2 * t.rejected.toNat) ∨
        x.b32 = 10#32 ∧ w = BitVec.ofNat 32 t.recs.length ∨ x.b32 = 11#32 ∧ w = BitVec.ofNat 32 (fdCap t.desc)) ∨
     i = .fsstatRec f ∧ x.b32.toNat < 2 ^ 22 ∧ (∀ r, t.recs[x.b32.toNat / 64]? = some r → r.bad = false) ∧
        w = (match t.recs[x.b32.toNat / 64]? with | some r => r.word (fdDim t.desc) (x.b32.toNat % 64) | none => 0#32)) →
    exec i s = .next (s.setThread e.cur.gid e.cur.t
      (((th.release (marked en f)).owe .fs f.ahd.toNat f.d [w]).advance e.cur)))

/-! ## Engines -/

namespace Sys2Proof.Spec

/-- The current thread issued operation `n` of engine context `c` of its group: the context has issued it and the
machine holds it, not yet performed. -/
def issued (e : Env) (t : State) (c n op : Nat) (kind : EngKind) : Prop :=
  ((t.group e.cur.gid).map (fun g => (g.engCtx c).issued)) = some n ∧
    ∃ o, mget t.ops op = some o ∧ o.kind = kind ∧ o.num = n ∧ o.ectx = c ∧ o.gid = some e.cur.gid ∧
      o.thread = some e.cur.t ∧ o.done = [] ∧ o.err = none ∧ o.stall = none

/-- The current thread goes on to the next slot with one more outstanding result. -/
def goesOwed (e : Env) (t : State) (p : Pend) : Prop :=
  ∃ th', t.thread e.cur.gid e.cur.t = some th' ∧ th'.pc = e.cur.next ∧ th'.pend.getLast? = some p

/-- The words of a 64-bit number. -/
def pairOf (n : Nat) : List W32 := [BitVec.ofNat 32 n, BitVec.ofNat 32 (n / 2 ^ 32)]

end Sys2Proof.Spec

/-- R72, R172, R177, R182, R191: the instructions that issue an engine operation whose checks pass take the next number
of its context, hold the operation for the engine, and owe their destination that number. -/
def Obligations.EngineIssue : Prop :=
  ∀ (i : Instr) (f : Fields) (s : State) (e : Env) (en : Enc) (x : Srcs) (th : Thread), Issues i f s e en x th →
    (∀ l c, i = .cpkick f → 1 ≤ x.c32.toNat → x.c32.toNat ≤ 16 → Spec.saddr x % 64 = 0 →
      SpadOk e th (Spec.saddr x) (64 * x.c32.toNat) false none →
      kickReqs e.k e.g (recsOf (e.g.spGet (Spec.saddr x) (64 * x.c32.toNat)) x.c32.toNat) = some l →
      (l.head?.map (fun q => cqCtx q.1)) = some c →
      let n := (e.g.engCtx c).issued + x.c32.toNat
      ∃ t r, exec i s = .next t ∧ l.getLast? = some r ∧
        Spec.issued e t c n (s.nextOp + x.c32.toNat - 1) (.copy r.1 r.2.1 r.2.2) ∧
        t.nextOp = s.nextOp + x.c32.toNat ∧ Spec.goesOwed e t (Spec.owed .cp f (Spec.pairOf n) []) ∧ t.mem = s.mem) ∧
    (i = .gath f → let r := e.g.slot (unitIx f.a)
      r ≠ 0#512 → x.b32.toNat < trExt r 1 * trExt r 2 * trExt r 3 → x.c32.toNat % fmtAlign (trFmt r) = 0 →
      spOk e.k x.c32.toNat ((trExt r 0 * fmtBits (trFmt r) + 7) / 8) = true →
      let n := (e.g.engCtx 6).issued + 1
      ∃ t, exec i s = .next t ∧ Spec.issued e t 6 n s.nextOp (.gath r x.b32.toNat x.c32.toNat) ∧
        Spec.goesOwed e t (Spec.owed .ld f (Spec.pairOf n) []) ∧ t.mem = s.mem) ∧
    (∀ j c rank, i = .coll f → Spec.saddr x % 64 = 0 → SpadOk e th (Spec.saddr x) 64 false none →
      let d := recOf (e.g.spGet (Spec.saddr x) 64)
      cdOk d = true → pickComm s e.g.cid (cdComm d) = .entry j c →
      mget (s.part (vfOf e.g.cid)).comms j = some c → groupRank c e.g.grp = some rank →
      rootOk s e.g.cid d = true →
      let n := (e.g.engCtx 7).issued + 1
      ∃ t, exec i s = .next t ∧ Spec.issued e t 7 n s.nextOp (.coll d rank (mgetD c.calls rank 0 + 1)) ∧
        Spec.goesOwed e t (Spec.owed .alu f (Spec.pairOf n) []) ∧ t.mem = s.mem) ∧
    (i = .tld f → let r := e.g.slot (unitIx f.b)
      transferOk r (e.g.tile (unitIx f.a)) (x.c.toNat % 2 ^ 32) (x.c.toNat / 2 ^ 32) = true →
      tileWritable s e.cur.gid e.g (unitIx f.a) = .ok () →
      let n := (e.g.engCtx (f.mod.toNat % 4)).issued + 1
      ∃ t, exec i s = .next t ∧
        Spec.issued e t (f.mod.toNat % 4) n s.nextOp (.tld (unitIx f.a) r (x.c.toNat % 2 ^ 32) (x.c.toNat / 2 ^ 32)) ∧
        Spec.goesOwed e t (Spec.owed .mx f (Spec.pairOf n) []) ∧ t.mem = s.mem) ∧
    (i = .tst f → let r := e.g.slot (unitIx f.b)
      transferOk r (e.g.tile (unitIx f.a)) (x.c.toNat % 2 ^ 32) (x.c.toNat / 2 ^ 32) = true →
      tileReadable s e.cur.gid (unitIx f.a) = .ok () →
      let n := (e.g.engCtx (f.mod.toNat % 4)).issued + 1
      ∃ t, exec i s = .next t ∧
        Spec.issued e t (f.mod.toNat % 4) n s.nextOp
          (.tst (unitIx f.a) r (x.c.toNat % 2 ^ 32) (x.c.toNat / 2 ^ 32) (e.g.tile (unitIx f.a))) ∧
        Spec.goesOwed e t (Spec.owed .mx f (Spec.pairOf n) []) ∧ t.mem = s.mem) ∧
    (i = .ttask f → Spec.saddr x % 64 = 0 → SpadOk e th (Spec.saddr x) 64 false none →
      let r := recOf (e.g.spGet (Spec.saddr x) 64)
      let a := e.g.slot (tkAslot r)
      let w := e.g.slot (tkWslot r)
      let c := e.g.slot (tkCslot r)
      taskOk e.k r a w c = true → s.gongPending (e.g.coreN / 64) < 4096 →
      let n := (e.g.engCtx (4 + tkCtx r)).issued + 1
      ∃ t, exec i s = .next t ∧ Spec.issued e t (4 + tkCtx r) n s.nextOp (.task r a w c none) ∧
        (t.die (e.g.coreN / 64)).gong = (s.die (e.g.coreN / 64)).gong ++
          [GongEntry.fresh (.task s.nextOp) e.g.cid e.k.prio.toNat] ∧
        Spec.goesOwed e t (Spec.owed .alu f (Spec.pairOf n) []) ∧ t.mem = s.mem)

/-- R178-R180, R183, R192: the instructions that act on their group's memories at once. NBPF has no architectural
effect; ADCL owes the sum of its four table entries and its addend, rounded once; TOPK owes whether its pair entered its
list; TSSET and TSGET move a record between a slot and the scratchpad; TZERO, TREAD and TWRITE act on a tile. -/
def Obligations.GroupMemories : Prop :=
  ∀ (i : Instr) (f : Fields) (s : State) (e : Env) (en : Enc) (x : Srcs) (th : Thread), Issues i f s e en x th →
    let th1 := th.release (marked en f)
    (i = .nbpf f → exec i s = .next (s.setThread e.cur.gid e.cur.t (th1.advance e.cur))) ∧
    (i = .adcl f → let w := if f.mod = 0#4 then 4 else 2
      let at' (q : Nat) : Nat := x.b32.toNat + w * (256 * q + x.a32.toNat / 256 ^ q % 256)
      let vs := decodeF .f32 x.c32.toNat ::
        [0, 1, 2, 3].map (fun q => decodeF (if f.mod = 0#4 then .f32 else .f16) (Spec.numOf (e.g.spGet (at' q) w)))
      let v := sumV .rn vs
      let r := finish .f32 .rn v.1 (v.2 || vs.any FV.isSig)
      x.b32.toNat % w = 0 → spOk e.k x.b32.toNat (1024 * w) = true → (∀ q, q < 4 → SpadOk e th (at' q) w false none) →
      fpTraps th r.flags = false →
      ∃ t, exec i s = .next t ∧ Spec.goesOwed e t (Spec.owed .sp f [BitVec.ofNat 32 r.bits] []) ∧
        ((t.thread e.cur.gid e.cur.t).map (·.fflags)) = some (th.fflags ||| r.flags) ∧
        ((t.group e.cur.gid).map (·.spad)) = some e.g.spad ∧ SameOutside s t) ∧
    (i = .topk f → (s.level e.g.cid = 0 ∨ f.d = .special 3#7) → let a := x.a32.toNat
      let k := Spec.numOf (e.g.spGet a 4)
      let n := Spec.numOf (e.g.spGet (a + 4) 4)
      a % 8 = 0 → 1 ≤ k → k ≤ 256 → n ≤ k → SpadOk e th a (8 + 8 * k) false (some 1#3) →
      SpadOk e th a (8 + 8 * k) true (some 1#3) →
      let l := topkInsert k (topkEntries (e.g.spGet (a + 8) (8 * n)) n) x.b32 x.c32
      ∃ t g, exec i s = .next t ∧ SameOutside s t ∧ t.group e.cur.gid = some g ∧
        Spec.goesOwed e t (Spec.owed .sp f [if l.isSome then 1#32 else 0#32] []) ∧
        (let out := match l with
          | some l => Spec.bytesOf 4 k ++ Spec.bytesOf 4 l.length ++
              l.flatMap (fun y => Spec.bytesOf 4 y.1.toNat ++ Spec.bytesOf 4 y.2.toNat)
          | none => []
         Spec.spStored e.g g a out)) ∧
    (i = .tsset f → Spec.saddr x % 64 = 0 → SpadOk e th (Spec.saddr x) 64 false none →
      let r := recOf (e.g.spGet (Spec.saddr x) 64)
      (r = 0#512 ∨ trOk r = true) →
      ∃ t g, exec i s = .next t ∧ SameOutside s t ∧ t.group e.cur.gid = some g ∧ (msorted e.g.slots = true → g.slot (unitIx f.c) = r) ∧
        (∀ m, m ≠ unitIx f.c → g.slot m = e.g.slot m) ∧ g.spad = e.g.spad ∧
        ((t.thread e.cur.gid e.cur.t).map (·.pc)) = some e.cur.next) ∧
    (i = .tsget f → Spec.saddr x % 64 = 0 → SpadOk e th (Spec.saddr x) 64 true none →
      ∃ t g, exec i s = .next t ∧ SameOutside s t ∧ t.group e.cur.gid = some g ∧
        Spec.spStored e.g g (Spec.saddr x) (Spec.bytesOf 64 (e.g.slot (unitIx f.c)).toNat) ∧
        g.slots = e.g.slots ∧ mget g.threads e.cur.t = some (th1.advance e.cur)) ∧
    (i = .tzero f → tileWritable s e.cur.gid e.g (unitIx f.a) = .ok () →
      ∃ t g, exec i s = .next t ∧ SameOutside s t ∧ t.group e.cur.gid = some g ∧ (g.tile (unitIx f.a)).area = [] ∧
        (∀ q, q < 512 → mget (g.tile (unitIx f.a)).scale q = some 0x0038007F#32) ∧
        (g.tile (unitIx f.a)).tc = (e.g.tile (unitIx f.a)).tc ∧ (∀ m, m ≠ unitIx f.a → g.tile m = e.g.tile m) ∧
        mget g.threads e.cur.t = some (th1.advance e.cur)) ∧
    (i = .tread f → x.b32.toNat < (if f.mod = 0#4 then 2048 else 512) → tileReadable s e.cur.gid (unitIx f.a) = .ok () →
      let t := e.g.tile (unitIx f.a)
      exec i s = .next (s.setThread e.cur.gid e.cur.t ((th1.deliver en f (.val (zext64
        (if f.mod = 0#4 then BitVec.ofNat 32 (Spec.numOf (t.area.getN (4 * x.b32.toNat) 4))
         else mgetD t.scale x.b32.toNat 0#32)))).advance e.cur))) ∧
    (i = .twrite f → x.b32.toNat < (if f.mod = 0#4 then 2048 else 512) → tileWritable s e.cur.gid e.g (unitIx f.a) = .ok () →
      ∃ t g, exec i s = .next t ∧ SameOutside s t ∧ t.group e.cur.gid = some g ∧
        (f.mod = 0#4 → Stored (e.g.tile (unitIx f.a)).area (g.tile (unitIx f.a)).area (upFrom (4 * x.b32.toNat) 4)
            (Spec.bytesOf 4 x.c32.toNat) ∧ (g.tile (unitIx f.a)).scale = (e.g.tile (unitIx f.a)).scale) ∧
        (f.mod ≠ 0#4 → (g.tile (unitIx f.a)).area = (e.g.tile (unitIx f.a)).area ∧
          (msorted (e.g.tile (unitIx f.a)).scale = true → mgetD (g.tile (unitIx f.a)).scale x.b32.toNat 0#32 = x.c32)) ∧
        (∀ m, m ≠ unitIx f.a → g.tile m = e.g.tile m) ∧ mget g.threads e.cur.t = some (th1.advance e.cur))

/-! ## The matrix engine -/

/-- R194, R201: a matrix collective's thread arrives with the operands it read and waits outside its issue group. Once
every member of its class waits there and the checks pass, the instance does what its entry says (MatrixInstances), and
every member goes on past the slot. MWAIT of a batch that is complete clears its thread's marks of the batches up to it
and goes on. -/
def Sys2Proof.Spec.MatrixArrivals : Prop :=
  (∀ (i : Instr) (f : Fields) (o : Operand) (s : State) (e : Env) (en : Enc) (x : Srcs) (pops : Nat),
    (i = .mldw f ∧ o = f.c ∨ i = .mmaa f ∧ o = f.c ∨ i = .mscale f ∧ o = f.c ∨ i = .mscaleClr f ∧ o = f.c ∨
      i = .mcommit f ∧ o = f.a) → (unitIx o = 4 ∨ unitIx o = 5) → Arrives i f s e en x pops →
    let th := e.th.countWindow.waiting e.cur (.coll i x.a x.b x.c true) (marked en f) pops
    let t := s.setThread e.cur.gid e.cur.t th
    exec i s = .next t ∧
    (∀ g v, e.th.live = true → msorted e.g.threads = true → settleColl s e.cur.gid e.g = none →
      t.group e.cur.gid = some g →
      let cls := collMates t g th
      (∀ n w, n ∈ cls → mget g.threads n = some w → w.pc = th.pc ∧ w.repNo = th.repNo ∧ ∃ a b c gd, w.wait = .coll i a b c gd) →
      mxInstance t e.cur.gid e.th.sg g i (Spec.peers g (t.setSize g th.pc) cls) = .done v [] →
      ∃ u, settleColl t e.cur.gid g = some u ∧ u.mem = v.mem ∧ u.mxops = v.mxops ∧
        ∀ n w, n ∈ cls → v.thread e.cur.gid n = some w → u.thread e.cur.gid n = some (w.wake (readyNow t g)))) ∧
  (∀ (f : Fields) (s : State) (e : Env) (en : Enc) (x : Srcs) (th : Thread) (m : Nat), Issues (.mwait f) f s e en x th →
    unitIx f.a = 4 + m → m < 2 → x.b.toNat ≤ (e.g.engCtx (4 + m)).tl → x.b.toNat ≤ (e.g.engCtx (4 + m)).issued →
    fpTraps th (mxFlags s e.cur.gid m x.b.toNat e.cur.t) = false →
    ∃ t th', exec (.mwait f) s = .next t ∧ t.thread e.cur.gid e.cur.t = some th' ∧ th'.pc = e.cur.next ∧
      th'.inside = false ∧ th'.fflags = th.fflags ||| mxFlags s e.cur.gid m x.b.toNat e.cur.t ∧
      th'.regs = (th.release (marked en f)).regs ∧
      (∀ r k, (r, k) ∈ th'.marks ↔ (r, k) ∈ th.marks ∧ ¬ (k.mx = m ∧ ∃ b, k.batch = some b ∧ b ≤ x.b.toNat)) ∧ t.mem = s.mem)

/-- R195, R197-R201: what the complete instance of a matrix collective comes to, once its checks pass: MLDW, MSCALE and
MMAA append an operation to the open batch of their context, and MMAA marks its members' accumulators in flight; MCOMMIT
closes the batch under the context's next number. -/
def Sys2Proof.Spec.MatrixInstances : Prop :=
  (∀ (s : State) (gid sg : Nat) (g : Group) (f : Fields) (peers : List Nat), s.group gid = some g →
    let c := unitIx f.c - 4
    let t := g.tile (unitIx f.a)
    ownerOk s gid g c sg = true → t.en = true → t.nrows ≤ 128 → mldwFits t.fmt.toNat t.ncols = true →
    ∃ u g' op, mldwInstance s gid sg g f peers = .done u [] ∧ u.group gid = some g' ∧
      (g'.mxCtx c).latchCfg = some (t.fmt.toNat, t.nrows, t.ncols) ∧ mget u.mxops s.nextOp = some op ∧
      op.kind = .mldw (unitIx f.a) ∧ op.batch = none ∧ op.stage = .requested ∧ op.mx = c ∧
      (u.core g.coreN).mxq = (s.core g.coreN).mxq ++ [s.nextOp] ∧ u.mem = s.mem) ∧
  (∀ (s : State) (gid sg : Nat) (g : Group) (f : Fields) (peers : List Nat), s.group gid = some g →
    let c := unitIx f.c - 4
    ownerOk s gid g c sg = true →
    ∃ u op, mscaleClrInstance s gid sg g f peers = .done u [] ∧ mget u.mxops s.nextOp = some op ∧ op.kind = .mscale none ∧
      op.batch = none ∧ op.mx = c ∧ (u.core g.coreN).mxq = (s.core g.coreN).mxq ++ [s.nextOp]) ∧
  (∀ (s : State) (gid sg : Nat) (g : Group) (k : Kernel) (f : Fields) (p : Arr) (st : MmaaStep) (th : Thread),
    s.group gid = some g → mget g.threads p.t = some th → mmaaShape s gid sg g k f p.b = some st →
    mmaaMemberFault th (unitIx f.c - 4) st = none →
    ∃ u th' op, mmaaInstance s gid sg g k f [p] = .done u [] ∧ u.thread gid p.t = some th' ∧
      (∀ r, st.d ≤ r → r < st.d + st.rg → mget th'.marks r = some ⟨unitIx f.c - 4, none, st.d, st.rg⟩ ∧
        (mget th'.regs r).isSome = true) ∧
      (∀ r, (r < st.d ∨ st.d + st.rg ≤ r) → mget th'.marks r = mget th.marks r) ∧
      mget u.mxops s.nextOp = some op ∧ op.kind = .mmaa { st with peers := [p.t] } ∧ op.batch = none) ∧
  (∀ (s : State) (gid sg : Nat) (g : Group) (f : Fields) (ps : List Arr), s.group gid = some g →
    let c := unitIx f.a - 4
    ownerOk s gid g c sg = true →
    ∃ u g', mcommitInstance s gid sg g f ps = (.done u [], (g.engCtx (4 + c)).issued + 1) ∧ u.group gid = some g' ∧
      (g'.engCtx (4 + c)).issued = (g.engCtx (4 + c)).issued + 1 ∧
      (∀ n o, mget s.mxops n = some o → o.gid = gid → o.mx = c → o.batch = none →
        mget u.mxops n = some { o with batch := some ((g.engCtx (4 + c)).issued + 1) }))

/-! ## Events of the thread stream -/

/-- R54, R59, R69, R242, R339, R416: the events of a thread's stream. CLAUSE_ENTRY puts its thread inside the clause
with invalid latches; RESULT_RETURN writes the oldest result whose window is over; HANDLER_OVERRUN stops a thread whose
budget is spent; HELD_ACCESS_PERFORM lets a held access be made again; ISSUE_GROUP_FORM gives a free port to a class
that no other goes before, and ISSUE_PORT_YIELD takes the port from an issue group between two slots, the next of which
would take it past 64 issue cycles; the group stays formed. -/
def Obligations.ThreadEvents : Prop :=
  (∀ (s s1 s2 : State) (e : Env) (h : W64) (ws : List W64) (slots : List Bool), envOf s = some e →
    fetchWord s e.g.coreN e.g.cid (pcHead e.th.pc) = .ok (h, s1) →
    fetchWords s1 e.g.coreN e.g.cid (pcHead e.th.pc + 8#64) (hdCnt h + 1) = .ok (ws, s2) →
    s2.thread e.cur.gid e.cur.t = some e.th →
    clauseSlots (decodeVia (s2.bankOn (e.g.coreN / 64) e.g.cid)) h ws = some slots →
    slots.getD (pcSlot e.th.pc) false = true → drained s e.cur.gid e.cur.t (hdHz h) = true →
    (hdCv h = false ∨ pcSlot e.th.pc ≠ 0 ∨ e.th.cvDone = true ∨ e.g.innermost e.th (hdJid h) = none) →
    exec .clauseEntry s = .next (s2.setThread e.cur.gid e.cur.t { e.th.flushFor (Pend.drainedBy (hdHz h)) with
      inside := true, l0 := none, l1 := none })) ∧
  (∀ (gid n : Nat) (s : State) (g : Group) (th : Thread) (a b : List Pend) (p : Pend), s.group gid = some g →
    mget g.threads n = some th → th.pend = a ++ p :: b → p.left = 0 → (∀ q, q ∈ a → q.left ≠ 0) →
    ∃ t th', exec (.resultReturn gid n) s = .next t ∧ SameOutside s t ∧ t.thread gid n = some th' ∧ th'.pend = a ++ b ∧
      (∀ r v, p.main = [(r, v)] → mget th'.regs r = some v) ∧ (∀ r v, p.file = [(r, v)] → mget th'.opf r = some v) ∧
      (∀ r, p.hits r = false → mget th'.regs r = mget th.regs r) ∧ (p.preds = [] → th'.preds = th.preds) ∧ th'.pc = th.pc) ∧
  (∀ (gid n : Nat) (s : State) (g : Group) (th : Thread), s.group gid = some g → mget g.threads n = some th →
    th.live = true → th.msk = true → (s.ctx g.cid).hbudget ≠ 0#32 →
    (s.ctx g.cid).hbudget.toNat ≤ th.hcount.toNat → (∀ c q, th.wait ≠ .stop c q) → th.wait.arrived = false →
    ∃ t th', exec (.handlerOverrun gid n) s = .next t ∧ t.thread gid n = some th' ∧
      th'.wait = .stop .handlerOverrun ((s.ctx g.cid).fqSeq + 1) ∧ th'.pc = th.pc ∧ th'.inside = false ∧
      th'.regs = th.flush.regs ∧ (t.ctx g.cid).fqSeq = (s.ctx g.cid).fqSeq + 1 ∧
      (t.ctx g.cid).stops = (s.ctx g.cid).stops ++ [((s.ctx g.cid).fqSeq + 1, gid, n)]) ∧
  (∀ (gid n : Nat) (s : State) (g : Group) (th : Thread), s.group gid = some g → mget g.threads n = some th →
    th.wait = .held →
    exec (.heldAccessPerform gid n) s = .next (s.setThread gid n (th.again (readyNow s g)))) ∧
  (∀ (core : Nat) (s : State), (s.core core).port = none → coreCands s (s.core core) ≠ [] →
    ∃ t k, exec (.issueGroupForm core) s = .next t ∧ k ∈ coreCands s (s.core core) ∧ (t.core core).port = some k.ig ∧
      (∀ c, c ∈ coreCands s (s.core core) → c.before k = false) ∧ t.nextInst = s.nextInst + 1 ∧ t.groups = s.groups ∧
      t.mem = s.mem) ∧
  (∀ (core n : Nat) (s s1 : State) (ig : IssueGroup) (g : Group) (th : Thread) (sl : SlotAt),
    (s.core core).port = some ig → ig.members.head? = some n → s.thread ig.gid n = some th → s.group ig.gid = some g →
    slotAt s core g.cid th.pc th.rep = .ok (sl, s1) →
    (ig.todo = [] → 64 < ig.cycles + issueCost sl.word → exec (.issuePortYield core) s = .next (s.setCore core { s.core core with
      port := none, yielded := (s.core core).yielded ++ [{ ig with since := (s.core core).cycle.toNat, pc := th.pc }] })) ∧
    ((ig.todo ≠ [] ∨ ig.cycles + issueCost sl.word ≤ 64) → exec (.issuePortYield core) s = .next s))

/-! ## The hart -/

namespace Sys2Proof.Spec

/-- The integer registers of a hart: x0 reads zero and discards writes. -/
def xreg (h : Hart) (r : BitVec 5) : W64 := if r = 0#5 then 0#64 else mgetD h.x r.toNat 0#64

/-- The hart wrote `v` to rd and nothing to another integer register, and goes on at `pc`. -/
def hartSets (h h' : Hart) (rd : BitVec 5) (v pc : W64) : Prop :=
  xreg h' rd = (if rd = 0#5 then 0#64 else v) ∧ (∀ r, r ≠ rd → xreg h' r = xreg h r) ∧ h'.f = h.f ∧ h'.fcsr = h.fcsr ∧
    h'.pc = pc ∧ h'.status = .running

/-- Integer operations of RV64I (log 15). -/
def rvInt (o : RvAlu) (a b : W64) : W64 :=
  match o with
  | .add => BitVec.ofNat 64 (a.toNat + b.toNat)
  | .sub => BitVec.ofInt 64 (a.toNat - b.toNat)
  | .sll => BitVec.ofNat 64 (a.toNat * 2 ^ (b.toNat % 64))
  | .slt => BitVec.ofNat 64 (decide (a.toInt < b.toInt)).toNat
  | .sltu => BitVec.ofNat 64 (decide (a.toNat < b.toNat)).toNat
  | .xor => a ^^^ b
  | .srl => BitVec.ofNat 64 (a.toNat / 2 ^ (b.toNat % 64))
  | .sra => BitVec.ofInt 64 (a.toInt / 2 ^ (b.toNat % 64))
  | .or => a ||| b
  | .and => a &&& b

/-- A 32-bit integer as a register holds it: sign-extended. -/
def rvWord (v : Int) : W64 := BitVec.ofInt 64 (BitVec.ofInt 32 v).toInt

/-- The 32-bit operations of RV64I (log 15). -/
def rvIntW (o : RvAlu) (a b : W64) : Option W64 :=
  let x : W32 := BitVec.ofNat 32 a.toNat
  let k := b.toNat % 32
  match o with
  | .add => some (rvWord (a.toNat + b.toNat))
  | .sub => some (rvWord (a.toNat - b.toNat))
  | .sll => some (rvWord (a.toNat * 2 ^ k : Nat))
  | .srl => some (rvWord (x.toNat / 2 ^ k : Nat))
  | .sra => some (rvWord (x.toInt / 2 ^ k))
  | _ => none

/-- The 32-bit multiplication and division of RV64M (log 15). -/
def rvMulDivW (o : RvMul) (a b : W64) : Option W64 :=
  let x : W32 := BitVec.ofNat 32 a.toNat
  let y : W32 := BitVec.ofNat 32 b.toNat
  match o with
  | .mul => some (rvWord (a.toNat * b.toNat : Nat))
  | .div => some (if y = 0#32 then BitVec.allOnes 64 else rvWord (x.toInt.tdiv y.toInt))
  | .divu => some (if y = 0#32 then BitVec.allOnes 64 else rvWord (x.toNat / y.toNat : Nat))
  | .rem => some (if y = 0#32 then rvWord x.toInt else rvWord (x.toInt.tmod y.toInt))
  | .remu => some (if y = 0#32 then rvWord x.toInt else rvWord (x.toNat % y.toNat : Nat))
  | _ => none

/-- Multiplication and division of RV64M (log 15). -/
def rvMulDiv (o : RvMul) (a b : W64) : W64 :=
  match o with
  | .mul => BitVec.ofInt 64 (a.toInt * b.toInt)
  | .mulh => BitVec.ofInt 64 (a.toInt * b.toInt / 2 ^ 64)
  | .mulhsu => BitVec.ofInt 64 (a.toInt * (b.toNat : Int) / 2 ^ 64)
  | .mulhu => BitVec.ofNat 64 (a.toNat * b.toNat / 2 ^ 64)
  | .div => if b = 0#64 then BitVec.allOnes 64 else BitVec.ofInt 64 (a.toInt.tdiv b.toInt)
  | .divu => if b = 0#64 then BitVec.allOnes 64 else BitVec.ofNat 64 (a.toNat / b.toNat)
  | .rem => if b = 0#64 then a else BitVec.ofInt 64 (a.toInt.tmod b.toInt)
  | .remu => if b = 0#64 then a else BitVec.ofNat 64 (a.toNat % b.toNat)

/-- The ordinary instructions that write one integer register from registers, an immediate and the program counter: the
register, the value and the next program counter. -/
def rvResult (h : Hart) (len : Nat) : RvInstr → Option (BitVec 5 × W64 × W64)
  | .lui rd imm => some (rd, imm, h.pc + BitVec.ofNat 64 len)
  | .auipc rd imm => some (rd, h.pc + imm, h.pc + BitVec.ofNat 64 len)
  | .jal rd off => some (rd, h.pc + BitVec.ofNat 64 len, h.pc + off)
  | .jalr rd rs1 off => some (rd, h.pc + BitVec.ofNat 64 len, (xreg h rs1 + off) &&& 0xFFFFFFFFFFFFFFFE#64)
  | .branch c a b off => some (0#5, 0#64, if rvTaken c (xreg h a) (xreg h b) then h.pc + off else h.pc + BitVec.ofNat 64 len)
  | .opImm o rd rs1 imm => some (rd, rvInt o (xreg h rs1) imm, h.pc + BitVec.ofNat 64 len)
  | .op o rd rs1 rs2 => some (rd, rvInt o (xreg h rs1) (xreg h rs2), h.pc + BitVec.ofNat 64 len)
  | .mulDiv o rd rs1 rs2 => some (rd, rvMulDiv o (xreg h rs1) (xreg h rs2), h.pc + BitVec.ofNat 64 len)
  | .opImmW o rd rs1 imm => (rvIntW o (xreg h rs1) imm).map (fun v => (rd, v, h.pc + BitVec.ofNat 64 len))
  | .opW o rd rs1 rs2 => (rvIntW o (xreg h rs1) (xreg h rs2)).map (fun v => (rd, v, h.pc + BitVec.ofNat 64 len))
  | .mulDivW o rd rs1 rs2 => (rvMulDivW o (xreg h rs1) (xreg h rs2)).map (fun v => (rd, v, h.pc + BitVec.ofNat 64 len))
  | .fenceI => some (0#5, 0#64, h.pc + BitVec.ofNat 64 len)
  | _ => none

end Sys2Proof.Spec

/-- R251: the hart's integer, jump and branch instructions write their register and go on; FENCE goes on; ECALL ends the
stream once the hart's engine operations are complete. -/
def Sys2Proof.Spec.HartIntegers : Prop :=
  (∀ (len : BitVec 3) (i : RvInstr) (s : State) (e : HEnv) (rd : BitVec 5) (v pc : W64), henvOf s = some e →
    (Spec.rvResult e.h len.toNat i = some (rd, v, pc) ∨
      (∃ p q, i = .fence p q) ∧ rd = 0#5 ∧ v = 0#64 ∧ pc = e.h.pc + BitVec.ofNat 64 len.toNat) →
    ∃ t g, exec (.hartRv64gcInstruction len i) s = .next t ∧ t.group e.gid = some g ∧ Spec.hartSets e.h g.hart rd v pc ∧
      { g with hart := e.g.hart } = e.g ∧ t.mem = s.mem ∧ t.ctxs = s.ctxs ∧ t.ops = s.ops) ∧
  (∀ (s : State) (e : HEnv), henvOf s = some e →
    (∀ n o, (n, o) ∈ s.ops → o.gid = some e.gid → o.thread ≠ none) →
    ∃ t g, exec .hartEcall s = .next t ∧ t.group e.gid = some g ∧ g.hart.status = .ended ∧ g.hart.x = e.h.x ∧
      g.hart.pc = e.h.pc ∧ g.threads = e.g.threads ∧ t.mem = s.mem)

namespace Sys2Proof.Spec

/-- An access of the hart to `n` bytes of global memory that goes through, in the open level: its bytes translate and
have their tokens, giving `pas` and the machine `s2`; the stamps that it meets pass their check (R426), and it races
with no earlier access. -/
structure HartOk (s : State) (e : HEnv) (acc : BitVec 2) (a : W64) (n : Nat) (wr : Bool) (atomic : Option (BitVec 3))
    (pas : List Nat) (s2 : State) : Prop where
  atOpen : s.level e.g.cid = 0 ∧ s2.level e.g.cid = 0
  xl     : ∃ s1, xlateBytes s.bumpInst (.core e.g.coreN) e.g.cid acc (vaRange a n) = .ok (pas, s1) ∧
             (s1.sendOut e.g.cid acc pas).map (fun s => s.arrive e.g.cid (vaRange a n) pas) = some s2
  sound  : s2.stampBad pas = none
  mine   : s2.group e.gid = some e.g
  quiet  : findRace s2.stamps e.h.hb (e.h.hb.stamp wr atomic false e.place) pas = none

/-- Every byte that the hart reads passes its check (R428). -/
def hartSound (s2 : State) (e : HEnv) (pas : List Nat) : Prop :=
  ∀ pa, pa ∈ pas → s2.unitBad (s2.ctx e.g.cid).keyId pa = false

/-- What a load of a width code writes: codes below 4 extend the sign. -/
def rvLoaded (w : BitVec 3) (v : Nat) : W64 :=
  if w.toNat < 3 then BitVec.ofInt 64 (BitVec.ofNat (8 * 2 ^ w.toNat) v).toInt else BitVec.ofNat 64 v

/-- What an AMO writes, on `w` bits. -/
def rvAmo (o : RvAmo) (w old c : Nat) : Nat :=
  match o with
  | .swap => redInt w 7 old c | .add => redInt w 0 old c | .min => redInt w 1 old c | .max => redInt w 2 old c
  | .minu => redInt w 3 old c | .maxu => redInt w 4 old c | .and => redInt w 5 old c | .or => redInt w 6 old c
  | .xor => (BitVec.ofNat w old ^^^ BitVec.ofNat w c).toNat

/-- The bytes of an access, and how it reads in an integer register: words are sign-extended. -/
def wide (dbl : Bool) : Nat := if dbl then 8 else 4
def rvSigned (dbl : Bool) (v : Nat) : W64 := if dbl then BitVec.ofNat 64 v else rvWord v

/-- A floating-point register, and a single as it is boxed. -/
def freg (h : Hart) (r : BitVec 5) : W64 := mgetD h.f r.toNat 0#64
def boxed (dbl : Bool) (v : Nat) : W64 := if dbl then BitVec.ofNat 64 v else BitVec.ofNat 64 (0xFFFFFFFF00000000 + v % 2 ^ 32)

/-- The hart wrote `v` to floating-point register rd, raised flags, and goes on at `pc`. -/
def hartSetsF (h h' : Hart) (rd : BitVec 5) (v : W64) (fl : BitVec 8) (pc : W64) : Prop :=
  freg h' rd = v ∧ (∀ r, r ≠ rd → freg h' r = freg h r) ∧ h'.x = h.x ∧ h'.fcsr = h.fcsr ||| fl ∧ h'.pc = pc ∧
    h'.status = .running

/-- Nothing of the group but its hart has changed. -/
def onlyHart (e : HEnv) (g : Group) : Prop := { g with hart := e.g.hart } = e.g

/-- A step of an ordinary instruction of the hart: its group, and what the instruction leaves. -/
def hartDoes (len : BitVec 3) (i : RvInstr) (s : State) (e : HEnv) (P : State → Hart → Prop) : Prop :=
  ∃ t g, exec (.hartRv64gcInstruction len i) s = .next t ∧ t.group e.gid = some g ∧ onlyHart e g ∧ P t g.hart

end Sys2Proof.Spec

/-- R251: the hart's loads, stores, AMOs, LR and SC that go through, in the open level. -/
def Sys2Proof.Spec.HartMemory : Prop :=
  ∀ (len : BitVec 3) (s s2 : State) (e : HEnv) (pas : List Nat) (rd rs1 rs2 : BitVec 5), henvOf s = some e →
    let next := e.h.pc + BitVec.ofNat 64 len.toNat
    (∀ (w : BitVec 3) (off : W64), let a := Spec.xreg e.h rs1 + off
      let n := 2 ^ (w.toNat % 4)
      w ≠ 7#3 → a.toNat % n = 0 → Spec.HartOk s e 0#2 a n false none pas s2 → Spec.hartSound s2 e pas →
      Spec.hartDoes len (.load w rd rs1 off) s e (fun t h =>
        Spec.hartSets e.h h rd (Spec.rvLoaded w (Spec.numOf (pas.map s2.mem.get))) next ∧ t.mem = s2.mem)) ∧
    (∀ (dbl : Bool) (off : W64), let a := Spec.xreg e.h rs1 + off
      a.toNat % Spec.wide dbl = 0 → Spec.HartOk s e 0#2 a (Spec.wide dbl) false none pas s2 → Spec.hartSound s2 e pas →
      Spec.hartDoes len (.fload dbl rd rs1 off) s e (fun t h =>
        Spec.hartSetsF e.h h rd (Spec.boxed dbl (Spec.numOf (pas.map s2.mem.get))) 0#8 next ∧ t.mem = s2.mem)) ∧
    (∀ (i : RvInstr) (n v : Nat) (off : W64), let a := Spec.xreg e.h rs1 + off
      ((∃ w, i = .store w rs1 rs2 off ∧ n = 2 ^ w.toNat ∧ v = (Spec.xreg e.h rs2).toNat) ∨
       (∃ dbl, i = .fstore dbl rs1 rs2 off ∧ n = Spec.wide dbl ∧ v = (Spec.freg e.h rs2).toNat)) →
      a.toNat % n = 0 → Spec.HartOk s e 1#2 a n true none pas s2 → s2.writeBad (s2.ctx e.g.cid).keyId pas = none →
      Spec.hartDoes len i s e (fun t h =>
        Spec.hartSets e.h h 0#5 0#64 next ∧ StoredMem s2 t pas (Spec.bytesOf n v))) ∧
    (∀ (o : RvAmo) (ord : BitVec 2) (dbl : Bool), let a := Spec.xreg e.h rs1
      let n := Spec.wide dbl
      let old := Spec.numOf (pas.map s2.mem.get)
      a.toNat % n = 0 → Spec.HartOk s e 3#2 a n true (some 4#3) pas s2 → Spec.hartSound s2 e pas →
      Spec.hartDoes len (.amo o ord dbl rd rs1 rs2) s e (fun t h =>
        Spec.hartSets e.h h rd (Spec.rvSigned dbl old) next ∧
        StoredMem s2 t pas (Spec.bytesOf n (Spec.rvAmo o (8 * n) old (Spec.xreg e.h rs2).toNat)))) ∧
    (∀ (ord : BitVec 2) (dbl : Bool), let a := Spec.xreg e.h rs1
      a.toNat % Spec.wide dbl = 0 → Spec.HartOk s e 0#2 a (Spec.wide dbl) false (some 4#3) pas s2 → Spec.hartSound s2 e pas →
      Spec.hartDoes len (.lr ord dbl rd rs1) s e (fun t h =>
        Spec.hartSets e.h h rd (Spec.rvSigned dbl (Spec.numOf (pas.map s2.mem.get))) next ∧ t.mem = s2.mem ∧
        (e.gid, pas.headD 0 / 8 * 8) ∈ t.resv)) ∧
    (∀ (ord : BitVec 2) (dbl : Bool), let a := Spec.xreg e.h rs1
      a.toNat % Spec.wide dbl = 0 → Spec.HartOk s e 1#2 a (Spec.wide dbl) true (some 4#3) pas s2 →
      s2.writeBad (s2.ctx e.g.cid).keyId pas = none →
      Spec.hartDoes len (.sc ord dbl rd rs1 rs2) s e (fun t h =>
        (∀ r, r ∈ t.resv → r.1 ≠ e.gid) ∧
        ((e.gid, pas.headD 0 / 8 * 8) ∈ s2.resv → Spec.hartSets e.h h rd 0#64 next ∧
          StoredMem s2 t pas (Spec.bytesOf (Spec.wide dbl) (Spec.xreg e.h rs2).toNat)) ∧
        ((e.gid, pas.headD 0 / 8 * 8) ∉ s2.resv → Spec.hartSets e.h h rd 1#64 next ∧ t.mem = s2.mem)))

namespace Sys2Proof.Spec

/-- The bits of a floating-point operand: a single that is not boxed reads as the canonical NaN. -/
def fval (h : Hart) (dbl : Bool) (r : BitVec 5) : Nat :=
  if dbl then (freg h r).toNat
  else if (freg h r).toNat / 2 ^ 32 = 0xFFFFFFFF then (freg h r).toNat % 2 ^ 32 else 0x7FC00000

/-- The format of a width, and its sign. -/
def ffmt (dbl : Bool) : FFmt := if dbl then .f64 else .f32
def fneg (dbl : Bool) (v : Nat) : Bool := v.testBit (8 * wide dbl - 1)
def fwith (dbl neg : Bool) (v : Nat) : Nat := v % 2 ^ (8 * wide dbl - 1) + (if neg then 2 ^ (8 * wide dbl - 1) else 0)
def fflip (dbl flip : Bool) (v : Nat) : Nat := if flip then fwith dbl (!fneg dbl v) v else v

/-- The rounding that a field selects: its own, or the one of `fcsr`. -/
def rounding (h : Hart) (rm : BitVec 3) : Option RM :=
  [RM.rn, .rz, .rd, .ru, .rmm][if rm = 7#3 then h.fcsr.toNat / 32 else rm.toNat]?

/-- The flags as `fcsr` holds them: invalid, division by zero, overflow, underflow, inexact in bits 4 to 0. -/
def fcsrFlags (fl : FFlags) : BitVec 8 :=
  BitVec.ofNat 8 (16 * (fl.getLsbD 0).toNat + 8 * (fl.getLsbD 1).toNat + 4 * (fl.getLsbD 2).toNat + 2 * (fl.getLsbD 3).toNat +
    (fl.getLsbD 4).toNat)

/-- The instructions that write a floating-point register: the register, its value, the flags. -/
def rvFloat (h : Hart) : RvInstr → Option (BitVec 5 × W64 × BitVec 8)
  | .farith o dbl rm rd rs1 rs2 =>
    let a := fval h dbl rs1
    let b := fval h dbl rs2
    let out (r : FRes) : BitVec 5 × W64 × BitVec 8 := (rd, boxed dbl r.bits, fcsrFlags r.flags)
    (match o with
     | .add => (rounding h rm).map (fun m => out (fAdd (ffmt dbl) m a b))
     | .sub => (rounding h rm).map (fun m => out (fSub (ffmt dbl) m a b))
     | .mul => (rounding h rm).map (fun m => out (fMul (ffmt dbl) m a b))
     | .div => (rounding h rm).map (fun m => out (fDiv (ffmt dbl) m a b))
     | .sgnj => some (rd, boxed dbl (fwith dbl (fneg dbl b) a), 0#8)
     | .sgnjn => some (rd, boxed dbl (fwith dbl (!fneg dbl b) a), 0#8)
     | .sgnjx => some (rd, boxed dbl (fwith dbl (fneg dbl a != fneg dbl b) a), 0#8)
     | .min => some (out (fMinMax (ffmt dbl) false a b))
     | .max => some (out (fMinMax (ffmt dbl) true a b)))
  | .fmadd np na dbl rm rd rs1 rs2 rs3 => (rounding h rm).map (fun m =>
      let r := fFma (ffmt dbl) m (fflip dbl np (fval h dbl rs1)) (fval h dbl rs2) (fflip dbl na (fval h dbl rs3))
      (rd, boxed dbl r.bits, fcsrFlags r.flags))
  | .fsqrt dbl rm rd rs1 => (rounding h rm).map (fun m =>
      let r := rvSqrt (ffmt dbl) m (fval h dbl rs1)
      (rd, boxed dbl r.bits, fcsrFlags r.flags))
  | .fcvtFromInt dbl k rm rd rs1 => (rounding h rm).map (fun m =>
      let v := xreg h rs1
      let n : Int := match k with
        | .w => (BitVec.ofNat 32 v.toNat).toInt | .wu => (v.toNat % 2 ^ 32 : Nat) | .l => v.toInt | .lu => v.toNat
      let r := roundV (ffmt dbl) m false (FV.ofInt n)
      (rd, boxed dbl r.bits, fcsrFlags r.flags))
  | .fcvtWidth toDbl rm rd rs1 => (rounding h rm).map (fun m =>
      let r := roundV (ffmt toDbl) m false (decodeF (ffmt (!toDbl)) (fval h (!toDbl) rs1))
      (rd, boxed toDbl r.bits, fcsrFlags r.flags))
  | .fmvFromX dbl rd rs1 => some (rd, boxed dbl (xreg h rs1).toNat, 0#8)
  | _ => none

/-- The floating-point instructions that write an integer register: the register, its value, the flags. -/
def rvFloatX (h : Hart) : RvInstr → Option (BitVec 5 × W64 × BitVec 8)
  | .fcmp o dbl rd rs1 rs2 =>
    let x := decodeF (ffmt dbl) (fval h dbl rs1)
    let y := decodeF (ffmt dbl) (fval h dbl rs2)
    let un := x.isNan || y.isNan
    let yes := !un && (match o with | .eq => cmpV x y == .eq | .lt => cmpV x y == .lt | .le => cmpV x y != .gt)
    let inv := match o with | .eq => x.isSig || y.isSig | _ => un
    some (rd, BitVec.ofNat 64 yes.toNat, if inv then 16#8 else 0#8)
  | .fclass dbl rd rs1 => some (rd, BitVec.ofNat 64 (fClass (ffmt dbl) (fval h dbl rs1)), 0#8)
  | .fcvtToInt dbl k rm rd rs1 => (rounding h rm).map (fun m =>
      let v := decodeF (ffmt dbl) (fval h dbl rs1)
      let lo : Int := match k with | .w => -2 ^ 31 | .l => -2 ^ 63 | _ => 0
      let hi : Int := match k with | .w => 2 ^ 31 - 1 | .wu => 2 ^ 32 - 1 | .l => 2 ^ 63 - 1 | .lu => 2 ^ 64 - 1
      let r := if v.isNan then (hi, flNv) else toIntSat m lo hi v
      (rd, (match k with | .w => rvWord r.1 | .wu => rvWord r.1 | _ => BitVec.ofInt 64 r.1), fcsrFlags r.2))
  | .fmvToX dbl rd rs1 => some (rd, if dbl then freg h rs1 else rvWord ((freg h rs1).toNat % 2 ^ 32 : Nat), 0#8)
  | _ => none

end Sys2Proof.Spec

/-- R251: the hart's floating-point instructions write their register and raise their flags in `fcsr`. -/
def Sys2Proof.Spec.HartFloats : Prop :=
  ∀ (len : BitVec 3) (i : RvInstr) (s : State) (e : HEnv) (rd : BitVec 5) (v : W64) (fl : BitVec 8), henvOf s = some e →
    let next := e.h.pc + BitVec.ofNat 64 len.toNat
    (Spec.rvFloat e.h i = some (rd, v, fl) →
      Spec.hartDoes len i s e (fun t h => Spec.hartSetsF e.h h rd v fl next ∧ t.mem = s.mem)) ∧
    (Spec.rvFloatX e.h i = some (rd, v, fl) →
      Spec.hartDoes len i s e (fun t h => Spec.xreg h rd = (if rd = 0#5 then 0#64 else v) ∧
        (∀ r, r ≠ rd → Spec.xreg h r = Spec.xreg e.h r) ∧ h.f = e.h.f ∧ h.fcsr = e.h.fcsr ||| fl ∧ h.pc = next ∧
        h.status = .running ∧ t.mem = s.mem))

namespace Sys2Proof.Spec

/-- The rounding field of an instruction that rounds. -/
def rvRm : RvInstr → Option (BitVec 3)
  | .farith .add _ rm _ _ _ => some rm
  | .farith .sub _ rm _ _ _ => some rm
  | .farith .mul _ rm _ _ _ => some rm
  | .farith .div _ rm _ _ _ => some rm
  | .fmadd _ _ _ rm _ _ _ _ => some rm
  | .fsqrt _ rm _ _ => some rm
  | .fcvtToInt _ _ rm _ _ => some rm
  | .fcvtFromInt _ _ rm _ _ => some rm
  | .fcvtWidth _ rm _ _ => some rm
  | _ => none

end Sys2Proof.Spec

/-- R251: the hart's CSR instructions on fflags, frm and fcsr (1 to 3) deliver the old value and write, set or clear;
EBREAK, an illegal instruction and one whose rounding is reserved stop the hart with their record and change nothing
else of it. -/
def Sys2Proof.Spec.HartControl : Prop :=
  (∀ (len f : BitVec 3) (n : BitVec 12) (s : State) (e : HEnv) (rd rs1 : BitVec 5), henvOf s = some e → f.toNat % 4 ≠ 0 →
    1 ≤ n.toNat → n.toNat ≤ 3 →
    let c := e.h.fcsr.toNat
    let old : Nat := match n.toNat with | 1 => c % 32 | 2 => c / 32 | _ => c
    let src : W64 := if 4 ≤ f.toNat then BitVec.ofNat 64 rs1.toNat else Spec.xreg e.h rs1
    let new : W64 := match f.toNat % 4 with
      | 1 => src | 2 => BitVec.ofNat 64 old ||| src | _ => BitVec.ofNat 64 old &&& ~~~src
    let v : Nat := if f.toNat % 4 ≠ 1 ∧ rs1 = 0#5 then old else new.toNat
    Spec.hartDoes len (.csr f rd rs1 n) s e (fun t h => Spec.xreg h rd = (if rd = 0#5 then 0#64 else BitVec.ofNat 64 old) ∧
      (∀ r, r ≠ rd → Spec.xreg h r = Spec.xreg e.h r) ∧ h.f = e.h.f ∧
      h.fcsr.toNat = (match n.toNat with | 1 => c / 32 * 32 + v % 32 | 2 => v % 8 * 32 + c % 32 | _ => v % 256) ∧
      h.pc = e.h.pc + BitVec.ofNat 64 len.toNat ∧ h.status = .running ∧ t.mem = s.mem)) ∧
  (∀ (len : BitVec 3) (i : RvInstr) (c : Cause) (s : State) (e : HEnv), henvOf s = some e →
    (i = .ebreak ∧ c = .breakpoint ∨ i = .illegal ∧ c = .illegalEncoding ∨
      (∃ rm, Spec.rvRm i = some rm ∧ Spec.rounding e.h rm = none) ∧ c = .illegalEncoding) →
    Spec.hartDoes len i s e (fun t h => h = { e.h with status := .stopped c } ∧
      (t.ctx e.g.cid).fqSeq = (s.ctx e.g.cid).fqSeq + 1))

/-- R252: the Xkf instructions: `kf.uqpush` appends to a uniform queue of fewer than 64 entries, `kf.tcfg` configures a
tile that is free, `kf.tsset` and `kf.fsdesc` install a record that passes and answer 0, `kf.cpkick` issues copies and
answers the last number, `kf.gid` answers the group's names, `kf.qnotify` writes a notify register, and `kf.hold` goes
on once the queue is short enough. -/
def Obligations.XkfInstructions : Prop :=
  ∀ (s : State) (e : HEnv) (rd rs1 rs2 : BitVec 5), henvOf s = some e → e.h.status = .running →
    let a := Spec.xreg e.h rs1
    let b := Spec.xreg e.h rs2
    let next := e.h.pc + 4#64
    (e.g.uq.length < 64 → ∃ t g, exec (.kfUqpush rs1) s = .next t ∧ t.group e.gid = some g ∧
      g.uq = e.g.uq ++ [a.setWidth 32] ∧ g.hart.pc = next ∧ g.threads = e.g.threads) ∧
    (∀ c m f : Nat, a.toNat < 16 → b.toNat = f + 16 * c + 65536 * m → f < 16 → c < 4096 → m < 256 →
      tileBusy s e.gid e.g a.toNat = false →
      ∃ t g, exec (.kfTcfg rd rs1 rs2) s = .next t ∧ t.group e.gid = some g ∧
        (let x := g.tile a.toNat
         x.rows.toNat = m ∧ x.cols.toNat = c ∧ x.fmt.toNat = f ∧ x.en = tileCfgOk m c f ∧
           x.area = (e.g.tile a.toNat).area ∧ x.scale = (e.g.tile a.toNat).scale ∧
           Spec.hartSets e.h g.hart rd (BitVec.ofNat 64 (f + 16 * c + 65536 * m + 2 ^ 24 * (tileCfgOk m c f).toNat)) next)) ∧
    (∀ bs s1, a.toNat % 64 = 0 → b.toNat < 16 → hRead e 0#2 a 64 s.bumpInst = .ok (bs, s1) →
      (recOf bs = 0#512 ∨ trOk (recOf bs) = true) → s1.group e.gid = some e.g →
      ∃ t g, exec (.kfTsset rd rs1 rs2) s = .next t ∧ t.group e.gid = some g ∧ g.slots = (e.g.setSlot b.toNat (recOf bs)).slots ∧
        Spec.hartSets e.h g.hart rd 0#64 next) ∧
    (∀ bs s1 l c, a.toNat % 64 = 0 → 1 ≤ b.toNat → b.toNat ≤ 16 → hRead e 0#2 a (64 * b.toNat) s.bumpInst = .ok (bs, s1) →
      s1.group e.gid = some e.g → kickReqs e.k e.g (recsOf bs b.toNat) = some l → (l.head?.map (fun q => cqCtx q.1)) = some c →
      ∃ t g, exec (.kfCpkick rd rs1 rs2) s = .next t ∧ t.group e.gid = some g ∧
        (g.engCtx c).issued = (e.g.engCtx c).issued + b.toNat ∧ t.nextOp = s1.nextOp + b.toNat ∧
        Spec.hartSets e.h g.hart rd (BitVec.ofNat 64 ((e.g.engCtx c).issued + b.toNat)) next) ∧
    (∀ bs s1, a.toNat % 64 = 0 → b.toNat < 16 → hRead e 0#2 a 64 s.bumpInst = .ok (bs, s1) →
      recOf bs = 0#512 → s1.group e.gid = some e.g → s1.level e.g.cid = 0 →
      (s1.ctx e.g.cid).tables = (s.ctx e.g.cid).tables →
      ∃ t g, exec (.kfFsdesc rd rs1 rs2) s = .next t ∧ t.group e.gid = some g ∧
        t.fsSlot e.g.cid b.toNat = ⟨none, (s.fsSlot e.g.cid b.toNat).gen + 1⟩ ∧ Spec.hartSets e.h g.hart rd 0#64 next) ∧
    (∀ bs rb s1 s2, a.toNat % 64 = 0 → b.toNat < 16 → hRead e 0#2 a 64 s.bumpInst = .ok (bs, s1) →
      recOf bs ≠ 0#512 → fdOk (recOf bs) = true →
      hRead e 0#2 (BitVec.ofNat 64 (fdRadr (recOf bs))) 64 s1 = .ok (rb, s2) → s2.group e.gid = some e.g →
      s2.level e.g.cid = 0 → (s2.ctx e.g.cid).tables = (s.ctx e.g.cid).tables → radOk (recOf bs) (recOf rb) = true →
      let room := fsRoom s2 e.k (recOf bs) b.toNat (e.g.coreN / 64)
      ∃ t g, exec (.kfFsdesc rd rs1 rs2) s = .next t ∧ t.group e.gid = some g ∧
        (room = true → Spec.hartSets e.h g.hart rd 0#64 next ∧
          ∃ x, t.fsSlot e.g.cid b.toNat = ⟨some x, (s.fsSlot e.g.cid b.toNat).gen + 1⟩ ∧ x.desc = recOf bs ∧
            x.rad = recOf rb ∧ x.recs = [] ∧ x.next = 1 ∧ x.home = e.g.coreN / 64 ∧ x.incons = false ∧ x.rejected = false ∧
            (∀ j, x.ctrs.getD j 0 = 0)) ∧
        (room = false → Spec.hartSets e.h g.hart rd 2#64 next ∧ t.ctxs = s2.ctxs)) ∧
    (∀ bs s1, a.toNat % 64 = 0 → b.toNat < 16 → hRead e 0#2 a 64 s.bumpInst = .ok (bs, s1) → recOf bs ≠ 0#512 →
      fdOk (recOf bs) = false → s1.group e.gid = some e.g →
      ∃ t g, exec (.kfFsdesc rd rs1 rs2) s = .next t ∧ t.group e.gid = some g ∧ Spec.hartSets e.h g.hart rd 1#64 next ∧
        t.ctxs = s1.ctxs) ∧
    (∀ v : W64, (a = 0#64 ∧ v = e.g.gwid ∨ a = 1#64 ∧ v = BitVec.ofNat 64 e.g.grp ∨
        a = 2#64 ∧ v = BitVec.ofNat 64 (lcoreOf s e.k e.g)) →
      ∃ t g, exec (.kfGid rd rs1) s = .next t ∧ t.group e.gid = some g ∧ Spec.hartSets e.h g.hart rd v next) ∧
    (∀ q : Nat, a.toNat = 64 * q + 16 → q < 16 → s.level e.g.cid = 0 →
      ∃ t g, exec (.kfQnotify rs1 rs2) s = .next t ∧ t.group e.gid = some g ∧ g.hart.pc = next ∧
        (t.queue e.g.cid q).widx = ((s.queue e.g.cid q).notify (b.setWidth 32)).widx ∧
        (t.queue e.g.cid q).st = ((s.queue e.g.cid q).notify (b.setWidth 32)).st) ∧
    (e.g.uq.length ≤ min a.toNat 64 → ∃ t g, exec (.kfHold rs1) s = .next t ∧ t.group e.gid = some g ∧ g.hart.pc = next ∧
      g.uq = e.g.uq)

/-! ## Engines and matrix engines at work -/

/-- R72, R175, R177, R182, R191, R207: what the engines do with the operations they hold. A copy whose bytes move holds
them as performed; an operation that ends completes its number, with its error bit, and leaves the machine; a task that
no earlier one holds back takes a free engine, and gives it back at its end. -/
def Obligations.EngineEvents : Prop :=
  (∀ (op off len gid : Nat) (s s1 : State) (o : EngOp) (c : CopyShape), mget s.ops op = some o → o.shape = some c →
    o.gid = some gid → (∀ r a b, o.kind = .copy r a b → cqCbe r = false) → o.goes = true → 1 ≤ len → off + len ≤ c.total →
    (∀ p, p ∈ o.done → off + len ≤ p.1 ∨ p.1 + p.2 ≤ off) →
    moveBytes s (o.sideAgent c.src) (o.sideAgent c.dst) c.src.inSp c.dst.inSp ((upFrom off len).map (c.at c.src)) ((upFrom off len).map (c.at c.dst)) = .ok s1 →
    mget s1.ops op = some o →
    ∃ t, exec (.copyDataPerformed op off len) s = .next t ∧
      mget t.ops op = some { o with done := o.done ++ [(off, len)], stall := none, held := false, hb := o.hb.tick } ∧ t.mem = s1.mem ∧ t.groups = s1.groups) ∧
  (∀ (op : Nat) (s : State) (o : EngOp) (gid : Nat) (g : Group) (i : Instr) (s1 : State), mget s.ops op = some o →
    o.gid = some gid → s.group gid = some g →
    ((∃ r a b, o.kind = .copy r a b ∧ copyBytes r a b ≤ o.count ∧ cqCwe r = false ∧ o.err = none) ∧ i = .copyComplete op ∧ s1 = s ∨
     (∃ r row dst, o.kind = .gath r row dst ∧ o.goes = true ∧ moveBytes s o.agent o.agent (trSp r) true (rowPlaces r row)
        ((upFrom 0 (rowPlaces r row).length).map (fun j => (dst + j, ((rowPlaces r row).getD j (0, 8)).2))) = .ok s1) ∧
        i = .gatherComplete op ∨
     (∃ n r i0 i1 tl, o.kind = .tst n r i0 i1 tl ∧ o.goes = true ∧ storeTile s o.agent r i0 i1 tl 0 tl.nrows = .ok s1) ∧
        i = .tileTransferComplete op) →
    (s1.group gid).map (fun g => g.engCtx o.ectx) = some (g.engCtx o.ectx) → o.num = (g.engCtx o.ectx).tl + 1 →
    (g.engCtx o.ectx).beyond = [] → msorted s1.ops = true →
    ∃ t g', exec i s = .next t ∧ t.group gid = some g' ∧ (g'.engCtx o.ectx).tl = o.num ∧
      (g'.engCtx o.ectx).err = ((g.engCtx o.ectx).err || o.err.isSome) ∧ (g'.engCtx o.ectx).issued = (g.engCtx o.ectx).issued ∧
      mget t.ops op = none ∧ t.mem = s1.mem) ∧
  (∀ (op n gid i0 i1 : Nat) (r : Rec) (s s1 : State) (o : EngOp) (g : Group) (x : Tile), mget s.ops op = some o →
    o.kind = .tld n r i0 i1 → o.gid = some gid → s.group gid = some g → o.goes = true →
    loadTile s o.agent r i0 i1 (g.tile n) 0 (g.tile n).nrows = .ok (x, s1) → (s1.group gid).isSome = true →
    ∃ t g', exec (.tileTransferComplete op) s = .next t ∧ t.group gid = some g' ∧ g'.tile n = x ∧ t.mem = s1.mem) ∧
  (∀ (op core : Nat) (s : State) (o : EngOp) (r a w c : Rec), mget s.ops op = some o → o.kind = .task r a w c none →
    core / 64 = o.place.die → coreIn (s.part (vfOf o.cid)) core = true → (s.core core).mxq = [] → taskOn s core = false →
    keyBlocked s o.place.die o.cid (.task op) = false → s.gongFirst o.place.die (.task op) (readyTask s) = true →
    ∃ t, exec (.tileTaskDispatch op core) s = .next t ∧
      mget t.ops op = some { o with kind := .task r a w c (some core), hb := o.hb.learn (s.gongKnow o.place.die (.task op)) } ∧
      (∀ e, e ∈ (t.die o.place.die).gong → e.kind = .task op → e.sent = true) ∧
      (t.die o.place.die).inuse = (s.die o.place.die).inuse ∧ t.mem = s.mem ∧ t.groups = s.groups) ∧
  (∀ (op core : Nat) (s s1 : State) (o : EngOp) (r a w c : Rec) (fl : FFlags), mget s.ops op = some o →
    o.kind = .task r a w c (some core) → o.goes = true → s.tokenFree o.place.die = true → tkCwe r = false →
    taskRun s o.agent r a w c = .ok (fl, s1) →
    msorted s1.ops = true →
    ∃ t, exec (.tileTaskComplete op) s = .next t ∧ mget t.ops op = none ∧
      (t.die o.place.die).inuse = (s1.die o.place.die).inuse ∧ t.mem = s1.mem ∧
      (∀ e, e ∈ (t.die o.place.die).gong → e.kind ≠ .task op)) ∧
  (∀ (op n rank call gid : Nat) (d : Rec) (s s1 s2 : State) (o : EngOp) (en : CommEntry) (bs : List Byte),
    mget s.ops op = some o → o.kind = .coll d rank call → o.gid = some gid → o.goes = true → o.done = [] →
    collEntry s o.cid (cdComm d) = some (n, en) → en.np = 1#16 → en.nloc = 1#16 → en.rbase = 0#16 → rank = 0 →
    s.calls = [] → engGet s o.agent false (cdSrc d) (collIn d 1 rank) = .ok (bs, s1) → bs.length = collIn d 1 rank →
    engPut (s1.spend o.cid 0) o.agent false (cdDst d) (collOut d rank [] [bs]) = .ok s2 → s1.calls = [] → s2.calls = [] →
    msorted s2.ops = true →
    ∃ t, exec (.collectiveComplete op [] []) s = .next t ∧ mget t.ops op = none ∧ t.mem = s2.mem ∧ t.calls = []) ∧
  (∀ (op cid q a b len : Nat) (s : State) (o : EngOp) (p : Pkt), mget s.ops op = some o →
    o.kind = .packet cid q p.ser a b len → len ≤ o.count → s.procGoes cid = true → (s.queue cid q).active = [p] →
    pkSig p.body = 0 → o.err = none → msorted s.ops = true →
    ∃ t, exec (.copyPacketComplete op) s = .next t ∧ mget t.ops op = none ∧ (t.queue cid q).active = [] ∧
      (t.queue cid q).ridx = (s.queue cid q).ridx ∧ t.mem = s.mem)

/-- R22, R198, R201, R202: the matrix engine accepts the operation at the head of its core's queue: a weight load takes
the tile's contents, a scale sets or clears the override, a step computes from captured operands and holds a token; the
last multiply-accumulate writes the live members' registers, gives an exited member's registers back once no step is
left that names it, and returns the token; a batch whose operations have all applied completes. -/
def Obligations.MatrixEvents : Prop :=
  (∀ (core n : Nat) (rest : List Nat) (s : State) (o : MxOp) (g : Group), (s.core core).mxq = n :: rest → n ∉ rest →
    mget s.mxops n = some o → s.group o.gid = some g → o.stage = .requested → o.stall = none →
    (∀ x, o.kind = .mldw x → pendingTld s o.gid x = false →
      ∃ t g', exec (.matrixAccept core) s = .next t ∧ t.group o.gid = some g' ∧ (g'.mxCtx o.mx).latch = some (g.tile x) ∧
        mget t.mxops n = some { o with stage := .applied } ∧ (t.core core).mxq = rest) ∧
    (∀ ws, o.kind = .mscale ws →
      ∃ t g', exec (.matrixAccept core) s = .next t ∧ t.group o.gid = some g' ∧ (g'.mxCtx o.mx).override = ws ∧
        mget t.mxops n = some { o with stage := .applied } ∧ (t.core core).mxq = rest) ∧
    (∀ st rows s1, o.kind = .mmaa st → (∀ x, st.tile = some x → pendingTld s o.gid x = false) →
      (s.die (core / 64)).inuse < (s.die (core / 64)).size.toNat →
      aRows (s.takeToken (core / 64)) (o.agent s) g st (g.mxCtx o.mx).override = .ok (rows, s1) → s1.mxops = s.mxops →
      let v := mmaaCompute g st rows ((upFrom 0 st.n).map ((g.mxCtx o.mx).latch.getD Tile.zero).row)
      ∃ t, exec (.matrixAccept core) s = .next t ∧
        mget t.mxops n = some { o with stage := .accepted, vals := v.1, flags := v.2, stall := none } ∧
        (t.die (core / 64)).inuse = (s1.die (core / 64)).inuse ∧
        (∀ x, st.tile = some x → (t.die (core / 64)).inuse = (s.die (core / 64)).inuse + 1) ∧ t.mem = s1.mem)) ∧
  (∀ (core n k r : Nat) (v : W32) (rest : List Nat) (s : State) (o : MxOp) (g : Group) (th : Thread),
    (s.core core).mxq = n :: rest → n ∉ rest → mget s.mxops n = some o → s.group o.gid = some g → o.stage = .accepted →
    o.stall = none → recordLate s (o.agent s).cid o.recd = false → o.vals = [(k, r, v)] → mget g.threads k = some th →
    ∃ t, exec (.matrixLastMac core) s = .next t ∧ (t.core core).mxq = rest ∧
      (t.die (core / 64)).inuse = (s.die (core / 64)).inuse - 1 ∧
      (mget t.mxops n).map (fun x => (x.stage, x.vals)) = some (.applied, []) ∧
      (th.live = true → t.thread o.gid k = some { th with regs := mset th.regs r v }) ∧
      (∀ st, th.live = false → o.kind = .mmaa st → k ∈ st.peers →
        t.thread o.gid k = some (if stepsLeft t o.gid k then th else { th with regs := [], marks := [], quota := 0 }))) ∧
  (∀ (gid mx : Nat) (s : State) (g : Group), s.group gid = some g → let x := g.engCtx (4 + mx)
    let n := x.tl + 1
    n ≤ x.issued → x.beyond = [] → s.ops = [] → (∀ k o, (k, o) ∈ s.mxops → o.gid = gid → o.mx = mx → o.batch = some n → o.stage = .applied) →
    ∃ t g', exec (.matrixBatchComplete gid mx n) s = .next t ∧ t.group gid = some g' ∧ (g'.engCtx (4 + mx)).tl = n ∧
      (g'.engCtx (4 + mx)).err = x.err ∧ t.mem = s.mem ∧ t.cores = s.cores)

/-! ## Kernels, groups, merges, graphs -/

/-- R325, R326, R333, R341, R343, R344: the life of a group. A placement makes the next group of a kernel on a core that
has room, in the lanes that R334 takes; a start gives every thread its entry point and arguments and starts the hart; an
eviction frees the core of an evictable group; a restore puts an evicted group on a core that has room. Which core that is
at levels 1 and 2 is the model's choice (log 102). -/
def Obligations.GroupEvents : Prop :=
  (∀ (kid core : Nat) (s : State) (k : Kernel) (lanes : List Nat) (room : Room), s.kernel kid = some k → k.st = .placing →
    k.nextGrp < k.groupCount → s.ctxActive k.cid = true → k.clSize = 1 → core < 256 →
    coreIn (s.part (vfOf k.cid)) core = true → heldImages s (vfOf k.cid) < poolImages s (vfOf k.cid) →
    outranked s kid k (core / 64) = false → (∀ n g, (n, g) ∈ s.groups → g.kid = kid → restorable s g = false) →
    (s.level k.cid ≠ 0 → [core] = fixedCores s k k.nextGrp) →
    (roomOf s core).take k = some (lanes, room) →
    let slot := freeSlot (s.core core)
    ∃ t g, exec (.groupPlacement kid [core]) s = .next t ∧ t.group s.nextGid = some g ∧ g.loc = .placed core slot ∧
      g.kid = kid ∧ g.grp = k.nextGrp ∧ g.gwid = gwidOf k k.nextGrp ∧ g.threads.map (fun x => x.2.lane) = lanes ∧
      mget (t.core core).slots slot = some s.nextGid ∧ (t.kernel kid).map (·.nextGrp) = some (k.nextGrp + 1) ∧
      t.mem = s.mem) ∧
  (∀ (gid core slot : Nat) (s : State) (g : Group) (k : Kernel), s.group gid = some g → s.kernel g.kid = some k →
    g.loc = .placed core slot → (s.ctx g.cid).st = .active → staggerOk s (core / 64) g.kid = true → g.stall = none →
    kdTsmask k.desc = 0 →
    ∃ t h, exec (.groupStart gid) s = .next t ∧ t.group gid = some h ∧ h.loc = .resident core slot ∧
      (∀ n th, mget g.threads n = some th → ∃ th', mget h.threads n = some th' ∧ th'.pc = kdVentry k.desc ∧
        th'.wid = th.wid ∧ th'.regs = (if k.kargs = 0#56 then [] else
          [(0, BitVec.ofNat 32 k.kargs.toNat), (1, BitVec.ofNat 32 (k.kargs.toNat / 2 ^ 32))])) ∧
      (kdSentry k.desc ≠ 0#64 → h.hart.pc = kdSentry k.desc ∧ h.hart.status = .running ∧
        Spec.xreg h.hart 10#5 = BitVec.ofNat 64 k.kdesc.toNat ∧ Spec.xreg h.hart 11#5 = BitVec.ofNat 64 g.grp) ∧
      (t.kernel g.kid).map (·.started) = some (k.started + 1) ∧ t.mem = s.mem) ∧
  (∀ (gid : Nat) (s : State) (g : Group) (k : Kernel), s.group gid = some g → s.kernel g.kid = some k →
    let cl := clusterGroups s k g
    (gid, g) ∈ cl → (cl.map (·.1)).Nodup → (∀ e, e ∈ cl → e.2.isResident = true) → g.preempt = true →
    (∀ c, msorted (s.core c).slots = true) →
    ((∀ e, e ∈ cl → evictable s e.1 e.2 = true) → ∃ t, exec (.groupEvict gid) s = .next t ∧ t.mem = s.mem ∧
      ∀ m x core slot, (m, x) ∈ cl → x.loc = .resident core slot →
        mget (t.core core).slots slot = none ∧ ∃ y, t.group m = some y ∧ y.loc = .evicted (core / 64) ∧ y.spad = x.spad ∧
          y.xlive = x.xlive ∧ y.tiles = x.tiles ∧ ∀ n th, mget x.threads n = some th → mget y.threads n = some th.flush) ∧
    ((∃ e, e ∈ cl ∧ evictable s e.1 e.2 = false) → exec (.groupEvict gid) s = .next s)) ∧
  (∀ (gid core : Nat) (s : State) (g : Group) (k : Kernel), s.group gid = some g → s.kernel g.kid = some k →
    (clusterGroups s k g).filter (fun e => e.2.isEvicted) = [(gid, g)] → restorable s g = true → g.lbarDead = false →
    (s.level g.cid = 0 → g.loc = .evicted (core / 64)) → (s.level g.cid ≠ 0 → core = fixedCore s k g) →
    outranked s g.kid k (core / 64) = false → core < 256 →
    coreIn (s.part (vfOf g.cid)) core = true → clusterDie s k g = none → roomFor k g (roomOf s core) = true →
    ∃ t h, exec (.groupRestore gid [core]) s = .next t ∧ t.group gid = some h ∧
      h.loc = .resident core (freeSlot (s.core core)) ∧ h.spad = g.spad ∧
      mget (t.core core).slots (freeSlot (s.core core)) = some gid ∧ t.mem = s.mem)

namespace Sys2Proof.Spec

/-- The merge of updates of memory in their order (R273): memory so far, the bytes applied with the task and whether by
a reduction, and how many updates were dropped because a byte of theirs was applied by another task, not both by
reductions (R274). Bytes of the K7's own window are discarded (R387). -/
def mergeAll (k : Kernel) (s : State) : List (Nat × MRec) → Memory → List (Nat × Nat × Bool) → Memory × Nat
  | [], m, _ => (m, 0)
  | (task, r) :: l, m, done =>
    let item := (r.item.place k s).1
    let bs := item.effect m
    if bs.any (fun b => done.any (fun d => d.1 == b.1 && d.2.1 != task && !(d.2.2 && item.isRed))) then
      let x := mergeAll k s l m done
      (x.1, x.2 + 1)
    else mergeAll k s l (m.setAll (bs.filter (fun b => !s.ownWindow b.1))) (bs.map (fun b => (b.1, task, item.isRed)) ++ done)

/-- The updates of a launch as they merge: an engine's write is one for each of its bytes (log 99). -/
def singles (l : List (Nat × MRec)) : List (Nat × MRec) := l.flatMap (fun e => e.2.writes.map (fun r => (e.1, r)))

/-- The units that a launch's updates reach pass their checks: none has an error, and those that are sealed are sealed
for the context and for the addresses that its pages have now (R379, R428). -/
def unitsSound (s : State) (k : Kernel) : Prop :=
  s.badUnits = [] ∧
  (∀ a b, (k.pageNow a).1 / 64 = (k.pageNow b).1 / 64 → (k.pageNow a).2 / 64 = (k.pageNow b).2 / 64) ∧
  (∀ a x, mget s.unitKey ((k.pageNow a).1 / 64) = some x → x = ((s.ctx k.cid).keyId, (k.pageNow a).2 / 64))

end Sys2Proof.Spec

/-- R273, R274, R327, R332: the life of a kernel. A kernel whose groups and operations are done merges outside the open
level, and closes in it; a merge applies the updates in order and drops those that conflict, and a launch barrier's
merge takes the new snapshot; an entry of the Gong that has waited 65,536 Gong cycles ages. That an engine's write
conflicts and is counted byte by byte is the model's reading (log 99), and so is the place at which an update of a page
that has moved is applied (log 95). -/
def Obligations.KernelEvents : Prop :=
  (∀ (kid : Nat) (s : State) (k : Kernel), s.kernel kid = some k → k.st = .running → kernelDrained s kid k = true →
    (s.level k.cid ≠ 0 → ∃ t, exec (.kernelComplete kid) s = .next t ∧ (t.kernel kid).map (·.st) = some .merging ∧
      t.mem = s.mem ∧ t.groups = s.groups) ∧
    (∀ cid q p, s.level k.cid = 0 → s.procGoes cid = true → k.origin = .packet cid q p.ser → (s.queue cid q).active = [p] →
      pkSig p.body = 0 → msorted s.kernels = true →
      ∃ t, exec (.kernelComplete kid) s = .next t ∧ t.kernel kid = none ∧ (t.queue cid q).active = [] ∧
        (∀ n g, (n, g) ∈ t.groups → g.kid ≠ kid) ∧ (∀ e, e ∈ (t.die k.die).gong → e.kind ≠ .kernel kid) ∧
        t.mem = s.mem)) ∧
  (∀ (kid : Nat) (s : State) (k : Kernel) (l : List (Nat × MRec)), s.kernel kid = some k →
    (k.st = .merging ∨ k.mergePending = true) → (s.ctx k.cid).st = .active → mergeRecs s kid = l →
    (∀ e, e ∈ l → e.2.bad = false ∧ e.2.item.isMem = true ∧
      (e.2.eng.isSome = true → ∃ bs, e.2.item = .write bs ∧ e.2.va.toNat + bs.length ≤ 2 ^ 64)) →
    (∀ i x y, l[i]? = some x → l[i + 1]? = some y → sameInstr x y = true → x.2.eng = none ∧ y.2.eng = none) →
    Spec.unitsSound s k →
    let m := Spec.mergeAll k s (Spec.singles l) s.mem []
    ((s.ctx k.cid).fqWait ≠ [] ∨ m.2 = 0) →
    ∃ t, exec (.mergeApply kid) s = .next t ∧ t.mem = m.1 ∧ (t.ctx k.cid).fqSeq = (s.ctx k.cid).fqSeq + m.2 ∧
      (k.st = .merging → (t.kernel kid).map (·.st) = some .closing) ∧
      (k.st ≠ .merging → (t.kernel kid).map (fun x => (x.snap, x.interval, x.lbarAt)) =
        some (some m.1, k.interval + 1, k.lbarAt + 1)) ∧
      (∀ n g, t.group n = some g → g.kid = kid → g.pendW = [])) ∧
  (∀ (die : Nat) (s : State) (a b : List GongEntry) (e : GongEntry), (s.die die).gong = a ++ e :: b → e.sent = false →
    (65536 ≤ e.age → ∃ t, exec (.gongAging die a.length) s = .next t ∧ (t.die die).gong = a ++ { e with aged := true } :: b ∧
      t.mem = s.mem ∧ t.kernels = s.kernels) ∧
    (e.age < 65536 → ∃ t, exec (.gongAging die a.length) s = .next t ∧ (t.die die).gong = (s.die die).gong))

/-- R329, R330, R331: a graph's node whose predecessors have completed and that no key holds back is dispatched: a copy
node makes its copy; when the copy has ended the node completes; a graph all of whose nodes have ended completes its
packet. -/
def Obligations.GraphEvents : Prop :=
  (∀ (gr n : Nat) (s : State) (g : Graph) (r b : BitVec 512) (d : Option (BitVec 512)), s.graph gr = some g →
    g.nodes[n]? = some (r, .waiting) → g.bodies[n]? = some ⟨some b, d⟩ → s.ctxActive g.cid = true →
    (∀ p, p ∈ ndPreds r → ∃ x, g.nodes[p]? = some (x, .complete)) → keyBlocked s g.die g.cid (.node gr n) = false →
    s.gongFirst g.die (.node gr n) (readyNode s (ndType r)) = true → ndType r = 2 → packetOk b = true → pkType b = 4 →
    ∃ t o g', exec (.graphNodeDispatch gr n) s = .next t ∧ mget t.ops s.nextOp = some o ∧
      o.kind = .nodeCopy gr n (dbits b 64 56) (dbits b 128 56) (dbits b 192 32) ∧ o.gid = none ∧ o.cid = g.cid ∧
      o.done = [] ∧ t.graph gr = some g' ∧ g'.nodes[n]? = some (r, .dispatched) ∧ t.mem = s.mem) ∧
  (∀ (gr n m op a b len : Nat) (s : State) (g : Graph) (r r2 : BitVec 512) (o : EngOp), s.graph gr = some g →
    g.nodes[n]? = some (r, .dispatched) → g.nodes[m]? = some (r2, .waiting) → nodeOp s gr n = some (op, o) →
    o.kind = .nodeCopy gr n a b len → len ≤ o.count → o.err = none → msorted s.ops = true →
    ∃ t g', exec (.graphNodeComplete gr n) s = .next t ∧ t.graph gr = some g' ∧ g'.nodes[n]? = some (r, .complete) ∧
      g'.nodes[m]? = some (r2, .waiting) ∧ mget t.ops op = none ∧ t.mem = s.mem) ∧
  (∀ (gr n : Nat) (s : State) (g : Graph) (p : Pkt), s.graph gr = some g →
    (∀ x, x ∈ g.nodes → x.2 = .complete) → s.procGoes g.cid = true → (s.queue g.cid g.q).active = [p] →
    p.ser = g.ser → pkSig p.body = 0 → msorted s.graphs = true →
    ∃ t, exec (.graphNodeComplete gr n) s = .next t ∧ t.graph gr = none ∧ (t.queue g.cid g.q).active = [] ∧ t.mem = s.mem)

/-! ## Queues -/

/-- R311, R313, R314, R318, R319: the registers of a queue. A notify write moves `widx` forward, and halts a queue that
it overfills with code 6; enabling a queue checks its base and length and starts it empty; a queue that is idle or
halted is disabled; a skip passes the packet that halted the queue. -/
def Obligations.QueueRegisters : Prop :=
  ∀ (cid q : Nat) (w : W32) (s : State), s.hasCtx cid = true → q < 16 →
    let u := s.queue cid q
    (∃ t, exec (.qnotify cid q w) s = .next t ∧ t.mem = s.mem ∧ t.kernels = s.kernels ∧
      (let v := t.queue cid q
       v.ridx = u.ridx ∧ v.en = u.en ∧ v.active = u.active ∧
       (u.en = false → v.widx = u.widx ∧ v.st = u.st) ∧
       (u.en = true → 2 ^ 31 ≤ (w - u.widx).toNat → v.widx = u.widx ∧ v.st = u.st) ∧
       (u.en = true → (w - u.widx).toNat < 2 ^ 31 → 2 ^ u.lqlen.toNat < (w - u.ridx).toNat →
         v.st = .halted ∧ v.err = 6#8 ∧ v.eidx = u.ridx) ∧
       (u.en = true → (w - u.widx).toNat < 2 ^ 31 → (w - u.ridx).toNat ≤ 2 ^ u.lqlen.toNat → v.widx = w ∧ v.err = u.err))) ∧
    (u.en = false → ∃ t, exec (.queueEnable cid q) s = .next t ∧ t.mem = s.mem ∧
      (let v := t.queue cid q
       (u.qbase.toNat % 64 = 0 ∧ 4 ≤ u.lqlen.toNat → v.en = true ∧ v.ridx = 0#32 ∧ v.widx = 0#32 ∧ v.st = .idle) ∧
       (u.qbase.toNat % 64 ≠ 0 ∨ u.lqlen.toNat < 4 → v.en = false ∧ v.err = 7#8))) ∧
    (u.st = .idle ∨ u.st = .halted → ∃ t, exec (.queueDisable cid q) s = .next t ∧ t.mem = s.mem ∧
      (t.queue cid q).en = false ∧ (t.queue cid q).st = .disabled) ∧
    (u.st = .halted → u.ridx = u.eidx → u.err ≠ 6#8 → ∃ t, exec (.queueSkip cid q) s = .next t ∧ t.mem = s.mem ∧
      (t.queue cid q).ridx = u.eidx + 1#32 ∧ (t.queue cid q).st ≠ .halted)

/-- R312, R315, R316, R318, R320, R322, R329: the packets of a queue, read and started. A packet that passes is the
queue's current one; one that fails halts the queue with `bad-packet`. A LAUNCH makes its kernel, a WAIT watches, a MARK
and a DETMODE of the partition's level complete at once, a COPY makes its copy, a GRAPH enters its nodes; each advances
`ridx`. -/
def Obligations.Packets : Prop :=
  (∀ (cid q : Nat) (s s1 : State) (bs : List Byte), canFetch s cid q = true →
    procRead s cid (BitVec.ofNat 64 ((s.queue cid q).qbase.toNat +
      64 * ((s.queue cid q).ridx.toNat % 2 ^ (s.queue cid q).lqlen.toNat))) 64 = .ok (bs, s1) →
    s1.queue cid q = s.queue cid q →
    let b := recOf bs
    let u := s.queue cid q
    (packetOk b = false → pkSig b = 0 → ∃ t, exec (.packetFetch cid q) s = .next t ∧ (t.queue cid q).st = .halted ∧
      (t.queue cid q).err = 4#8 ∧ (t.queue cid q).eidx = u.ridx ∧ (t.queue cid q).ridx = u.ridx ∧ t.mem = s1.mem) ∧
    (∀ (d : Option (BitVec 512)) (l : List (BitVec 512 × NodeBody)) (s2 : State), packetOk b = true →
      s2.queue cid q = s.queue cid q →
      (pkType b ≠ 1 ∧ pkType b ≠ 6 ∧ d = none ∧ l = [] ∧ s2 = s1 ∨
       pkType b = 1 ∧ l = [] ∧ (lhKdesc b % 64 ≠ 0 ∧ d = none ∧ s2 = s1 ∨
         lhKdesc b % 64 = 0 ∧ ∃ ds, procRead s1 cid (BitVec.ofNat 64 (lhKdesc b)) 64 = .ok (ds, s2) ∧ d = some (recOf ds)) ∨
       pkType b = 6 ∧ d = none ∧ ∃ ns s3, procRead s1 cid (BitVec.ofNat 64 (dbits b 64 56)) (64 * dbits b 128 13) = .ok (ns, s3) ∧
         (∀ j r, (recsOf ns (dbits b 128 13))[j]? = some r → nodeOk j r = true) ∧
         readBodies s3 cid (recsOf ns (dbits b 128 13)) = .ok (l, s2)) →
      ∃ t, exec (.packetFetch cid q) s = .next t ∧ (t.queue cid q).cur = some ⟨u.ridx, u.ser, b, d, l, false⟩ ∧
        (t.queue cid q).ridx = u.ridx ∧ (t.queue cid q).active = u.active ∧ t.mem = s2.mem)) ∧
  (∀ (cid q : Nat) (s : State) (p : Pkt), startable s cid q 1 = some p →
    (∀ d, p.desc = some d → launchStatus s cid p.body d = 0#16 → s.gongRoom (s.pktDie cid) 1 = true →
      ∃ t k, exec (.launchPkt cid q) s = .next t ∧ t.kernel s.nextKid = some k ∧ k.desc = d ∧ k.cid = cid ∧
        k.st = .placing ∧ k.nextGrp = 0 ∧ k.kargs.toNat = lhKargs p.body ∧ k.ext = lhExt p.body ∧
        k.origin = .packet cid q p.ser ∧ (t.queue cid q).ridx = p.idx + 1#32 ∧
        (t.queue cid q).active = (s.queue cid q).active ++ [p] ∧ t.mem = s.mem) ∧
    (pkSig p.body = 0 → ∀ c, (p.desc = none ∧ c = 1#16 ∨ (∃ d, p.desc = some d ∧ launchStatus s cid p.body d = c) ∧ c ≠ 0#16) →
      ∃ t, exec (.launchPkt cid q) s = .next t ∧ (t.queue cid q).st = .halted ∧ (t.queue cid q).err = c.setWidth 8 ∧
        (t.queue cid q).eidx = p.idx ∧ (t.queue cid q).ridx = (s.queue cid q).ridx ∧ t.kernels = s.kernels ∧ t.mem = s.mem)) ∧
  (∀ (cid q : Nat) (s : State) (p : Pkt), startable s cid q 2 = some p →
    ∃ t, exec (.waitPkt cid q) s = .next t ∧ (t.queue cid q).ridx = p.idx + 1#32 ∧
      (t.queue cid q).active = (s.queue cid q).active ++ [p] ∧ (t.queue cid q).cur = none ∧ t.mem = s.mem) ∧
  (∀ (cid q : Nat) (s s1 : State) (p : Pkt) (bs : List Byte), (s.queue cid q).active = [p] → p.isWait = true →
    s.ctxActive cid = true → s.procGoes cid = true →
    procRead s cid (BitVec.ofNat 64 (dbits p.body 64 56)) 8 = .ok (bs, s1) →
    s1.queue cid q = s.queue cid q → pkSig p.body = 0 →
    (let x := leNat bs % 2 ^ 64
     let v := dbits p.body 128 64
     match pkHx p.body with | 0 => x = v | 1 => x ≠ v | 2 => v ≤ x | _ => x < v) →
    ∃ t, exec (.waitSatisfied cid q) s = .next t ∧ (t.queue cid q).active = [] ∧
      (t.queue cid q).ridx = (s.queue cid q).ridx ∧ t.mem = s1.mem) ∧
  (∀ (cid q : Nat) (s : State) (p : Pkt) (i : Instr), (∀ x, x ∈ (s.queue cid q).active → x.ser ≠ p.ser) →
    pkSig p.body = 0 →
    (startable s cid q 3 = some p ∧ i = .markPkt cid q ∨
     startable s cid q 5 = some p ∧ pkHx p.body = s.level cid ∧ i = .detmodePkt cid q) →
    ∃ t, exec i s = .next t ∧ (t.queue cid q).ridx = p.idx + 1#32 ∧ (t.queue cid q).active = (s.queue cid q).active ∧
      (t.queue cid q).cur = none ∧ t.mem = s.mem) ∧
  (∀ (cid q : Nat) (s : State) (p : Pkt), startable s cid q 5 = some p → pkHx p.body ≠ s.level cid → pkSig p.body = 0 →
    ∃ t, exec (.detmodePkt cid q) s = .next t ∧ (t.queue cid q).st = .halted ∧ (t.queue cid q).err = 3#8 ∧
      (t.queue cid q).eidx = p.idx ∧ (t.queue cid q).ridx = (s.queue cid q).ridx ∧ t.mem = s.mem) ∧
  (∀ (cid q : Nat) (s : State) (p : Pkt), startable s cid q 4 = some p →
    ∃ t o, exec (.copyPkt cid q) s = .next t ∧ mget t.ops s.nextOp = some o ∧ o.gid = none ∧ o.cid = cid ∧
      o.kind = .packet cid q p.ser (dbits p.body 64 56) (dbits p.body 128 56) (dbits p.body 192 32) ∧
      (t.queue cid q).ridx = p.idx + 1#32 ∧ t.mem = s.mem) ∧
  (∀ (cid q : Nat) (s : State) (p : Pkt), startable s cid q 6 = some p →
    (∀ j x, p.nodes[j]? = some x → nodeOk j x.1 = true) → ranksOk s cid p.nodes = true →
    s.gongRoom (s.pktDie cid) p.nodes.length = true →
    ∃ t g, exec (.graphPkt cid q) s = .next t ∧ t.graph s.nextKid = some g ∧ g.cid = cid ∧ g.q = q ∧ g.ser = p.ser ∧
      g.nodes = p.nodes.map (fun x => (x.1, .waiting)) ∧ g.bodies = p.nodes.map (·.2) ∧
      (t.queue cid q).ridx = p.idx + 1#32 ∧ t.mem = s.mem)

/-! ## Context commands -/

namespace Sys2Proof.Spec

/-- R298: the states of a context in which each command may run. -/
def cmdAllowed (code : Nat) (st : CtxState) : Bool :=
  match code with
  | 1 => st == .free
  | 2 => st != .free
  | 3 => st == .active
  | 4 => st == .quiesced
  | 5 => st == .quiesced
  | 6 => st == .quiesced
  | 7 => st == .active || st == .quiesced
  | 8 => st == .active || st == .quiescing || st == .quiesced
  | 9 => st == .active || st == .quiesced
  | _ => false

/-- The command that waits in a partition's register, for context `cid`, with its code and argument. -/
def cmdIs (s : State) (vf cid code : Nat) (arg : BitVec 56) : Prop :=
  ∃ c, (s.part vf).cmd = some c ∧ c.res = false ∧ c.cmd.toNat = code ∧ cid = 16 * vf + c.ctx.toNat ∧ c.arg = arg

/-- The command has ended with a status. -/
def cmdEnded (t : State) (vf : Nat) (st : BitVec 8) : Prop := (t.part vf).cmd = none ∧ (t.part vf).st = st

/-- The row of a command. -/
def cmdInstr (vf code : Nat) (i : Instr) : Prop :=
  code = 1 ∧ i = .create vf ∨ code = 2 ∧ i = .destroy vf ∨ code = 3 ∧ i = .quiesce vf ∨ code = 4 ∧ i = .resume vf ∨
    code = 5 ∧ i = .checkpoint vf ∨ code = 6 ∧ i = .restore vf ∨ code = 7 ∧ i = .loadObj vf ∨ code = 8 ∧ i = .resumet vf ∨
    code = 9 ∧ i = .setbudget vf

end Sys2Proof.Spec

/-- R298, R299, R302, R306, R310, R242: the commands of a partition. A command with a reserved bit or an undefined code
ends with `bad-cmd`; one that its context's state does not allow with `bad-state`; CREATE makes an active context with
the fields of its record and locks the level; DESTROY drops the context's work, and the context is free once torn down;
QUIESCE asks every group on a core to leave, and the context is quiesced once none is left and no operation runs but
those that a merge entry holds; RESUME makes it active; RESUMET lets a stopped thread go on with its count at zero;
SETBUDGET sets the handler budget. That DESTROY and QUIESCE end with `ok` at once, and that DESTROY drops all work at
the command, is the model's reading (log 52); that DESTROY, QUIESCE, RESUME and SETBUDGET ignore the bits of the
argument that they do not use is its choice (log 104). -/
def Obligations.ContextCommands : Prop :=
  (∀ (vf : Nat) (s : State) (c : CtxCmd), (s.part vf).cmd = some c → (c.res = true ∨ c.cmd = 0#8 ∨ 9 < c.cmd.toNat) →
    ∃ t, exec (.ctxcmdInvalid vf) s = .next t ∧ Spec.cmdEnded t vf 1#8 ∧ t.ctxs = s.ctxs ∧ t.mem = s.mem) ∧
  (∀ (vf cid code : Nat) (s : State) (arg : BitVec 56) (i : Instr), Spec.cmdInstr vf code i → Spec.cmdIs s vf cid code arg →
    Spec.cmdAllowed code (s.ctx cid).st = false →
    ∃ t, exec i s = .next t ∧ Spec.cmdEnded t vf 2#8 ∧ t.ctxs = s.ctxs ∧ t.mem = s.mem) ∧
  (∀ (vf cid : Nat) (s : State) (arg : BitVec 56) (bs : List Byte), Spec.cmdIs s vf cid 1 arg → (s.ctx cid).st = .free →
    arg.toNat % 64 = 0 → ipaRead s vf arg.toNat 64 = some bs → crOk (recOf bs) (s.part vf).level.toNat = true →
    crPlaced s vf (recOf bs) = true → fsaFits s vf (crFsa (recOf bs)) = true → crKreq (recOf bs) = false →
    ∃ t, exec (.create vf) s = .next t ∧ Spec.cmdEnded t vf 0#8 ∧ (t.part vf).lock = true ∧ t.mem = s.mem ∧
      (let c := t.ctx cid
       c.st = .active ∧ c.ptroot.toNat = crPtroot (recOf bs) ∧ c.fqbase.toNat = crFqbase (recOf bs) ∧
         c.lfq.toNat = crLfq (recOf bs) ∧ c.bank = (recOf bs).extractLsb' 370 2 ∧ c.fsa.toNat = crFsa (recOf bs) ∧
         c.hbudget.toNat = (if crHbud (recOf bs) = 0 then 65536 else if crHbud (recOf bs) = 2 ^ 32 - 1 then 0
           else crHbud (recOf bs)) ∧ c.tvec = 0#64 ∧ c.evec = 0#64 ∧ c.queues = [] ∧ c.tables = [] ∧ c.fqprod = 0#32)) ∧
  (∀ (vf cid : Nat) (s : State) (arg : BitVec 56), Spec.cmdIs s vf cid 2 arg → (s.ctx cid).st ≠ .free →
    ∃ t, exec (.destroy vf) s = .next t ∧ Spec.cmdEnded t vf 0#8 ∧ (t.ctx cid).st = .destroying ∧ t.mem = s.mem ∧
      (∀ n g, (n, g) ∈ t.groups ↔ (n, g) ∈ s.groups ∧ g.cid ≠ cid) ∧ (∀ n o, (n, o) ∈ t.ops ↔ (n, o) ∈ s.ops ∧ o.cid ≠ cid) ∧
      (∀ n k, (n, k) ∈ t.kernels ↔ (n, k) ∈ s.kernels ∧ k.cid ≠ cid)) ∧
  (∀ (cid : Nat) (s : State), (s.ctx cid).st = .destroying →
    ∃ t, exec (.teardownComplete cid) s = .next t ∧ t.ctx cid = Context.free ∧ t.mem = s.mem ∧
      (∀ c, c ≠ cid → t.ctx c = s.ctx c)) ∧
  (∀ (vf cid : Nat) (s : State) (arg : BitVec 56), Spec.cmdIs s vf cid 3 arg → (s.ctx cid).st = .active →
    ∃ t, exec (.quiesce vf) s = .next t ∧ Spec.cmdEnded t vf 0#8 ∧ (t.ctx cid).st = .quiescing ∧ t.mem = s.mem ∧
      (∀ n g, s.group n = some g → g.cid = cid → g.core.isSome = true → t.group n = some { g with preempt := true })) ∧
  (∀ (cid : Nat) (s : State), (s.ctx cid).st = .quiescing → (∀ n g, (n, g) ∈ s.groups → g.cid = cid → g.core = none) →
    (∀ n o, (n, o) ∈ s.ops → o.cid = cid → o.savable s n = true) →
    ∃ t, exec (.quiesceComplete cid) s = .next t ∧ t.ctx cid = { s.ctx cid with st := .quiesced } ∧ t.groups = s.groups ∧
      t.mem = s.mem) ∧
  (∀ (vf cid : Nat) (s : State) (arg : BitVec 56), Spec.cmdIs s vf cid 4 arg → (s.ctx cid).st = .quiesced →
    ∃ t, exec (.resume vf) s = .next t ∧ Spec.cmdEnded t vf 0#8 ∧ t.ctx cid = { s.ctx cid with st := .active } ∧
      t.groups = s.groups ∧ t.mem = s.mem) ∧
  (∀ (vf cid gid n : Nat) (s : State) (arg : BitVec 56) (c : Cause) (th : Thread), Spec.cmdIs s vf cid 8 arg →
    ((s.ctx cid).st = .active ∨ (s.ctx cid).st = .quiescing ∨ (s.ctx cid).st = .quiesced) →
    (s.ctx cid).stops.find? (fun x => x.1 == arg.toNat) = some (arg.toNat, gid, n) → s.thread gid n = some th →
    th.wait = .stop c arg.toNat → (s.ctx cid).fqWait = [] →
    ∃ t th', exec (.resumet vf) s = .next t ∧ Spec.cmdEnded t vf 0#8 ∧ t.thread gid n = some th' ∧ th'.wait = .none ∧
      th'.hcount = 0#32 ∧ th'.pc = th.pc ∧ th'.regs = th.regs ∧ t.mem = s.mem) ∧
  (∀ (vf cid : Nat) (s : State) (arg : BitVec 56), Spec.cmdIs s vf cid 9 arg →
    ((s.ctx cid).st = .active ∨ (s.ctx cid).st = .quiesced) →
    ∃ t, exec (.setbudget vf) s = .next t ∧ Spec.cmdEnded t vf 0#8 ∧
      t.ctx cid = { s.ctx cid with hbudget := BitVec.ofNat 32 arg.toNat } ∧ t.groups = s.groups ∧ t.mem = s.mem)

/-- R307, R308, R100 (what an image's bytes are is free, log 13): CHECKPOINT writes an image of the quiesced context and
tells its length; RESTORE brings a matching image into an empty quiesced context; LOAD brings a native object that
passes its checks into the context. -/
def Obligations.ImagesAndObjects : Prop :=
  (∀ (vf cid : Nat) (s : State) (arg : BitVec 56), Spec.cmdIs s vf cid 5 arg → (s.ctx cid).st = .quiesced →
    arg.toNat % 65536 = 0 →
    ∃ t i, exec (.checkpoint vf) s = .next t ∧ Spec.cmdEnded t vf 0#8 ∧ t.images = s.images ++ [i] ∧
      i.ctx = s.ctx cid ∧ i.level = (s.part vf).level ∧ i.qmask = (s.part vf).qmask ∧ (t.part vf).ilen = i.units ∧
      t.ctxs = s.ctxs ∧ t.groups = s.groups) ∧
  (∀ (vf cid : Nat) (s s' : State) (arg : BitVec 56) (i : Image) (tables : AMap FsSlot), Spec.cmdIs s vf cid 6 arg →
    (s.ctx cid).st = .quiesced → ctxEmpty s cid = true → findImage s vf cid arg.toNat = some i →
    i.level = (s.part vf).level → ((s.part vf).level = 1#2 → shapeOf i.qmask = shapeOf (s.part vf).qmask) →
    homeTables (diesOf (s.part vf).qmask) (s.ctx cid).fsa.toNat i.ctx.tables [] = some tables →
    refitAll cid (renumberOf s cid i) i.groups (loadImage s cid i (renumberOf s cid i) tables) = some s' →
    ∃ t, exec (.restore vf) s = .next t ∧ Spec.cmdEnded t vf 0#8 ∧ t.groups = s'.groups ∧ t.mem = s'.mem ∧
      (let c := t.ctx cid
       c.st = .quiesced ∧ c.tvec = i.ctx.tvec ∧ c.evec = i.ctx.evec ∧ c.hbudget = i.ctx.hbudget ∧ c.tables = tables ∧
         c.code = i.ctx.code ∧ c.loaded = i.ctx.loaded ∧ c.ptroot = (s.ctx cid).ptroot)) ∧
  (∀ (vf cid : Nat) (s s1 : State) (arg : BitVec 56) (h : List Byte) (o : Obj) (l : List Reloc)
    (k : Compat) (kds : List (Nat × List Byte)) (code : List CodeRegion), Spec.cmdIs s vf cid 7 arg →
    ((s.ctx cid).st = .active ∨ (s.ctx cid).st = .quiesced) → ipaRead s vf arg.toNat 64 = some h → headerOk h = true →
    openObj (fun off n => ipaRead s vf (arg.toNat + off) n) h = some o → o.relocs = some l →
    (o.relocateAll l).2 = true →
    let x := (o.relocateAll l).1
    x.compat = some k → x.allRecords stKdesc 64 = some kds → x.recordsOk = true → k.gen = 7 →
    k.feat &&& (s.bank cid).feat.toNat = k.feat →
    withRegion (s.ctx cid) (s.bank cid) k.errs ((x.ofType stText).headD ⟨0, 0, 0, 0, 0, 0⟩) = .ok code →
    x.bodiesOk kds = true → loadSegs cid x x.segs s = some s1 →
    ∃ t, exec (.loadObj vf) s = .next t ∧ Spec.cmdEnded t vf 0#8 ∧ (t.ctx cid).loaded = true ∧ (t.ctx cid).code = code ∧
      t.mem = s1.mem)

/-! ## Page commands -/

namespace Sys2Proof.Spec

/-- The cached translations and walks of cores and dies are those of before whose context, first granule and count `p`
does not hold of. -/
def dropsCached (p : Nat → Nat → Nat → Prop) (s t : State) : Prop :=
  (∀ n e, e ∈ (t.core n).tlb ↔ e ∈ (s.core n).tlb ∧ ¬ p e.cid e.va e.size) ∧
    (∀ n e, e ∈ (t.die n).tlb ↔ e ∈ (s.die n).tlb ∧ ¬ p e.cid e.va e.size) ∧
    (∀ n e, e ∈ (t.die n).tensorTlb ↔ e ∈ (s.die n).tensorTlb ∧ ¬ p e.cid e.va e.size) ∧
    (∀ n e, e ∈ (t.die n).walks ↔ e ∈ (s.die n).walks ∧ ¬ p e.cid e.va e.size)

/-- The replays of R375: the row, its code, the waits it wakes, by context and wait. -/
def isReplay (cid : Nat) (c : PgCmd) (i : Instr) (code : Nat) (hit : Nat → FaultWait → Prop) : Prop :=
  let gran := c.arg.toNat / 65536
  let one := 16 * (cid / 16) + c.ctx.toNat
  i = .replay cid ∧ code = 1 ∧ hit = (fun n f => n = one ∧ f.ipa = none ∧ f.va.toNat / 65536 = gran) ∨
  i = .replayall cid ∧ code = 2 ∧ hit = (fun n f => n = one ∧ f.ipa = none) ∨
  i = .rreplay cid ∧ code = 5 ∧ hit = (fun n f => n / 16 = cid / 16 ∧ ∃ a, f.ipa = some a ∧ a / 65536 = gran) ∨
  i = .rreplayall cid ∧ code = 6 ∧ hit = (fun n f => n / 16 = cid / 16 ∧ f.ipa ≠ none)

end Sys2Proof.Spec

/-- R273, R375, R376: the page commands. A replay wakes the threads that wait for it, which walk again with nothing
cached for their address, and completes once every one of them has; an invalidation drops the cached translations that
cover its granule, and is complete once no queued update used one (that it waits for the merge of those of levels 1 and
2 is the model's reading of R273, log 101); RSYNC drops those of the partition; a write of PGCMD with 64 commands
pending or an undefined code is discarded and flagged. -/
def Obligations.PageCommands : Prop :=
  (∀ (cid : Nat) (s : State) (c : PgCmd) (rest : List PgCmd) (i : Instr) (code : Nat) (hit : Nat → FaultWait → Prop),
    (s.ctx cid).pgq = c :: rest → Spec.isReplay cid c i code hit → c.code.toNat = code →
    (c.started = false → (∀ n, n / 16 = cid / 16 → (s.ctx n).fqWait = []) →
      ∃ t, exec i s = .next t ∧ (t.ctx cid).pgq = { c with started := true } :: rest ∧ t.mem = s.mem ∧
        (∀ gid g n th f, s.group gid = some g → (mget s.ctxs g.cid).isSome = true → mget g.threads n = some th →
          th.live = true → th.wait = .replay f → hit g.cid f →
          ∃ th', t.thread gid n = some th' ∧ th'.wait = .none ∧ th'.retry = true ∧ th'.pc = th.pc ∧ th'.regs = th.regs ∧
            ∀ m x, x ∈ (t.core m).tlb → x.cid = g.cid → ¬ (x.va ≤ f.va.toNat / 65536 ∧ f.va.toNat / 65536 < x.va + x.size))) ∧
    (c.started = true → (∀ n, n / 16 = cid / 16 → wokenLeft s n = false) →
      ∃ t, exec i s = .next t ∧ (t.ctx cid).pgq = rest ∧ t.groups = s.groups ∧ t.mem = s.mem)) ∧
  (∀ (cid : Nat) (s : State) (c : PgCmd) (rest : List PgCmd), (s.ctx cid).pgq = c :: rest →
    let one := 16 * (cid / 16) + c.ctx.toNat
    let gran := c.arg.toNat / 65536
    let idle := ∀ n g, (n, g) ∈ s.groups → g.cid = one → g.pendW = []
    (c.code = 3#8 → c.started = false → idle → ∃ t, exec (.inval cid) s = .next t ∧ (t.ctx cid).pgq = rest ∧ t.mem = s.mem ∧
      Spec.dropsCached (fun k va size => k = one ∧ va ≤ gran ∧ gran < va + size) s t) ∧
    (c.code = 4#8 → c.started = false → idle → ∃ t, exec (.invalall cid) s = .next t ∧ (t.ctx cid).pgq = rest ∧ t.mem = s.mem ∧
      Spec.dropsCached (fun k _ _ => k = one) s t) ∧
    (c.code = 3#8 → c.started = false →
      (∃ n g x, (n, g) ∈ s.groups ∧ g.cid = one ∧ x ∈ g.pendW ∧ x.po < s.nextInst ∧ gran ∈ x.granules) →
      ∃ t c', exec (.inval cid) s = .next t ∧ (t.ctx cid).pgq = c' :: rest ∧ c'.started = true ∧ c'.code = 3#8 ∧ t.mem = s.mem ∧
        Spec.dropsCached (fun k va size => k = one ∧ va ≤ gran ∧ gran < va + size) s t) ∧
    (c.code = 3#8 → c.started = true → idle → ∃ t, exec (.inval cid) s = .next t ∧ (t.ctx cid).pgq = rest ∧ t.mem = s.mem) ∧
    (c.code = 7#8 → c.started = false → ∃ t, exec (.rsync cid) s = .next t ∧ (t.ctx cid).pgq = rest ∧ t.mem = s.mem ∧
      Spec.dropsCached (fun k _ _ => k / 16 = cid / 16) s t)) ∧
  (∀ (cid : Nat) (v : W64) (s : State),
    (64 ≤ (s.ctx cid).pgq.length → ∃ t, exec (.pgcmdDiscard cid v) s = .next t ∧
      t.ctx cid = { s.ctx cid with pglost := true }) ∧
    ((s.ctx cid).pgq.length < 64 → (v.toNat % 256 = 0 ∨ 7 < v.toNat % 256) →
      ∃ t, exec (.pgcmdDiscard cid v) s = .next t ∧ t.ctx cid = { s.ctx cid with pgbad := true }))

/-! ## Registers of partitions, contexts and dies -/

/-- R294, R295, R296: partitions. PARTCFG takes quadrants that no other partition has; a partition is created with its
registers at reset; it is destroyed only while its contexts are all free; DETMODE sets the level unless it is locked. -/
def Sys2Proof.Spec.PartitionRegisters : Prop :=
  (∀ (vf : Nat) (v : W64) (s : State), let m : BitVec 16 := BitVec.ofNat 16 v.toNat
    let w := v.toNat / 2 ^ 16 % 256
    m ≠ 0#16 → (∀ n p, (n, p) ∈ s.parts → n ≠ vf → p.qmask &&& m = 0#16) →
    ((s.part vf).qmask ≠ 0#16 → ∃ t, exec (.partcfgWrite vf v) s = .next t ∧
      t.part vf = { s.part vf with qmask := m, wt := BitVec.ofNat 8 (max 1 (min 64 w)) } ∧ t.mem = s.mem) ∧
    (vf < 64 → (s.part vf).qmask = 0#16 → ∃ t, exec (.partitionCreate vf v) s = .next t ∧ t.mem = s.mem ∧
      (let p := t.part vf
       p.qmask = m ∧ p.wt = BitVec.ofNat 8 (max 1 (min 64 w)) ∧ p.level = 0#2 ∧ p.lock = false ∧ p.cmd = none ∧
         p.pfqEn = false ∧ p.ranges = [] ∧ p.comms = [] ∧ p.own = (s.part vf).own))) ∧
  (∀ (vf : Nat) (s : State), (s.part vf).qmask ≠ 0#16 → (∀ n c, (n, c) ∈ s.ctxs → n / 16 = vf → c.st = .free) →
    ∃ t, exec (.partitionDestroy vf) s = .next t ∧ (t.part vf).qmask = 0#16 ∧ (t.part vf).lock = false ∧ t.mem = s.mem) ∧
  (∀ (vf : Nat) (v : W32) (s : State), (s.part vf).qmask ≠ 0#16 →
    ((s.part vf).lock = false → ∃ t, exec (.detmodeWrite vf v) s = .next t ∧
      t.part vf = { s.part vf with level := BitVec.ofNat 2 v.toNat } ∧ t.mem = s.mem) ∧
    ((s.part vf).lock = true → exec (.detmodeWrite vf v) s = .next s))

/-- R5, R23, R304, R305, R311, R368, R388, R389, R391, R399: writes of control registers, each of its own field: the
power pool, the fault queues, range entries, ownership, communicators (one over a failed link fails at once), bank
entries (the same on every die, only while no context is bound to the bank: log 17), and registers without behaviour of
their own; a read-only register ignores the write. A record that waited goes to its ring, marked late, once there is
room. -/
def Sys2Proof.Spec.ControlRegisters : Prop :=
  (∀ (d : Nat) (v : W64) (s : State), d < 4 → ∃ t, exec (.pwrpoolWrite d v) s = .next t ∧
    t.die d = { s.die d with limit := BitVec.ofNat 16 (v.toNat / 2 ^ 32),
                             size := BitVec.ofNat 16 (max 1 (min 64 (v.toNat % 2 ^ 16))) } ∧ t.mem = s.mem) ∧
  (∀ (vf : Nat) (v : W64) (s : State), (s.part vf).qmask ≠ 0#16 →
    (v.getLsbD 5 = true → (s.part vf).pfqEn = false → ∃ t, exec (.pfqEnable vf v) s = .next t ∧
      (t.part vf).lpfq.toNat = v.toNat % 32 ∧
      ((t.part vf).pfqEn = true ↔ (s.part vf).pfqb.toNat % 64 = 0 ∧ 4 ≤ v.toNat % 32 ∧ v.toNat % 32 ≤ 16)) ∧
    (∃ t, exec (.pfqconsWrite vf v) s = .next t ∧ t.part vf = { s.part vf with pcons := BitVec.ofNat 32 v.toNat })) ∧
  (∀ (cid : Nat) (v : W32) (s : State), s.hasCtx cid = true →
    ∃ t, exec (.fqconsWrite cid v) s = .next t ∧ t.ctx cid = { s.ctx cid with fqcons := v } ∧ t.mem = s.mem) ∧
  (∀ (cid pa : Nat) (s : State) (r : FaultRec) (rest : List FaultRec) (e : RangeEntry), let c := s.ctx cid
    c.fqWait = r :: rest → (c.fqprod - c.fqcons).toNat < 2 ^ c.lfq.toNat →
    stage2 s (cid / 16) (c.fqbase.toNat + 64 * (c.fqprod.toNat % 2 ^ c.lfq.toNat)) 1#2 = some (pa, e) →
    s.ownWindow pa = false →
    ∃ t, exec (.faultRecordDeferred false cid) s = .next t ∧ t.mem = s.mem.setN pa { r with late := true }.bytes ∧
      t.ctx cid = { c with fqprod := c.fqprod + 1#32, fqWait := rest }) ∧
  (∀ (vf n : Nat) (v : BitVec 256) (s : State), (s.part vf).qmask ≠ 0#16 → n < 48 →
    ∃ t x, exec (.rangeEntryWrite vf n v) s = .next t ∧ mget (t.part vf).ranges n = some x ∧
      x.en = v.getLsbD 0 ∧ x.r = v.getLsbD 1 ∧ x.w = v.getLsbD 2 ∧ x.x = v.getLsbD 3 ∧
      x.base.toNat = v.toNat / 2 ^ 64 % 2 ^ 40 ∧ x.lim.toNat = v.toNat / 2 ^ 128 % 2 ^ 40 ∧
      x.off.toNat = v.toNat / 2 ^ 192 % 2 ^ 40 ∧ t.mem = s.mem) ∧
  (∀ (vf : Nat) (v : W64) (s : State), vf < 64 → ∃ t, exec (.vfownWrite vf v) s = .next t ∧
    (t.part vf).own.toNat = v.toNat % 4096 ∧ (t.part vf).ownEn = v.getLsbD 12 ∧ t.mem = s.mem) ∧
  (∀ (vf n : Nat) (v : BitVec 128) (s : State), (s.part vf).qmask ≠ 0#16 → n < 64 →
    let old := mgetD (s.part vf).comms n CommEntry.zero
    let same := old.ctx.toNat = v.toNat / 2 ^ 120 % 16 ∧ old.comm.toNat = v.toNat / 16 % 4096
    (v.getLsbD 0 = false ∨ (s.part vf).level = 0#2 ∨ (∀ k x, (k, x) ∈ s.ports → x.st ≠ .failed) ∧
        (∀ k x, (k, x) ∈ s.eth → ∀ m y, (m, y) ∈ x.conns → y.up = true) →
      ∃ t x, exec (.commEntryWrite vf n v) s = .next t ∧ mget (t.part vf).comms n = some x ∧ x.en = v.getLsbD 0 ∧
        x.fail = false ∧ x.comm.toNat = v.toNat / 16 % 4096 ∧ x.np.toNat = v.toNat / 2 ^ 16 % 2 ^ 16 ∧
        x.rbase.toNat = v.toNat / 2 ^ 32 % 2 ^ 16 ∧ x.nloc.toNat = v.toNat / 2 ^ 48 % 2 ^ 16 ∧
        (same → x.calls = old.calls) ∧ (¬ same → x.calls = []) ∧ t.mem = s.mem) ∧
    (v.getLsbD 0 = true → (s.part vf).level ≠ 0#2 →
      (∃ w, w ∈ readRoute s vf (v.toNat / 2 ^ 64 % 2 ^ 56) (v.toNat / 2 ^ 16 % 2 ^ 16) ∧
        ((∃ k p, (k, p) ∈ s.ports ∧ p.st = .failed ∧ usesPort k w = true) ∨
         (∃ k p m y, (k, p) ∈ s.eth ∧ (m, y) ∈ p.conns ∧ y.up = false ∧ usesConn k m w = true))) →
      ∃ t x, exec (.commEntryWrite vf n v) s = .next t ∧ mget (t.part vf).comms n = some x ∧ x.en = false ∧ x.fail = true)) ∧
  (∀ (die n op : Nat) (v : W64) (s : State), die < 4 → n < 4 → op < 0xF00 →
    (s.onFabric = true → (∀ d, d < 4 → nbound s d n = 0) →
      ∃ t, exec (.registerWrite (.bankEntry die n op) v) s = .next t ∧ t.mem = s.mem ∧ ∀ d, d < 4 →
        (let w := (t.bankAt d n).entry op
         entryXidx w = v.toNat % 2 ^ 20 ∧ entryKsl w = v.toNat / 2 ^ 27 % 8 ∧ entryKind w = min 2 (v.toNat / 2 ^ 30 % 4)) ∧
        ∀ o, o ≠ op → (t.bankAt d n).entry o = (s.bankAt 0 n).entry o) ∧
    ((∃ d, d < 4 ∧ nbound s d n ≠ 0) → exec (.registerWrite (.bankEntry die n op) v) s = .next s)) ∧
  (∀ (vf cid q : Nat) (v : W64) (s : State),
    ((s.part vf).qmask ≠ 0#16 → (s.part vf).cmd = none → ∃ t, exec (.registerWrite (.ctxarg vf) v) s = .next t ∧
      t.part vf = { s.part vf with arg := BitVec.ofNat 56 v.toNat, argRes := decide (2 ^ 56 ≤ v.toNat) }) ∧
    ((s.part vf).qmask ≠ 0#16 → (s.part vf).cmd = none → ∃ t c, exec (.registerWrite (.ctxcmd vf) v) s = .next t ∧
      (t.part vf).cmd = some c ∧ c.cmd.toNat = v.toNat % 256 ∧ c.ctx.toNat = v.toNat / 256 % 16 ∧ c.arg = (s.part vf).arg) ∧
    (s.hasCtx cid = true → q < 16 → (s.queue cid q).en = false →
      ∃ t, exec (.registerWrite (.qbase cid q) v) s = .next t ∧
        t.queue cid q = { s.queue cid q with qbase := BitVec.ofNat 56 v.toNat }) ∧
    (∀ r, r ∈ [RegName.ctxstat vf, .pfqprod vf, .fqprod cid, .qread cid q, .qstat cid q, .notifyReserved cid q, .epid,
      .portstat q, .meas q, .bankinfo vf q, .bankerr vf cid q] → exec (.registerWrite r v) s = .next s))

/-! ## Links, trust, power -/

/-- R383, R384, R386, R387, R388, R391, R392, R394, R395, R423, R424, R426: the links of the package. The reports of
R423 go out as replies; a port that is not up receives nothing; a packet with a reserved value is dropped and counted,
one for another endpoint goes on, one that fails its check is asked for once more and then reported, a notify write by
the owner of its virtual function reaches the queue and is answered, and another's, sound or not, is dropped and
counted; ports train, resend and fail; tokens refill; frames are acknowledged and delivered once, and a connection fails
after 64 sends. The outcome of a tag check comes with the packet, and packets for other endpoints go to the outbox (logs 12
and 76); that connections stand from reset is the model's choice (log 58). -/
def Obligations.LinkEvents : Prop :=
  (∀ (src : BitVec 15) (vf : BitVec 6) (nonce : List Byte) (s : State), s.onFabric = true →
    (∃ t l, exec (.attestationRequest src vf nonce) s = .next t ∧ t.outbox = s.outbox ++ l ∧
      l.map (fun p => (p.ptyp, p.cls, p.dst)) = List.replicate 4 (3#4, 2#2, src) ∧
      l.flatMap (fun p => p.data) = reportOf s vf.toNat nonce ∧ t.mem = s.mem) ∧
    (∃ t p, exec (.identityRequest src) s = .next t ∧ t.outbox = s.outbox ++ [p] ∧ p.ptyp = 3#4 ∧ p.cls = 2#2 ∧
      p.dst = src ∧ p.addr = 1#56 ∧ p.data = identityPoint ++ List.replicate 27 0#8 ∧ t.mem = s.mem)) ∧
  (∀ (port : Nat) (p : FabricPacket) (s : State), port < 64 → (mgetD s.ports port FabPort.zero).st ≠ .up →
    exec (.fabricPacketReceive port p) s = .next s) ∧
  (∀ (port : Nat) (p : FabricPacket) (s : State), s.onFabric = true → port < 64 →
    (mgetD s.ports port FabPort.zero).st = .up →
    (7 ≤ p.ptyp.toNat ∨ 8 < p.nfl.toNat ∨ p.cls = 3#2 ∨ p.res ≠ 0#42 ∨ p.data.length ≠ 32 * p.nfl.toNat →
      ∃ t, exec (.fabricPacketReceive port p) s = .next t ∧ t.outbox = s.outbox ∧ t.mem = s.mem ∧
        (mgetD t.ports port FabPort.zero).drop.toNat = min 65535 ((mgetD s.ports port FabPort.zero).drop.toNat + 1)) ∧
    (packetBad p = false → p.dst ≠ s.epid.setWidth 15 →
      ∃ t, exec (.fabricPacketReceive port p) s = .next t ∧ t.outbox = s.outbox ++ [p] ∧ t.mem = s.mem) ∧
    (packetBad p = false → p.dst = s.epid.setWidth 15 → p.sealOk = false ∨ crc32c p.data ≠ p.e2e → s.notifyHold = [] →
      packetOwned s p = true → (p.src.toNat, p.tag.toNat) ∉ s.askedAgain →
      ∃ t, exec (.fabricPacketReceive port p) s = .next t ∧ (p.src.toNat, p.tag.toNat) ∈ t.askedAgain ∧ t.outbox = s.outbox ∧
        t.ctxs = s.ctxs ∧ t.mem = s.mem) ∧
    (∀ cid q vf, packetBad p = false → p.dst = s.epid.setWidth 15 → p.cls = 0#2 → s.notifyHold = [] → q < 16 → cid / 16 = vf →
      vf < 64 → p.addr.toNat = 2 ^ 20 * vf + 2 ^ 16 * (cid % 16) + 64 * q + 16 → s.hasCtx cid = true →
      ((s.part vf).ownEn = true → p.src = (s.part vf).own.setWidth 15 → p.sealOk = false ∨ crc32c p.data ≠ p.e2e →
        (p.src.toNat, p.tag.toNat) ∈ s.askedAgain → ∃ t, exec (.fabricPacketReceive port p) s = .next t ∧ t.outbox = s.outbox ∧
          (t.ctx cid).fqSeq = (s.ctx cid).fqSeq + 1 ∧ t.queue cid q = s.queue cid q) ∧
      (p.ptyp = 1#4 →
        (p.sealOk = true → crc32c p.data = p.e2e → p.aux = BitVec.allOnes 64 → p.nfl ≠ 0#4 → (s.part vf).ownEn = true →
          p.src = (s.part vf).own.setWidth 15 → ∃ t x, exec (.fabricPacketReceive port p) s = .next t ∧ t.outbox = s.outbox ++ [x] ∧ x.ptyp = 4#4 ∧ x.dst = p.src ∧
            (t.queue cid q).widx = ((s.queue cid q).notify (BitVec.ofNat 32 (leNat (p.data.take 8)))).widx ∧
            (t.queue cid q).st = ((s.queue cid q).notify (BitVec.ofNat 32 (leNat (p.data.take 8)))).st ∧ t.mem = s.mem) ∧
        ((s.part vf).ownEn = false ∨ p.src ≠ (s.part vf).own.setWidth 15 →
          ∃ t, exec (.fabricPacketReceive port p) s = .next t ∧ t.outbox = s.outbox ∧ t.ctxs = s.ctxs ∧ t.mem = s.mem ∧
            (mgetD t.ports port FabPort.zero).drop.toNat = min 65535 ((mgetD s.ports port FabPort.zero).drop.toNat + 1))))) ∧
  (∀ (port rtt : Nat) (ok : Bool) (s : State), port < 64 → s.dead = false → let x := mgetD s.ports port FabPort.zero
    (x.st ≠ .up → ∃ t, exec (.portTraining port rtt ok) s = .next t ∧ t.mem = s.mem ∧
      mgetD t.ports port FabPort.zero = (if ok then { x with st := .up, hdr := BitVec.ofNat 20 (5 * rtt + 9), resends := 0 }
        else { x with st := .training })) ∧
    (x.st = .up → x.resends ≠ 16 → ∃ t, exec (.flitCheckFail port) s = .next t ∧ t.mem = s.mem ∧
      (mgetD t.ports port FabPort.zero).st = .up ∧ (mgetD t.ports port FabPort.zero).resends = x.resends + 1 ∧
      min 65535 (x.rsnd.toNat + 1) ≤ (mgetD t.ports port FabPort.zero).rsnd.toNat) ∧
    (x.st = .up → x.resends = 16 → (∀ n p, (n, p) ∈ s.parts → p.level = 0#2) → ∃ t, exec (.flitCheckFail port) s = .next t ∧
      (mgetD t.ports port FabPort.zero).st = .failed ∧ t.mem = s.mem)) ∧
  (∀ (vf : Nat) (s : State), vf < 64 → ∃ t, exec (.limiterRefill vf) s = .next t ∧ t.mem = s.mem ∧
    (t.part vf).tok = min ((s.part vf).burst.toNat * 1024 : Int) ((s.part vf).tok + (2560 * (s.part vf).rate.toNat / 33 : Nat))) ∧
  (∀ (port conn n : Nat) (bs : List Byte) (s : State), port < 16 → s.dead = false →
    let c := (mgetD s.eth port EthPort.zero).conn conn
    let after (t : State) (c' : EthConn) : Prop := (mgetD t.eth port EthPort.zero).conn conn = c' ∧ t.mem = s.mem
    c.up = true →
    (∃ t, exec (.ethernetFrameReceive port conn (.ack n)) s = .next t ∧
      after t { c with unack := c.unack.filter (fun x => x.num != n) }) ∧
    (bs.length ≤ 9216 → (∀ x, x ∈ c.inbox → x.1 ≠ n) → ∃ t, exec (.ethernetFrameReceive port conn (.data n bs)) s = .next t ∧
      after t { c with inbox := c.inbox ++ [(n, bs)], out := c.out ++ [.ack n] }) ∧
    (bs.length ≤ 9216 → (∃ x, x ∈ c.inbox ∧ x.1 = n) → ∃ t, exec (.ethernetFrameReceive port conn (.data n bs)) s = .next t ∧
      after t { c with out := c.out ++ [.ack n] }) ∧
    ((∃ x, x ∈ c.unack ∧ 64 ≤ x.sent) → (∀ n p, (n, p) ∈ s.parts → p.level = 0#2) → ∃ t, exec (.ethConnectionFail port conn) s = .next t ∧
      after t { c with up := false, unack := [] }) ∧
    ((∀ x, x ∈ c.unack → x.sent < 64) → exec (.ethConnectionFail port conn) s = .next s))

/-- R26, R399, R400, R420, R421, R428: the start of the package measures its three images and starts it, and a failed
signature stops it; the memory of other endpoints stays, but for the K7's own window (that the K7's own memory is then
empty and theirs is not is the model's choice, logs 2 and 59); an update is measured into M3; a bank is loaded on every
die while no context is bound to it, hashed and measured; firmware lowers the power pool, never above what the power
limit gives (the cap is the model's reading, log 77); the critical temperature ends every context; an uncorrectable
error marks its unit. -/
def Obligations.TrustEvents : Prop :=
  (∀ (s : State) (a b c : SignedImage), signedOk a = true → signedOk b = true → signedOk c = true →
    ∃ t, exec (.packageReset [a, b, c]) s = .next t ∧ t.started = true ∧ t.dead = false ∧
      t.mem = s.mem.filter (fun x => decide (2 ^ 55 ≤ x.1) && !t.ownWindow x.1) ∧ t.ctxs = [] ∧ t.groups = [] ∧ t.banks = [] ∧
      mget t.meas 0 = some (extend 0#512 a.bytes) ∧ mget t.meas 1 = some (extend 0#512 b.bytes) ∧
      mget t.meas 2 = some (extend 0#512 c.bytes)) ∧
  (∀ (s : State) (a b c : SignedImage),
    (signedOk a = false → ∃ t, exec (.packageReset [a, b, c]) s = .next t ∧ t.started = false ∧ t.dead = true ∧ t.meas = []) ∧
    (signedOk a = true → signedOk b = false → ∃ t, exec (.packageReset [a, b, c]) s = .next t ∧ t.started = false ∧
      t.dead = true ∧ mget t.meas 0 = some (extend 0#512 a.bytes) ∧ mget t.meas 1 = none)) ∧
  (∀ (s : State) (i : SignedImage),
    (s.onFabric = true → ∃ t, exec (.firmwareUpdate i) s = .next t ∧ t.mem = s.mem ∧
      (signedOk i = true → t.dead = false ∧ mget t.meas 3 = some (extend (mgetD s.meas 3 0#512) i.bytes)) ∧
      (signedOk i = false → t.dead = true ∧ t.meas = s.meas)) ∧
    (s.onFabric = false → exec (.firmwareUpdate i) s = .next s)) ∧
  (∀ (n : Nat) (x : BankImage) (s : State), s.onFabric = true → n < 4 → (∀ d, d < 4 → nbound s d n = 0) →
    (vendorSigned (loadedBank x).bytes x.sig = true → x.agree = true → ∃ t, exec (.bankLoad n x) s = .next t ∧ t.mem = s.mem ∧
      (∀ d, d < 4 → t.bankAt d n = { loadedBank x with hash := sha512 (loadedBank x).bytes }) ∧
      mget t.meas 3 = some (extend (mgetD s.meas 3 0#512) (loadedBank x).bytes)) ∧
    (vendorSigned (loadedBank x).bytes x.sig = true → x.agree = false → exec (.bankLoad n x) s = .next s) ∧
    (vendorSigned (loadedBank x).bytes x.sig = false → ∃ t, exec (.bankLoad n x) s = .next t ∧ t.dead = true ∧
      t.banks = s.banks ∧ t.meas = s.meas)) ∧
  (∀ (n : Nat) (x : BankImage) (s : State), (∃ d, d < 4 ∧ nbound s d n ≠ 0) → exec (.bankLoad n x) s = .next s) ∧
  (∀ (d : Nat) (v : BitVec 16) (s : State), d < 4 →
    (∃ t, exec (.thermalLimit d v) s = .next t ∧ t.mem = s.mem ∧ (t.die d).limit = (s.die d).limit ∧
      (t.die d).size.toNat = min (max 1 (min 64 v.toNat)) (max 1 (min 64 (64 * ((s.die d).limit.toNat - 250) / 350)))) ∧
    (∃ t, exec (.criticalTemperature d) s = .next t ∧ t.dead = true ∧ t.ctxs = [] ∧ t.groups = [] ∧ t.ops = [] ∧
      t.mem = s.mem)) ∧
  (∀ (a : Nat) (s : State), a < 2 ^ 38 → ∃ t, exec (.uncorrectableError a) s = .next t ∧ a / 64 ∈ t.badUnits ∧
    t.mem = s.mem ∧ t.groups = s.groups)

/-! ## Decoding, steps, reset -/

/-- R60, R61, R71, R73, R252: words written out, field by field, from the tables decode to what they stand for: `nop`;
`iadd.i32 v1, v2, v3`; a guarded `ffma.f32` with a literal and a last read; a load with lookahead 3; REP; an opcode of
group 0xF and one that is not defined; `kf.uqpush a0`. -/
def Obligations.WordsDecode : Prop :=
  decodeTableWord 64 0 = some (.nop ⟨0#4, .main 0#7, .main 0#7, .main 0#7, .main 0#7, 0#3, false, 0#3, false, 0#4⟩) ∧
  decodeTableWord 64 0b0000_0_000_0_000_00_0000000_00_0000011_00_0000010_00_0000001_0000_000100000000 =
    some (.iaddI32 ⟨0#4, .main 1#7, .main 2#7, .main 3#7, .main 0#7, 0#3, false, 0#3, false, 0#4⟩) ∧
  decodeTableWord 64 0b0001_1_010_1_001_10_0000001_11_0000010_01_0000100_00_0001010_0000_001100000110 =
    some (.ffmaF32 ⟨0#4, .main 10#7, .opf 4#7, .special 2#7, .latch 1#7, 1#3, true, 2#3, true, 1#4⟩) ∧
  decodeTableWord 64 0b0100_0_000_0_000_00_0000000_11_1001000_00_0010100_00_0011110_0011_011100000000 =
    some (.ld ⟨3#4, .main 30#7, .main 20#7, .special 72#7, .main 0#7, 0#3, false, 0#3, false, 4#4⟩) ∧
  decodeTableWord 64 0b00000000000000000000000_0011_0010_0001_0100_000_000101_0000_000000000001 =
    some (.rep ⟨3#4, 2#4, 1#4, 4#4, 5#6, 0#30⟩) ∧
  decodeTableWord 64 0xF01 = some (.emulationVector 2#2 0xF01#64) ∧
  decodeTableWord 64 0x002 = some (.emulationVector 0#2 0x002#64) ∧
  decodeTableWord 32 0x0005000B = some (.kfUqpush 10#5)

/-- R60, R61, R71, R73, R252: decoding what the encoder writes gives the instruction back, for every well-formed
instruction that has a word, with every operand at every value. -/
def Obligations.EncodeThenDecode : Prop :=
  ∀ (i : Instr) (p : Nat × Nat), i.wf = true → encode i = some p → decodeTableWord p.1 p.2 = some i

/-- R60, R61, R71, R73: every 64-bit word whose opcode is defined is the one encoding of what it decodes to: no bit of a
word is dropped. -/
def Obligations.DecodeThenEncode : Prop :=
  ∀ w : W64, (∀ why v, decodeWord w ≠ .emulationVector why v) → encode (decodeWord w) = some (64, w.toNat)

/-- R59, R251 (the agenda is the model's own, log 3): a step runs what it fetches. With an event first in the agenda it
runs that event; with a hart's turn first, the instruction that the word at its program counter decodes to; with a
core's turn first, the slot of the first thread of its issue group. What stands open is completed after it. -/
def Obligations.StepRuns : Prop :=
  (∀ (s : State) (i : Instr) (rest : List Action), s.agenda = .event i :: rest → s.dead = false →
    step s = Outcome.map settle (exec i { s with agenda := rest, tick := s.tick + 1 })) ∧
  (∀ (s s2 : State) (gid : Nat) (rest : List Action) (e : HEnv) (w : W32), s.agenda = .hart gid :: rest → s.dead = false →
    let s1 := { s with agenda := rest, tick := s.tick + 1 }
    henvOf { s1 with curHart := some gid } = some e → hartWord s1 e.g.coreN e.g.cid e.h.pc = .ok (w, s2) →
    step s = Outcome.map settle (Outcome.map (fun t => { t with curHart := none })
      (exec (decodeHart w) { s2 with curHart := some gid }))) ∧
  (∀ (s s2 : State) (core t : Nat) (rest : List Action) (ts : List Nat) (ig : IssueGroup) (g : Group) (th : Thread)
    (sl : SlotAt), s.agenda = .lanes core :: rest → s.dead = false →
    let s1 := { s with agenda := rest, tick := s.tick + 1 }
    (s.core core).port = some ig → ig.todo = t :: ts → s.group ig.gid = some g → mget g.threads t = some th →
    (∀ n x, n ∈ ig.todo → mget g.threads n = some x → x.inside = true) → (∀ n, n ∈ ig.todo → (mget g.threads n).isSome = true) →
    th.live = true → th.wait = .none → th.pc = ig.pc → overBudget s1 g th = false →
    (∀ p, p ∈ th.pend → p.left ≠ 0) → slotAt s1 core g.cid th.pc th.rep = .ok (sl, s2) →
    step s = Outcome.map settle (Outcome.map (laneDone core ig.gid t (issueCost sl.word))
      (exec sl.dec { popTodo s2 core t with cur := some (slotCur ig t th sl) }))) ∧
  (∀ (s s1 s2 : State) (core cid : Nat) (pc h w : W64), fetchWord s core cid (pcHead pc) = .ok (h, s1) →
    fetchWord s1 core cid (pcHead pc + BitVec.ofNat 64 (8 + 8 * pcSlot pc)) = .ok (w, s2) → (s2.bankOn (core / 64) cid).entries = [] →
    wordLits (decodeWord w) w = 0 →
    ∃ sl s3, slotAt s core cid pc none = .ok (sl, s3) ∧ sl.dec = decodeWord w ∧ sl.word = w ∧
      sl.next = pcOf (pcHead pc) (hdCnt h) (pcSlot pc + 1))

/-- R23, R295, R300, R384, R386, R399, R400, R420 (registers for which the manual gives no reset value are the model's
choice, log 1; that memory lists nothing, log 2): what the machine holds at reset: the banks of R400 and the ports of
R386 among it. -/
def Obligations.ResetValues : Prop :=
  let s := State.reset
  s.mem = [] ∧ s.mem.wf = true ∧ s.started = false ∧ s.dead = false ∧ s.groups = [] ∧ s.kernels = [] ∧ s.ops = [] ∧
    (∀ n, (s.ctx n).st = .free) ∧ (∀ n, (s.part n).qmask = 0#16) ∧
    (∀ n, (s.die n).limit = 600#16 ∧ (s.die n).size = 64#16 ∧ (s.die n).inuse = 0) ∧ (∀ n, mgetD s.meas n 0#512 = 0#512) ∧
    (∀ n, (mgetD s.ports n FabPort.zero).st = .down) ∧
    (∀ n, (mgetD s.banks n Bank.k7).gen = 7#16 ∧ (mgetD s.banks n Bank.k7).feat = 0x3F#6)

/-- R4 (the form of memory is the model's own, log 2): every step keeps memory in its canonical form: addresses rise,
and no entry is what an address that is not listed reads as. -/
def Obligations.StepKeepsMemory : Prop :=
  ∀ (s t : State), s.mem.wf = true → step s = .next t → t.mem.wf = true

/-! ## Statements joined from parts -/

/-- R251 (the meanings of RV64GC are PRESUMED, log 15): the hart's instructions: integers, jumps and branches; loads,
stores and atomics; floating point; control registers; the end of the stream and the stops. -/
def Obligations.HartInstructions : Prop := Spec.HartIntegers ∧ Spec.HartMemory ∧ Spec.HartFloats ∧ Spec.HartControl

/-- R122, R126: minimum and maximum, absolute value, negation and copied signs: the value that each gives, written with
nothing else changed. -/
def Obligations.SignAndMinMaxResults : Prop := Spec.MinMaxResults ∧ Spec.SignResults

/-- R42, R127, R129-R132: the packed instructions, the conversions and the random numbers: the value that each
delivers. -/
def Obligations.PackedAndConvertedResults : Prop := Spec.PackedResults ∧ Spec.ConvertResults

/-- R110, R117: a taken transfer goes to its target, and one to a target that is no clause header traps. -/
def Obligations.Transfers : Prop := Spec.TransferTargets ∧ Spec.BadTargetsTrap

/-- R112, R113: CONV enters or makes an instance of its region; JOIN arrives at the innermost one, or passes where there
is none. -/
def Obligations.ConvAndJoin : Prop := Spec.ConvEntersOrCreates ∧ Spec.JoinArrivesOrPasses

/-- R43, R44, R115, R134-R137: a cross-lane instruction's threads arrive and wait, the instance completes once its class
is there, and each member receives the value that the instruction's rule gives. -/
def Obligations.CrossLane : Prop := Spec.CrossLaneCompletes ∧ Spec.CrossLaneValues

/-- R145-R147, R162, R273, R415: stores of global memory write their bytes at their address at once in the open level,
and wait for the merge in the others. -/
def Obligations.GlobalStoreForms : Prop := Spec.GlobalStores ∧ Spec.StoresWaitForMerge

/-- R140, R142, R145, R146, R150, R374: a misaligned access traps, one of an absent page waits for a replay, one outside
the scratchpad traps. -/
def Obligations.AccessFaults : Prop := Spec.MisalignedTraps ∧ Spec.AbsentPageWaits ∧ Spec.ScratchOutsideTraps

/-- R140, R150: loads and stores of the scratchpad read and write the bytes at their address and nothing else. -/
def Obligations.Scratchpad : Prop := Spec.ScratchLoads ∧ Spec.ScratchStores

/-- R155-R158, R414: atomics and reductions on both memories, and the traps of those that the level does not allow (that
this trap comes before the checks of the address is the model's choice, log 85). -/
def Obligations.Atomics : Prop := Spec.GlobalAtomics ∧ Spec.ScratchAtomics ∧ Spec.AtomicsNondeterministic

/-- R47-R49, R160, R161: the instructions on wide cells, and what a cell holds after an addition. -/
def Obligations.Cells : Prop := Spec.WideCells ∧ Spec.GlobalCells ∧ Spec.CellArithmetic

/-- R153, R165, R169, R352, R353, R356, R358: arrivals at barriers of a group, a cluster and a launch, and the end of a
phase. -/
def Obligations.Barriers : Prop := Spec.BarrierArrivals ∧ Spec.BarrierPhaseCompletes

/-- R165, R168, R170, R171: waits whose condition holds pass; a wait on a word passes when the word compares. -/
def Obligations.Waits : Prop := Spec.WaitsThatHold ∧ Spec.WaitOnWord

/-- R241, R242: taking a trap saves the thread and goes to the handler; with no handler, or inside one, the thread stops
with a record. -/
def Obligations.Traps : Prop := Spec.TrapEntry ∧ Spec.TrapStops

/-- R224-R229: the limit accumulators: sums, and the estimates read from them. -/
def Obligations.LimitAccumulators : Prop := Spec.LimitSums ∧ Spec.LimitEstimates

/-- R212-R215, R217: calls of stored functions, hits and misses, and returns. -/
def Obligations.StoreFunctions : Prop := Spec.StoreCalls ∧ Spec.StoreReturns

/-- R194, R195, R197-R201: the collectives of the matrix engine: arrivals, and what a whole execution does. -/
def Obligations.MatrixCollectives : Prop := Spec.MatrixArrivals ∧ Spec.MatrixInstances

/-- R5, R23, R294, R295, R296, R304, R305, R311, R368, R388, R389, R391: writes of the registers of partitions, contexts
and dies, entries of decode-table banks (R399, log 17) among them. -/
def Obligations.RegisterWrites : Prop := Spec.PartitionRegisters ∧ Spec.ControlRegisters
end

