-- ==== Sys2Proof/Laws/Encoding.lean ====
section
/-! SUPPORT. The laws of the encoder: the fields and the opcode of a packed word, and the word packed from its own fields. -/
namespace Sys2Proof

/-- The low part of a concatenation. -/
theorem extract_append_low {n m : Nat} (x : BitVec n) (y : BitVec m) (lo k : Nat) (h : lo + k ≤ m) :
    (x ++ y).extractLsb' lo k = y.extractLsb' lo k := by
  apply BitVec.eq_of_getLsbD_eq
  intro i hi
  have : lo + i < m := by omega
  simp [BitVec.getLsbD_append, this]

/-- The high part of a concatenation. -/
theorem extract_append_high {n m : Nat} (x : BitVec n) (y : BitVec m) (lo k : Nat) (h : m ≤ lo) :
    (x ++ y).extractLsb' lo k = x.extractLsb' (lo - m) k := by
  apply BitVec.eq_of_getLsbD_eq
  intro i hi
  have h1 : ¬ (lo + i < m) := by omega
  have h2 : lo + i - m = lo - m + i := by omega
  simp [BitVec.getLsbD_append, h1, h2]

theorem extract_all {n : Nat} (x : BitVec n) : x.extractLsb' 0 n = x := by
  apply BitVec.eq_of_getLsbD_eq
  intro i hi
  simp [hi]

theorem getLsbD_append_low {n m : Nat} (x : BitVec n) (y : BitVec m) (i : Nat) (h : i < m) :
    (x ++ y).getLsbD i = y.getLsbD i := by simp [BitVec.getLsbD_append, h]

theorem getLsbD_append_high {n m : Nat} (x : BitVec n) (y : BitVec m) (i : Nat) (h : m ≤ i) :
    (x ++ y).getLsbD i = x.getLsbD (i - m) := by
  have : ¬ i < m := by omega
  simp [BitVec.getLsbD_append, this]

@[simp] theorem operandOf_opBits (o : Operand) : operandOf (Machine.opBits o) = o := by
  cases o with
  | main i => revert i; decide
  | opf i => revert i; decide
  | latch i => revert i; decide
  | special i => revert i; decide

@[simp] theorem opBits_operandOf (b : BitVec 9) : Machine.opBits (operandOf b) = b := by revert b; decide

/-- R60: the fields of a packed word. -/
@[simp] theorem fieldsAt_packWord (op : BitVec 12) (f : Fields) : fieldsAt (packWord op f) = f := by
  cases f
  simp only [fieldsAt, packWord, wbits, Fields.mk.injEq]
  simp (discharger := omega) only [extract_append_low, extract_append_high, getLsbD_append_low, getLsbD_append_high]
  simp

/-- R60: the opcode of a packed word. -/
@[simp] theorem opAt_packWord (op : BitVec 12) (f : Fields) : opAt (packWord op f) = op.toNat := by
  simp (discharger := omega) only [opAt, packWord, wbits, extract_append_low]
  rw [extract_all]

/-- Neighbouring parts of a word joined. -/
theorem extract_glue {w : Nat} (x : BitVec w) (hi lo n k : Nat) (h : hi = lo + k) :
    x.extractLsb' hi n ++ x.extractLsb' lo k = x.extractLsb' lo (n + k) := by
  apply BitVec.eq_of_getLsbD_eq
  intro i hi'
  simp only [BitVec.getLsbD_append, BitVec.getLsbD_extractLsb']
  by_cases hk : i < k
  · have : i < n + k := by omega
    simp [hk, this]
  · have h1 : i - k < n := by omega
    have h2 : hi + (i - k) = lo + i := by omega
    simp [hk, h1, h2, hi']

/-- One bit of a word as a part. -/
theorem ofBool_getLsbD {w : Nat} (x : BitVec w) (i : Nat) : BitVec.ofBool (x.getLsbD i) = x.extractLsb' i 1 := by
  apply BitVec.eq_of_getLsbD_eq
  intro j hj
  have : j = 0 := by omega
  subst this
  simp

/-- R60: a word is packed from its opcode and its fields. -/
theorem packWord_fieldsAt (w : W64) : packWord (wbits w 0 12) (fieldsAt w) = w := by
  simp only [packWord, fieldsAt, opBits_operandOf, wbits, ofBool_getLsbD]
  rw [extract_glue _ 60 59 4 1 rfl, extract_glue _ 59 56 5 3 rfl, extract_glue _ 56 55 8 1 rfl, extract_glue _ 55 52 9 3 rfl, extract_glue _ 52 43 12 9 rfl, extract_glue _ 43 34 21 9 rfl,
    extract_glue _ 34 25 30 9 rfl, extract_glue _ 25 16 39 9 rfl, extract_glue _ 16 12 48 4 rfl, extract_glue _ 12 0 52 12 rfl]
  exact extract_all w

/-- R71: the fields of a packed REP word. -/
theorem repFieldsAt_packRep (r : RepFields) : repFieldsAt (packRep r) = r := by
  cases r with
  | mk sc sb sa sd rc res =>
    simp only [repFieldsAt, packRep, wbits, RepFields.mk.injEq]
    simp (discharger := omega) only [extract_append_low, extract_append_high]
    refine ⟨by simp, by simp, by simp, by simp, by simp, ?_⟩
    simp only [Nat.sub_self, extract_all]
    rw [extract_glue _ 7 4 23 3 rfl, extract_glue _ 4 0 26 4 rfl]
    exact extract_all res

/-- R71: a word is packed from its REP fields. -/
theorem packRep_repFieldsAt (w : W64) (h : wbits w 0 12 = 1#12) : packRep (repFieldsAt w) = w := by
  simp only [repFieldsAt, packRep, ← h]
  simp (discharger := omega) only [extract_append_low, extract_append_high]
  simp only [Nat.sub_self, wbits, extract_all]
  rw [extract_glue _ 41 37 23 4 rfl, extract_glue _ 37 33 27 4 rfl, extract_glue _ 33 29 31 4 rfl, extract_glue _ 29 25 35 4 rfl,
    extract_glue _ 25 22 39 3 rfl, extract_glue _ 22 16 42 6 rfl, extract_glue _ 16 12 48 4 rfl, extract_glue _ 12 0 52 12 rfl]
  exact extract_all w

/-- R73: the decoding of a vector instruction's word, given what the opcode map says of its opcode. -/
theorem decode_packWord {i : Instr} {op : Nat} {f : Fields} (h : decodeOp op f = some i) (hop : op < 4096) (h1 : op ≠ 1) :
    decodeTableWord 64 (packWord (BitVec.ofNat 12 op) f).toNat = some i := by
  have : op % 4096 = op := Nat.mod_eq_of_lt hop
  simp [decodeTableWord, decodeWord, this, h1, h]

/-- R71: the decoding of a REP word. -/
theorem decode_packRep (r : RepFields) : decodeTableWord 64 (packRep r).toNat = some (.rep r) := by
  have h : opAt (packRep r) = 1 := by
    simp (discharger := omega) only [opAt, packRep, wbits, extract_append_low]
    rfl
  simp [decodeTableWord, decodeWord, h, repFieldsAt_packRep]

end Sys2Proof
end

