-- ==== Sys2Proof/Laws/Maps.lean ====
section
/-! SUPPORT. The laws of the sorted association lists: what a read gives after a write, a removal or a change, and that the
keys keep rising. The laws of reads hold of every list; only a removal needs rising keys. -/
namespace Sys2Proof

variable {α : Type}

@[simp] theorem mget_nil (k : Nat) : mget ([] : AMap α) k = none := rfl

@[simp] theorem mget_mset_same (m : AMap α) (k : Nat) (v : α) : mget (mset m k v) k = some v := by
  induction m with
  | nil => simp [mset, mget]
  | cons e m ih =>
    obtain ⟨k', v'⟩ := e
    simp only [mset]
    split
    · simp [mget]
    · split
      · simp [mget]
      · simp [mget, *]

theorem mget_mset_other (m : AMap α) {k k' : Nat} (v : α) (h : k' ≠ k) : mget (mset m k v) k' = mget m k' := by
  induction m with
  | nil => simp [mset, mget, h]
  | cons e m ih =>
    obtain ⟨k1, v1⟩ := e
    simp only [mset]
    split
    · simp [mget, h]
    · split
      · next h2 => subst h2; simp [mget, h]
      · simp [mget, ih]

theorem mget_mset (m : AMap α) (k k' : Nat) (v : α) : mget (mset m k v) k' = if k' = k then some v else mget m k' := by
  split
  · next h => subst h; simp
  · next h => exact mget_mset_other m v h

@[simp] theorem mset_mset (m : AMap α) (k : Nat) (v w : α) : mset (mset m k v) k w = mset m k w := by
  induction m with
  | nil => simp [mset]
  | cons e m ih =>
    obtain ⟨k', v'⟩ := e
    simp only [mset]
    split
    · simp [mset]
    · split
      · next h => simp [mset, h]
      · next h1 h2 => simp [mset, h1, h2, ih]

theorem mget_mdel_other (m : AMap α) {k k' : Nat} (h : k' ≠ k) : mget (mdel m k) k' = mget m k' := by
  induction m with
  | nil => rfl
  | cons e m ih =>
    obtain ⟨k1, v1⟩ := e
    simp only [mdel]
    split
    · next h2 => subst h2; simp [mget, h]
    · simp [mget, ih]

theorem msortedFrom_mono {m : AMap α} {a b : Nat} (h : a ≤ b) (hm : msortedFrom b m = true) : msortedFrom a m = true := by
  cases m with
  | nil => rfl
  | cons e m =>
    simp only [msortedFrom, Bool.and_eq_true, decide_eq_true_eq] at hm ⊢
    exact ⟨Nat.le_trans h hm.1, hm.2⟩

theorem mget_msortedFrom {m : AMap α} {lo k : Nat} (hm : msortedFrom lo m = true) (hk : k < lo) : mget m k = none := by
  induction m generalizing lo with
  | nil => rfl
  | cons e m ih =>
    simp only [msortedFrom, Bool.and_eq_true, decide_eq_true_eq] at hm
    simp only [mget]
    rw [if_neg (by omega)]
    exact ih hm.2 (by omega)

theorem mget_mdel_same {m : AMap α} {lo : Nat} (k : Nat) (hm : msortedFrom lo m = true) : mget (mdel m k) k = none := by
  induction m generalizing lo with
  | nil => rfl
  | cons e m ih =>
    simp only [msortedFrom, Bool.and_eq_true, decide_eq_true_eq] at hm
    simp only [mdel]
    split
    · exact mget_msortedFrom hm.2 (by omega)
    · next h => simp [mget, h, ih hm.2]

theorem msortedFrom_mset {m : AMap α} {lo k : Nat} (v : α) (hm : msortedFrom lo m = true) (hk : lo ≤ k) :
    msortedFrom lo (mset m k v) = true := by
  induction m generalizing lo with
  | nil => simp [mset, msortedFrom, hk]
  | cons e m ih =>
    obtain ⟨k', v'⟩ := e
    simp only [msortedFrom, Bool.and_eq_true, decide_eq_true_eq] at hm
    simp only [mset]
    split
    · simp only [msortedFrom, Bool.and_eq_true, decide_eq_true_eq]
      exact ⟨hk, by omega, hm.2⟩
    · split
      · next h => subst h; simp only [msortedFrom, Bool.and_eq_true, decide_eq_true_eq]; exact hm
      · simp only [msortedFrom, Bool.and_eq_true, decide_eq_true_eq]
        exact ⟨hm.1, ih hm.2 (by omega)⟩

theorem msortedFrom_mdel {m : AMap α} {lo : Nat} (k : Nat) (hm : msortedFrom lo m = true) :
    msortedFrom lo (mdel m k) = true := by
  induction m generalizing lo with
  | nil => rfl
  | cons e m ih =>
    simp only [msortedFrom, Bool.and_eq_true, decide_eq_true_eq] at hm
    simp only [mdel]
    split
    · exact msortedFrom_mono (by omega) hm.2
    · simp only [msortedFrom, Bool.and_eq_true, decide_eq_true_eq]
      exact ⟨hm.1, ih hm.2⟩

/-- What is found under a key is listed there. -/
theorem mem_of_mget {m : AMap α} {k : Nat} {v : α} (h : mget m k = some v) : (k, v) ∈ m := by
  induction m with
  | nil => cases h
  | cons e m ih =>
    obtain ⟨k', v'⟩ := e
    simp only [mget] at h
    split at h
    · rename_i hk
      cases h; subst hk; exact List.mem_cons_self ..
    · exact List.mem_cons_of_mem _ (ih h)

/-- The entries of a map after a write are the new one or old ones. -/
theorem mem_mset {m : AMap α} {k : Nat} {v : α} {x : Nat × α} (h : x ∈ mset m k v) : x = (k, v) ∨ x ∈ m := by
  induction m with
  | nil => simpa [mset] using h
  | cons e m ih =>
    obtain ⟨k', v'⟩ := e
    simp only [mset] at h
    split at h
    · simpa using h
    · split at h
      · rcases List.mem_cons.1 h with h | h
        · exact .inl h
        · exact .inr (List.mem_cons_of_mem _ h)
      · rcases List.mem_cons.1 h with h | h
        · exact .inr (h ▸ List.mem_cons_self ..)
        · exact (ih h).imp id (List.mem_cons_of_mem _)

theorem mem_mdel {m : AMap α} {k : Nat} {x : Nat × α} (h : x ∈ mdel m k) : x ∈ m := by
  induction m with
  | nil => exact h
  | cons e m ih =>
    simp only [mdel] at h
    split at h
    · exact List.mem_cons_of_mem _ h
    · rcases List.mem_cons.1 h with h | h
      · exact h ▸ List.mem_cons_self ..
      · exact List.mem_cons_of_mem _ (ih h)

@[simp] theorem mgetD_mset_same (m : AMap α) (k : Nat) (v d : α) : mgetD (mset m k v) k d = v := by simp [mgetD]

theorem mgetD_mset_other (m : AMap α) {k k' : Nat} (v d : α) (h : k' ≠ k) : mgetD (mset m k v) k' d = mgetD m k' d := by
  simp [mgetD, mget_mset_other m v h]

end Sys2Proof
end

