-- ==== Sys2Proof/Laws/Memory.lean ====
section
/-! SUPPORT. The laws of byte stores: a read after a write, the bytes a write leaves alone, and that every operation on a
byte store keeps the canonical form. -/
namespace Sys2Proof.Machine

theorem Memory.wf_iff (m : Memory) : m.wf = true ↔ msortedFrom 0 m = true ∧ ∀ c ∈ m, c.2 ≠ 0#8 := by
  simp [Memory.wf, msorted]

theorem Memory.get_set_other (m : Memory) {a a' : Nat} (b : Byte) (h : a' ≠ a) : (m.set a b).get a' = m.get a' := by
  unfold Memory.get Memory.set
  split
  · rw [mget_mdel_other _ h]
  · rw [mget_mset_other _ _ h]

theorem Memory.get_set_same {m : Memory} (a : Nat) (b : Byte) (hm : m.wf = true) : (m.set a b).get a = b := by
  unfold Memory.get Memory.set
  split
  · next h => rw [mget_mdel_same a ((Memory.wf_iff m).1 hm).1, h]; rfl
  · simp

theorem Memory.set_wf {m : Memory} (a : Nat) (b : Byte) (hm : m.wf = true) : (m.set a b).wf = true := by
  obtain ⟨h1, h2⟩ := (Memory.wf_iff m).1 hm
  rw [Memory.wf_iff]
  unfold Memory.set
  split
  · exact ⟨msortedFrom_mdel a h1, fun c hc => h2 c (mem_mdel hc)⟩
  · next hb =>
    refine ⟨msortedFrom_mset b h1 (Nat.zero_le a), fun c hc => ?_⟩
    rcases mem_mset hc with hc | hc
    · rw [hc]; exact hb
    · exact h2 c hc

theorem Memory.setN_wf {m : Memory} (a : Nat) (bs : List Byte) (hm : m.wf = true) : (m.setN a bs).wf = true := by
  induction bs generalizing m a with
  | nil => exact hm
  | cons b bs ih => exact ih _ (Memory.set_wf _ _ hm)

theorem Memory.setAll_wf {m : Memory} (l : List (Nat × Byte)) (hm : m.wf = true) : (m.setAll l).wf = true := by
  induction l generalizing m with
  | nil => exact hm
  | cons e l ih => exact ih (Memory.set_wf _ _ hm)

theorem Memory.get_setN_other {m : Memory} {a a' : Nat} (bs : List Byte) (h : a' < a ∨ a + bs.length ≤ a') :
    (m.setN a bs).get a' = m.get a' := by
  induction bs generalizing m a with
  | nil => rfl
  | cons b bs ih =>
    simp only [List.length_cons] at h
    rw [Memory.setN, ih (by omega), Memory.get_set_other _ _ (by omega)]

theorem Memory.getN_setN {m : Memory} (a : Nat) (bs : List Byte) (hm : m.wf = true) :
    (m.setN a bs).getN a bs.length = bs := by
  induction bs generalizing m a with
  | nil => rfl
  | cons b bs ih =>
    rw [List.length_cons, Memory.setN, Memory.getN, ih _ (Memory.set_wf _ _ hm),
      Memory.get_setN_other bs (by omega), Memory.get_set_same _ _ hm]

/-- A write to physical memory changes memory by the bytes written alone, by none in the K7's own window. -/
@[simp] theorem State.poke_mem (s : State) (key pa : Nat) (bs : List Byte) :
    (s.poke key pa bs).mem = s.mem.setN pa (if s.ownWindow pa then [] else bs) := rfl

theorem State.poke_wf {s : State} (key pa : Nat) (bs : List Byte) (hm : s.mem.wf = true) :
    (s.poke key pa bs).mem.wf = true := Memory.setN_wf _ _ hm

end Sys2Proof.Machine
end

