-- ==== Sys2Proof/Laws/Slots.lean ====
section
/-! SUPPORT. What the shared shapes of slots do, said once: access to threads, the shape of a thread-local instruction, and
the shape of an instruction whose effect reaches further. -/
namespace Sys2Proof.Machine

theorem State.thread_some {s : State} {gid t : Nat} {th : Thread} (h : s.thread gid t = some th) :
    ∃ g, mget s.groups gid = some g ∧ mget g.threads t = some th := by
  unfold State.thread State.group at h
  cases hg : mget s.groups gid with
  | none => simp [hg] at h
  | some g => exact ⟨g, rfl, by simpa [hg] using h⟩

theorem State.modThread_eq {s : State} {gid t : Nat} {th : Thread} (h : Thread → Thread)
    (hs : s.thread gid t = some th) : s.modThread gid t h = s.setThread gid t (h th) := by
  obtain ⟨g, hg, ht⟩ := State.thread_some hs
  simp [State.modThread, State.setThread, State.modGroup, State.group, hg, Group.modThread, ht]

theorem State.thread_setThread {s : State} {gid t : Nat} {th : Thread} (th' : Thread)
    (hs : s.thread gid t = some th) : (s.setThread gid t th').thread gid t = some th' := by
  obtain ⟨g, hg, ht⟩ := State.thread_some hs
  simp [State.thread, State.setThread, State.modGroup, State.group, hg, State.setGroup, Group.setThread]

theorem State.setThread_setThread {s : State} {gid t : Nat} {th : Thread} (a b : Thread)
    (hs : s.thread gid t = some th) : (s.setThread gid t a).setThread gid t b = s.setThread gid t b := by
  obtain ⟨g, hg, ht⟩ := State.thread_some hs
  simp [State.setThread, State.modGroup, State.group, hg, State.setGroup, Group.setThread]

/-- The environment of a slot names its thread as the machine holds it. -/
theorem envOf_thread {s : State} {e : Env} (h : envOf s = some e) :
    s.thread e.cur.gid e.cur.t = some e.th ∧ s.cur = some e.cur ∧ e.s = s := by
  unfold envOf at h
  cases hc : s.cur with
  | none => simp [hc] at h
  | some c =>
    cases hg : s.group c.gid with
    | none => simp [hc, hg] at h
    | some g =>
      cases ht : mget g.threads c.t with
      | none => simp [hc, hg, ht] at h
      | some th =>
        cases hk : s.kernel g.kid with
        | none => simp [hc, hg, ht, hk] at h
        | some k =>
          simp only [hc, hg, ht, hk, Option.some.injEq] at h
          subst h
          exact ⟨by rw [State.thread, hg]; exact ht, rfl, rfl⟩

/-! ## Writes of one thread -/

theorem Thread.flushFor_false (th : Thread) : th.flushFor (fun _ => false) = th := by
  have h1 : th.pend.filter (fun _ => false) = [] := by simp
  have h2 : th.pend.filter (fun _ => !false) = th.pend := by simp
  unfold Thread.flushFor
  rw [h1, h2]
  rfl

theorem takeMain_ok {rs : List Nat} {th th' : Thread} (h : takeMain rs th = .ok ((), th')) :
    th' = th.flushFor (fun p => rs.any p.hits) := by
  unfold takeMain at h
  split at h
  · cases h
  · by_cases hq : th.quota < th.alloc + rs.countP (fun r => !th.held r) ∧ rs.any (fun r => !th.held r)
    · simp [hq] at h
    · simp only [hq, if_false, Except.ok.injEq, Prod.mk.injEq, true_and] at h
      exact h.symm

theorem numbered_fst (i : Nat) (vs : List W32) : (numbered i vs).map (·.1) = upFrom i vs.length := by
  induction vs generalizing i with
  | nil => rfl
  | cons v vs ih => simp [numbered, upFrom, ih]

/-- A destination that could be reserved can be written. -/
theorem writeRun_ok {o : Operand} {vs : List W32} {th : Thread} (h : reserveD o vs.length th = .ok ((), th)) :
    writeRun o vs th = .ok ((), th.write o vs) := by
  cases o with
  | main i =>
    simp only [reserveD] at h
    split at h
    · cases h
    · next u hu =>
      obtain ⟨_, th'⟩ := u
      have := takeMain_ok hu
      subst this
      simp only [writeRun, writeMain, numbered_fst, Thread.write]
      simp only [bind, StateT.bind, Except.bind, hu, modify, modifyGet, MonadStateOf.modifyGet, StateT.modifyGet, pure,
        Except.pure]
  | opf i => rfl
  | latch i => rfl
  | special i => rfl

theorem SlotM.bind_ok {σ α β : Type} {x : StateT σ (Except Exc) α} {k : α → StateT σ (Except Exc) β} {s s' : σ} {a : α}
    (h : x s = .ok (a, s')) : (x >>= k) s = k a s' := by
  simp [bind, StateT.bind, Except.bind, h]

theorem SlotM.bind_error {σ α β : Type} {x : StateT σ (Except Exc) α} {k : α → StateT σ (Except Exc) β} {s : σ} {y : Exc}
    (h : x s = .error y) : (x >>= k) s = .error y := by
  simp [bind, StateT.bind, Except.bind, h]

theorem Thread.foldl_putResult_ctl (ps : List Pend) (th : Thread) :
    (ps.foldl Thread.putResult th).fen = th.fen ∧ (ps.foldl Thread.putResult th).msk = th.msk := by
  induction ps generalizing th with
  | nil => exact ⟨rfl, rfl⟩
  | cons p ps ih => exact ih (th.putResult p)

theorem Thread.flushFor_ctl (th : Thread) (q : Pend → Bool) : (th.flushFor q).fen = th.fen ∧ (th.flushFor q).msk = th.msk :=
  Thread.foldl_putResult_ctl _ _

theorem Thread.deliver_ctl (th : Thread) (en : Enc) (f : Fields) (r : Res) :
    (th.deliver en f r).fen = th.fen ∧ (th.deliver en f r).msk = th.msk := by
  unfold Thread.deliver
  split
  · split
    · unfold Thread.owe
      cases f.d <;> first | exact Thread.flushFor_ctl _ _ | exact ⟨rfl, rfl⟩
    · unfold Thread.latch Thread.write
      cases f.d <;> first | exact Thread.flushFor_ctl _ _ | exact ⟨rfl, rfl⟩
  · split
    · exact ⟨rfl, rfl⟩
    · exact Thread.flushFor_ctl _ _
  · exact ⟨rfl, rfl⟩

theorem wordsOf_length (w : Bool) (v : W64) : (wordsOf w v).length = if w then 2 else 1 := by
  cases w <;> rfl

theorem postpone_ok {kind : DrainKind} {ahd : BitVec 4} {o : Operand} {vs : List W32} {th : Thread}
    (h : reserveD o vs.length th = .ok ((), th)) :
    postpone kind ahd o vs [] th = .ok ((), th.owe kind ahd.toNat o vs) := by
  have hz : ∀ t : Thread, (modify (fun th => th.flushFor (fun p => ([] : List (Nat × Bool)).any (fun e => p.hitsPred e.1))) :
      ThM Unit) t = .ok ((), t) := fun t => congrArg (fun x => Except.ok ((), x)) (Thread.flushFor_false t)
  cases o with
  | main i =>
    simp only [reserveD] at h
    split at h
    · cases h
    · next u hu =>
      obtain ⟨_, th'⟩ := u
      have := takeMain_ok hu
      subst this
      simp only [postpone, numbered_fst, Thread.owe]
      rw [SlotM.bind_ok hu, SlotM.bind_ok (hz _)]
      rfl
  | opf i =>
    simp only [postpone, Thread.owe]
    rw [SlotM.bind_ok (a := ()) (s' := _) rfl, SlotM.bind_ok (hz _)]
    rfl
  | latch i =>
    simp only [postpone, Thread.owe]
    rw [SlotM.bind_ok (hz _)]
    rfl
  | special i =>
    simp only [postpone, Thread.owe]
    rw [SlotM.bind_ok (hz _)]
    rfl

/-- The end of a slot that raises no trap. -/
theorem endSlot_ok {e : Env} {fl : FFlags} {s : State} {th : Thread} (hs : s.thread e.cur.gid e.cur.t = some th)
    (hf : fpTraps th fl = false) :
    endSlot e fl s = .ok ((), s.setThread e.cur.gid e.cur.t (th.advance e.cur)) := by
  have h1 : getTh e s = .ok (th, s) := by
    simp [getTh, get, getThe, MonadStateOf.get, StateT.get, bind, StateT.bind, Except.bind, pure, StateT.pure, Except.pure, hs]
  have h2 : modTh e (fun th => th.advance e.cur) s = .ok ((), s.setThread e.cur.gid e.cur.t (th.advance e.cur)) := by
    rw [← State.modThread_eq (fun th => th.advance e.cur) hs]; rfl
  unfold endSlot
  rw [SlotM.bind_ok h1, SlotM.bind_ok h2, hf]
  rfl

theorem onThread_ok {α : Type} {e : Env} {m : ThM α} {s : State} {th th' : Thread} {a : α}
    (hs : s.thread e.cur.gid e.cur.t = some th) (hm : m th = .ok (a, th')) :
    onThread e m s = .ok (a, s.setThread e.cur.gid e.cur.t th') := by
  simp [onThread, hs, hm]

/-- A slot that issues passes its checks, and its windows count it. -/
theorem AtSlot.run {i : Instr} {f : Fields} {s : State} {e : Env} {en : Enc} (h : AtSlot i f s e en)
    (m : Env → Enc → SlotM Unit) :
    runInstr i f m s =
      match m e en (s.setThread e.cur.gid e.cur.t e.th.countWindow) with
      | .ok (_, s') => .next s'
      | .error x => resolveExc e s x := by
  have h2 : modTh e Thread.countWindow s = .ok ((), s.setThread e.cur.gid e.cur.t e.th.countWindow) := by
    rw [← State.modThread_eq _ (envOf_thread h.env).1]; rfl
  have h1 : checkEnc en f s = .ok ((), s) := by simp [checkEnc, h.legal, pure, StateT.pure, Except.pure]
  unfold runInstr runSlot
  simp only [h.env, h.entry]
  rw [SlotM.bind_ok h1, SlotM.bind_ok h2]
  all_goals rfl

/-- Through the K7's own expansion a result is delivered as it is. -/
theorem Cur.through_plain {c : Cur} (h : c.alt = none) (x : Srcs) (r : Res) : c.through x r = r := by
  unfold Cur.through
  simp [h]

/-- The same for the words of a long-latency instruction. -/
theorem Cur.words_plain {c : Cur} (h : c.alt = none) (vs : List W32) : c.words vs = vs := by
  unfold Cur.words
  simp [h]

/-- What a thread-local instruction does when it issues and its flags do not trap. -/
theorem aluThread_ok {i : Instr} {f : Fields} {s : State} {e : Env} {en : Enc} {x : Srcs} {th : Thread} {body : AluBody}
    {r : Res} {fl : FFlags} (h : Issues i f s e en x th) (hb : body e th x = .ok (r, fl)) :
    aluThread e en f body e.th.countWindow =
      .ok (fl, (((th.release (marked en f)).deliver en f r).raiseFlags fl)) := by
  have hm : (modify (fun th => th.release (marked en f)) : ThM Unit) th = .ok ((), th.release (marked en f)) := rfl
  unfold aluThread
  rw [SlotM.bind_ok (a := e.th.countWindow) (s' := e.th.countWindow) rfl, h.guard, if_pos rfl, SlotM.bind_ok h.reads,
    SlotM.bind_ok (a := th) (s' := th) rfl, SlotM.bind_ok hm, SlotM.bind_ok h.room, hb]
  simp only [Cur.through_plain h.plain]
  have hroom := h.room
  have hval : ∀ v w, en.d = .dst w →
      reserveD f.d (wordsOf w v).length (th.release (marked en f)) = .ok ((), th.release (marked en f)) := by
    intro v w hd
    rw [wordsOf_length]
    simpa [hd, dstLen] using hroom
  unfold Thread.deliver
  cases r with
  | none => cases hl : en.long <;> rfl
  | pred b => cases hd : en.d <;> cases hl : en.long <;> simp only [putRes, hd] <;> rfl
  | val v =>
    cases hd : en.d with
    | dst w =>
      cases hl : en.long with
      | true =>
        simp only [if_true]
        rw [SlotM.bind_ok (postpone_ok (hval v w hd))]
        rfl
      | false =>
        have hw : (do writeOp f.d w v; modify (fun th => th.latch w v) : ThM Unit) (th.release (marked en f)) =
            .ok ((), ((th.release (marked en f)).write f.d (wordsOf w v)).latch w v) := by
          unfold writeOp
          rw [SlotM.bind_ok (writeRun_ok (hval v w hd))]
          rfl
        simp only [putRes, hd]
        rw [if_neg (by simp), SlotM.bind_ok hw]
        rfl
    | _ => cases hl : en.long <;> simp only [putRes, hd] <;> rfl

/-- What the shared shape of thread-local instructions does when the slot issues and its flags do not trap. -/
theorem runAlu_next {i : Instr} {f : Fields} {s : State} {e : Env} {en : Enc} {x : Srcs} {th : Thread} {body : AluBody}
    {r : Res} {fl : FFlags} (h : Issues i f s e en x th) (hb : body e th x = .ok (r, fl)) (hf : fpTraps th fl = false) :
    runAlu i f body s = .next (s.setThread e.cur.gid e.cur.t (th.afterAlu e.cur en f r fl)) := by
  have hs := (envOf_thread h.env).1
  have hs1 := State.thread_setThread e.th.countWindow hs
  have h1 := onThread_ok hs1 (aluThread_ok h hb)
  have hf' : fpTraps (((th.release (marked en f)).deliver en f r).raiseFlags fl) fl = false := by
    have := Thread.deliver_ctl (th.release (marked en f)) en f r
    simp only [fpTraps, Thread.raiseFlags, this.1, this.2] at hf ⊢
    exact hf
  unfold runAlu
  rw [h.toAtSlot.run, SlotM.bind_ok h1, endSlot_ok (State.thread_setThread _ hs1) hf']
  simp only [State.setThread_setThread _ _ hs]
  rfl

/-- What the shape of instructions that reach beyond their thread does when the slot issues, its effect goes through and its
flags do not trap. -/
theorem runGuarded_next {i : Instr} {f : Fields} {s s' : State} {e : Env} {en : Enc} {x : Srcs} {th th' : Thread}
    {m : Env → Enc → Srcs → SlotM FFlags} {fl : FFlags} (h : Issues i f s e en x th)
    (hm : m e en x (s.setThread e.cur.gid e.cur.t (th.release (marked en f))) = .ok (fl, s'))
    (ht : s'.thread e.cur.gid e.cur.t = some th') (hf : fpTraps (th'.raiseFlags fl) fl = false) :
    runGuarded i f m s = .next (s'.setThread e.cur.gid e.cur.t ((th'.raiseFlags fl).advance e.cur)) := by
  have hs := (envOf_thread h.env).1
  have hs1 := State.thread_setThread e.th.countWindow hs
  have hs2 := State.thread_setThread th hs
  have hg : getTh e (s.setThread e.cur.gid e.cur.t e.th.countWindow) =
      .ok (e.th.countWindow, s.setThread e.cur.gid e.cur.t e.th.countWindow) := by
    simp [getTh, get, getThe, MonadStateOf.get, StateT.get, bind, StateT.bind, Except.bind, pure, StateT.pure,
      Except.pure, hs1]
  have hr : onThread e (readSrcs e en f) (s.setThread e.cur.gid e.cur.t e.th.countWindow) =
      .ok (x, s.setThread e.cur.gid e.cur.t th) := by
    rw [onThread_ok hs1 h.reads, State.setThread_setThread _ _ hs]
  have hl : modTh e (fun th => th.release (marked en f)) (s.setThread e.cur.gid e.cur.t th) =
      .ok ((), s.setThread e.cur.gid e.cur.t (th.release (marked en f))) := by
    rw [← State.setThread_setThread th (th.release (marked en f)) hs,
      ← State.modThread_eq (fun th => th.release (marked en f)) hs2]
    rfl
  have hv : onThread e (reserveD f.d (dstLen en.d)) (s.setThread e.cur.gid e.cur.t (th.release (marked en f))) =
      .ok ((), s.setThread e.cur.gid e.cur.t (th.release (marked en f))) := by
    rw [onThread_ok (State.thread_setThread _ hs) h.room, State.setThread_setThread _ _ hs]
  have hk : modTh e (fun th => th.raiseFlags fl) s' =
      .ok ((), s'.setThread e.cur.gid e.cur.t (th'.raiseFlags fl)) := by
    rw [← State.modThread_eq (fun th => th.raiseFlags fl) ht]; rfl
  unfold runGuarded guardedSlot
  rw [h.toAtSlot.run, SlotM.bind_ok hg, h.guard, if_pos rfl, SlotM.bind_ok hr, SlotM.bind_ok hl, SlotM.bind_ok hv,
    SlotM.bind_ok hm, SlotM.bind_ok hk, endSlot_ok (State.thread_setThread _ ht) hf]
  simp only [State.setThread_setThread _ _ ht]

/-- A slot whose guard is false (R68): the thread pops and frees what the slot names, and goes on. -/
theorem runGuarded_off {i : Instr} {f : Fields} {s : State} {e : Env} {en : Enc} {th : Thread}
    {m : Env → Enc → Srcs → SlotM FFlags} (h : AtSlot i f s e en) (hg : guardOf f e.th.countWindow = false)
    (hp : popMany e (popCount en f true) e.th.countWindow = .ok ((), th)) :
    runGuarded i f m s = .next (s.setThread e.cur.gid e.cur.t ((th.release (marked en f)).advance e.cur)) := by
  have hs := (envOf_thread h.env).1
  have hs1 := State.thread_setThread e.th.countWindow hs
  have hgt : getTh e (s.setThread e.cur.gid e.cur.t e.th.countWindow) =
      .ok (e.th.countWindow, s.setThread e.cur.gid e.cur.t e.th.countWindow) := by
    simp [getTh, get, getThe, MonadStateOf.get, StateT.get, bind, StateT.bind, Except.bind, pure, StateT.pure,
      Except.pure, hs1]
  have ho : guardedOff e en f true e.th.countWindow = .ok ((), th.release (marked en f)) := by
    unfold guardedOff
    rw [SlotM.bind_ok hp]
    rfl
  have hz : fpTraps (th.release (marked en f)) 0#6 = false := by simp [fpTraps]
  unfold runGuarded guardedSlot
  rw [h.run, SlotM.bind_ok hgt, hg, if_neg (by simp), SlotM.bind_ok (onThread_ok hs1 ho),
    endSlot_ok (State.thread_setThread _ hs1) hz]
  simp only [State.setThread_setThread _ _ hs]

/-- The same for a thread-local instruction. -/
theorem runAlu_off {i : Instr} {f : Fields} {s : State} {e : Env} {en : Enc} {th : Thread} {body : AluBody}
    (h : AtSlot i f s e en) (hg : guardOf f e.th.countWindow = false)
    (hp : popMany e (popCount en f true) e.th.countWindow = .ok ((), th)) :
    runAlu i f body s = .next (s.setThread e.cur.gid e.cur.t ((th.release (marked en f)).advance e.cur)) := by
  have hs := (envOf_thread h.env).1
  have hs1 := State.thread_setThread e.th.countWindow hs
  have ho : aluThread e en f body e.th.countWindow = .ok (0#6, th.release (marked en f)) := by
    have hgo : guardedOff e en f true e.th.countWindow = .ok ((), th.release (marked en f)) := by
      unfold guardedOff
      rw [SlotM.bind_ok hp]
      rfl
    unfold aluThread
    rw [SlotM.bind_ok (a := e.th.countWindow) (s' := e.th.countWindow) rfl, hg, if_neg (by simp), SlotM.bind_ok hgo]
    rfl
  have hz : fpTraps (th.release (marked en f)) 0#6 = false := by simp [fpTraps]
  unfold runAlu
  rw [h.run, SlotM.bind_ok (onThread_ok hs1 ho), endSlot_ok (State.thread_setThread _ hs1) hz]
  simp only [State.setThread_setThread _ _ hs]

/-- An arrival at a collective instruction (R134): the thread waits there with the operands it read. -/
theorem arriveColl_next {i : Instr} {f : Fields} {s : State} {e : Env} {en : Enc} {x : Srcs} {pops : Nat}
    (h : Arrives i f s e en x pops) :
    arriveColl i f s = .next (s.setThread e.cur.gid e.cur.t (e.th.countWindow.waiting e.cur
      (.coll i (if aIsPred i then BitVec.ofNat 64 (bitN (e.th.countWindow.predAt (predIx f.a))) else x.a) x.b x.c true)
      (marked en f) pops)) := by
  have hs := (envOf_thread h.env).1
  have hs1 := State.thread_setThread e.th.countWindow hs
  have hg : getTh e (s.setThread e.cur.gid e.cur.t e.th.countWindow) =
      .ok (e.th.countWindow, s.setThread e.cur.gid e.cur.t e.th.countWindow) := by
    simp [getTh, get, getThe, MonadStateOf.get, StateT.get, bind, StateT.bind, Except.bind, pure, StateT.pure,
      Except.pure, hs1]
  have hw : ∀ w rel, waitAt e w rel pops (s.setThread e.cur.gid e.cur.t e.th.countWindow) =
      .ok ((), s.setThread e.cur.gid e.cur.t (e.th.countWindow.waiting e.cur w rel pops)) := by
    intro w rel
    rw [← State.setThread_setThread e.th.countWindow (e.th.countWindow.waiting e.cur w rel pops) hs,
      ← State.modThread_eq (fun th => th.waiting e.cur w rel pops) hs1]
    rfl
  unfold arriveColl
  rw [h.toAtSlot.run, SlotM.bind_ok hg, SlotM.bind_ok h.reads]
  simp only [hw]

end Sys2Proof.Machine
end

