-- ==== Sys2Proof/Laws/State.lean ====
section
/-! SUPPORT. The laws of record updates: for every setter of the state, of a group and of a thread, what each field is after
it, and what the readers of maps give after a write. No later proof unfolds a setter. -/
namespace Sys2Proof.Machine

variable (s : State) (gid t n : Nat) (g : Group) (th : Thread)

/-! ## Updates of the state -/

@[simp] theorem State.setGroup_mem : (s.setGroup gid g).mem = s.mem := rfl
@[simp] theorem State.setGroup_badUnits : (s.setGroup gid g).badUnits = s.badUnits := rfl
@[simp] theorem State.setGroup_unitKey : (s.setGroup gid g).unitKey = s.unitKey := rfl
@[simp] theorem State.setGroup_reach : (s.setGroup gid g).reach = s.reach := rfl
@[simp] theorem State.setGroup_resv : (s.setGroup gid g).resv = s.resv := rfl
@[simp] theorem State.setGroup_stamps : (s.setGroup gid g).stamps = s.stamps := rfl
@[simp] theorem State.setGroup_rels : (s.setGroup gid g).rels = s.rels := rfl
@[simp] theorem State.setGroup_cores : (s.setGroup gid g).cores = s.cores := rfl
@[simp] theorem State.setGroup_dies : (s.setGroup gid g).dies = s.dies := rfl
@[simp] theorem State.setGroup_banks : (s.setGroup gid g).banks = s.banks := rfl
@[simp] theorem State.setGroup_meas : (s.setGroup gid g).meas = s.meas := rfl
@[simp] theorem State.setGroup_started : (s.setGroup gid g).started = s.started := rfl
@[simp] theorem State.setGroup_dead : (s.setGroup gid g).dead = s.dead := rfl
@[simp] theorem State.setGroup_epid : (s.setGroup gid g).epid = s.epid := rfl
@[simp] theorem State.setGroup_ports : (s.setGroup gid g).ports = s.ports := rfl
@[simp] theorem State.setGroup_eth : (s.setGroup gid g).eth = s.eth := rfl
@[simp] theorem State.setGroup_outbox : (s.setGroup gid g).outbox = s.outbox := rfl
@[simp] theorem State.setGroup_reqSeen : (s.setGroup gid g).reqSeen = s.reqSeen := rfl
@[simp] theorem State.setGroup_notifyHold : (s.setGroup gid g).notifyHold = s.notifyHold := rfl
@[simp] theorem State.setGroup_askedAgain : (s.setGroup gid g).askedAgain = s.askedAgain := rfl
@[simp] theorem State.setGroup_parts : (s.setGroup gid g).parts = s.parts := rfl
@[simp] theorem State.setGroup_ctxs : (s.setGroup gid g).ctxs = s.ctxs := rfl
@[simp] theorem State.setGroup_kernels : (s.setGroup gid g).kernels = s.kernels := rfl
@[simp] theorem State.setGroup_graphs : (s.setGroup gid g).graphs = s.graphs := rfl
@[simp] theorem State.setGroup_ops : (s.setGroup gid g).ops = s.ops := rfl
@[simp] theorem State.setGroup_mxops : (s.setGroup gid g).mxops = s.mxops := rfl
@[simp] theorem State.setGroup_calls : (s.setGroup gid g).calls = s.calls := rfl
@[simp] theorem State.setGroup_hostVc : (s.setGroup gid g).hostVc = s.hostVc := rfl
@[simp] theorem State.setGroup_images : (s.setGroup gid g).images = s.images := rfl
@[simp] theorem State.setGroup_agenda : (s.setGroup gid g).agenda = s.agenda := rfl
@[simp] theorem State.setGroup_cur : (s.setGroup gid g).cur = s.cur := rfl
@[simp] theorem State.setGroup_curHart : (s.setGroup gid g).curHart = s.curHart := rfl
@[simp] theorem State.setGroup_tick : (s.setGroup gid g).tick = s.tick := rfl
@[simp] theorem State.setGroup_nextGid : (s.setGroup gid g).nextGid = s.nextGid := rfl
@[simp] theorem State.setGroup_nextKid : (s.setGroup gid g).nextKid = s.nextKid := rfl
@[simp] theorem State.setGroup_nextAid : (s.setGroup gid g).nextAid = s.nextAid := rfl
@[simp] theorem State.setGroup_nextInst : (s.setGroup gid g).nextInst = s.nextInst := rfl
@[simp] theorem State.setGroup_nextOp : (s.setGroup gid g).nextOp = s.nextOp := rfl
@[simp] theorem State.modGroup_mem (h : Group → Group) : (s.modGroup gid h).mem = s.mem := by unfold State.modGroup; split <;> rfl
@[simp] theorem State.modGroup_badUnits (h : Group → Group) : (s.modGroup gid h).badUnits = s.badUnits := by unfold State.modGroup; split <;> rfl
@[simp] theorem State.modGroup_unitKey (h : Group → Group) : (s.modGroup gid h).unitKey = s.unitKey := by unfold State.modGroup; split <;> rfl
@[simp] theorem State.modGroup_reach (h : Group → Group) : (s.modGroup gid h).reach = s.reach := by unfold State.modGroup; split <;> rfl
@[simp] theorem State.modGroup_resv (h : Group → Group) : (s.modGroup gid h).resv = s.resv := by unfold State.modGroup; split <;> rfl
@[simp] theorem State.modGroup_stamps (h : Group → Group) : (s.modGroup gid h).stamps = s.stamps := by unfold State.modGroup; split <;> rfl
@[simp] theorem State.modGroup_rels (h : Group → Group) : (s.modGroup gid h).rels = s.rels := by unfold State.modGroup; split <;> rfl
@[simp] theorem State.modGroup_cores (h : Group → Group) : (s.modGroup gid h).cores = s.cores := by unfold State.modGroup; split <;> rfl
@[simp] theorem State.modGroup_dies (h : Group → Group) : (s.modGroup gid h).dies = s.dies := by unfold State.modGroup; split <;> rfl
@[simp] theorem State.modGroup_banks (h : Group → Group) : (s.modGroup gid h).banks = s.banks := by unfold State.modGroup; split <;> rfl
@[simp] theorem State.modGroup_meas (h : Group → Group) : (s.modGroup gid h).meas = s.meas := by unfold State.modGroup; split <;> rfl
@[simp] theorem State.modGroup_started (h : Group → Group) : (s.modGroup gid h).started = s.started := by unfold State.modGroup; split <;> rfl
@[simp] theorem State.modGroup_dead (h : Group → Group) : (s.modGroup gid h).dead = s.dead := by unfold State.modGroup; split <;> rfl
@[simp] theorem State.modGroup_epid (h : Group → Group) : (s.modGroup gid h).epid = s.epid := by unfold State.modGroup; split <;> rfl
@[simp] theorem State.modGroup_ports (h : Group → Group) : (s.modGroup gid h).ports = s.ports := by unfold State.modGroup; split <;> rfl
@[simp] theorem State.modGroup_eth (h : Group → Group) : (s.modGroup gid h).eth = s.eth := by unfold State.modGroup; split <;> rfl
@[simp] theorem State.modGroup_outbox (h : Group → Group) : (s.modGroup gid h).outbox = s.outbox := by unfold State.modGroup; split <;> rfl
@[simp] theorem State.modGroup_reqSeen (h : Group → Group) : (s.modGroup gid h).reqSeen = s.reqSeen := by unfold State.modGroup; split <;> rfl
@[simp] theorem State.modGroup_notifyHold (h : Group → Group) : (s.modGroup gid h).notifyHold = s.notifyHold := by unfold State.modGroup; split <;> rfl
@[simp] theorem State.modGroup_askedAgain (h : Group → Group) : (s.modGroup gid h).askedAgain = s.askedAgain := by unfold State.modGroup; split <;> rfl
@[simp] theorem State.modGroup_parts (h : Group → Group) : (s.modGroup gid h).parts = s.parts := by unfold State.modGroup; split <;> rfl
@[simp] theorem State.modGroup_ctxs (h : Group → Group) : (s.modGroup gid h).ctxs = s.ctxs := by unfold State.modGroup; split <;> rfl
@[simp] theorem State.modGroup_kernels (h : Group → Group) : (s.modGroup gid h).kernels = s.kernels := by unfold State.modGroup; split <;> rfl
@[simp] theorem State.modGroup_graphs (h : Group → Group) : (s.modGroup gid h).graphs = s.graphs := by unfold State.modGroup; split <;> rfl
@[simp] theorem State.modGroup_ops (h : Group → Group) : (s.modGroup gid h).ops = s.ops := by unfold State.modGroup; split <;> rfl
@[simp] theorem State.modGroup_mxops (h : Group → Group) : (s.modGroup gid h).mxops = s.mxops := by unfold State.modGroup; split <;> rfl
@[simp] theorem State.modGroup_calls (h : Group → Group) : (s.modGroup gid h).calls = s.calls := by unfold State.modGroup; split <;> rfl
@[simp] theorem State.modGroup_hostVc (h : Group → Group) : (s.modGroup gid h).hostVc = s.hostVc := by unfold State.modGroup; split <;> rfl
@[simp] theorem State.modGroup_images (h : Group → Group) : (s.modGroup gid h).images = s.images := by unfold State.modGroup; split <;> rfl
@[simp] theorem State.modGroup_agenda (h : Group → Group) : (s.modGroup gid h).agenda = s.agenda := by unfold State.modGroup; split <;> rfl
@[simp] theorem State.modGroup_cur (h : Group → Group) : (s.modGroup gid h).cur = s.cur := by unfold State.modGroup; split <;> rfl
@[simp] theorem State.modGroup_curHart (h : Group → Group) : (s.modGroup gid h).curHart = s.curHart := by unfold State.modGroup; split <;> rfl
@[simp] theorem State.modGroup_tick (h : Group → Group) : (s.modGroup gid h).tick = s.tick := by unfold State.modGroup; split <;> rfl
@[simp] theorem State.modGroup_nextGid (h : Group → Group) : (s.modGroup gid h).nextGid = s.nextGid := by unfold State.modGroup; split <;> rfl
@[simp] theorem State.modGroup_nextKid (h : Group → Group) : (s.modGroup gid h).nextKid = s.nextKid := by unfold State.modGroup; split <;> rfl
@[simp] theorem State.modGroup_nextAid (h : Group → Group) : (s.modGroup gid h).nextAid = s.nextAid := by unfold State.modGroup; split <;> rfl
@[simp] theorem State.modGroup_nextInst (h : Group → Group) : (s.modGroup gid h).nextInst = s.nextInst := by unfold State.modGroup; split <;> rfl
@[simp] theorem State.modGroup_nextOp (h : Group → Group) : (s.modGroup gid h).nextOp = s.nextOp := by unfold State.modGroup; split <;> rfl
@[simp] theorem State.setThread_mem : (s.setThread gid t th).mem = s.mem := by simp [State.setThread]
@[simp] theorem State.setThread_badUnits : (s.setThread gid t th).badUnits = s.badUnits := by simp [State.setThread]
@[simp] theorem State.setThread_unitKey : (s.setThread gid t th).unitKey = s.unitKey := by simp [State.setThread]
@[simp] theorem State.setThread_reach : (s.setThread gid t th).reach = s.reach := by simp [State.setThread]
@[simp] theorem State.setThread_resv : (s.setThread gid t th).resv = s.resv := by simp [State.setThread]
@[simp] theorem State.setThread_stamps : (s.setThread gid t th).stamps = s.stamps := by simp [State.setThread]
@[simp] theorem State.setThread_rels : (s.setThread gid t th).rels = s.rels := by simp [State.setThread]
@[simp] theorem State.setThread_cores : (s.setThread gid t th).cores = s.cores := by simp [State.setThread]
@[simp] theorem State.setThread_dies : (s.setThread gid t th).dies = s.dies := by simp [State.setThread]
@[simp] theorem State.setThread_banks : (s.setThread gid t th).banks = s.banks := by simp [State.setThread]
@[simp] theorem State.setThread_meas : (s.setThread gid t th).meas = s.meas := by simp [State.setThread]
@[simp] theorem State.setThread_started : (s.setThread gid t th).started = s.started := by simp [State.setThread]
@[simp] theorem State.setThread_dead : (s.setThread gid t th).dead = s.dead := by simp [State.setThread]
@[simp] theorem State.setThread_epid : (s.setThread gid t th).epid = s.epid := by simp [State.setThread]
@[simp] theorem State.setThread_ports : (s.setThread gid t th).ports = s.ports := by simp [State.setThread]
@[simp] theorem State.setThread_eth : (s.setThread gid t th).eth = s.eth := by simp [State.setThread]
@[simp] theorem State.setThread_outbox : (s.setThread gid t th).outbox = s.outbox := by simp [State.setThread]
@[simp] theorem State.setThread_reqSeen : (s.setThread gid t th).reqSeen = s.reqSeen := by simp [State.setThread]
@[simp] theorem State.setThread_notifyHold : (s.setThread gid t th).notifyHold = s.notifyHold := by simp [State.setThread]
@[simp] theorem State.setThread_askedAgain : (s.setThread gid t th).askedAgain = s.askedAgain := by simp [State.setThread]
@[simp] theorem State.setThread_parts : (s.setThread gid t th).parts = s.parts := by simp [State.setThread]
@[simp] theorem State.setThread_ctxs : (s.setThread gid t th).ctxs = s.ctxs := by simp [State.setThread]
@[simp] theorem State.setThread_kernels : (s.setThread gid t th).kernels = s.kernels := by simp [State.setThread]
@[simp] theorem State.setThread_graphs : (s.setThread gid t th).graphs = s.graphs := by simp [State.setThread]
@[simp] theorem State.setThread_ops : (s.setThread gid t th).ops = s.ops := by simp [State.setThread]
@[simp] theorem State.setThread_mxops : (s.setThread gid t th).mxops = s.mxops := by simp [State.setThread]
@[simp] theorem State.setThread_calls : (s.setThread gid t th).calls = s.calls := by simp [State.setThread]
@[simp] theorem State.setThread_hostVc : (s.setThread gid t th).hostVc = s.hostVc := by simp [State.setThread]
@[simp] theorem State.setThread_images : (s.setThread gid t th).images = s.images := by simp [State.setThread]
@[simp] theorem State.setThread_agenda : (s.setThread gid t th).agenda = s.agenda := by simp [State.setThread]
@[simp] theorem State.setThread_cur : (s.setThread gid t th).cur = s.cur := by simp [State.setThread]
@[simp] theorem State.setThread_curHart : (s.setThread gid t th).curHart = s.curHart := by simp [State.setThread]
@[simp] theorem State.setThread_tick : (s.setThread gid t th).tick = s.tick := by simp [State.setThread]
@[simp] theorem State.setThread_nextGid : (s.setThread gid t th).nextGid = s.nextGid := by simp [State.setThread]
@[simp] theorem State.setThread_nextKid : (s.setThread gid t th).nextKid = s.nextKid := by simp [State.setThread]
@[simp] theorem State.setThread_nextAid : (s.setThread gid t th).nextAid = s.nextAid := by simp [State.setThread]
@[simp] theorem State.setThread_nextInst : (s.setThread gid t th).nextInst = s.nextInst := by simp [State.setThread]
@[simp] theorem State.setThread_nextOp : (s.setThread gid t th).nextOp = s.nextOp := by simp [State.setThread]
@[simp] theorem State.modThread_mem (h : Thread → Thread) : (s.modThread gid t h).mem = s.mem := by simp [State.modThread]
@[simp] theorem State.modThread_badUnits (h : Thread → Thread) : (s.modThread gid t h).badUnits = s.badUnits := by simp [State.modThread]
@[simp] theorem State.modThread_unitKey (h : Thread → Thread) : (s.modThread gid t h).unitKey = s.unitKey := by simp [State.modThread]
@[simp] theorem State.modThread_reach (h : Thread → Thread) : (s.modThread gid t h).reach = s.reach := by simp [State.modThread]
@[simp] theorem State.modThread_resv (h : Thread → Thread) : (s.modThread gid t h).resv = s.resv := by simp [State.modThread]
@[simp] theorem State.modThread_stamps (h : Thread → Thread) : (s.modThread gid t h).stamps = s.stamps := by simp [State.modThread]
@[simp] theorem State.modThread_rels (h : Thread → Thread) : (s.modThread gid t h).rels = s.rels := by simp [State.modThread]
@[simp] theorem State.modThread_cores (h : Thread → Thread) : (s.modThread gid t h).cores = s.cores := by simp [State.modThread]
@[simp] theorem State.modThread_dies (h : Thread → Thread) : (s.modThread gid t h).dies = s.dies := by simp [State.modThread]
@[simp] theorem State.modThread_banks (h : Thread → Thread) : (s.modThread gid t h).banks = s.banks := by simp [State.modThread]
@[simp] theorem State.modThread_meas (h : Thread → Thread) : (s.modThread gid t h).meas = s.meas := by simp [State.modThread]
@[simp] theorem State.modThread_started (h : Thread → Thread) : (s.modThread gid t h).started = s.started := by simp [State.modThread]
@[simp] theorem State.modThread_dead (h : Thread → Thread) : (s.modThread gid t h).dead = s.dead := by simp [State.modThread]
@[simp] theorem State.modThread_epid (h : Thread → Thread) : (s.modThread gid t h).epid = s.epid := by simp [State.modThread]
@[simp] theorem State.modThread_ports (h : Thread → Thread) : (s.modThread gid t h).ports = s.ports := by simp [State.modThread]
@[simp] theorem State.modThread_eth (h : Thread → Thread) : (s.modThread gid t h).eth = s.eth := by simp [State.modThread]
@[simp] theorem State.modThread_outbox (h : Thread → Thread) : (s.modThread gid t h).outbox = s.outbox := by simp [State.modThread]
@[simp] theorem State.modThread_reqSeen (h : Thread → Thread) : (s.modThread gid t h).reqSeen = s.reqSeen := by simp [State.modThread]
@[simp] theorem State.modThread_notifyHold (h : Thread → Thread) : (s.modThread gid t h).notifyHold = s.notifyHold := by simp [State.modThread]
@[simp] theorem State.modThread_askedAgain (h : Thread → Thread) : (s.modThread gid t h).askedAgain = s.askedAgain := by simp [State.modThread]
@[simp] theorem State.modThread_parts (h : Thread → Thread) : (s.modThread gid t h).parts = s.parts := by simp [State.modThread]
@[simp] theorem State.modThread_ctxs (h : Thread → Thread) : (s.modThread gid t h).ctxs = s.ctxs := by simp [State.modThread]
@[simp] theorem State.modThread_kernels (h : Thread → Thread) : (s.modThread gid t h).kernels = s.kernels := by simp [State.modThread]
@[simp] theorem State.modThread_graphs (h : Thread → Thread) : (s.modThread gid t h).graphs = s.graphs := by simp [State.modThread]
@[simp] theorem State.modThread_ops (h : Thread → Thread) : (s.modThread gid t h).ops = s.ops := by simp [State.modThread]
@[simp] theorem State.modThread_mxops (h : Thread → Thread) : (s.modThread gid t h).mxops = s.mxops := by simp [State.modThread]
@[simp] theorem State.modThread_calls (h : Thread → Thread) : (s.modThread gid t h).calls = s.calls := by simp [State.modThread]
@[simp] theorem State.modThread_hostVc (h : Thread → Thread) : (s.modThread gid t h).hostVc = s.hostVc := by simp [State.modThread]
@[simp] theorem State.modThread_images (h : Thread → Thread) : (s.modThread gid t h).images = s.images := by simp [State.modThread]
@[simp] theorem State.modThread_agenda (h : Thread → Thread) : (s.modThread gid t h).agenda = s.agenda := by simp [State.modThread]
@[simp] theorem State.modThread_cur (h : Thread → Thread) : (s.modThread gid t h).cur = s.cur := by simp [State.modThread]
@[simp] theorem State.modThread_curHart (h : Thread → Thread) : (s.modThread gid t h).curHart = s.curHart := by simp [State.modThread]
@[simp] theorem State.modThread_tick (h : Thread → Thread) : (s.modThread gid t h).tick = s.tick := by simp [State.modThread]
@[simp] theorem State.modThread_nextGid (h : Thread → Thread) : (s.modThread gid t h).nextGid = s.nextGid := by simp [State.modThread]
@[simp] theorem State.modThread_nextKid (h : Thread → Thread) : (s.modThread gid t h).nextKid = s.nextKid := by simp [State.modThread]
@[simp] theorem State.modThread_nextAid (h : Thread → Thread) : (s.modThread gid t h).nextAid = s.nextAid := by simp [State.modThread]
@[simp] theorem State.modThread_nextInst (h : Thread → Thread) : (s.modThread gid t h).nextInst = s.nextInst := by simp [State.modThread]
@[simp] theorem State.modThread_nextOp (h : Thread → Thread) : (s.modThread gid t h).nextOp = s.nextOp := by simp [State.modThread]
@[simp] theorem State.setCtx_mem (c : Context) : (s.setCtx n c).mem = s.mem := rfl
@[simp] theorem State.setCtx_badUnits (c : Context) : (s.setCtx n c).badUnits = s.badUnits := rfl
@[simp] theorem State.setCtx_unitKey (c : Context) : (s.setCtx n c).unitKey = s.unitKey := rfl
@[simp] theorem State.setCtx_reach (c : Context) : (s.setCtx n c).reach = s.reach := rfl
@[simp] theorem State.setCtx_resv (c : Context) : (s.setCtx n c).resv = s.resv := rfl
@[simp] theorem State.setCtx_stamps (c : Context) : (s.setCtx n c).stamps = s.stamps := rfl
@[simp] theorem State.setCtx_rels (c : Context) : (s.setCtx n c).rels = s.rels := rfl
@[simp] theorem State.setCtx_cores (c : Context) : (s.setCtx n c).cores = s.cores := rfl
@[simp] theorem State.setCtx_dies (c : Context) : (s.setCtx n c).dies = s.dies := rfl
@[simp] theorem State.setCtx_banks (c : Context) : (s.setCtx n c).banks = s.banks := rfl
@[simp] theorem State.setCtx_meas (c : Context) : (s.setCtx n c).meas = s.meas := rfl
@[simp] theorem State.setCtx_started (c : Context) : (s.setCtx n c).started = s.started := rfl
@[simp] theorem State.setCtx_dead (c : Context) : (s.setCtx n c).dead = s.dead := rfl
@[simp] theorem State.setCtx_epid (c : Context) : (s.setCtx n c).epid = s.epid := rfl
@[simp] theorem State.setCtx_ports (c : Context) : (s.setCtx n c).ports = s.ports := rfl
@[simp] theorem State.setCtx_eth (c : Context) : (s.setCtx n c).eth = s.eth := rfl
@[simp] theorem State.setCtx_outbox (c : Context) : (s.setCtx n c).outbox = s.outbox := rfl
@[simp] theorem State.setCtx_reqSeen (c : Context) : (s.setCtx n c).reqSeen = s.reqSeen := rfl
@[simp] theorem State.setCtx_notifyHold (c : Context) : (s.setCtx n c).notifyHold = s.notifyHold := rfl
@[simp] theorem State.setCtx_askedAgain (c : Context) : (s.setCtx n c).askedAgain = s.askedAgain := rfl
@[simp] theorem State.setCtx_parts (c : Context) : (s.setCtx n c).parts = s.parts := rfl
@[simp] theorem State.setCtx_kernels (c : Context) : (s.setCtx n c).kernels = s.kernels := rfl
@[simp] theorem State.setCtx_graphs (c : Context) : (s.setCtx n c).graphs = s.graphs := rfl
@[simp] theorem State.setCtx_groups (c : Context) : (s.setCtx n c).groups = s.groups := rfl
@[simp] theorem State.setCtx_ops (c : Context) : (s.setCtx n c).ops = s.ops := rfl
@[simp] theorem State.setCtx_mxops (c : Context) : (s.setCtx n c).mxops = s.mxops := rfl
@[simp] theorem State.setCtx_calls (c : Context) : (s.setCtx n c).calls = s.calls := rfl
@[simp] theorem State.setCtx_hostVc (c : Context) : (s.setCtx n c).hostVc = s.hostVc := rfl
@[simp] theorem State.setCtx_images (c : Context) : (s.setCtx n c).images = s.images := rfl
@[simp] theorem State.setCtx_agenda (c : Context) : (s.setCtx n c).agenda = s.agenda := rfl
@[simp] theorem State.setCtx_cur (c : Context) : (s.setCtx n c).cur = s.cur := rfl
@[simp] theorem State.setCtx_curHart (c : Context) : (s.setCtx n c).curHart = s.curHart := rfl
@[simp] theorem State.setCtx_tick (c : Context) : (s.setCtx n c).tick = s.tick := rfl
@[simp] theorem State.setCtx_nextGid (c : Context) : (s.setCtx n c).nextGid = s.nextGid := rfl
@[simp] theorem State.setCtx_nextKid (c : Context) : (s.setCtx n c).nextKid = s.nextKid := rfl
@[simp] theorem State.setCtx_nextAid (c : Context) : (s.setCtx n c).nextAid = s.nextAid := rfl
@[simp] theorem State.setCtx_nextInst (c : Context) : (s.setCtx n c).nextInst = s.nextInst := rfl
@[simp] theorem State.setCtx_nextOp (c : Context) : (s.setCtx n c).nextOp = s.nextOp := rfl
@[simp] theorem State.setPart_mem (p : Partition) : (s.setPart n p).mem = s.mem := rfl
@[simp] theorem State.setPart_badUnits (p : Partition) : (s.setPart n p).badUnits = s.badUnits := rfl
@[simp] theorem State.setPart_unitKey (p : Partition) : (s.setPart n p).unitKey = s.unitKey := rfl
@[simp] theorem State.setPart_reach (p : Partition) : (s.setPart n p).reach = s.reach := rfl
@[simp] theorem State.setPart_resv (p : Partition) : (s.setPart n p).resv = s.resv := rfl
@[simp] theorem State.setPart_stamps (p : Partition) : (s.setPart n p).stamps = s.stamps := rfl
@[simp] theorem State.setPart_rels (p : Partition) : (s.setPart n p).rels = s.rels := rfl
@[simp] theorem State.setPart_cores (p : Partition) : (s.setPart n p).cores = s.cores := rfl
@[simp] theorem State.setPart_dies (p : Partition) : (s.setPart n p).dies = s.dies := rfl
@[simp] theorem State.setPart_banks (p : Partition) : (s.setPart n p).banks = s.banks := rfl
@[simp] theorem State.setPart_meas (p : Partition) : (s.setPart n p).meas = s.meas := rfl
@[simp] theorem State.setPart_started (p : Partition) : (s.setPart n p).started = s.started := rfl
@[simp] theorem State.setPart_dead (p : Partition) : (s.setPart n p).dead = s.dead := rfl
@[simp] theorem State.setPart_epid (p : Partition) : (s.setPart n p).epid = s.epid := rfl
@[simp] theorem State.setPart_ports (p : Partition) : (s.setPart n p).ports = s.ports := rfl
@[simp] theorem State.setPart_eth (p : Partition) : (s.setPart n p).eth = s.eth := rfl
@[simp] theorem State.setPart_outbox (p : Partition) : (s.setPart n p).outbox = s.outbox := rfl
@[simp] theorem State.setPart_reqSeen (p : Partition) : (s.setPart n p).reqSeen = s.reqSeen := rfl
@[simp] theorem State.setPart_notifyHold (p : Partition) : (s.setPart n p).notifyHold = s.notifyHold := rfl
@[simp] theorem State.setPart_askedAgain (p : Partition) : (s.setPart n p).askedAgain = s.askedAgain := rfl
@[simp] theorem State.setPart_ctxs (p : Partition) : (s.setPart n p).ctxs = s.ctxs := rfl
@[simp] theorem State.setPart_kernels (p : Partition) : (s.setPart n p).kernels = s.kernels := rfl
@[simp] theorem State.setPart_graphs (p : Partition) : (s.setPart n p).graphs = s.graphs := rfl
@[simp] theorem State.setPart_groups (p : Partition) : (s.setPart n p).groups = s.groups := rfl
@[simp] theorem State.setPart_ops (p : Partition) : (s.setPart n p).ops = s.ops := rfl
@[simp] theorem State.setPart_mxops (p : Partition) : (s.setPart n p).mxops = s.mxops := rfl
@[simp] theorem State.setPart_calls (p : Partition) : (s.setPart n p).calls = s.calls := rfl
@[simp] theorem State.setPart_hostVc (p : Partition) : (s.setPart n p).hostVc = s.hostVc := rfl
@[simp] theorem State.setPart_images (p : Partition) : (s.setPart n p).images = s.images := rfl
@[simp] theorem State.setPart_agenda (p : Partition) : (s.setPart n p).agenda = s.agenda := rfl
@[simp] theorem State.setPart_cur (p : Partition) : (s.setPart n p).cur = s.cur := rfl
@[simp] theorem State.setPart_curHart (p : Partition) : (s.setPart n p).curHart = s.curHart := rfl
@[simp] theorem State.setPart_tick (p : Partition) : (s.setPart n p).tick = s.tick := rfl
@[simp] theorem State.setPart_nextGid (p : Partition) : (s.setPart n p).nextGid = s.nextGid := rfl
@[simp] theorem State.setPart_nextKid (p : Partition) : (s.setPart n p).nextKid = s.nextKid := rfl
@[simp] theorem State.setPart_nextAid (p : Partition) : (s.setPart n p).nextAid = s.nextAid := rfl
@[simp] theorem State.setPart_nextInst (p : Partition) : (s.setPart n p).nextInst = s.nextInst := rfl
@[simp] theorem State.setPart_nextOp (p : Partition) : (s.setPart n p).nextOp = s.nextOp := rfl
@[simp] theorem State.setCore_mem (c : Core) : (s.setCore n c).mem = s.mem := rfl
@[simp] theorem State.setCore_badUnits (c : Core) : (s.setCore n c).badUnits = s.badUnits := rfl
@[simp] theorem State.setCore_unitKey (c : Core) : (s.setCore n c).unitKey = s.unitKey := rfl
@[simp] theorem State.setCore_reach (c : Core) : (s.setCore n c).reach = s.reach := rfl
@[simp] theorem State.setCore_resv (c : Core) : (s.setCore n c).resv = s.resv := rfl
@[simp] theorem State.setCore_stamps (c : Core) : (s.setCore n c).stamps = s.stamps := rfl
@[simp] theorem State.setCore_rels (c : Core) : (s.setCore n c).rels = s.rels := rfl
@[simp] theorem State.setCore_dies (c : Core) : (s.setCore n c).dies = s.dies := rfl
@[simp] theorem State.setCore_banks (c : Core) : (s.setCore n c).banks = s.banks := rfl
@[simp] theorem State.setCore_meas (c : Core) : (s.setCore n c).meas = s.meas := rfl
@[simp] theorem State.setCore_started (c : Core) : (s.setCore n c).started = s.started := rfl
@[simp] theorem State.setCore_dead (c : Core) : (s.setCore n c).dead = s.dead := rfl
@[simp] theorem State.setCore_epid (c : Core) : (s.setCore n c).epid = s.epid := rfl
@[simp] theorem State.setCore_ports (c : Core) : (s.setCore n c).ports = s.ports := rfl
@[simp] theorem State.setCore_eth (c : Core) : (s.setCore n c).eth = s.eth := rfl
@[simp] theorem State.setCore_outbox (c : Core) : (s.setCore n c).outbox = s.outbox := rfl
@[simp] theorem State.setCore_reqSeen (c : Core) : (s.setCore n c).reqSeen = s.reqSeen := rfl
@[simp] theorem State.setCore_notifyHold (c : Core) : (s.setCore n c).notifyHold = s.notifyHold := rfl
@[simp] theorem State.setCore_askedAgain (c : Core) : (s.setCore n c).askedAgain = s.askedAgain := rfl
@[simp] theorem State.setCore_parts (c : Core) : (s.setCore n c).parts = s.parts := rfl
@[simp] theorem State.setCore_ctxs (c : Core) : (s.setCore n c).ctxs = s.ctxs := rfl
@[simp] theorem State.setCore_kernels (c : Core) : (s.setCore n c).kernels = s.kernels := rfl
@[simp] theorem State.setCore_graphs (c : Core) : (s.setCore n c).graphs = s.graphs := rfl
@[simp] theorem State.setCore_groups (c : Core) : (s.setCore n c).groups = s.groups := rfl
@[simp] theorem State.setCore_ops (c : Core) : (s.setCore n c).ops = s.ops := rfl
@[simp] theorem State.setCore_mxops (c : Core) : (s.setCore n c).mxops = s.mxops := rfl
@[simp] theorem State.setCore_calls (c : Core) : (s.setCore n c).calls = s.calls := rfl
@[simp] theorem State.setCore_hostVc (c : Core) : (s.setCore n c).hostVc = s.hostVc := rfl
@[simp] theorem State.setCore_images (c : Core) : (s.setCore n c).images = s.images := rfl
@[simp] theorem State.setCore_agenda (c : Core) : (s.setCore n c).agenda = s.agenda := rfl
@[simp] theorem State.setCore_cur (c : Core) : (s.setCore n c).cur = s.cur := rfl
@[simp] theorem State.setCore_curHart (c : Core) : (s.setCore n c).curHart = s.curHart := rfl
@[simp] theorem State.setCore_tick (c : Core) : (s.setCore n c).tick = s.tick := rfl
@[simp] theorem State.setCore_nextGid (c : Core) : (s.setCore n c).nextGid = s.nextGid := rfl
@[simp] theorem State.setCore_nextKid (c : Core) : (s.setCore n c).nextKid = s.nextKid := rfl
@[simp] theorem State.setCore_nextAid (c : Core) : (s.setCore n c).nextAid = s.nextAid := rfl
@[simp] theorem State.setCore_nextInst (c : Core) : (s.setCore n c).nextInst = s.nextInst := rfl
@[simp] theorem State.setCore_nextOp (c : Core) : (s.setCore n c).nextOp = s.nextOp := rfl
@[simp] theorem State.setDie_mem (d : Die) : (s.setDie n d).mem = s.mem := rfl
@[simp] theorem State.setDie_badUnits (d : Die) : (s.setDie n d).badUnits = s.badUnits := rfl
@[simp] theorem State.setDie_unitKey (d : Die) : (s.setDie n d).unitKey = s.unitKey := rfl
@[simp] theorem State.setDie_reach (d : Die) : (s.setDie n d).reach = s.reach := rfl
@[simp] theorem State.setDie_resv (d : Die) : (s.setDie n d).resv = s.resv := rfl
@[simp] theorem State.setDie_stamps (d : Die) : (s.setDie n d).stamps = s.stamps := rfl
@[simp] theorem State.setDie_rels (d : Die) : (s.setDie n d).rels = s.rels := rfl
@[simp] theorem State.setDie_cores (d : Die) : (s.setDie n d).cores = s.cores := rfl
@[simp] theorem State.setDie_banks (d : Die) : (s.setDie n d).banks = s.banks := rfl
@[simp] theorem State.setDie_meas (d : Die) : (s.setDie n d).meas = s.meas := rfl
@[simp] theorem State.setDie_started (d : Die) : (s.setDie n d).started = s.started := rfl
@[simp] theorem State.setDie_dead (d : Die) : (s.setDie n d).dead = s.dead := rfl
@[simp] theorem State.setDie_epid (d : Die) : (s.setDie n d).epid = s.epid := rfl
@[simp] theorem State.setDie_ports (d : Die) : (s.setDie n d).ports = s.ports := rfl
@[simp] theorem State.setDie_eth (d : Die) : (s.setDie n d).eth = s.eth := rfl
@[simp] theorem State.setDie_outbox (d : Die) : (s.setDie n d).outbox = s.outbox := rfl
@[simp] theorem State.setDie_reqSeen (d : Die) : (s.setDie n d).reqSeen = s.reqSeen := rfl
@[simp] theorem State.setDie_notifyHold (d : Die) : (s.setDie n d).notifyHold = s.notifyHold := rfl
@[simp] theorem State.setDie_askedAgain (d : Die) : (s.setDie n d).askedAgain = s.askedAgain := rfl
@[simp] theorem State.setDie_parts (d : Die) : (s.setDie n d).parts = s.parts := rfl
@[simp] theorem State.setDie_ctxs (d : Die) : (s.setDie n d).ctxs = s.ctxs := rfl
@[simp] theorem State.setDie_kernels (d : Die) : (s.setDie n d).kernels = s.kernels := rfl
@[simp] theorem State.setDie_graphs (d : Die) : (s.setDie n d).graphs = s.graphs := rfl
@[simp] theorem State.setDie_groups (d : Die) : (s.setDie n d).groups = s.groups := rfl
@[simp] theorem State.setDie_ops (d : Die) : (s.setDie n d).ops = s.ops := rfl
@[simp] theorem State.setDie_mxops (d : Die) : (s.setDie n d).mxops = s.mxops := rfl
@[simp] theorem State.setDie_calls (d : Die) : (s.setDie n d).calls = s.calls := rfl
@[simp] theorem State.setDie_hostVc (d : Die) : (s.setDie n d).hostVc = s.hostVc := rfl
@[simp] theorem State.setDie_images (d : Die) : (s.setDie n d).images = s.images := rfl
@[simp] theorem State.setDie_agenda (d : Die) : (s.setDie n d).agenda = s.agenda := rfl
@[simp] theorem State.setDie_cur (d : Die) : (s.setDie n d).cur = s.cur := rfl
@[simp] theorem State.setDie_curHart (d : Die) : (s.setDie n d).curHart = s.curHart := rfl
@[simp] theorem State.setDie_tick (d : Die) : (s.setDie n d).tick = s.tick := rfl
@[simp] theorem State.setDie_nextGid (d : Die) : (s.setDie n d).nextGid = s.nextGid := rfl
@[simp] theorem State.setDie_nextKid (d : Die) : (s.setDie n d).nextKid = s.nextKid := rfl
@[simp] theorem State.setDie_nextAid (d : Die) : (s.setDie n d).nextAid = s.nextAid := rfl
@[simp] theorem State.setDie_nextInst (d : Die) : (s.setDie n d).nextInst = s.nextInst := rfl
@[simp] theorem State.setDie_nextOp (d : Die) : (s.setDie n d).nextOp = s.nextOp := rfl
@[simp] theorem State.setGraph_mem (x : Graph) : (s.setGraph n x).mem = s.mem := rfl
@[simp] theorem State.setGraph_badUnits (x : Graph) : (s.setGraph n x).badUnits = s.badUnits := rfl
@[simp] theorem State.setGraph_unitKey (x : Graph) : (s.setGraph n x).unitKey = s.unitKey := rfl
@[simp] theorem State.setGraph_reach (x : Graph) : (s.setGraph n x).reach = s.reach := rfl
@[simp] theorem State.setGraph_resv (x : Graph) : (s.setGraph n x).resv = s.resv := rfl
@[simp] theorem State.setGraph_stamps (x : Graph) : (s.setGraph n x).stamps = s.stamps := rfl
@[simp] theorem State.setGraph_rels (x : Graph) : (s.setGraph n x).rels = s.rels := rfl
@[simp] theorem State.setGraph_cores (x : Graph) : (s.setGraph n x).cores = s.cores := rfl
@[simp] theorem State.setGraph_dies (x : Graph) : (s.setGraph n x).dies = s.dies := rfl
@[simp] theorem State.setGraph_banks (x : Graph) : (s.setGraph n x).banks = s.banks := rfl
@[simp] theorem State.setGraph_meas (x : Graph) : (s.setGraph n x).meas = s.meas := rfl
@[simp] theorem State.setGraph_started (x : Graph) : (s.setGraph n x).started = s.started := rfl
@[simp] theorem State.setGraph_dead (x : Graph) : (s.setGraph n x).dead = s.dead := rfl
@[simp] theorem State.setGraph_epid (x : Graph) : (s.setGraph n x).epid = s.epid := rfl
@[simp] theorem State.setGraph_ports (x : Graph) : (s.setGraph n x).ports = s.ports := rfl
@[simp] theorem State.setGraph_eth (x : Graph) : (s.setGraph n x).eth = s.eth := rfl
@[simp] theorem State.setGraph_outbox (x : Graph) : (s.setGraph n x).outbox = s.outbox := rfl
@[simp] theorem State.setGraph_reqSeen (x : Graph) : (s.setGraph n x).reqSeen = s.reqSeen := rfl
@[simp] theorem State.setGraph_notifyHold (x : Graph) : (s.setGraph n x).notifyHold = s.notifyHold := rfl
@[simp] theorem State.setGraph_askedAgain (x : Graph) : (s.setGraph n x).askedAgain = s.askedAgain := rfl
@[simp] theorem State.setGraph_parts (x : Graph) : (s.setGraph n x).parts = s.parts := rfl
@[simp] theorem State.setGraph_ctxs (x : Graph) : (s.setGraph n x).ctxs = s.ctxs := rfl
@[simp] theorem State.setGraph_kernels (x : Graph) : (s.setGraph n x).kernels = s.kernels := rfl
@[simp] theorem State.setGraph_groups (x : Graph) : (s.setGraph n x).groups = s.groups := rfl
@[simp] theorem State.setGraph_ops (x : Graph) : (s.setGraph n x).ops = s.ops := rfl
@[simp] theorem State.setGraph_mxops (x : Graph) : (s.setGraph n x).mxops = s.mxops := rfl
@[simp] theorem State.setGraph_calls (x : Graph) : (s.setGraph n x).calls = s.calls := rfl
@[simp] theorem State.setGraph_hostVc (x : Graph) : (s.setGraph n x).hostVc = s.hostVc := rfl
@[simp] theorem State.setGraph_images (x : Graph) : (s.setGraph n x).images = s.images := rfl
@[simp] theorem State.setGraph_agenda (x : Graph) : (s.setGraph n x).agenda = s.agenda := rfl
@[simp] theorem State.setGraph_cur (x : Graph) : (s.setGraph n x).cur = s.cur := rfl
@[simp] theorem State.setGraph_curHart (x : Graph) : (s.setGraph n x).curHart = s.curHart := rfl
@[simp] theorem State.setGraph_tick (x : Graph) : (s.setGraph n x).tick = s.tick := rfl
@[simp] theorem State.setGraph_nextGid (x : Graph) : (s.setGraph n x).nextGid = s.nextGid := rfl
@[simp] theorem State.setGraph_nextKid (x : Graph) : (s.setGraph n x).nextKid = s.nextKid := rfl
@[simp] theorem State.setGraph_nextAid (x : Graph) : (s.setGraph n x).nextAid = s.nextAid := rfl
@[simp] theorem State.setGraph_nextInst (x : Graph) : (s.setGraph n x).nextInst = s.nextInst := rfl
@[simp] theorem State.setGraph_nextOp (x : Graph) : (s.setGraph n x).nextOp = s.nextOp := rfl
@[simp] theorem State.setQueue_mem (q : Nat) (u : Queue) : (s.setQueue n q u).mem = s.mem := rfl
@[simp] theorem State.setQueue_badUnits (q : Nat) (u : Queue) : (s.setQueue n q u).badUnits = s.badUnits := rfl
@[simp] theorem State.setQueue_unitKey (q : Nat) (u : Queue) : (s.setQueue n q u).unitKey = s.unitKey := rfl
@[simp] theorem State.setQueue_reach (q : Nat) (u : Queue) : (s.setQueue n q u).reach = s.reach := rfl
@[simp] theorem State.setQueue_resv (q : Nat) (u : Queue) : (s.setQueue n q u).resv = s.resv := rfl
@[simp] theorem State.setQueue_stamps (q : Nat) (u : Queue) : (s.setQueue n q u).stamps = s.stamps := rfl
@[simp] theorem State.setQueue_rels (q : Nat) (u : Queue) : (s.setQueue n q u).rels = s.rels := rfl
@[simp] theorem State.setQueue_cores (q : Nat) (u : Queue) : (s.setQueue n q u).cores = s.cores := rfl
@[simp] theorem State.setQueue_dies (q : Nat) (u : Queue) : (s.setQueue n q u).dies = s.dies := rfl
@[simp] theorem State.setQueue_banks (q : Nat) (u : Queue) : (s.setQueue n q u).banks = s.banks := rfl
@[simp] theorem State.setQueue_meas (q : Nat) (u : Queue) : (s.setQueue n q u).meas = s.meas := rfl
@[simp] theorem State.setQueue_started (q : Nat) (u : Queue) : (s.setQueue n q u).started = s.started := rfl
@[simp] theorem State.setQueue_dead (q : Nat) (u : Queue) : (s.setQueue n q u).dead = s.dead := rfl
@[simp] theorem State.setQueue_epid (q : Nat) (u : Queue) : (s.setQueue n q u).epid = s.epid := rfl
@[simp] theorem State.setQueue_ports (q : Nat) (u : Queue) : (s.setQueue n q u).ports = s.ports := rfl
@[simp] theorem State.setQueue_eth (q : Nat) (u : Queue) : (s.setQueue n q u).eth = s.eth := rfl
@[simp] theorem State.setQueue_outbox (q : Nat) (u : Queue) : (s.setQueue n q u).outbox = s.outbox := rfl
@[simp] theorem State.setQueue_reqSeen (q : Nat) (u : Queue) : (s.setQueue n q u).reqSeen = s.reqSeen := rfl
@[simp] theorem State.setQueue_notifyHold (q : Nat) (u : Queue) : (s.setQueue n q u).notifyHold = s.notifyHold := rfl
@[simp] theorem State.setQueue_askedAgain (q : Nat) (u : Queue) : (s.setQueue n q u).askedAgain = s.askedAgain := rfl
@[simp] theorem State.setQueue_parts (q : Nat) (u : Queue) : (s.setQueue n q u).parts = s.parts := rfl
@[simp] theorem State.setQueue_kernels (q : Nat) (u : Queue) : (s.setQueue n q u).kernels = s.kernels := rfl
@[simp] theorem State.setQueue_graphs (q : Nat) (u : Queue) : (s.setQueue n q u).graphs = s.graphs := rfl
@[simp] theorem State.setQueue_groups (q : Nat) (u : Queue) : (s.setQueue n q u).groups = s.groups := rfl
@[simp] theorem State.setQueue_ops (q : Nat) (u : Queue) : (s.setQueue n q u).ops = s.ops := rfl
@[simp] theorem State.setQueue_mxops (q : Nat) (u : Queue) : (s.setQueue n q u).mxops = s.mxops := rfl
@[simp] theorem State.setQueue_calls (q : Nat) (u : Queue) : (s.setQueue n q u).calls = s.calls := rfl
@[simp] theorem State.setQueue_hostVc (q : Nat) (u : Queue) : (s.setQueue n q u).hostVc = s.hostVc := rfl
@[simp] theorem State.setQueue_images (q : Nat) (u : Queue) : (s.setQueue n q u).images = s.images := rfl
@[simp] theorem State.setQueue_agenda (q : Nat) (u : Queue) : (s.setQueue n q u).agenda = s.agenda := rfl
@[simp] theorem State.setQueue_cur (q : Nat) (u : Queue) : (s.setQueue n q u).cur = s.cur := rfl
@[simp] theorem State.setQueue_curHart (q : Nat) (u : Queue) : (s.setQueue n q u).curHart = s.curHart := rfl
@[simp] theorem State.setQueue_tick (q : Nat) (u : Queue) : (s.setQueue n q u).tick = s.tick := rfl
@[simp] theorem State.setQueue_nextGid (q : Nat) (u : Queue) : (s.setQueue n q u).nextGid = s.nextGid := rfl
@[simp] theorem State.setQueue_nextKid (q : Nat) (u : Queue) : (s.setQueue n q u).nextKid = s.nextKid := rfl
@[simp] theorem State.setQueue_nextAid (q : Nat) (u : Queue) : (s.setQueue n q u).nextAid = s.nextAid := rfl
@[simp] theorem State.setQueue_nextInst (q : Nat) (u : Queue) : (s.setQueue n q u).nextInst = s.nextInst := rfl
@[simp] theorem State.setQueue_nextOp (q : Nat) (u : Queue) : (s.setQueue n q u).nextOp = s.nextOp := rfl
@[simp] theorem State.modQueue_mem (q : Nat) (h : Queue → Queue) : (s.modQueue n q h).mem = s.mem := rfl
@[simp] theorem State.modQueue_badUnits (q : Nat) (h : Queue → Queue) : (s.modQueue n q h).badUnits = s.badUnits := rfl
@[simp] theorem State.modQueue_unitKey (q : Nat) (h : Queue → Queue) : (s.modQueue n q h).unitKey = s.unitKey := rfl
@[simp] theorem State.modQueue_reach (q : Nat) (h : Queue → Queue) : (s.modQueue n q h).reach = s.reach := rfl
@[simp] theorem State.modQueue_resv (q : Nat) (h : Queue → Queue) : (s.modQueue n q h).resv = s.resv := rfl
@[simp] theorem State.modQueue_stamps (q : Nat) (h : Queue → Queue) : (s.modQueue n q h).stamps = s.stamps := rfl
@[simp] theorem State.modQueue_rels (q : Nat) (h : Queue → Queue) : (s.modQueue n q h).rels = s.rels := rfl
@[simp] theorem State.modQueue_cores (q : Nat) (h : Queue → Queue) : (s.modQueue n q h).cores = s.cores := rfl
@[simp] theorem State.modQueue_dies (q : Nat) (h : Queue → Queue) : (s.modQueue n q h).dies = s.dies := rfl
@[simp] theorem State.modQueue_banks (q : Nat) (h : Queue → Queue) : (s.modQueue n q h).banks = s.banks := rfl
@[simp] theorem State.modQueue_meas (q : Nat) (h : Queue → Queue) : (s.modQueue n q h).meas = s.meas := rfl
@[simp] theorem State.modQueue_started (q : Nat) (h : Queue → Queue) : (s.modQueue n q h).started = s.started := rfl
@[simp] theorem State.modQueue_dead (q : Nat) (h : Queue → Queue) : (s.modQueue n q h).dead = s.dead := rfl
@[simp] theorem State.modQueue_epid (q : Nat) (h : Queue → Queue) : (s.modQueue n q h).epid = s.epid := rfl
@[simp] theorem State.modQueue_ports (q : Nat) (h : Queue → Queue) : (s.modQueue n q h).ports = s.ports := rfl
@[simp] theorem State.modQueue_eth (q : Nat) (h : Queue → Queue) : (s.modQueue n q h).eth = s.eth := rfl
@[simp] theorem State.modQueue_outbox (q : Nat) (h : Queue → Queue) : (s.modQueue n q h).outbox = s.outbox := rfl
@[simp] theorem State.modQueue_reqSeen (q : Nat) (h : Queue → Queue) : (s.modQueue n q h).reqSeen = s.reqSeen := rfl
@[simp] theorem State.modQueue_notifyHold (q : Nat) (h : Queue → Queue) : (s.modQueue n q h).notifyHold = s.notifyHold := rfl
@[simp] theorem State.modQueue_askedAgain (q : Nat) (h : Queue → Queue) : (s.modQueue n q h).askedAgain = s.askedAgain := rfl
@[simp] theorem State.modQueue_parts (q : Nat) (h : Queue → Queue) : (s.modQueue n q h).parts = s.parts := rfl
@[simp] theorem State.modQueue_kernels (q : Nat) (h : Queue → Queue) : (s.modQueue n q h).kernels = s.kernels := rfl
@[simp] theorem State.modQueue_graphs (q : Nat) (h : Queue → Queue) : (s.modQueue n q h).graphs = s.graphs := rfl
@[simp] theorem State.modQueue_groups (q : Nat) (h : Queue → Queue) : (s.modQueue n q h).groups = s.groups := rfl
@[simp] theorem State.modQueue_ops (q : Nat) (h : Queue → Queue) : (s.modQueue n q h).ops = s.ops := rfl
@[simp] theorem State.modQueue_mxops (q : Nat) (h : Queue → Queue) : (s.modQueue n q h).mxops = s.mxops := rfl
@[simp] theorem State.modQueue_calls (q : Nat) (h : Queue → Queue) : (s.modQueue n q h).calls = s.calls := rfl
@[simp] theorem State.modQueue_hostVc (q : Nat) (h : Queue → Queue) : (s.modQueue n q h).hostVc = s.hostVc := rfl
@[simp] theorem State.modQueue_images (q : Nat) (h : Queue → Queue) : (s.modQueue n q h).images = s.images := rfl
@[simp] theorem State.modQueue_agenda (q : Nat) (h : Queue → Queue) : (s.modQueue n q h).agenda = s.agenda := rfl
@[simp] theorem State.modQueue_cur (q : Nat) (h : Queue → Queue) : (s.modQueue n q h).cur = s.cur := rfl
@[simp] theorem State.modQueue_curHart (q : Nat) (h : Queue → Queue) : (s.modQueue n q h).curHart = s.curHart := rfl
@[simp] theorem State.modQueue_tick (q : Nat) (h : Queue → Queue) : (s.modQueue n q h).tick = s.tick := rfl
@[simp] theorem State.modQueue_nextGid (q : Nat) (h : Queue → Queue) : (s.modQueue n q h).nextGid = s.nextGid := rfl
@[simp] theorem State.modQueue_nextKid (q : Nat) (h : Queue → Queue) : (s.modQueue n q h).nextKid = s.nextKid := rfl
@[simp] theorem State.modQueue_nextAid (q : Nat) (h : Queue → Queue) : (s.modQueue n q h).nextAid = s.nextAid := rfl
@[simp] theorem State.modQueue_nextInst (q : Nat) (h : Queue → Queue) : (s.modQueue n q h).nextInst = s.nextInst := rfl
@[simp] theorem State.modQueue_nextOp (q : Nat) (h : Queue → Queue) : (s.modQueue n q h).nextOp = s.nextOp := rfl
@[simp] theorem State.setFsSlot_mem (q : Nat) (x : FsSlot) : (s.setFsSlot n q x).mem = s.mem := rfl
@[simp] theorem State.setFsSlot_badUnits (q : Nat) (x : FsSlot) : (s.setFsSlot n q x).badUnits = s.badUnits := rfl
@[simp] theorem State.setFsSlot_unitKey (q : Nat) (x : FsSlot) : (s.setFsSlot n q x).unitKey = s.unitKey := rfl
@[simp] theorem State.setFsSlot_reach (q : Nat) (x : FsSlot) : (s.setFsSlot n q x).reach = s.reach := rfl
@[simp] theorem State.setFsSlot_resv (q : Nat) (x : FsSlot) : (s.setFsSlot n q x).resv = s.resv := rfl
@[simp] theorem State.setFsSlot_stamps (q : Nat) (x : FsSlot) : (s.setFsSlot n q x).stamps = s.stamps := rfl
@[simp] theorem State.setFsSlot_rels (q : Nat) (x : FsSlot) : (s.setFsSlot n q x).rels = s.rels := rfl
@[simp] theorem State.setFsSlot_cores (q : Nat) (x : FsSlot) : (s.setFsSlot n q x).cores = s.cores := rfl
@[simp] theorem State.setFsSlot_dies (q : Nat) (x : FsSlot) : (s.setFsSlot n q x).dies = s.dies := rfl
@[simp] theorem State.setFsSlot_banks (q : Nat) (x : FsSlot) : (s.setFsSlot n q x).banks = s.banks := rfl
@[simp] theorem State.setFsSlot_meas (q : Nat) (x : FsSlot) : (s.setFsSlot n q x).meas = s.meas := rfl
@[simp] theorem State.setFsSlot_started (q : Nat) (x : FsSlot) : (s.setFsSlot n q x).started = s.started := rfl
@[simp] theorem State.setFsSlot_dead (q : Nat) (x : FsSlot) : (s.setFsSlot n q x).dead = s.dead := rfl
@[simp] theorem State.setFsSlot_epid (q : Nat) (x : FsSlot) : (s.setFsSlot n q x).epid = s.epid := rfl
@[simp] theorem State.setFsSlot_ports (q : Nat) (x : FsSlot) : (s.setFsSlot n q x).ports = s.ports := rfl
@[simp] theorem State.setFsSlot_eth (q : Nat) (x : FsSlot) : (s.setFsSlot n q x).eth = s.eth := rfl
@[simp] theorem State.setFsSlot_outbox (q : Nat) (x : FsSlot) : (s.setFsSlot n q x).outbox = s.outbox := rfl
@[simp] theorem State.setFsSlot_reqSeen (q : Nat) (x : FsSlot) : (s.setFsSlot n q x).reqSeen = s.reqSeen := rfl
@[simp] theorem State.setFsSlot_notifyHold (q : Nat) (x : FsSlot) : (s.setFsSlot n q x).notifyHold = s.notifyHold := rfl
@[simp] theorem State.setFsSlot_askedAgain (q : Nat) (x : FsSlot) : (s.setFsSlot n q x).askedAgain = s.askedAgain := rfl
@[simp] theorem State.setFsSlot_parts (q : Nat) (x : FsSlot) : (s.setFsSlot n q x).parts = s.parts := rfl
@[simp] theorem State.setFsSlot_kernels (q : Nat) (x : FsSlot) : (s.setFsSlot n q x).kernels = s.kernels := rfl
@[simp] theorem State.setFsSlot_graphs (q : Nat) (x : FsSlot) : (s.setFsSlot n q x).graphs = s.graphs := rfl
@[simp] theorem State.setFsSlot_groups (q : Nat) (x : FsSlot) : (s.setFsSlot n q x).groups = s.groups := rfl
@[simp] theorem State.setFsSlot_ops (q : Nat) (x : FsSlot) : (s.setFsSlot n q x).ops = s.ops := rfl
@[simp] theorem State.setFsSlot_mxops (q : Nat) (x : FsSlot) : (s.setFsSlot n q x).mxops = s.mxops := rfl
@[simp] theorem State.setFsSlot_calls (q : Nat) (x : FsSlot) : (s.setFsSlot n q x).calls = s.calls := rfl
@[simp] theorem State.setFsSlot_hostVc (q : Nat) (x : FsSlot) : (s.setFsSlot n q x).hostVc = s.hostVc := rfl
@[simp] theorem State.setFsSlot_images (q : Nat) (x : FsSlot) : (s.setFsSlot n q x).images = s.images := rfl
@[simp] theorem State.setFsSlot_agenda (q : Nat) (x : FsSlot) : (s.setFsSlot n q x).agenda = s.agenda := rfl
@[simp] theorem State.setFsSlot_cur (q : Nat) (x : FsSlot) : (s.setFsSlot n q x).cur = s.cur := rfl
@[simp] theorem State.setFsSlot_curHart (q : Nat) (x : FsSlot) : (s.setFsSlot n q x).curHart = s.curHart := rfl
@[simp] theorem State.setFsSlot_tick (q : Nat) (x : FsSlot) : (s.setFsSlot n q x).tick = s.tick := rfl
@[simp] theorem State.setFsSlot_nextGid (q : Nat) (x : FsSlot) : (s.setFsSlot n q x).nextGid = s.nextGid := rfl
@[simp] theorem State.setFsSlot_nextKid (q : Nat) (x : FsSlot) : (s.setFsSlot n q x).nextKid = s.nextKid := rfl
@[simp] theorem State.setFsSlot_nextAid (q : Nat) (x : FsSlot) : (s.setFsSlot n q x).nextAid = s.nextAid := rfl
@[simp] theorem State.setFsSlot_nextInst (q : Nat) (x : FsSlot) : (s.setFsSlot n q x).nextInst = s.nextInst := rfl
@[simp] theorem State.setFsSlot_nextOp (q : Nat) (x : FsSlot) : (s.setFsSlot n q x).nextOp = s.nextOp := rfl
@[simp] theorem State.poke_reach (key pa : Nat) (bs : List Byte) : (s.poke key pa bs).reach = s.reach := rfl
@[simp] theorem State.poke_stamps (key pa : Nat) (bs : List Byte) : (s.poke key pa bs).stamps = s.stamps := rfl
@[simp] theorem State.poke_rels (key pa : Nat) (bs : List Byte) : (s.poke key pa bs).rels = s.rels := rfl
@[simp] theorem State.poke_cores (key pa : Nat) (bs : List Byte) : (s.poke key pa bs).cores = s.cores := rfl
@[simp] theorem State.poke_dies (key pa : Nat) (bs : List Byte) : (s.poke key pa bs).dies = s.dies := rfl
@[simp] theorem State.poke_banks (key pa : Nat) (bs : List Byte) : (s.poke key pa bs).banks = s.banks := rfl
@[simp] theorem State.poke_meas (key pa : Nat) (bs : List Byte) : (s.poke key pa bs).meas = s.meas := rfl
@[simp] theorem State.poke_started (key pa : Nat) (bs : List Byte) : (s.poke key pa bs).started = s.started := rfl
@[simp] theorem State.poke_dead (key pa : Nat) (bs : List Byte) : (s.poke key pa bs).dead = s.dead := rfl
@[simp] theorem State.poke_epid (key pa : Nat) (bs : List Byte) : (s.poke key pa bs).epid = s.epid := rfl
@[simp] theorem State.poke_ports (key pa : Nat) (bs : List Byte) : (s.poke key pa bs).ports = s.ports := rfl
@[simp] theorem State.poke_eth (key pa : Nat) (bs : List Byte) : (s.poke key pa bs).eth = s.eth := rfl
@[simp] theorem State.poke_outbox (key pa : Nat) (bs : List Byte) : (s.poke key pa bs).outbox = s.outbox := rfl
@[simp] theorem State.poke_reqSeen (key pa : Nat) (bs : List Byte) : (s.poke key pa bs).reqSeen = s.reqSeen := rfl
@[simp] theorem State.poke_notifyHold (key pa : Nat) (bs : List Byte) : (s.poke key pa bs).notifyHold = s.notifyHold := rfl
@[simp] theorem State.poke_askedAgain (key pa : Nat) (bs : List Byte) : (s.poke key pa bs).askedAgain = s.askedAgain := rfl
@[simp] theorem State.poke_parts (key pa : Nat) (bs : List Byte) : (s.poke key pa bs).parts = s.parts := rfl
@[simp] theorem State.poke_ctxs (key pa : Nat) (bs : List Byte) : (s.poke key pa bs).ctxs = s.ctxs := rfl
@[simp] theorem State.poke_kernels (key pa : Nat) (bs : List Byte) : (s.poke key pa bs).kernels = s.kernels := rfl
@[simp] theorem State.poke_graphs (key pa : Nat) (bs : List Byte) : (s.poke key pa bs).graphs = s.graphs := rfl
@[simp] theorem State.poke_groups (key pa : Nat) (bs : List Byte) : (s.poke key pa bs).groups = s.groups := rfl
@[simp] theorem State.poke_ops (key pa : Nat) (bs : List Byte) : (s.poke key pa bs).ops = s.ops := rfl
@[simp] theorem State.poke_mxops (key pa : Nat) (bs : List Byte) : (s.poke key pa bs).mxops = s.mxops := rfl
@[simp] theorem State.poke_calls (key pa : Nat) (bs : List Byte) : (s.poke key pa bs).calls = s.calls := rfl
@[simp] theorem State.poke_hostVc (key pa : Nat) (bs : List Byte) : (s.poke key pa bs).hostVc = s.hostVc := rfl
@[simp] theorem State.poke_images (key pa : Nat) (bs : List Byte) : (s.poke key pa bs).images = s.images := rfl
@[simp] theorem State.poke_agenda (key pa : Nat) (bs : List Byte) : (s.poke key pa bs).agenda = s.agenda := rfl
@[simp] theorem State.poke_cur (key pa : Nat) (bs : List Byte) : (s.poke key pa bs).cur = s.cur := rfl
@[simp] theorem State.poke_curHart (key pa : Nat) (bs : List Byte) : (s.poke key pa bs).curHart = s.curHart := rfl
@[simp] theorem State.poke_tick (key pa : Nat) (bs : List Byte) : (s.poke key pa bs).tick = s.tick := rfl
@[simp] theorem State.poke_nextGid (key pa : Nat) (bs : List Byte) : (s.poke key pa bs).nextGid = s.nextGid := rfl
@[simp] theorem State.poke_nextKid (key pa : Nat) (bs : List Byte) : (s.poke key pa bs).nextKid = s.nextKid := rfl
@[simp] theorem State.poke_nextAid (key pa : Nat) (bs : List Byte) : (s.poke key pa bs).nextAid = s.nextAid := rfl
@[simp] theorem State.poke_nextInst (key pa : Nat) (bs : List Byte) : (s.poke key pa bs).nextInst = s.nextInst := rfl
@[simp] theorem State.poke_nextOp (key pa : Nat) (bs : List Byte) : (s.poke key pa bs).nextOp = s.nextOp := rfl
@[simp] theorem State.reachAt_mem (pa ipa : Nat) : (s.reachAt pa ipa).mem = s.mem := rfl
@[simp] theorem State.reachAt_badUnits (pa ipa : Nat) : (s.reachAt pa ipa).badUnits = s.badUnits := rfl
@[simp] theorem State.reachAt_unitKey (pa ipa : Nat) : (s.reachAt pa ipa).unitKey = s.unitKey := rfl
@[simp] theorem State.reachAt_resv (pa ipa : Nat) : (s.reachAt pa ipa).resv = s.resv := rfl
@[simp] theorem State.reachAt_stamps (pa ipa : Nat) : (s.reachAt pa ipa).stamps = s.stamps := rfl
@[simp] theorem State.reachAt_rels (pa ipa : Nat) : (s.reachAt pa ipa).rels = s.rels := rfl
@[simp] theorem State.reachAt_cores (pa ipa : Nat) : (s.reachAt pa ipa).cores = s.cores := rfl
@[simp] theorem State.reachAt_dies (pa ipa : Nat) : (s.reachAt pa ipa).dies = s.dies := rfl
@[simp] theorem State.reachAt_banks (pa ipa : Nat) : (s.reachAt pa ipa).banks = s.banks := rfl
@[simp] theorem State.reachAt_meas (pa ipa : Nat) : (s.reachAt pa ipa).meas = s.meas := rfl
@[simp] theorem State.reachAt_started (pa ipa : Nat) : (s.reachAt pa ipa).started = s.started := rfl
@[simp] theorem State.reachAt_dead (pa ipa : Nat) : (s.reachAt pa ipa).dead = s.dead := rfl
@[simp] theorem State.reachAt_epid (pa ipa : Nat) : (s.reachAt pa ipa).epid = s.epid := rfl
@[simp] theorem State.reachAt_ports (pa ipa : Nat) : (s.reachAt pa ipa).ports = s.ports := rfl
@[simp] theorem State.reachAt_eth (pa ipa : Nat) : (s.reachAt pa ipa).eth = s.eth := rfl
@[simp] theorem State.reachAt_outbox (pa ipa : Nat) : (s.reachAt pa ipa).outbox = s.outbox := rfl
@[simp] theorem State.reachAt_reqSeen (pa ipa : Nat) : (s.reachAt pa ipa).reqSeen = s.reqSeen := rfl
@[simp] theorem State.reachAt_notifyHold (pa ipa : Nat) : (s.reachAt pa ipa).notifyHold = s.notifyHold := rfl
@[simp] theorem State.reachAt_askedAgain (pa ipa : Nat) : (s.reachAt pa ipa).askedAgain = s.askedAgain := rfl
@[simp] theorem State.reachAt_parts (pa ipa : Nat) : (s.reachAt pa ipa).parts = s.parts := rfl
@[simp] theorem State.reachAt_ctxs (pa ipa : Nat) : (s.reachAt pa ipa).ctxs = s.ctxs := rfl
@[simp] theorem State.reachAt_kernels (pa ipa : Nat) : (s.reachAt pa ipa).kernels = s.kernels := rfl
@[simp] theorem State.reachAt_graphs (pa ipa : Nat) : (s.reachAt pa ipa).graphs = s.graphs := rfl
@[simp] theorem State.reachAt_groups (pa ipa : Nat) : (s.reachAt pa ipa).groups = s.groups := rfl
@[simp] theorem State.reachAt_ops (pa ipa : Nat) : (s.reachAt pa ipa).ops = s.ops := rfl
@[simp] theorem State.reachAt_mxops (pa ipa : Nat) : (s.reachAt pa ipa).mxops = s.mxops := rfl
@[simp] theorem State.reachAt_calls (pa ipa : Nat) : (s.reachAt pa ipa).calls = s.calls := rfl
@[simp] theorem State.reachAt_hostVc (pa ipa : Nat) : (s.reachAt pa ipa).hostVc = s.hostVc := rfl
@[simp] theorem State.reachAt_images (pa ipa : Nat) : (s.reachAt pa ipa).images = s.images := rfl
@[simp] theorem State.reachAt_agenda (pa ipa : Nat) : (s.reachAt pa ipa).agenda = s.agenda := rfl
@[simp] theorem State.reachAt_cur (pa ipa : Nat) : (s.reachAt pa ipa).cur = s.cur := rfl
@[simp] theorem State.reachAt_curHart (pa ipa : Nat) : (s.reachAt pa ipa).curHart = s.curHart := rfl
@[simp] theorem State.reachAt_tick (pa ipa : Nat) : (s.reachAt pa ipa).tick = s.tick := rfl
@[simp] theorem State.reachAt_nextGid (pa ipa : Nat) : (s.reachAt pa ipa).nextGid = s.nextGid := rfl
@[simp] theorem State.reachAt_nextKid (pa ipa : Nat) : (s.reachAt pa ipa).nextKid = s.nextKid := rfl
@[simp] theorem State.reachAt_nextAid (pa ipa : Nat) : (s.reachAt pa ipa).nextAid = s.nextAid := rfl
@[simp] theorem State.reachAt_nextInst (pa ipa : Nat) : (s.reachAt pa ipa).nextInst = s.nextInst := rfl
@[simp] theorem State.reachAt_nextOp (pa ipa : Nat) : (s.reachAt pa ipa).nextOp = s.nextOp := rfl
@[simp] theorem State.setBank_mem (d : Nat) (b : Bank) : (s.setBank d n b).mem = s.mem := rfl
@[simp] theorem State.setBank_badUnits (d : Nat) (b : Bank) : (s.setBank d n b).badUnits = s.badUnits := rfl
@[simp] theorem State.setBank_unitKey (d : Nat) (b : Bank) : (s.setBank d n b).unitKey = s.unitKey := rfl
@[simp] theorem State.setBank_reach (d : Nat) (b : Bank) : (s.setBank d n b).reach = s.reach := rfl
@[simp] theorem State.setBank_resv (d : Nat) (b : Bank) : (s.setBank d n b).resv = s.resv := rfl
@[simp] theorem State.setBank_stamps (d : Nat) (b : Bank) : (s.setBank d n b).stamps = s.stamps := rfl
@[simp] theorem State.setBank_rels (d : Nat) (b : Bank) : (s.setBank d n b).rels = s.rels := rfl
@[simp] theorem State.setBank_cores (d : Nat) (b : Bank) : (s.setBank d n b).cores = s.cores := rfl
@[simp] theorem State.setBank_dies (d : Nat) (b : Bank) : (s.setBank d n b).dies = s.dies := rfl
@[simp] theorem State.setBank_meas (d : Nat) (b : Bank) : (s.setBank d n b).meas = s.meas := rfl
@[simp] theorem State.setBank_started (d : Nat) (b : Bank) : (s.setBank d n b).started = s.started := rfl
@[simp] theorem State.setBank_dead (d : Nat) (b : Bank) : (s.setBank d n b).dead = s.dead := rfl
@[simp] theorem State.setBank_epid (d : Nat) (b : Bank) : (s.setBank d n b).epid = s.epid := rfl
@[simp] theorem State.setBank_ports (d : Nat) (b : Bank) : (s.setBank d n b).ports = s.ports := rfl
@[simp] theorem State.setBank_eth (d : Nat) (b : Bank) : (s.setBank d n b).eth = s.eth := rfl
@[simp] theorem State.setBank_outbox (d : Nat) (b : Bank) : (s.setBank d n b).outbox = s.outbox := rfl
@[simp] theorem State.setBank_reqSeen (d : Nat) (b : Bank) : (s.setBank d n b).reqSeen = s.reqSeen := rfl
@[simp] theorem State.setBank_notifyHold (d : Nat) (b : Bank) : (s.setBank d n b).notifyHold = s.notifyHold := rfl
@[simp] theorem State.setBank_askedAgain (d : Nat) (b : Bank) : (s.setBank d n b).askedAgain = s.askedAgain := rfl
@[simp] theorem State.setBank_parts (d : Nat) (b : Bank) : (s.setBank d n b).parts = s.parts := rfl
@[simp] theorem State.setBank_ctxs (d : Nat) (b : Bank) : (s.setBank d n b).ctxs = s.ctxs := rfl
@[simp] theorem State.setBank_kernels (d : Nat) (b : Bank) : (s.setBank d n b).kernels = s.kernels := rfl
@[simp] theorem State.setBank_graphs (d : Nat) (b : Bank) : (s.setBank d n b).graphs = s.graphs := rfl
@[simp] theorem State.setBank_groups (d : Nat) (b : Bank) : (s.setBank d n b).groups = s.groups := rfl
@[simp] theorem State.setBank_ops (d : Nat) (b : Bank) : (s.setBank d n b).ops = s.ops := rfl
@[simp] theorem State.setBank_mxops (d : Nat) (b : Bank) : (s.setBank d n b).mxops = s.mxops := rfl
@[simp] theorem State.setBank_calls (d : Nat) (b : Bank) : (s.setBank d n b).calls = s.calls := rfl
@[simp] theorem State.setBank_hostVc (d : Nat) (b : Bank) : (s.setBank d n b).hostVc = s.hostVc := rfl
@[simp] theorem State.setBank_images (d : Nat) (b : Bank) : (s.setBank d n b).images = s.images := rfl
@[simp] theorem State.setBank_agenda (d : Nat) (b : Bank) : (s.setBank d n b).agenda = s.agenda := rfl
@[simp] theorem State.setBank_cur (d : Nat) (b : Bank) : (s.setBank d n b).cur = s.cur := rfl
@[simp] theorem State.setBank_curHart (d : Nat) (b : Bank) : (s.setBank d n b).curHart = s.curHart := rfl
@[simp] theorem State.setBank_tick (d : Nat) (b : Bank) : (s.setBank d n b).tick = s.tick := rfl
@[simp] theorem State.setBank_nextGid (d : Nat) (b : Bank) : (s.setBank d n b).nextGid = s.nextGid := rfl
@[simp] theorem State.setBank_nextKid (d : Nat) (b : Bank) : (s.setBank d n b).nextKid = s.nextKid := rfl
@[simp] theorem State.setBank_nextAid (d : Nat) (b : Bank) : (s.setBank d n b).nextAid = s.nextAid := rfl
@[simp] theorem State.setBank_nextInst (d : Nat) (b : Bank) : (s.setBank d n b).nextInst = s.nextInst := rfl
@[simp] theorem State.setBank_nextOp (d : Nat) (b : Bank) : (s.setBank d n b).nextOp = s.nextOp := rfl
@[simp] theorem State.bumpInst_mem : (s.bumpInst).mem = s.mem := rfl
@[simp] theorem State.bumpInst_badUnits : (s.bumpInst).badUnits = s.badUnits := rfl
@[simp] theorem State.bumpInst_unitKey : (s.bumpInst).unitKey = s.unitKey := rfl
@[simp] theorem State.bumpInst_reach : (s.bumpInst).reach = s.reach := rfl
@[simp] theorem State.bumpInst_resv : (s.bumpInst).resv = s.resv := rfl
@[simp] theorem State.bumpInst_stamps : (s.bumpInst).stamps = s.stamps := rfl
@[simp] theorem State.bumpInst_rels : (s.bumpInst).rels = s.rels := rfl
@[simp] theorem State.bumpInst_cores : (s.bumpInst).cores = s.cores := rfl
@[simp] theorem State.bumpInst_dies : (s.bumpInst).dies = s.dies := rfl
@[simp] theorem State.bumpInst_banks : (s.bumpInst).banks = s.banks := rfl
@[simp] theorem State.bumpInst_meas : (s.bumpInst).meas = s.meas := rfl
@[simp] theorem State.bumpInst_started : (s.bumpInst).started = s.started := rfl
@[simp] theorem State.bumpInst_dead : (s.bumpInst).dead = s.dead := rfl
@[simp] theorem State.bumpInst_epid : (s.bumpInst).epid = s.epid := rfl
@[simp] theorem State.bumpInst_ports : (s.bumpInst).ports = s.ports := rfl
@[simp] theorem State.bumpInst_eth : (s.bumpInst).eth = s.eth := rfl
@[simp] theorem State.bumpInst_outbox : (s.bumpInst).outbox = s.outbox := rfl
@[simp] theorem State.bumpInst_reqSeen : (s.bumpInst).reqSeen = s.reqSeen := rfl
@[simp] theorem State.bumpInst_notifyHold : (s.bumpInst).notifyHold = s.notifyHold := rfl
@[simp] theorem State.bumpInst_askedAgain : (s.bumpInst).askedAgain = s.askedAgain := rfl
@[simp] theorem State.bumpInst_parts : (s.bumpInst).parts = s.parts := rfl
@[simp] theorem State.bumpInst_ctxs : (s.bumpInst).ctxs = s.ctxs := rfl
@[simp] theorem State.bumpInst_kernels : (s.bumpInst).kernels = s.kernels := rfl
@[simp] theorem State.bumpInst_graphs : (s.bumpInst).graphs = s.graphs := rfl
@[simp] theorem State.bumpInst_groups : (s.bumpInst).groups = s.groups := rfl
@[simp] theorem State.bumpInst_ops : (s.bumpInst).ops = s.ops := rfl
@[simp] theorem State.bumpInst_mxops : (s.bumpInst).mxops = s.mxops := rfl
@[simp] theorem State.bumpInst_calls : (s.bumpInst).calls = s.calls := rfl
@[simp] theorem State.bumpInst_hostVc : (s.bumpInst).hostVc = s.hostVc := rfl
@[simp] theorem State.bumpInst_images : (s.bumpInst).images = s.images := rfl
@[simp] theorem State.bumpInst_agenda : (s.bumpInst).agenda = s.agenda := rfl
@[simp] theorem State.bumpInst_cur : (s.bumpInst).cur = s.cur := rfl
@[simp] theorem State.bumpInst_curHart : (s.bumpInst).curHart = s.curHart := rfl
@[simp] theorem State.bumpInst_tick : (s.bumpInst).tick = s.tick := rfl
@[simp] theorem State.bumpInst_nextGid : (s.bumpInst).nextGid = s.nextGid := rfl
@[simp] theorem State.bumpInst_nextKid : (s.bumpInst).nextKid = s.nextKid := rfl
@[simp] theorem State.bumpInst_nextAid : (s.bumpInst).nextAid = s.nextAid := rfl
@[simp] theorem State.bumpInst_nextOp : (s.bumpInst).nextOp = s.nextOp := rfl
@[simp] theorem State.modOp_mem (h : EngOp → EngOp) : (s.modOp n h).mem = s.mem := rfl
@[simp] theorem State.modOp_badUnits (h : EngOp → EngOp) : (s.modOp n h).badUnits = s.badUnits := rfl
@[simp] theorem State.modOp_unitKey (h : EngOp → EngOp) : (s.modOp n h).unitKey = s.unitKey := rfl
@[simp] theorem State.modOp_reach (h : EngOp → EngOp) : (s.modOp n h).reach = s.reach := rfl
@[simp] theorem State.modOp_resv (h : EngOp → EngOp) : (s.modOp n h).resv = s.resv := rfl
@[simp] theorem State.modOp_stamps (h : EngOp → EngOp) : (s.modOp n h).stamps = s.stamps := rfl
@[simp] theorem State.modOp_rels (h : EngOp → EngOp) : (s.modOp n h).rels = s.rels := rfl
@[simp] theorem State.modOp_cores (h : EngOp → EngOp) : (s.modOp n h).cores = s.cores := rfl
@[simp] theorem State.modOp_dies (h : EngOp → EngOp) : (s.modOp n h).dies = s.dies := rfl
@[simp] theorem State.modOp_banks (h : EngOp → EngOp) : (s.modOp n h).banks = s.banks := rfl
@[simp] theorem State.modOp_meas (h : EngOp → EngOp) : (s.modOp n h).meas = s.meas := rfl
@[simp] theorem State.modOp_started (h : EngOp → EngOp) : (s.modOp n h).started = s.started := rfl
@[simp] theorem State.modOp_dead (h : EngOp → EngOp) : (s.modOp n h).dead = s.dead := rfl
@[simp] theorem State.modOp_epid (h : EngOp → EngOp) : (s.modOp n h).epid = s.epid := rfl
@[simp] theorem State.modOp_ports (h : EngOp → EngOp) : (s.modOp n h).ports = s.ports := rfl
@[simp] theorem State.modOp_eth (h : EngOp → EngOp) : (s.modOp n h).eth = s.eth := rfl
@[simp] theorem State.modOp_outbox (h : EngOp → EngOp) : (s.modOp n h).outbox = s.outbox := rfl
@[simp] theorem State.modOp_reqSeen (h : EngOp → EngOp) : (s.modOp n h).reqSeen = s.reqSeen := rfl
@[simp] theorem State.modOp_notifyHold (h : EngOp → EngOp) : (s.modOp n h).notifyHold = s.notifyHold := rfl
@[simp] theorem State.modOp_askedAgain (h : EngOp → EngOp) : (s.modOp n h).askedAgain = s.askedAgain := rfl
@[simp] theorem State.modOp_parts (h : EngOp → EngOp) : (s.modOp n h).parts = s.parts := rfl
@[simp] theorem State.modOp_ctxs (h : EngOp → EngOp) : (s.modOp n h).ctxs = s.ctxs := rfl
@[simp] theorem State.modOp_kernels (h : EngOp → EngOp) : (s.modOp n h).kernels = s.kernels := rfl
@[simp] theorem State.modOp_graphs (h : EngOp → EngOp) : (s.modOp n h).graphs = s.graphs := rfl
@[simp] theorem State.modOp_groups (h : EngOp → EngOp) : (s.modOp n h).groups = s.groups := rfl
@[simp] theorem State.modOp_mxops (h : EngOp → EngOp) : (s.modOp n h).mxops = s.mxops := rfl
@[simp] theorem State.modOp_calls (h : EngOp → EngOp) : (s.modOp n h).calls = s.calls := rfl
@[simp] theorem State.modOp_hostVc (h : EngOp → EngOp) : (s.modOp n h).hostVc = s.hostVc := rfl
@[simp] theorem State.modOp_images (h : EngOp → EngOp) : (s.modOp n h).images = s.images := rfl
@[simp] theorem State.modOp_agenda (h : EngOp → EngOp) : (s.modOp n h).agenda = s.agenda := rfl
@[simp] theorem State.modOp_cur (h : EngOp → EngOp) : (s.modOp n h).cur = s.cur := rfl
@[simp] theorem State.modOp_curHart (h : EngOp → EngOp) : (s.modOp n h).curHart = s.curHart := rfl
@[simp] theorem State.modOp_tick (h : EngOp → EngOp) : (s.modOp n h).tick = s.tick := rfl
@[simp] theorem State.modOp_nextGid (h : EngOp → EngOp) : (s.modOp n h).nextGid = s.nextGid := rfl
@[simp] theorem State.modOp_nextKid (h : EngOp → EngOp) : (s.modOp n h).nextKid = s.nextKid := rfl
@[simp] theorem State.modOp_nextAid (h : EngOp → EngOp) : (s.modOp n h).nextAid = s.nextAid := rfl
@[simp] theorem State.modOp_nextInst (h : EngOp → EngOp) : (s.modOp n h).nextInst = s.nextInst := rfl
@[simp] theorem State.modOp_nextOp (h : EngOp → EngOp) : (s.modOp n h).nextOp = s.nextOp := rfl
@[simp] theorem State.addOp_mem (x : EngOp) : (s.addOp x).mem = s.mem := rfl
@[simp] theorem State.addOp_badUnits (x : EngOp) : (s.addOp x).badUnits = s.badUnits := rfl
@[simp] theorem State.addOp_unitKey (x : EngOp) : (s.addOp x).unitKey = s.unitKey := rfl
@[simp] theorem State.addOp_reach (x : EngOp) : (s.addOp x).reach = s.reach := rfl
@[simp] theorem State.addOp_resv (x : EngOp) : (s.addOp x).resv = s.resv := rfl
@[simp] theorem State.addOp_stamps (x : EngOp) : (s.addOp x).stamps = s.stamps := rfl
@[simp] theorem State.addOp_rels (x : EngOp) : (s.addOp x).rels = s.rels := rfl
@[simp] theorem State.addOp_cores (x : EngOp) : (s.addOp x).cores = s.cores := rfl
@[simp] theorem State.addOp_dies (x : EngOp) : (s.addOp x).dies = s.dies := rfl
@[simp] theorem State.addOp_banks (x : EngOp) : (s.addOp x).banks = s.banks := rfl
@[simp] theorem State.addOp_meas (x : EngOp) : (s.addOp x).meas = s.meas := rfl
@[simp] theorem State.addOp_started (x : EngOp) : (s.addOp x).started = s.started := rfl
@[simp] theorem State.addOp_dead (x : EngOp) : (s.addOp x).dead = s.dead := rfl
@[simp] theorem State.addOp_epid (x : EngOp) : (s.addOp x).epid = s.epid := rfl
@[simp] theorem State.addOp_ports (x : EngOp) : (s.addOp x).ports = s.ports := rfl
@[simp] theorem State.addOp_eth (x : EngOp) : (s.addOp x).eth = s.eth := rfl
@[simp] theorem State.addOp_outbox (x : EngOp) : (s.addOp x).outbox = s.outbox := rfl
@[simp] theorem State.addOp_reqSeen (x : EngOp) : (s.addOp x).reqSeen = s.reqSeen := rfl
@[simp] theorem State.addOp_notifyHold (x : EngOp) : (s.addOp x).notifyHold = s.notifyHold := rfl
@[simp] theorem State.addOp_askedAgain (x : EngOp) : (s.addOp x).askedAgain = s.askedAgain := rfl
@[simp] theorem State.addOp_parts (x : EngOp) : (s.addOp x).parts = s.parts := rfl
@[simp] theorem State.addOp_ctxs (x : EngOp) : (s.addOp x).ctxs = s.ctxs := rfl
@[simp] theorem State.addOp_kernels (x : EngOp) : (s.addOp x).kernels = s.kernels := rfl
@[simp] theorem State.addOp_graphs (x : EngOp) : (s.addOp x).graphs = s.graphs := rfl
@[simp] theorem State.addOp_groups (x : EngOp) : (s.addOp x).groups = s.groups := rfl
@[simp] theorem State.addOp_mxops (x : EngOp) : (s.addOp x).mxops = s.mxops := rfl
@[simp] theorem State.addOp_calls (x : EngOp) : (s.addOp x).calls = s.calls := rfl
@[simp] theorem State.addOp_hostVc (x : EngOp) : (s.addOp x).hostVc = s.hostVc := rfl
@[simp] theorem State.addOp_images (x : EngOp) : (s.addOp x).images = s.images := rfl
@[simp] theorem State.addOp_agenda (x : EngOp) : (s.addOp x).agenda = s.agenda := rfl
@[simp] theorem State.addOp_cur (x : EngOp) : (s.addOp x).cur = s.cur := rfl
@[simp] theorem State.addOp_curHart (x : EngOp) : (s.addOp x).curHart = s.curHart := rfl
@[simp] theorem State.addOp_tick (x : EngOp) : (s.addOp x).tick = s.tick := rfl
@[simp] theorem State.addOp_nextGid (x : EngOp) : (s.addOp x).nextGid = s.nextGid := rfl
@[simp] theorem State.addOp_nextKid (x : EngOp) : (s.addOp x).nextKid = s.nextKid := rfl
@[simp] theorem State.addOp_nextInst (x : EngOp) : (s.addOp x).nextInst = s.nextInst := rfl
@[simp] theorem State.modMx_mem (h : MxOp → MxOp) : (s.modMx n h).mem = s.mem := rfl
@[simp] theorem State.modMx_badUnits (h : MxOp → MxOp) : (s.modMx n h).badUnits = s.badUnits := rfl
@[simp] theorem State.modMx_unitKey (h : MxOp → MxOp) : (s.modMx n h).unitKey = s.unitKey := rfl
@[simp] theorem State.modMx_reach (h : MxOp → MxOp) : (s.modMx n h).reach = s.reach := rfl
@[simp] theorem State.modMx_resv (h : MxOp → MxOp) : (s.modMx n h).resv = s.resv := rfl
@[simp] theorem State.modMx_stamps (h : MxOp → MxOp) : (s.modMx n h).stamps = s.stamps := rfl
@[simp] theorem State.modMx_rels (h : MxOp → MxOp) : (s.modMx n h).rels = s.rels := rfl
@[simp] theorem State.modMx_cores (h : MxOp → MxOp) : (s.modMx n h).cores = s.cores := rfl
@[simp] theorem State.modMx_dies (h : MxOp → MxOp) : (s.modMx n h).dies = s.dies := rfl
@[simp] theorem State.modMx_banks (h : MxOp → MxOp) : (s.modMx n h).banks = s.banks := rfl
@[simp] theorem State.modMx_meas (h : MxOp → MxOp) : (s.modMx n h).meas = s.meas := rfl
@[simp] theorem State.modMx_started (h : MxOp → MxOp) : (s.modMx n h).started = s.started := rfl
@[simp] theorem State.modMx_dead (h : MxOp → MxOp) : (s.modMx n h).dead = s.dead := rfl
@[simp] theorem State.modMx_epid (h : MxOp → MxOp) : (s.modMx n h).epid = s.epid := rfl
@[simp] theorem State.modMx_ports (h : MxOp → MxOp) : (s.modMx n h).ports = s.ports := rfl
@[simp] theorem State.modMx_eth (h : MxOp → MxOp) : (s.modMx n h).eth = s.eth := rfl
@[simp] theorem State.modMx_outbox (h : MxOp → MxOp) : (s.modMx n h).outbox = s.outbox := rfl
@[simp] theorem State.modMx_reqSeen (h : MxOp → MxOp) : (s.modMx n h).reqSeen = s.reqSeen := rfl
@[simp] theorem State.modMx_notifyHold (h : MxOp → MxOp) : (s.modMx n h).notifyHold = s.notifyHold := rfl
@[simp] theorem State.modMx_askedAgain (h : MxOp → MxOp) : (s.modMx n h).askedAgain = s.askedAgain := rfl
@[simp] theorem State.modMx_parts (h : MxOp → MxOp) : (s.modMx n h).parts = s.parts := rfl
@[simp] theorem State.modMx_ctxs (h : MxOp → MxOp) : (s.modMx n h).ctxs = s.ctxs := rfl
@[simp] theorem State.modMx_kernels (h : MxOp → MxOp) : (s.modMx n h).kernels = s.kernels := rfl
@[simp] theorem State.modMx_graphs (h : MxOp → MxOp) : (s.modMx n h).graphs = s.graphs := rfl
@[simp] theorem State.modMx_groups (h : MxOp → MxOp) : (s.modMx n h).groups = s.groups := rfl
@[simp] theorem State.modMx_ops (h : MxOp → MxOp) : (s.modMx n h).ops = s.ops := rfl
@[simp] theorem State.modMx_calls (h : MxOp → MxOp) : (s.modMx n h).calls = s.calls := rfl
@[simp] theorem State.modMx_hostVc (h : MxOp → MxOp) : (s.modMx n h).hostVc = s.hostVc := rfl
@[simp] theorem State.modMx_images (h : MxOp → MxOp) : (s.modMx n h).images = s.images := rfl
@[simp] theorem State.modMx_agenda (h : MxOp → MxOp) : (s.modMx n h).agenda = s.agenda := rfl
@[simp] theorem State.modMx_cur (h : MxOp → MxOp) : (s.modMx n h).cur = s.cur := rfl
@[simp] theorem State.modMx_curHart (h : MxOp → MxOp) : (s.modMx n h).curHart = s.curHart := rfl
@[simp] theorem State.modMx_tick (h : MxOp → MxOp) : (s.modMx n h).tick = s.tick := rfl
@[simp] theorem State.modMx_nextGid (h : MxOp → MxOp) : (s.modMx n h).nextGid = s.nextGid := rfl
@[simp] theorem State.modMx_nextKid (h : MxOp → MxOp) : (s.modMx n h).nextKid = s.nextKid := rfl
@[simp] theorem State.modMx_nextAid (h : MxOp → MxOp) : (s.modMx n h).nextAid = s.nextAid := rfl
@[simp] theorem State.modMx_nextInst (h : MxOp → MxOp) : (s.modMx n h).nextInst = s.nextInst := rfl
@[simp] theorem State.modMx_nextOp (h : MxOp → MxOp) : (s.modMx n h).nextOp = s.nextOp := rfl

/-! ## What is written -/

@[simp] theorem State.setGroup_groups : (s.setGroup gid g).groups = mset s.groups gid g := rfl
@[simp] theorem State.setCtx_ctxs (c : Context) : (s.setCtx n c).ctxs = mset s.ctxs n c := rfl
@[simp] theorem State.setPart_parts (p : Partition) : (s.setPart n p).parts = mset s.parts n p := rfl
@[simp] theorem State.setCore_cores (c : Core) : (s.setCore n c).cores = mset s.cores n c := rfl
@[simp] theorem State.setDie_dies (d : Die) : (s.setDie n d).dies = mset s.dies n d := rfl
@[simp] theorem State.setGraph_graphs (x : Graph) : (s.setGraph n x).graphs = mset s.graphs n x := rfl
@[simp] theorem State.reachAt_reach (pa ipa : Nat) : (s.reachAt pa ipa).reach = mset s.reach (pa / 64) (ipa / 64) := rfl
@[simp] theorem State.setBank_banks (d : Nat) (b : Bank) : (s.setBank d n b).banks = mset s.banks (4 * d + n) b := rfl
@[simp] theorem State.bumpInst_nextInst : s.bumpInst.nextInst = s.nextInst + 1 := rfl
@[simp] theorem State.addOp_nextOp (x : EngOp) : (s.addOp x).nextOp = s.nextOp + 1 := rfl
@[simp] theorem State.addOp_nextAid (x : EngOp) : (s.addOp x).nextAid = s.nextAid + 2 := rfl

/-! ## Readers after a write -/

@[simp] theorem State.group_setGroup_same : (s.setGroup gid g).group gid = some g := by simp [State.group]
theorem State.group_setGroup_other {m : Nat} (h : m ≠ gid) : (s.setGroup gid g).group m = s.group m := by
  simp [State.group, mget_mset_other _ _ h]
theorem State.group_modGroup_same (h : Group → Group) : (s.modGroup gid h).group gid = (s.group gid).map h := by
  unfold State.modGroup
  split <;> simp_all
theorem State.group_modGroup_other (h : Group → Group) {m : Nat} (hm : m ≠ gid) : (s.modGroup gid h).group m = s.group m := by
  unfold State.modGroup
  split
  · exact State.group_setGroup_other s gid _ hm
  · rfl
@[simp] theorem State.ctx_setCtx_same (c : Context) : (s.setCtx n c).ctx n = c := by simp [State.ctx]
theorem State.ctx_setCtx_other (c : Context) {m : Nat} (h : m ≠ n) : (s.setCtx n c).ctx m = s.ctx m := by
  simp [State.ctx, mgetD_mset_other _ _ _ h]
@[simp] theorem State.part_setPart_same (p : Partition) : (s.setPart n p).part n = p := by simp [State.part]
theorem State.part_setPart_other (p : Partition) {m : Nat} (h : m ≠ n) : (s.setPart n p).part m = s.part m := by
  simp [State.part, mgetD_mset_other _ _ _ h]
@[simp] theorem State.core_setCore_same (c : Core) : (s.setCore n c).core n = c := by simp [State.core]
theorem State.core_setCore_other (c : Core) {m : Nat} (h : m ≠ n) : (s.setCore n c).core m = s.core m := by
  simp [State.core, mgetD_mset_other _ _ _ h]
@[simp] theorem State.die_setDie_same (d : Die) : (s.setDie n d).die n = d := by simp [State.die]
theorem State.die_setDie_other (d : Die) {m : Nat} (h : m ≠ n) : (s.setDie n d).die m = s.die m := by
  simp [State.die, mgetD_mset_other _ _ _ h]
@[simp] theorem State.graph_setGraph_same (x : Graph) : (s.setGraph n x).graph n = some x := by simp [State.graph]
@[simp] theorem State.queue_setQueue_same (q : Nat) (u : Queue) : (s.setQueue n q u).queue n q = u := by
  simp [State.queue, State.setQueue, State.ctx, State.setCtx]
@[simp] theorem State.queue_modQueue_same (q : Nat) (h : Queue → Queue) : (s.modQueue n q h).queue n q = h (s.queue n q) := by
  simp [State.modQueue]
theorem State.queue_setQueue_other (q : Nat) (u : Queue) {r : Nat} (h : r ≠ q) : (s.setQueue n q u).queue n r = s.queue n r := by
  simp [State.queue, State.setQueue, State.ctx, State.setCtx, mgetD_mset_other _ _ _ h]

@[simp] theorem State.setGroup_rd_kernel (m : Nat) : (s.setGroup gid g).kernel m = s.kernel m := rfl
@[simp] theorem State.setGroup_rd_ctx (m : Nat) : (s.setGroup gid g).ctx m = s.ctx m := rfl
@[simp] theorem State.setGroup_rd_part (m : Nat) : (s.setGroup gid g).part m = s.part m := rfl
@[simp] theorem State.setGroup_rd_core (m : Nat) : (s.setGroup gid g).core m = s.core m := rfl
@[simp] theorem State.setGroup_rd_die (m : Nat) : (s.setGroup gid g).die m = s.die m := rfl
@[simp] theorem State.setGroup_rd_graph (m : Nat) : (s.setGroup gid g).graph m = s.graph m := rfl
@[simp] theorem State.modGroup_rd_kernel (h : Group → Group) (m : Nat) : (s.modGroup gid h).kernel m = s.kernel m := by simp [State.kernel]
@[simp] theorem State.modGroup_rd_ctx (h : Group → Group) (m : Nat) : (s.modGroup gid h).ctx m = s.ctx m := by simp [State.ctx]
@[simp] theorem State.modGroup_rd_part (h : Group → Group) (m : Nat) : (s.modGroup gid h).part m = s.part m := by simp [State.part]
@[simp] theorem State.modGroup_rd_core (h : Group → Group) (m : Nat) : (s.modGroup gid h).core m = s.core m := by simp [State.core]
@[simp] theorem State.modGroup_rd_die (h : Group → Group) (m : Nat) : (s.modGroup gid h).die m = s.die m := by simp [State.die]
@[simp] theorem State.modGroup_rd_graph (h : Group → Group) (m : Nat) : (s.modGroup gid h).graph m = s.graph m := by simp [State.graph]
@[simp] theorem State.setThread_rd_kernel (m : Nat) : (s.setThread gid t th).kernel m = s.kernel m := by simp [State.kernel]
@[simp] theorem State.setThread_rd_ctx (m : Nat) : (s.setThread gid t th).ctx m = s.ctx m := by simp [State.ctx]
@[simp] theorem State.setThread_rd_part (m : Nat) : (s.setThread gid t th).part m = s.part m := by simp [State.part]
@[simp] theorem State.setThread_rd_core (m : Nat) : (s.setThread gid t th).core m = s.core m := by simp [State.core]
@[simp] theorem State.setThread_rd_die (m : Nat) : (s.setThread gid t th).die m = s.die m := by simp [State.die]
@[simp] theorem State.setThread_rd_graph (m : Nat) : (s.setThread gid t th).graph m = s.graph m := by simp [State.graph]
@[simp] theorem State.modThread_rd_kernel (h : Thread → Thread) (m : Nat) : (s.modThread gid t h).kernel m = s.kernel m := by simp [State.kernel]
@[simp] theorem State.modThread_rd_ctx (h : Thread → Thread) (m : Nat) : (s.modThread gid t h).ctx m = s.ctx m := by simp [State.ctx]
@[simp] theorem State.modThread_rd_part (h : Thread → Thread) (m : Nat) : (s.modThread gid t h).part m = s.part m := by simp [State.part]
@[simp] theorem State.modThread_rd_core (h : Thread → Thread) (m : Nat) : (s.modThread gid t h).core m = s.core m := by simp [State.core]
@[simp] theorem State.modThread_rd_die (h : Thread → Thread) (m : Nat) : (s.modThread gid t h).die m = s.die m := by simp [State.die]
@[simp] theorem State.modThread_rd_graph (h : Thread → Thread) (m : Nat) : (s.modThread gid t h).graph m = s.graph m := by simp [State.graph]
@[simp] theorem State.setCtx_rd_group (c : Context) (m : Nat) : (s.setCtx n c).group m = s.group m := rfl
@[simp] theorem State.setCtx_rd_kernel (c : Context) (m : Nat) : (s.setCtx n c).kernel m = s.kernel m := rfl
@[simp] theorem State.setCtx_rd_part (c : Context) (m : Nat) : (s.setCtx n c).part m = s.part m := rfl
@[simp] theorem State.setCtx_rd_core (c : Context) (m : Nat) : (s.setCtx n c).core m = s.core m := rfl
@[simp] theorem State.setCtx_rd_die (c : Context) (m : Nat) : (s.setCtx n c).die m = s.die m := rfl
@[simp] theorem State.setCtx_rd_graph (c : Context) (m : Nat) : (s.setCtx n c).graph m = s.graph m := rfl
@[simp] theorem State.setPart_rd_group (p : Partition) (m : Nat) : (s.setPart n p).group m = s.group m := rfl
@[simp] theorem State.setPart_rd_kernel (p : Partition) (m : Nat) : (s.setPart n p).kernel m = s.kernel m := rfl
@[simp] theorem State.setPart_rd_ctx (p : Partition) (m : Nat) : (s.setPart n p).ctx m = s.ctx m := rfl
@[simp] theorem State.setPart_rd_core (p : Partition) (m : Nat) : (s.setPart n p).core m = s.core m := rfl
@[simp] theorem State.setPart_rd_die (p : Partition) (m : Nat) : (s.setPart n p).die m = s.die m := rfl
@[simp] theorem State.setPart_rd_graph (p : Partition) (m : Nat) : (s.setPart n p).graph m = s.graph m := rfl
@[simp] theorem State.setCore_rd_group (c : Core) (m : Nat) : (s.setCore n c).group m = s.group m := rfl
@[simp] theorem State.setCore_rd_kernel (c : Core) (m : Nat) : (s.setCore n c).kernel m = s.kernel m := rfl
@[simp] theorem State.setCore_rd_ctx (c : Core) (m : Nat) : (s.setCore n c).ctx m = s.ctx m := rfl
@[simp] theorem State.setCore_rd_part (c : Core) (m : Nat) : (s.setCore n c).part m = s.part m := rfl
@[simp] theorem State.setCore_rd_die (c : Core) (m : Nat) : (s.setCore n c).die m = s.die m := rfl
@[simp] theorem State.setCore_rd_graph (c : Core) (m : Nat) : (s.setCore n c).graph m = s.graph m := rfl
@[simp] theorem State.setDie_rd_group (d : Die) (m : Nat) : (s.setDie n d).group m = s.group m := rfl
@[simp] theorem State.setDie_rd_kernel (d : Die) (m : Nat) : (s.setDie n d).kernel m = s.kernel m := rfl
@[simp] theorem State.setDie_rd_ctx (d : Die) (m : Nat) : (s.setDie n d).ctx m = s.ctx m := rfl
@[simp] theorem State.setDie_rd_part (d : Die) (m : Nat) : (s.setDie n d).part m = s.part m := rfl
@[simp] theorem State.setDie_rd_core (d : Die) (m : Nat) : (s.setDie n d).core m = s.core m := rfl
@[simp] theorem State.setDie_rd_graph (d : Die) (m : Nat) : (s.setDie n d).graph m = s.graph m := rfl
@[simp] theorem State.setGraph_rd_group (x : Graph) (m : Nat) : (s.setGraph n x).group m = s.group m := rfl
@[simp] theorem State.setGraph_rd_kernel (x : Graph) (m : Nat) : (s.setGraph n x).kernel m = s.kernel m := rfl
@[simp] theorem State.setGraph_rd_ctx (x : Graph) (m : Nat) : (s.setGraph n x).ctx m = s.ctx m := rfl
@[simp] theorem State.setGraph_rd_part (x : Graph) (m : Nat) : (s.setGraph n x).part m = s.part m := rfl
@[simp] theorem State.setGraph_rd_core (x : Graph) (m : Nat) : (s.setGraph n x).core m = s.core m := rfl
@[simp] theorem State.setGraph_rd_die (x : Graph) (m : Nat) : (s.setGraph n x).die m = s.die m := rfl
@[simp] theorem State.setQueue_rd_group (q : Nat) (u : Queue) (m : Nat) : (s.setQueue n q u).group m = s.group m := rfl
@[simp] theorem State.setQueue_rd_kernel (q : Nat) (u : Queue) (m : Nat) : (s.setQueue n q u).kernel m = s.kernel m := rfl
@[simp] theorem State.setQueue_rd_part (q : Nat) (u : Queue) (m : Nat) : (s.setQueue n q u).part m = s.part m := rfl
@[simp] theorem State.setQueue_rd_core (q : Nat) (u : Queue) (m : Nat) : (s.setQueue n q u).core m = s.core m := rfl
@[simp] theorem State.setQueue_rd_die (q : Nat) (u : Queue) (m : Nat) : (s.setQueue n q u).die m = s.die m := rfl
@[simp] theorem State.setQueue_rd_graph (q : Nat) (u : Queue) (m : Nat) : (s.setQueue n q u).graph m = s.graph m := rfl
@[simp] theorem State.modQueue_rd_group (q : Nat) (h : Queue → Queue) (m : Nat) : (s.modQueue n q h).group m = s.group m := rfl
@[simp] theorem State.modQueue_rd_kernel (q : Nat) (h : Queue → Queue) (m : Nat) : (s.modQueue n q h).kernel m = s.kernel m := rfl
@[simp] theorem State.modQueue_rd_part (q : Nat) (h : Queue → Queue) (m : Nat) : (s.modQueue n q h).part m = s.part m := rfl
@[simp] theorem State.modQueue_rd_core (q : Nat) (h : Queue → Queue) (m : Nat) : (s.modQueue n q h).core m = s.core m := rfl
@[simp] theorem State.modQueue_rd_die (q : Nat) (h : Queue → Queue) (m : Nat) : (s.modQueue n q h).die m = s.die m := rfl
@[simp] theorem State.modQueue_rd_graph (q : Nat) (h : Queue → Queue) (m : Nat) : (s.modQueue n q h).graph m = s.graph m := rfl
@[simp] theorem State.setFsSlot_rd_group (q : Nat) (x : FsSlot) (m : Nat) : (s.setFsSlot n q x).group m = s.group m := rfl
@[simp] theorem State.setFsSlot_rd_kernel (q : Nat) (x : FsSlot) (m : Nat) : (s.setFsSlot n q x).kernel m = s.kernel m := rfl
@[simp] theorem State.setFsSlot_rd_part (q : Nat) (x : FsSlot) (m : Nat) : (s.setFsSlot n q x).part m = s.part m := rfl
@[simp] theorem State.setFsSlot_rd_core (q : Nat) (x : FsSlot) (m : Nat) : (s.setFsSlot n q x).core m = s.core m := rfl
@[simp] theorem State.setFsSlot_rd_die (q : Nat) (x : FsSlot) (m : Nat) : (s.setFsSlot n q x).die m = s.die m := rfl
@[simp] theorem State.setFsSlot_rd_graph (q : Nat) (x : FsSlot) (m : Nat) : (s.setFsSlot n q x).graph m = s.graph m := rfl
@[simp] theorem State.poke_rd_group (key pa : Nat) (bs : List Byte) (m : Nat) : (s.poke key pa bs).group m = s.group m := rfl
@[simp] theorem State.poke_rd_kernel (key pa : Nat) (bs : List Byte) (m : Nat) : (s.poke key pa bs).kernel m = s.kernel m := rfl
@[simp] theorem State.poke_rd_ctx (key pa : Nat) (bs : List Byte) (m : Nat) : (s.poke key pa bs).ctx m = s.ctx m := rfl
@[simp] theorem State.poke_rd_part (key pa : Nat) (bs : List Byte) (m : Nat) : (s.poke key pa bs).part m = s.part m := rfl
@[simp] theorem State.poke_rd_core (key pa : Nat) (bs : List Byte) (m : Nat) : (s.poke key pa bs).core m = s.core m := rfl
@[simp] theorem State.poke_rd_die (key pa : Nat) (bs : List Byte) (m : Nat) : (s.poke key pa bs).die m = s.die m := rfl
@[simp] theorem State.poke_rd_graph (key pa : Nat) (bs : List Byte) (m : Nat) : (s.poke key pa bs).graph m = s.graph m := rfl
@[simp] theorem State.reachAt_rd_group (pa ipa : Nat) (m : Nat) : (s.reachAt pa ipa).group m = s.group m := rfl
@[simp] theorem State.reachAt_rd_kernel (pa ipa : Nat) (m : Nat) : (s.reachAt pa ipa).kernel m = s.kernel m := rfl
@[simp] theorem State.reachAt_rd_ctx (pa ipa : Nat) (m : Nat) : (s.reachAt pa ipa).ctx m = s.ctx m := rfl
@[simp] theorem State.reachAt_rd_part (pa ipa : Nat) (m : Nat) : (s.reachAt pa ipa).part m = s.part m := rfl
@[simp] theorem State.reachAt_rd_core (pa ipa : Nat) (m : Nat) : (s.reachAt pa ipa).core m = s.core m := rfl
@[simp] theorem State.reachAt_rd_die (pa ipa : Nat) (m : Nat) : (s.reachAt pa ipa).die m = s.die m := rfl
@[simp] theorem State.reachAt_rd_graph (pa ipa : Nat) (m : Nat) : (s.reachAt pa ipa).graph m = s.graph m := rfl
@[simp] theorem State.setBank_rd_group (d : Nat) (b : Bank) (m : Nat) : (s.setBank d n b).group m = s.group m := rfl
@[simp] theorem State.setBank_rd_kernel (d : Nat) (b : Bank) (m : Nat) : (s.setBank d n b).kernel m = s.kernel m := rfl
@[simp] theorem State.setBank_rd_ctx (d : Nat) (b : Bank) (m : Nat) : (s.setBank d n b).ctx m = s.ctx m := rfl
@[simp] theorem State.setBank_rd_part (d : Nat) (b : Bank) (m : Nat) : (s.setBank d n b).part m = s.part m := rfl
@[simp] theorem State.setBank_rd_core (d : Nat) (b : Bank) (m : Nat) : (s.setBank d n b).core m = s.core m := rfl
@[simp] theorem State.setBank_rd_die (d : Nat) (b : Bank) (m : Nat) : (s.setBank d n b).die m = s.die m := rfl
@[simp] theorem State.setBank_rd_graph (d : Nat) (b : Bank) (m : Nat) : (s.setBank d n b).graph m = s.graph m := rfl
@[simp] theorem State.bumpInst_rd_group (m : Nat) : (s.bumpInst).group m = s.group m := rfl
@[simp] theorem State.bumpInst_rd_kernel (m : Nat) : (s.bumpInst).kernel m = s.kernel m := rfl
@[simp] theorem State.bumpInst_rd_ctx (m : Nat) : (s.bumpInst).ctx m = s.ctx m := rfl
@[simp] theorem State.bumpInst_rd_part (m : Nat) : (s.bumpInst).part m = s.part m := rfl
@[simp] theorem State.bumpInst_rd_core (m : Nat) : (s.bumpInst).core m = s.core m := rfl
@[simp] theorem State.bumpInst_rd_die (m : Nat) : (s.bumpInst).die m = s.die m := rfl
@[simp] theorem State.bumpInst_rd_graph (m : Nat) : (s.bumpInst).graph m = s.graph m := rfl
@[simp] theorem State.modOp_rd_group (h : EngOp → EngOp) (m : Nat) : (s.modOp n h).group m = s.group m := rfl
@[simp] theorem State.modOp_rd_kernel (h : EngOp → EngOp) (m : Nat) : (s.modOp n h).kernel m = s.kernel m := rfl
@[simp] theorem State.modOp_rd_ctx (h : EngOp → EngOp) (m : Nat) : (s.modOp n h).ctx m = s.ctx m := rfl
@[simp] theorem State.modOp_rd_part (h : EngOp → EngOp) (m : Nat) : (s.modOp n h).part m = s.part m := rfl
@[simp] theorem State.modOp_rd_core (h : EngOp → EngOp) (m : Nat) : (s.modOp n h).core m = s.core m := rfl
@[simp] theorem State.modOp_rd_die (h : EngOp → EngOp) (m : Nat) : (s.modOp n h).die m = s.die m := rfl
@[simp] theorem State.modOp_rd_graph (h : EngOp → EngOp) (m : Nat) : (s.modOp n h).graph m = s.graph m := rfl
@[simp] theorem State.addOp_rd_group (x : EngOp) (m : Nat) : (s.addOp x).group m = s.group m := rfl
@[simp] theorem State.addOp_rd_kernel (x : EngOp) (m : Nat) : (s.addOp x).kernel m = s.kernel m := rfl
@[simp] theorem State.addOp_rd_ctx (x : EngOp) (m : Nat) : (s.addOp x).ctx m = s.ctx m := rfl
@[simp] theorem State.addOp_rd_part (x : EngOp) (m : Nat) : (s.addOp x).part m = s.part m := rfl
@[simp] theorem State.addOp_rd_core (x : EngOp) (m : Nat) : (s.addOp x).core m = s.core m := rfl
@[simp] theorem State.addOp_rd_die (x : EngOp) (m : Nat) : (s.addOp x).die m = s.die m := rfl
@[simp] theorem State.addOp_rd_graph (x : EngOp) (m : Nat) : (s.addOp x).graph m = s.graph m := rfl
@[simp] theorem State.modMx_rd_group (h : MxOp → MxOp) (m : Nat) : (s.modMx n h).group m = s.group m := rfl
@[simp] theorem State.modMx_rd_kernel (h : MxOp → MxOp) (m : Nat) : (s.modMx n h).kernel m = s.kernel m := rfl
@[simp] theorem State.modMx_rd_ctx (h : MxOp → MxOp) (m : Nat) : (s.modMx n h).ctx m = s.ctx m := rfl
@[simp] theorem State.modMx_rd_part (h : MxOp → MxOp) (m : Nat) : (s.modMx n h).part m = s.part m := rfl
@[simp] theorem State.modMx_rd_core (h : MxOp → MxOp) (m : Nat) : (s.modMx n h).core m = s.core m := rfl
@[simp] theorem State.modMx_rd_die (h : MxOp → MxOp) (m : Nat) : (s.modMx n h).die m = s.die m := rfl
@[simp] theorem State.modMx_rd_graph (h : MxOp → MxOp) (m : Nat) : (s.modMx n h).graph m = s.graph m := rfl

/-! ## Updates of a group -/

@[simp] theorem Group.setThread_kid : (g.setThread t th).kid = g.kid := rfl
@[simp] theorem Group.setThread_cid : (g.setThread t th).cid = g.cid := rfl
@[simp] theorem Group.setThread_grp : (g.setThread t th).grp = g.grp := rfl
@[simp] theorem Group.setThread_gwid : (g.setThread t th).gwid = g.gwid := rfl
@[simp] theorem Group.setThread_loc : (g.setThread t th).loc = g.loc := rfl
@[simp] theorem Group.setThread_preempt : (g.setThread t th).preempt = g.preempt := rfl
@[simp] theorem Group.setThread_atLbar : (g.setThread t th).atLbar = g.atLbar := rfl
@[simp] theorem Group.setThread_lbarDead : (g.setThread t th).lbarDead = g.lbarDead := rfl
@[simp] theorem Group.setThread_spad : (g.setThread t th).spad = g.spad := rfl
@[simp] theorem Group.setThread_xlive : (g.setThread t th).xlive = g.xlive := rfl
@[simp] theorem Group.setThread_xshadow : (g.setThread t th).xshadow = g.xshadow := rfl
@[simp] theorem Group.setThread_tiles : (g.setThread t th).tiles = g.tiles := rfl
@[simp] theorem Group.setThread_slots : (g.setThread t th).slots = g.slots := rfl
@[simp] theorem Group.setThread_bars : (g.setThread t th).bars = g.bars := rfl
@[simp] theorem Group.setThread_eng : (g.setThread t th).eng = g.eng := rfl
@[simp] theorem Group.setThread_mx : (g.setThread t th).mx = g.mx := rfl
@[simp] theorem Group.setThread_uq : (g.setThread t th).uq = g.uq := rfl
@[simp] theorem Group.setThread_uqFreed : (g.setThread t th).uqFreed = g.uqFreed := rfl
@[simp] theorem Group.setThread_reserve : (g.setThread t th).reserve = g.reserve := rfl
@[simp] theorem Group.setThread_claims : (g.setThread t th).claims = g.claims := rfl
@[simp] theorem Group.setThread_regions : (g.setThread t th).regions = g.regions := rfl
@[simp] theorem Group.setThread_hart : (g.setThread t th).hart = g.hart := rfl
@[simp] theorem Group.setThread_pendW : (g.setThread t th).pendW = g.pendW := rfl
@[simp] theorem Group.setThread_stamps : (g.setThread t th).stamps = g.stamps := rfl
@[simp] theorem Group.setThread_rels : (g.setThread t th).rels = g.rels := rfl
@[simp] theorem Group.setThread_stall : (g.setThread t th).stall = g.stall := rfl
@[simp] theorem Group.setThread_xphase : (g.setThread t th).xphase = g.xphase := rfl
@[simp] theorem Group.modThread_kid (h : Thread → Thread) : (g.modThread t h).kid = g.kid := by unfold Group.modThread; split <;> rfl
@[simp] theorem Group.modThread_cid (h : Thread → Thread) : (g.modThread t h).cid = g.cid := by unfold Group.modThread; split <;> rfl
@[simp] theorem Group.modThread_grp (h : Thread → Thread) : (g.modThread t h).grp = g.grp := by unfold Group.modThread; split <;> rfl
@[simp] theorem Group.modThread_gwid (h : Thread → Thread) : (g.modThread t h).gwid = g.gwid := by unfold Group.modThread; split <;> rfl
@[simp] theorem Group.modThread_loc (h : Thread → Thread) : (g.modThread t h).loc = g.loc := by unfold Group.modThread; split <;> rfl
@[simp] theorem Group.modThread_preempt (h : Thread → Thread) : (g.modThread t h).preempt = g.preempt := by unfold Group.modThread; split <;> rfl
@[simp] theorem Group.modThread_atLbar (h : Thread → Thread) : (g.modThread t h).atLbar = g.atLbar := by unfold Group.modThread; split <;> rfl
@[simp] theorem Group.modThread_lbarDead (h : Thread → Thread) : (g.modThread t h).lbarDead = g.lbarDead := by unfold Group.modThread; split <;> rfl
@[simp] theorem Group.modThread_spad (h : Thread → Thread) : (g.modThread t h).spad = g.spad := by unfold Group.modThread; split <;> rfl
@[simp] theorem Group.modThread_xlive (h : Thread → Thread) : (g.modThread t h).xlive = g.xlive := by unfold Group.modThread; split <;> rfl
@[simp] theorem Group.modThread_xshadow (h : Thread → Thread) : (g.modThread t h).xshadow = g.xshadow := by unfold Group.modThread; split <;> rfl
@[simp] theorem Group.modThread_tiles (h : Thread → Thread) : (g.modThread t h).tiles = g.tiles := by unfold Group.modThread; split <;> rfl
@[simp] theorem Group.modThread_slots (h : Thread → Thread) : (g.modThread t h).slots = g.slots := by unfold Group.modThread; split <;> rfl
@[simp] theorem Group.modThread_bars (h : Thread → Thread) : (g.modThread t h).bars = g.bars := by unfold Group.modThread; split <;> rfl
@[simp] theorem Group.modThread_eng (h : Thread → Thread) : (g.modThread t h).eng = g.eng := by unfold Group.modThread; split <;> rfl
@[simp] theorem Group.modThread_mx (h : Thread → Thread) : (g.modThread t h).mx = g.mx := by unfold Group.modThread; split <;> rfl
@[simp] theorem Group.modThread_uq (h : Thread → Thread) : (g.modThread t h).uq = g.uq := by unfold Group.modThread; split <;> rfl
@[simp] theorem Group.modThread_uqFreed (h : Thread → Thread) : (g.modThread t h).uqFreed = g.uqFreed := by unfold Group.modThread; split <;> rfl
@[simp] theorem Group.modThread_reserve (h : Thread → Thread) : (g.modThread t h).reserve = g.reserve := by unfold Group.modThread; split <;> rfl
@[simp] theorem Group.modThread_claims (h : Thread → Thread) : (g.modThread t h).claims = g.claims := by unfold Group.modThread; split <;> rfl
@[simp] theorem Group.modThread_regions (h : Thread → Thread) : (g.modThread t h).regions = g.regions := by unfold Group.modThread; split <;> rfl
@[simp] theorem Group.modThread_hart (h : Thread → Thread) : (g.modThread t h).hart = g.hart := by unfold Group.modThread; split <;> rfl
@[simp] theorem Group.modThread_pendW (h : Thread → Thread) : (g.modThread t h).pendW = g.pendW := by unfold Group.modThread; split <;> rfl
@[simp] theorem Group.modThread_stamps (h : Thread → Thread) : (g.modThread t h).stamps = g.stamps := by unfold Group.modThread; split <;> rfl
@[simp] theorem Group.modThread_rels (h : Thread → Thread) : (g.modThread t h).rels = g.rels := by unfold Group.modThread; split <;> rfl
@[simp] theorem Group.modThread_stall (h : Thread → Thread) : (g.modThread t h).stall = g.stall := by unfold Group.modThread; split <;> rfl
@[simp] theorem Group.modThread_xphase (h : Thread → Thread) : (g.modThread t h).xphase = g.xphase := by unfold Group.modThread; split <;> rfl
@[simp] theorem Group.setThread_threads : (g.setThread t th).threads = mset g.threads t th := rfl
theorem Group.modThread_threads (h : Thread → Thread) (ht : mget g.threads t = some th) :
    (g.modThread t h).threads = mset g.threads t (h th) := by
  simp [Group.modThread, ht]

/-! ## Updates of a thread -/

@[simp] theorem Thread.countWindow_wid : (th.countWindow).wid = th.wid := rfl
@[simp] theorem Thread.countWindow_sg : (th.countWindow).sg = th.sg := rfl
@[simp] theorem Thread.countWindow_sgt : (th.countWindow).sgt = th.sgt := rfl
@[simp] theorem Thread.countWindow_lane : (th.countWindow).lane = th.lane := rfl
@[simp] theorem Thread.countWindow_live : (th.countWindow).live = th.live := rfl
@[simp] theorem Thread.countWindow_regs : (th.countWindow).regs = th.regs := rfl
@[simp] theorem Thread.countWindow_opf : (th.countWindow).opf = th.opf := rfl
@[simp] theorem Thread.countWindow_l0 : (th.countWindow).l0 = th.l0 := rfl
@[simp] theorem Thread.countWindow_l1 : (th.countWindow).l1 = th.l1 := rfl
@[simp] theorem Thread.countWindow_preds : (th.countWindow).preds = th.preds := rfl
@[simp] theorem Thread.countWindow_quota : (th.countWindow).quota = th.quota := rfl
@[simp] theorem Thread.countWindow_pc : (th.countWindow).pc = th.pc := rfl
@[simp] theorem Thread.countWindow_rep : (th.countWindow).rep = th.rep := rfl
@[simp] theorem Thread.countWindow_inside : (th.countWindow).inside = th.inside := rfl
@[simp] theorem Thread.countWindow_cvDone : (th.countWindow).cvDone = th.cvDone := rfl
@[simp] theorem Thread.countWindow_marks : (th.countWindow).marks = th.marks := rfl
@[simp] theorem Thread.countWindow_fflags : (th.countWindow).fflags = th.fflags := rfl
@[simp] theorem Thread.countWindow_fen : (th.countWindow).fen = th.fen := rfl
@[simp] theorem Thread.countWindow_cause : (th.countWindow).cause = th.cause := rfl
@[simp] theorem Thread.countWindow_epc : (th.countWindow).epc = th.epc := rfl
@[simp] theorem Thread.countWindow_taddr : (th.countWindow).taddr = th.taddr := rfl
@[simp] theorem Thread.countWindow_tinfo : (th.countWindow).tinfo = th.tinfo := rfl
@[simp] theorem Thread.countWindow_msk : (th.countWindow).msk = th.msk := rfl
@[simp] theorem Thread.countWindow_pmsk : (th.countWindow).pmsk = th.pmsk := rfl
@[simp] theorem Thread.countWindow_hcount : (th.countWindow).hcount = th.hcount := rfl
@[simp] theorem Thread.countWindow_windows : (th.countWindow).windows = th.windows := rfl
@[simp] theorem Thread.countWindow_trapRep : (th.countWindow).trapRep = th.trapRep := rfl
@[simp] theorem Thread.countWindow_frames : (th.countWindow).frames = th.frames := rfl
@[simp] theorem Thread.countWindow_las : (th.countWindow).las = th.las := rfl
@[simp] theorem Thread.countWindow_regions : (th.countWindow).regions = th.regions := rfl
@[simp] theorem Thread.countWindow_parked : (th.countWindow).parked = th.parked := rfl
@[simp] theorem Thread.countWindow_wait : (th.countWindow).wait = th.wait := rfl
@[simp] theorem Thread.countWindow_retry : (th.countWindow).retry = th.retry := rfl
@[simp] theorem Thread.countWindow_kept : (th.countWindow).kept = th.kept := rfl
@[simp] theorem Thread.countWindow_resume : (th.countWindow).resume = th.resume := rfl
@[simp] theorem Thread.countWindow_resumeRep : (th.countWindow).resumeRep = th.resumeRep := rfl
@[simp] theorem Thread.countWindow_owedRel : (th.countWindow).owedRel = th.owedRel := rfl
@[simp] theorem Thread.countWindow_owedPop : (th.countWindow).owedPop = th.owedPop := rfl
@[simp] theorem Thread.countWindow_uqpos : (th.countWindow).uqpos = th.uqpos := rfl
@[simp] theorem Thread.countWindow_lbars : (th.countWindow).lbars = th.lbars := rfl
@[simp] theorem Thread.countWindow_ready : (th.countWindow).ready = th.ready := rfl
@[simp] theorem Thread.countWindow_hb : (th.countWindow).hb = th.hb := rfl
@[simp] theorem Thread.endWindows_wid : (th.endWindows).wid = th.wid := rfl
@[simp] theorem Thread.endWindows_sg : (th.endWindows).sg = th.sg := rfl
@[simp] theorem Thread.endWindows_sgt : (th.endWindows).sgt = th.sgt := rfl
@[simp] theorem Thread.endWindows_lane : (th.endWindows).lane = th.lane := rfl
@[simp] theorem Thread.endWindows_live : (th.endWindows).live = th.live := rfl
@[simp] theorem Thread.endWindows_regs : (th.endWindows).regs = th.regs := rfl
@[simp] theorem Thread.endWindows_opf : (th.endWindows).opf = th.opf := rfl
@[simp] theorem Thread.endWindows_l0 : (th.endWindows).l0 = th.l0 := rfl
@[simp] theorem Thread.endWindows_l1 : (th.endWindows).l1 = th.l1 := rfl
@[simp] theorem Thread.endWindows_preds : (th.endWindows).preds = th.preds := rfl
@[simp] theorem Thread.endWindows_quota : (th.endWindows).quota = th.quota := rfl
@[simp] theorem Thread.endWindows_pc : (th.endWindows).pc = th.pc := rfl
@[simp] theorem Thread.endWindows_rep : (th.endWindows).rep = th.rep := rfl
@[simp] theorem Thread.endWindows_inside : (th.endWindows).inside = th.inside := rfl
@[simp] theorem Thread.endWindows_cvDone : (th.endWindows).cvDone = th.cvDone := rfl
@[simp] theorem Thread.endWindows_marks : (th.endWindows).marks = th.marks := rfl
@[simp] theorem Thread.endWindows_fflags : (th.endWindows).fflags = th.fflags := rfl
@[simp] theorem Thread.endWindows_fen : (th.endWindows).fen = th.fen := rfl
@[simp] theorem Thread.endWindows_cause : (th.endWindows).cause = th.cause := rfl
@[simp] theorem Thread.endWindows_epc : (th.endWindows).epc = th.epc := rfl
@[simp] theorem Thread.endWindows_taddr : (th.endWindows).taddr = th.taddr := rfl
@[simp] theorem Thread.endWindows_tinfo : (th.endWindows).tinfo = th.tinfo := rfl
@[simp] theorem Thread.endWindows_msk : (th.endWindows).msk = th.msk := rfl
@[simp] theorem Thread.endWindows_pmsk : (th.endWindows).pmsk = th.pmsk := rfl
@[simp] theorem Thread.endWindows_hcount : (th.endWindows).hcount = th.hcount := rfl
@[simp] theorem Thread.endWindows_windows : (th.endWindows).windows = th.windows := rfl
@[simp] theorem Thread.endWindows_trapRep : (th.endWindows).trapRep = th.trapRep := rfl
@[simp] theorem Thread.endWindows_frames : (th.endWindows).frames = th.frames := rfl
@[simp] theorem Thread.endWindows_las : (th.endWindows).las = th.las := rfl
@[simp] theorem Thread.endWindows_regions : (th.endWindows).regions = th.regions := rfl
@[simp] theorem Thread.endWindows_parked : (th.endWindows).parked = th.parked := rfl
@[simp] theorem Thread.endWindows_wait : (th.endWindows).wait = th.wait := rfl
@[simp] theorem Thread.endWindows_retry : (th.endWindows).retry = th.retry := rfl
@[simp] theorem Thread.endWindows_kept : (th.endWindows).kept = th.kept := rfl
@[simp] theorem Thread.endWindows_resume : (th.endWindows).resume = th.resume := rfl
@[simp] theorem Thread.endWindows_resumeRep : (th.endWindows).resumeRep = th.resumeRep := rfl
@[simp] theorem Thread.endWindows_owedRel : (th.endWindows).owedRel = th.owedRel := rfl
@[simp] theorem Thread.endWindows_owedPop : (th.endWindows).owedPop = th.owedPop := rfl
@[simp] theorem Thread.endWindows_uqpos : (th.endWindows).uqpos = th.uqpos := rfl
@[simp] theorem Thread.endWindows_lbars : (th.endWindows).lbars = th.lbars := rfl
@[simp] theorem Thread.endWindows_ready : (th.endWindows).ready = th.ready := rfl
@[simp] theorem Thread.endWindows_hb : (th.endWindows).hb = th.hb := rfl
@[simp] theorem Thread.outside_wid : (th.outside).wid = th.wid := rfl
@[simp] theorem Thread.outside_sg : (th.outside).sg = th.sg := rfl
@[simp] theorem Thread.outside_sgt : (th.outside).sgt = th.sgt := rfl
@[simp] theorem Thread.outside_lane : (th.outside).lane = th.lane := rfl
@[simp] theorem Thread.outside_live : (th.outside).live = th.live := rfl
@[simp] theorem Thread.outside_regs : (th.outside).regs = th.regs := rfl
@[simp] theorem Thread.outside_opf : (th.outside).opf = th.opf := rfl
@[simp] theorem Thread.outside_preds : (th.outside).preds = th.preds := rfl
@[simp] theorem Thread.outside_quota : (th.outside).quota = th.quota := rfl
@[simp] theorem Thread.outside_pc : (th.outside).pc = th.pc := rfl
@[simp] theorem Thread.outside_rep : (th.outside).rep = th.rep := rfl
@[simp] theorem Thread.outside_pend : (th.outside).pend = th.pend := rfl
@[simp] theorem Thread.outside_marks : (th.outside).marks = th.marks := rfl
@[simp] theorem Thread.outside_fflags : (th.outside).fflags = th.fflags := rfl
@[simp] theorem Thread.outside_fen : (th.outside).fen = th.fen := rfl
@[simp] theorem Thread.outside_cause : (th.outside).cause = th.cause := rfl
@[simp] theorem Thread.outside_epc : (th.outside).epc = th.epc := rfl
@[simp] theorem Thread.outside_taddr : (th.outside).taddr = th.taddr := rfl
@[simp] theorem Thread.outside_tinfo : (th.outside).tinfo = th.tinfo := rfl
@[simp] theorem Thread.outside_msk : (th.outside).msk = th.msk := rfl
@[simp] theorem Thread.outside_pmsk : (th.outside).pmsk = th.pmsk := rfl
@[simp] theorem Thread.outside_hcount : (th.outside).hcount = th.hcount := rfl
@[simp] theorem Thread.outside_windows : (th.outside).windows = th.windows := rfl
@[simp] theorem Thread.outside_trapRep : (th.outside).trapRep = th.trapRep := rfl
@[simp] theorem Thread.outside_frames : (th.outside).frames = th.frames := rfl
@[simp] theorem Thread.outside_las : (th.outside).las = th.las := rfl
@[simp] theorem Thread.outside_regions : (th.outside).regions = th.regions := rfl
@[simp] theorem Thread.outside_parked : (th.outside).parked = th.parked := rfl
@[simp] theorem Thread.outside_wait : (th.outside).wait = th.wait := rfl
@[simp] theorem Thread.outside_retry : (th.outside).retry = th.retry := rfl
@[simp] theorem Thread.outside_resume : (th.outside).resume = th.resume := rfl
@[simp] theorem Thread.outside_resumeRep : (th.outside).resumeRep = th.resumeRep := rfl
@[simp] theorem Thread.outside_owedRel : (th.outside).owedRel = th.owedRel := rfl
@[simp] theorem Thread.outside_owedPop : (th.outside).owedPop = th.owedPop := rfl
@[simp] theorem Thread.outside_uqpos : (th.outside).uqpos = th.uqpos := rfl
@[simp] theorem Thread.outside_lbars : (th.outside).lbars = th.lbars := rfl
@[simp] theorem Thread.outside_ready : (th.outside).ready = th.ready := rfl
@[simp] theorem Thread.outside_hb : (th.outside).hb = th.hb := rfl
@[simp] theorem Thread.jump_wid (pc : W64) : (th.jump pc).wid = th.wid := rfl
@[simp] theorem Thread.jump_sg (pc : W64) : (th.jump pc).sg = th.sg := rfl
@[simp] theorem Thread.jump_sgt (pc : W64) : (th.jump pc).sgt = th.sgt := rfl
@[simp] theorem Thread.jump_lane (pc : W64) : (th.jump pc).lane = th.lane := rfl
@[simp] theorem Thread.jump_live (pc : W64) : (th.jump pc).live = th.live := rfl
@[simp] theorem Thread.jump_regs (pc : W64) : (th.jump pc).regs = th.regs := rfl
@[simp] theorem Thread.jump_opf (pc : W64) : (th.jump pc).opf = th.opf := rfl
@[simp] theorem Thread.jump_preds (pc : W64) : (th.jump pc).preds = th.preds := rfl
@[simp] theorem Thread.jump_quota (pc : W64) : (th.jump pc).quota = th.quota := rfl
@[simp] theorem Thread.jump_marks (pc : W64) : (th.jump pc).marks = th.marks := rfl
@[simp] theorem Thread.jump_fflags (pc : W64) : (th.jump pc).fflags = th.fflags := rfl
@[simp] theorem Thread.jump_fen (pc : W64) : (th.jump pc).fen = th.fen := rfl
@[simp] theorem Thread.jump_cause (pc : W64) : (th.jump pc).cause = th.cause := rfl
@[simp] theorem Thread.jump_epc (pc : W64) : (th.jump pc).epc = th.epc := rfl
@[simp] theorem Thread.jump_taddr (pc : W64) : (th.jump pc).taddr = th.taddr := rfl
@[simp] theorem Thread.jump_tinfo (pc : W64) : (th.jump pc).tinfo = th.tinfo := rfl
@[simp] theorem Thread.jump_msk (pc : W64) : (th.jump pc).msk = th.msk := rfl
@[simp] theorem Thread.jump_pmsk (pc : W64) : (th.jump pc).pmsk = th.pmsk := rfl
@[simp] theorem Thread.jump_hcount (pc : W64) : (th.jump pc).hcount = th.hcount := rfl
@[simp] theorem Thread.jump_windows (pc : W64) : (th.jump pc).windows = th.windows := rfl
@[simp] theorem Thread.jump_trapRep (pc : W64) : (th.jump pc).trapRep = th.trapRep := rfl
@[simp] theorem Thread.jump_frames (pc : W64) : (th.jump pc).frames = th.frames := rfl
@[simp] theorem Thread.jump_las (pc : W64) : (th.jump pc).las = th.las := rfl
@[simp] theorem Thread.jump_regions (pc : W64) : (th.jump pc).regions = th.regions := rfl
@[simp] theorem Thread.jump_parked (pc : W64) : (th.jump pc).parked = th.parked := rfl
@[simp] theorem Thread.jump_wait (pc : W64) : (th.jump pc).wait = th.wait := rfl
@[simp] theorem Thread.jump_resume (pc : W64) : (th.jump pc).resume = th.resume := rfl
@[simp] theorem Thread.jump_resumeRep (pc : W64) : (th.jump pc).resumeRep = th.resumeRep := rfl
@[simp] theorem Thread.jump_owedRel (pc : W64) : (th.jump pc).owedRel = th.owedRel := rfl
@[simp] theorem Thread.jump_owedPop (pc : W64) : (th.jump pc).owedPop = th.owedPop := rfl
@[simp] theorem Thread.jump_uqpos (pc : W64) : (th.jump pc).uqpos = th.uqpos := rfl
@[simp] theorem Thread.jump_lbars (pc : W64) : (th.jump pc).lbars = th.lbars := rfl
@[simp] theorem Thread.jump_ready (pc : W64) : (th.jump pc).ready = th.ready := rfl
@[simp] theorem Thread.jump_hb (pc : W64) : (th.jump pc).hb = th.hb := rfl
@[simp] theorem Thread.advance_wid (c : Cur) : (th.advance c).wid = th.wid := by unfold Thread.advance; dsimp only; split <;> rfl
@[simp] theorem Thread.advance_sg (c : Cur) : (th.advance c).sg = th.sg := by unfold Thread.advance; dsimp only; split <;> rfl
@[simp] theorem Thread.advance_sgt (c : Cur) : (th.advance c).sgt = th.sgt := by unfold Thread.advance; dsimp only; split <;> rfl
@[simp] theorem Thread.advance_lane (c : Cur) : (th.advance c).lane = th.lane := by unfold Thread.advance; dsimp only; split <;> rfl
@[simp] theorem Thread.advance_live (c : Cur) : (th.advance c).live = th.live := by unfold Thread.advance; dsimp only; split <;> rfl
@[simp] theorem Thread.advance_regs (c : Cur) : (th.advance c).regs = th.regs := by unfold Thread.advance; dsimp only; split <;> rfl
@[simp] theorem Thread.advance_opf (c : Cur) : (th.advance c).opf = th.opf := by unfold Thread.advance; dsimp only; split <;> rfl
@[simp] theorem Thread.advance_preds (c : Cur) : (th.advance c).preds = th.preds := by unfold Thread.advance; dsimp only; split <;> rfl
@[simp] theorem Thread.advance_quota (c : Cur) : (th.advance c).quota = th.quota := by unfold Thread.advance; dsimp only; split <;> rfl
@[simp] theorem Thread.advance_pend (c : Cur) : (th.advance c).pend = th.pend := by unfold Thread.advance; dsimp only; split <;> rfl
@[simp] theorem Thread.advance_marks (c : Cur) : (th.advance c).marks = th.marks := by unfold Thread.advance; dsimp only; split <;> rfl
@[simp] theorem Thread.advance_fflags (c : Cur) : (th.advance c).fflags = th.fflags := by unfold Thread.advance; dsimp only; split <;> rfl
@[simp] theorem Thread.advance_fen (c : Cur) : (th.advance c).fen = th.fen := by unfold Thread.advance; dsimp only; split <;> rfl
@[simp] theorem Thread.advance_cause (c : Cur) : (th.advance c).cause = th.cause := by unfold Thread.advance; dsimp only; split <;> rfl
@[simp] theorem Thread.advance_epc (c : Cur) : (th.advance c).epc = th.epc := by unfold Thread.advance; dsimp only; split <;> rfl
@[simp] theorem Thread.advance_taddr (c : Cur) : (th.advance c).taddr = th.taddr := by unfold Thread.advance; dsimp only; split <;> rfl
@[simp] theorem Thread.advance_tinfo (c : Cur) : (th.advance c).tinfo = th.tinfo := by unfold Thread.advance; dsimp only; split <;> rfl
@[simp] theorem Thread.advance_msk (c : Cur) : (th.advance c).msk = th.msk := by unfold Thread.advance; dsimp only; split <;> rfl
@[simp] theorem Thread.advance_pmsk (c : Cur) : (th.advance c).pmsk = th.pmsk := by unfold Thread.advance; dsimp only; split <;> rfl
@[simp] theorem Thread.advance_hcount (c : Cur) : (th.advance c).hcount = th.hcount := by unfold Thread.advance; dsimp only; split <;> rfl
@[simp] theorem Thread.advance_windows (c : Cur) : (th.advance c).windows = th.windows := by unfold Thread.advance; dsimp only; split <;> rfl
@[simp] theorem Thread.advance_trapRep (c : Cur) : (th.advance c).trapRep = th.trapRep := by unfold Thread.advance; dsimp only; split <;> rfl
@[simp] theorem Thread.advance_frames (c : Cur) : (th.advance c).frames = th.frames := by unfold Thread.advance; dsimp only; split <;> rfl
@[simp] theorem Thread.advance_las (c : Cur) : (th.advance c).las = th.las := by unfold Thread.advance; dsimp only; split <;> rfl
@[simp] theorem Thread.advance_regions (c : Cur) : (th.advance c).regions = th.regions := by unfold Thread.advance; dsimp only; split <;> rfl
@[simp] theorem Thread.advance_parked (c : Cur) : (th.advance c).parked = th.parked := by unfold Thread.advance; dsimp only; split <;> rfl
@[simp] theorem Thread.advance_wait (c : Cur) : (th.advance c).wait = th.wait := by unfold Thread.advance; dsimp only; split <;> rfl
@[simp] theorem Thread.advance_resume (c : Cur) : (th.advance c).resume = th.resume := by unfold Thread.advance; dsimp only; split <;> rfl
@[simp] theorem Thread.advance_resumeRep (c : Cur) : (th.advance c).resumeRep = th.resumeRep := by unfold Thread.advance; dsimp only; split <;> rfl
@[simp] theorem Thread.advance_owedRel (c : Cur) : (th.advance c).owedRel = th.owedRel := by unfold Thread.advance; dsimp only; split <;> rfl
@[simp] theorem Thread.advance_owedPop (c : Cur) : (th.advance c).owedPop = th.owedPop := by unfold Thread.advance; dsimp only; split <;> rfl
@[simp] theorem Thread.advance_uqpos (c : Cur) : (th.advance c).uqpos = th.uqpos := by unfold Thread.advance; dsimp only; split <;> rfl
@[simp] theorem Thread.advance_lbars (c : Cur) : (th.advance c).lbars = th.lbars := by unfold Thread.advance; dsimp only; split <;> rfl
@[simp] theorem Thread.advance_ready (c : Cur) : (th.advance c).ready = th.ready := by unfold Thread.advance; dsimp only; split <;> rfl
@[simp] theorem Thread.advance_hb (c : Cur) : (th.advance c).hb = th.hb := by unfold Thread.advance; dsimp only; split <;> rfl
@[simp] theorem Thread.raiseFlags_wid (fl : FFlags) : (th.raiseFlags fl).wid = th.wid := rfl
@[simp] theorem Thread.raiseFlags_sg (fl : FFlags) : (th.raiseFlags fl).sg = th.sg := rfl
@[simp] theorem Thread.raiseFlags_sgt (fl : FFlags) : (th.raiseFlags fl).sgt = th.sgt := rfl
@[simp] theorem Thread.raiseFlags_lane (fl : FFlags) : (th.raiseFlags fl).lane = th.lane := rfl
@[simp] theorem Thread.raiseFlags_live (fl : FFlags) : (th.raiseFlags fl).live = th.live := rfl
@[simp] theorem Thread.raiseFlags_regs (fl : FFlags) : (th.raiseFlags fl).regs = th.regs := rfl
@[simp] theorem Thread.raiseFlags_opf (fl : FFlags) : (th.raiseFlags fl).opf = th.opf := rfl
@[simp] theorem Thread.raiseFlags_l0 (fl : FFlags) : (th.raiseFlags fl).l0 = th.l0 := rfl
@[simp] theorem Thread.raiseFlags_l1 (fl : FFlags) : (th.raiseFlags fl).l1 = th.l1 := rfl
@[simp] theorem Thread.raiseFlags_preds (fl : FFlags) : (th.raiseFlags fl).preds = th.preds := rfl
@[simp] theorem Thread.raiseFlags_quota (fl : FFlags) : (th.raiseFlags fl).quota = th.quota := rfl
@[simp] theorem Thread.raiseFlags_pc (fl : FFlags) : (th.raiseFlags fl).pc = th.pc := rfl
@[simp] theorem Thread.raiseFlags_rep (fl : FFlags) : (th.raiseFlags fl).rep = th.rep := rfl
@[simp] theorem Thread.raiseFlags_inside (fl : FFlags) : (th.raiseFlags fl).inside = th.inside := rfl
@[simp] theorem Thread.raiseFlags_cvDone (fl : FFlags) : (th.raiseFlags fl).cvDone = th.cvDone := rfl
@[simp] theorem Thread.raiseFlags_pend (fl : FFlags) : (th.raiseFlags fl).pend = th.pend := rfl
@[simp] theorem Thread.raiseFlags_marks (fl : FFlags) : (th.raiseFlags fl).marks = th.marks := rfl
@[simp] theorem Thread.raiseFlags_fen (fl : FFlags) : (th.raiseFlags fl).fen = th.fen := rfl
@[simp] theorem Thread.raiseFlags_cause (fl : FFlags) : (th.raiseFlags fl).cause = th.cause := rfl
@[simp] theorem Thread.raiseFlags_epc (fl : FFlags) : (th.raiseFlags fl).epc = th.epc := rfl
@[simp] theorem Thread.raiseFlags_taddr (fl : FFlags) : (th.raiseFlags fl).taddr = th.taddr := rfl
@[simp] theorem Thread.raiseFlags_tinfo (fl : FFlags) : (th.raiseFlags fl).tinfo = th.tinfo := rfl
@[simp] theorem Thread.raiseFlags_msk (fl : FFlags) : (th.raiseFlags fl).msk = th.msk := rfl
@[simp] theorem Thread.raiseFlags_pmsk (fl : FFlags) : (th.raiseFlags fl).pmsk = th.pmsk := rfl
@[simp] theorem Thread.raiseFlags_hcount (fl : FFlags) : (th.raiseFlags fl).hcount = th.hcount := rfl
@[simp] theorem Thread.raiseFlags_windows (fl : FFlags) : (th.raiseFlags fl).windows = th.windows := rfl
@[simp] theorem Thread.raiseFlags_trapRep (fl : FFlags) : (th.raiseFlags fl).trapRep = th.trapRep := rfl
@[simp] theorem Thread.raiseFlags_frames (fl : FFlags) : (th.raiseFlags fl).frames = th.frames := rfl
@[simp] theorem Thread.raiseFlags_las (fl : FFlags) : (th.raiseFlags fl).las = th.las := rfl
@[simp] theorem Thread.raiseFlags_regions (fl : FFlags) : (th.raiseFlags fl).regions = th.regions := rfl
@[simp] theorem Thread.raiseFlags_parked (fl : FFlags) : (th.raiseFlags fl).parked = th.parked := rfl
@[simp] theorem Thread.raiseFlags_wait (fl : FFlags) : (th.raiseFlags fl).wait = th.wait := rfl
@[simp] theorem Thread.raiseFlags_retry (fl : FFlags) : (th.raiseFlags fl).retry = th.retry := rfl
@[simp] theorem Thread.raiseFlags_kept (fl : FFlags) : (th.raiseFlags fl).kept = th.kept := rfl
@[simp] theorem Thread.raiseFlags_resume (fl : FFlags) : (th.raiseFlags fl).resume = th.resume := rfl
@[simp] theorem Thread.raiseFlags_resumeRep (fl : FFlags) : (th.raiseFlags fl).resumeRep = th.resumeRep := rfl
@[simp] theorem Thread.raiseFlags_owedRel (fl : FFlags) : (th.raiseFlags fl).owedRel = th.owedRel := rfl
@[simp] theorem Thread.raiseFlags_owedPop (fl : FFlags) : (th.raiseFlags fl).owedPop = th.owedPop := rfl
@[simp] theorem Thread.raiseFlags_uqpos (fl : FFlags) : (th.raiseFlags fl).uqpos = th.uqpos := rfl
@[simp] theorem Thread.raiseFlags_lbars (fl : FFlags) : (th.raiseFlags fl).lbars = th.lbars := rfl
@[simp] theorem Thread.raiseFlags_ready (fl : FFlags) : (th.raiseFlags fl).ready = th.ready := rfl
@[simp] theorem Thread.raiseFlags_hb (fl : FFlags) : (th.raiseFlags fl).hb = th.hb := rfl
@[simp] theorem Thread.setMsk_wid (m : Bool) : (th.setMsk m).wid = th.wid := rfl
@[simp] theorem Thread.setMsk_sg (m : Bool) : (th.setMsk m).sg = th.sg := rfl
@[simp] theorem Thread.setMsk_sgt (m : Bool) : (th.setMsk m).sgt = th.sgt := rfl
@[simp] theorem Thread.setMsk_lane (m : Bool) : (th.setMsk m).lane = th.lane := rfl
@[simp] theorem Thread.setMsk_live (m : Bool) : (th.setMsk m).live = th.live := rfl
@[simp] theorem Thread.setMsk_regs (m : Bool) : (th.setMsk m).regs = th.regs := rfl
@[simp] theorem Thread.setMsk_opf (m : Bool) : (th.setMsk m).opf = th.opf := rfl
@[simp] theorem Thread.setMsk_l0 (m : Bool) : (th.setMsk m).l0 = th.l0 := rfl
@[simp] theorem Thread.setMsk_l1 (m : Bool) : (th.setMsk m).l1 = th.l1 := rfl
@[simp] theorem Thread.setMsk_preds (m : Bool) : (th.setMsk m).preds = th.preds := rfl
@[simp] theorem Thread.setMsk_quota (m : Bool) : (th.setMsk m).quota = th.quota := rfl
@[simp] theorem Thread.setMsk_pc (m : Bool) : (th.setMsk m).pc = th.pc := rfl
@[simp] theorem Thread.setMsk_rep (m : Bool) : (th.setMsk m).rep = th.rep := rfl
@[simp] theorem Thread.setMsk_inside (m : Bool) : (th.setMsk m).inside = th.inside := rfl
@[simp] theorem Thread.setMsk_cvDone (m : Bool) : (th.setMsk m).cvDone = th.cvDone := rfl
@[simp] theorem Thread.setMsk_pend (m : Bool) : (th.setMsk m).pend = th.pend := rfl
@[simp] theorem Thread.setMsk_marks (m : Bool) : (th.setMsk m).marks = th.marks := rfl
@[simp] theorem Thread.setMsk_fflags (m : Bool) : (th.setMsk m).fflags = th.fflags := rfl
@[simp] theorem Thread.setMsk_fen (m : Bool) : (th.setMsk m).fen = th.fen := rfl
@[simp] theorem Thread.setMsk_cause (m : Bool) : (th.setMsk m).cause = th.cause := rfl
@[simp] theorem Thread.setMsk_epc (m : Bool) : (th.setMsk m).epc = th.epc := rfl
@[simp] theorem Thread.setMsk_taddr (m : Bool) : (th.setMsk m).taddr = th.taddr := rfl
@[simp] theorem Thread.setMsk_tinfo (m : Bool) : (th.setMsk m).tinfo = th.tinfo := rfl
@[simp] theorem Thread.setMsk_pmsk (m : Bool) : (th.setMsk m).pmsk = th.pmsk := rfl
@[simp] theorem Thread.setMsk_windows (m : Bool) : (th.setMsk m).windows = th.windows := rfl
@[simp] theorem Thread.setMsk_trapRep (m : Bool) : (th.setMsk m).trapRep = th.trapRep := rfl
@[simp] theorem Thread.setMsk_frames (m : Bool) : (th.setMsk m).frames = th.frames := rfl
@[simp] theorem Thread.setMsk_las (m : Bool) : (th.setMsk m).las = th.las := rfl
@[simp] theorem Thread.setMsk_regions (m : Bool) : (th.setMsk m).regions = th.regions := rfl
@[simp] theorem Thread.setMsk_parked (m : Bool) : (th.setMsk m).parked = th.parked := rfl
@[simp] theorem Thread.setMsk_wait (m : Bool) : (th.setMsk m).wait = th.wait := rfl
@[simp] theorem Thread.setMsk_retry (m : Bool) : (th.setMsk m).retry = th.retry := rfl
@[simp] theorem Thread.setMsk_kept (m : Bool) : (th.setMsk m).kept = th.kept := rfl
@[simp] theorem Thread.setMsk_resume (m : Bool) : (th.setMsk m).resume = th.resume := rfl
@[simp] theorem Thread.setMsk_resumeRep (m : Bool) : (th.setMsk m).resumeRep = th.resumeRep := rfl
@[simp] theorem Thread.setMsk_owedRel (m : Bool) : (th.setMsk m).owedRel = th.owedRel := rfl
@[simp] theorem Thread.setMsk_owedPop (m : Bool) : (th.setMsk m).owedPop = th.owedPop := rfl
@[simp] theorem Thread.setMsk_uqpos (m : Bool) : (th.setMsk m).uqpos = th.uqpos := rfl
@[simp] theorem Thread.setMsk_lbars (m : Bool) : (th.setMsk m).lbars = th.lbars := rfl
@[simp] theorem Thread.setMsk_ready (m : Bool) : (th.setMsk m).ready = th.ready := rfl
@[simp] theorem Thread.setMsk_hb (m : Bool) : (th.setMsk m).hb = th.hb := rfl
@[simp] theorem Thread.again_wid (now : Nat) : (th.again now).wid = th.wid := by unfold Thread.again; dsimp only; split <;> rfl
@[simp] theorem Thread.again_sg (now : Nat) : (th.again now).sg = th.sg := by unfold Thread.again; dsimp only; split <;> rfl
@[simp] theorem Thread.again_sgt (now : Nat) : (th.again now).sgt = th.sgt := by unfold Thread.again; dsimp only; split <;> rfl
@[simp] theorem Thread.again_lane (now : Nat) : (th.again now).lane = th.lane := by unfold Thread.again; dsimp only; split <;> rfl
@[simp] theorem Thread.again_live (now : Nat) : (th.again now).live = th.live := by unfold Thread.again; dsimp only; split <;> rfl
@[simp] theorem Thread.again_regs (now : Nat) : (th.again now).regs = th.regs := by unfold Thread.again; dsimp only; split <;> rfl
@[simp] theorem Thread.again_opf (now : Nat) : (th.again now).opf = th.opf := by unfold Thread.again; dsimp only; split <;> rfl
@[simp] theorem Thread.again_preds (now : Nat) : (th.again now).preds = th.preds := by unfold Thread.again; dsimp only; split <;> rfl
@[simp] theorem Thread.again_quota (now : Nat) : (th.again now).quota = th.quota := by unfold Thread.again; dsimp only; split <;> rfl
@[simp] theorem Thread.again_pc (now : Nat) : (th.again now).pc = th.pc := by unfold Thread.again; dsimp only; split <;> rfl
@[simp] theorem Thread.again_rep (now : Nat) : (th.again now).rep = th.rep := by unfold Thread.again; dsimp only; split <;> rfl
@[simp] theorem Thread.again_cvDone (now : Nat) : (th.again now).cvDone = th.cvDone := by unfold Thread.again; dsimp only; split <;> rfl
@[simp] theorem Thread.again_pend (now : Nat) : (th.again now).pend = th.pend := by unfold Thread.again; dsimp only; split <;> rfl
@[simp] theorem Thread.again_marks (now : Nat) : (th.again now).marks = th.marks := by unfold Thread.again; dsimp only; split <;> rfl
@[simp] theorem Thread.again_fflags (now : Nat) : (th.again now).fflags = th.fflags := by unfold Thread.again; dsimp only; split <;> rfl
@[simp] theorem Thread.again_fen (now : Nat) : (th.again now).fen = th.fen := by unfold Thread.again; dsimp only; split <;> rfl
@[simp] theorem Thread.again_cause (now : Nat) : (th.again now).cause = th.cause := by unfold Thread.again; dsimp only; split <;> rfl
@[simp] theorem Thread.again_epc (now : Nat) : (th.again now).epc = th.epc := by unfold Thread.again; dsimp only; split <;> rfl
@[simp] theorem Thread.again_taddr (now : Nat) : (th.again now).taddr = th.taddr := by unfold Thread.again; dsimp only; split <;> rfl
@[simp] theorem Thread.again_tinfo (now : Nat) : (th.again now).tinfo = th.tinfo := by unfold Thread.again; dsimp only; split <;> rfl
@[simp] theorem Thread.again_msk (now : Nat) : (th.again now).msk = th.msk := by unfold Thread.again; dsimp only; split <;> rfl
@[simp] theorem Thread.again_pmsk (now : Nat) : (th.again now).pmsk = th.pmsk := by unfold Thread.again; dsimp only; split <;> rfl
@[simp] theorem Thread.again_hcount (now : Nat) : (th.again now).hcount = th.hcount := by unfold Thread.again; dsimp only; split <;> rfl
@[simp] theorem Thread.again_windows (now : Nat) : (th.again now).windows = th.windows := by unfold Thread.again; dsimp only; split <;> rfl
@[simp] theorem Thread.again_trapRep (now : Nat) : (th.again now).trapRep = th.trapRep := by unfold Thread.again; dsimp only; split <;> rfl
@[simp] theorem Thread.again_frames (now : Nat) : (th.again now).frames = th.frames := by unfold Thread.again; dsimp only; split <;> rfl
@[simp] theorem Thread.again_las (now : Nat) : (th.again now).las = th.las := by unfold Thread.again; dsimp only; split <;> rfl
@[simp] theorem Thread.again_regions (now : Nat) : (th.again now).regions = th.regions := by unfold Thread.again; dsimp only; split <;> rfl
@[simp] theorem Thread.again_parked (now : Nat) : (th.again now).parked = th.parked := by unfold Thread.again; dsimp only; split <;> rfl
@[simp] theorem Thread.again_retry (now : Nat) : (th.again now).retry = th.retry := by unfold Thread.again; dsimp only; split <;> rfl
@[simp] theorem Thread.again_kept (now : Nat) : (th.again now).kept = th.kept := by unfold Thread.again; dsimp only; split <;> rfl
@[simp] theorem Thread.again_resume (now : Nat) : (th.again now).resume = th.resume := by unfold Thread.again; dsimp only; split <;> rfl
@[simp] theorem Thread.again_resumeRep (now : Nat) : (th.again now).resumeRep = th.resumeRep := by unfold Thread.again; dsimp only; split <;> rfl
@[simp] theorem Thread.again_owedRel (now : Nat) : (th.again now).owedRel = th.owedRel := by unfold Thread.again; dsimp only; split <;> rfl
@[simp] theorem Thread.again_owedPop (now : Nat) : (th.again now).owedPop = th.owedPop := by unfold Thread.again; dsimp only; split <;> rfl
@[simp] theorem Thread.again_uqpos (now : Nat) : (th.again now).uqpos = th.uqpos := by unfold Thread.again; dsimp only; split <;> rfl
@[simp] theorem Thread.again_lbars (now : Nat) : (th.again now).lbars = th.lbars := by unfold Thread.again; dsimp only; split <;> rfl
@[simp] theorem Thread.again_hb (now : Nat) : (th.again now).hb = th.hb := by unfold Thread.again; dsimp only; split <;> rfl
@[simp] theorem Thread.jump_pc (pc : W64) : (th.jump pc).pc = pc := rfl
@[simp] theorem Thread.jump_inside (pc : W64) : (th.jump pc).inside = false := rfl
@[simp] theorem Thread.advance_pc (c : Cur) : (th.advance c).pc = c.next := by unfold Thread.advance; dsimp only; split <;> rfl
@[simp] theorem Thread.advance_rep (c : Cur) : (th.advance c).rep = c.nextRep := by unfold Thread.advance; dsimp only; split <;> rfl
@[simp] theorem Thread.raiseFlags_fflags (fl : FFlags) : (th.raiseFlags fl).fflags = th.fflags ||| fl := rfl
@[simp] theorem Thread.setMsk_msk (m : Bool) : (th.setMsk m).msk = m := rfl

end Sys2Proof.Machine
end

