-- ==== Sys2Proof/Tests/Slice0.lean ====
section
/-! SUPPORT. The model's own tests: ill-formed terms that well-formedness refuses, words written out from the manual's
tables, small values from the manual or by hand, and for every statement a state that meets its hypotheses. -/
open Sys2Proof Sys2Proof.Machine

namespace Sys2Proof.Tests

set_option Elab.async false
set_option synthInstance.maxSize 1000
set_option synthInstance.maxHeartbeats 200000

/-! ## Ill-formed terms are refused -/

/-- Fields with main registers, all else zero. -/
def F (d a b c : Nat) : Fields :=
  ⟨0#4, .main (BitVec.ofNat 7 d), .main (BitVec.ofNat 7 a), .main (BitVec.ofNat 7 b), .main (BitVec.ofNat 7 c), 0#3, false,
    0#3, false, 0#4⟩

theorem test_wf_ok : Instr.wf (.iaddI32 (F 1 2 3 0)) = true ∧ Instr.wf (.rep ⟨0#4, 0#4, 1#4, 1#4, 7#6, 0#30⟩) = true ∧
    Instr.wf (.emulationVector 2#2 0xF01#64) = true ∧ Instr.wf (.hartRv64gcInstruction 4#3 (.op .add 1#5 2#5 3#5)) = true := by
  decide
theorem test_wf_rep_reserved : Instr.wf (.rep ⟨0#4, 0#4, 1#4, 1#4, 7#6, 1#30⟩) = false := by decide
theorem test_wf_vector_why : Instr.wf (.emulationVector 3#2 0#64) = false := by decide
theorem test_wf_rv_length : Instr.wf (.hartRv64gcInstruction 3#3 (.op .add 1#5 2#5 3#5)) = false := by decide
theorem test_wf_rv_load : RvInstr.wf (.load 7#3 1#5 2#5 0#64) = false := by decide
theorem test_wf_rv_opImm : RvInstr.wf (.opImm .sub 1#5 2#5 0#64) = false := by decide
theorem test_wf_rv_opImmW : RvInstr.wf (.opImmW .slt 1#5 2#5 0#64) = false := by decide
theorem test_wf_rv_opW : RvInstr.wf (.opW .xor 1#5 2#5 3#5) = false := by decide
theorem test_wf_rv_mulDivW : RvInstr.wf (.mulDivW .mulh 1#5 2#5 3#5) = false := by decide
theorem test_wf_rv_csr : RvInstr.wf (.csr 0#3 1#5 2#5 1#12) = false ∧ RvInstr.wf (.csr 4#3 1#5 2#5 1#12) = false := by decide
theorem test_wf_rv_illegal : RvInstr.wf .illegal = false := by decide
theorem test_wf_mod : Instr.wf (.icmpI32 { F 1 2 3 0 with mod := 6#4 }) = false := by decide
theorem test_wf_ahd : Instr.wf (.iaddI32 { F 1 2 3 0 with ahd := 1#4 }) = false := by decide
theorem test_wf_guard : Instr.wf (.iaddI32 { F 1 2 3 0 with pi := 1#3 }) = false ∧
    Instr.wf (.iaddI32 { F 1 2 3 0 with pn := true }) = false := by decide
theorem test_wf_file : Instr.wf (.iaddI32 { F 1 2 3 0 with a := .opf 16#7 }) = false := by decide
theorem test_wf_latch : Instr.wf (.iaddI32 { F 1 2 3 0 with b := .latch 2#7 }) = false := by decide
theorem test_wf_special : Instr.wf (.iaddI32 { F 1 2 3 0 with b := .special 16#7 }) = false ∧
    Instr.wf (.iaddI32 { F 1 2 3 0 with b := .special 31#7 }) = false := by decide
theorem test_wf_pair : Instr.wf (.iaddI64 (F 1 2 4 0)) = false ∧ Instr.wf (.iaddI64 (F 2 3 4 0)) = false := by decide
theorem test_wf_latch_d : Instr.wf (.iaddI32 { F 1 2 3 0 with d := .latch 0#7 }) = false := by decide
theorem test_wf_special_d : Instr.wf (.iaddI32 { F 1 2 3 0 with d := .special 2#7 }) = false ∧
    Instr.wf (.iaddI32 { F 1 2 3 0 with d := .special 3#7 }) = true := by decide
theorem test_wf_lr : Instr.wf (.iaddI32 { F 1 2 3 0 with a := .opf 1#7, lr := 1#3 }) = false ∧
    Instr.wf (.iaddI32 { F 1 2 3 0 with lr := 4#3 }) = false := by decide
theorem test_wf_unused : Instr.wf (.iaddI32 (F 1 2 3 4)) = false := by decide
theorem test_wf_scope : Instr.wf (.atomI32 0#2 6#3 (F 1 2 4 5)) = false ∧
    Instr.wf (.atomI32 0#2 2#3 { F 1 2 4 5 with mod := 8#4 }) = false := by decide
theorem test_wf_pred : Instr.wf (.pset (F 8 0 0 0)) = false := by decide

/-! ## Words written out field by field (R60), by family -/

theorem test_decode_bra : decodeTableWord 64 0x0000000340000010 = some (.bra { F 0 0 0 0 with a := .special 32#7 }) := by
  decide +kernel
theorem test_decode_conv : decodeTableWord 64 0b0000_0_000_0_000_00_0000000_00_0000000_00_0000011_00_0000000_0000_000000100000 =
    some (.convJ (F 0 3 0 0)) := by decide +kernel
theorem test_decode_idiv : decodeTableWord 64 0b0000_0_000_0_000_00_0000000_00_0000011_00_0000010_00_0000001_0101_000100100000 =
    some (.idivI32 { F 1 2 3 0 with ahd := 5#4 }) := by decide +kernel
theorem test_decode_bfi : decodeTableWord 64 0b0000_0_000_0_100_00_0000100_00_0000011_00_0000010_00_0000001_0000_001000010010 =
    some (.bfi { F 1 2 3 4 with lr := 4#3 }) := by decide +kernel
theorem test_decode_fadd_f64 : decodeTableWord 64 0b0011_0_000_0_000_00_0000000_00_0000100_00_0000010_00_0000110_0000_001100000001 =
    some (.faddF64 { F 6 2 4 0 with mod := 3#4 }) := by decide +kernel
theorem test_decode_fcmp : decodeTableWord 64 0b0100_1_011_0_000_00_0000000_00_0000011_00_0000010_00_0000001_0000_001100001100 =
    some (.fcmpF32 { F 1 2 3 0 with mod := 4#4, pe := true, pi := 3#3 }) := by decide +kernel
theorem test_decode_hfma2_bf16 :
    decodeTableWord 64 0b0001_0_000_0_000_00_0000100_00_0000011_00_0000010_00_0000001_0000_010000000101 =
      some (.hfma2Bf16 { F 1 2 3 4 with mod := 1#4 }) := by decide +kernel
theorem test_decode_pack2 : decodeTableWord 64 0b0000_0_000_0_000_00_0000000_00_0000011_00_0000010_00_0000001_0000_010100000110 =
    some (.pack2 (F 1 2 3 0)) := by decide +kernel
theorem test_decode_frexp_exp : decodeTableWord 64 0b0001_0_000_0_000_00_0000000_00_0000000_00_0000010_00_0000001_0000_010100000101 =
    some (.frexpExpF32 { F 1 2 0 0 with mod := 1#4 }) := by decide +kernel
theorem test_decode_pmov_put : decodeTableWord 64 0b0001_0_000_0_000_00_0000000_00_0000000_00_0000010_00_0000000_0000_011000000101 =
    some (.pmovPut { F 0 2 0 0 with mod := 1#4 }) := by decide +kernel
theorem test_decode_ballot : decodeTableWord 64 0b0001_0_000_0_000_00_0000000_00_0000000_00_0000010_00_0000001_0000_011000011001 =
    some (.ballot { F 1 2 0 0 with mod := 1#4 }) := by decide +kernel
theorem test_decode_stv : decodeTableWord 64 0b0011_0_000_0_000_00_0001000_11_1000000_00_0000010_00_0000000_0000_011100000011 =
    some (.stv { F 0 2 0 8 with b := .special 64#7, mod := 3#4 }) := by decide +kernel
theorem test_decode_xst : decodeTableWord 64 0b0100_0_000_0_000_00_0000100_00_0000011_00_0000010_00_0000000_0000_100000001000 =
    some (.xst { F 0 2 3 4 with mod := 4#4 }) := by decide +kernel
/-- ATOM.I32 is 0x900 with the ordering in `op` [4:3] and the scope in [2:0] (R154): `acqrel`, `die`. -/
theorem test_decode_atom : decodeTableWord 64 0b0101_0_000_0_000_00_0000100_00_0000011_00_0000010_00_0000001_0000_100100011010 =
    some (.atomI32 3#2 2#3 { F 1 2 3 4 with mod := 5#4 }) := by decide +kernel
theorem test_decode_wadd : decodeTableWord 64 0b0001_0_000_0_000_00_0000100_00_0000011_00_0000010_11_0111100_0000_100111101001 =
    some (.waddF64 1#3 { F 0 2 3 4 with d := .special 60#7, mod := 1#4 }) := by decide +kernel
theorem test_decode_fence : decodeTableWord 64 0b0000_0_000_0_000_00_0010000_00_0000011_00_0000000_00_0000000_0000_101000000010 =
    some (.fence 2#3 (F 0 0 3 16)) := by decide +kernel
theorem test_decode_bar : decodeTableWord 64 0b0000_0_000_0_000_00_0000000_11_0000011_00_0000010_00_0000000_0000_101000010000 =
    some (.bar { F 0 2 0 0 with b := .special 3#7 }) := by decide +kernel
theorem test_decode_tlread_err :
    decodeTableWord 64 0b0001_0_000_0_000_00_0000000_00_0000000_11_1000101_00_0000001_0000_101000110001 =
      some (.tlreadErr { F 1 0 0 0 with a := .special 69#7, mod := 1#4 }) := by decide +kernel
theorem test_decode_mwait : decodeTableWord 64 0b0000_0_000_0_000_00_0000000_00_0000010_11_1000101_00_0000000_0000_110000010011 =
    some (.mwait { F 0 0 2 0 with a := .special 69#7 }) := by decide +kernel
theorem test_decode_fcall : decodeTableWord 64 0b0000_0_000_0_000_00_0000000_11_1000011_00_0000010_00_0000001_0000_110100000000 =
    some (.fcall { F 1 2 0 0 with b := .special 67#7 }) := by decide +kernel
theorem test_decode_laadd : decodeTableWord 64 0b0000_0_000_0_000_00_0000000_00_0000010_11_1000001_00_0000000_0000_110100010010 =
    some (.laaddF64 { F 0 0 2 0 with a := .special 65#7 }) := by decide +kernel
/-- The manual's own example: `qclm 28` is 0x0000_0003_B800_0E11. -/
theorem test_decode_qclm : decodeTableWord 64 0x00000003B8000E11 = some (.qclm { F 0 0 0 0 with a := .special 92#7 }) := by
  decide +kernel
theorem test_decode_ewset_next :
    decodeTableWord 64 0b0001_0_000_0_000_00_0000000_00_0000000_00_0000010_00_0000000_0000_111000011001 =
      some (.ewsetNext { F 0 2 0 0 with mod := 1#4 }) := by decide +kernel
theorem test_decode_sysr : decodeTableWord 64 0b0001_0_000_0_000_00_0000000_00_0000000_00_0000101_00_0000010_0000_111000001000 =
    some (.sysr { F 2 5 0 0 with mod := 1#4 }) := by decide +kernel
/-- `kf.cpkick a0, a1, a2`: opcode 0x0B, rd in [11:7], funct3 3 in [14:12], rs1 in [19:15], rs2 in [24:20]. -/
theorem test_decode_kf : decodeTableWord 32 0b0000000_01100_01011_011_01010_0001011 = some (.kfCpkick 10#5 11#5 12#5) := by
  decide +kernel
theorem test_decode_ecall : decodeTableWord 32 0x73 = some .hartEcall := by decide +kernel
/-- `addi x1, x2, -1` and `c.li x8, 1`. -/
theorem test_decode_rv : decodeTableWord 32 0b111111111111_00010_000_00001_0010011 =
      some (.hartRv64gcInstruction 4#3 (.opImm .add 1#5 2#5 0xFFFFFFFFFFFFFFFF#64)) ∧
    decodeTableWord 16 0b010_0_01000_00001_01 = some (.hartRv64gcInstruction 2#3 (.opImm .add 8#5 0#5 1#64)) := by
  decide +kernel
theorem test_words : Obligations.WordsDecode := by unfold Obligations.WordsDecode; decide +kernel

/-! ## A slot about to run -/

/-- The machine about to run the slot with word `w` on thread 0 of group 0, whose registers are `regs`. -/
def rig (w : W64) (regs : AMap W32) : State :=
  let s := (fetchMachine State.reset 64 w.toNat).modThread 0 0 (fun th => { th with regs := regs })
  match (s.core 0).port, s.thread 0 0 with
  | some ig, some th =>
    match slotAt s 0 0 th.pc th.rep with
    | .ok (sl, s1) => { popTodo s1 0 0 with cur := some (slotCur ig 0 th sl) }
    | .error _ => s
  | _, _ => s

/-- The thread after the slot, its outstanding results written. -/
def ran (w : W64) (s : State) : Option Thread :=
  match exec (decodeWord w) s with
  | .next t => (t.thread 0 0).map (fun th => { th with regs := th.flush.regs, preds := th.flush.preds })
  | _ => none

/-- A register after a slot with opcode `op`. -/
def got (op : BitVec 12) (f : Fields) (regs : AMap W32) (r : Nat) : Option W32 :=
  (ran (packWord op f) (rig (packWord op f) regs)).bind (fun th => mget th.regs r)

/-- A predicate after a slot. -/
def gotP (op : BitVec 12) (f : Fields) (regs : AMap W32) (p : Nat) : Option Bool :=
  (ran (packWord op f) (rig (packWord op f) regs)).map (fun th => th.preds.getLsbD p)

/-- The flags after a slot. -/
def gotFl (op : BitVec 12) (f : Fields) (regs : AMap W32) : Option FFlags :=
  (ran (packWord op f) (rig (packWord op f) regs)).map (·.fflags)

/-- The cause code after a slot that trapped with no handler. -/
def stops (w : W64) (s : State) : Option Cause :=
  (ran w s).bind (fun th => match th.wait with | .stop c _ => some c | _ => none)

/-! ## Values, from the manual's rules by hand -/

theorem test_iadd_wraps : got 0x100#12 (F 1 2 3 0) [(2, 0xFFFFFFFF#32), (3, 2#32)] 1 = some 1#32 := by decide +kernel
theorem test_iadd64_carries : got 0x101#12 (F 2 4 6 0) [(4, 0xFFFFFFFF#32), (5, 1#32), (6, 1#32), (7, 2#32)] 3 = some 4#32 := by
  decide +kernel
theorem test_isub_order : got 0x102#12 (F 1 2 3 0) [(2, 5#32), (3, 7#32)] 1 = some 0xFFFFFFFE#32 := by decide +kernel
theorem test_imulh_signed : got 0x105#12 (F 1 2 3 0) [(2, 0xFFFFFFFF#32), (3, 2#32)] 1 = some 0xFFFFFFFF#32 := by decide +kernel
theorem test_imulh_unsigned : got 0x106#12 (F 1 2 3 0) [(2, 0xFFFFFFFF#32), (3, 2#32)] 1 = some 1#32 := by decide +kernel
theorem test_imad_same : got 0x107#12 (F 2 2 2 2) [(2, 3#32)] 2 = some 12#32 := by decide +kernel
theorem test_imin_n32 : got 0x10A#12 (F 1 2 3 0) [(2, 0xFFFFFFFF#32), (3, 2#32)] 1 = some 2#32 := by decide +kernel
theorem test_iabs_min : got 0x10D#12 (F 1 2 0 0) [(2, 0x80000000#32)] 1 = some 0x80000000#32 := by decide +kernel
theorem test_icmp_lt_signed : gotP 0x110#12 { F 3 2 4 0 with mod := 2#4 } [(2, 0xFFFFFFFF#32), (4, 0#32)] 3 = some true := by
  decide +kernel
theorem test_icmp_lt_unsigned : gotP 0x111#12 { F 3 2 4 0 with mod := 2#4 } [(2, 0xFFFFFFFF#32), (4, 0#32)] 3 = some false := by
  decide +kernel
theorem test_lea : got 0x118#12 { F 1 2 3 0 with mod := 15#4 } [(2, 1#32), (3, 2#32)] 1 = some 65537#32 := by decide +kernel
theorem test_idot4 : got 0x130#12 (F 1 2 3 4) [(2, 0x000000FF#32), (3, 0x00000002#32), (4, 10#32)] 1 = some 8#32 := by
  decide +kernel
theorem test_idot8 : got 0x132#12 (F 1 2 3 4) [(2, 0x0000000F#32), (3, 0x00000002#32), (4, 10#32)] 1 = some 8#32 := by
  decide +kernel
theorem test_iclamp_empty : got 0x138#12 (F 1 2 3 4) [(2, 0#32), (3, 9#32), (4, 4#32)] 1 = some 4#32 := by decide +kernel
theorem test_idiv_zero : got 0x120#12 (F 1 2 3 0) [(2, 7#32), (3, 0#32)] 1 = some 0xFFFFFFFF#32 := by decide +kernel
theorem test_idiv_min : got 0x120#12 (F 1 2 3 0) [(2, 0x80000000#32), (3, 0xFFFFFFFF#32)] 1 = some 0x80000000#32 := by
  decide +kernel
theorem test_irem_sign : got 0x122#12 (F 1 2 3 0) [(2, 0xFFFFFFF9#32), (3, 2#32)] 1 = some 0xFFFFFFFF#32 := by decide +kernel
theorem test_irem_zero : got 0x123#12 (F 1 2 3 0) [(2, 7#32), (3, 0#32)] 1 = some 7#32 := by decide +kernel
theorem test_andn : got 0x203#12 (F 1 2 3 0) [(2, 0xF0F0#32), (3, 0xFF00#32)] 1 = some 0xF0#32 := by decide +kernel
theorem test_shl_width : got 0x208#12 (F 1 2 3 0) [(2, 1#32), (3, 32#32)] 1 = some 0#32 := by decide +kernel
theorem test_sar_width : got 0x20A#12 (F 1 2 3 0) [(2, 0x80000000#32), (3, 99#32)] 1 = some 0xFFFFFFFF#32 := by decide +kernel
theorem test_rotl : got 0x20B#12 (F 1 2 3 0) [(2, 0x80000001#32), (3, 33#32)] 1 = some 3#32 := by decide +kernel
theorem test_bfe_signed : got 0x211#12 (F 1 2 3 4) [(2, 0xF0#32), (3, 4#32), (4, 4#32)] 1 = some 0xFFFFFFFF#32 := by
  decide +kernel
theorem test_bfi : got 0x212#12 (F 1 2 3 4) [(2, 0x5#32), (3, 0x0408#32), (4, 0xFFFF#32)] 1 = some 0xF5FF#32 := by decide +kernel
theorem test_clz_zero : got 0x219#12 (F 1 2 0 0) [(2, 0#32)] 1 = some 32#32 := by decide +kernel
theorem test_brev : got 0x21A#12 (F 1 2 0 0) [(2, 1#32)] 1 = some 0x80000000#32 := by decide +kernel
theorem test_bperm : got 0x21B#12 (F 1 2 3 4) [(2, 0x33221100#32), (3, 0x8743#32), (4, 0x77665544#32)] 1 =
    some 0x00774433#32 := by decide +kernel
theorem test_fadd_rounds : got 0x300#12 (F 1 2 3 0) [(2, 0x3F800000#32), (3, 0x33800000#32)] 1 = some 0x3F800000#32 ∧
    gotFl 0x300#12 (F 1 2 3 0) [(2, 0x3F800000#32), (3, 0x33800000#32)] = some flNx := by decide +kernel
theorem test_fsub_order : got 0x302#12 (F 1 2 3 0) [(2, 0x3F800000#32), (3, 0x40000000#32)] 1 = some 0xBF800000#32 := by
  decide +kernel
theorem test_ffma : got 0x306#12 (F 1 2 3 4) [(2, 0x40000000#32), (3, 0x40400000#32), (4, 0x3F800000#32)] 1 =
    some 0x40E00000#32 := by decide +kernel
theorem test_fdiv_zero : got 0x316#12 (F 1 2 3 0) [(2, 0xBF800000#32), (3, 0#32)] 1 = some 0xFF800000#32 ∧
    gotFl 0x316#12 (F 1 2 3 0) [(2, 0xBF800000#32), (3, 0#32)] = some flDz := by decide +kernel
theorem test_fmin_zeros : got 0x308#12 (F 1 2 3 0) [(2, 0#32), (3, 0x80000000#32)] 1 = some 0x80000000#32 := by decide +kernel
theorem test_fmax_nan : got 0x30A#12 (F 1 2 3 0) [(2, 0x7FC00001#32), (3, 0x3F800000#32)] 1 = some 0x3F800000#32 := by
  decide +kernel
theorem test_fneg_halves : got 0x321#12 { F 1 2 0 0 with mod := 2#4 } [(2, 0x3C00BC00#32)] 1 = some 0xBC003C00#32 := by
  decide +kernel
theorem test_fcopysign : got 0x322#12 { F 1 2 3 0 with mod := 0#4 } [(2, 0x3F800000#32), (3, 0x80000000#32)] 1 =
    some 0xBF800000#32 := by decide +kernel
theorem test_hadd2 : got 0x400#12 (F 1 2 3 0) [(2, 0x3C004000#32), (3, 0x3C004000#32)] 1 = some 0x40004400#32 := by
  decide +kernel
/-- The manual's example of stochastic rounding: 1.00390625 with random bits 0x7FFF and 0x8000. -/
theorem test_cvts_rounds : got 0x501#12 { F 1 2 3 0x13 with mod := 4#4 } [(2, 0x3F808000#32), (3, 0x7FFF#32)] 1 =
      some 0x3F80#32 ∧
    got 0x501#12 { F 1 2 3 0x13 with mod := 4#4 } [(2, 0x3F808000#32), (3, 0x8000#32)] 1 = some 0x3F81#32 := by decide +kernel
theorem test_pack2 : got 0x506#12 (F 1 2 3 0) [(2, 0xAAAA1111#32), (3, 0xBBBB2222#32)] 1 = some 0x22221111#32 := by
  decide +kernel
theorem test_unpk2_shi : got 0x507#12 { F 1 2 0 0 with mod := 3#4 } [(2, 0x80001234#32)] 1 = some 0xFFFF8000#32 := by
  decide +kernel
theorem test_packq_nib : got 0x508#12 { F 1 2 3 4 with mod := 1#4 } [(2, 0xA#32), (3, 9#32), (4, 0xFFFFFFFF#32)] 1 =
    some 0xFFFFFFAF#32 := by decide +kernel
theorem test_movs : got 0x602#12 (F 2 4 0 0) [(4, 0x80000000#32)] 3 = some 0xFFFFFFFF#32 := by decide +kernel
theorem test_pmov_put : (ran (packWord 0x605#12 { F 0 2 0 0 with mod := 1#4 })
    (rig (packWord 0x605#12 { F 0 2 0 0 with mod := 1#4 }) [(2, 0x1A5#32)])).map (·.preds) = some 0xA5#8 := by decide +kernel
theorem test_last_read_frees : got 0x100#12 { F 1 2 3 0 with lr := 1#3 } [(2, 1#32), (3, 2#32)] 2 = none := by decide +kernel
theorem test_constant : got 0x100#12 { F 1 2 0 0 with b := .special 32#7 } [(2, 40#32)] 1 = some 8#32 := by decide +kernel
theorem test_released_read_stops : stops (packWord 0x100#12 (F 1 2 3 0)) (rig (packWord 0x100#12 (F 1 2 3 0)) [(2, 1#32)]) =
    some .releasedRead := by decide +kernel
theorem test_bra_back : (ran 0x0000000340000010#64 (rig 0x0000000340000010#64 [])).map (·.pc) = some 0xFF00#64 := by
  decide +kernel
theorem test_call_returns : got 0x013#12 { F 2 0 0 0 with a := .special 65#7 } [] 2 = some 0x10088#32 := by decide +kernel

/-! ## Witnesses: a slot that issues -/

/-- What `Issues` asks, computed. -/
def issue (i : Instr) (f : Fields) (s : State) : Option (Env × Enc × Srcs × Thread) :=
  match envOf s, encOf i with
  | some e, some en =>
    if encOk en f = true ∧ e.cur.alt = none ∧ guardOf f e.th.countWindow = true then
      match readSrcs e en f e.th.countWindow with
      | .ok (x, th) =>
        (match reserveD f.d (dstLen en.d) (th.release (marked en f)) with
         | .ok (_, th') => if th' = th.release (marked en f) then some (e, en, x, th) else none
         | .error _ => none)
      | .error _ => none
    else none
  | _, _ => none

theorem issue_sound {i : Instr} {f : Fields} {s : State} {e : Env} {en : Enc} {x : Srcs} {th : Thread}
    (h : issue i f s = some (e, en, x, th)) : Issues i f s e en x th := by
  unfold issue at h
  split at h
  · rename_i e0 en0 he hen
    split at h
    · rename_i hok
      split at h
      · rename_i x0 th0 hr
        split at h
        · rename_i u th1 hd
          split at h
          · rename_i hth
            simp only [Option.some.injEq, Prod.mk.injEq] at h
            obtain ⟨rfl, rfl, rfl, rfl⟩ := h
            exact ⟨⟨he, hen, hok.1, hok.2.1⟩, hok.2.2, hr, by rw [hd, hth]⟩
          · cases h
        · cases h
      · cases h
    · cases h
  · cases h

/-- A slot that issues, with what its sources give. -/
theorem issues {i : Instr} {f : Fields} {s : State} {P : Env → Enc → Srcs → Thread → Prop}
    [∀ e en x th, Decidable (P e en x th)]
    (h : (match issue i f s with | some (e, en, x, th) => decide (P e en x th) | none => false) = true) :
    ∃ e en x th, Issues i f s e en x th ∧ P e en x th := by
  split at h
  · rename_i e en x th hi
    exact ⟨e, en, x, th, issue_sound hi, of_decide_eq_true h⟩
  · cases h

/-- The slot of a word on registers. -/
abbrev at_ (op : BitVec 12) (f : Fields) (regs : AMap W32) : State := rig (packWord op f) regs

theorem witness_IllegalEncodings : ∃ i f s e en, fieldsOf i = some f ∧ encOf i = some en ∧ encOk en f = false ∧
    i = .iaddI32 f ∧ f.b = .special 31#7 ∧ envOf s = some e := by
  have h : (envOf (at_ 0x100#12 { F 1 2 0 0 with b := .special 31#7 } [])).isSome = true := by decide +kernel
  exact ⟨.iaddI32 { F 1 2 0 0 with b := .special 31#7 }, _, _, (envOf _).get h, _, rfl, rfl, by decide, rfl, rfl,
    (Option.some_get h).symm⟩
theorem witness_IntegerResults : ∃ s e en x th, Issues (.iaddI32 (F 1 2 3 0)) (F 1 2 3 0) s e en x th ∧
    Spec.r118 (.iaddI32 (F 1 2 3 0)) x = some (Spec.i32 (2 ^ 31)) :=
  ⟨at_ 0x100#12 (F 1 2 3 0) [(2, 0x7FFFFFFF#32), (3, 1#32)], issues (by decide +kernel)⟩
theorem witness_IntegerResults_illegal : ∃ f : Fields, 6 ≤ f.mod.toNat ∧ ∃ s e, envOf s = some e := by
  have h : (envOf (at_ 0x110#12 { F 1 2 3 0 with mod := 6#4 } [])).isSome = true := by decide +kernel
  exact ⟨{ F 1 2 3 0 with mod := 6#4 }, by decide, _, (envOf _).get h, (Option.some_get h).symm⟩
theorem witness_DivisionResults : ∃ s e en x th, Issues (.idivI32 (F 1 2 3 0)) (F 1 2 3 0) s e en x th ∧
    Spec.r119 (.idivI32 (F 1 2 3 0)) x = some (Spec.i32 (-1)) :=
  ⟨at_ 0x120#12 (F 1 2 3 0) [(2, 7#32), (3, 0#32)], issues (by decide +kernel)⟩
theorem witness_LogicResults : ∃ s e en x th, Issues (.shl (F 1 2 3 0)) (F 1 2 3 0) s e en x th ∧
    Spec.r120 (.shl (F 1 2 3 0)) x = some (Spec.i32 0) :=
  ⟨at_ 0x208#12 (F 1 2 3 0) [(2, 7#32), (3, 32#32)], issues (by decide +kernel)⟩
theorem witness_FloatResults : ∃ s e en x th, Issues (.faddF32 (F 1 2 3 0)) (F 1 2 3 0) s e en x th ∧
    Spec.rFloat (.faddF32 (F 1 2 3 0)) x = some (.val 0x40000000#64, 0#6) ∧ fpTraps th 0#6 = false :=
  ⟨at_ 0x300#12 (F 1 2 3 0) [(2, 0x3F800000#32), (3, 0x3F800000#32)], issues (by decide +kernel)⟩
theorem witness_MinMaxResults : ∃ s e en x th, Issues (.fminF32 (F 1 2 3 0)) (F 1 2 3 0) s e en x th ∧
    Spec.r122 (.fminF32 (F 1 2 3 0)) x = some (.val 0x80000000#64, 0#6) ∧ fpTraps th 0#6 = false :=
  ⟨at_ 0x308#12 (F 1 2 3 0) [(2, 0#32), (3, 0x80000000#32)], issues (by decide +kernel)⟩
theorem witness_SignResults : ∃ s e en x th, Issues (.fneg { F 2 4 0 0 with mod := 1#4 }) { F 2 4 0 0 with mod := 1#4 } s e en x th ∧
    Spec.r126 (.fneg { F 2 4 0 0 with mod := 1#4 }) x = some (.val 0x8000000000000000#64) :=
  ⟨at_ 0x321#12 { F 2 4 0 0 with mod := 1#4 } [(4, 0#32), (5, 0#32)], issues (by decide +kernel)⟩
theorem witness_PackedResults : ∃ s e en x th r fl, Issues (.hadd2F16 (F 1 2 3 0)) (F 1 2 3 0) s e en x th ∧
    Spec.r127 (.hadd2F16 (F 1 2 3 0)) x = some (r, fl) ∧ fpTraps th fl = false := by
  obtain ⟨e, en, x, th, h, h2⟩ := issues (i := .hadd2F16 (F 1 2 3 0)) (f := F 1 2 3 0)
    (s := at_ 0x400#12 (F 1 2 3 0) [(2, 0x3C003C00#32), (3, 0x3C003C00#32)])
    (P := fun _ _ x th => Spec.r127 (.hadd2F16 (F 1 2 3 0)) x = some (.val 0x40004000#64, 0#6) ∧ fpTraps th 0#6 = false)
    (by decide +kernel)
  exact ⟨_, e, en, x, th, _, _, h, h2⟩
theorem witness_ConvertResults : ∃ s e en x th, Issues (.pack2 (F 1 2 3 0)) (F 1 2 3 0) s e en x th ∧
    Spec.rConvert (.pack2 (F 1 2 3 0)) x = some (Spec.i32 0x22221111, 0#6) ∧ fpTraps th 0#6 = false :=
  ⟨at_ 0x506#12 (F 1 2 3 0) [(2, 0x1111#32), (3, 0x2222#32)], issues (by decide +kernel)⟩
theorem witness_MoveResults : ∃ s e en x th, Issues (.movs (F 2 4 0 0)) (F 2 4 0 0) s e en x th ∧
    Spec.r133 (.movs (F 2 4 0 0)) th x = some (Spec.i64 (-1)) :=
  ⟨at_ 0x602#12 (F 2 4 0 0) [(4, 0xFFFFFFFF#32)], issues (by decide +kernel)⟩
theorem witness_MoveResults_put : ∃ s e en x th, Issues (.pmovPut { F 0 2 0 0 with mod := 1#4 }) { F 0 2 0 0 with mod := 1#4 }
    s e en x th ∧ x.a32 = 0xFF#32 :=
  ⟨at_ 0x605#12 { F 0 2 0 0 with mod := 1#4 } [(2, 0xFF#32)], issues (by decide +kernel)⟩
theorem witness_TransferTargets : ∃ s e en x th, Issues (.call (F 2 4 0 0)) (F 2 4 0 0) s e en x th ∧ e.cur.head.toNat < 2 ^ 56 ∧
    e.cur.head.toNat % 8 = 0 ∧ Spec.transfer (.call (F 2 4 0 0)) e th x = some (0xFFF8#64, some 0x10088#64) :=
  ⟨at_ 0x013#12 (F 2 4 0 0) [(4, 0xFFFFFFFF#32)], issues (by decide +kernel)⟩
theorem witness_TransferTargets_nop : ∃ s e en x th, Issues (.nop (F 0 0 0 0)) (F 0 0 0 0) s e en x th ∧ th.live = true :=
  ⟨at_ 0#12 (F 0 0 0 0) [], issues (by decide +kernel)⟩
theorem witness_BadTargetsTrap : ∃ s e en x th, Issues (.brx (F 0 2 0 0)) (F 0 2 0 0) s e en x th ∧
    ¬ (x.a.toNat < 2 ^ 56 ∧ x.a.toNat % 8 = 0) :=
  ⟨at_ 0x012#12 (F 0 2 0 0) [(2, 4#32), (3, 0#32)], issues (by decide +kernel)⟩
theorem witness_BadTargetsTrap_ret : ∃ s e en x th, Issues (.ret (F 0 2 0 0)) (F 0 2 0 0) s e en x th ∧
    ¬ (x.a.toNat < 2 ^ 60 ∧ x.a.toNat % 8 = 0) :=
  ⟨at_ 0x015#12 (F 0 2 0 0) [(2, 0#32), (3, 0x10000000#32)], issues (by decide +kernel)⟩

/-- A slot, with what its environment is. -/
theorem atSlot {i : Instr} {f : Fields} {s : State} {P : Env → Enc → Prop} [∀ e en, Decidable (P e en)]
    (h : (match envOf s, encOf i with
      | some e, some en => encOk en f && decide (e.cur.alt = none ∧ P e en)
      | _, _ => false) = true) : ∃ e en, AtSlot i f s e en ∧ P e en := by
  split at h
  · rename_i e en he hen
    rw [Bool.and_eq_true] at h
    obtain ⟨h1, h2⟩ := of_decide_eq_true h.2
    exact ⟨e, en, ⟨he, hen, h.1, h1⟩, h2⟩
  · cases h

/-- A slot that arrives at a blocking point. -/
theorem arrives {i : Instr} {f : Fields} {s : State} {P : Env → Enc → Srcs → Nat → Prop}
    [∀ e en x n, Decidable (P e en x n)]
    (h : (match envOf s, encOf i with
      | some e, some en => encOk en f && (match arriveReads e en f (s.setThread e.cur.gid e.cur.t e.th.countWindow) with
          | .ok ((true, x, pops), s') => decide (s' = s.setThread e.cur.gid e.cur.t e.th.countWindow ∧ e.cur.alt = none ∧ P e en x pops)
          | _ => false)
      | _, _ => false) = true) : ∃ e en x pops, Arrives i f s e en x pops ∧ P e en x pops := by
  split at h
  · rename_i e en he hen
    rw [Bool.and_eq_true] at h
    obtain ⟨hok, h⟩ := h
    split at h
    · rename_i x pops s' hr
      obtain ⟨rfl, ha, hp⟩ := of_decide_eq_true h
      exact ⟨e, en, x, pops, ⟨⟨he, hen, hok, ha⟩, hr⟩, hp⟩
    · cases h
  · cases h

/-- A global access that goes through, with its stamp. -/
theorem globalVia {i : Instr} {f : Fields} {s : State} (acc : BitVec 2) (vas : Srcs → List W64) (st : Env → Thread → Stamp)
    {P : Env → Enc → Srcs → Thread → List Nat → State → Prop}
    [∀ e en x th pas s2, Decidable (P e en x th pas s2)]
    (h : (match issue i f s with
      | some (e, en, x, th) =>
        match gXlate e e.via acc (vas x) (s.setThread e.cur.gid e.cur.t (th.release (marked en f))) with
        | .ok (pas, s2) => decide (e.s.level e.g.cid = 0 ∧ s2.stampBad pas = none ∧
            findRace s2.stamps th.hb (st e th) pas = none ∧ (s2.ctx e.g.cid).stampOff = none ∧
            stampsFit s2 e.g.cid ((pas.map (· / 32)).eraseDups.filter (fun x => !sectorStamped s2.stamps x)) = true ∧
            P e en x th pas s2)
        | .error _ => false
      | none => false) = true) :
    ∃ e en x th pas s2, Issues i f s e en x th ∧
      GlobalVia e e.via th (s.setThread e.cur.gid e.cur.t (th.release (marked en f))) acc (vas x) (st e th) pas s2 ∧
      P e en x th pas s2 := by
  split at h
  · rename_i e en x th hi
    split at h
    · rename_i pas s2 hx
      obtain ⟨h1, h0, h2, h3, h5, h4⟩ := of_decide_eq_true h
      exact ⟨e, en, x, th, pas, s2, issue_sound hi, ⟨h1, hx, h0, h2, h3, h5⟩, h4⟩
    · cases h
  · cases h

/-- A global access that goes through. -/
theorem global {i : Instr} {f : Fields} {s : State} (acc : BitVec 2) (vas : Srcs → List W64) (wr : Bool)
    (atomic : Option (BitVec 3)) {P : Env → Enc → Srcs → Thread → List Nat → State → Prop}
    [∀ e en x th pas s2, Decidable (P e en x th pas s2)]
    (h : (match issue i f s with
      | some (e, en, x, th) =>
        match gXlate e e.via acc (vas x) (s.setThread e.cur.gid e.cur.t (th.release (marked en f))) with
        | .ok (pas, s2) => decide (e.s.level e.g.cid = 0 ∧ s2.stampBad pas = none ∧
            findRace s2.stamps th.hb (th.hb.stamp wr atomic false e.place) pas = none ∧ (s2.ctx e.g.cid).stampOff = none ∧
            stampsFit s2 e.g.cid ((pas.map (· / 32)).eraseDups.filter (fun x => !sectorStamped s2.stamps x)) = true ∧
            P e en x th pas s2)
        | .error _ => false
      | none => false) = true) :
    ∃ e en x th pas s2, Issues i f s e en x th ∧
      GlobalOk e th (s.setThread e.cur.gid e.cur.t (th.release (marked en f))) acc (vas x) wr atomic pas s2 ∧
      P e en x th pas s2 :=
  globalVia acc vas (fun e th => th.hb.stamp wr atomic false e.place) h

/-- A global access that translates, at any level. -/
theorem xlates {i : Instr} {f : Fields} {s : State} (acc : BitVec 2) (vas : Srcs → List W64)
    {P : Env → Enc → Srcs → Thread → List Nat → State → Prop} [∀ e en x th pas s2, Decidable (P e en x th pas s2)]
    (h : (match issue i f s with
      | some (e, en, x, th) =>
        match gXlate e e.via acc (vas x) (s.setThread e.cur.gid e.cur.t (th.release (marked en f))) with
        | .ok (pas, s2) => decide (P e en x th pas s2)
        | .error _ => false
      | none => false) = true) :
    ∃ e en x th pas s2, Issues i f s e en x th ∧
      gXlate e e.via acc (vas x) (s.setThread e.cur.gid e.cur.t (th.release (marked en f))) = .ok (pas, s2) ∧
      P e en x th pas s2 := by
  split at h
  · rename_i e en x th hi
    split at h
    · rename_i pas s2 hx
      exact ⟨e, en, x, th, pas, s2, issue_sound hi, hx, of_decide_eq_true h⟩
    · cases h
  · cases h

/-- The rig with another kernel descriptor, determinism level and group. -/
def rigD (w : W64) (regs : AMap W32) (desc : BitVec 512) (level : BitVec 2) (g : Group → Group) : State :=
  let s := rig w regs
  let s := s.setPart 0 { s.part 0 with level := level }
  { s with kernels := mmap (fun _ k => { k with desc := desc }) s.kernels, groups := mmap (fun _ x => g x) s.groups }

/-- A descriptor with a whole scratchpad and exchange bank. -/
def descSp : BitVec 512 := BitVec.ofNat 512 (1536 * 2 ^ 272 + 256 * 2 ^ 288)

abbrev sp_ (op : BitVec 12) (f : Fields) (regs : AMap W32) : State := rigD (packWord op f) regs descSp 0#2 (fun g => g)

/-- Registers with address 0x10010 in v2:v3, 0 in v4, 9 in v5. -/
def addrRegs : AMap W32 := [(2, 0x10010#32), (3, 0#32), (4, 0#32), (5, 9#32)]
/-- Registers with a scratchpad offset in v2, 0 in v4, 9 in v5, 1 in v6. -/
def spRegs (off : W32) : AMap W32 := [(2, off), (4, 0#32), (5, 9#32), (6, 1#32)]

/-! ## Witnesses: control -/

theorem witness_GuardedOff : ∃ f s e en th, AtSlot (.iaddI32 f) f s e en ∧ guardOf f e.th.countWindow = false ∧
    (∀ r, r ∈ marked en f → mget e.th.marks r = none) ∧
    popMany e (popCount en f true) e.th.countWindow = .ok ((), th) := by
  have h := atSlot (i := .iaddI32 { F 1 2 3 0 with pe := true }) (f := { F 1 2 3 0 with pe := true })
    (s := at_ 0x100#12 { F 1 2 3 0 with pe := true } [])
    (P := fun e en => guardOf { F 1 2 3 0 with pe := true } e.th.countWindow = false ∧
      marked en { F 1 2 3 0 with pe := true } = [] ∧ popCount en { F 1 2 3 0 with pe := true } true = 0) (by decide +kernel)
  obtain ⟨e, en, h, h1, h3, h2⟩ := h
  exact ⟨_, _, e, en, e.th.countWindow, h, h1, (by rw [h3]; intro r h; cases h), (by rw [h2]; rfl)⟩
theorem witness_ExitEndsThread : ∃ s e en, AtSlot (.exit (F 0 0 0 0)) (F 0 0 0 0) s e en ∧
    guardOf (F 0 0 0 0) e.th.countWindow = true ∧ stepsLeft s e.cur.gid e.cur.t = false :=
  ⟨at_ 0x04F#12 (F 0 0 0 0) [], atSlot (by decide +kernel)⟩

/-- The rig with an instance of join identifier 3 that has thread 0, entered or not. -/
def convRig (f : Fields) (entered : List Nat) : State :=
  rigD (packWord 0x020#12 f) [] 0#512 0#2 (fun g => { g with
    regions := [(7, ⟨3#8, 0, [0], entered, []⟩)], threads := mmap (fun _ th => { th with regions := [7] }) g.threads })

theorem witness_ConvEnters : ∃ s e en r, AtSlot (.convJ (F 0 3 0 0)) (F 0 3 0 0) s e en ∧ e.th.parked = none ∧
    msorted e.g.threads = true ∧ e.th.regions = [7] ∧ mget e.g.regions 7 = some r ∧ r.jid = jidOf (F 0 3 0 0) ∧ e.cur.t ∉ r.entered := by
  obtain ⟨e, en, h, h1⟩ := atSlot (i := .convJ (F 0 3 0 0)) (f := F 0 3 0 0) (s := convRig (F 0 3 0 0) [])
    (P := fun e _ => e.th.parked = none ∧ msorted e.g.threads = true ∧ e.th.regions = [7] ∧
      mget e.g.regions 7 = some ⟨3#8, 0, [0], [], []⟩ ∧
      (3#8 : BitVec 8) = jidOf (F 0 3 0 0) ∧ e.cur.t ∉ ([] : List Nat)) (by decide +kernel)
  exact ⟨_, e, en, _, h, h1⟩
theorem witness_ConvCreates : ∃ s e en, AtSlot (.convJ (F 0 3 0 0)) (F 0 3 0 0) s e en ∧ e.th.parked = none ∧
    msorted e.g.threads = true ∧
    (∀ n rs, e.th.regions = n :: rs → ∀ r, mget e.g.regions n = some r → r.jid = jidOf (F 0 3 0 0) → e.cur.t ∈ r.entered) ∧
    (∀ n th, n ∈ e.g.classOf e.th → mget e.g.threads n = some th → th.regions.length < 16) := by
  obtain ⟨e, en, h, h1, h0, h2, h3⟩ := atSlot (i := .convJ (F 0 3 0 0)) (f := F 0 3 0 0) (s := at_ 0x020#12 (F 0 3 0 0) [])
    (P := fun e _ => e.th.parked = none ∧ msorted e.g.threads = true ∧ e.th.regions = [] ∧
      e.g.threads.all (fun x => decide (x.2.regions.length < 16)) = true)
    (by decide +kernel)
  refine ⟨_, e, en, h, h1, h0, (by rw [h2]; intro n rs h; cases h), fun n th _ hn => ?_⟩
  exact of_decide_eq_true (List.all_eq_true.mp h3 _ (mem_of_mget hn))
theorem witness_JoinPasses : ∃ s e en, AtSlot (.joinJ (F 0 3 0 0)) (F 0 3 0 0) s e en ∧
    e.g.innermost e.th (jidOf (F 0 3 0 0)) = none :=
  ⟨at_ 0x021#12 (F 0 3 0 0) [], atSlot (by decide +kernel)⟩
theorem witness_JoinArrives : ∃ s e en r, AtSlot (.joinJ (F 0 3 0 0)) (F 0 3 0 0) s e en ∧
    e.g.innermost e.th (jidOf (F 0 3 0 0)) = some 7 ∧ mget e.g.regions 7 = some r ∧ e.cur.t ∈ r.members ∧ e.th.regions = [7] ∧
    msorted e.g.regions = true ∧ (settleJoin s e.cur.gid e.g).isNone = true ∧ (∀ m, m ∈ r.members → m ∈ r.arrived ∨ m = e.cur.t) := by
  obtain ⟨e, en, h, h1⟩ := atSlot (i := .joinJ (F 0 3 0 0)) (f := F 0 3 0 0)
    (s := rigD (packWord 0x021#12 (F 0 3 0 0)) [] 0#512 0#2 (fun g => { g with
      regions := [(7, ⟨3#8, 0, [0], [0], []⟩)], threads := mmap (fun _ th => { th with regions := [7] }) g.threads }))
    (P := fun e _ => e.g.innermost e.th (jidOf (F 0 3 0 0)) = some 7 ∧ mget e.g.regions 7 = some ⟨3#8, 0, [0], [0], []⟩ ∧
      e.cur.t ∈ [0] ∧ e.th.regions = [7] ∧ msorted e.g.regions = true ∧ (settleJoin (rigD (packWord 0x021#12 (F 0 3 0 0)) [] 0#512 0#2 (fun g => { g with
      regions := [(7, ⟨3#8, 0, [0], [0], []⟩)], threads := mmap (fun _ th => { th with regions := [7] }) g.threads })) e.cur.gid e.g).isNone = true ∧
      e.cur.t = 0) (by decide +kernel)
  obtain ⟨h1, h2, h3, h4, h5, h6, h7⟩ := h1
  exact ⟨_, e, en, _, h, h1, h2, h3, h4, h5, h6, fun m hm => .inr ((List.mem_singleton.mp hm).trans h7.symm)⟩

/-- A clause of REP and an addition, with the thread at the REP. -/
def repRig : State :=
  let s := rig (packRep ⟨0#4, 0#4, 1#4, 1#4, 63#6, 0#30⟩) []
  { s with mem := s.mem.setN 0x10010 (leBytes 8 (packWord 0x100#12 (F 1 2 100 0)).toNat) }

theorem witness_RepStartsRepetition : ∃ s s1 e w, envOf s = some e ∧
    fetchWord s e.g.coreN e.g.cid (e.cur.head + BitVec.ofNat 64 (16 + 8 * pcSlot e.cur.pc)) = .ok (w, s1) ∧
    s1.thread e.cur.gid e.cur.t = some e.th ∧ repTargetOk e.g ⟨0#4, 0#4, 1#4, 1#4, 63#6, 0#30⟩ w
      (decodeVia (s1.bankOn (e.g.coreN / 64) e.g.cid) w) = true := by
  have h : (match envOf repRig with
    | some e => (match fetchWord repRig e.g.coreN e.g.cid (e.cur.head + BitVec.ofNat 64 (16 + 8 * pcSlot e.cur.pc)) with
      | .ok (w, s1) => decide (s1.thread e.cur.gid e.cur.t = some e.th ∧ repTargetOk e.g ⟨0#4, 0#4, 1#4, 1#4, 63#6, 0#30⟩ w
          (decodeVia (s1.bankOn (e.g.coreN / 64) e.g.cid) w) = true)
      | .error _ => false)
    | none => false) = true := by decide +kernel
  split at h
  · rename_i e he
    split at h
    · rename_i w s1 hw
      exact ⟨_, s1, e, w, he, hw, of_decide_eq_true h⟩
    · cases h
  · cases h

/-! ## Witnesses: cross-lane -/

/-- A cross-lane slot whose one thread completes the instance. -/
def lanesMeet (i : Instr) (f : Fields) (s : State) (e : Env) (en : Enc) (x : Srcs) (pops : Nat) : Bool :=
  let th := e.th.countWindow.waiting e.cur (.coll i x.a x.b x.c true) (marked en f) pops
  let t := s.setThread e.cur.gid e.cur.t th
  match t.group e.cur.gid with
  | none => false
  | some g =>
    let cls := collMates t g th
    let ps := Spec.peers g (t.setSize g th.pc) cls
    cls.all (fun n => match mget g.threads n with
      | some v => v.pc == th.pc && v.repNo == th.repNo && (match v.wait with | .coll j _ _ _ _ => decide (j = i) | _ => false)
      | none => true) &&
    ps.all (fun p => match mget g.threads p.t with
      | some v => (match putRes en f (laneRes i p ps).1 (v.wake (readyNow t g)) with
        | .ok (_, w) => !fpTraps (w.outside.raiseFlags (laneRes i p ps).2) (laneRes i p ps).2
        | .error _ => false)
      | none => true) && ps != []

/-- What CrossLaneCompletes asks of the class, for BCAST and for SGRED. -/
theorem witness_CrossLaneCompletes : ∃ s e en x pops,
    Arrives (.bcast (F 1 2 0 0)) (F 1 2 0 0) s e en x pops ∧ e.th.live = true ∧ msorted e.g.threads = true ∧
      (settleColl s e.cur.gid e.g).isNone = true ∧ lanesMeet (.bcast (F 1 2 0 0)) (F 1 2 0 0) s e en x pops = true :=
  ⟨at_ 0x614#12 (F 1 2 0 0) [(2, 5#32)], arrives (by decide +kernel)⟩
theorem witness_CrossLaneCompletes_sgred : ∃ s e en x pops,
    Arrives (.sgred (F 1 2 0 0)) (F 1 2 0 0) s e en x pops ∧ e.th.live = true ∧ msorted e.g.threads = true ∧
      (settleColl s e.cur.gid e.g).isNone = true ∧ lanesMeet (.sgred (F 1 2 0 0)) (F 1 2 0 0) s e en x pops = true :=
  ⟨at_ 0x618#12 (F 1 2 0 0) [(2, 5#32)], arrives (by decide +kernel)⟩
theorem witness_CrossLaneValues : ∃ (ps : List Arr) (me : Arr), me ∈ ps ∧
    (∀ p q, p ∈ ps → q ∈ ps → p.pos = q.pos → p = q) ∧ (∀ p, p ∈ ps → p.pos < 64) ∧ ps.length = 2 ∧ (∃ p, p ∈ ps ∧ (p.pos : Int) = (lo32 me.b).toInt) :=
  ⟨[⟨0, 0, 1#64, 63#64, 9#64⟩, ⟨1, 63, 2#64, 0#64, 9#64⟩], ⟨0, 0, 1#64, 63#64, 9#64⟩, by decide, by
    intro p q hp hq h
    simp only [List.mem_cons, List.not_mem_nil, or_false] at hp hq
    rcases hp with rfl | rfl <;> rcases hq with rfl | rfl <;> simp_all, by decide, rfl, by decide⟩
/-- The manual's example: four members, three of them true. -/
theorem test_vote : (laneRes (.vote { F 0 0 0 0 with mod := 3#4 }) ⟨0, 0, 1#64, 0#64, 0#64⟩
      [⟨0, 0, 1#64, 0#64, 0#64⟩, ⟨1, 1, 0#64, 0#64, 0#64⟩, ⟨2, 2, 1#64, 0#64, 0#64⟩, ⟨3, 3, 1#64, 0#64, 0#64⟩]).1 = .pred true ∧
    (laneRes (.vote { F 0 0 0 0 with mod := 2#4 }) ⟨0, 0, 1#64, 0#64, 0#64⟩
      [⟨0, 0, 1#64, 0#64, 0#64⟩, ⟨1, 1, 0#64, 0#64, 0#64⟩, ⟨2, 2, 1#64, 0#64, 0#64⟩, ⟨3, 3, 1#64, 0#64, 0#64⟩]).1 =
      .pred false := by decide

/-! ## Witnesses: memory -/



/-- A load of a pair at 0x10000, where the clause header stands. -/
def fLd : Fields := { F 2 2 4 0 with mod := 5#4 }
theorem witness_GlobalLoads : ∃ s e en x th pas s2, Issues (.ld fLd) fLd s e en x th ∧
    GlobalOk e th (s.setThread e.cur.gid e.cur.t (th.release (marked en fLd))) 0#2 (vaRange (Spec.gaddr x) 8) false none pas s2 ∧
    (Spec.gaddr x).toNat < 2 ^ 56 ∧ Spec.load (.ld fLd) (pas.map s2.mem.get) = some (8, 8, [0x5F#32, 0#32]) ∧
    (Spec.gaddr x).toNat % 8 = 0 ∧ SoundBytes e s2 pas :=
  ⟨at_ 0x700#12 fLd [(2, 0x10000#32), (3, 0#32), (4, 0#32)],
    global 0#2 (fun x => vaRange (Spec.gaddr x) 8) false none (by decide +kernel)⟩
/-- The same load at the repeatable level. -/
theorem witness_GlobalLoads_queued : ∃ s e en x th pas s2, Issues (.ld fLd) fLd s e en x th ∧
    gXlate e e.via 0#2 (vaRange (Spec.gaddr x) 8) (s.setThread e.cur.gid e.cur.t (th.release (marked en fLd))) = .ok (pas, s2) ∧
    (Spec.gaddr x).toNat < 2 ^ 56 ∧ e.s.level e.g.cid ≠ 0 ∧
    Spec.load (.ld fLd) ((s2.homes e.g.kid (vaRange (Spec.gaddr x) 8) pas).1.map
      (Spec.viewed e (s2.homes e.g.kid (vaRange (Spec.gaddr x) 8) pas).2).get) = some (8, 8, [0x5F#32, 0#32]) ∧
    (Spec.gaddr x).toNat % 8 = 0 ∧ SoundBytes e s2 pas :=
  ⟨rigD (packWord 0x700#12 fLd) [(2, 0x10000#32), (3, 0#32), (4, 0#32)] 0#512 1#2 (fun g => g),
    xlates 0#2 (fun x => vaRange (Spec.gaddr x) 8) (by decide +kernel)⟩
theorem test_ld_signed : got 0x700#12 { F 1 2 4 0 with mod := 1#4 } [(2, 0x10006#32), (3, 0#32), (4, 0xFFFFFFFA#32)] 1 =
    some 0x5F#32 := by decide +kernel

/-- A store of a word at 0x10010. -/
def fSt : Fields := { F 0 2 4 5 with mod := 4#4 }
theorem witness_GlobalStores : ∃ s e en x th pas s2, Issues (.st fSt) fSt s e en x th ∧
    GlobalOk e th (s.setThread e.cur.gid e.cur.t (th.release (marked en fSt))) 1#2 (vaRange (Spec.gaddr x) 4) true none pas s2 ∧
    (Spec.gaddr x).toNat < 2 ^ 56 ∧ Spec.store (.st fSt) x = some (4, 4, [9#8, 0#8, 0#8, 0#8]) ∧
    (Spec.gaddr x).toNat % 4 = 0 ∧ s2.writeBad (s2.ctx e.g.cid).keyId pas = none :=
  ⟨at_ 0x701#12 fSt addrRegs, global 1#2 (fun x => vaRange (Spec.gaddr x) 4) true none (by decide +kernel)⟩
/-- What StoresWaitForMerge asks of a store. -/
def storeQueues (i : Instr) (f : Fields) (s : State) (unit : Nat) (bs : List Byte) (e : Env) (en : Enc) (x : Srcs) (th : Thread) : Bool :=
  match gXlate e e.via 1#2 (vaRange (Spec.gaddr x) bs.length) (s.setThread e.cur.gid e.cur.t (th.release (marked en f))) with
  | .ok (pas, s2) =>
    let h := s2.homes e.g.kid (vaRange (Spec.gaddr x) bs.length) pas
    (Spec.queued e (Spec.units unit (vaRange (Spec.gaddr x) bs.length) h.1 bs) h.2).isSome && decide (Spec.store i x = some (4, unit, bs))
  | .error _ => false

theorem witness_StoresWaitForMerge : ∃ s e en x th bs, Issues (.st fSt) fSt s e en x th ∧ (Spec.gaddr x).toNat < 2 ^ 56 ∧
    e.s.level e.g.cid ≠ 0 ∧ (Spec.gaddr x).toNat % 4 = 0 ∧ bs.length = 4 ∧ storeQueues (.st fSt) fSt s 4 bs e en x th = true := by
  obtain ⟨e, en, x, th, h, h1⟩ := issues (i := .st fSt) (f := fSt) (s := rigD (packWord 0x701#12 fSt) addrRegs 0#512 1#2 (fun g => g))
    (P := fun e en x th => (Spec.gaddr x).toNat < 2 ^ 56 ∧ e.s.level e.g.cid ≠ 0 ∧ (Spec.gaddr x).toNat % 4 = 0 ∧
      ([9#8, 0#8, 0#8, 0#8] : List Byte).length = 4 ∧
      storeQueues (.st fSt) fSt (rigD (packWord 0x701#12 fSt) addrRegs 0#512 1#2 (fun g => g)) 4 [9#8, 0#8, 0#8, 0#8] e en x th = true)
    (by decide +kernel)
  exact ⟨_, e, en, x, th, _, h, h1⟩
/-- A reduction that waits for the merge. -/
theorem witness_StoresWaitForMerge_red : ∃ s e en x th n item, Issues (.redI32 0#2 1#3 (F 0 2 4 5)) (F 0 2 4 5) s e en x th ∧
    (Spec.gaddr x).toNat < 2 ^ 56 ∧ e.s.level e.g.cid ≠ 0 ∧ Spec.redSp (.redI32 0#2 1#3 (F 0 2 4 5)) = false ∧
    Spec.redItem (.redI32 0#2 1#3 (F 0 2 4 5)) x 0x10010 = some (n, item) ∧ (Spec.gaddr x).toNat % n = 0 := by
  obtain ⟨e, en, x, th, h, h1⟩ := issues (i := .redI32 0#2 1#3 (F 0 2 4 5)) (f := F 0 2 4 5)
    (s := rigD (packWord 0x911#12 (F 0 2 4 5)) addrRegs 0#512 1#2 (fun g => g))
    (P := fun e _ x _ => (Spec.gaddr x).toNat < 2 ^ 56 ∧ e.s.level e.g.cid ≠ 0 ∧ Spec.redSp (.redI32 0#2 1#3 (F 0 2 4 5)) = false ∧
      Spec.redItem (.redI32 0#2 1#3 (F 0 2 4 5)) x 0x10010 = some (4, .redI 0 0x10010 9#32) ∧ (Spec.gaddr x).toNat % 4 = 0)
    (by decide +kernel)
  exact ⟨_, e, en, x, th, _, _, h, h1⟩
theorem witness_MisalignedTraps : ∃ s e en x th, Issues (.st fSt) fSt s e en x th ∧ (Spec.gaddr x).toNat < 2 ^ 56 ∧
    Spec.store (.st fSt) x = some (4, 4, [9#8, 0#8, 0#8, 0#8]) ∧ (Spec.gaddr x).toNat % 4 ≠ 0 :=
  ⟨at_ 0x701#12 fSt [(2, 0x10011#32), (3, 0#32), (4, 0#32), (5, 9#32)], issues (by decide +kernel)⟩
/-- A load from a granule whose page tables are zeros, in a partition whose range maps everything. -/
def pageRig : State :=
  let s := at_ 0x700#12 fLd [(2, 0x20000#32), (3, 0#32), (4, 0#32)]
  let s := s.setCtx 0 { s.ctx 0 with ptroot := BitVec.ofNat _ 0x100000 }
  s.setPart 0 { s.part 0 with ranges := [(0, ⟨0#40, 0xFFFFFFFFFF#40, 0#40, true, true, true, true⟩)] }
theorem witness_AbsentPageWaits : ∃ s e en x th info va, Issues (.ld fLd) fLd s e en x th ∧ (Spec.gaddr x).toNat < 2 ^ 56 ∧
    (Spec.gaddr x).toNat % Spec.sizeOf fLd = 0 ∧
    xlateBytes (s.setThread e.cur.gid e.cur.t (th.release (marked en fLd))) (.core e.g.coreN) e.g.cid 0#2
      (vaRange (Spec.gaddr x) (Spec.sizeOf fLd)) = .error (.absent info, va) := by
  have h : (match issue (.ld fLd) fLd (pageRig) with
    | some (e, en, x, th) =>
      decide ((Spec.gaddr x).toNat < 2 ^ 56 ∧ (Spec.gaddr x).toNat % Spec.sizeOf fLd = 0) &&
      (match xlateBytes ((pageRig).setThread e.cur.gid e.cur.t
          (th.release (marked en fLd))) (.core e.g.coreN) e.g.cid 0#2 (vaRange (Spec.gaddr x) (Spec.sizeOf fLd)) with
        | .error (.absent _, _) => true
        | _ => false)
    | none => false) = true := by decide +kernel
  split at h
  · rename_i e en x th hi
    rw [Bool.and_eq_true] at h
    obtain ⟨h1, h⟩ := h
    split at h
    · rename_i info va hx
      exact ⟨_, e, en, x, th, info, va, issue_sound hi, (of_decide_eq_true h1).1, (of_decide_eq_true h1).2, hx⟩
    · cases h
  · cases h

/-- A tensor record of four FP32 elements at 0x10000 (R94): format 1, rank 1, dimension 4. -/
def trRec : BitVec 512 := BitVec.ofNat 512 (0x10000 + 2 ^ 128 + 2 ^ 132 + 4 * 2 ^ 160)
/-- LDT of slot 2 at the indices in v4:v5 and v6:v7. -/
def fLdt : Fields := { F 1 0 4 6 with a := .special 66#7 }
def ldtRig : State :=
  let s := rigD (packWord 0x705#12 fLdt) [(4, 3#32), (5, 0#32), (6, 0#32), (7, 0#32)] 0#512 0#2 (fun g => { g with slots := [(2, trRec)] })
  s.setDie 0 { s.die 0 with tensorTlb := [codeTlb] }
/-- What TensorLoad asks of a load from a record `r`. -/
def tensorOk (f : Fields) (r : BitVec 512) (s : State) (e : Env) (en : Enc) (x : Srcs) (th : Thread) : Bool :=
  let rel := th.release (marked en f)
  let i := (lo32 x.b).toNat; let j := (hi32 x.b).toNat; let k := (lo32 x.c).toNat; let l := (hi32 x.c).toNat
  let a := (trAddr r (trOffset r i j k l)).1
  let n := max 1 (fmtBits (trFmt r) / 8)
  decide (e.g.slot (unitIx f.a) = r) && r != 0#512 && !Spec.oddPair e f && trInside r i j k l &&
    (match reserveD f.d (if trFmt r = 0 then 2 else 1) rel with | .ok (_, th') => decide (th' = rel) | .error _ => false) &&
    (if trSp r then decide (SpadOk e th a n false none)
     else match gXlate e (.tensor (e.g.coreN / 64)) 0#2 (vaRange (BitVec.ofNat 64 a) n) (s.setThread e.cur.gid e.cur.t rel) with
      | .ok (pas, s2) => decide (e.s.level e.g.cid = 0 ∧ s2.stampBad pas = none ∧
          findRace s2.stamps th.hb (th.hb.stamp false none false e.place) pas = none ∧ (s2.ctx e.g.cid).stampOff = none ∧
          stampsFit s2 e.g.cid ((pas.map (· / 32)).eraseDups.filter (fun x => !sectorStamped s2.stamps x)) = true ∧ SoundBytes e s2 pas)
      | .error _ => false)

theorem witness_TensorLoad : ∃ s e en x th r, Issues (.ldt fLdt) fLdt s e en x th ∧ trSp r = false ∧
    tensorOk fLdt r s e en x th = true := by
  obtain ⟨e, en, x, th, h, h1⟩ := issues (i := .ldt fLdt) (f := fLdt) (s := ldtRig)
    (P := fun e en x th => trSp trRec = false ∧ tensorOk fLdt trRec ldtRig e en x th = true) (by decide +kernel)
  exact ⟨_, e, en, x, th, _, h, h1⟩
/-- FP64 elements at 0x5FF00 of the scratchpad: format 0, bit 135 set. -/
def trRec64 : BitVec 512 := BitVec.ofNat 512 (0x5FF00 + 2 ^ 132 + 2 ^ 135 + 4 * 2 ^ 160)
def fLdt64 : Fields := { F 2 0 4 6 with a := .special 66#7 }
def ldtRig64 : State :=
  rigD (packWord 0x705#12 fLdt64) [(4, 3#32), (5, 0#32), (6, 0#32), (7, 0#32)] descSp 0#2 (fun g => { g with slots := [(2, trRec64)] })
theorem witness_TensorLoad_sp64 : ∃ s e en x th r, Issues (.ldt fLdt64) fLdt64 s e en x th ∧ trSp r = true ∧ trFmt r = 0 ∧
    tensorOk fLdt64 r s e en x th = true := by
  obtain ⟨e, en, x, th, h, h1⟩ := issues (i := .ldt fLdt64) (f := fLdt64) (s := ldtRig64)
    (P := fun e en x th => trSp trRec64 = true ∧ trFmt trRec64 = 0 ∧ tensorOk fLdt64 trRec64 ldtRig64 e en x th = true) (by decide +kernel)
  exact ⟨_, e, en, x, th, _, h, h1⟩
theorem witness_TensorLoad_odd : ∃ s e en, AtSlot (.ldt { fLdt64 with d := .main 1#7 }) { fLdt64 with d := .main 1#7 } s e en ∧
    Spec.oddPair e { fLdt64 with d := .main 1#7 } = true :=
  ⟨rigD (packWord 0x705#12 { fLdt64 with d := .main 1#7 }) [] descSp 0#2 (fun g => { g with slots := [(2, trRec64)] }),
    atSlot (by decide +kernel)⟩

theorem witness_ScratchLoads : ∃ s e en x th, Issues (.ldsp { F 1 2 4 0 with mod := 4#4 }) { F 1 2 4 0 with mod := 4#4 } s e en x th ∧
    Spec.spLoad (.ldsp { F 1 2 4 0 with mod := 4#4 }) (e.g.spGet (Spec.saddr x) 4) = some (4, 4, [0#32]) ∧ Spec.saddr x % 4 = 0 ∧
    SpadOk e th (Spec.saddr x) 4 false none :=
  ⟨sp_ 0x800#12 { F 1 2 4 0 with mod := 4#4 } (spRegs 0x5FFFC#32), issues (by decide +kernel)⟩
theorem witness_ScratchStores : ∃ s e en x th, Issues (.stsp fSt) fSt s e en x th ∧
    Spec.spStore (.stsp fSt) x = some (4, [9#8, 0#8, 0#8, 0#8]) ∧ Spec.saddr x % 4 = 0 ∧
    SpadOk e th (Spec.saddr x) 4 true none :=
  ⟨sp_ 0x801#12 fSt (spRegs 0x5FFFC#32), issues (by decide +kernel)⟩
theorem witness_ScratchOutsideTraps : ∃ s e en x th, Issues (.stsp fSt) fSt s e en x th ∧
    Spec.spStore (.stsp fSt) x = some (4, [9#8, 0#8, 0#8, 0#8]) ∧ Spec.saddr x % 4 = 0 ∧ spOk e.k (Spec.saddr x) 4 = false :=
  ⟨sp_ 0x801#12 fSt (spRegs 0x70000#32), issues (by decide +kernel)⟩
theorem witness_ExchangeAccesses_store : ∃ s e en x th gid g, Issues (.xst fSt) fSt s e en x th ∧
    Spec.xStore (.xst fSt) x = some (4, [9#8, 0#8, 0#8, 0#8]) ∧ x.b32.toNat < e.k.clSize ∧
    x.a32.toNat + 4 ≤ 256 * kdXbank e.k.desc ∧ x.a32.toNat % 4 = 0 ∧
    e.atRank (s.setThread e.cur.gid e.cur.t (th.release (marked en fSt))) x.b32.toNat = some (gid, g) ∧
    (s.setThread e.cur.gid e.cur.t (th.release (marked en fSt))).group gid = some g ∧ g.isRetired = false ∧
    findRace g.stamps th.hb (th.hb.stamp true none false e.place) (upFrom (shadowKey x.a32.toNat) 4) = none := by
  have h : ∃ e en x th, Issues (.xst fSt) fSt (sp_ 0x808#12 fSt (spRegs 0xFFFC#32)) e en x th ∧ Spec.xStore (.xst fSt) x = some (4, [9#8, 0#8, 0#8, 0#8]) ∧ x.b32.toNat < e.k.clSize ∧
      x.a32.toNat + 4 ≤ 256 * kdXbank e.k.desc ∧ x.a32.toNat % 4 = 0 ∧
      (match e.atRank ((sp_ 0x808#12 fSt (spRegs 0xFFFC#32)).setThread e.cur.gid e.cur.t (th.release (marked en fSt))) x.b32.toNat with
       | some (gid, g) => decide (((sp_ 0x808#12 fSt (spRegs 0xFFFC#32)).setThread e.cur.gid e.cur.t (th.release (marked en fSt))).group gid = some g ∧
           g.isRetired = false ∧ findRace g.stamps th.hb (th.hb.stamp true none false e.place) (upFrom (shadowKey x.a32.toNat) 4) = none)
       | none => false) = true := issues (by decide +kernel)
  obtain ⟨e, en, x, th, h, h1, h2, h3, h4, h5⟩ := h
  split at h5
  · rename_i gid g hg
    exact ⟨_, e, en, x, th, gid, g, h, h1, h2, h3, h4, hg, of_decide_eq_true h5⟩
  · cases h5
theorem witness_ExchangeAccesses_load : ∃ s e en x th gid g, Issues (.rld { F 1 2 4 0 with mod := 4#4 }) { F 1 2 4 0 with mod := 4#4 } s e en x th ∧
    x.b32.toNat < e.k.clSize ∧ x.a32.toNat + 4 ≤ 256 * kdXbank e.k.desc ∧ x.a32.toNat % 4 = 0 ∧
    e.atRank (s.setThread e.cur.gid e.cur.t (th.release (marked en { F 1 2 4 0 with mod := 4#4 }))) x.b32.toNat = some (gid, g) ∧
    (s.setThread e.cur.gid e.cur.t (th.release (marked en { F 1 2 4 0 with mod := 4#4 }))).group gid = some g ∧
    g.isRetired = false ∧ findRace g.stamps th.hb (th.hb.stamp false none false e.place) (upFrom (0x60000 + x.a32.toNat) 4) = none := by
  have h : ∃ e en x th, Issues (.rld { F 1 2 4 0 with mod := 4#4 }) { F 1 2 4 0 with mod := 4#4 } (sp_ 0x80A#12 { F 1 2 4 0 with mod := 4#4 } (spRegs 0#32)) e en x th ∧ x.b32.toNat < e.k.clSize ∧
      x.a32.toNat + 4 ≤ 256 * kdXbank e.k.desc ∧ x.a32.toNat % 4 = 0 ∧
      (match e.atRank ((sp_ 0x80A#12 { F 1 2 4 0 with mod := 4#4 } (spRegs 0#32)).setThread e.cur.gid e.cur.t (th.release (marked en { F 1 2 4 0 with mod := 4#4 }))) x.b32.toNat with
       | some (gid, g) => decide (((sp_ 0x80A#12 { F 1 2 4 0 with mod := 4#4 } (spRegs 0#32)).setThread e.cur.gid e.cur.t (th.release (marked en { F 1 2 4 0 with mod := 4#4 }))).group gid = some g ∧
           g.isRetired = false ∧ findRace g.stamps th.hb (th.hb.stamp false none false e.place) (upFrom (0x60000 + x.a32.toNat) 4) = none)
       | none => false) = true := issues (by decide +kernel)
  obtain ⟨e, en, x, th, h, h2, h3, h4, h5⟩ := h
  split at h5
  · rename_i gid g hg
    exact ⟨_, e, en, x, th, gid, g, h, h2, h3, h4, hg, of_decide_eq_true h5⟩
  · cases h5

/-! ## Witnesses: atomics and cells -/

/-- ATOM.I32 add, relaxed, group scope, at 0x10010; in the scratchpad with bit 3 of `mod`. -/
def fAt : Fields := F 1 2 4 5
def fAtS : Fields := { F 1 2 4 5 with mod := 8#4 }
theorem witness_GlobalAtomics : ∃ s e en x th pas s2 a, Issues (.atomI32 0#2 1#3 fAt) fAt s e en x th ∧
    Spec.atomic (.atomI32 0#2 1#3 fAt) x = some a ∧ fAt.mod.getLsbD 3 = false ∧ (Spec.gaddr x).toNat < 2 ^ 56 ∧
    (Spec.gaddr x).toNat % a.n = 0 ∧
    GlobalOk e th (s.setThread e.cur.gid e.cur.t (th.release (marked en fAt))) 3#2 (vaRange (Spec.gaddr x) a.n)
      (a.new (Spec.numOf (pas.map s2.mem.get))).isSome (some a.sc) pas s2 ∧
    SoundBytes e s2 pas ∧ fpTraps th (a.flags (Spec.numOf (pas.map s2.mem.get))) = false := by
  have h : ∃ e en x th pas s2, Issues (.atomI32 0#2 1#3 fAt) fAt (at_ 0x901#12 fAt addrRegs) e en x th ∧
      GlobalOk e th ((at_ 0x901#12 fAt addrRegs).setThread e.cur.gid e.cur.t (th.release (marked en fAt))) 3#2
        (vaRange (Spec.gaddr x) 4) true (some 1#3) pas s2 ∧
      (Spec.gaddr x).toNat < 2 ^ 56 ∧ (Spec.gaddr x).toNat % 4 = 0 ∧ SoundBytes e s2 pas ∧ fpTraps th 0#6 = false :=
    global 3#2 (fun x => vaRange (Spec.gaddr x) 4) true (some 1#3) (by decide +kernel)
  obtain ⟨e, en, x, th, pas, s2, h, hg, h1, h2, h3, h4⟩ := h
  exact ⟨_, e, en, x, th, pas, s2, _, h, rfl, by decide, h1, h2, hg, h3, h4⟩
theorem witness_ScratchAtomics : ∃ s e en x th a, Issues (.atomI32 0#2 1#3 fAtS) fAtS s e en x th ∧
    Spec.atomic (.atomI32 0#2 1#3 fAtS) x = some a ∧ fAtS.mod.getLsbD 3 = true ∧ Spec.saddr x % a.n = 0
    ∧
    SpadOk e th (Spec.saddr x) a.n (a.new (Spec.numOf (e.g.spGet (Spec.saddr x) a.n))).isSome (some a.sc) ∧
    fpTraps th (a.flags (Spec.numOf (e.g.spGet (Spec.saddr x) a.n))) = false := by
  have h : ∃ e en x th, Issues (.atomI32 0#2 1#3 fAtS) fAtS (sp_ 0x901#12 fAtS (spRegs 0x5FFFC#32)) e en x th ∧
      Spec.saddr x % 4 = 0 ∧ SpadOk e th (Spec.saddr x) 4 true (some 1#3) ∧ fpTraps th 0#6 = false :=
    issues (by decide +kernel)
  obtain ⟨e, en, x, th, h, h1, h3, h5⟩ := h
  exact ⟨_, e, en, x, th, _, h, rfl, by decide, h1, h3, h5⟩
theorem witness_AtomicsNondeterministic : ∃ s e en x th, Issues (.atomI32 0#2 1#3 fAt) fAt s e en x th ∧
    fAt.mod.getLsbD 3 = false ∧ e.s.level e.g.cid ≠ 0 :=
  ⟨rigD (packWord 0x901#12 fAt) addrRegs 0#512 2#2 (fun g => g), issues (by decide +kernel)⟩
/-- WADD.F64 with window 0 at a scratchpad cell. -/
def fCell : Fields := { F 0 2 4 6 with d := .special 3#7, mod := 1#4 }
theorem witness_WideCells : ∃ s e en x th st new ws fl, Issues (.waddF32 0#3 fCell) fCell s e en x th ∧
    fCell.mod.getLsbD 0 = true ∧ Spec.saddr x % 16 = 0 ∧ spOk e.k (Spec.saddr x) 16 = true ∧
    -1152 ≤ Spec.cellWindow (.waddF32 0#3 fCell) x ∧ Spec.cellWindow (.waddF32 0#3 fCell) x ≤ 1024 ∧
    Spec.cellStamp (.waddF32 0#3 fCell) e.place th.hb = some st ∧
    findRace e.g.stamps th.hb st (upFrom (Spec.saddr x) 16) = none ∧
    Spec.cellOp (.waddF32 0#3 fCell) x (Spec.numOf (e.g.spGet (Spec.saddr x) 16)) = some (new, ws, fl) ∧
    fpTraps th fl = false := by
  have h : ∃ e en x th, Issues (.waddF32 0#3 fCell) fCell (sp_ 0x9E0#12 fCell (spRegs 0x5FFF0#32)) e en x th ∧
      Spec.saddr x % 16 = 0 ∧ spOk e.k (Spec.saddr x) 16 = true ∧
      -1152 ≤ Spec.cellWindow (.waddF32 0#3 fCell) x ∧ Spec.cellWindow (.waddF32 0#3 fCell) x ≤ 1024 ∧
      findRace e.g.stamps th.hb { th.hb.stamp true (some 0#3) false e.place with cell := true } (upFrom (Spec.saddr x) 16) = none ∧
      fpTraps th 0#6 = false := issues (by decide +kernel)
  obtain ⟨e, en, x, th, h, h1, h3, h4, h5, h6, h7⟩ := h
  exact ⟨_, e, en, x, th, _, _, _, _, h, by decide, h1, h3, h4, h5, rfl, h6, rfl, h7⟩
/-- WADD.F32, WRD.F64 and WSET of a clean cell of global memory, WADD with the lowest window. -/
def fWadd : Fields := { F 0 2 4 5 with d := .special 3#7 }
def fWrd : Fields := F 8 2 4 5
def fWset : Fields := F 0 2 4 6
def cellRegs (v : W32) : AMap W32 := [(2, 0x10020#32), (3, 0#32), (4, 0#32), (5, v), (6, 7#32), (7, 0#32)]
theorem witness_GlobalCells_wadd : ∃ s e en x th pas s2 new, Issues (.waddF32 1#3 fWadd) fWadd s e en x th ∧
    GlobalVia e e.via th (s.setThread e.cur.gid e.cur.t (th.release (marked en fWadd))) (Spec.cellAcc (.waddF32 1#3 fWadd))
      (vaRange (Spec.gaddr x) 16) { th.hb.stamp true (some 1#3) false e.place with cell := true } pas s2 ∧
    fWadd.mod.getLsbD 0 = false ∧ (Spec.gaddr x).toNat < 2 ^ 56 ∧ (Spec.gaddr x).toNat % 16 = 0 ∧
    -1152 ≤ Spec.cellWindow (.waddF32 1#3 fWadd) x ∧ Spec.cellWindow (.waddF32 1#3 fWadd) x ≤ 1024 ∧
    Spec.cellOp (.waddF32 1#3 fWadd) x (Spec.numOf (pas.map s2.mem.get)) = some (some new, none, 0#6) ∧
    (∀ pa, pa ∈ pas → notifyPa s pa = false) ∧ SoundBytes e s2 pas := by
  obtain ⟨e, en, x, th, pas, s2, h, hg, h1⟩ := globalVia (i := .waddF32 1#3 fWadd) (f := fWadd)
    (s := at_ 0x9E1#12 fWadd (cellRegs 0x3F800000#32)) 3#2 (fun x => vaRange (Spec.gaddr x) 16)
    (fun e th => { th.hb.stamp true (some 1#3) false e.place with cell := true })
    (P := fun e _ x _ pas s2 => (Spec.gaddr x).toNat < 2 ^ 56 ∧ (Spec.gaddr x).toNat % 16 = 0 ∧
      -1152 ≤ Spec.cellWindow (.waddF32 1#3 fWadd) x ∧ Spec.cellWindow (.waddF32 1#3 fWadd) x ≤ 1024 ∧
      (∀ pa, pa ∈ pas → notifyPa (at_ 0x9E1#12 fWadd (cellRegs 0x3F800000#32)) pa = false) ∧ SoundBytes e s2 pas)
    (by decide +kernel)
  obtain ⟨h2, h3, h4, h5, h6, h7⟩ := h1
  exact ⟨_, e, en, x, th, pas, s2, _, h, hg, by decide, h2, h3, h4, h5, rfl, h6, h7⟩
/-- The window of WRD at its upper end. -/
theorem witness_GlobalCells_wrd : ∃ s e en x th pas s2, Issues (.wrdF64 1#3 fWrd) fWrd s e en x th ∧
    GlobalVia e e.via th (s.setThread e.cur.gid e.cur.t (th.release (marked en fWrd))) (Spec.cellAcc (.wrdF64 1#3 fWrd))
      (vaRange (Spec.gaddr x) 16) (th.hb.stamp false (some 1#3) false e.place) pas s2 ∧
    fWrd.mod.getLsbD 0 = false ∧ (Spec.gaddr x).toNat < 2 ^ 56 ∧ (Spec.gaddr x).toNat % 16 = 0 ∧
    Spec.cellWindow (.wrdF64 1#3 fWrd) x = 1024 ∧
    Spec.cellOp (.wrdF64 1#3 fWrd) x (Spec.numOf (pas.map s2.mem.get)) = some (none, some [0#32, 0#32], 0#6) ∧
    (∀ pa, pa ∈ pas → notifyPa s pa = false) ∧ SoundBytes e s2 pas :=
  ⟨at_ 0x9F1#12 fWrd (cellRegs 1024#32), globalVia 0#2 (fun x => vaRange (Spec.gaddr x) 16)
    (fun e th => th.hb.stamp false (some 1#3) false e.place) (by decide +kernel)⟩
theorem witness_GlobalCells_wset : ∃ s e en x th pas s2 new, Issues (.wset 1#3 fWset) fWset s e en x th ∧
    GlobalVia e e.via th (s.setThread e.cur.gid e.cur.t (th.release (marked en fWset))) (Spec.cellAcc (.wset 1#3 fWset))
      (vaRange (Spec.gaddr x) 16) (th.hb.stamp true (some 1#3) false e.place) pas s2 ∧
    fWset.mod.getLsbD 0 = false ∧ (Spec.gaddr x).toNat < 2 ^ 56 ∧ (Spec.gaddr x).toNat % 16 = 0 ∧
    Spec.cellOp (.wset 1#3 fWset) x (Spec.numOf (pas.map s2.mem.get)) = some (some new, none, 0#6) ∧
    (∀ pa, pa ∈ pas → notifyPa s pa = false) ∧ s2.writeBad (s2.ctx e.g.cid).keyId pas = none := by
  obtain ⟨e, en, x, th, pas, s2, h, hg, h2, h3, h4, h5⟩ := globalVia (i := .wset 1#3 fWset) (f := fWset)
    (s := at_ 0x9F9#12 fWset (cellRegs 0#32)) 1#2 (fun x => vaRange (Spec.gaddr x) 16)
    (fun e th => th.hb.stamp true (some 1#3) false e.place)
    (P := fun e _ x _ pas s2 => (Spec.gaddr x).toNat < 2 ^ 56 ∧ (Spec.gaddr x).toNat % 16 = 0 ∧
      (∀ pa, pa ∈ pas → notifyPa (at_ 0x9F9#12 fWset (cellRegs 0#32)) pa = false) ∧
      s2.writeBad (s2.ctx e.g.cid).keyId pas = none)
    (by decide +kernel)
  exact ⟨_, e, en, x, th, pas, s2, _, h, hg, by decide, h2, h3, rfl, h4, h5⟩
/-- WRD and WSET at the repeatable level. -/
theorem witness_GlobalCells_view : ∃ s e en x th pas s2, Issues (.wrdF64 1#3 fWrd) fWrd s e en x th ∧
    gXlate e e.via 0#2 (vaRange (Spec.gaddr x) 16) (s.setThread e.cur.gid e.cur.t (th.release (marked en fWrd))) = .ok (pas, s2) ∧
    fWrd.mod.getLsbD 0 = false ∧ (Spec.gaddr x).toNat < 2 ^ 56 ∧ (Spec.gaddr x).toNat % 16 = 0 ∧ x.c32.toInt = 1024 ∧
    e.s.level e.g.cid ≠ 0 ∧ (∀ pa, pa ∈ pas → notifyPa s pa = false) ∧ SoundBytes e s2 pas ∧
    fpTraps th (wrdVal (Spec.numOf ((s2.homes e.g.kid (vaRange (Spec.gaddr x) 16) pas).1.map
      (Spec.viewed e (s2.homes e.g.kid (vaRange (Spec.gaddr x) 16) pas).2).get)) x.c32.toInt).flags = false :=
  ⟨rigD (packWord 0x9F1#12 fWrd) (cellRegs 1024#32) 0#512 1#2 (fun g => g),
    xlates 0#2 (fun x => vaRange (Spec.gaddr x) 16) (by decide +kernel)⟩
theorem witness_GlobalCells_queued : ∃ s e en x th pas s2, Issues (.wset 1#3 fWset) fWset s e en x th ∧
    gXlate e e.via 1#2 (vaRange (Spec.gaddr x) 16) (s.setThread e.cur.gid e.cur.t (th.release (marked en fWset))) = .ok (pas, s2) ∧
    fWset.mod.getLsbD 0 = false ∧ (Spec.gaddr x).toNat < 2 ^ 56 ∧ (Spec.gaddr x).toNat % 16 = 0 ∧ e.s.level e.g.cid ≠ 0 ∧
    (Spec.queued e (Spec.units 16 (vaRange (Spec.gaddr x) 16) (s2.homes e.g.kid (vaRange (Spec.gaddr x) 16) pas).1
      (Spec.bytesOf 16 (BitVec.ofInt 120 x.c.toInt).toNat)) (s2.homes e.g.kid (vaRange (Spec.gaddr x) 16) pas).2).isSome = true :=
  ⟨rigD (packWord 0x9F9#12 fWset) (cellRegs 0#32) 0#512 1#2 (fun g => g),
    xlates 1#2 (fun x => vaRange (Spec.gaddr x) 16) (by decide +kernel)⟩
/-- The manual's example with window -4: 1.03125 is 16.5 steps and rounds to 16. -/
theorem witness_CellArithmetic : ∃ (cell m k : Nat) (w ex : Int) (n : Bool) (x : W64),
    decodeF .f64 x.toNat = .fin n m ex ∧ cell < 2 ^ 120 ∧ k = roundNat .rn n (dyad m (ex - w)).1 (dyad m (ex - w)).2 ∧
    (k : Int) < 2 ^ 119 ∧ Spec.cellSum cell + k < 2 ^ 119 ∧ n = false ∧ k = 16 :=
  ⟨0, 4644337115725824, 16, -4, -52, false, 0x3FF0800000000000#64, by decide +kernel, by decide, by decide +kernel, by decide,
    by decide, rfl, rfl⟩
theorem test_cell_example : Spec.cellSum (waddCell 0 (-4) true 0x3FF0800000000000#64) = 16 ∧
    Spec.cellSum (waddCell 0 (-4) true 0x3FB8000000000000#64) = 2 := by decide +kernel

/-! ## Witnesses: fences, barriers, waits -/

/-- A group with its threads changed. -/
def thr (h : Thread → Thread) (g : Group) : Group := { g with threads := mmap (fun _ th => h th) g.threads }

theorem witness_FencesPass : ∃ s e en x th, Issues (.fence 1#3 (F 0 0 63 63)) (F 0 0 63 63) s e en x th ∧
    fenceWaits e.s e.cur.gid e.cur.t (maskOf (F 0 0 63 63).b) = false :=
  ⟨at_ 0xA01#12 (F 0 0 63 63) [], issues (by decide +kernel)⟩
theorem witness_FencesPass_code : ∃ s e en x th, Issues (.ifenceCp { F 0 0 0 0 with mod := 1#4 }) { F 0 0 0 0 with mod := 1#4 } s e en x th ∧ s.ops = [] :=
  ⟨_, issues (s := at_ 0xA08#12 { F 0 0 0 0 with mod := 1#4 } []) (by decide +kernel)⟩

def barRig (op : BitVec 12) (f : Fields) (regs : AMap W32) (b : Barrier) : State :=
  rigD (packWord op f) regs descSp 0#2 (fun g => { g with bars := [(2, b)] })
theorem witness_BarrierArrivals_bara : ∃ s e en x th, Issues (.bara (F 1 2 3 0)) (F 1 2 3 0) s e en x th ∧ x.b32.toNat ≤ 2048 ∧
    (mgetD e.g.bars (barNo (F 1 2 3 0)) Barrier.zero).mode = .fixed x.b32.toNat ∧ barNo (F 1 2 3 0) = 2 :=
  ⟨barRig 0xA11#12 (F 1 2 3 0) [(3, 2048#32)] { Barrier.zero with mode := .fixed 2048, arr := 1 }, issues (by decide +kernel)⟩
theorem witness_BarrierArrivals_bar : ∃ s e en x pops, Arrives (.bar (F 0 2 3 0)) (F 0 2 3 0) s e en x pops ∧ x.b32.toNat ≤ 2048 ∧
    (mgetD e.g.bars (barNo (F 0 2 3 0)) Barrier.zero).mode = .unset :=
  ⟨barRig 0xA10#12 (F 0 2 3 0) [(3, 0#32)] Barrier.zero, arrives (by decide +kernel)⟩
/-- Whether the state after an arrival meets what its last clause asks. -/
def afterArrival (i : Instr) (s : State) (ok : State → Group → Bool) : Bool :=
  match exec i s with
  | .next t => (match t.group 0 with | some g => ok t g | none => false)
  | _ => false
theorem witness_BarrierArrivals_barLast : ∃ s e en x pops, Arrives (.bar (F 0 2 3 0)) (F 0 2 3 0) s e en x pops ∧ x.b32.toNat ≤ 2048 ∧
    (mgetD e.g.bars (barNo (F 0 2 3 0)) Barrier.zero).mode = .unset ∧ (settleBar s e.cur.gid e.g).isNone = true ∧
    afterArrival (.bar (F 0 2 3 0)) s (fun _ g => (g.bars.any (fun b => (b.2.expected g).any (fun m => decide (m ≤ b.2.arr))))) = true :=
  ⟨barRig 0xA10#12 (F 0 2 3 0) [(3, 1#32)] Barrier.zero, arrives (by decide +kernel)⟩
theorem witness_BarrierArrivals_xbar : ∃ s e en x pops, Arrives (.xbar (F 0 0 0 0)) (F 0 0 0 0) s e en x pops ∧
    msorted s.groups = true ∧ e.g.isRetired = false ∧
    afterArrival (.xbar (F 0 0 0 0)) s (fun t g => (clusterGroups t e.k g).all (fun h =>
      h.2.threads.all (fun th => !th.2.live || th.2.wait == .xbar))) = true :=
  ⟨sp_ 0xA20#12 (F 0 0 0 0) [], arrives (by decide +kernel)⟩
theorem witness_BarrierArrivals_lbar (l : BitVec 2) (hl : l.toNat < 2) : ∃ s e en x pops, Arrives (.lbar (F 0 0 0 0)) (F 0 0 0 0) s e en x pops ∧
    msorted s.groups = true ∧ e.g.isRetired = false ∧ e.th.live = true ∧ (s.part 0).level = l ∧
    afterArrival (.lbar (F 0 0 0 0)) s (fun t _ => (match t.kernel e.g.kid with
      | some k => !k.mergePending && k.lbarAt == e.th.lbars + 1 && k.nextGrp == k.groupCount && !intervalOpen t e.g.kid &&
          (kernelGroups t e.g.kid).all (fun h => h.2.threads.all (fun th => !th.2.live || th.2.wait == .lbar (e.th.lbars + 1)))
      | none => false)) = true := by
  have h : l = 0#2 ∨ l = 1#2 := by
    rcases l with ⟨⟨n, h⟩⟩
    have : n < 2 := hl
    rcases (by omega : n = 0 ∨ n = 1) with rfl | rfl
    · exact .inl rfl
    · exact .inr rfl
  rcases h with rfl | rfl
  · exact ⟨rigD (packWord 0xA28#12 (F 0 0 0 0)) [] (BitVec.ofNat 512 (2 ^ 192 + 2 ^ 224 + 2 ^ 256)) 0#2 (fun g => g), arrives (by decide +kernel)⟩
  · exact ⟨rigD (packWord 0xA28#12 (F 0 0 0 0)) [] (BitVec.ofNat 512 (2 ^ 192 + 2 ^ 224 + 2 ^ 256)) 1#2 (fun g => g), arrives (by decide +kernel)⟩
theorem witness_BarrierPhaseCompletes : ∃ (s : State) (g : Group) (b : Barrier), s.group 0 = some g ∧ g.bars = [(2, b)] ∧
    b.expected g = some 1 ∧ 1 ≤ b.arr := by
  have h : (match (barRig 0#12 (F 0 0 0 0) [] { Barrier.zero with mode := .live, arr := 1 }).group 0 with
    | some g => decide (g.bars = [(2, { Barrier.zero with mode := .live, arr := 1 })] ∧
        ({ Barrier.zero with mode := .live, arr := 1 } : Barrier).expected g = some 1)
    | none => false) = true := by decide +kernel
  split at h
  · rename_i g hg
    exact ⟨_, g, _, hg, (of_decide_eq_true h).1, (of_decide_eq_true h).2, by decide⟩
  · cases h
theorem witness_WaitsThatHold_barw : ∃ s e en x th, Issues (.barw (F 0 2 3 0)) (F 0 2 3 0) s e en x th ∧
    phasePast (mgetD e.g.bars (barNo (F 0 2 3 0)) Barrier.zero).ph x.b32 = true :=
  ⟨barRig 0xA12#12 (F 0 2 3 0) [(3, 0xFFFFFFFF#32)] Barrier.zero, issues (by decide +kernel)⟩
/-- TLWAIT of copy context 1 for number 3, of three issued and complete. -/
def fTlw : Fields := { F 0 0 4 0 with a := .special 65#7 }
theorem witness_WaitsThatHold_tlwait : ∃ s e en x th, Issues (.tlwait fTlw) fTlw s e en x th ∧ unitIx fTlw.a ≠ 4 ∧ unitIx fTlw.a ≠ 5 ∧
    x.b.toNat ≤ (e.g.engCtx (unitIx fTlw.a)).tl ∧ (e.g.engCtx (unitIx fTlw.a)).tl ≤ (e.g.engCtx (unitIx fTlw.a)).issued ∧ x.b = 3#64 :=
  ⟨rigD (packWord 0xA30#12 fTlw) [(4, 3#32), (5, 0#32)] 0#512 0#2 (fun g => { g with eng := [(1, { EngCtx.zero with issued := 3, tl := 3 })] }),
    issues (by decide +kernel)⟩
theorem witness_WaitsThatHold_cbwait : ∃ s e en x th, Issues (.cbwait (F 0 2 4 5)) (F 0 2 4 5) s e en x th ∧ Spec.saddr x % 16 = 0 ∧
    SpadOk e th (Spec.saddr x) 16 false (some 1#3) ∧ phasePast (e.g.cbPh (Spec.saddr x)) x.c32 = true :=
  ⟨sp_ 0xA1A#12 (F 0 2 4 5) [(2, 0x5FFF0#32), (4, 0#32), (5, 0xFFFFFFFF#32)], issues (by decide +kernel)⟩
theorem witness_WaitOnWord : ∃ s e en x th, Issues (.waita (F 1 2 4 5)) (F 1 2 4 5) s e en x th ∧ (F 1 2 4 5).mod.getLsbD 3 = false ∧
    Spec.saddr x % 4 = 0 ∧ SpadOk e th (Spec.saddr x) 4 false (some 1#3) ∧
    waitaHolds ((F 1 2 4 5).mod.setWidth 2) (BitVec.ofNat 32 (Spec.numOf (e.g.spGet (Spec.saddr x) 4))) x.c32 = true :=
  ⟨sp_ 0xA38#12 (F 1 2 4 5) [(2, 0x5FFFC#32), (4, 0#32), (5, 0#32)], issues (by decide +kernel)⟩
/-- The same on a word of global memory, at the end of its sector. -/
def fWaitG : Fields := { F 1 2 4 5 with mod := 8#4 }
theorem witness_WaitOnWord_global : ∃ s e en x th pas s2, Issues (.waita fWaitG) fWaitG s e en x th ∧
    GlobalOk e th (s.setThread e.cur.gid e.cur.t (th.release (marked en fWaitG))) 0#2 (vaRange (Spec.gaddr x) 4) false (some 5#3) pas s2 ∧
    fWaitG.mod.getLsbD 3 = true ∧ (Spec.gaddr x).toNat < 2 ^ 56 ∧ (Spec.gaddr x).toNat % 32 = 28 ∧ SoundBytes e s2 pas ∧
    (∀ pa, pa ∈ pas → notifyPa s pa = false) ∧
    waitaHolds (fWaitG.mod.setWidth 2) (BitVec.ofNat 32 (Spec.numOf (pas.map s2.mem.get))) x.c32 = true :=
  ⟨at_ 0xA38#12 fWaitG [(2, 0x1001C#32), (3, 0#32), (4, 0#32), (5, 0#32)],
    global 0#2 (fun x => vaRange (Spec.gaddr x) 4) false (some 5#3) (by decide +kernel)⟩
theorem witness_WaitOnWord_recheck : ∃ (s : State) (g : Group) (th : Thread), s.group 0 = some g ∧ mget g.threads 0 = some th ∧
    th.wait = .waita false 0 0#2 0#32 ∧ waitaHolds 0#2 (BitVec.ofNat 32 (Spec.numOf (g.spGet 0 4))) 0#32 = true := by
  have h : (match (rigD 0#64 [] descSp 0#2 (thr (fun th => { th with wait := .waita false 0 0#2 0#32 }))).group 0 with
    | some g => (match mget g.threads 0 with
      | some th => decide (th.wait = .waita false 0 0#2 0#32 ∧
          waitaHolds 0#2 (BitVec.ofNat 32 (Spec.numOf (g.spGet 0 4))) 0#32 = true)
      | none => false)
    | none => false) = true := by decide +kernel
  split at h
  · rename_i g hg
    split at h
    · rename_i th ht
      exact ⟨_, g, th, hg, ht, of_decide_eq_true h⟩
    · cases h
  · cases h
theorem witness_CountingBarriers_init : ∃ s e en x th, Issues (.cbinit (F 0 2 4 5)) (F 0 2 4 5) s e en x th ∧ Spec.saddr x % 16 = 0 ∧
    x.c32 ≠ 0#32 ∧ x.c32.toNat < 2 ^ 31 ∧ SpadOk e th (Spec.saddr x) 16 true none :=
  ⟨sp_ 0xA18#12 (F 0 2 4 5) [(2, 0x5FFF0#32), (4, 0#32), (5, 0x7FFFFFFF#32)], issues (by decide +kernel)⟩
theorem witness_CountingBarriers_add : ∃ s e en x th, Issues (.cbadd (F 1 2 4 5)) (F 1 2 4 5) s e en x th ∧ Spec.saddr x % 16 = 0 ∧
    SpadOk e th (Spec.saddr x) 16 true (some 1#3) ∧ e.g.spad.wf = true ∧ e.g.xlive.wf = true ∧
    (e.g.cbPend (Spec.saddr x) + x.c32).toInt ≤ 0 :=
  ⟨sp_ 0xA19#12 (F 1 2 4 5) [(2, 0x5FFF0#32), (4, 0#32), (5, 0xFFFFFFFF#32)], issues (by decide +kernel)⟩
def fTlr : Fields := { F 2 0 0 0 with a := .special 65#7 }
def fTle : Fields := { F 2 0 0 0 with a := .special 65#7, mod := 1#4 }
theorem witness_TimelineReads : ∃ s e en x th, Issues (.tlread fTlr) fTlr s e en x th ∧ e.s.level e.g.cid = 0 :=
  ⟨at_ 0xA31#12 fTlr [], issues (by decide +kernel)⟩
theorem witness_TimelineReads_level : ∃ s e en x th, Issues (.tlread fTlr) fTlr s e en x th ∧ e.s.level e.g.cid = 1 :=
  ⟨rigD (packWord 0xA31#12 fTlr) [] 0#512 1#2 (fun g => g), issues (by decide +kernel)⟩
theorem witness_TimelineReads_err : ∃ s e en x th, Issues (.tlreadErr fTle) fTle s e en x th ∧ (e.g.engCtx 1).err = true :=
  ⟨rigD (packWord 0xA31#12 fTle) [] 0#512 0#2 (fun g => { g with eng := [(1, { EngCtx.zero with err := true })] }), issues (by decide +kernel)⟩

/-! ## Witnesses: traps, registers, quotas, the window -/

/-- The rig with a handler and an emulation handler. -/
def rigH (w : W64) (regs : AMap W32) (g : Group → Group) : State :=
  let s := rigD w regs descSp 0#2 g
  s.setCtx 0 { s.ctx 0 with tvec := 0x20000#64, evec := 0x30000#64 }
/-- A thread of a state, with what holds of it. -/
theorem inGroup {s : State} {P : Group → Thread → Prop} [∀ g th, Decidable (P g th)]
    (h : (match s.group 0 with
      | some g => (match mget g.threads 0 with | some th => decide (P g th) | none => false)
      | none => false) = true) : ∃ g th, s.group 0 = some g ∧ mget g.threads 0 = some th ∧ P g th := by
  split at h
  · rename_i g hg
    split at h
    · rename_i th ht
      exact ⟨g, th, hg, ht, of_decide_eq_true h⟩
    · cases h
  · cases h
theorem witness_TrapEntry : ∃ s : State, ∃ g th, s.group 0 = some g ∧ mget g.threads 0 = some th ∧ th.msk = false ∧
    (s.ctx g.cid).tvec ≠ 0#64 := ⟨rigH 0#64 [] (fun g => g), inGroup (by decide +kernel)⟩
theorem witness_TrapStops : ∃ s : State, ∃ g th, s.group 0 = some g ∧ mget g.threads 0 = some th ∧
    (th.msk = true ∨ (s.ctx g.cid).tvec = 0#64) := ⟨rigH 0#64 [] (thr (fun th => { th with msk := true })), inGroup (by decide +kernel)⟩
theorem witness_TrapStops_noHandler : ∃ s : State, ∃ g th, s.group 0 = some g ∧ mget g.threads 0 = some th ∧ th.msk = false ∧
    (th.msk = true ∨ (s.ctx g.cid).tvec = 0#64) := ⟨at_ 0#12 (F 0 0 0 0) [], inGroup (by decide +kernel)⟩
theorem witness_Trap : ∃ s e en x th, Issues (.trap (F 0 2 0 0)) (F 0 2 0 0) s e en x th ∧ x.a32 = 7#32 :=
  ⟨at_ 0xE00#12 (F 0 2 0 0) [(2, 7#32)], issues (by decide +kernel)⟩
theorem witness_Bkpt : ∃ s e en x th, Issues (.bkpt (F 0 3 0 0)) (F 0 3 0 0) s e en x th ∧ th.live = true :=
  ⟨at_ 0xE03#12 (F 0 3 0 0) [], issues (by decide +kernel)⟩
theorem witness_Tret : ∃ s e en x th, Issues (.tret (F 0 0 0 0)) (F 0 0 0 0) s e en x th ∧ th.trapRep = none :=
  ⟨rigH (packWord 0xE01#12 (F 0 0 0 0)) [] (thr (fun th => { th with msk := true, epc := 0x10008#64 })), issues (by decide +kernel)⟩
theorem witness_Tret_rep : ∃ s e en x th r, Issues (.tret (F 0 0 0 0)) (F 0 0 0 0) s e en x th ∧ th.trapRep = some (th.epc, r) := by
  have h : ∃ e en x th, Issues (.tret (F 0 0 0 0)) (F 0 0 0 0) (rigH (packWord 0xE01#12 (F 0 0 0 0)) [] (thr (fun th => { th with
      msk := true, epc := 0x10008#64, trapRep := some (0x10008#64, ⟨2, 7, 1#4, 1#4, 0#4, 0#4⟩) }))) e en x th ∧
      th.trapRep = some (th.epc, ⟨2, 7, 1#4, 1#4, 0#4, 0#4⟩) := issues (by decide +kernel)
  obtain ⟨e, en, x, th, h, h1⟩ := h
  exact ⟨_, e, en, x, th, _, h, h1⟩
theorem witness_Tmask : ∃ s e en x th, Issues (.tmask (F 1 2 0 0)) (F 1 2 0 0) s e en x th ∧ x.a32.toNat ≤ 1 ∧ x.a32 = 1#32 :=
  ⟨at_ 0xE02#12 (F 1 2 0 0) [(2, 1#32)], issues (by decide +kernel)⟩
theorem witness_Sysr : ∃ s e en x th, Issues (.sysr (F 1 8 0 0)) (F 1 8 0 0) s e en x th ∧
    Spec.sysReg e (th.release (marked en (F 1 8 0 0))) 8 = some (false, 0) ∧ ¬ Spec.sysForbidden (e.s.level e.g.cid) 8 := by
  have h : ∃ e en x th, Issues (.sysr (F 1 8 0 0)) (F 1 8 0 0) (at_ 0xE08#12 (F 1 8 0 0) []) e en x th ∧
      Spec.sysReg e (th.release (marked en (F 1 8 0 0))) 8 = some (false, 0) ∧ e.s.level e.g.cid = 0 := issues (by decide +kernel)
  obtain ⟨e, en, x, th, h, h1, h2⟩ := h
  exact ⟨_, e, en, x, th, h, h1, fun h3 => h3.1 h2⟩
theorem witness_Sysr_forbidden : ∃ s e en x th v, Issues (.sysr { F 2 0 0 0 with mod := 1#4 }) { F 2 0 0 0 with mod := 1#4 } s e en x th ∧
    Spec.sysReg e (th.release (marked en { F 2 0 0 0 with mod := 1#4 })) 0 = some (true, v) ∧ Spec.sysForbidden (e.s.level e.g.cid) 0 := by
  have h : ∃ e en x th, Issues (.sysr { F 2 0 0 0 with mod := 1#4 }) { F 2 0 0 0 with mod := 1#4 }
      (rigD (packWord 0xE08#12 { F 2 0 0 0 with mod := 1#4 }) [] 0#512 1#2 (fun g => g)) e en x th ∧ e.s.level e.g.cid = 1 :=
    issues (by decide +kernel)
  obtain ⟨e, en, x, th, h, h2⟩ := h
  exact ⟨_, e, en, x, th, _, h, rfl, by rw [h2]; exact ⟨by decide, .inl rfl⟩⟩
theorem witness_Sysw : ∃ s e en x th v, Issues (.sysw { F 0 5 2 0 with mod := 1#4 }) { F 0 5 2 0 with mod := 1#4 } s e en x th ∧
    Spec.sysReg e (th.release (marked en { F 0 5 2 0 with mod := 1#4 })) 5 = some (true, v) := by
  have h : ∃ e en x th, Issues (.sysw { F 0 5 2 0 with mod := 1#4 }) { F 0 5 2 0 with mod := 1#4 }
      (at_ 0xE09#12 { F 0 5 2 0 with mod := 1#4 } [(2, 1#32), (3, 2#32)]) e en x th ∧ x.b = 0x200000001#64 := issues (by decide +kernel)
  obtain ⟨e, en, x, th, h, -⟩ := h
  exact ⟨_, e, en, x, th, _, h, rfl⟩
theorem witness_Sysr_absent : ∃ s e en x th, Issues (.sysr (F 1 14 0 0)) (F 1 14 0 0) s e en x th ∧
    ∀ v, Spec.sysReg e (th.release (marked en (F 1 14 0 0))) 14 ≠ some (false, v) := by
  have h : ∃ e en x th, Issues (.sysr (F 1 14 0 0)) (F 1 14 0 0) (at_ 0xE08#12 (F 1 14 0 0) []) e en x th ∧ th.live = true :=
    issues (by decide +kernel)
  obtain ⟨e, en, x, th, h, -⟩ := h
  exact ⟨_, e, en, x, th, h, by intro v h; cases h⟩
theorem witness_Quotas_rel : ∃ s e en x th, Issues (.qrel (F 0 2 0 0)) (F 0 2 0 0) s e en x th ∧
    (th.release (marked en (F 0 2 0 0))).alloc + x.a32.toNat ≤ (th.release (marked en (F 0 2 0 0))).quota ∧ x.a32 = 127#32 :=
  ⟨at_ 0xE10#12 (F 0 2 0 0) [(2, 127#32)], issues (by decide +kernel)⟩
theorem witness_Quotas_rel_trap : ∃ s e en x th, Issues (.qrel (F 0 2 0 0)) (F 0 2 0 0) s e en x th ∧
    (th.release (marked en (F 0 2 0 0))).quota - (th.release (marked en (F 0 2 0 0))).alloc < x.a32.toNat :=
  ⟨at_ 0xE10#12 (F 0 2 0 0) [(2, 128#32)], issues (by decide +kernel)⟩
theorem witness_Quotas_claim : ∃ s e en x pops, Arrives (.qclm (F 0 2 0 0)) (F 0 2 0 0) s e en x pops ∧
    e.th.quota + x.a32.toNat ≤ 256 ∧ x.a32 ≠ 0#32 :=
  ⟨at_ 0xE11#12 (F 0 2 0 0) [(2, 128#32)], arrives (by decide +kernel)⟩
theorem witness_Quotas_settle : ∃ s : State, ∃ g th, s.group 0 = some g ∧ mget g.threads 0 = some th ∧
    g.claims = [(3, [(0, 28)])] ∧ mget g.reserve 3 = some 28 ∧ 28 ≤ 28 :=
  ⟨rigD 0#64 [] descSp 0#2 (fun g => { g with claims := [(3, [(0, 28)])], reserve := [(3, 28)] }), inGroup (by decide +kernel)⟩
theorem witness_Quotas_get : ∃ s e en x th, Issues (.qget { F 1 0 0 0 with mod := 3#4 }) { F 1 0 0 0 with mod := 3#4 } s e en x th ∧
    e.s.level e.g.cid = 0 := ⟨at_ 0xE12#12 { F 1 0 0 0 with mod := 3#4 } [], issues (by decide +kernel)⟩

/-- A window on `iadd.i32 v1, v2, v3`. -/
def win : EmuWindow :=
  { word := packWord 0x100#12 (F 1 2 3 0), lits := [], l0 := none, l1 := none, guard := true, peers := 1#64, pc := 0x10000#64,
    next := 0x10008#64, nextRep := none, here := none, rep := 0, why := 1#2, uqVals := some [], popped := false, released := false }
def rigWin (op : BitVec 12) (f : Fields) (regs : AMap W32) : State :=
  rigH (packWord op f) regs (thr (fun th => { th with windows := [win] }))
theorem witness_EmulationWindow_open : ∃ s : State, ∃ e, envOf s = some e ∧ (e.s.ctx e.g.cid).evec ≠ 0#64 ∧ e.th.windows.length < 2 := by
  have h := atSlot (i := .nop (F 0 0 0 0)) (f := F 0 0 0 0) (s := rigWin 0#12 (F 0 0 0 0) [])
    (P := fun e _ => (e.s.ctx e.g.cid).evec ≠ 0#64 ∧ e.th.windows.length < 2) (by decide +kernel)
  obtain ⟨e, en, h, h1⟩ := h
  exact ⟨_, e, h.env, h1⟩
theorem witness_Ewin : ∃ s e en x th, Issues (.ewin (F 1 32 0 0)) (F 1 32 0 0) s e en x th ∧ e.th.windows.getLast? = some win ∧
    Spec.winEntry win (th.release (marked en (F 1 32 0 0))).windows.length (opBits (F 1 32 0 0).a).toNat = some 1 :=
  ⟨rigWin 0xE18#12 (F 1 32 0 0) [], issues (by decide +kernel)⟩
theorem witness_Ewin_source : ∃ s e en x th, Issues (.ewin (F 1 12 0 0)) (F 1 12 0 0) s e en x th ∧ e.th.windows.getLast? = some win ∧
    ∃ k ix r u, (opBits (F 1 12 0 0).a).toNat = 8 + 4 * ix + k ∧ k < 4 ∧ ix < 3 ∧ Spec.winField win ix = .main r ∧ r.toNat + k ≤ 127 ∧
      mget (th.release (marked en (F 1 12 0 0))).marks (r.toNat + k) = none ∧
      mget (th.release (marked en (F 1 12 0 0))).regs (r.toNat + k) = some u := by
  have h : ∃ e en x th, Issues (.ewin (F 1 12 0 0)) (F 1 12 0 0) (rigWin 0xE18#12 (F 1 12 0 0) [(3, 5#32)]) e en x th ∧
      e.th.windows.getLast? = some win ∧ mget (th.release (marked en (F 1 12 0 0))).marks 3 = none ∧
      mget (th.release (marked en (F 1 12 0 0))).regs 3 = some 5#32 := issues (by decide +kernel)
  obtain ⟨e, en, x, th, h, h1, h2, h3⟩ := h
  exact ⟨_, e, en, x, th, h, h1, 0, 1, 3#7, 5#32, by decide, by decide, by decide, by decide, by decide, h2, h3⟩
theorem witness_Ewset : ∃ s e en x th, Issues (.ewset (F 0 4 0 0)) (F 0 4 0 0) s e en x th ∧ e.th.windows.getLast? = some win ∧
    (fieldsAt win.word).d = .main 1#7 ∧ (1#7).toNat + (opBits (F 0 4 0 0).b).toNat ≤ 127 ∧
    (∀ r, r ∈ win.marks → mget th.marks r = none) ∧
    reserveD (.main 1#7) 1 (Spec.winReleased win (th.release (marked en (F 0 4 0 0)))) =
      .ok ((), Spec.winReleased win (th.release (marked en (F 0 4 0 0)))) := by
  have h : ∃ e en x th, Issues (.ewset (F 0 4 0 0)) (F 0 4 0 0) (rigWin 0xE19#12 (F 0 4 0 0) [(4, 5#32)]) e en x th ∧
      e.th.windows.getLast? = some win ∧ (fieldsAt win.word).d = .main 1#7 ∧ (1#7).toNat + (opBits (F 0 4 0 0).b).toNat ≤ 127 ∧
      (∀ r, r ∈ win.marks → mget th.marks r = none) ∧
      (match takeMain (upFrom 1 1) (Spec.winReleased win (th.release (marked en (F 0 4 0 0)))) with
        | .ok _ => true | .error _ => false) = true := issues (by decide +kernel)
  obtain ⟨e, en, x, th, h, h1, h2, h3, h4, h5⟩ := h
  refine ⟨_, e, en, x, th, h, h1, h2, h3, h4, ?_⟩
  split at h5
  · rename_i y hy
    show (match takeMain (upFrom 1 1) (Spec.winReleased win (th.release (marked en (F 0 4 0 0)))) with
      | .error x => _ | .ok _ => _) = _
    rw [hy]
  · cases h5
theorem witness_EwsetNext : ∃ s e en x th, Issues (.ewsetNext { F 0 4 0 0 with mod := 1#4 }) { F 0 4 0 0 with mod := 1#4 } s e en x th ∧
    e.th.windows.getLast? = some win := ⟨rigWin 0xE19#12 { F 0 4 0 0 with mod := 1#4 } [(4, 0x10010#32), (5, 0#32)], issues (by decide +kernel)⟩
theorem witness_Eret : ∃ s e en x th, Issues (.eret (F 0 0 0 0)) (F 0 0 0 0) s e en x th ∧ e.th.windows.getLast? = some win ∧
    (∀ r, r ∈ win.marks → mget th.marks r = none) ∧ win.uqVals.isSome = true := ⟨rigWin 0xE1A#12 (F 0 0 0 0) [], issues (by decide +kernel)⟩
theorem witness_Efwd : ∃ s e en x th, Issues (.efwd (F 0 0 0 0)) (F 0 0 0 0) s e en x th ∧ e.th.windows.getLast? = some win :=
  ⟨rigWin 0xE1B#12 (F 0 0 0 0) [], issues (by decide +kernel)⟩

/-! ## Witnesses: limit accumulators, the function store -/

/-- Whether a computation with no value goes through. -/
def isOk {ε : Type} (x : Except ε Unit) : Bool := match x with | .ok _ => true | .error _ => false
theorem unitOk {ε : Type} {x : Except ε Unit} (h : isOk x = true) : x = .ok () := by
  cases x with
  | ok _ => rfl
  | error _ => cases h
/-- Whether a computation on a thread answers `a` and leaves it as `t`. -/
def okIs {ε α : Type} [DecidableEq α] (x : Except ε (α × Thread)) (a : α) (t : Thread) : Bool :=
  match x with | .ok y => decide (y = (a, t)) | .error _ => false
theorem runOk {ε α : Type} [DecidableEq α] {x : Except ε (α × Thread)} {a : α} {t : Thread} (h : okIs x a t = true) :
    x = .ok (a, t) := by
  cases x with
  | ok y => exact congrArg _ (of_decide_eq_true h)
  | error _ => cases h

def acc3 : LimAcc := { dep := 3, ivl := 1, lsq := false, tol := 0#64, sum := 0x3FF0000000000000#64, count := 0#64, hist := [],
                       prev := none, status := 0#32 }
/-- An instruction on la1 with b in v4. -/
def fLa : Fields := { F 0 0 4 0 with a := .special 65#7 }
theorem witness_LimitSums_init : ∃ s e en x th, Issues (.lainit { F 0 0 4 6 with a := .special 65#7 }) { F 0 0 4 6 with a := .special 65#7 } s e en x th ∧
    laCfgOk x.b32 x.c = true ∧ (th.release (marked en { F 0 0 4 6 with a := .special 65#7 })).alloc + 18 ≤
      (th.release (marked en { F 0 0 4 6 with a := .special 65#7 })).quota :=
  ⟨at_ 0xD10#12 { F 0 0 4 6 with a := .special 65#7 } [(4, 3#32), (6, 0#32), (7, 0#32)], issues (by decide +kernel)⟩
theorem witness_LimitSums_add : ∃ s e en x th, Issues (.laaddF64 fLa) fLa s e en x th ∧
    mget (th.release (marked en fLa)).las (laIx fLa) = some acc3 ∧ x.b = 0x3FF0000000000000#64 ∧ fpTraps th 0#6 = false :=
  ⟨rigD (packWord 0xD12#12 fLa) [(4, 0#32), (5, 0x3FF00000#32)] 0#512 0#2 (thr (fun th => { th with las := [(1, acc3)] })), issues (by decide +kernel)⟩
theorem witness_LimitSums_ckp : ∃ s e en x th, Issues (.lackp { F 0 0 0 0 with a := .special 65#7 }) { F 0 0 0 0 with a := .special 65#7 } s e en x th ∧
    mget (th.release (marked en { F 0 0 0 0 with a := .special 65#7 })).las (laIx { F 0 0 0 0 with a := .special 65#7 }) = some acc3 :=
  ⟨rigD (packWord 0xD13#12 { F 0 0 0 0 with a := .special 65#7 }) [] 0#512 0#2 (thr (fun th => { th with las := [(1, acc3)] })), issues (by decide +kernel)⟩
theorem witness_LimitEstimates : ∃ s e en x th, Issues (.laget { F 2 0 4 0 with a := .special 65#7 }) { F 2 0 4 0 with a := .special 65#7 } s e en x th ∧
    mget (th.release (marked en { F 2 0 4 0 with a := .special 65#7 })).las (laIx { F 2 0 4 0 with a := .special 65#7 }) = some acc3 ∧ x.b32.toNat ≤ 11 ∧ x.b32 = 11#32 :=
  ⟨rigD (packWord 0xD15#12 { F 2 0 4 0 with a := .special 65#7 }) [(4, 11#32)] 0#512 0#2 (thr (fun th => { th with las := [(1, acc3)] })), issues (by decide +kernel)⟩
theorem witness_LimitEstimates_few : ∃ a : LimAcc, a.hist.length < 3 ∧ a.hist.length = 2 :=
  ⟨{ acc3 with hist := [0#64, 0#64] }, by decide, rfl⟩

/-- A table of one argument and one result with entry 0x20000 and two records' room, and its record at 1.0. -/
def fsDesc : BitVec 512 := BitVec.ofNat 512 (0x20000 + 2 ^ 64 + 2 ^ 68 + 2 ^ 80)
def fsTab (recs : List FsRec) : FsTable :=
  { desc := fsDesc, rad := 0#512, recs := recs, ctrs := List.replicate 9 0, incons := false, rejected := false, next := 2, made := 1, home := 0 }
def fsR : FsRec := { x0 := [0x3F800000#32], y0 := [0x40000000#32], jac := [0x3F800000#32], rad := [0x3F000000#32], hits := 0, seq := 1, uid := 1, bad := false }
def rigFs (w : W64) (regs : AMap W32) (recs : List FsRec) (g : Group → Group) : State :=
  let s := rigD w regs descSp 0#2 g
  s.setCtx 0 { s.ctx 0 with tables := [(0, { table := some (fsTab recs), gen := 1 })], fsa := 2 }
/-- `fcall v1, v2, fs0`. -/
def fCall : Fields := { F 1 2 0 0 with b := .special 64#7 }
theorem fcall_ok (recs : List FsRec) (P : Option FsRec → Bool)
    (h : (match envOf (rigFs (packWord 0xD00#12 fCall) [(2, 0x3F800000#32)] recs (fun g => g)), encOf (.fcall fCall) with
      | some e, some en => encOk en fCall && decide (e.cur.alt = none ∧ guardOf fCall e.th.countWindow = true ∧
          (rigFs (packWord 0xD00#12 fCall) [(2, 0x3F800000#32)] recs (fun g => g)).level e.g.cid = 0 ∧ e.k.cid = e.g.cid ∧
          ((rigFs (packWord 0xD00#12 fCall) [(2, 0x3F800000#32)] recs (fun g => g)).fsSlot e.g.cid (unitIx fCall.b)).table = some (fsTab recs) ∧
          e.th.frames = []) &&
          okIs (readRun fCall.a 0 (fdDim fsDesc) e.th.countWindow) [0x3F800000#32] e.th.countWindow &&
          okIs (reserveD fCall.d (fdM fsDesc) e.th.countWindow) () e.th.countWindow && P (fsSearch (fsTab recs) [0x3F800000#32])
      | _, _ => false) = true) :
    ∃ s e en, AtSlot (.fcall fCall) fCall s e en ∧ guardOf fCall e.th.countWindow = true ∧ s.level e.g.cid = 0 ∧ e.k.cid = e.g.cid ∧
      (s.fsSlot e.g.cid (unitIx fCall.b)).table = some (fsTab recs) ∧ e.th.frames = [] ∧
      readRun fCall.a 0 (fdDim fsDesc) e.th.countWindow = .ok ([0x3F800000#32], e.th.countWindow) ∧
      reserveD fCall.d (fdM fsDesc) e.th.countWindow = .ok ((), e.th.countWindow) ∧ P (fsSearch (fsTab recs) [0x3F800000#32]) = true := by
  split at h
  · rename_i e en he hen
    simp only [Bool.and_eq_true] at h
    obtain ⟨⟨⟨⟨h1, h2⟩, h3⟩, h4⟩, h5⟩ := h
    obtain ⟨z, a, b, c, d, f⟩ := of_decide_eq_true h2
    exact ⟨_, e, en, ⟨he, hen, h1, z⟩, a, b, c, d, f, runOk h3, runOk h4, h5⟩
  · cases h
theorem witness_StoreCalls_hit : ∃ s e en, AtSlot (.fcall fCall) fCall s e en ∧ guardOf fCall e.th.countWindow = true ∧
    s.level e.g.cid = 0 ∧ e.k.cid = e.g.cid ∧ (s.fsSlot e.g.cid (unitIx fCall.b)).table = some (fsTab [fsR]) ∧ e.th.frames = [] ∧
    readRun fCall.a 0 (fdDim fsDesc) e.th.countWindow = .ok ([0x3F800000#32], e.th.countWindow) ∧
    reserveD fCall.d (fdM fsDesc) e.th.countWindow = .ok ((), e.th.countWindow) ∧
    (fsSearch (fsTab [fsR]) [0x3F800000#32]).isSome = true := by
  obtain ⟨s, e, en, h, h1, h2, h3, h4, h5, h6, h7, h8⟩ := fcall_ok [fsR] Option.isSome (by decide +kernel)
  exact ⟨s, e, en, h, h1, h2, h3, h4, h5, h6, h7, h8⟩
theorem witness_StoreCalls_miss : ∃ s e en, AtSlot (.fcall fCall) fCall s e en ∧ guardOf fCall e.th.countWindow = true ∧
    s.level e.g.cid = 0 ∧ e.k.cid = e.g.cid ∧ (s.fsSlot e.g.cid (unitIx fCall.b)).table = some (fsTab []) ∧ e.th.frames = [] ∧
    readRun fCall.a 0 (fdDim fsDesc) e.th.countWindow = .ok ([0x3F800000#32], e.th.countWindow) ∧
    reserveD fCall.d (fdM fsDesc) e.th.countWindow = .ok ((), e.th.countWindow) ∧
    (fsSearch (fsTab []) [0x3F800000#32]).isNone = true := by
  obtain ⟨s, e, en, h, h1, h2, h3, h4, h5, h6, h7, h8⟩ := fcall_ok [] Option.isNone (by decide +kernel)
  exact ⟨s, e, en, h, h1, h2, h3, h4, h5, h6, h7, h8⟩
theorem witness_StoreCalls_sound : ∀ r, r ∈ (fsTab [fsR]).recs → r.bad = false := by decide
theorem witness_StoreCalls_desc : 1 ≤ fdDim fsDesc ∧ 1 ≤ fdM fsDesc ∧ mainIx fCall.a + fdDim fsDesc ≤ 128 ∧
    mainIx fCall.d + fdM fsDesc ≤ 128 := by decide +kernel
/-- `fret v4, v5, fs0` with one frame. -/
def fRet : Fields := { F 0 4 5 0 with c := .special 64#7 }
def fsFr : StoreFrame := { table := 0, gen := 1, vd := 1, m := 1, x := [0x40400000#32], ret := 0x10010#64, rep := none }
def rigRet : State :=
  rigFs (packWord 0xD01#12 fRet) [(4, 0x40400000#32), (5, 0x3F800000#32)] [] (thr (fun th => { th with frames := [fsFr] }))
theorem witness_StoreReturns_fret : ∃ s e en t, AtSlot (.fret fRet) fRet s e en ∧ guardOf fRet e.th.countWindow = true ∧
    s.level e.g.cid = 0 ∧ e.k.cid = e.g.cid ∧ e.th.frames = [fsFr] ∧ fsFr.table = unitIx fRet.c ∧
    readRun fRet.a 0 fsFr.m e.th.countWindow = .ok ([0x40400000#32], e.th.countWindow) ∧
    readRun fRet.b 0 (fsFr.m * fsFr.x.length) e.th.countWindow = .ok ([0x3F800000#32], e.th.countWindow) ∧
    reserveD (.main (BitVec.ofNat 7 fsFr.vd)) fsFr.m e.th.countWindow = .ok ((), e.th.countWindow) ∧
    (s.fsSlot e.g.cid fsFr.table).table = some t ∧ (s.ctx e.g.cid).ien.getLsbD fsFr.table = false ∧
    fsFr.gen = (s.fsSlot e.g.cid fsFr.table).gen := by
  have h : (match envOf rigRet,
        encOf (.fret fRet) with
      | some e, some en => encOk en fRet && decide (e.cur.alt = none ∧ guardOf fRet e.th.countWindow = true ∧ e.g.cid = 0 ∧ e.k.cid = 0 ∧
          e.th.frames = [fsFr]) &&
          okIs (readRun fRet.a 0 fsFr.m e.th.countWindow) [0x40400000#32] e.th.countWindow &&
          okIs (readRun fRet.b 0 (fsFr.m * fsFr.x.length) e.th.countWindow) [0x3F800000#32] e.th.countWindow &&
          okIs (reserveD (.main (BitVec.ofNat 7 fsFr.vd)) fsFr.m e.th.countWindow) () e.th.countWindow
      | _, _ => false) = true := by decide +kernel
  split at h
  · rename_i e en he hen
    simp only [Bool.and_eq_true] at h
    obtain ⟨⟨⟨⟨h1, h2⟩, h3⟩, h4⟩, h5⟩ := h
    obtain ⟨z, a, b, c, d⟩ := of_decide_eq_true h2
    have hs : (rigRet.fsSlot 0 0).table = some (fsTab []) ∧ (rigRet.ctx 0).ien.getLsbD 0 = false ∧ rigRet.level 0 = 0 ∧
        1 = (rigRet.fsSlot 0 0).gen := by decide +kernel
    refine ⟨rigRet, e, en, fsTab [], ⟨he, hen, h1, z⟩, a, ?_, by rw [b, c], d, by decide, runOk h3, runOk h4, runOk h5, ?_, ?_, ?_⟩
    · rw [b]; exact hs.2.2.1
    · rw [b]; exact hs.1
    · rw [b]; exact hs.2.1
    · rw [b]; exact hs.2.2.2
  · cases h
def fProbe : Fields := { F 1 2 0 3 with b := .special 64#7 }
theorem witness_StoreReturns_probe : ∃ s e en x th, Issues (.fsprobe fProbe) fProbe s e en x th ∧ s.level e.g.cid = 0 ∧ e.k.cid = e.g.cid ∧
    (s.fsSlot e.g.cid (unitIx fProbe.b)).table = some (fsTab [fsR]) ∧
    readRun fProbe.a 0 1 (th.release (marked en fProbe)) = .ok ([0x3F800000#32], th.release (marked en fProbe)) ∧
    reserveD fProbe.d 1 (th.release (marked en fProbe)) = .ok ((), th.release (marked en fProbe)) := by
  have h : ∃ e en x th, Issues (.fsprobe fProbe) fProbe (rigFs (packWord 0xD02#12 fProbe) [(2, 0x3F800000#32)] [fsR] (fun g => g)) e en x th ∧
      e.g.cid = 0 ∧ e.k.cid = 0 ∧
      okIs (readRun fProbe.a 0 1 (th.release (marked en fProbe))) [0x3F800000#32] (th.release (marked en fProbe)) = true ∧
      okIs (reserveD fProbe.d 1 (th.release (marked en fProbe))) () (th.release (marked en fProbe)) = true := issues (by decide +kernel)
  obtain ⟨e, en, x, th, h, h1, h2, h3, h4⟩ := h
  exact ⟨_, e, en, x, th, h, by rw [h1]; decide +kernel, by rw [h1, h2], by rw [h1]; decide +kernel, runOk h3, runOk h4⟩

/-- A state that a read leaves, and the bytes it gives. -/
theorem readOk {x : Except Exc (List Byte × State)} {P : List Byte → State → Prop} [∀ b s, Decidable (P b s)]
    (h : (match x with | .ok (b, s) => decide (P b s) | .error _ => false) = true) : ∃ b s, x = .ok (b, s) ∧ P b s := by
  split at h
  · rename_i b s
    exact ⟨b, s, rfl, of_decide_eq_true h⟩
  · cases h
/-- `fsdesc [v2:v3 + v4], fs0` of the bytes at 0x10040: a descriptor whose radius block is at 0x10080. -/
def fDesc : Fields := { F 0 2 4 0 with c := .special 64#7 }
def fsDesc2 : BitVec 512 := BitVec.ofNat 512 (0x20000 + 2 ^ 64 + 2 ^ 68 + 2 ^ 80 + 0x10080 * 2 ^ 160)
def fsRad : BitVec 512 := BitVec.ofNat 512 (0x3F000000 + 0x3F800000 * 2 ^ 256)
def rigDesc (d : BitVec 512) : State :=
  let s := rigFs (packWord 0xD03#12 fDesc) [(2, 0x10040#32), (3, 0#32), (4, 0#32)] [] (fun g => g)
  { s with mem := (s.mem.setN 0x10040 (leBytes 64 d.toNat)).setN 0x10080 (leBytes 64 fsRad.toNat) }
theorem witness_StoreTables_clear : ∃ s e en x th bs s2, Issues (.fsdesc fDesc) fDesc s e en x th ∧ s.level e.g.cid = 0 ∧
    (Spec.gaddr x).toNat < 2 ^ 56 ∧ (Spec.gaddr x).toNat % 64 = 0 ∧
    gRead e e.via 0#2 (vaRange (Spec.gaddr x) 64) none none (s.setThread e.cur.gid e.cur.t (th.release (marked en fDesc))) = .ok (bs, s2) ∧
    (s2.ctx e.g.cid).tables = (s.ctx e.g.cid).tables ∧ recOf bs = 0#512 := by
  have h : ∃ e en x th, Issues (.fsdesc fDesc) fDesc (rigDesc 0#512) e en x th ∧ (rigDesc 0#512).level e.g.cid = 0 ∧
      (Spec.gaddr x).toNat < 2 ^ 56 ∧ (Spec.gaddr x).toNat % 64 = 0 ∧
      (match gRead e e.via 0#2 (vaRange (Spec.gaddr x) 64) none none
          ((rigDesc 0#512).setThread e.cur.gid e.cur.t (th.release (marked en fDesc))) with
        | .ok (bs, s2) => decide ((s2.ctx e.g.cid).tables = ((rigDesc 0#512).ctx e.g.cid).tables ∧ recOf bs = 0#512) | .error _ => false) = true :=
    issues (by decide +kernel)
  obtain ⟨e, en, x, th, h, h1, h2, h3, h4⟩ := h
  obtain ⟨bs, s2, hr, h5, h6⟩ := readOk h4
  exact ⟨_, e, en, x, th, bs, s2, h, h1, h2, h3, hr, h5, h6⟩
theorem witness_StoreTables_install : ∃ s e en x th bs s2 rb s3, Issues (.fsdesc fDesc) fDesc s e en x th ∧
    gRead e e.via 0#2 (vaRange (Spec.gaddr x) 64) none none (s.setThread e.cur.gid e.cur.t (th.release (marked en fDesc))) = .ok (bs, s2) ∧
    gRead e e.via 0#2 (vaRange (BitVec.ofNat 64 (fdRadr (recOf bs))) 64) none none s2 = .ok (rb, s3) ∧
    (s2.ctx e.g.cid).tables = (s.ctx e.g.cid).tables ∧ recOf bs ≠ 0#512 ∧ fdOk (recOf bs) = true ∧
    (s3.ctx e.g.cid).tables = (s.ctx e.g.cid).tables ∧ radOk (recOf bs) (recOf rb) = true ∧
    fsRoom s e.k (recOf bs) (unitIx fDesc.c) (e.g.coreN / 64) = true := by
  have h : ∃ e en x th, Issues (.fsdesc fDesc) fDesc (rigDesc fsDesc2) e en x th ∧
      (match gRead e e.via 0#2 (vaRange (Spec.gaddr x) 64) none none
          ((rigDesc fsDesc2).setThread e.cur.gid e.cur.t (th.release (marked en fDesc))) with
        | .ok (bs, s2) => decide ((match gRead e e.via 0#2 (vaRange (BitVec.ofNat 64 (fdRadr (recOf bs))) 64) none none s2 with
          | .ok (rb, s3) => decide ((s2.ctx e.g.cid).tables = ((rigDesc fsDesc2).ctx e.g.cid).tables ∧ recOf bs ≠ 0#512 ∧ fdOk (recOf bs) = true ∧
              (s3.ctx e.g.cid).tables = ((rigDesc fsDesc2).ctx e.g.cid).tables ∧ radOk (recOf bs) (recOf rb) = true ∧
              fsRoom (rigDesc fsDesc2) e.k (recOf bs) (unitIx fDesc.c) (e.g.coreN / 64) = true)
          | .error _ => false) = true)
        | .error _ => false) = true := issues (by decide +kernel)
  obtain ⟨e, en, x, th, h, h4⟩ := h
  obtain ⟨bs, s2, hr, h5⟩ := readOk h4
  obtain ⟨rb, s3, hr2, h6⟩ := readOk h5
  exact ⟨_, e, en, x, th, bs, s2, rb, s3, h, hr, hr2, h6⟩
theorem witness_StoreTables_flush : ∃ s e en x th, Issues (.fsflush { F 0 0 0 0 with a := .special 64#7 }) { F 0 0 0 0 with a := .special 64#7 } s e en x th ∧
    s.level e.g.cid = 0 ∧ e.k.cid = e.g.cid ∧ (s.fsSlot e.g.cid 0).table = some (fsTab [fsR]) :=
  ⟨_, issues (s := rigFs (packWord 0xD04#12 { F 0 0 0 0 with a := .special 64#7 }) [] [fsR] (fun g => g)) (by decide +kernel)⟩
theorem witness_StoreTables_stat : ∃ s e en x th, Issues (.fsstat { F 1 0 4 0 with a := .special 64#7 }) { F 1 0 4 0 with a := .special 64#7 } s e en x th ∧
    (seenSlot s e.k 0).table = some (fsTab [fsR]) ∧ x.b32 = 11#32 :=
  ⟨_, issues (s := rigFs (packWord 0xD05#12 { F 1 0 4 0 with a := .special 64#7 }) [(4, 11#32)] [fsR] (fun g => g)) (by decide +kernel)⟩
theorem witness_StoreTables_statRec : ∃ s e en x th, Issues (.fsstatRec { F 1 0 4 0 with a := .special 64#7, mod := 1#4 }) { F 1 0 4 0 with a := .special 64#7, mod := 1#4 } s e en x th ∧
    (seenSlot s e.k 0).table = some (fsTab [fsR]) ∧ x.b32.toNat < 2 ^ 22 ∧ x.b32 = 0x3FFFFF#32 :=
  ⟨_, issues (s := rigFs (packWord 0xD05#12 { F 1 0 4 0 with a := .special 64#7, mod := 1#4 }) [(4, 0x3FFFFF#32)] [fsR] (fun g => g)) (by decide +kernel)⟩

/-! ## Witnesses: engines and matrices -/

/-- The rig with a record in its scratchpad at 0x40, a tensor record in slot 2, and a tile. -/
def tile1 : Tile := { Tile.zero with fmt := 1#4, en := true }
def rigE (w : W64) (regs : AMap W32) (rec : BitVec 512) : State :=
  rigD w regs descSp 0#2 (fun g => { g with spad := g.spad.setN 0x40 (leBytes 64 rec.toNat), slots := [(2, trRec)], tiles := [(1, tile1)] })
/-- Offset 0x40 in v2, 0 in v4, 1 in v5, pair 0 in v6:v7. -/
def engRegs : AMap W32 := [(2, 0x40#32), (4, 0#32), (5, 1#32), (6, 0#32), (7, 0#32)]
/-- A copy of 16 bytes from global 0x10000 to the scratchpad (R173). -/
def cpRec : BitVec 512 := BitVec.ofNat 512 (0x10000 + 2 ^ 124 + 16 * 2 ^ 128)
theorem witness_EngineIssue_cpkick : ∃ s e en x th, Issues (.cpkick (F 8 2 4 5)) (F 8 2 4 5) s e en x th ∧ 1 ≤ x.c32.toNat ∧ x.c32.toNat ≤ 16 ∧
    Spec.saddr x % 64 = 0 ∧ SpadOk e th (Spec.saddr x) (64 * x.c32.toNat) false none ∧
    kickReqs e.k e.g (recsOf (e.g.spGet (Spec.saddr x) (64 * x.c32.toNat)) x.c32.toNat) = some [(cpRec, none, none)] ∧ cqCtx cpRec = 0 :=
  ⟨rigE (packWord 0xB00#12 (F 8 2 4 5)) engRegs cpRec, issues (by decide +kernel)⟩
def fGath : Fields := { F 8 0 4 6 with a := .special 66#7 }
theorem witness_EngineIssue_gath : ∃ s e en x th, Issues (.gath fGath) fGath s e en x th ∧ e.g.slot (unitIx fGath.a) = trRec ∧ trRec ≠ 0#512 ∧
    x.b32.toNat < trExt trRec 1 * trExt trRec 2 * trExt trRec 3 ∧ x.c32.toNat % fmtAlign (trFmt trRec) = 0 ∧
    spOk e.k x.c32.toNat ((trExt trRec 0 * fmtBits (trFmt trRec) + 7) / 8) = true :=
  ⟨rigE (packWord 0xB08#12 fGath) engRegs 0#512, issues (by decide +kernel)⟩
def comm0 : CommEntry := { ctx := 0#4, rtab := 0#56, nloc := 1#16, rbase := 0#16, np := 1#16, comm := 0#12, fail := false, en := true,
                           route := [], calls := [] }
def rigColl : State :=
  let s := rigE (packWord 0xB18#12 (F 8 2 4 0)) engRegs 0#512
  s.setPart 0 { s.part 0 with comms := [(3, comm0)] }
theorem witness_EngineIssue_coll : ∃ s e en x th, Issues (.coll (F 8 2 4 0)) (F 8 2 4 0) s e en x th ∧ Spec.saddr x % 64 = 0 ∧
    SpadOk e th (Spec.saddr x) 64 false none ∧ recOf (e.g.spGet (Spec.saddr x) 64) = 0#512 ∧ cdOk 0#512 = true ∧
    pickComm s e.g.cid (cdComm 0#512) = .entry 3 comm0 ∧ mget (s.part (vfOf e.g.cid)).comms 3 = some comm0 ∧
    groupRank comm0 e.g.grp = some 0 ∧ rootOk s e.g.cid 0#512 = true := by
  have h : ∃ e en x th, Issues (.coll (F 8 2 4 0)) (F 8 2 4 0) rigColl e en x th ∧ Spec.saddr x % 64 = 0 ∧
      SpadOk e th (Spec.saddr x) 64 false none ∧ recOf (e.g.spGet (Spec.saddr x) 64) = 0#512 ∧ cdOk 0#512 = true ∧
      (match pickComm rigColl e.g.cid (cdComm 0#512) with | .entry n c => n == 3 && c == comm0 | _ => false) = true ∧
      mget (rigColl.part (vfOf e.g.cid)).comms 3 = some comm0 ∧
      groupRank comm0 e.g.grp = some 0 ∧ rootOk rigColl e.g.cid 0#512 = true := issues (by decide +kernel)
  obtain ⟨e, en, x, th, h, h1, h2, h3, h4, h5, h6⟩ := h
  refine ⟨_, e, en, x, th, h, h1, h2, h3, h4, ?_, h6⟩
  split at h5
  · rename_i n c hp
    rw [Bool.and_eq_true] at h5
    rw [hp, eq_of_beq h5.1, eq_of_beq h5.2]
  · cases h5
def fTld : Fields := { F 8 0 0 6 with a := .special 65#7, b := .special 66#7 }
theorem witness_EngineIssue_tld : ∃ s e en x th, Issues (.tld fTld) fTld s e en x th ∧ e.g.slot (unitIx fTld.b) = trRec ∧
    transferOk trRec (e.g.tile (unitIx fTld.a)) (x.c.toNat % 2 ^ 32) (x.c.toNat / 2 ^ 32) = true ∧
    tileWritable s e.cur.gid e.g (unitIx fTld.a) = .ok () := by
  have h : ∃ e en x th, Issues (.tld fTld) fTld (rigE (packWord 0xC00#12 fTld) engRegs 0#512) e en x th ∧
      e.g.slot (unitIx fTld.b) = trRec ∧
      transferOk trRec (e.g.tile (unitIx fTld.a)) (x.c.toNat % 2 ^ 32) (x.c.toNat / 2 ^ 32) = true ∧
      isOk (tileWritable (rigE (packWord 0xC00#12 fTld) engRegs 0#512) e.cur.gid e.g (unitIx fTld.a)) = true := issues (by decide +kernel)
  obtain ⟨e, en, x, th, h, h1, h2, h3⟩ := h
  exact ⟨_, e, en, x, th, h, h1, h2, unitOk h3⟩
theorem witness_EngineIssue_tst : ∃ s e en x th, Issues (.tst fTld) fTld s e en x th ∧
    transferOk (e.g.slot (unitIx fTld.b)) (e.g.tile (unitIx fTld.a)) (x.c.toNat % 2 ^ 32) (x.c.toNat / 2 ^ 32) = true ∧
    tileReadable s e.cur.gid (unitIx fTld.a) = .ok () := by
  have h : ∃ e en x th, Issues (.tst fTld) fTld (rigE (packWord 0xC01#12 fTld) engRegs 0#512) e en x th ∧
      transferOk (e.g.slot (unitIx fTld.b)) (e.g.tile (unitIx fTld.a)) (x.c.toNat % 2 ^ 32) (x.c.toNat / 2 ^ 32) = true ∧
      isOk (tileReadable (rigE (packWord 0xC01#12 fTld) engRegs 0#512) e.cur.gid (unitIx fTld.a)) = true := issues (by decide +kernel)
  obtain ⟨e, en, x, th, h, h2, h3⟩ := h
  exact ⟨_, e, en, x, th, h, h2, unitOk h3⟩
/-- A task whose three records stand in slot 2 (R205). -/
def tkRec : BitVec 512 := BitVec.ofNat 512 0x2220
theorem witness_EngineIssue_ttask : ∃ s e en x th, Issues (.ttask (F 8 2 4 0)) (F 8 2 4 0) s e en x th ∧ Spec.saddr x % 64 = 0 ∧
    SpadOk e th (Spec.saddr x) 64 false none ∧ recOf (e.g.spGet (Spec.saddr x) 64) = tkRec ∧
    taskOk e.k tkRec (e.g.slot (tkAslot tkRec)) (e.g.slot (tkWslot tkRec)) (e.g.slot (tkCslot tkRec)) = true ∧
    s.gongPending (e.g.coreN / 64) < 4096 :=
  ⟨_, issues (s := rigE (packWord 0xC18#12 (F 8 2 4 0)) engRegs tkRec) (by decide +kernel)⟩

theorem witness_GroupMemories_nbpf : ∃ s e en x th, Issues (.nbpf { F 0 0 4 0 with a := .special 66#7 }) { F 0 0 4 0 with a := .special 66#7 } s e en x th ∧ th.live = true :=
  ⟨rigE (packWord 0xB09#12 { F 0 0 4 0 with a := .special 66#7 }) engRegs 0#512, issues (by decide +kernel)⟩
theorem witness_GroupMemories_adcl : ∃ s e en x th, Issues (.adcl (F 1 2 4 6)) (F 1 2 4 6) s e en x th ∧ x.b32.toNat % 4 = 0 ∧
    spOk e.k x.b32.toNat 4096 = true ∧
    (∀ q, q < 4 → SpadOk e th (x.b32.toNat + 4 * (256 * q + x.a32.toNat / 256 ^ q % 256)) 4 false none) ∧ fpTraps th 0#6 = false := by
  have h : ∃ e en x th, Issues (.adcl (F 1 2 4 6)) (F 1 2 4 6) (rigE (packWord 0xB10#12 (F 1 2 4 6)) engRegs 0#512) e en x th ∧
      x.b32.toNat % 4 = 0 ∧ spOk e.k x.b32.toNat 4096 = true ∧
      SpadOk e th (x.b32.toNat + 4 * (256 * 0 + x.a32.toNat / 256 ^ 0 % 256)) 4 false none ∧
      SpadOk e th (x.b32.toNat + 4 * (256 * 1 + x.a32.toNat / 256 ^ 1 % 256)) 4 false none ∧
      SpadOk e th (x.b32.toNat + 4 * (256 * 2 + x.a32.toNat / 256 ^ 2 % 256)) 4 false none ∧
      SpadOk e th (x.b32.toNat + 4 * (256 * 3 + x.a32.toNat / 256 ^ 3 % 256)) 4 false none ∧ fpTraps th 0#6 = false :=
    issues (by decide +kernel)
  obtain ⟨e, en, x, th, h, h1, h2, a, b, c, d, h3⟩ := h
  refine ⟨_, e, en, x, th, h, h1, h2, fun q hq => ?_, h3⟩
  match q, hq with
  | 0, _ => exact a
  | 1, _ => exact b
  | 2, _ => exact c
  | 3, _ => exact d
/-- A TOPK list of one entry's room, empty. -/
theorem witness_GroupMemories_topk : ∃ s e en x th, Issues (.topk (F 1 2 4 6)) (F 1 2 4 6) s e en x th ∧ s.level e.g.cid = 0 ∧
    x.a32.toNat % 8 = 0 ∧ Spec.numOf (e.g.spGet x.a32.toNat 4) = 1 ∧ Spec.numOf (e.g.spGet (x.a32.toNat + 4) 4) = 0 ∧
    SpadOk e th x.a32.toNat 16 false (some 1#3) ∧ SpadOk e th x.a32.toNat 16 true (some 1#3) ∧
    (topkInsert 1 (topkEntries (e.g.spGet (x.a32.toNat + 8) 0) 0) x.b32 x.c32).isSome = true :=
  ⟨_, issues (s := rigE (packWord 0xB11#12 (F 1 2 4 6)) engRegs 1#512) (by decide +kernel)⟩
def fTs : Fields := { F 0 2 4 0 with c := .special 67#7 }
theorem witness_GroupMemories_tsset : ∃ s e en x th, Issues (.tsset fTs) fTs s e en x th ∧ Spec.saddr x % 64 = 0 ∧
    SpadOk e th (Spec.saddr x) 64 false none ∧ recOf (e.g.spGet (Spec.saddr x) 64) = trRec ∧ trOk trRec = true ∧ msorted e.g.slots = true :=
  ⟨rigE (packWord 0xB20#12 fTs) engRegs trRec, issues (by decide +kernel)⟩
theorem witness_GroupMemories_tsget : ∃ s e en x th, Issues (.tsget fTs) fTs s e en x th ∧ Spec.saddr x % 64 = 0 ∧
    Spec.saddr x + 64 ≤ 0x60000 ∧ SpadOk e th (Spec.saddr x) 64 true none :=
  ⟨rigE (packWord 0xB21#12 fTs) [(2, 0x5FFC0#32), (4, 0#32)] trRec, issues (by decide +kernel)⟩
theorem tile_ok (i : Instr) (f : Fields) (s : State) (P : Srcs → Bool)
    (h : (match issue i f s with
      | some (e, _, x, _) => isOk (tileWritable s e.cur.gid e.g (unitIx f.a)) &&
          isOk (tileReadable s e.cur.gid (unitIx f.a)) && P x
      | none => false) = true) : ∃ e en x th, Issues i f s e en x th ∧ tileWritable s e.cur.gid e.g (unitIx f.a) = .ok () ∧
      tileReadable s e.cur.gid (unitIx f.a) = .ok () ∧ P x = true := by
  split at h
  · rename_i e en x th hi
    simp only [Bool.and_eq_true] at h
    exact ⟨e, en, x, th, issue_sound hi, unitOk h.1.1, unitOk h.1.2, h.2⟩
  · cases h
theorem witness_GroupMemories_tzero : ∃ s e en x th, Issues (.tzero { F 0 0 0 0 with a := .special 65#7 }) { F 0 0 0 0 with a := .special 65#7 } s e en x th ∧
    tileWritable s e.cur.gid e.g 1 = .ok () := by
  obtain ⟨e, en, x, th, h, h1, -⟩ := tile_ok (.tzero { F 0 0 0 0 with a := .special 65#7 }) { F 0 0 0 0 with a := .special 65#7 }
    (rigE (packWord 0xC02#12 { F 0 0 0 0 with a := .special 65#7 }) [] 0#512) (fun _ => true) (by decide +kernel)
  exact ⟨_, e, en, x, th, h, h1⟩
theorem witness_GroupMemories_tread : ∃ s e en x th, Issues (.tread { F 1 0 4 0 with a := .special 65#7 }) { F 1 0 4 0 with a := .special 65#7 } s e en x th ∧
    tileReadable s e.cur.gid 1 = .ok () ∧ decide (x.b32.toNat = 2047) = true := by
  obtain ⟨e, en, x, th, h, -, h1⟩ := tile_ok (.tread { F 1 0 4 0 with a := .special 65#7 }) { F 1 0 4 0 with a := .special 65#7 }
    (rigE (packWord 0xC08#12 { F 1 0 4 0 with a := .special 65#7 }) [(4, 2047#32)] 0#512) (fun x => decide (x.b32.toNat = 2047)) (by decide +kernel)
  exact ⟨_, e, en, x, th, h, h1⟩
theorem witness_GroupMemories_twrite : ∃ s e en x th, Issues (.twrite { F 0 0 4 5 with a := .special 65#7, mod := 1#4 }) { F 0 0 4 5 with a := .special 65#7, mod := 1#4 } s e en x th ∧
    tileWritable s e.cur.gid e.g 1 = .ok () ∧ decide (x.b32.toNat = 511) = true := by
  obtain ⟨e, en, x, th, h, h1, -, h2⟩ := tile_ok (.twrite { F 0 0 4 5 with a := .special 65#7, mod := 1#4 }) { F 0 0 4 5 with a := .special 65#7, mod := 1#4 }
    (rigE (packWord 0xC09#12 { F 0 0 4 5 with a := .special 65#7, mod := 1#4 }) [(4, 511#32), (5, 3#32)] 0#512) (fun x => decide (x.b32.toNat = 511))
    (by decide +kernel)
  exact ⟨_, e, en, x, th, h, h1, h2⟩

def fMld : Fields := { F 0 0 0 0 with a := .special 65#7, c := .special 68#7 }
theorem witness_MatrixArrivals : ∃ s e en x pops, Arrives (.mldw fMld) fMld s e en x pops ∧ unitIx fMld.c = 4 :=
  ⟨rigE (packWord 0xC10#12 fMld) [] 0#512, arrives (by decide +kernel)⟩
def fMw : Fields := { F 0 0 4 0 with a := .special 69#7 }
theorem witness_MatrixArrivals_wait : ∃ s e en x th, Issues (.mwait fMw) fMw s e en x th ∧ unitIx fMw.a = 4 + 1 ∧
    x.b.toNat ≤ (e.g.engCtx 5).tl ∧ x.b.toNat ≤ (e.g.engCtx 5).issued ∧ fpTraps th (mxFlags s e.cur.gid 1 x.b.toNat e.cur.t) = false ∧
    x.b = 2#64 :=
  ⟨_, issues (s := rigD (packWord 0xC13#12 fMw) [(4, 2#32), (5, 0#32)] 0#512 0#2 (fun g => { g with
      eng := [(5, { EngCtx.zero with issued := 2, tl := 2 })] })) (by decide +kernel)⟩
def rigMx : State :=
  rigD 0#64 [] descSp 0#2 (fun g => { g with tiles := [(1, tile1)], mx := [(0, { MxCtx.zero with latchCfg := some (1, 1, 1) })] })
/-- An MMAA of mx0 with accumulators from v8 and operand tile 1. -/
def fMma : Fields := { F 8 0 0 0 with a := .special 65#7, c := .special 68#7 }
theorem witness_MatrixInstances : ∃ g th k st, rigMx.group 0 = some g ∧ mget g.threads 0 = some th ∧
    ownerOk rigMx 0 g 0 0 = true ∧ (g.tile 1).en = true ∧ (g.tile 1).nrows ≤ 128 ∧ mldwFits (g.tile 1).fmt.toNat (g.tile 1).ncols = true ∧
    mmaaShape rigMx 0 0 g k fMma 0#64 = some st ∧ mmaaMemberFault th 0 st = none := by
  have h : (match rigMx.group 0, rigMx.kernel 0 with
    | some g, some k => (match mget g.threads 0, mmaaShape rigMx 0 0 g k fMma 0#64 with
      | some th, some st => decide (ownerOk rigMx 0 g 0 0 = true ∧ (g.tile 1).en = true ∧ (g.tile 1).nrows ≤ 128 ∧
          mldwFits (g.tile 1).fmt.toNat (g.tile 1).ncols = true ∧ mmaaMemberFault th 0 st = none)
      | _, _ => false)
    | _, _ => false) = true := by decide +kernel
  split at h
  · rename_i g k hg hk
    split at h
    · rename_i th st ht hs
      obtain ⟨a, b, c, d, f⟩ := of_decide_eq_true h
      exact ⟨g, th, k, st, hg, ht, a, b, c, d, hs, f⟩
    · cases h
  · cases h

/-! ## Witnesses: events -/

/-- Deciding that a computation gives a value with a property. -/
@[reducible] def decO {α : Type} {x : Option α} {P : α → Prop} (d : ∀ a, Decidable (P a)) : Decidable (∃ a, x = some a ∧ P a) :=
  match x with
  | some a => match d a with
    | isTrue h => isTrue ⟨a, rfl, h⟩
    | isFalse h => isFalse (fun ⟨_, e, p⟩ => by cases e; exact h p)
  | none => isFalse (fun ⟨_, e, _⟩ => by cases e)
@[reducible] def decE {ε α : Type} {x : Except ε α} {P : α → Prop} (d : ∀ a, Decidable (P a)) : Decidable (∃ a, x = .ok a ∧ P a) :=
  match x with
  | .ok a => match d a with
    | isTrue h => isTrue ⟨a, rfl, h⟩
    | isFalse h => isFalse (fun ⟨_, e, p⟩ => by cases e; exact h p)
  | .error _ => isFalse (fun ⟨_, e, _⟩ => by cases e)
/-- A proposition from the decision that its computation makes. -/
theorem byDec {p : Prop} (d : Decidable p) (h : (@decide p d) = true) : p := of_decide_eq_true h

/-- The machine of the rig between slots, with translations for every agent of die 0. -/
def base : State :=
  let s := fetchMachine State.reset 64 0
  (s.setDie 0 { s.die 0 with tlb := [codeTlb], tensorTlb := [codeTlb] }).setPart 0
    { s.part 0 with ranges := [(0, ⟨0#40, 0xFFFFFFFFFF#40, 0#40, true, true, true, true⟩)] }
/-- The base with its context changed. -/
def ctxB (h : Context → Context) : State := base.setCtx 0 (h (base.ctx 0))
/-- The base with its group changed. -/
def grpB (h : Group → Group) : State := base.modGroup 0 h
/-- The base with its thread changed. -/
def thrB (h : Thread → Thread) : State := base.modThread 0 0 h

theorem witness_ThreadEvents_entry : ∃ s e, envOf s = some e ∧ ∃ x, fetchWord s e.g.coreN e.g.cid (pcHead e.th.pc) = .ok x ∧
    ∃ y, fetchWords x.2 e.g.coreN e.g.cid (pcHead e.th.pc + 8#64) (hdCnt x.1 + 1) = .ok y ∧
    ∃ l, clauseSlots (decodeVia (y.2.bankOn (e.g.coreN / 64) e.g.cid)) x.1 y.1 = some l ∧
      y.2.thread e.cur.gid e.cur.t = some e.th ∧ l.getD (pcSlot e.th.pc) false = true ∧
      drained s e.cur.gid e.cur.t (hdHz x.1) = true ∧ hdCv x.1 = false :=
  ⟨rig 0 [], byDec (decO fun _ => decE fun _ => decE fun _ => decO fun _ => inferInstance) (by decide +kernel)⟩
def pend7 : Pend := ⟨.ld, [(3, 7#32)], [], [], 0⟩
def pend8 : Pend := ⟨.ld, [(4, 7#32)], [], [], 1⟩
theorem witness_ThreadEvents_return : ∃ (s : State) (g : Group), s.group 0 = some g ∧ ∃ th : Thread, mget g.threads 0 = some th ∧ th.pend = [pend8] ++ pend7 :: [] ∧
    pend7.left = 0 ∧ pend8.left ≠ 0 :=
  ⟨thrB (fun th => { th with pend := [pend8, pend7] }), byDec (decO fun _ => decO fun _ => inferInstance) (by decide +kernel)⟩
theorem witness_ThreadEvents_overrun : ∃ (s : State) (g : Group), s.group 0 = some g ∧ ∃ th : Thread, mget g.threads 0 = some th ∧ th.live = true ∧
    th.msk = true ∧ (s.ctx g.cid).hbudget ≠ 0#32 ∧ (s.ctx g.cid).hbudget.toNat ≤ th.hcount.toNat ∧ th.wait = .mwait 0 1 :=
  ⟨(thrB (fun th => { th with msk := true, hcount := 5#32, wait := .mwait 0 1 })).setCtx 0 { base.ctx 0 with hbudget := 5#32 },
    byDec (decO fun _ => decO fun _ => inferInstance) (by decide +kernel)⟩
theorem witness_ThreadEvents_held : ∃ (s : State) (g : Group), s.group 0 = some g ∧ ∃ th : Thread, mget g.threads 0 = some th ∧ th.wait = .held :=
  ⟨thrB (fun th => { th with wait := .held }), byDec (decO fun _ => decO fun _ => inferInstance) (by decide +kernel)⟩
theorem witness_ThreadEvents_form : ∃ s : State, (s.core 0).port = none ∧ coreCands s (s.core 0) ≠ [] :=
  ⟨base.setCore 0 { base.core 0 with port := none }, by decide +kernel⟩
theorem witness_ThreadEvents_yield : ∃ (s : State) (ig : IssueGroup), (s.core 0).port = some ig ∧ ∃ n, ig.members.head? = some n ∧
    ∃ th, s.thread ig.gid n = some th ∧ ∃ g, s.group ig.gid = some g ∧ ∃ x, slotAt s 0 g.cid th.pc th.rep = .ok x ∧ ig.todo = [] ∧
      64 < ig.cycles + issueCost x.1.word :=
  ⟨let s := rig 0 []
   s.setCore 0 { s.core 0 with port := (s.core 0).port.map (fun ig => { ig with members := [0], todo := [], cycles := 64 }) },
    byDec (decO fun _ => decO fun _ => decO fun _ => decO fun _ => decE fun _ => inferInstance) (by decide +kernel)⟩
theorem witness_ThreadEvents_stay : ∃ (s : State) (ig : IssueGroup), (s.core 0).port = some ig ∧ ∃ n, ig.members.head? = some n ∧
    ∃ th, s.thread ig.gid n = some th ∧ ∃ g, s.group ig.gid = some g ∧ ∃ x, slotAt s 0 g.cid th.pc th.rep = .ok x ∧ ig.todo = [0] :=
  ⟨let s := rig 0 []
   s.setCore 0 { s.core 0 with port := (s.core 0).port.map (fun ig => { ig with members := [0], todo := [0], cycles := 64 }) },
    byDec (decO fun _ => decO fun _ => decO fun _ => decO fun _ => decE fun _ => inferInstance) (by decide +kernel)⟩

/-- The hart of the base with its registers, its group changed. -/
def hartB (x : AMap W64) (h : Group → Group) : State :=
  { (fetchMachine State.reset 32 0).modGroup 0 (fun g => h { g with hart := { fetchHart with x := x } }) with curHart := some 0 }
theorem witness_HartInstructions_jal : ∃ s e, henvOf s = some e ∧
    Spec.rvResult e.h 4 (.jal 1#5 0x100#64) = some (1#5, 0x10004#64, 0x10100#64) :=
  ⟨hartB [] (fun g => g), byDec (decO fun _ => inferInstance) (by decide +kernel)⟩
theorem witness_HartInstructions_branch : ∃ s e, henvOf s = some e ∧
    Spec.rvResult e.h 2 (.branch .ltu 1#5 2#5 0xFFFFFFFFFFFFFFF8#64) = some (0#5, 0#64, 0xFFF8#64) :=
  ⟨hartB [(1, 1#64), (2, 0xFFFFFFFFFFFFFFFF#64)] (fun g => g), byDec (decO fun _ => inferInstance) (by decide +kernel)⟩
theorem witness_HartInstructions_x0 : ∃ s e, henvOf s = some e ∧
    Spec.rvResult e.h 4 (.mulDiv .divu 0#5 1#5 0#5) = some (0#5, 0xFFFFFFFFFFFFFFFF#64, 0x10004#64) :=
  ⟨hartB [(1, 1#64)] (fun g => g), byDec (decO fun _ => inferInstance) (by decide +kernel)⟩
theorem witness_HartInstructions_ecall : ∃ s e, henvOf s = some e ∧ s.ops = [] :=
  ⟨hartB [] (fun g => g), byDec (decO fun _ => inferInstance) (by decide +kernel)⟩

theorem witness_HartInstructions_word : ∃ s e, henvOf s = some e ∧
    Spec.rvResult e.h 4 (.opW .sub 3#5 1#5 2#5) = some (3#5, 0xFFFFFFFF80000000#64, 0x10004#64) :=
  ⟨hartB [(1, 0x80000000#64), (2, 0x100000000#64)] (fun g => g), byDec (decO fun _ => inferInstance) (by decide +kernel)⟩
theorem witness_HartInstructions_divW : ∃ s e, henvOf s = some e ∧
    Spec.rvResult e.h 4 (.mulDivW .div 3#5 1#5 2#5) = some (3#5, 0xFFFFFFFF80000000#64, 0x10004#64) :=
  ⟨hartB [(1, 0x80000000#64), (2, 0xFFFFFFFFFFFFFFFF#64)] (fun g => g), byDec (decO fun _ => inferInstance) (by decide +kernel)⟩
/-- A hart whose pointer x1 is in a page that its core holds translated, with memory below it. -/
def hartM (off : Nat) : State :=
  (hartB [(1, BitVec.ofNat 64 (0x10080 + off)), (2, 0x8000000000000001#64)] (fun g => g)).poke 0 0x10080 (leBytes 8 0x80FF)
/-- What an access of the hart needs, as a computation. -/
def hartTry (s : State) (e : HEnv) (acc : BitVec 2) (a : W64) (n : Nat) (wr : Bool) (at' : Option (BitVec 3)) :
    Option (List Nat × State) :=
  match xlateBytes s.bumpInst (.core e.g.coreN) e.g.cid acc (vaRange a n) with
  | .error _ => none
  | .ok x =>
    match (x.2.sendOut e.g.cid acc x.1).map (fun s => s.arrive e.g.cid (vaRange a n) x.1) with
    | none => none
    | some s2 =>
      if s.level e.g.cid = 0 ∧ s2.level e.g.cid = 0 ∧ s2.stampBad x.1 = none ∧ s2.group e.gid = some e.g ∧
          findRace s2.stamps e.h.hb (e.h.hb.stamp wr at' false e.place) x.1 = none then some (x.1, s2) else none
theorem hartTry_ok {s e acc a n wr at' y} (h : hartTry s e acc a n wr at' = some y) : Spec.HartOk s e acc a n wr at' y.1 y.2 := by
  simp only [hartTry] at h
  split at h
  · cases h
  · rename_i x hx
    split at h
    · cases h
    · rename_i s2 h2
      split at h
      · cases h; rename_i c; exact ⟨⟨c.1, c.2.1⟩, ⟨x.2, hx, h2⟩, c.2.2.1, c.2.2.2.1, c.2.2.2.2⟩
      · cases h
theorem witness_HartMemory_load : ∃ s e, henvOf s = some e ∧ (Spec.xreg e.h 1#5 + 0#64).toNat % 8 = 0 ∧
    ∃ y, hartTry s e 0#2 (Spec.xreg e.h 1#5 + 0#64) 8 false none = some y ∧ Spec.hartSound y.2 e y.1 ∧
      Spec.numOf (y.1.map y.2.mem.get) = 0x80FF :=
  ⟨hartM 0, byDec (decO fun _ => @instDecidableAnd _ _ inferInstance (decO fun _ => @instDecidableAnd _ _
    (List.decidableBAll _ _) inferInstance)) (by decide +kernel)⟩
theorem witness_HartMemory_store : ∃ s e, henvOf s = some e ∧ (Spec.xreg e.h 1#5 + 1#64).toNat % 8 = 0 ∧
    ∃ y, hartTry s e 1#2 (Spec.xreg e.h 1#5 + 1#64) 8 true none = some y ∧ y.2.writeBad (y.2.ctx e.g.cid).keyId y.1 = none :=
  ⟨hartM 7, byDec (decO fun _ => @instDecidableAnd _ _ inferInstance (decO fun _ => inferInstance)) (by decide +kernel)⟩
theorem witness_HartMemory_amo : ∃ s e, henvOf s = some e ∧ (Spec.xreg e.h 1#5).toNat % 4 = 0 ∧
    ∃ y, hartTry s e 3#2 (Spec.xreg e.h 1#5) 4 true (some 4#3) = some y ∧ Spec.hartSound y.2 e y.1 :=
  ⟨hartM 4, byDec (decO fun _ => @instDecidableAnd _ _ inferInstance (decO fun _ =>
    (List.decidableBAll _ _))) (by decide +kernel)⟩
theorem witness_HartMemory_lr : ∃ s e, henvOf s = some e ∧ (Spec.xreg e.h 1#5).toNat % 8 = 0 ∧
    ∃ y, hartTry s e 0#2 (Spec.xreg e.h 1#5) 8 false (some 4#3) = some y ∧ Spec.hartSound y.2 e y.1 :=
  ⟨hartM 0, byDec (decO fun _ => @instDecidableAnd _ _ inferInstance (decO fun _ =>
    (List.decidableBAll _ _))) (by decide +kernel)⟩
theorem witness_HartMemory_sc : ∃ s e, henvOf s = some e ∧ (Spec.xreg e.h 1#5).toNat % 8 = 0 ∧
    ∃ y, hartTry s e 1#2 (Spec.xreg e.h 1#5) 8 true (some 4#3) = some y ∧ y.2.writeBad (y.2.ctx e.g.cid).keyId y.1 = none ∧
      (e.gid, y.1.headD 0 / 8 * 8) ∈ y.2.resv :=
  ⟨{ hartM 0 with resv := [(0, 0x10080)] }, byDec (decO fun _ => @instDecidableAnd _ _ inferInstance (decO fun _ => inferInstance)) (by decide +kernel)⟩
/-- A hart with floating-point registers. -/
def hartF (f : AMap W64) : State := (hartB [] (fun g => g)).modGroup 0 (fun g => { g with hart := { g.hart with f := f } })
theorem witness_HartFloats_add : ∃ s e, henvOf s = some e ∧
    Spec.rvFloat e.h (.farith .add false 0#3 3#5 1#5 2#5) = some (3#5, 0xFFFFFFFF40400000#64, 0#8) :=
  ⟨hartF [(1, 0xFFFFFFFF3F800000#64), (2, 0xFFFFFFFF40000000#64)], byDec (decO fun _ => inferInstance) (by decide +kernel)⟩
theorem witness_HartFloats_cmp : ∃ s e, henvOf s = some e ∧
    Spec.rvFloatX e.h (.fcmp .lt false 3#5 1#5 2#5) = some (3#5, 0#64, 16#8) :=
  ⟨hartF [(1, 0x3F800000#64), (2, 0xFFFFFFFF40000000#64)], byDec (decO fun _ => inferInstance) (by decide +kernel)⟩
theorem witness_HartControl_csr : ∃ s e, henvOf s = some e ∧ (3#3).toNat % 4 ≠ 0 ∧ 1 ≤ (3#12).toNat ∧ (3#12).toNat ≤ 3 :=
  ⟨hartF [], byDec (decO fun _ => inferInstance) (by decide +kernel)⟩
theorem witness_HartControl_rounding : ∃ s e, henvOf s = some e ∧ Spec.rvRm (.fsqrt false 5#3 1#5 2#5) = some 5#3 ∧
    Spec.rounding e.h 5#3 = none :=
  ⟨hartF [], byDec (decO fun _ => inferInstance) (by decide +kernel)⟩

theorem witness_Xkf_uqpush : ∃ s e, henvOf s = some e ∧ e.h.status = .running ∧ e.g.uq.length < 64 ∧ e.g.uq.length = 63 :=
  ⟨hartB [] (fun g => { g with uq := List.replicate 63 0#32 }), byDec (decO fun _ => inferInstance) (by decide +kernel)⟩
theorem witness_Xkf_tcfg : ∃ s e, henvOf s = some e ∧ e.h.status = .running ∧ (Spec.xreg e.h 1#5).toNat < 16 ∧
    (Spec.xreg e.h 2#5).toNat = 15 + 16 * 4095 + 65536 * 255 ∧ tileBusy s e.gid e.g (Spec.xreg e.h 1#5).toNat = false :=
  ⟨hartB [(1, 15#64), (2, BitVec.ofNat 64 (15 + 16 * 4095 + 65536 * 255))] (fun g => g), byDec (decO fun _ => inferInstance) (by decide +kernel)⟩
theorem witness_Xkf_tsset : ∃ s e, henvOf s = some e ∧ (Spec.xreg e.h 1#5).toNat % 64 = 0 ∧ (Spec.xreg e.h 2#5).toNat < 16 ∧
    ∃ x, hRead e 0#2 (Spec.xreg e.h 1#5) 64 s.bumpInst = .ok x ∧ trOk (recOf x.1) = true ∧ x.2.group e.gid = some e.g :=
  ⟨(hartB [(1, 0x10080#64), (2, 15#64)] (fun g => g)).poke 0 0x10080 (leBytes 64 trRec.toNat),
    byDec (decO fun _ => @instDecidableAnd _ _ inferInstance (@instDecidableAnd _ _ inferInstance (decE fun _ => inferInstance))) (by decide +kernel)⟩
def kickB : State :=
  let s := (hartB [(1, 0x10080#64), (2, 1#64)] (fun g => g)).poke 0 0x10080 (leBytes 64 cpRec.toNat)
  { s with kernels := mmap (fun _ k => { k with desc := descSp }) s.kernels }
theorem witness_Xkf_cpkick : ∃ s e, henvOf s = some e ∧ (Spec.xreg e.h 1#5).toNat % 64 = 0 ∧ (Spec.xreg e.h 2#5).toNat = 1 ∧
    ∃ x, hRead e 0#2 (Spec.xreg e.h 1#5) (64 * 1) s.bumpInst = .ok x ∧ x.2.group e.gid = some e.g ∧
      kickReqs e.k e.g (recsOf x.1 1) = some [(cpRec, none, none)] ∧ cqCtx cpRec = 0 :=
  ⟨kickB,
    byDec (decO fun _ => @instDecidableAnd _ _ inferInstance (@instDecidableAnd _ _ inferInstance (decE fun _ => inferInstance))) (by decide +kernel)⟩
theorem witness_Xkf_fsdesc : ∃ s e, henvOf s = some e ∧ (Spec.xreg e.h 1#5).toNat % 64 = 0 ∧ (Spec.xreg e.h 2#5).toNat < 16 ∧
    ∃ x, hRead e 0#2 (Spec.xreg e.h 1#5) 64 s.bumpInst = .ok x ∧ recOf x.1 = 0#512 ∧
      x.2.group e.gid = some e.g ∧ x.2.level e.g.cid = 0 ∧ (x.2.ctx e.g.cid).tables = (s.ctx e.g.cid).tables :=
  ⟨hartB [(1, 0x10080#64), (2, 15#64)] (fun g => g),
    byDec (decO fun _ => @instDecidableAnd _ _ inferInstance (@instDecidableAnd _ _ inferInstance (decE fun _ => inferInstance))) (by decide +kernel)⟩
theorem witness_Xkf_rest : ∃ s e, henvOf s = some e ∧ Spec.xreg e.h 1#5 = 2#64 ∧ (Spec.xreg e.h 2#5).toNat = 64 * 15 + 16 ∧ s.level e.g.cid = 0 ∧
    e.g.uq.length ≤ min (Spec.xreg e.h 3#5).toNat 64 ∧ e.g.uq.length = 64 :=
  ⟨hartB [(1, 2#64), (2, 976#64), (3, 64#64)] (fun g => { g with uq := List.replicate 64 0#32 }), byDec (decO fun _ => inferInstance) (by decide +kernel)⟩
/-- The hart of the base at a descriptor, slot 15, with a radius block. -/
def hartFs (d : BitVec 512) : State :=
  ((hartB [(1, 0x10040#64), (2, 15#64)] (fun g => g)).poke 0 0x10040 (leBytes 64 d.toNat)).poke 0 0x10080 (leBytes 64 fsRad.toNat)
theorem witness_Xkf_fsdescInstall : ∃ s e, henvOf s = some e ∧ (Spec.xreg e.h 1#5).toNat % 64 = 0 ∧ (Spec.xreg e.h 2#5).toNat < 16 ∧
    ∃ x, hRead e 0#2 (Spec.xreg e.h 1#5) 64 s.bumpInst = .ok x ∧ recOf x.1 ≠ 0#512 ∧ fdOk (recOf x.1) = true ∧
      ∃ y, hRead e 0#2 (BitVec.ofNat 64 (fdRadr (recOf x.1))) 64 x.2 = .ok y ∧ y.2.group e.gid = some e.g ∧ y.2.level e.g.cid = 0 ∧
        (y.2.ctx e.g.cid).tables = (s.ctx e.g.cid).tables ∧ radOk (recOf x.1) (recOf y.1) = true ∧ fsRoom y.2 e.k (recOf x.1) 15 (e.g.coreN / 64) = false :=
  ⟨hartFs fsDesc2, byDec (decO fun _ => @instDecidableAnd _ _ inferInstance (@instDecidableAnd _ _ inferInstance
    (decE fun _ => @instDecidableAnd _ _ inferInstance (@instDecidableAnd _ _ inferInstance
    (decE fun _ => inferInstance))))) (by decide +kernel)⟩
theorem witness_Xkf_fsdescRoom : ∃ s e, henvOf s = some e ∧
    ∃ x, hRead e 0#2 (Spec.xreg e.h 1#5) 64 s.bumpInst = .ok x ∧ recOf x.1 ≠ 0#512 ∧ fdOk (recOf x.1) = true ∧
      ∃ y, hRead e 0#2 (BitVec.ofNat 64 (fdRadr (recOf x.1))) 64 x.2 = .ok y ∧ y.2.group e.gid = some e.g ∧ y.2.level e.g.cid = 0 ∧
        (y.2.ctx e.g.cid).tables = (s.ctx e.g.cid).tables ∧ radOk (recOf x.1) (recOf y.1) = true ∧ fsRoom y.2 e.k (recOf x.1) 15 (e.g.coreN / 64) = true :=
  ⟨(hartFs fsDesc2).setCtx 0 { (hartFs fsDesc2).ctx 0 with fsa := 4096#18 }, byDec (decO fun _ =>
    (decE fun _ => @instDecidableAnd _ _ inferInstance (@instDecidableAnd _ _ inferInstance
    (decE fun _ => inferInstance)))) (by decide +kernel)⟩
theorem witness_Xkf_fsdescBad : ∃ s e, henvOf s = some e ∧ ∃ x, hRead e 0#2 (Spec.xreg e.h 1#5) 64 s.bumpInst = .ok x ∧
    recOf x.1 ≠ 0#512 ∧ fdOk (recOf x.1) = false ∧ x.2.group e.gid = some e.g :=
  ⟨hartFs 1#512, byDec (decO fun _ => decE fun _ => inferInstance) (by decide +kernel)⟩

/-- An operation of the group of the base. -/
def opE (k : EngKind) : EngOp :=
  { po := 0, gid := some 0, thread := some 0, cid := 0, wid := 0#64, ectx := 0, num := 1, kind := k, done := [], err := none,
    recd := none, stall := none, held := false, flags := 0#6, ended := false, hb := HbState.fresh 5, place := ⟨0, 0, 0, 0, 0⟩ }
/-- The base with that operation, a scratchpad and a communicator of one rank. -/
def opB (k : EngKind) : State :=
  let s := { base with ops := [(0, opE k)], kernels := mmap (fun _ k => { k with desc := descSp }) base.kernels }
  s.setPart 0 { s.part 0 with comms := [(3, comm0)] }
theorem witness_EngineEvents_data : ∃ (s : State) (o : EngOp), mget s.ops 0 = some o ∧ ∃ c, o.shape = some c ∧ o.gid = some 0 ∧
    o.kind = .copy cpRec none none ∧ cqCbe cpRec = false ∧ o.goes = true ∧ 1 ≤ 16 ∧ 0 + 16 ≤ c.total ∧ o.done = [] ∧
    ∃ s1, moveBytes s (o.sideAgent c.src) (o.sideAgent c.dst) c.src.inSp c.dst.inSp ((upFrom 0 16).map (c.at c.src)) ((upFrom 0 16).map (c.at c.dst)) = .ok s1 ∧
      mget s1.ops 0 = some o :=
  ⟨opB (.copy cpRec none none), opE (.copy cpRec none none), by decide +kernel, _, rfl,
    byDec (@instDecidableAnd _ _ inferInstance (@instDecidableAnd _ _ inferInstance (@instDecidableAnd _ _ inferInstance
      (@instDecidableAnd _ _ inferInstance (@instDecidableAnd _ _ inferInstance (@instDecidableAnd _ _ inferInstance
      (@instDecidableAnd _ _ inferInstance (decE fun _ => inferInstance)))))))) (by decide +kernel)⟩
theorem witness_EngineEvents_copy : ∃ (s : State) (o : EngOp), mget s.ops 0 = some o ∧ o.kind = .copy cpRec none none ∧
    copyBytes cpRec none none ≤ o.count ∧ cqCwe cpRec = false ∧ o.err = none ∧ ∃ g : Group, s.group 0 = some g ∧
    o.num = (g.engCtx o.ectx).tl + 1 ∧ (g.engCtx o.ectx).beyond = [] ∧ msorted s.ops = true :=
  ⟨{ opB (.copy cpRec none none) with ops := [(0, { opE (.copy cpRec none none) with done := [(0, 16)] })] },
    { opE (.copy cpRec none none) with done := [(0, 16)] }, by decide +kernel, rfl, by decide +kernel, by decide +kernel, rfl,
    byDec (decO fun _ => inferInstance) (by decide +kernel)⟩
theorem witness_EngineEvents_gather : ∃ (s : State) (o : EngOp), mget s.ops 0 = some o ∧ o.kind = .gath trRec 0 0x40 ∧ o.goes = true ∧
    ∃ s1, moveBytes s o.agent o.agent (trSp trRec) true (rowPlaces trRec 0)
        ((upFrom 0 (rowPlaces trRec 0).length).map (fun j => (0x40 + j, ((rowPlaces trRec 0).getD j (0, 8)).2))) = .ok s1 ∧
      msorted s1.ops = true ∧ ∃ g : Group, s.group 0 = some g ∧ (s1.group 0).map (fun g => g.engCtx o.ectx) = some (g.engCtx o.ectx) ∧
      o.num = (g.engCtx o.ectx).tl + 1 ∧ (g.engCtx o.ectx).beyond = [] :=
  ⟨opB (.gath trRec 0 0x40), opE (.gath trRec 0 0x40), by decide +kernel, rfl, rfl,
    byDec (decE fun _ => @instDecidableAnd _ _ inferInstance (decO fun _ => inferInstance)) (by decide +kernel)⟩
theorem witness_EngineEvents_tst : ∃ (s : State) (o : EngOp), mget s.ops 0 = some o ∧ o.kind = .tst 1 trRec 0 0 tile1 ∧ o.goes = true ∧
    ∃ s1, storeTile s o.agent trRec 0 0 tile1 0 tile1.nrows = .ok s1 ∧
      msorted s1.ops = true ∧ ∃ g : Group, s.group 0 = some g ∧ (s1.group 0).map (fun g => g.engCtx o.ectx) = some (g.engCtx o.ectx) ∧
      o.num = (g.engCtx o.ectx).tl + 1 ∧ (g.engCtx o.ectx).beyond = [] :=
  ⟨opB (.tst 1 trRec 0 0 tile1), opE (.tst 1 trRec 0 0 tile1), by decide +kernel, rfl, rfl,
    byDec (decE fun _ => @instDecidableAnd _ _ inferInstance (decO fun _ => inferInstance)) (by decide +kernel)⟩
theorem witness_EngineEvents_tld : ∃ (s : State) (o : EngOp), mget s.ops 0 = some o ∧ o.kind = .tld 1 trRec 0 0 ∧ o.goes = true ∧
    ∃ g : Group, s.group 0 = some g ∧ ∃ x, loadTile s o.agent trRec 0 0 (g.tile 1) 0 (g.tile 1).nrows = .ok x ∧
      (x.2.group 0).isSome = true :=
  ⟨opB (.tld 1 trRec 0 0), opE (.tld 1 trRec 0 0), by decide +kernel, rfl, rfl,
    byDec (decO fun _ => decE fun _ => inferInstance) (by decide +kernel)⟩
/-- An entry of the Gong, of a priority. -/
def gongE (k : GongKind) (prio : Nat) : GongEntry :=
  { kind := k, cid := 0, prio := prio, aged := false, sent := false, age := 0, waits := [] }
theorem witness_EngineEvents_dispatch : ∃ (s : State) (o : EngOp), mget s.ops 0 = some o ∧ o.kind = .task 0#512 trRec trRec trRec none ∧
    15 / 64 = o.place.die ∧ coreIn (s.part (vfOf o.cid)) 15 = true ∧ (s.core 15).mxq = [] ∧ taskOn s 15 = false ∧
    keyBlocked s o.place.die o.cid (.task 0) = false ∧ s.gongFirst o.place.die (.task 0) (readyTask s) = true ∧
    (s.die 0).gong.length = 2 :=
  ⟨let s := opB (.task 0#512 trRec trRec trRec none)
   s.setDie 0 { s.die 0 with gong := [gongE (.node 0 0) 3, gongE (.task 0) 0] }, opE (.task 0#512 trRec trRec trRec none), by decide +kernel⟩
theorem witness_EngineEvents_task : ∃ (s : State) (o : EngOp), mget s.ops 0 = some o ∧ o.kind = .task 0#512 trRec trRec trRec (some 0) ∧
    o.goes = true ∧ s.tokenFree o.place.die = true ∧ tkCwe 0#512 = false ∧ ∃ x, taskRun s o.agent 0#512 trRec trRec trRec = .ok x ∧ msorted x.2.ops = true :=
  ⟨opB (.task 0#512 trRec trRec trRec (some 0)), opE (.task 0#512 trRec trRec trRec (some 0)), by decide +kernel, rfl, rfl,
    by decide +kernel, by decide +kernel, byDec (decE fun _ => inferInstance) (by decide +kernel)⟩
/-- An all-reduce of one 4-byte element from 0x10000 to 0x10100. -/
def collRec : BitVec 512 := BitVec.ofNat 512 (0x10000 + 0x10100 * 2 ^ 64 + 2 ^ 128)
theorem witness_EngineEvents_coll : ∃ (s : State) (o : EngOp), mget s.ops 0 = some o ∧ o.kind = .coll collRec 0 0 ∧ o.goes = true ∧
    o.done = [] ∧ s.calls = [] ∧ ∃ n, collEntry s o.cid (cdComm collRec) = some n ∧ n.2.np = 1#16 ∧ n.2.nloc = 1#16 ∧ n.2.rbase = 0#16 ∧
    ∃ x, engGet s o.agent false (cdSrc collRec) (collIn collRec 1 0) = .ok x ∧ x.1.length = collIn collRec 1 0 ∧ x.2.calls = [] ∧
    ∃ s2, engPut (x.2.spend o.cid 0) o.agent false (cdDst collRec) (collOut collRec 0 [] [x.1]) = .ok s2 ∧ s2.calls = [] ∧ msorted s2.ops = true :=
  ⟨opB (.coll collRec 0 0), opE (.coll collRec 0 0), by decide +kernel, rfl, rfl, rfl, by decide +kernel,
    byDec (decO fun _ => @instDecidableAnd _ _ inferInstance (@instDecidableAnd _ _ inferInstance (@instDecidableAnd _ _ inferInstance
      (decE fun _ => @instDecidableAnd _ _ inferInstance (@instDecidableAnd _ _ inferInstance (decE fun _ => inferInstance))))))
      (by decide +kernel)⟩
/-- The base with queue 0 of its context changed. -/
def qB (h : Queue → Queue) : State := base.modQueue 0 0 (fun u => h { u with en := true, lqlen := 4#4, st := .idle, qbase := 0x10000#56 })
def pkt (w : Nat) : Pkt := ⟨5#32, 7, BitVec.ofNat 512 w, none, [], false⟩
def pkOp : EngOp := { opE (.packet 0 0 7 0 0 16) with gid := none, done := [(0, 16)] }
theorem witness_EngineEvents_packet : ∃ (s : State) (o : EngOp) (p : Pkt), mget s.ops 0 = some o ∧ o.kind = .packet 0 0 7 0 0 16 ∧
    16 ≤ o.count ∧ s.procGoes 0 = true ∧ (s.queue 0 0).active = [p] ∧ p.ser = 7 ∧ pkSig p.body = 0 ∧
    o.err = none ∧ msorted s.ops = true :=
  ⟨{ qB (fun u => { u with active := [pkt 4] }) with ops := [(0, pkOp)] }, pkOp, pkt 4, by decide +kernel⟩

def mxE (k : MxKind) (st : MxStage) (v : List (Nat × Nat × W32)) : MxOp :=
  { gid := 0, mx := 0, batch := none, kind := k, stage := st, vals := v, flags := [], err := false, recd := none, stall := none, hb := HbState.fresh 5 }
def mxB (o : MxOp) : State :=
  let s := { rigMx with cur := none, mxops := [(0, o)] }
  s.setCore 0 { s.core 0 with mxq := [0, 1] }
def step1 : MmaaStep :=
  { mod := 0#4, tile := some 1, arec := 0#512, i0 := 0, i1 := 0, m := 1, n := 1, k := 1, afmt := 1, wfmt := 1, d := 8, rg := 1, subS := 1, sg := 0, peers := [0] }
theorem witness_MatrixEvents_mldw : ∃ (s : State) (o : MxOp), (s.core 0).mxq = [0, 1] ∧ mget s.mxops 0 = some o ∧ o.stage = .requested ∧
    o.stall = none ∧ o.kind = .mldw 1 ∧ pendingTld s o.gid 1 = false ∧ (s.group o.gid).isSome = true :=
  ⟨mxB (mxE (.mldw 1) .requested []), mxE (.mldw 1) .requested [], by decide +kernel⟩
theorem witness_MatrixEvents_mscale : ∃ (s : State) (o : MxOp), (s.core 0).mxq = [0, 1] ∧ mget s.mxops 0 = some o ∧ o.stage = .requested ∧
    o.stall = none ∧ o.kind = .mscale none ∧ (s.group o.gid).isSome = true :=
  ⟨mxB (mxE (.mscale none) .requested []), mxE (.mscale none) .requested [], by decide +kernel⟩
theorem witness_MatrixEvents_mmaa : ∃ (s : State) (o : MxOp), (s.core 0).mxq = [0, 1] ∧ mget s.mxops 0 = some o ∧ o.stage = .requested ∧
    o.stall = none ∧ o.kind = .mmaa step1 ∧ pendingTld s o.gid 1 = false ∧ (s.die (0 / 64)).inuse < (s.die (0 / 64)).size.toNat ∧
    ∃ g : Group, s.group o.gid = some g ∧ ∃ x, aRows (s.takeToken (0 / 64)) (o.agent s) g step1 (g.mxCtx o.mx).override = .ok x ∧ x.2.mxops = s.mxops :=
  ⟨mxB (mxE (.mmaa step1) .requested []), mxE (.mmaa step1) .requested [],
    byDec (@instDecidableAnd _ _ inferInstance (@instDecidableAnd _ _ inferInstance (@instDecidableAnd _ _ inferInstance
      (@instDecidableAnd _ _ inferInstance (@instDecidableAnd _ _ inferInstance (@instDecidableAnd _ _ inferInstance
      (@instDecidableAnd _ _ inferInstance (decO fun _ => decE fun _ => inferInstance)))))))) (by decide +kernel)⟩
theorem witness_MatrixEvents_last : ∃ (s : State) (o : MxOp), (s.core 0).mxq = [0, 1] ∧ mget s.mxops 0 = some o ∧ o.stage = .accepted ∧
    o.stall = none ∧ recordLate s (o.agent s).cid o.recd = false ∧ o.vals = [(0, 8, 7#32)] ∧
    ∃ g : Group, s.group o.gid = some g ∧ ∃ th, mget g.threads 0 = some th ∧ th.live = true :=
  ⟨mxB (mxE (.mmaa step1) .accepted [(0, 8, 7#32)]), mxE (.mmaa step1) .accepted [(0, 8, 7#32)],
    byDec (@instDecidableAnd _ _ inferInstance (@instDecidableAnd _ _ inferInstance (@instDecidableAnd _ _ inferInstance
      (@instDecidableAnd _ _ inferInstance (@instDecidableAnd _ _ inferInstance (@instDecidableAnd _ _ inferInstance
      (decO fun _ => decO fun _ => inferInstance))))))) (by decide +kernel)⟩
theorem witness_MatrixEvents_exited : ∃ (s : State) (o : MxOp), (s.core 0).mxq = [0, 1] ∧ mget s.mxops 0 = some o ∧ o.stage = .accepted ∧
    o.kind = .mmaa step1 ∧ 0 ∈ step1.peers ∧ ∃ g : Group, s.group o.gid = some g ∧ ∃ th, mget g.threads 0 = some th ∧ th.live = false :=
  ⟨(mxB (mxE (.mmaa step1) .accepted [(0, 8, 7#32)])).modThread 0 0 (fun th => { th with live := false }),
    mxE (.mmaa step1) .accepted [(0, 8, 7#32)],
    byDec (@instDecidableAnd _ _ inferInstance (@instDecidableAnd _ _ inferInstance (@instDecidableAnd _ _ inferInstance
      (@instDecidableAnd _ _ inferInstance (@instDecidableAnd _ _ inferInstance (decO fun _ => decO fun _ => inferInstance))))))
      (by decide +kernel)⟩
theorem witness_MatrixEvents_batch : ∃ (s : State) (g : Group), s.group 0 = some g ∧ (g.engCtx 4).tl + 1 ≤ (g.engCtx 4).issued ∧
    (g.engCtx 4).beyond = [] ∧ s.ops = [] ∧ s.mxops = [] :=
  ⟨grpB (fun g => { g with eng := [(4, { EngCtx.zero with issued := 1 })] }), byDec (decO fun _ => inferInstance) (by decide +kernel)⟩

/-- The base with its kernel changed. -/
def kerB (h : Kernel → Kernel) : State := { base with kernels := mmap (fun _ k => h k) base.kernels }
theorem witness_GroupEvents_place : ∃ (s : State) (k : Kernel), s.kernel 0 = some k ∧ k.st = .placing ∧ k.nextGrp < k.groupCount ∧
    s.ctxActive k.cid = true ∧ k.clSize = 1 ∧ coreIn (s.part (vfOf k.cid)) 15 = true ∧
    heldImages s (vfOf k.cid) < poolImages s (vfOf k.cid) ∧ outranked s 0 k (15 / 64) = false ∧ s.groups = [] ∧
    ∃ x, (roomOf s 15).take k = some x ∧ x.1 = [0] :=
  ⟨{ kerB (fun k => { k with st := .placing, nextGrp := 0 }) with groups := [] },
    byDec (decO fun _ => @instDecidableAnd _ _ inferInstance (@instDecidableAnd _ _ inferInstance (@instDecidableAnd _ _ inferInstance
      (@instDecidableAnd _ _ inferInstance (@instDecidableAnd _ _ inferInstance (@instDecidableAnd _ _ inferInstance
      (@instDecidableAnd _ _ inferInstance (@instDecidableAnd _ _ inferInstance (decO fun _ => inferInstance))))))))) (by decide +kernel)⟩
/-- At the repeatable level the core is the fixed one. -/
theorem witness_GroupEvents_placeFixed : ∃ (s : State) (k : Kernel), s.kernel 0 = some k ∧ k.st = .placing ∧ k.nextGrp < k.groupCount ∧
    s.ctxActive k.cid = true ∧ k.clSize = 1 ∧ coreIn (s.part (vfOf k.cid)) 0 = true ∧ s.level k.cid ≠ 0 ∧
    heldImages s (vfOf k.cid) < poolImages s (vfOf k.cid) ∧ outranked s 0 k (0 / 64) = false ∧ s.groups = [] ∧
    [0] = fixedCores s k k.nextGrp ∧ ∃ x, (roomOf s 0).take k = some x ∧ x.1 = [0] :=
  ⟨let s := kerB (fun k => { k with st := .placing, nextGrp := 0 })
   { s.setPart 0 { s.part 0 with level := 1#2 } with groups := [] },
    byDec (decO fun _ => @instDecidableAnd _ _ inferInstance (@instDecidableAnd _ _ inferInstance (@instDecidableAnd _ _ inferInstance
      (@instDecidableAnd _ _ inferInstance (@instDecidableAnd _ _ inferInstance (@instDecidableAnd _ _ inferInstance
      (@instDecidableAnd _ _ inferInstance (@instDecidableAnd _ _ inferInstance (@instDecidableAnd _ _ inferInstance
      (@instDecidableAnd _ _ inferInstance (decO fun _ => inferInstance))))))))))) (by decide +kernel)⟩
theorem witness_GroupEvents_start : ∃ (s : State) (g : Group), s.group 0 = some g ∧ g.loc = .placed 0 0 ∧ (s.ctx g.cid).st = .active ∧
    staggerOk s (0 / 64) g.kid = true ∧ g.stall = none ∧ ∃ k, s.kernel g.kid = some k ∧ kdTsmask k.desc = 0 ∧ kdSentry k.desc = 2#64 :=
  ⟨(kerB (fun k => { k with desc := BitVec.ofNat 512 (2 ^ 65) })).modGroup 0 (fun g => { g with loc := .placed 0 0 }),
    byDec (decO fun _ => @instDecidableAnd _ _ inferInstance (@instDecidableAnd _ _ inferInstance (@instDecidableAnd _ _ inferInstance
      (@instDecidableAnd _ _ inferInstance (decO fun _ => inferInstance))))) (by decide +kernel)⟩
theorem witness_GroupEvents_evict : ∃ (s : State) (g : Group), s.group 0 = some g ∧ ∃ k, s.kernel g.kid = some k ∧
    clusterGroups s k g = [(0, g)] ∧ g.loc = .resident 0 0 ∧ g.preempt = true ∧
    evictable s 0 g = true ∧ (∀ c ∈ s.cores.map (·.1), msorted (s.core c).slots = true) :=
  ⟨grpB (fun g => { thr (fun th => { th with wait := .xbar }) g with preempt := true }),
    byDec (decO fun _ => decO fun _ => inferInstance) (by decide +kernel)⟩
theorem witness_GroupEvents_stay : ∃ (s : State) (g : Group), s.group 0 = some g ∧ ∃ k, s.kernel g.kid = some k ∧
    clusterGroups s k g = [(0, g)] ∧ g.isResident = true ∧ g.preempt = true ∧ evictable s 0 g = false :=
  ⟨{ grpB (fun g => { g with preempt := true }) with ops := [(0, opE (.copy cpRec none none))] },
    byDec (decO fun _ => decO fun _ => inferInstance) (by decide +kernel)⟩
theorem witness_GroupEvents_restore : ∃ (s : State) (g : Group), s.group 0 = some g ∧ g.loc = .evicted (0 / 64) ∧
    coreIn (s.part (vfOf g.cid)) 0 = true ∧ ∃ k, s.kernel g.kid = some k ∧
    (clusterGroups s k g).filter (fun e => e.2.isEvicted) = [(0, g)] ∧ restorable s g = true ∧ g.lbarDead = false ∧ s.level g.cid = 0 ∧
    outranked s g.kid k (0 / 64) = false ∧ clusterDie s k g = none ∧ roomFor k g (roomOf s 0) = true :=
  ⟨(base.setCore 0 { base.core 0 with slots := [], port := none }).modGroup 0 (fun g => { g with loc := .evicted 0 }),
    byDec (decO fun _ => @instDecidableAnd _ _ inferInstance (@instDecidableAnd _ _ inferInstance (decO fun _ => inferInstance))) (by decide +kernel)⟩
/-- At the repeatable level the group goes back to its fixed core, whichever die it left. -/
theorem witness_GroupEvents_restoreFixed : ∃ (s : State) (g : Group), s.group 0 = some g ∧ g.loc = .evicted 3 ∧
    coreIn (s.part (vfOf g.cid)) 0 = true ∧ ∃ k, s.kernel g.kid = some k ∧
    (clusterGroups s k g).filter (fun e => e.2.isEvicted) = [(0, g)] ∧ restorable s g = true ∧ g.lbarDead = false ∧ s.level g.cid ≠ 0 ∧
    0 = fixedCore s k g ∧ outranked s g.kid k (0 / 64) = false ∧ clusterDie s k g = none ∧ roomFor k g (roomOf s 0) = true :=
  ⟨let s := (base.setCore 0 { base.core 0 with slots := [], port := none }).modGroup 0 (fun g => { g with loc := .evicted 3 })
   s.setPart 0 { s.part 0 with level := 1#2 },
    byDec (decO fun _ => @instDecidableAnd _ _ inferInstance (@instDecidableAnd _ _ inferInstance (decO fun _ => inferInstance))) (by decide +kernel)⟩

theorem witness_KernelEvents_merging : ∃ (s : State) (k : Kernel), s.kernel 0 = some k ∧ k.st = .running ∧ kernelDrained s 0 k = true ∧
    s.level k.cid ≠ 0 :=
  ⟨let s := kerB (fun k => { k with retired := 1 }); s.setPart 0 { s.part 0 with level := 1#2 },
    byDec (decO fun _ => inferInstance) (by decide +kernel)⟩
theorem witness_KernelEvents_closing : ∃ (s : State) (k : Kernel), s.kernel 0 = some k ∧ k.st = .running ∧ kernelDrained s 0 k = true ∧
    s.level k.cid = 0 ∧ s.procGoes 0 = true ∧ k.origin = .packet 0 0 7 ∧ (s.queue 0 0).active = [pkt 1] ∧ (pkt 1).ser = 7 ∧ pkSig (pkt 1).body = 0 ∧
    msorted s.kernels = true :=
  ⟨{ qB (fun u => { u with active := [pkt 1] }) with
      kernels := mmap (fun _ k => { k with retired := 1, origin := .packet 0 0 7 }) base.kernels },
    byDec (decO fun _ => inferInstance) (by decide +kernel)⟩
/-- An update of the thread of the base. -/
def rec1 : MRec :=
  { thread := some 0, po := 0, wid := 0#64, va := 0x10100#64, eng := none, item := .write [(0x10100, 7#8)], spill := [], home := 0, bad := false }
theorem witness_KernelEvents_merge : ∃ (s : State) (k : Kernel), s.kernel 0 = some k ∧ k.st = .merging ∧ (s.ctx k.cid).st = .active ∧
    mergeRecs s 0 = [(0, rec1)] ∧ s.badUnits = [] ∧ k.snapPages = [] ∧ s.unitKey = [(1024, (s.ctx k.cid).keyId, 1024)] ∧
    (Spec.mergeAll k s (Spec.singles [(0, rec1)]) s.mem []).2 = 0 ∧
    (Spec.mergeAll k s (Spec.singles [(0, rec1)]) s.mem []).1.get 0x10100 = 7#8 :=
  ⟨(kerB (fun k => { k with st := .merging })).modGroup 0 (fun g => { g with pendW := [rec1] }),
    byDec (decO fun _ => inferInstance) (by decide +kernel)⟩
theorem unitsSound_of {s : State} {k : Kernel} (h1 : s.badUnits = []) (h2 : k.snapPages = []) {n : Nat}
    (h3 : s.unitKey = [(n, (s.ctx k.cid).keyId, n)]) : Spec.unitsSound s k := by
  refine ⟨h1, ?_, ?_⟩ <;> simp only [Kernel.pageNow, h2, h3, mget, List.find?_nil]
  · exact fun _ _ h => h
  · intro a x h
    split at h
    · rename_i c; cases h; rw [c]
    · cases h
/-- Two tasks that wrote one byte: the second write is dropped. -/
theorem test_merge_conflict : ((base.kernel 0).map (fun k =>
    let m := Spec.mergeAll k base [(0, rec1), (1, { rec1 with item := .write [(0x10100, 9#8)] })] base.mem []
    (m.1.get 0x10100, m.2))) = some (7#8, 1) := by decide +kernel
theorem witness_KernelEvents_aging : ∃ (s : State) (e f : GongEntry), (s.die 0).gong = [f] ++ e :: [] ∧ e.sent = false ∧ 65536 ≤ e.age ∧
    f.sent = false ∧ f.age < 65536 :=
  ⟨base.setDie 0 { base.die 0 with gong := [gongE (.kernel 1) 0, { gongE (.kernel 0) 0 with age := 65536 }] },
    { gongE (.kernel 0) 0 with age := 65536 }, gongE (.kernel 1) 0, by decide +kernel⟩

/-- A copy node whose body is at 0x10100. -/
def ndCopy : BitVec 512 := BitVec.ofNat 512 (2 + 0x10100 * 2 ^ 224)
/-- Its body: a COPY packet of 16 bytes. -/
def bdCopy : BitVec 512 := BitVec.ofNat 512 (4 + 0x10000 * 2 ^ 64 + 0x10010 * 2 ^ 128 + 16 * 2 ^ 192)
def graph1 (n : List (BitVec 512 × NodeState)) : Graph :=
  { cid := 0, q := 0, ser := 7, die := 0, prio := 0#2, nodes := n, bodies := n.map (fun _ => ⟨some bdCopy, none⟩), birth := [], vcs := [] }
theorem witness_GraphEvents_dispatch : ∃ s : State, s.graph 0 = some (graph1 [(ndCopy, .waiting)]) ∧
    (graph1 [(ndCopy, .waiting)]).bodies[0]? = some ⟨some bdCopy, none⟩ ∧ s.ctxActive 0 = true ∧ ndPreds ndCopy = [] ∧
    keyBlocked s 0 0 (.node 0 0) = false ∧ s.gongFirst 0 (.node 0 0) (readyNode s (ndType ndCopy)) = true ∧ ndType ndCopy = 2 ∧
    packetOk bdCopy = true ∧ pkType bdCopy = 4 :=
  ⟨{ qB id with graphs := [(0, graph1 [(ndCopy, .waiting)])] }, by decide +kernel⟩
def ndOp : EngOp := { opE (.nodeCopy 0 0 0 0 16) with gid := none, done := [(0, 16)] }
theorem witness_GraphEvents_node : ∃ s : State, s.graph 0 = some (graph1 [(ndCopy, .dispatched), (ndCopy, .waiting)]) ∧
    (nodeOp s 0 0 = some (0, ndOp)) ∧ 16 ≤ ndOp.count ∧ ndOp.err = none ∧ msorted s.ops = true :=
  ⟨{ qB id with ops := [(0, ndOp)], graphs := [(0, graph1 [(ndCopy, .dispatched), (ndCopy, .waiting)])] }, by decide +kernel⟩
theorem witness_GraphEvents_end : ∃ s : State, s.graph 0 = some (graph1 [(ndCopy, .complete)]) ∧ s.procGoes 0 = true ∧
    (s.queue 0 0).active = [pkt 6] ∧ (pkt 6).ser = (graph1 [(ndCopy, .complete)]).ser ∧ pkSig (pkt 6).body = 0 ∧ msorted s.graphs = true :=
  ⟨{ qB (fun u => { u with active := [pkt 6] }) with graphs := [(0, graph1 [(ndCopy, .complete)])] }, by decide +kernel⟩

theorem witness_QueueRegisters : ∃ s : State, s.hasCtx 0 = true ∧ (s.queue 0 15).en = false ∧ (s.queue 0 15).qbase.toNat % 64 = 0 ∧
    4 ≤ (s.queue 0 15).lqlen.toNat :=
  ⟨base.modQueue 0 15 (fun u => { u with lqlen := 4#4 }), by decide +kernel⟩
theorem witness_QueueRegisters_bad : ∃ s : State, s.hasCtx 0 = true ∧ (s.queue 0 15).en = false ∧ (s.queue 0 15).lqlen.toNat < 4 :=
  ⟨base, by decide +kernel⟩
theorem witness_QueueRegisters_over : ∃ (s : State) (w : W32), (s.queue 0 0).en = true ∧ (w - (s.queue 0 0).widx).toNat < 2 ^ 31 ∧
    2 ^ (s.queue 0 0).lqlen.toNat < (w - (s.queue 0 0).ridx).toNat :=
  ⟨qB id, 17#32, by decide +kernel⟩
theorem witness_QueueRegisters_back : ∃ (s : State) (w : W32), (s.queue 0 0).en = true ∧ 2 ^ 31 ≤ (w - (s.queue 0 0).widx).toNat :=
  ⟨qB id, 0x80000000#32, by decide +kernel⟩
theorem witness_QueueRegisters_full : ∃ (s : State) (w : W32), (s.queue 0 0).en = true ∧ (w - (s.queue 0 0).widx).toNat < 2 ^ 31 ∧
    (w - (s.queue 0 0).ridx).toNat ≤ 2 ^ (s.queue 0 0).lqlen.toNat ∧ (s.queue 0 0).st = .idle :=
  ⟨qB id, 16#32, by decide +kernel⟩
theorem witness_QueueRegisters_skip : ∃ s : State, s.hasCtx 0 = true ∧ (s.queue 0 0).st = .halted ∧ (s.queue 0 0).ridx = (s.queue 0 0).eidx ∧
    (s.queue 0 0).err ≠ 6#8 :=
  ⟨qB (fun u => { u with st := .halted, err := 4#8 }), by decide +kernel⟩

/-- Queue 0 with packet 0 in its ring. -/
def ringB (w : Nat) : State := (qB (fun u => { u with widx := 1#32 })).poke 0 0x10000 (leBytes 64 w)
theorem witness_Packets_fetch : ∃ s : State, canFetch s 0 0 = true ∧
    ∃ x, procRead s 0 (BitVec.ofNat 64 ((s.queue 0 0).qbase.toNat + 64 * ((s.queue 0 0).ridx.toNat % 2 ^ (s.queue 0 0).lqlen.toNat))) 64 = .ok x ∧
      x.2.queue 0 0 = s.queue 0 0 ∧ packetOk (recOf x.1) = true ∧ pkType (recOf x.1) = 3 :=
  ⟨ringB 3, by decide +kernel, byDec (decE fun _ => inferInstance) (by decide +kernel)⟩
theorem witness_Packets_fetchLaunch : ∃ s : State, canFetch s 0 0 = true ∧
    ∃ x, procRead s 0 (BitVec.ofNat 64 ((s.queue 0 0).qbase.toNat + 64 * ((s.queue 0 0).ridx.toNat % 2 ^ (s.queue 0 0).lqlen.toNat))) 64 = .ok x ∧
      x.2.queue 0 0 = s.queue 0 0 ∧ packetOk (recOf x.1) = true ∧ pkType (recOf x.1) = 1 ∧ lhKdesc (recOf x.1) % 64 = 0 ∧
      ∃ y, procRead x.2 0 (BitVec.ofNat 64 (lhKdesc (recOf x.1))) 64 = .ok y ∧ y.2.queue 0 0 = s.queue 0 0 :=
  ⟨ringB (1 + 0x10100 * 2 ^ 128), by decide +kernel, byDec (decE fun _ => @instDecidableAnd _ _ inferInstance
    (@instDecidableAnd _ _ inferInstance (@instDecidableAnd _ _ inferInstance (@instDecidableAnd _ _ inferInstance
    (decE fun _ => inferInstance))))) (by decide +kernel)⟩
theorem witness_Packets_fetchGraph : ∃ s : State, canFetch s 0 0 = true ∧
    ∃ x, procRead s 0 (BitVec.ofNat 64 ((s.queue 0 0).qbase.toNat + 64 * ((s.queue 0 0).ridx.toNat % 2 ^ (s.queue 0 0).lqlen.toNat))) 64 = .ok x ∧
      x.2.queue 0 0 = s.queue 0 0 ∧ packetOk (recOf x.1) = true ∧ pkType (recOf x.1) = 6 ∧ dbits (recOf x.1) 128 13 = 1 ∧
      ∃ y, procRead x.2 0 (BitVec.ofNat 64 (dbits (recOf x.1) 64 56)) (64 * 1) = .ok y ∧ recsOf y.1 1 = [ndCopy] ∧ nodeOk 0 ndCopy = true ∧
      ∃ z, readBodies y.2 0 [ndCopy] = .ok z ∧ z.1.map (fun n => n.2.body.isSome) = [true] ∧ z.2.queue 0 0 = s.queue 0 0 :=
  ⟨(ringB (6 + 0x10100 * 2 ^ 64 + 2 ^ 128)).poke 0 0x10100 (leBytes 64 ndCopy.toNat), by decide +kernel,
    byDec (decE fun _ => @instDecidableAnd _ _ inferInstance
    (@instDecidableAnd _ _ inferInstance (@instDecidableAnd _ _ inferInstance (@instDecidableAnd _ _ inferInstance
    (decE fun _ => @instDecidableAnd _ _ inferInstance (@instDecidableAnd _ _ inferInstance (decE fun _ => inferInstance))))))) (by decide +kernel)⟩
theorem witness_Packets_bad : ∃ s : State, canFetch s 0 0 = true ∧
    ∃ x, procRead s 0 (BitVec.ofNat 64 ((s.queue 0 0).qbase.toNat + 64 * ((s.queue 0 0).ridx.toNat % 2 ^ (s.queue 0 0).lqlen.toNat))) 64 = .ok x ∧
      x.2.queue 0 0 = s.queue 0 0 ∧ packetOk (recOf x.1) = false ∧ pkSig (recOf x.1) = 0 :=
  ⟨ringB 7, by decide +kernel, byDec (decE fun _ => inferInstance) (by decide +kernel)⟩
/-- Queue 0 about to start a packet. -/
def curB (w : Nat) : State := qB (fun u => { u with cur := some (pkt w) })
/-- A descriptor of quota 1 for every level, and a LAUNCH of it. -/
def kd1 : Nat := 2 ^ 256 + 7 * 2 ^ 336
/-- A LAUNCH as it was read, with its descriptor. -/
def pktL : Pkt := { pkt (1 + 0x10100 * 2 ^ 128) with desc := some (BitVec.ofNat 512 kd1) }
theorem witness_Packets_launch : ∃ (s : State) (p : Pkt), startable s 0 0 1 = some p ∧ ∃ d, p.desc = some d ∧
    launchStatus s 0 p.body d = 0#16 ∧ s.gongRoom (s.pktDie 0) 1 = true :=
  ⟨qB (fun u => { u with cur := some pktL }), pktL, by decide +kernel, _, rfl, by decide +kernel⟩
theorem witness_Packets_launchBad : ∃ (s : State) (p : Pkt), startable s 0 0 1 = some p ∧ pkSig p.body = 0 ∧
    ∃ d, p.desc = some d ∧ launchStatus s 0 p.body d ≠ 0#16 :=
  ⟨qB (fun u => { u with cur := some { pktL with desc := some 0#512 } }), { pktL with desc := some 0#512 }, by decide +kernel,
    by decide +kernel, _, rfl, by decide +kernel⟩
theorem witness_Packets_wait : ∃ (s : State) (p : Pkt), startable s 0 0 2 = some p := ⟨curB 2, pkt 2, by decide +kernel⟩
theorem witness_Packets_satisfied : ∃ (s : State) (p : Pkt), (s.queue 0 0).active = [p] ∧ p.isWait = true ∧ s.ctxActive 0 = true ∧
    s.procGoes 0 = true ∧ pkSig p.body = 0 ∧ pkHx p.body = 0 ∧
    ∃ x, procRead s 0 (BitVec.ofNat 64 (dbits p.body 64 56)) 8 = .ok x ∧ x.2.queue 0 0 = s.queue 0 0 ∧ leNat x.1 % 2 ^ 64 = dbits p.body 128 64 :=
  ⟨qB (fun u => { u with active := [pkt (2 + 0x10100 * 2 ^ 64)] }), pkt (2 + 0x10100 * 2 ^ 64), by decide +kernel, by decide +kernel,
    by decide +kernel, by decide +kernel, by decide +kernel, by decide +kernel, byDec (decE fun _ => inferInstance) (by decide +kernel)⟩
theorem witness_Packets_mark : ∃ (s : State) (p : Pkt), startable s 0 0 3 = some p ∧ (s.queue 0 0).active = [] ∧ pkSig p.body = 0 :=
  ⟨curB 3, pkt 3, by decide +kernel⟩
theorem witness_Packets_detmode : ∃ (s : State) (p : Pkt), startable s 0 0 5 = some p ∧ pkHx p.body = s.level 0 ∧ (s.queue 0 0).active = [] ∧
    pkSig p.body = 0 := ⟨curB 5, pkt 5, by decide +kernel⟩
theorem witness_Packets_locked : ∃ (s : State) (p : Pkt), startable s 0 0 5 = some p ∧ pkHx p.body ≠ s.level 0 ∧ pkSig p.body = 0 :=
  ⟨curB (5 + 2 * 2 ^ 16), pkt (5 + 2 * 2 ^ 16), by decide +kernel⟩
theorem witness_Packets_copy : ∃ (s : State) (p : Pkt), startable s 0 0 4 = some p := ⟨curB 4, pkt 4, by decide +kernel⟩
/-- A GRAPH of one copy node as it was read. -/
def pktG : Pkt := { pkt (6 + 0x10100 * 2 ^ 64 + 2 ^ 128) with nodes := [(ndCopy, ⟨some bdCopy, none⟩)] }
theorem witness_Packets_graph : ∃ (s : State) (p : Pkt), startable s 0 0 6 = some p ∧ p.nodes.length = 1 ∧
    p.nodes[0]? = some (ndCopy, ⟨some bdCopy, none⟩) ∧ nodeOk 0 ndCopy = true ∧ ranksOk s 0 p.nodes = true ∧
    s.gongRoom (s.pktDie 0) p.nodes.length = true :=
  ⟨qB (fun u => { u with cur := some pktG }), pktG, by decide +kernel⟩

/-- A command pending in partition 0 for context 0. -/
def cmdB (code : BitVec 8) (arg : BitVec 56) (h : Context → Context) : State :=
  let s := ctxB h
  s.setPart 0 { s.part 0 with cmd := some ⟨code, 0#4, false, arg⟩ }
theorem witness_Commands_invalid : ∃ (s : State) (c : CtxCmd), (s.part 0).cmd = some c ∧ 9 < c.cmd.toNat :=
  ⟨cmdB 10#8 0#56 id, ⟨10#8, 0#4, false, 0#56⟩, by decide +kernel⟩
theorem cmd_is {s : State} {code arg : Nat} (h : (s.part 0).cmd = some ⟨BitVec.ofNat 8 code, 0#4, false, BitVec.ofNat 56 arg⟩)
    (hc : code < 256) : Spec.cmdIs s 0 0 code (BitVec.ofNat 56 arg) :=
  ⟨_, h, rfl, by simp [BitVec.toNat_ofNat, Nat.mod_eq_of_lt hc], rfl, rfl⟩
theorem witness_Commands_state : ∃ (s : State), Spec.cmdInstr 0 4 (.resume 0) ∧ Spec.cmdIs s 0 0 4 0#56 ∧
    Spec.cmdAllowed 4 (s.ctx 0).st = false :=
  ⟨cmdB 4#8 0#56 id, by simp [Spec.cmdInstr], cmd_is (arg := 0) (by decide +kernel) (by decide), by decide +kernel⟩
/-- A context record: the least ring at 0x11000, one unit of shadow at 0x20000, tables at 0x100000. -/
def crRec : Nat := 0x100000 + 0x11000 * 2 ^ 64 + 4 * 2 ^ 120 + 0x20000 * 2 ^ 128 + 1 * 2 ^ 192
theorem witness_Commands_create : ∃ s : State, Spec.cmdIs s 0 0 1 0x12000#56 ∧ (s.ctx 0).st = .free ∧ (0x12000#56).toNat % 64 = 0 ∧
    ∃ bs, ipaRead s 0 (0x12000#56).toNat 64 = some bs ∧ crOk (recOf bs) (s.part 0).level.toNat = true ∧ crPlaced s 0 (recOf bs) = true ∧
      fsaFits s 0 (crFsa (recOf bs)) = true ∧ crKreq (recOf bs) = false :=
  ⟨let s := cmdB 1#8 0x12000#56 (fun _ => Context.free)
   { s with mem := s.mem.setN 0x12000 (leBytes 64 crRec) }, cmd_is (arg := 0x12000) (by decide +kernel) (by decide),
    by decide +kernel, by decide +kernel, byDec (decO fun _ => inferInstance) (by decide +kernel)⟩
theorem witness_Commands_destroy : ∃ s : State, Spec.cmdIs s 0 0 2 0#56 ∧ (s.ctx 0).st ≠ .free :=
  ⟨cmdB 2#8 0#56 id, cmd_is (arg := 0) (by decide +kernel) (by decide), by decide +kernel⟩
theorem witness_Commands_teardown : ∃ s : State, (s.ctx 0).st = .destroying := ⟨ctxB (fun c => { c with st := .destroying }), by decide +kernel⟩
theorem witness_Commands_quiesce : ∃ s : State, Spec.cmdIs s 0 0 3 0#56 ∧ (s.ctx 0).st = .active :=
  ⟨cmdB 3#8 0#56 id, cmd_is (arg := 0) (by decide +kernel) (by decide), by decide +kernel⟩
theorem witness_Commands_quiesced : ∃ s : State, (s.ctx 0).st = .quiescing ∧ s.groups.length = 1 ∧
    (∃ g, mget s.groups 0 = some g ∧ g.core = none) ∧ s.ops.length = 1 ∧ ∃ o, mget s.ops 0 = some o ∧ o.savable s 0 = true :=
  ⟨let s := (ctxB (fun c => { c with st := .quiescing })).modGroup 0 (fun g => { g with loc := .evicted 0 })
   { s with ops := [(0, { opE (.copy cpRec none none) with held := true })] }, by decide +kernel, by decide +kernel,
    byDec (decO fun _ => inferInstance) (by decide +kernel), by decide +kernel, byDec (decO fun _ => inferInstance) (by decide +kernel)⟩
theorem witness_Commands_resume : ∃ s : State, Spec.cmdIs s 0 0 4 0#56 ∧ (s.ctx 0).st = .quiesced :=
  ⟨cmdB 4#8 0#56 (fun c => { c with st := .quiesced }), cmd_is (arg := 0) (by decide +kernel) (by decide), by decide +kernel⟩
theorem witness_Commands_resumet : ∃ s : State, Spec.cmdIs s 0 0 8 5#56 ∧ (s.ctx 0).st = .active ∧
    (s.ctx 0).stops.find? (fun x => x.1 == (5#56).toNat) = some ((5#56).toNat, 0, 0) ∧ (s.ctx 0).fqWait = [] ∧
    ∃ th, s.thread 0 0 = some th ∧ th.wait = .stop .fp (5#56).toNat :=
  ⟨(cmdB 8#8 5#56 (fun c => { c with stops := [(5, 0, 0)] })).modThread 0 0 (fun th => { th with wait := .stop .fp 5 }),
    cmd_is (arg := 5) (by decide +kernel) (by decide), by decide +kernel, by decide +kernel, by decide +kernel,
    byDec (decO fun _ => inferInstance) (by decide +kernel)⟩
theorem witness_Commands_setbudget : ∃ s : State, Spec.cmdIs s 0 0 9 7#56 ∧ (s.ctx 0).st = .active :=
  ⟨cmdB 9#8 7#56 id, cmd_is (arg := 7) (by decide +kernel) (by decide), by decide +kernel⟩

theorem witness_Images_checkpoint : ∃ s : State, Spec.cmdIs s 0 0 5 0x10000#56 ∧ (s.ctx 0).st = .quiesced ∧ (0x10000#56).toNat % 65536 = 0 :=
  ⟨cmdB 5#8 0x10000#56 (fun c => { c with st := .quiesced }), cmd_is (arg := 0x10000) (by decide +kernel) (by decide), by decide +kernel, by decide⟩
/-- The header of an object with no section and no segment. -/
def objHead : List Byte := leBytes 64 (0x464C457F + 2 ^ 32 * 2 + 2 ^ 40 + 0x9A70 * 2 ^ 144)
theorem witness_Images_load : ∃ s : State, Spec.cmdIs s 0 0 7 0x12000#56 ∧ (s.ctx 0).st = .active ∧
    ∃ h, ipaRead s 0 (0x12000#56).toNat 64 = some h ∧ headerOk h = true ∧
    ∃ o, openObj (fun off n => ipaRead s 0 ((0x12000#56).toNat + off) n) h = some o ∧ ∃ l, o.relocs = some l ∧ (o.relocateAll l).2 = true ∧
    ∃ k, (o.relocateAll l).1.compat = some k ∧ (o.relocateAll l).1.recordsOk = true ∧ k.gen = 7 ∧
      k.feat &&& (s.bank 0).feat.toNat = k.feat ∧
    ∃ kds, (o.relocateAll l).1.allRecords stKdesc 64 = some kds ∧ (o.relocateAll l).1.bodiesOk kds = true ∧
    ∃ code, withRegion (s.ctx 0) (s.bank 0) k.errs (((o.relocateAll l).1.ofType stText).headD ⟨0, 0, 0, 0, 0, 0⟩) = .ok code ∧
    ∃ s1, loadSegs 0 (o.relocateAll l).1 (o.relocateAll l).1.segs s = some s1 ∧ s1.mem = s.mem :=
  ⟨(cmdB 7#8 0x12000#56 id).poke 0 0x12000 objHead, cmd_is (arg := 0x12000) (by decide +kernel) (by decide), by decide +kernel,
    byDec (decO fun _ => @instDecidableAnd _ _ inferInstance (decO fun _ => decO fun _ => @instDecidableAnd _ _ inferInstance
      (decO fun _ => @instDecidableAnd _ _ inferInstance (@instDecidableAnd _ _ inferInstance (@instDecidableAnd _ _ inferInstance
      (decO fun _ => @instDecidableAnd _ _ inferInstance (decE fun _ => decO fun _ => inferInstance))))))) (by decide +kernel)⟩

/-- A page command for context 0 and address 0x20000 and up. -/
def pc (code : BitVec 8) (arg : BitVec 56) (started : Bool) : PgCmd := ⟨code, 0#4, false, arg, started, [], 0⟩
/-- Context 0 with a page command pending and a thread that waits for a replay. -/
def pgB (c : PgCmd) (f : FaultWait) : State :=
  (ctxB (fun x => { x with pgq := [c] })).modThread 0 0 (fun th => { th with wait := if c.started then .none else .replay f })
theorem witness_PageCommands_replay : ∃ s : State, (s.ctx 0).pgq = [pc 1#8 0x20000#56 false] ∧
    s.ctxs.all (fun c => c.2.fqWait.isEmpty) = true ∧ (s.part 0).prWait = [] ∧
    ∃ g : Group, s.group 0 = some g ∧ (mget s.ctxs g.cid).isSome = true ∧ ∃ th, mget g.threads 0 = some th ∧ th.live = true ∧
      th.wait = .replay ⟨0x2FFFF#64, none, 0#2, false⟩ ∧ (0x2FFFF#64).toNat / 65536 = (0x20000#56).toNat / 65536 :=
  ⟨pgB (pc 1#8 0x20000#56 false) ⟨0x2FFFF#64, none, 0#2, false⟩, by decide +kernel, by decide +kernel, by decide +kernel,
    byDec (decO fun _ => @instDecidableAnd _ _ inferInstance (decO fun _ => inferInstance)) (by decide +kernel)⟩
theorem witness_PageCommands_rreplay : ∃ s : State, (s.ctx 0).pgq = [pc 5#8 0x20000#56 false] ∧
    s.ctxs.all (fun c => c.2.fqWait.isEmpty) = true ∧ (s.part 0).prWait = [] ∧
    ∃ g : Group, s.group 0 = some g ∧ (mget s.ctxs g.cid).isSome = true ∧ ∃ th, mget g.threads 0 = some th ∧ th.live = true ∧
      th.wait = .replay ⟨0x90000#64, some 0x2FFFF, 0#2, false⟩ :=
  ⟨pgB (pc 5#8 0x20000#56 false) ⟨0x90000#64, some 0x2FFFF, 0#2, false⟩, by decide +kernel, by decide +kernel, by decide +kernel,
    byDec (decO fun _ => @instDecidableAnd _ _ inferInstance (decO fun _ => inferInstance)) (by decide +kernel)⟩
theorem witness_PageCommands_done : ∃ s : State, (s.ctx 0).pgq = [pc 2#8 0x20000#56 true] ∧ wokenLeft s 0 = false :=
  ⟨pgB (pc 2#8 0x20000#56 true) ⟨0#64, none, 0#2, false⟩, by decide +kernel⟩
theorem witness_PageCommands_inval : ∃ s : State, (s.ctx 0).pgq = [pc 3#8 0x10000#56 false] ∧ (s.core 0).tlb = [codeTlb] ∧
    codeTlb.va ≤ (0x10000#56).toNat / 65536 ∧ (0x10000#56).toNat / 65536 < codeTlb.va + codeTlb.size ∧
    s.groups.all (fun g => g.2.pendW.isEmpty) = true :=
  ⟨ctxB (fun c => { c with pgq := [pc 3#8 0x10000#56 false] }), by decide +kernel⟩
theorem witness_PageCommands_invalWaits : ∃ s : State, (s.ctx 0).pgq = [pc 3#8 0x10000#56 false] ∧
    ∃ g : Group, s.group 0 = some g ∧ g.cid = 0 ∧ rec1 ∈ g.pendW ∧ rec1.po < s.nextInst ∧ (0x10000#56).toNat / 65536 ∈ rec1.granules :=
  ⟨let s := (ctxB (fun c => { c with pgq := [pc 3#8 0x10000#56 false] })).modGroup 0 (fun g => { g with pendW := [rec1] })
   { s with nextInst := 1 }, by decide +kernel, byDec (decO fun _ => inferInstance) (by decide +kernel)⟩
theorem witness_PageCommands_full : ∃ s : State, 64 ≤ (s.ctx 0).pgq.length ∧ (s.ctx 0).pgq.length = 64 :=
  ⟨ctxB (fun c => { c with pgq := List.replicate 64 (pc 1#8 0#56 false) }), by decide +kernel⟩
theorem witness_PageCommands_bad : ∃ (s : State) (v : W64), (s.ctx 0).pgq.length < 64 ∧ v.toNat % 256 = 0 := ⟨base, 0#64, by decide +kernel⟩

theorem witness_PartitionRegisters_cfg : ∃ (s : State) (v : W64), BitVec.ofNat 16 v.toNat ≠ 0#16 ∧ (s.part 0).qmask ≠ 0#16 ∧
    s.parts.all (fun x => x.1 == 0 || x.2.qmask &&& BitVec.ofNat 16 v.toNat == 0#16) = true := ⟨base, 0x4FFFF#64, by decide +kernel⟩
theorem witness_PartitionRegisters_create : ∃ (s : State) (v : W64), BitVec.ofNat 16 v.toNat ≠ 0#16 ∧ (s.part 63).qmask = 0#16 ∧
    s.parts.all (fun x => x.1 == 63 || x.2.qmask &&& BitVec.ofNat 16 v.toNat == 0#16) = true := ⟨base, 0xFFFE#64, by decide +kernel⟩
theorem witness_PartitionRegisters_destroy : ∃ s : State, (s.part 0).qmask ≠ 0#16 ∧ s.ctxs.all (fun x => x.2.st == .free) = true :=
  ⟨ctxB (fun _ => Context.free), by decide +kernel⟩
theorem witness_PartitionRegisters_lock : ∃ s t : State, (s.part 0).qmask ≠ 0#16 ∧ (s.part 0).lock = false ∧ (t.part 0).qmask ≠ 0#16 ∧
    (t.part 0).lock = true := ⟨base, base.setPart 0 { base.part 0 with lock := true }, by decide +kernel⟩
theorem witness_ControlRegisters : ∃ s : State, (s.part 0).qmask ≠ 0#16 ∧ (s.part 0).pfqEn = false ∧ (s.part 0).cmd = none ∧ s.hasCtx 0 = true ∧
    (s.queue 0 15).en = false := ⟨base, by decide +kernel⟩
theorem witness_ControlRegisters_bank : ∃ s t : State, s.onFabric = true ∧ (∀ d, d < 4 → nbound s d 3 = 0) ∧
    (∃ d, d < 4 ∧ nbound t d 0 ≠ 0) :=
  ⟨{ base with started := true, dead := false }, base, by decide +kernel, by decide +kernel, 0, by decide +kernel⟩
theorem witness_ControlRegisters_comm : ∃ (s : State) (v : BitVec 128), (s.part 0).qmask ≠ 0#16 ∧ v.getLsbD 0 = false ∧ s.ports = [] ∧
    s.eth = [] := ⟨base, 0#128, by decide +kernel⟩
/-- The same over a connection that is not up. -/
theorem witness_ControlRegisters_failedEth : ∃ s : State, (s.part 0).level ≠ 0#2 ∧ (s.part 0).qmask ≠ 0#16 ∧
    (∃ p, mget s.eth 15 = some p ∧ ∃ y, mget p.conns 3 = some y ∧ y.up = false) ∧
    readRoute s 0 ((0x10100 * 2 ^ 64 + 2 ^ 16 + 1) / 2 ^ 64 % 2 ^ 56) ((0x10100 * 2 ^ 64 + 2 ^ 16 + 1) / 2 ^ 16 % 2 ^ 16) = [0x180000#64] ∧
    (ethRouteUses 0x180000#64 15 3 = true → usesConn 15 3 0x180000#64 = true) :=
  ⟨let s := base.poke 0 0x10100 (leBytes 8 0x180000)
   { s.setPart 0 { s.part 0 with level := 1#2 } with eth := [(15, { EthPort.zero with conns := [(3, ⟨false, [], [], 0, []⟩)] })] },
    by decide +kernel, by decide +kernel, byDec (decO fun _ => decO fun _ => inferInstance) (by decide +kernel), by decide +kernel,
    fun h => h⟩
/-- Whether a route goes over a link is a free value: all else that the clause asks holds here. -/
theorem witness_ControlRegisters_failed : ∃ s : State, (s.part 0).level ≠ 0#2 ∧ (s.part 0).qmask ≠ 0#16 ∧
    (∃ p, mget s.ports 3 = some p ∧ p.st = .failed) ∧
    readRoute s 0 ((0x10100 * 2 ^ 64 + 2 ^ 16 + 1) / 2 ^ 64 % 2 ^ 56) ((0x10100 * 2 ^ 64 + 2 ^ 16 + 1) / 2 ^ 16 % 2 ^ 16) = [0x180000#64] ∧
    (Config.routeUses 0x180000#64 3 = true → usesPort 3 0x180000#64 = true) :=
  ⟨let s := base.poke 0 0x10100 (leBytes 8 0x180000)
   { s.setPart 0 { s.part 0 with level := 1#2 } with ports := [(3, { FabPort.zero with st := .failed })] },
    by decide +kernel, by decide +kernel, byDec (decO fun _ => inferInstance) (by decide +kernel), by decide +kernel,
    fun h => by simp [usesPort, h]⟩
theorem witness_ControlRegisters_late : ∃ (s : State) (r : FaultRec), (s.ctx 0).fqWait = [r] ∧
    ((s.ctx 0).fqprod - (s.ctx 0).fqcons).toNat < 2 ^ (s.ctx 0).lfq.toNat ∧
    ∃ x, stage2 s (0 / 16) ((s.ctx 0).fqbase.toNat + 64 * ((s.ctx 0).fqprod.toNat % 2 ^ (s.ctx 0).lfq.toNat)) 1#2 = some x ∧
      s.ownWindow x.1 = false :=
  ⟨ctxB (fun c => { c with fqWait := [FaultRec.of .fp], fqbase := 0x11000#56, lfq := 4#4, fqprod := 15#32 }), FaultRec.of .fp, by decide +kernel, by decide +kernel,
    byDec (decO fun _ => inferInstance) (by decide +kernel)⟩

/-- The base started, port 63 up. -/
def upS : State := { base with started := true, ports := [(63, { FabPort.zero with st := .up })] }
def pk0 : FabricPacket :=
  { e2e := 0#32, tag := 0#16, addr := 0#56, vf := 0#6, ptyp := 1#4, nfl := 0#4, cls := 0#2, src := 7#15, dst := 0#15, res := 0#42,
    aux := BitVec.allOnes 64, data := [], sealOk := true }
theorem witness_LinkEvents_reports : ∃ s : State, s.onFabric = true ∧ (mgetD s.ports 63 FabPort.zero).st = .up ∧
    (mgetD s.ports 0 FabPort.zero).st ≠ .up := ⟨upS, by decide +kernel⟩
theorem witness_LinkEvents_drop : ∃ (s : State) (p : FabricPacket), s.onFabric = true ∧ (mgetD s.ports 63 FabPort.zero).st = .up ∧
    7 ≤ p.ptyp.toNat := ⟨upS, { pk0 with ptyp := 7#4 }, by decide +kernel⟩
theorem witness_LinkEvents_forward : ∃ (s : State) (p : FabricPacket), s.onFabric = true ∧ packetBad p = false ∧ p.dst ≠ s.epid.setWidth 15 :=
  ⟨upS, { pk0 with dst := 1#15 }, by decide +kernel⟩
def pkN : FabricPacket :=
  let d := leBytes 32 9
  { pk0 with nfl := 1#4, data := d, e2e := crc32c d, addr := 976#56 }
theorem witness_LinkEvents_notify : ∃ (s : State) (p : FabricPacket), s.onFabric = true ∧ packetBad p = false ∧ p.dst = s.epid.setWidth 15 ∧
    p.sealOk = true ∧ crc32c p.data = p.e2e ∧ p.ptyp = 1#4 ∧ p.cls = 0#2 ∧ p.aux = BitVec.allOnes 64 ∧ p.nfl ≠ 0#4 ∧ s.notifyHold = [] ∧
    p.addr.toNat = 2 ^ 20 * 0 + 2 ^ 16 * (0 % 16) + 64 * 15 + 16 ∧ s.hasCtx 0 = true ∧ (s.part 0).ownEn = true ∧
    p.src = (s.part 0).own.setWidth 15 :=
  ⟨upS.setPart 0 { upS.part 0 with own := 7#12, ownEn := true }, pkN, by decide +kernel⟩
theorem witness_LinkEvents_stranger : ∃ (s : State) (p : FabricPacket), s.onFabric = true ∧ packetBad p = false ∧ p.dst = s.epid.setWidth 15 ∧
    p.ptyp = 1#4 ∧ p.cls = 0#2 ∧ s.notifyHold = [] ∧ (s.part 0).ownEn = false ∧ s.hasCtx 0 = true :=
  ⟨upS, { pkN with sealOk := false }, by decide +kernel⟩
/-- Virtual function 0 belongs to endpoint 7. -/
def ownS : State := upS.setPart 0 { upS.part 0 with own := 7#12, ownEn := true }
theorem witness_LinkEvents_again : ∃ (s : State) (p : FabricPacket), s.onFabric = true ∧ packetBad p = false ∧ p.dst = s.epid.setWidth 15 ∧
    crc32c p.data ≠ p.e2e ∧ s.notifyHold = [] ∧ packetOwned s p = true ∧ p.cls = 0#2 ∧ (p.src.toNat, p.tag.toNat) ∉ s.askedAgain :=
  ⟨ownS, { pkN with e2e := 0#32 }, by decide +kernel⟩
theorem witness_LinkEvents_twice : ∃ (s : State) (p : FabricPacket), s.onFabric = true ∧ packetBad p = false ∧ p.dst = s.epid.setWidth 15 ∧
    p.sealOk = false ∧ s.notifyHold = [] ∧ p.cls = 0#2 ∧ s.hasCtx 0 = true ∧ (p.src.toNat, p.tag.toNat) ∈ s.askedAgain ∧
    (s.part 0).ownEn = true ∧ p.src = (s.part 0).own.setWidth 15 ∧ p.addr.toNat = 2 ^ 20 * 0 + 2 ^ 16 * (0 % 16) + 64 * 15 + 16 :=
  ⟨{ ownS with askedAgain := [(7, 0)] }, { pkN with sealOk := false }, by decide +kernel⟩
theorem witness_LinkEvents_port : ∃ s t u : State, s.dead = false ∧ (mgetD s.ports 63 FabPort.zero).st ≠ .up ∧ t.dead = false ∧
    (mgetD t.ports 63 FabPort.zero).st = .up ∧ (mgetD t.ports 63 FabPort.zero).resends = 15 ∧ u.dead = false ∧
    (mgetD u.ports 63 FabPort.zero).st = .up ∧ (mgetD u.ports 63 FabPort.zero).resends = 16 ∧ u.parts = [] :=
  ⟨State.reset, { State.reset with ports := [(63, { FabPort.zero with st := .up, resends := 15 })] },
    { State.reset with ports := [(63, { FabPort.zero with st := .up, resends := 16 })] }, by decide +kernel⟩
/-- A connection of Ethernet port 15 with an unacknowledged frame, sent some times. -/
def ethS (sent : Nat) : State := { State.reset with eth := [(15, { EthPort.zero with conns := [(3, ⟨true, [⟨4, sent, 0, 0⟩], [(4, [])], 5, []⟩)] })] }
theorem witness_LinkEvents_eth : ∃ s : State, s.dead = false ∧ ((mgetD s.eth 15 EthPort.zero).conn 3).up = true ∧ s.parts = [] ∧
    ((mgetD s.eth 15 EthPort.zero).conn 3).unack = [⟨4, 64, 0, 0⟩] ∧ ((mgetD s.eth 15 EthPort.zero).conn 3).inbox = [(4, [])] :=
  ⟨ethS 64, by decide +kernel⟩
theorem witness_LinkEvents_ethUp : ∃ s : State, s.dead = false ∧ ((mgetD s.eth 15 EthPort.zero).conn 3).up = true ∧
    ∀ x ∈ ((mgetD s.eth 15 EthPort.zero).conn 3).unack, x.sent < 64 := ⟨ethS 63, by decide +kernel⟩
/-- Whether the vendor's key signed an image is a free value: each image meets one of the two hypotheses. An image with no
signature is not signed. -/
theorem witness_TrustEvents_signed (i : SignedImage) : signedOk i = true ∨ signedOk i = false := by
  cases signedOk i <;> simp
theorem witness_TrustEvents_unsigned : ∃ i : SignedImage, signedOk i = false := ⟨⟨[], []⟩, by decide +kernel⟩
theorem witness_TrustEvents_bankUnsigned : ∃ x : BankImage, vendorSigned (loadedBank x).bytes x.sig = false :=
  ⟨⟨[], 7#16, 0#3, [], [], [], true⟩, by decide +kernel⟩
theorem witness_TrustEvents : ∃ s : State, s.onFabric = true ∧ s.ctxs = [] ∧ nbound s 0 3 = 0 ∧ nbound s 1 3 = 0 ∧ nbound s 2 3 = 0 ∧
    nbound s 3 3 = 0 := ⟨{ State.reset with started := true }, by decide +kernel⟩
theorem witness_TrustEvents_bound : ∃ s : State, s.onFabric = true ∧ nbound s 0 0 ≠ 0 := ⟨upS, by decide +kernel⟩

theorem witness_EncodeThenDecode : ∃ (i : Instr) (p : Nat × Nat), i.wf = true ∧ encode i = some p ∧ i = .faddF32 (F 127 127 127 0) :=
  ⟨.faddF32 (F 127 127 127 0), _, by decide, rfl, rfl⟩
theorem witness_DecodeThenEncode : ∃ w : W64, (match decodeWord w with | .emulationVector _ _ => false | _ => true) = true :=
  ⟨0x000001000040C100#64, by decide +kernel⟩
theorem witness_StepRuns_event : ∃ s : State, s.agenda = .event (.mergeApply 0) :: [] ∧ s.dead = false :=
  ⟨{ State.reset with agenda := [.event (.mergeApply 0)] }, by decide +kernel⟩
/-- What a step makes of the agenda entry before it acts. -/
def begun (s : State) : State := { s with agenda := [], tick := s.tick + 1 }
theorem witness_StepRuns_hart : ∃ s : State, s.agenda = [.hart 0] ∧ s.dead = false ∧ ∃ e, henvOf { begun s with curHart := some 0 } = some e ∧
    ∃ x, hartWord (begun s) e.g.coreN e.g.cid e.h.pc = .ok x ∧ x.1 = 0x0005000B#32 :=
  ⟨fetchMachine State.reset 32 0x0005000B, by decide +kernel, by decide +kernel, byDec (decO fun _ => decE fun _ => inferInstance) (by decide +kernel)⟩
theorem witness_StepRuns_lanes : ∃ s : State, s.agenda = [.lanes 0] ∧ s.dead = false ∧ ∃ ig, (s.core 0).port = some ig ∧ ig.todo = [0] ∧
    ∃ g : Group, s.group ig.gid = some g ∧ ∃ th, mget g.threads 0 = some th ∧ th.inside = true ∧ th.live = true ∧ th.wait = .none ∧
      th.pc = ig.pc ∧ overBudget (begun s) g th = false ∧ th.pend = [] ∧
    ∃ x, slotAt (begun s) 0 g.cid th.pc th.rep = .ok x ∧ (match x.1.dec with | .iaddI32 _ => true | _ => false) = true :=
  ⟨fetchMachine State.reset 64 0x000001000040C100, by decide +kernel, by decide +kernel, byDec (decO fun _ => @instDecidableAnd _ _ inferInstance
    (decO fun _ => decO fun _ => @instDecidableAnd _ _ inferInstance (@instDecidableAnd _ _ inferInstance (@instDecidableAnd _ _ inferInstance
    (@instDecidableAnd _ _ inferInstance (@instDecidableAnd _ _ inferInstance
    (@instDecidableAnd _ _ inferInstance (decE fun _ => inferInstance)))))))) (by decide +kernel)⟩
theorem witness_StepRuns_slot : ∃ s : State, (s.bankOn (0 / 64) 0).entries = [] ∧ ∃ x, fetchWord s 0 0 (pcHead 0x10000#64) = .ok x ∧
    ∃ y, fetchWord x.2 0 0 (pcHead 0x10000#64 + BitVec.ofNat 64 (8 + 8 * pcSlot 0x10000#64)) = .ok y ∧
      (y.2.bankOn (0 / 64) 0).entries = [] ∧ wordLits (decodeWord y.1) y.1 = 0 :=
  ⟨base, by decide +kernel, byDec (decE fun _ => decE fun _ => inferInstance) (by decide +kernel)⟩
theorem witness_StepKeepsMemory : ∃ s : State, s.mem.wf = true ∧ s.mem ≠ [] := ⟨base, by decide +kernel⟩

/-! ## An image in memory -/

/-- An image that holds nothing, of one unit. -/
def img : Image :=
  { id := 0, keyId := 0, level := 0#2, qmask := 1#16, units := 1#32, ctx := Context.free, groups := [], kernels := [], graphs := [],
    ops := [], mxops := [], calls := [], gong := [], grans := [], pages := [], lost := [], inst := 0 }
theorem mget_bytes (f : Nat → Byte) (a k : Nat) : ∀ n lo, lo ≤ a → a < lo + n →
    mget ((upFrom lo n).map (fun x => (x, f (x - k)))) a = some (f (a - k))
  | 0, lo, h1, h2 => by omega
  | n + 1, lo, h1, h2 => by
    simp only [upFrom, List.map_cons, mget]
    split
    · subst_vars; rfl
    · exact mget_bytes f a k n (lo + 1) (by omega) (by omega)
def imgMem : Memory := (upFrom 0x20000 65536).map (fun x => (x, img.byteAt (x - 0x20000)))
/-- The base with its context quiesced and empty, a command to restore it, and the image at 0x20000. -/
def imgB : State :=
  { cmdB 6#8 0x20000#56 (fun c => { c with st := .quiesced }) with groups := [], images := [img], mem := imgMem }
theorem img_stage (a : Nat) (h1 : 0x20000 ≤ a) (h2 : a < 0x20000 + 65536) :
    stage2 imgB 0 a 0#2 = some (a, ⟨0#40, 0xFFFFFFFFFF#40, 0#40, true, true, true, true⟩) := by
  have hr : findRange (imgB.part 0) (a / 65536 % 2 ^ 40) = some ⟨0#40, 0xFFFFFFFFFF#40, 0#40, true, true, true, true⟩ := by
    have : a / 65536 % 2 ^ 40 = 2 := by omega
    rw [this]; decide +kernel
  have hg : reservedRegions imgB 0 = [(0, 1024)] := by decide +kernel
  have hp : (a / 65536 + 0) % 2 ^ 40 * 65536 + a % 65536 = a := by omega
  unfold stage2
  rw [hr]
  simp only [hg, BitVec.toNat_ofNat, Nat.zero_mod, hp, accOk, paExists]
  have : a < 2 ^ 38 := by omega
  have h0 : ¬ a < 1024 := by omega
  simp [h0]
  omega
theorem img_mem : imgB.mem = imgMem := rfl
theorem img_get (a : Nat) (h1 : 0x20000 ≤ a) (h2 : a < 0x20000 + 65536) : imgB.mem.get a = img.byteAt (a - 0x20000) := by
  rw [img_mem]
  unfold Memory.get imgMem
  rw [mget_bytes img.byteAt a 0x20000 65536 0x20000 h1 h2, Option.getD_some]
theorem img_reads : ∀ n a, 0x20000 ≤ a → a + n ≤ 0x20000 + 65536 →
    ipaRead imgB 0 a n = some ((upFrom (a - 0x20000) n).map img.byteAt)
  | 0, a, _, _ => by simp [ipaRead, upFrom]
  | n + 1, a, h1, h2 => by
    have ih := img_reads n (a + 1) (by omega) (by omega)
    have hb : unitLost imgB 0 a a = false := by
      have hb : imgB.badUnits = [] := by decide +kernel
      have hk : imgB.unitKey = [(1024, 0, 1024)] := by decide +kernel
      have : ¬ a / 64 = 1024 := by omega
      simp [unitLost, hb, hk, mget, this]
    have hx : a + 1 - 0x20000 = a - 0x20000 + 1 := by omega
    unfold ipaRead at ih ⊢
    rw [upFrom, List.mapM_cons, img_stage a h1 (by omega), ih, hx]
    simp [hb, img_get a h1 (by omega), upFrom]
theorem img_holds : ∀ n off, off + 64 * n ≤ 65536 → holdsImage imgB 0 img 0x20000 n off = true
  | 0, _, _ => rfl
  | n + 1, off, h => by
    unfold holdsImage
    rw [img_reads 64 (0x20000 + off) (by omega) (by omega), img_holds n (off + 64) (by omega)]
    simp only [Nat.add_sub_cancel_left, Bool.and_true, beq_iff_eq, Option.some.injEq]
    refine List.map_congr_left (fun k hk => ?_)
    split
    · rename_i hk2
      rw [img_reads 1 (0x20000 + k) (by omega) (by omega)]
      simp [upFrom]
    · rfl
theorem img_header : img.header.length = 128 ∧ img.header.drop 64 = (Config.imageWrap 0 ++ List.replicate 64 0#8).take 64 := by
  have h : ∀ n w, (leBytes n w).length = n := by
    intro n
    induction n with
    | zero => intro w; rfl
    | succ n ih => intro w; simp [leBytes, ih]
  constructor
  · simp [Image.header, h]
  · unfold Image.header
    rw [List.drop_append, List.drop_of_length_le (by simp [h])]
    simp [h, img]
theorem img_bytes : ∀ n a, a + n = 128 → (upFrom a n).map img.byteAt = img.header.drop a
  | 0, a, h => by
    rw [List.drop_of_length_le (by rw [img_header.1]; omega)]; rfl
  | n + 1, a, h => by
    have hl : a < img.header.length := by rw [img_header.1]; omega
    rw [upFrom, List.map_cons, img_bytes n (a + 1) (by omega), List.drop_eq_getElem_cons hl]
    have : a < 128 := by omega
    simp [Image.byteAt, this, hl]
theorem witness_Images_restore : Spec.cmdIs imgB 0 0 6 0x20000#56 ∧ (imgB.ctx 0).st = .quiesced ∧ ctxEmpty imgB 0 = true ∧
    findImage imgB 0 0 (0x20000#56).toNat = some img ∧ img.level = (imgB.part 0).level ∧ (imgB.part 0).level ≠ 1#2 ∧
    homeTables (diesOf (imgB.part 0).qmask) (imgB.ctx 0).fsa.toNat img.ctx.tables [] = some [] ∧
    ∃ s, refitAll 0 (renumberOf imgB 0 img) img.groups (loadImage imgB 0 img (renumberOf imgB 0 img) []) = some s := by
  refine ⟨cmd_is (arg := 0x20000) (by decide +kernel) (by decide), by decide +kernel, by decide +kernel, ?_, by decide +kernel,
    by decide +kernel, by decide +kernel, _, rfl⟩
  have hw : opensAs imgB 0 0 img 0x20000 = true := by
    unfold opensAs
    rw [img_reads 64 (0x20000 + 64) (by omega) (by omega), img_bytes 64 (0x20000 + 64 - 0x20000) (by omega), img_header.2]
    have hk : (imgB.ctx 0).keyId = 0 := by decide +kernel
    simp [hk, img]
  have hh := img_holds 1024 0 (by omega)
  have hi : imgB.images = [img] := rfl
  unfold findImage
  rw [hi]
  have hu : img.units.toNat = 1 := rfl
  have ha : (0x20000#56).toNat = 0x20000 := rfl
  rw [ha, List.find?_cons]
  simp only [hu, hw, Nat.mul_one, hh, Nat.zero_lt_one, decide_true, Bool.and_self, Option.some_or]

/-! ## Values of events, from the manual's rules by hand -/

/-- A state after an event, seen through a function. -/
def after {α : Type} (i : Instr) (s : State) (f : State → α) : Option α :=
  match exec i s with
  | .next t => some (f t)
  | _ => none
/-- The check value of CRC-32C, whose polynomial R383 names: the digits 1 to 9. -/
theorem test_crc : crc32c [0x31#8, 0x32#8, 0x33#8, 0x34#8, 0x35#8, 0x36#8, 0x37#8, 0x38#8, 0x39#8] = 0xE3069283#32 := by decide +kernel
theorem test_pwrpool_least : after (.pwrpoolWrite 3 0#64) base (fun t => (t.die 3).size) = some 1#16 := by decide +kernel
theorem test_pwrpool_most : after (.pwrpoolWrite 3 0x0000025800000041#64) base (fun t => ((t.die 3).size, (t.die 3).limit)) =
    some (64#16, 600#16) := by decide +kernel
theorem test_notify_wraps : after (.qnotify 0 0 3#32) (qB (fun u => { u with widx := 0xFFFFFFFF#32, ridx := 0xFFFFFFFE#32 }))
    (fun t => ((t.queue 0 0).widx, (t.queue 0 0).err)) = some (3#32, 0#8) := by decide +kernel
theorem test_merge_writes : after (.mergeApply 0) ((kerB (fun k => { k with st := .merging })).modGroup 0 (fun g => { g with pendW := [rec1] }))
    (fun t => t.mem.get 0x10100) = some 7#8 := by decide +kernel
theorem test_hart_div : after (.hartRv64gcInstruction 4#3 (.mulDiv .div 3#5 1#5 2#5)) (hartB [(1, 0xFFFFFFFFFFFFFFF9#64), (2, 2#64)] (fun g => g))
    (fun t => (t.group 0).map (fun g => mget g.hart.x 3)) = some (some (some 0xFFFFFFFFFFFFFFFD#64)) := by decide +kernel
theorem test_setbudget : after (.setbudget 0) (cmdB 9#8 7#56 id) (fun t => ((t.ctx 0).hbudget, (t.part 0).st)) = some (7#32, 0#8) := by
  decide +kernel
/-- The digest of "abc" that FIPS 180 prints: its first word. -/
theorem test_sha : beNat ((sha512Bytes [0x61#8, 0x62#8, 0x63#8]).take 8) = 0xDDAF35A193617ABA := by decide +kernel

end Sys2Proof.Tests
end

/-! ## Results that keep memory in its canonical form

A step goes through several hundred operations, each of which returns a state, or an option, a result, an outcome or
a computation that carries one. For each kind of answer a predicate says that every state in it has memory in
canonical form (R4, log 2). Operations that leave memory alone have a law `…_mem`; the others have a law `…_sound`,
or `…_keeps` for a computation, whose proof takes its steps apart one by one and asks the law of each. Memory changes
in two ways only: `State.poke` writes bytes, and a package reset filters the listed ones. -/

namespace Sys2Proof.Machine

/-- The next state of an outcome, if there is one, has memory in canonical form. -/
def SoundOut (o : Host.Outcome State Fault Refusal) : Prop := ∀ t, o = .next t → t.mem.wf
/-- So has the state of an option, if there is one. -/
def SoundOpt (o : Option State) : Prop := ∀ t, o = some t → t.mem.wf
/-- So has the state that a result gives. -/
def SoundEx {ε : Type} (r : Except ε State) : Prop := ∀ t, r = .ok t → t.mem.wf
/-- So has the state that a result gives beside a value. -/
def SoundRes {ε α : Type} (r : Except ε (α × State)) : Prop := ∀ a t, r = .ok (a, t) → t.mem.wf
/-- So has the state that a tile task leaves, whether its rows went through or one of them stopped it. -/
def SoundTask (r : Except (EngStop × FFlags × State) (FFlags × State)) : Prop :=
  (∀ a t, r = .ok (a, t) → t.mem.wf) ∧ ∀ x a t, r = .error (x, a, t) → t.mem.wf
/-- So has the state that a matrix collective leaves. -/
def SoundMx (o : MxOutcome) : Prop := ∀ t bad, o = .done t bad → t.mem.wf
/-- A computation over the machine keeps memory in canonical form. -/
def Keeps {ε α : Type} (m : StateT State (Except ε) α) : Prop := ∀ s, s.mem.wf → SoundRes (m s)

/-! ### The cases of an answer -/

section
variable {s t : State}

@[simp] theorem soundOut_next : SoundOut (.next t) ↔ t.mem.wf := by simp [SoundOut]
@[simp] theorem soundOut_fault (x) : SoundOut (.fault x) := nofun
@[simp] theorem soundOut_refused (x) : SoundOut (.refused x) := nofun
@[simp] theorem soundOpt_none : SoundOpt none := nofun
@[simp] theorem soundOpt_some : SoundOpt (some t) ↔ t.mem.wf := by simp [SoundOpt]
@[simp] theorem soundEx_error {ε : Type} (x : ε) : SoundEx (.error x) := nofun
@[simp] theorem soundEx_ok {ε : Type} : SoundEx (.ok t : Except ε State) ↔ t.mem.wf := by simp [SoundEx]
@[simp] theorem soundRes_error {ε α : Type} (x : ε) : SoundRes (.error x : Except ε (α × State)) := nofun
@[simp] theorem soundRes_ok {ε α : Type} (a : α) : SoundRes (.ok (a, t) : Except ε (α × State)) ↔ t.mem.wf := by
  simp [SoundRes]
@[simp] theorem soundMx_fail (c) : SoundMx (.fail c) := nofun
@[simp] theorem soundMx_done (bad) : SoundMx (.done t bad) ↔ t.mem.wf := by simp [SoundMx]

/-! ### Answers made of answers -/

theorem SoundOpt.or {a b : Option State} (ha : SoundOpt a) (hb : SoundOpt b) : SoundOpt (a.or b) := by
  cases a with
  | none => exact hb
  | some t => exact ha

theorem SoundOpt.bind {α : Type} {o : Option α} {f : α → Option State} (hf : ∀ a, o = some a → SoundOpt (f a)) :
    SoundOpt (o.bind f) := by
  cases o with
  | none => exact soundOpt_none
  | some a => exact hf a rfl

theorem SoundOpt.map {α : Type} {o : Option α} {f : α → State} (hf : ∀ a, o = some a → (f a).mem.wf) :
    SoundOpt (o.map f) := by
  cases o with
  | none => exact soundOpt_none
  | some a => exact soundOpt_some.2 (hf a rfl)

theorem SoundOpt.getD {o : Option State} (hs : s.mem.wf) (ho : SoundOpt o) : (o.getD s).mem.wf := by
  cases o with
  | none => exact hs
  | some t => exact ho t rfl

theorem SoundRes.map {ε α β : Type} {r : Except ε (α × State)} (hr : SoundRes r) (f : α → β) :
    SoundRes (r.map fun p => (f p.1, p.2)) := by
  cases r with
  | error x => exact soundRes_error x
  | ok p => exact (soundRes_ok _).2 (hr p.1 p.2 rfl)

theorem SoundRes.mapState {ε α : Type} {r : Except ε (α × State)} (hr : SoundRes r) {f : α × State → State}
    (hf : ∀ p : α × State, (f p).mem = p.2.mem) : SoundEx (r.map f) := by
  cases r with
  | error x => exact soundEx_error x
  | ok p => exact soundEx_ok.2 (hf p ▸ hr p.1 p.2 rfl)

@[simp] theorem Outcome.map_sound {h : State → State} {o} (ho : SoundOut o)
    (hh : ∀ s : State, s.mem.wf → (h s).mem.wf) : SoundOut (Outcome.map h o) := by
  cases o with
  | next t => exact soundOut_next.2 (hh t (ho t rfl))
  | fault x => exact soundOut_fault x
  | refused x => exact soundOut_refused x

@[simp] theorem andThen_sound {h : State → Host.Outcome State Fault Refusal} {o} (ho : SoundOut o)
    (hh : ∀ s : State, s.mem.wf → SoundOut (h s)) : SoundOut (andThen o h) := by
  cases o with
  | next t => exact hh t (ho t rfl)
  | fault x => exact soundOut_fault x
  | refused x => exact soundOut_refused x

@[simp] theorem foldl_mem {α : Type} {f : State → α → State} (hf : ∀ s x, (f s x).mem = s.mem) (l : List α) :
    (l.foldl f s).mem = s.mem :=
  List.foldlRecOn (motive := fun t => t.mem = s.mem) l f rfl fun t ht x _ => (hf t x).trans ht

@[simp] theorem foldl_wf {α : Type} {f : State → α → State} (hs : s.mem.wf) (hf : ∀ s x, s.mem.wf → (f s x).mem.wf)
    (l : List α) : (l.foldl f s).mem.wf :=
  List.foldlRecOn (motive := fun t => t.mem.wf) l f hs fun t ht x _ => hf t x ht

@[simp] theorem firstOf_sound {α : Type} {q : Nat → α → Option State} (hq : ∀ k x, SoundOpt (q k x)) (m : AMap α) :
    SoundOpt (firstOf q m) := by
  induction m with
  | nil => exact soundOpt_none
  | cons e m ih =>
    obtain ⟨k, v⟩ := e
    unfold firstOf
    split
    · next t h => exact h ▸ hq k v
    · exact ih

/-! ### Computations -/

section
variable {ε α β : Type}

@[simp] theorem pure_keeps (a : α) : Keeps (pure a : StateT State (Except ε) α) := by
  intro s hs b t h
  cases h
  exact hs

@[simp] theorem bind_keeps {m : StateT State (Except ε) α} {k : α → StateT State (Except ε) β} (hm : Keeps m)
    (hk : ∀ a, Keeps (k a)) : Keeps (m >>= k) := by
  intro s hs b t h
  simp only [Bind.bind, StateT.bind, Except.bind] at h
  split at h
  · cases h
  · next r hr => exact hk r.1 r.2 (hm s hs r.1 r.2 hr) b t h

@[simp] theorem map_keeps {m : StateT State (Except ε) α} (hm : Keeps m) (f : α → β) : Keeps (f <$> m) := by
  rw [← bind_pure_comp]
  exact bind_keeps hm fun a => pure_keeps (f a)

@[simp] theorem ite_keeps {c : Prop} [Decidable c] {m n : StateT State (Except ε) α} (hm : Keeps m) (hn : Keeps n) :
    Keeps (if c then m else n) := by
  split <;> assumption

@[simp] theorem get_keeps : Keeps (get : StateT State (Except ε) State) := by
  intro s hs b t h
  cases h
  exact hs

/-- The state that a computation reads is the one it goes on from. -/
theorem get_bind_keeps {k : State → StateT State (Except ε) β} (hk : ∀ s : State, s.mem.wf → Keeps (k s)) :
    Keeps (get >>= k) := fun s hs => hk s hs s hs

@[simp] theorem set_keeps (hs : s.mem.wf) : Keeps (set s : StateT State (Except ε) PUnit) := by
  intro _ _ b t h
  cases h
  exact hs

@[simp] theorem modify_keeps {f : State → State} (hf : ∀ s : State, s.mem.wf → (f s).mem.wf) :
    Keeps (modify f : StateT State (Except ε) PUnit) := by
  intro s hs b t h
  cases h
  exact hf s hs

end

@[simp] theorem exc_keeps {α : Type} (x) : Keeps (exc x : SlotM α) := fun _ _ => soundRes_error x
@[simp] theorem raise_keeps {α : Type} (c ta ti) : Keeps (raise c ta ti : SlotM α) := exc_keeps _

theorem msortedFrom_filter {α : Type} {m : AMap α} {lo : Nat} (hm : msortedFrom lo m = true) (p : Nat × α → Bool) :
    msortedFrom lo (m.filter p) = true := by
  induction m generalizing lo with
  | nil => rfl
  | cons e m ih =>
    simp only [msortedFrom, Bool.and_eq_true, decide_eq_true_eq] at hm
    rw [List.filter_cons]
    split
    · simp only [msortedFrom, Bool.and_eq_true, decide_eq_true_eq]
      exact ⟨hm.1, ih hm.2⟩
    · exact msortedFrom_mono (by omega) (ih hm.2)

/-- What is left of a byte store is in canonical form. -/
theorem Memory.filter_wf {m : Memory} (hm : m.wf) (p) : Memory.wf (m.filter p) := by
  obtain ⟨h1, h2⟩ := (Memory.wf_iff m).1 hm
  exact (Memory.wf_iff _).2 ⟨msortedFrom_filter h1 p, fun c hc => h2 c (List.mem_filter.1 hc).1⟩

/-! ### Translation and fault records (Machine/Mem) -/

@[simp] theorem State.spend_mem (s : State) (cid n) : (s.spend cid n).mem = s.mem := by
  unfold State.spend
  split <;> simp

@[simp] theorem tlbFill_mem (s : State) (via e) : (tlbFill s via e).mem = s.mem := by
  unfold tlbFill
  split <;> simp

@[simp] theorem walkFill_mem (s : State) (die cid va path) : (walkFill s die cid va path).mem = s.mem := by
  simp [walkFill]

@[simp] theorem tlbDrop_mem (s : State) (p) : (tlbDrop s p).mem = s.mem := by
  simp [tlbDrop]

@[simp] theorem walk_sound (hs : s.mem.wf) (via cid va acc cached) : SoundRes (walk s via cid va acc cached) := by
  grind [walk, State.poke_wf, State.spend_mem, State.reachAt_mem, walkFill_mem, tlbFill_mem, SoundRes]

@[simp] theorem walkAgain_sound (hs : s.mem.wf) (via cid va acc) : SoundRes (walkAgain s via cid va acc) := by
  grind [walkAgain, walk_sound, SoundRes]

@[simp] theorem xlate_sound (hs : s.mem.wf) (via cid va acc) : SoundRes (xlate s via cid va acc) := by
  grind [xlate, State.reachAt_mem, walkAgain_sound, SoundRes]

@[simp] theorem walkAhead_mem (s : State) (die cid va) : (walkAhead s die cid va).mem = s.mem := by
  grind [walkAhead, State.setDie_mem]

@[simp] theorem xlateEach_sound (hs : s.mem.wf) (via cid acc v) : SoundRes (xlateEach s via cid acc v) := by
  fun_induction xlateEach s via cid acc v <;> grind [xlate_sound, SoundRes]

@[simp] theorem xlateBytes_sound (hs : s.mem.wf) (via cid acc vas) : SoundRes (xlateBytes s via cid acc vas) := by
  simp [xlateBytes, hs]

@[simp] theorem fqPut_sound (hs : s.mem.wf) (cid r) : SoundOpt (fqPut s cid r) := by
  grind [fqPut, State.poke_wf, State.setCtx_mem, State.reachAt_mem, SoundOpt]

@[simp] theorem ctxRecord_sound (hs : s.mem.wf) (cid r) : (ctxRecord s cid r).1.mem.wf := by
  grind [ctxRecord, State.setCtx_mem, fqPut_sound, SoundOpt]

@[simp] theorem pfqPut_sound (hs : s.mem.wf) (vf r) : SoundOpt (pfqPut s vf r) := by
  grind [pfqPut, State.poke_wf, State.setPart_mem, SoundOpt]

@[simp] theorem partRecord_sound (hs : s.mem.wf) (cid r) : (partRecord s cid r).mem.wf := by
  grind [partRecord, State.setPart_mem, pfqPut_sound, SoundOpt]

/-! ### Traps and the computation of a slot (Machine/Ops) -/

@[simp] theorem stopThread_sound (hs : s.mem.wf) (gid t c epc ta ti) : (stopThread s gid t c epc ta ti).mem.wf := by
  unfold stopThread
  split <;> simp [hs]

@[simp] theorem takeTrap_sound (hs : s.mem.wf) (gid t c epc rep ta ti z) :
    (takeTrap s gid t c epc rep ta ti z).mem.wf := by
  grind [takeTrap, State.modThread_mem, stopThread_sound, State.modGroup_mem]

@[simp] theorem takeReplay_sound (hs : s.mem.wf) (gid t u rec f) : (takeReplay s gid t u rec f).mem.wf := by
  grind [takeReplay, ctxRecord_sound, partRecord_sound, State.modThread_mem, State.modGroup_mem]

@[simp] theorem illegalOperand_keeps {α : Type} : Keeps (illegalOperand : SlotM α) := by
  simp +contextual [illegalOperand]

@[simp] theorem liftE_keeps {α : Type} (x) : Keeps (liftE x : SlotM α) := by
  cases x with
  | ok a => exact pure_keeps a
  | error x => exact exc_keeps x

/-- A computation that goes on from a state that a fetch gave it. -/
theorem liftE_bind_keeps {α β : Type} {x : Except Exc (α × State)} {k : α × State → SlotM β} (hx : SoundRes x)
    (hk : ∀ a (t : State), t.mem.wf → Keeps (k (a, t))) : Keeps (liftE x >>= k) := by
  cases x with
  | ok p => exact hk p.1 p.2 (hx p.1 p.2 rfl)
  | error x => exact fun _ _ => soundRes_error x

@[simp] theorem modTh_keeps (e h) : Keeps (modTh e h) := by
  simp +contextual [modTh]

@[simp] theorem modG_keeps (e h) : Keeps (modG e h) := by
  simp +contextual [modG]

@[simp] theorem getG_keeps (e) : Keeps (getG e) := by
  simp +contextual [getG]

@[simp] theorem getTh_keeps (e) : Keeps (getTh e) := by
  simp +contextual [getTh]

@[simp] theorem trapNow_keeps (e c epc rep ta ti) : Keeps (trapNow e c epc rep ta ti) := by
  simp +contextual [trapNow]

/-! ### The shape of a slot (Machine/Flags) -/

@[simp] theorem onThread_keeps {α : Type} (e m) : Keeps (onThread e m : SlotM α) := by
  intro s hs
  unfold onThread
  split
  · exact soundRes_error _
  · split <;> simp [hs]

@[simp] theorem endSlot_keeps (e fl) : Keeps (endSlot e fl) := by
  unfold endSlot
  repeat' first | with_reducible apply bind_keeps | with_reducible intro _ | split
  all_goals simp +contextual

@[simp] theorem checkEnc_keeps (en f) : Keeps (checkEnc en f) := by
  simp +contextual [checkEnc]

@[simp] theorem noteHeld_sound (hs : s.mem.wf) (cid kid) : (noteHeld s cid kid).mem.wf := by
  unfold noteHeld
  split <;> simp [hs]

@[simp] theorem blockAt_mem (s : State) (gid t w) : (blockAt s gid t w).mem = s.mem := by
  simp [blockAt]

@[simp] theorem resolveExc_sound (hs : s.mem.wf) (e x) : SoundOut (resolveExc e s x) := by
  unfold resolveExc
  grind [takeTrap_sound, noteHeld_sound, blockAt_mem, takeReplay_sound, State.setCore_mem, State.modThread_mem,
    SoundOut]

@[simp] theorem runSlot_sound {m : Env → SlotM Unit} (hs : s.mem.wf) (hm : ∀ e, e.s.mem.wf → Keeps (m e)) :
    SoundOut (runSlot m s) := by
  unfold runSlot
  split
  · exact soundOut_fault _
  · next e he =>
    obtain ⟨-, -, rfl⟩ := envOf_thread he
    split
    · next h => exact soundOut_next.2 (hm e hs _ hs _ _ h)
    · exact resolveExc_sound hs _ _

@[simp] theorem runInstr_sound {m : Env → Enc → SlotM Unit} (hs : s.mem.wf) (hm : ∀ e en, Keeps (m e en)) (i f) :
    SoundOut (runInstr i f m s) := by
  refine runSlot_sound hs fun e _ => ?_
  split
  · exact raise_keeps _ _ _
  · simp [hm]

@[simp] theorem guardedSlot_keeps {m : Srcs → SlotM FFlags} (hm : ∀ x, Keeps (m x)) (e en f) :
    Keeps (guardedSlot e en f m) := by
  unfold guardedSlot
  repeat' first | with_reducible apply bind_keeps | with_reducible intro _ | split
  all_goals simp [hm]

@[simp] theorem runGuarded_sound {m : Env → Enc → Srcs → SlotM FFlags} (hs : s.mem.wf)
    (hm : ∀ e en x, Keeps (m e en x)) (i f) : SoundOut (runGuarded i f m s) := by
  grind [runGuarded, runInstr_sound, guardedSlot_keeps, SoundOut]

@[simp] theorem deliver_keeps (e kind f vs) : Keeps (deliver e kind f vs) := by
  simp +contextual [deliver]

@[simp] theorem runAlu_sound (hs : s.mem.wf) (i f body) : SoundOut (runAlu i f body s) := by
  simp [runAlu, hs]

/-! ### Memory as threads and engines reach it (Machine/Access) -/

@[simp] theorem stampGlobal_sound (hs : s.mem.wf) (cid new pas) : (stampGlobal s cid new pas).mem.wf := by
  grind [stampGlobal, ctxRecord_sound, State.setCtx_mem]

@[simp] theorem spTouchSt_keeps (e gid keys new) : Keeps (spTouchSt e gid keys new) := by
  unfold spTouchSt
  dsimp only
  repeat' first | with_reducible apply bind_keeps | with_reducible intro _ | split
  all_goals simp +contextual

@[simp] theorem spTouch_keeps (e keys wr atomic) : Keeps (spTouch e keys wr atomic) := by
  simp +contextual [spTouch]

@[simp] theorem spCheck_keeps (e off n) : Keeps (spCheck e off n) := by
  simp +contextual [spCheck]

@[simp] theorem spRead_keeps (e off n acq atomic) : Keeps (spRead e off n acq atomic) := by
  unfold spRead
  repeat' first | with_reducible apply bind_keeps | with_reducible intro _ | split
  all_goals simp +contextual

@[simp] theorem spWrite_keeps (e off bs atomic keep heads) : Keeps (spWrite e off bs atomic keep heads) := by
  unfold spWrite
  dsimp only
  repeat' first | with_reducible apply bind_keeps | with_reducible intro _ | split
  all_goals simp +contextual

@[simp] theorem State.homes_sound (hs : s.mem.wf) (kid vas pas) : (s.homes kid vas pas).2.mem.wf := by
  grind [State.homes]

@[simp] theorem State.sendBytes_sound (hs : s.mem.wf) (cid n) : SoundOpt (s.sendBytes cid n) := by
  unfold State.sendBytes
  split <;> simp [hs]

@[simp] theorem State.sendOut_sound (hs : s.mem.wf) (cid acc pas) : SoundOpt (s.sendOut cid acc pas) := by
  unfold State.sendOut
  split <;> simp [hs]

@[simp] theorem State.leavePage_mem (s : State) (cid vg) : (s.leavePage cid vg).mem = s.mem := by
  grind [State.leavePage, State.setCtx_mem]

@[simp] theorem State.meetFrame_mem (s : State) (cid vg pg) : (s.meetFrame cid vg pg).mem = s.mem := by
  grind [State.meetFrame, State.setCtx_mem]

@[simp] theorem State.arrive_mem (s : State) (cid vas pas) : (s.arrive cid vas pas).mem = s.mem := by
  unfold State.arrive
  split <;> simp

@[simp] theorem gXlate_keeps (e via acc vas) : Keeps (gXlate e via acc vas) := by
  intro s hs
  grind [gXlate, xlateBytes_sound, State.sendOut_sound, State.arrive_mem, SoundRes, SoundOpt]

@[simp] theorem gHome_keeps (e vas pas) : Keeps (gHome e vas pas) :=
  fun _ hs => (soundRes_ok _).2 (State.homes_sound hs ..)

@[simp] theorem gTouchSt_keeps (e vas pas new) : Keeps (gTouchSt e vas pas new) := by
  unfold gTouchSt
  dsimp only
  repeat' first | with_reducible apply bind_keeps | with_reducible intro _ | split
  all_goals simp +contextual

@[simp] theorem gTouch_keeps (e vas pas wr atomic) : Keeps (gTouch e vas pas wr atomic) := by
  simp +contextual [gTouch]

@[simp] theorem notifyCheck_keeps (e atomic vas pas) : Keeps (notifyCheck e atomic vas pas) := by
  unfold notifyCheck
  repeat' first | with_reducible apply bind_keeps | with_reducible intro _ | split
  all_goals simp +contextual

@[simp] theorem gRead_keeps (e via acc vas acq atomic) : Keeps (gRead e via acc vas acq atomic) := by
  unfold gRead
  dsimp only
  repeat' first | with_reducible apply bind_keeps | with_reducible intro _ | split
  all_goals simp +contextual

@[simp] theorem queueItem_keeps (e va item) : Keeps (queueItem e va item) := by
  unfold queueItem
  repeat' first | with_reducible apply bind_keeps | with_reducible intro _ | split
  all_goals simp +contextual

@[simp] theorem pokeAll_sound (hs : s.mem.wf) (key l) : (pokeAll s key l).mem.wf := by
  induction l generalizing s with
  | nil => exact hs
  | cons e l ih => exact ih (State.poke_wf _ _ _ hs)

@[simp] theorem pokeRuns_sound (hs : s.mem.wf) (key pas bs) : (pokeRuns s key pas bs).mem.wf := by
  unfold pokeRuns
  grind [State.poke_wf, pokeAll_sound]

@[simp] theorem queueWrites_keeps (e unit l n) : Keeps (queueWrites e unit l n) := by
  induction n generalizing l with
  | zero => exact pure_keeps ()
  | succ n ih => cases l <;> simp [queueWrites, ih]

@[simp] theorem gWrite_keeps (e unit vas bs atomic keep heads) : Keeps (gWrite e unit vas bs atomic keep heads) := by
  unfold gWrite
  dsimp only
  repeat' first | with_reducible apply bind_keeps | with_reducible intro _ | split
  all_goals simp +contextual

/-! ### Global loads and stores (Machine/GlobalMem) -/

@[simp] theorem gAddrOk_keeps (a b acc) : Keeps (gAddrOk a b acc) := by
  unfold gAddrOk
  dsimp only
  repeat' first | with_reducible apply bind_keeps | with_reducible intro _ | split
  all_goals simp +contextual

@[simp] theorem aligned_keeps (addr n) : Keeps (aligned addr n) := by
  simp +contextual [aligned]

@[simp] theorem execLd_sound (hs : s.mem.wf) (f) : SoundOut (execLd f s) := by
  refine runGuarded_sound hs (fun e en x => ?_) _ _
  dsimp only
  repeat' first | with_reducible apply bind_keeps | with_reducible intro _ | split
  all_goals simp +contextual

@[simp] theorem execSt_sound (hs : s.mem.wf) (f) : SoundOut (execSt f s) := by
  refine runGuarded_sound hs (fun e en x => ?_) _ _
  dsimp only
  repeat' first | with_reducible apply bind_keeps | with_reducible intro _ | split
  all_goals simp +contextual

@[simp] theorem execLdv_sound (hs : s.mem.wf) (f) : SoundOut (execLdv f s) := by
  refine runGuarded_sound hs (fun e en x => ?_) _ _
  dsimp only
  repeat' first | with_reducible apply bind_keeps | with_reducible intro _ | split
  all_goals simp +contextual

@[simp] theorem execStv_sound (hs : s.mem.wf) (f) : SoundOut (execStv f s) := by
  refine runGuarded_sound hs (fun e en x => ?_) _ _
  repeat' first | with_reducible apply bind_keeps | with_reducible intro _ | split
  all_goals simp +contextual

@[simp] theorem execLdna_sound (hs : s.mem.wf) (f) : SoundOut (execLdna f s) := by
  refine runGuarded_sound hs (fun e en x => ?_) _ _
  dsimp only
  repeat' first | with_reducible apply bind_keeps | with_reducible intro _ | split
  all_goals simp +contextual

@[simp] theorem execStna_sound (hs : s.mem.wf) (f) : SoundOut (execStna f s) := by
  refine runGuarded_sound hs (fun e en x => ?_) _ _
  dsimp only
  repeat' first | with_reducible apply bind_keeps | with_reducible intro _ | split
  all_goals simp +contextual

@[simp] theorem execPf_sound (hs : s.mem.wf) (f) : SoundOut (execPf f s) := by
  simp [execPf, hs]

@[simp] theorem execLdt_sound (hs : s.mem.wf) (f) : SoundOut (execLdt f s) := by
  refine runInstr_sound hs (fun e en => ?_) _ _
  refine ite_keeps (by simp) (guardedSlot_keeps (fun x => ?_) _ _ _)
  dsimp only
  repeat' first | with_reducible apply bind_keeps | with_reducible intro _ | split
  all_goals simp +contextual

/-! ### Atomics and wide cells (Machine/Atomics) -/

@[simp] theorem nondet_keeps {α : Type} (e) : Keeps (nondet e : SlotM α) := by
  simp +contextual [nondet]

@[simp] theorem tickRelease_keeps (e ord) : Keeps (tickRelease e ord) := by
  simp +contextual [tickRelease]

@[simp] theorem rmwGlobal_keeps (e a r) : Keeps (rmwGlobal e a r) := by
  unfold rmwGlobal
  dsimp only
  repeat' first | with_reducible apply bind_keeps | with_reducible intro _ | split
  all_goals simp +contextual

@[simp] theorem rmwSp_keeps (e off r) : Keeps (rmwSp e off r) := by
  unfold rmwSp
  dsimp only
  repeat' first | with_reducible apply bind_keeps | with_reducible intro _ | split
  all_goals simp +contextual

@[simp] theorem rmwAt_keeps (e sp x r) : Keeps (rmwAt e sp x r) := by
  unfold rmwAt
  dsimp only
  repeat' first | with_reducible apply bind_keeps | with_reducible intro _ | split
  all_goals simp +contextual

@[simp] theorem execAtomI32_sound (hs : s.mem.wf) (ord sc f) : SoundOut (execAtomI32 ord sc f s) := by
  refine runGuarded_sound hs (fun e en x => ?_) _ _
  repeat' first | with_reducible apply bind_keeps | with_reducible intro _ | split
  all_goals simp +contextual

@[simp] theorem execAtomI64_sound (hs : s.mem.wf) (ord sc f) : SoundOut (execAtomI64 ord sc f s) := by
  refine runGuarded_sound hs (fun e en x => ?_) _ _
  repeat' first | with_reducible apply bind_keeps | with_reducible intro _ | split
  all_goals simp +contextual

@[simp] theorem execAtomF32_sound (hs : s.mem.wf) (ord sc f) : SoundOut (execAtomF32 ord sc f s) := by
  refine runGuarded_sound hs (fun e en x => ?_) _ _
  repeat' first | with_reducible apply bind_keeps | with_reducible intro _ | split
  all_goals simp +contextual

@[simp] theorem execAtomcasB32_sound (hs : s.mem.wf) (ord sc f) : SoundOut (execAtomcasB32 ord sc f s) := by
  refine runGuarded_sound hs (fun e en x => ?_) _ _
  dsimp only
  repeat' first | with_reducible apply bind_keeps | with_reducible intro _ | split
  all_goals simp +contextual

@[simp] theorem execAtomcasB64_sound (hs : s.mem.wf) (ord sc f) : SoundOut (execAtomcasB64 ord sc f s) := by
  refine runGuarded_sound hs (fun e en x => ?_) _ _
  dsimp only
  repeat' first | with_reducible apply bind_keeps | with_reducible intro _ | split
  all_goals simp +contextual

@[simp] theorem queueRed_keeps (e x al item) : Keeps (queueRed e x al item) := by
  unfold queueRed
  repeat' first | with_reducible apply bind_keeps | with_reducible intro _ | split
  all_goals simp +contextual

@[simp] theorem execRedI32_sound (hs : s.mem.wf) (ord sc f) : SoundOut (execRedI32 ord sc f s) := by
  refine runGuarded_sound hs (fun e en x => ?_) _ _
  dsimp only
  repeat' first | with_reducible apply bind_keeps | with_reducible intro _ | split
  all_goals simp +contextual

@[simp] theorem execRedF32_sound (hs : s.mem.wf) (ord sc f) : SoundOut (execRedF32 ord sc f s) := by
  refine runGuarded_sound hs (fun e en x => ?_) _ _
  dsimp only
  repeat' first | with_reducible apply bind_keeps | with_reducible intro _ | split
  all_goals simp +contextual

@[simp] theorem windowOk_keeps (w) : Keeps (windowOk w) := by
  simp +contextual [windowOk]

@[simp] theorem waddAt_keeps (e f sc dbl x) : Keeps (waddAt e f sc dbl x) := by
  unfold waddAt
  dsimp only
  repeat' first | with_reducible apply bind_keeps | with_reducible intro _ | split
  all_goals simp +contextual

@[simp] theorem execWaddF32_sound (hs : s.mem.wf) (sc f) : SoundOut (execWaddF32 sc f s) := by
  simp [execWaddF32, hs]

@[simp] theorem execWaddF64_sound (hs : s.mem.wf) (sc f) : SoundOut (execWaddF64 sc f s) := by
  simp [execWaddF64, hs]

@[simp] theorem execWrdF64_sound (hs : s.mem.wf) (sc f) : SoundOut (execWrdF64 sc f s) := by
  refine runGuarded_sound hs (fun e en x => ?_) _ _
  dsimp only
  repeat' first | with_reducible apply bind_keeps | with_reducible intro _ | split
  all_goals simp +contextual

@[simp] theorem execWset_sound (hs : s.mem.wf) (sc f) : SoundOut (execWset sc f s) := by
  refine runGuarded_sound hs (fun e en x => ?_) _ _
  dsimp only
  repeat' first | with_reducible apply bind_keeps | with_reducible intro _ | split
  all_goals simp +contextual

/-! ### Fetching and decoding (Machine/Fetch) -/

@[simp] theorem fetchBytes_sound (hs : s.mem.wf) (core cid va n) : SoundRes (fetchBytes s core cid va n) := by
  grind [fetchBytes, xlateBytes_sound, State.sendOut_sound, SoundOpt, SoundRes]

@[simp] theorem fetchWord_sound (hs : s.mem.wf) (core cid va) : SoundRes (fetchWord s core cid va) := by
  grind [fetchWord, fetchBytes_sound, SoundRes]

@[simp] theorem fetchWords_sound (hs : s.mem.wf) (core cid va v) : SoundRes (fetchWords s core cid va v) := by
  fun_induction fetchWords s core cid va v <;> grind [fetchWord_sound, SoundRes]

@[simp] theorem slotAt_sound (hs : s.mem.wf) (core cid pc rep) : SoundRes (slotAt s core cid pc rep) := by
  grind [slotAt, fetchWord_sound, fetchWords_sound, SoundRes]

/-! ### Memory as engine operations reach it (Machine/EngAccess) -/

@[simp] theorem engReadSp_sound (hs : s.mem.wf) (ag off n) : SoundRes (engReadSp s ag off n) := by
  grind [engReadSp, State.setGroup_mem, SoundRes]

@[simp] theorem engWriteSp_sound (hs : s.mem.wf) (ag off bs atomic keep heads) :
    SoundEx (engWriteSp s ag off bs atomic keep heads) := by
  grind [engWriteSp, State.setGroup_mem, SoundEx]

@[simp] theorem engTouch_sound (hs : s.mem.wf) (ag vas pas wr) : SoundEx (engTouch s ag vas pas wr) := by
  grind [engTouch, stampGlobal_sound, SoundEx]

@[simp] theorem EngAgent.bytes_sound (hs : s.mem.wf) (ag vas pas) : (EngAgent.bytes ag s vas pas).2.mem.wf := by
  unfold EngAgent.bytes
  split <;> simp [hs]

@[simp] theorem viaXlate_sound (hs : s.mem.wf) (via cid acc vas) : SoundRes (viaXlate s via cid acc vas) := by
  grind [viaXlate, xlateBytes_sound, State.sendOut_sound, State.arrive_mem, SoundOpt, SoundRes]

@[simp] theorem engXlate_sound (hs : s.mem.wf) (ag acc vas) : SoundRes (engXlate s ag acc vas) := by
  simp [engXlate, hs]

@[simp] theorem engRead_sound (hs : s.mem.wf) (ag vas) : SoundRes (engRead s ag vas) := by
  grind [engRead, engXlate_sound, engTouch_sound, EngAgent.bytes_sound, SoundEx, SoundRes]

@[simp] theorem engWrite_sound (hs : s.mem.wf) (ag vas bs) : SoundEx (engWrite s ag vas bs) := by
  unfold engWrite
  split
  · exact soundEx_error _
  · next h =>
    have h1 := engXlate_sound hs ag 1#2 vas _ _ h
    split
    · exact soundEx_error _
    · next h =>
      have h2 := engTouch_sound h1 ag vas _ true _ h
      grind [pokeRuns_sound, State.homes_sound, State.setGroup_mem, SoundEx]

@[simp] theorem engGet_sound (hs : s.mem.wf) (ag sp a n) : SoundRes (engGet s ag sp a n) := by
  unfold engGet
  split <;> simp [hs]

@[simp] theorem engPut_sound (hs : s.mem.wf) (ag sp a bs) : SoundEx (engPut s ag sp a bs) := by
  unfold engPut
  split <;> simp [hs]

@[simp] theorem engRecord_sound (hs : s.mem.wf) (ag c addr info again) : (engRecord s ag c addr info again).mem.wf := by
  simp [engRecord, hs]

@[simp] theorem stallRecord_sound (hs : s.mem.wf) (ag rec again) : (stallRecord s ag rec again).mem.wf := by
  unfold stallRecord
  split <;> simp [hs]

/-! ### Tiles and the matrix engine (Machine/Matrix) -/

@[simp] theorem mxAppend_mem (s : State) (gid sg c peers kind) : (mxAppend s gid sg c peers kind).mem = s.mem := by
  unfold mxAppend
  split
  · rfl
  · simp

@[simp] theorem mldwInstance_sound (hs : s.mem.wf) (gid sg g f peers) : SoundMx (mldwInstance s gid sg g f peers) := by
  unfold mldwInstance
  dsimp only
  split <;> simp [hs]

@[simp] theorem mscaleInstance_sound (hs : s.mem.wf) (gid sg g f ps) : SoundMx (mscaleInstance s gid sg g f ps) := by
  unfold mscaleInstance
  dsimp only
  repeat' split
  all_goals simp [hs]

@[simp] theorem mscaleClrInstance_sound (hs : s.mem.wf) (gid sg g f peers) :
    SoundMx (mscaleClrInstance s gid sg g f peers) := by
  unfold mscaleClrInstance
  dsimp only
  split <;> simp [hs]

@[simp] theorem mmaaInstance_sound (hs : s.mem.wf) (gid sg g k f ps) : SoundMx (mmaaInstance s gid sg g k f ps) := by
  unfold mmaaInstance
  dsimp only
  repeat' split
  all_goals simp [hs]

@[simp] theorem mcommitInstance_sound (hs : s.mem.wf) (gid sg g f ps) :
    SoundMx (mcommitInstance s gid sg g f ps).1 := by
  unfold mcommitInstance
  dsimp only
  split <;> simp [hs]

@[simp] theorem mxInstance_sound (hs : s.mem.wf) (gid sg g i ps) : SoundMx (mxInstance s gid sg g i ps) := by
  unfold mxInstance
  repeat' split
  all_goals simp [hs]

/-! ### What completes by itself (Machine/Settle) -/

@[simp] theorem State.modThreads_mem (s : State) (gid ts h) : (s.modThreads gid ts h).mem = s.mem := by
  simp [State.modThreads]

@[simp] theorem trapWaiting_sound (hs : s.mem.wf) (gid ts c ti) : (trapWaiting s gid ts c ti).mem.wf := by
  grind [trapWaiting, takeTrap_sound, State.setGroup_mem, foldl_wf]

@[simp] theorem settleJoin_sound (hs : s.mem.wf) (gid g) : SoundOpt (settleJoin s gid g) := by
  grind [settleJoin, State.modGroup_mem, State.modThreads_mem, firstOf_sound, SoundOpt]

@[simp] theorem laneDeliver_sound (hs : s.mem.wf) (gid z ps me i) : (laneDeliver s gid z ps me i).mem.wf := by
  grind [laneDeliver, State.setThread_mem, takeTrap_sound]

@[simp] theorem collComplete_sound (hs : s.mem.wf) (gid g sg ms) : (collComplete s gid g sg ms).mem.wf := by
  unfold collComplete
  split
  · exact hs
  · dsimp only
    grind [mxInstance_sound, trapWaiting_sound, State.modThreads_mem, takeTrap_sound, State.setGroup_mem,
      State.bumpInst_mem, laneDeliver_sound, foldl_wf, SoundMx]

@[simp] theorem settleColl_sound (hs : s.mem.wf) (gid g) : SoundOpt (settleColl s gid g) := by
  grind [settleColl, collComplete_sound, firstOf_sound, SoundOpt]

@[simp] theorem settleBar_sound (hs : s.mem.wf) (gid g) : SoundOpt (settleBar s gid g) := by
  grind [settleBar, State.modGroup_mem, firstOf_sound, SoundOpt]

@[simp] theorem settleXbar_sound (hs : s.mem.wf) (_gid g) : SoundOpt (settleXbar s _gid g) := by
  grind [settleXbar, State.modGroup_mem, foldl_wf, SoundOpt]

@[simp] theorem completeLbar_mem (s : State) (kid k) : (completeLbar s kid k).mem = s.mem := by
  simp [completeLbar]

@[simp] theorem settleLbar_sound (hs : s.mem.wf) (kid k) : SoundOpt (settleLbar s kid k) := by
  grind [settleLbar, completeLbar_mem, SoundOpt]

@[simp] theorem settleClaim_sound (hs : s.mem.wf) (gid g) : SoundOpt (settleClaim s gid g) := by
  grind [settleClaim, State.modGroup_mem, firstOf_sound, SoundOpt]

@[simp] theorem settleWaits_sound (hs : s.mem.wf) (gid g) : SoundOpt (settleWaits s gid g) := by
  unfold settleWaits
  split <;> simp [hs]

@[simp] theorem settleUq_sound (hs : s.mem.wf) (gid g) : SoundOpt (settleUq s gid g) := by
  grind [settleUq, State.setGroup_mem, SoundOpt]

@[simp] theorem retireGroup_mem (s : State) (gid g) : (retireGroup s gid g).mem = s.mem := by
  grind [retireGroup, State.setCore_mem, State.setGroup_mem]

@[simp] theorem settleRetire_sound (hs : s.mem.wf) (gid g) : SoundOpt (settleRetire s gid g) := by
  grind [settleRetire, State.setGroup_mem, retireGroup_mem, SoundOpt]

@[simp] theorem settleMismatch_sound (hs : s.mem.wf) (gid g) : SoundOpt (settleMismatch s gid g) := by
  grind [settleMismatch, trapWaiting_sound, SoundOpt]

@[simp] theorem settleBarDead_sound (hs : s.mem.wf) (gid g) : SoundOpt (settleBarDead s gid g) := by
  unfold settleBarDead
  split
  · exact soundOpt_none
  · simp only []
    repeat' split
    all_goals simp +contextual [hs]

@[simp] theorem settleClaimDead_sound (hs : s.mem.wf) (gid g) : SoundOpt (settleClaimDead s gid g) := by
  grind [settleClaimDead, trapWaiting_sound, SoundOpt]

@[simp] theorem raiseLbarDead_sound (hs : s.mem.wf) (gid g n) : (raiseLbarDead s gid g n).mem.wf := by
  simp [raiseLbarDead, hs]

@[simp] theorem settleLbarDead_sound (hs : s.mem.wf) (kid k) : SoundOpt (settleLbarDead s kid k) := by
  grind [settleLbarDead, raiseLbarDead_sound, State.modGroup_mem, foldl_wf, SoundOpt]

@[simp] theorem settleOnce_sound (hs : s.mem.wf) : SoundOpt (settleOnce s) := by
  unfold settleOnce
  dsimp only
  repeat' with_reducible apply SoundOpt.or
  all_goals simp [hs]

@[simp] theorem settleN_sound (hs : s.mem.wf) (x) : (settleN x s).mem.wf := by
  fun_induction settleN x s <;> grind [settleOnce_sound, SoundOpt]

@[simp] theorem settleAll_sound (hs : s.mem.wf) : (settleAll s).mem.wf := by
  simp [settleAll, hs]

/-! ### Clause entry and the emulation vector (Machine/Clause) -/

@[simp] theorem execClauseEntry_sound (hs : s.mem.wf) : SoundOut (execClauseEntry s) := by
  refine runSlot_sound hs fun e he => ?_
  refine liftE_bind_keeps (fetchWord_sound he _ _ _) fun h t ht => ?_
  refine liftE_bind_keeps (fetchWords_sound ht _ _ _ _) fun ws u hu => ?_
  refine bind_keeps (set_keeps hu) fun _ => ?_
  repeat' first | with_reducible apply bind_keeps | with_reducible intro _ | split
  all_goals simp +contextual

@[simp] theorem execRep_sound (hs : s.mem.wf) (r) : SoundOut (execRep r s) := by
  refine runSlot_sound hs fun e he => ?_
  refine liftE_bind_keeps (fetchWord_sound he _ _ _) fun w t ht => ?_
  refine bind_keeps (set_keeps ht) fun _ => ?_
  dsimp only
  repeat' first | with_reducible apply bind_keeps | with_reducible intro _ | split
  all_goals simp +contextual

@[simp] theorem execEmulationVector_sound (hs : s.mem.wf) (why w) : SoundOut (execEmulationVector why w s) := by
  refine runSlot_sound hs fun e _ => ?_
  dsimp only
  repeat' first | with_reducible apply bind_keeps | with_reducible intro _ | split
  all_goals simp +contextual

@[simp] theorem execResultReturn_sound (hs : s.mem.wf) (gid t) : SoundOut (execResultReturn gid t s) := by
  simp [execResultReturn, hs]

@[simp] theorem execHandlerOverrun_sound (hs : s.mem.wf) (gid t) : SoundOut (execHandlerOverrun gid t s) := by
  grind [execHandlerOverrun, stopThread_sound, State.modThread_mem, SoundOut]

@[simp] theorem execHeldAccessPerform_sound (hs : s.mem.wf) (gid t) : SoundOut (execHeldAccessPerform gid t s) := by
  grind [execHeldAccessPerform, State.setThread_mem, SoundOut]

/-! ### Blocking points (Machine/Block) -/

@[simp] theorem onCopy_keeps {α : Type} (e m) : Keeps (onCopy e m : SlotM (α × Thread)) := by
  intro s hs
  unfold onCopy
  split
  · exact soundRes_error _
  · split <;> simp [hs]

@[simp] theorem endBlock_keeps (e) : Keeps (endBlock e) := by
  simp +contextual [endBlock]

@[simp] theorem waitAt_keeps (e w rel pops) : Keeps (waitAt e w rel pops) := by
  unfold waitAt
  dsimp only
  simp +contextual

@[simp] theorem arriveReads_keeps (e en f) : Keeps (arriveReads e en f) := by
  unfold arriveReads
  dsimp only
  repeat' first | with_reducible apply bind_keeps | with_reducible intro _ | split
  all_goals simp +contextual

@[simp] theorem arriveColl_sound (hs : s.mem.wf) (i f) : SoundOut (arriveColl i f s) :=
  runInstr_sound hs (fun e en => by simp) _ _

@[simp] theorem arriveAt_sound {m : Env → Srcs → SlotM (Option Wait)} (hs : s.mem.wf) (hm : ∀ e x, Keeps (m e x))
    (i f) : SoundOut (arriveAt i f m s) := by
  refine runInstr_sound hs (fun e en => ?_) _ _
  repeat' first | with_reducible apply bind_keeps | with_reducible intro _ | split
  all_goals simp [hm]

@[simp] theorem waitKeeping_keeps (e w) : Keeps (waitKeeping e w) := by
  unfold waitKeeping
  dsimp only
  simp +contextual

@[simp] theorem runBlocking_sound {m : Env → Enc → Srcs → SlotM (Option Wait)} (hs : s.mem.wf)
    (hm : ∀ e en x, Keeps (m e en x)) (i f) : SoundOut (runBlocking i f m s) := by
  refine runInstr_sound hs (fun e en => ?_) _ _
  repeat' first | with_reducible apply bind_keeps | with_reducible intro _ | split
  all_goals simp [hm]

/-! ### Fences, barriers, timelines and waits (Machine/Sync) -/

@[simp] theorem execFence_sound (hs : s.mem.wf) (sc f) : SoundOut (execFence sc f s) := by
  refine runGuarded_sound hs (fun e en x => ?_) _ _
  dsimp only
  repeat' first | with_reducible apply bind_keeps | with_reducible intro _ | split
  all_goals simp +contextual

@[simp] theorem execIfence_sound (hs : s.mem.wf) (f) : SoundOut (execIfence f s) := by
  simp [execIfence, hs]

@[simp] theorem execIfenceCp_sound (hs : s.mem.wf) (f) : SoundOut (execIfenceCp f s) := by
  simp [execIfenceCp, hs]

@[simp] theorem barArrive_keeps (e n count goesOn) : Keeps (barArrive e n count goesOn) := by
  unfold barArrive
  dsimp only
  repeat' first | with_reducible apply bind_keeps | with_reducible intro _ | split
  all_goals simp +contextual

@[simp] theorem execBar_sound (hs : s.mem.wf) (f) : SoundOut (execBar f s) := by
  simp [execBar, hs]

@[simp] theorem execBara_sound (hs : s.mem.wf) (f) : SoundOut (execBara f s) := by
  refine runGuarded_sound hs (fun e en x => ?_) _ _
  repeat' first | with_reducible apply bind_keeps | with_reducible intro _ | split
  all_goals simp +contextual

@[simp] theorem execBarw_sound (hs : s.mem.wf) (f) : SoundOut (execBarw f s) := by
  refine runBlocking_sound hs (fun e en x => ?_) _ _
  dsimp only
  repeat' first | with_reducible apply bind_keeps | with_reducible intro _ | split
  all_goals simp +contextual

@[simp] theorem execCbinit_sound (hs : s.mem.wf) (f) : SoundOut (execCbinit f s) := by
  refine runGuarded_sound hs (fun e en x => ?_) _ _
  dsimp only
  repeat' first | with_reducible apply bind_keeps | with_reducible intro _ | split
  all_goals simp +contextual

@[simp] theorem execCbadd_sound (hs : s.mem.wf) (f) : SoundOut (execCbadd f s) := by
  refine runGuarded_sound hs (fun e en x => ?_) _ _
  dsimp only
  repeat' first | with_reducible apply bind_keeps | with_reducible intro _ | split
  all_goals simp +contextual

@[simp] theorem execCbwait_sound (hs : s.mem.wf) (f) : SoundOut (execCbwait f s) := by
  refine runBlocking_sound hs (fun e en x => ?_) _ _
  dsimp only
  repeat' first | with_reducible apply bind_keeps | with_reducible intro _ | split
  all_goals simp +contextual

@[simp] theorem execXbar_sound (hs : s.mem.wf) (f) : SoundOut (execXbar f s) := by
  simp [execXbar, hs]

@[simp] theorem execLbar_sound (hs : s.mem.wf) (f) : SoundOut (execLbar f s) := by
  refine arriveAt_sound hs (fun e x => ?_) _ _
  repeat' first | with_reducible apply bind_keeps | with_reducible intro _ | split
  all_goals simp +contextual

@[simp] theorem execTlwait_sound (hs : s.mem.wf) (f) : SoundOut (execTlwait f s) := by
  refine runBlocking_sound hs (fun e en x => ?_) _ _
  dsimp only
  repeat' first | with_reducible apply bind_keeps | with_reducible intro _ | split
  all_goals simp +contextual

@[simp] theorem execTlread_sound (hs : s.mem.wf) (f) : SoundOut (execTlread f s) := by
  refine runGuarded_sound hs (fun e en x => ?_) _ _
  repeat' first | with_reducible apply bind_keeps | with_reducible intro _ | split
  all_goals simp +contextual

@[simp] theorem execTlreadErr_sound (hs : s.mem.wf) (f) : SoundOut (execTlreadErr f s) := by
  refine runGuarded_sound hs (fun e en x => ?_) _ _
  dsimp only
  repeat' first | with_reducible apply bind_keeps | with_reducible intro _ | split
  all_goals simp +contextual

@[simp] theorem waitaRead_keeps (e glob addr) : Keeps (waitaRead e glob addr) := by
  unfold waitaRead
  dsimp only
  repeat' first | with_reducible apply bind_keeps | with_reducible intro _ | split
  all_goals simp +contextual

@[simp] theorem execWaita_sound (hs : s.mem.wf) (f) : SoundOut (execWaita f s) := by
  refine runBlocking_sound hs (fun e en x => ?_) _ _
  dsimp only
  repeat' first | with_reducible apply bind_keeps | with_reducible intro _ | split
  all_goals simp +contextual

@[simp] theorem execWaitaRecheck_sound (hs : s.mem.wf) (gid t) : SoundOut (execWaitaRecheck gid t s) := by
  unfold execWaitaRecheck
  split
  · split
    · split
      · exact soundOut_next.2 hs
      · split
        · next h => 
          have := waitaRead_keeps _ _ _ s hs _ _ h
          split <;> simp [hs, this]
        · simp [hs]
    · exact soundOut_next.2 hs
  · exact soundOut_next.2 hs

/-! ### Copy requests (Machine/Copy) -/

@[simp] theorem engGetRuns_sound (hs : s.mem.wf) (ag sp u) : SoundRes (engGetRuns s ag sp u) := by
  fun_induction engGetRuns s ag sp u <;> grind [engGet_sound, SoundRes]

@[simp] theorem engPutRuns_sound (hs : s.mem.wf) (ag sp u v) : SoundEx (engPutRuns s ag sp u v) := by
  fun_induction engPutRuns s ag sp u v <;> grind [engPut_sound, SoundEx]

@[simp] theorem moveBytes_sound (hs : s.mem.wf) (ag dag ssp dsp src dst) :
    SoundEx (moveBytes s ag dag ssp dsp src dst) := by
  grind [moveBytes, engGetRuns_sound, engPutRuns_sound, SoundEx, SoundRes]

@[simp] theorem issueOp_keeps (e ectx kind) : Keeps (issueOp e ectx kind) := by
  unfold issueOp
  dsimp only
  repeat' first | with_reducible apply bind_keeps | with_reducible intro _ | split
  all_goals simp +contextual

@[simp] theorem finishOp_mem (s : State) (n o) : (finishOp s n o).mem = s.mem := by
  unfold finishOp
  split <;> simp

@[simp] theorem stopOp_sound (hs : s.mem.wf) (n o x) : (stopOp s n o x).mem.wf := by
  unfold stopOp
  split <;> simp [hs]

@[simp] theorem failOp_sound (hs : s.mem.wf) (n o x) : (failOp s n o x).mem.wf := by
  grind [failOp, stopOp_sound, finishOp_mem]

@[simp] theorem copyDecrement_sound (hs : s.mem.wf) (o n check) : SoundEx (copyDecrement s o n check) := by
  grind [copyDecrement, State.setGroup_mem, SoundEx]

@[simp] theorem execCopyDataPerformed_sound (hs : s.mem.wf) (op off len) :
    SoundOut (execCopyDataPerformed op off len s) := by
  unfold execCopyDataPerformed
  split
  · exact soundOut_next.2 hs
  · split
    · exact soundOut_next.2 hs
    · split
      · exact soundOut_next.2 hs
      · dsimp only
        split
        · exact soundOut_next.2 (stopOp_sound hs _ _ _)
        · next h =>
          have h1 := moveBytes_sound hs _ _ _ _ _ _ _ h
          split
          · next h => simpa using copyDecrement_sound (by simpa using h1) _ _ _ _ h
          · simp [h1]

@[simp] theorem putCompletionWord_sound (hs : s.mem.wf) (o off v) : SoundEx (putCompletionWord s o off v) := by
  simp [putCompletionWord, hs]

@[simp] theorem endWithWord_sound (hs : s.mem.wf) (op o off v) : (endWithWord s op o off v).mem.wf := by
  grind [endWithWord, finishOp_mem, putCompletionWord_sound, failOp_sound, State.modOp_mem, SoundEx]

@[simp] theorem endCopy_sound (hs : s.mem.wf) (op o req) : (endCopy s op o req).mem.wf := by
  unfold endCopy
  split <;> simp [hs]

@[simp] theorem execCopyComplete_sound (hs : s.mem.wf) (op) : SoundOut (execCopyComplete op s) := by
  grind [execCopyComplete, endCopy_sound, copyDecrement_sound, SoundOut, SoundEx]

/-! ### Engine instructions (Machine/Engines) -/

@[simp] theorem issueCopies_keeps (e l n) : Keeps (issueCopies e l n) := by
  induction l generalizing n with
  | nil => exact pure_keeps n
  | cons x l ih => simp [issueCopies, ih]

@[simp] theorem execCpkick_sound (hs : s.mem.wf) (f) : SoundOut (execCpkick f s) := by
  refine runGuarded_sound hs (fun e en x => ?_) _ _
  dsimp only
  repeat' first | with_reducible apply bind_keeps | with_reducible intro _ | split
  all_goals simp +contextual

@[simp] theorem execGath_sound (hs : s.mem.wf) (f) : SoundOut (execGath f s) := by
  refine runGuarded_sound hs (fun e en x => ?_) _ _
  dsimp only
  repeat' first | with_reducible apply bind_keeps | with_reducible intro _ | split
  all_goals simp +contextual

@[simp] theorem execGatherComplete_sound (hs : s.mem.wf) (op) : SoundOut (execGatherComplete op s) := by
  grind [execGatherComplete, finishOp_mem, moveBytes_sound, failOp_sound, SoundOut, SoundEx]

@[simp] theorem execNbpf_sound (hs : s.mem.wf) (f) : SoundOut (execNbpf f s) := by
  simp [execNbpf, hs]

@[simp] theorem adclEntries_keeps (e b w codes qs) : Keeps (adclEntries e b w codes qs) := by
  induction qs with
  | nil => exact pure_keeps []
  | cons q qs ih => simp [adclEntries, ih]

@[simp] theorem execAdcl_sound (hs : s.mem.wf) (f) : SoundOut (execAdcl f s) := by
  refine runGuarded_sound hs (fun e en x => ?_) _ _
  dsimp only
  repeat' first | with_reducible apply bind_keeps | with_reducible intro _ | split
  all_goals simp +contextual

@[simp] theorem execTopk_sound (hs : s.mem.wf) (f) : SoundOut (execTopk f s) := by
  refine runGuarded_sound hs (fun e en x => ?_) _ _
  dsimp only
  repeat' first | with_reducible apply bind_keeps | with_reducible intro _ | split
  all_goals simp +contextual

@[simp] theorem countCall_mem (s : State) (vf n rank) : (countCall s vf n rank).2.mem = s.mem := State.setPart_mem ..

@[simp] theorem countCalls_mem (s : State) (vf rank ns) : (countCalls s vf rank ns).mem = s.mem := by
  grind [countCalls, countCall_mem, foldl_mem]

@[simp] theorem execColl_sound (hs : s.mem.wf) (f) : SoundOut (execColl f s) := by
  refine runGuarded_sound hs (fun e en x => ?_) _ _
  refine bind_keeps (aligned_keeps _ _) fun _ => bind_keeps (spRead_keeps _ _ _ _ _) fun bs => ?_
  dsimp only
  split
  · exact illegalOperand_keeps
  · split
    · exact illegalOperand_keeps
    · exact illegalOperand_keeps
    · split
      · exact illegalOperand_keeps
      · refine bind_keeps (modify_keeps fun s hs => by simpa using hs) fun _ => bind_keeps get_keeps fun t =>
          bind_keeps (issueOp_keeps _ _ _) fun n => bind_keeps (modify_keeps fun s hs => ?_) fun _ => by simp
        split <;> simp [hs]
    · split
      · exact illegalOperand_keeps
      · refine get_bind_keeps fun s hs => bind_keeps (set_keeps ?_) fun _ => by simp
        exact (countCall_mem s _ _ _).symm ▸ hs

@[simp] theorem State.setCall_mem (s : State) (c loc) : (s.setCall c loc).mem = s.mem := by
  simp [State.setCall]

@[simp] theorem endColl_mem (s : State) (op o c rank loc err) : (endColl s op o c rank loc err).mem = s.mem := by
  grind [endColl, State.setCall_mem, finishOp_mem, State.modOp_mem]

@[simp] theorem State.ethSend_mem (s : State) (vf w bs) : (s.ethSend vf w bs).mem = s.mem := by
  grind [State.ethSend]

@[simp] theorem sendPart_sound (hs : s.mem.wf) (cid en bs) : SoundOpt (sendPart s cid en bs) :=
  SoundOpt.map fun t ht => by simpa using State.sendBytes_sound hs _ _ t ht

@[simp] theorem execCollectiveComplete_sound (hs : s.mem.wf) (op remote trees) :
    SoundOut (execCollectiveComplete op remote trees s) := by
  have hn := soundOut_next.2 hs
  unfold execCollectiveComplete
  split
  · exact hn
  · split
    · exact hn
    · split
      · exact hn
      · split
        · exact soundOut_next.2 (by simpa using hs)
        · split
          · exact hn
          · extract_lets p loc c mine
            have hmine : SoundRes mine := by
              unfold mine
              grind [engGet_sound, sendPart_sound, SoundRes, SoundOpt]
            clear_value mine
            rcases mine with x | ⟨c1, s1⟩
            · cases x <;> simp [hs]
            · have h1 := hmine c1 s1 rfl
              dsimp -zeta only
              extract_lets far c2
              split
              · simp [h1]
              · split
                · simp [h1]
                · split
                  · next h => simpa using engPut_sound h1 _ _ _ _ _ h
                  · simp [h1]
                  · simp [h1]

@[simp] theorem execTsset_sound (hs : s.mem.wf) (f) : SoundOut (execTsset f s) := by
  refine runGuarded_sound hs (fun e en x => ?_) _ _
  dsimp only
  repeat' first | with_reducible apply bind_keeps | with_reducible intro _ | split
  all_goals simp +contextual

@[simp] theorem execTsget_sound (hs : s.mem.wf) (f) : SoundOut (execTsget f s) := by
  refine runGuarded_sound hs (fun e en x => ?_) _ _
  dsimp only
  repeat' first | with_reducible apply bind_keeps | with_reducible intro _ | split
  all_goals simp +contextual

/-! ### Queues (Machine/QueueOps) -/

@[simp] theorem State.onQueue_mem (s : State) (cid q h) : (s.onQueue cid q h).mem = s.mem := by
  unfold State.onQueue
  split <;> simp

/-! ### Tile instructions (Machine/Tiles) -/

@[simp] theorem readRow_sound (hs : s.mem.wf) (ag r i0 i1 n len) : SoundRes (readRow s ag r i0 i1 n len) := by
  grind [readRow, engGet_sound, SoundRes]

@[simp] theorem writeRow_sound (hs : s.mem.wf) (ag r i0 i1 n bs) : SoundEx (writeRow s ag r i0 i1 n bs) := by
  grind [writeRow, engPut_sound, engGet_sound, SoundEx, SoundRes]

@[simp] theorem readScales_sound (hs : s.mem.wf) (ag r i0 i1 w x) : SoundRes (readScales s ag r i0 i1 w x) := by
  fun_induction readScales s ag r i0 i1 w x <;> grind [engGet_sound, SoundRes]

@[simp] theorem writeScales_sound (hs : s.mem.wf) (ag r i0 i1 w x) : SoundEx (writeScales s ag r i0 i1 w x) := by
  fun_induction writeScales s ag r i0 i1 w x <;> grind [engPut_sound, SoundEx]

@[simp] theorem execTld_sound (hs : s.mem.wf) (f) : SoundOut (execTld f s) := by
  refine runGuarded_sound hs (fun e en x => ?_) _ _
  dsimp only
  repeat' first | with_reducible apply bind_keeps | with_reducible intro _ | split
  all_goals simp +contextual

@[simp] theorem execTst_sound (hs : s.mem.wf) (f) : SoundOut (execTst f s) := by
  refine runGuarded_sound hs (fun e en x => ?_) _ _
  dsimp only
  repeat' first | with_reducible apply bind_keeps | with_reducible intro _ | split
  all_goals simp +contextual

@[simp] theorem loadTile_sound (hs : s.mem.wf) (ag r i0 i1 t x y) : SoundRes (loadTile s ag r i0 i1 t x y) := by
  fun_induction loadTile s ag r i0 i1 t x y <;> grind [readRow_sound, readScales_sound, SoundRes]

@[simp] theorem storeTile_sound (hs : s.mem.wf) (ag r i0 i1 t x y) : SoundEx (storeTile s ag r i0 i1 t x y) := by
  fun_induction storeTile s ag r i0 i1 t x y <;> grind [writeRow_sound, writeScales_sound, SoundEx]

@[simp] theorem execTileTransferComplete_sound (hs : s.mem.wf) (op) : SoundOut (execTileTransferComplete op s) := by
  unfold execTileTransferComplete
  split
  · exact soundOut_next.2 hs
  · next o _ =>
    have fin : ∀ r : Except EngStop State, SoundEx r → SoundOut (match r with
        | .ok s1 => .next (finishOp s1 op o)
        | .error x => .next (failOp s op o x)) := by
      rintro (x | t) hr
      · simp [hs]
      · simpa using hr
    split
    · simp [hs]
    · split
      · exact soundOut_next.2 hs
      · dsimp only
        split
        · split
          · exact soundOut_next.2 hs
          · exact fin _ (SoundRes.mapState (loadTile_sound hs _ _ _ _ _ _ _) fun p => by simp)
        · exact fin _ (storeTile_sound hs _ _ _ _ _ _ _)
        · exact soundOut_next.2 hs

@[simp] theorem execTzero_sound (hs : s.mem.wf) (f) : SoundOut (execTzero f s) := by
  refine runGuarded_sound hs (fun e en x => ?_) _ _
  dsimp only
  repeat' first | with_reducible apply bind_keeps | with_reducible intro _ | split
  all_goals simp +contextual

@[simp] theorem execTread_sound (hs : s.mem.wf) (f) : SoundOut (execTread f s) := by
  refine runGuarded_sound hs (fun e en x => ?_) _ _
  dsimp only
  repeat' first | with_reducible apply bind_keeps | with_reducible intro _ | split
  all_goals simp +contextual

@[simp] theorem execTwrite_sound (hs : s.mem.wf) (f) : SoundOut (execTwrite f s) := by
  refine runGuarded_sound hs (fun e en x => ?_) _ _
  dsimp only
  repeat' first | with_reducible apply bind_keeps | with_reducible intro _ | split
  all_goals simp +contextual

/-! ### Matrix instructions and events (Machine/MatrixOps) -/

@[simp] theorem mxOf_keeps (o) : Keeps (mxOf o) := by
  simp +contextual [mxOf]

@[simp] theorem arriveMx_sound (hs : s.mem.wf) (i f ctx) : SoundOut (arriveMx i f ctx s) :=
  runInstr_sound hs (fun e en => by simp) _ _

@[simp] theorem dropFlags_mem (s : State) (gid mx n t) : (dropFlags s gid mx n t).mem = s.mem := by
  simp [dropFlags]

@[simp] theorem execMwait_sound (hs : s.mem.wf) (f) : SoundOut (execMwait f s) := by
  refine runInstr_sound hs (fun e en => ?_) _ _
  dsimp only
  repeat' first | with_reducible apply bind_keeps | with_reducible intro _ | split
  all_goals simp +contextual

@[simp] theorem readRows_sound (hs : s.mem.wf) (ag r sc k0 row0 k y) : SoundRes (readRows s ag r sc k0 row0 k y) := by
  fun_induction readRows s ag r sc k0 row0 k y <;> grind [readRow_sound, readScales_sound, SoundRes]

@[simp] theorem aRows_sound (hs : s.mem.wf) (ag g st ov) : SoundRes (aRows s ag g st ov) := by
  unfold aRows
  dsimp only
  split
  · exact (soundRes_ok _).2 hs
  · exact SoundRes.map (readRows_sound hs _ _ _ _ _ _ _) _

@[simp] theorem State.mxOff_mem (s : State) (core n) : (s.mxOff core n).mem = s.mem := by
  simp [State.mxOff]

@[simp] theorem State.takeToken_mem (s : State) (d) : (s.takeToken d).mem = s.mem := by
  simp [State.takeToken]

@[simp] theorem State.giveToken_mem (s : State) (d) : (s.giveToken d).mem = s.mem := by
  simp [State.giveToken]

@[simp] theorem streamStep_sound (hs : s.mem.wf) (n o g st) : SoundOpt (streamStep s n o g st) := by
  grind [streamStep, aRows_sound, State.modMx_mem, stallRecord_sound, engRecord_sound, State.modGroup_mem, SoundOpt,
    SoundRes]

@[simp] theorem execMatrixAccept_sound (hs : s.mem.wf) (core) : SoundOut (execMatrixAccept core s) := by
  have hstep : ∀ t : State, t.mem.wf → ∀ n o g st, ((streamStep t n o g st).getD s).mem.wf :=
    fun t ht n o g st => SoundOpt.getD hs (streamStep_sound ht n o g st)
  unfold execMatrixAccept
  repeat' split
  all_goals simp [hs, hstep]

@[simp] theorem returnRegs_mem (s : State) (gid ts) : (returnRegs s gid ts).mem = s.mem := by
  grind [returnRegs, State.modThread_mem, foldl_mem]

@[simp] theorem execMatrixLastMac_sound (hs : s.mem.wf) (core) : SoundOut (execMatrixLastMac core s) := by
  grind [execMatrixLastMac, State.modGroup_mem, State.giveToken_mem, State.mxOff_mem, State.modMx_mem, returnRegs_mem,
    SoundOut]

@[simp] theorem execMatrixBatchComplete_sound (hs : s.mem.wf) (gid mx n) :
    SoundOut (execMatrixBatchComplete gid mx n s) := by
  grind [execMatrixBatchComplete, State.modGroup_mem, SoundOut]

/-! ### Tile tasks (Machine/TileTask) -/

@[simp] theorem State.gongPut_mem (s : State) (d e) : (s.gongPut d e).mem = s.mem := by
  simp [State.gongPut]

@[simp] theorem State.gongSend_mem (s : State) (d k) : (s.gongSend d k).mem = s.mem := by
  simp [State.gongSend]

@[simp] theorem execTtask_sound (hs : s.mem.wf) (f) : SoundOut (execTtask f s) := by
  refine runGuarded_sound hs (fun e en x => ?_) _ _
  dsimp only
  repeat' first | with_reducible apply bind_keeps | with_reducible intro _ | split
  all_goals simp +contextual

@[simp] theorem State.gongDrop_mem (s : State) (d k know) : (s.gongDrop d k know).mem = s.mem := by
  simp [State.gongDrop]

@[simp] theorem execTileTaskDispatch_sound (hs : s.mem.wf) (op core) : SoundOut (execTileTaskDispatch op core s) := by
  grind [execTileTaskDispatch, State.gongSend_mem, State.modOp_mem, SoundOut]

@[simp] theorem taskRows_sound (hs : s.mem.wf) (ag r a w c as ws fl u v) :
    SoundTask (taskRows s ag r a w c as ws fl u v) := by
  fun_induction taskRows s ag r a w c as ws fl u v <;> grind [readRow_sound, writeRow_sound, SoundEx, SoundRes,
    SoundTask]

@[simp] theorem taskRun_sound (hs : s.mem.wf) (ag r a w c) : SoundTask (taskRun s ag r a w c) := by
  grind [taskRun, readRows_sound, taskRows_sound, SoundRes, SoundTask]

@[simp] theorem endTask_sound (hs : s.mem.wf) (op o r) : (endTask s op o r).mem.wf := by
  grind [endTask, endWithWord_sound, finishOp_mem]

@[simp] theorem execTileTaskComplete_sound (hs : s.mem.wf) (op) : SoundOut (execTileTaskComplete op s) := by
  unfold execTileTaskComplete
  split
  · exact soundOut_next.2 hs
  · next o _ =>
    split
    · next r a w c _ _ =>
      have h := taskRun_sound hs o.agent r a w c
      grind [endTask_sound, stopOp_sound, State.modOp_mem, SoundOut, SoundTask]
    · exact soundOut_next.2 hs

/-! ### The function store (Machine/Store) -/

@[simp] theorem State.modTable_mem (s : State) (cid n h) : (s.modTable cid n h).mem = s.mem := by
  unfold State.modTable
  split <;> simp

@[simp] theorem State.fsInstall_mem (s : State) (cid n d rad die) : (s.fsInstall cid n d rad die).mem = s.mem := by
  simp [State.fsInstall]

@[simp] theorem tableEvent_keeps {now : State → State} (hnow : ∀ s : State, s.mem.wf → (now s).mem.wf) (e item) :
    Keeps (tableEvent e item now) := by
  unfold tableEvent
  split
  · exact modify_keeps hnow
  · exact queueItem_keeps _ _ _

@[simp] theorem tableOf_keeps (e n) : Keeps (tableOf e n) := by
  unfold tableOf
  dsimp only
  repeat' first | with_reducible apply bind_keeps | with_reducible intro _ | split
  all_goals simp +contextual

@[simp] theorem fsSound_keeps (t) : Keeps (fsSound t) := by
  simp +contextual [fsSound]

@[simp] theorem fsRanges_keeps (t a d) : Keeps (fsRanges t a d) := by
  simp +contextual [fsRanges]

@[simp] theorem execFcall_sound (hs : s.mem.wf) (f) : SoundOut (execFcall f s) := by
  refine runInstr_sound hs (fun e en => ?_) _ _
  dsimp only
  repeat' first | with_reducible apply bind_keeps | with_reducible intro _ | split
  all_goals simp +contextual

@[simp] theorem execFsprobe_sound (hs : s.mem.wf) (f) : SoundOut (execFsprobe f s) := by
  refine runGuarded_sound hs (fun e en x => ?_) _ _
  dsimp only
  repeat' first | with_reducible apply bind_keeps | with_reducible intro _ | split
  all_goals simp +contextual

@[simp] theorem fretEvent_keeps (e fr y jac) : Keeps (fretEvent e fr y jac) := by
  unfold fretEvent
  dsimp only
  repeat' first | with_reducible apply bind_keeps | with_reducible intro _ | split
  all_goals simp +contextual

@[simp] theorem execFret_sound (hs : s.mem.wf) (f) : SoundOut (execFret f s) := by
  refine runInstr_sound hs (fun e en => ?_) _ _
  dsimp only
  repeat' first | with_reducible apply bind_keeps | with_reducible intro _ | split
  all_goals simp +contextual

@[simp] theorem execFsdesc_sound (hs : s.mem.wf) (f) : SoundOut (execFsdesc f s) := by
  refine runGuarded_sound hs (fun e en x => ?_) _ _
  dsimp only
  repeat' first | with_reducible apply bind_keeps | with_reducible intro _ | split
  all_goals simp +contextual

@[simp] theorem flushSlot_keeps (e n all) : Keeps (flushSlot e n all) := by
  unfold flushSlot
  dsimp only
  repeat' first | with_reducible apply bind_keeps | with_reducible intro _ | split
  all_goals simp +contextual

@[simp] theorem execFsflush_sound (hs : s.mem.wf) (f) : SoundOut (execFsflush f s) := by
  simp [execFsflush, hs]

@[simp] theorem execFsflushAll_sound (hs : s.mem.wf) (f) : SoundOut (execFsflushAll f s) := by
  simp [execFsflushAll, hs]

@[simp] theorem execFsstat_sound (hs : s.mem.wf) (f) : SoundOut (execFsstat f s) := by
  refine runGuarded_sound hs (fun e en x => ?_) _ _
  dsimp only
  repeat' first | with_reducible apply bind_keeps | with_reducible intro _ | split
  all_goals simp +contextual

@[simp] theorem execFsstatRec_sound (hs : s.mem.wf) (f) : SoundOut (execFsstatRec f s) := by
  refine runGuarded_sound hs (fun e en x => ?_) _ _
  dsimp only
  repeat' first | with_reducible apply bind_keeps | with_reducible intro _ | split
  all_goals simp +contextual

/-! ### The hart of a group (Machine/Hart) -/

@[simp] theorem hex_keeps {α : Type} (x) : Keeps (hex x : HartM α) := fun _ _ => soundRes_error x

@[simp] theorem hstop_keeps {α : Type} (c a) : Keeps (hstop c a : HartM α) := by
  simp +contextual [hstop]

@[simp] theorem hartIllegal_keeps {α : Type} : Keeps (hartIllegal : HartM α) := by
  simp +contextual [hartIllegal]

@[simp] theorem State.modHart_mem (s : State) (gid m) : (s.modHart gid m).mem = s.mem := by
  simp [State.modHart]

@[simp] theorem modH_keeps (e m) : Keeps (modH e m) := by
  simp +contextual [modH]

@[simp] theorem getH_keeps (e) : Keeps (getH e) := by
  simp +contextual [getH]

@[simp] theorem getHG_keeps (e) : Keeps (getHG e) := by
  simp +contextual [getHG]

@[simp] theorem hartRecord_sound (hs : s.mem.wf) (e c a i again) : (hartRecord s e c a i again).mem.wf := by
  simp [hartRecord, hs]

@[simp] theorem resolveH_sound (hs : s.mem.wf) (e x) : (resolveH e s x).mem.wf := by
  unfold resolveH
  grind [State.modHart_mem, hartRecord_sound, partRecord_sound, noteHeld_sound]

@[simp] theorem runHart_sound {m : HEnv → HartM Unit} (hs : s.mem.wf) (hm : ∀ e, Keeps (m e)) :
    SoundOut (runHart m s) := by
  unfold runHart
  split
  · exact soundOut_fault _
  · next e _ =>
    split
    · next h => exact soundOut_next.2 (by simpa using hm e _ (by simpa using hs) _ _ h)
    · simp [hs]

@[simp] theorem hartNext_keeps (e len) : Keeps (hartNext e len) := by
  simp +contextual [hartNext]

@[simp] theorem hartSet_keeps (e len rd v) : Keeps (hartSet e len rd v) := by
  simp +contextual [hartSet]

@[simp] theorem hXlate_keeps (e acc vas) : Keeps (hXlate e acc vas) := by
  intro s hs
  grind [hXlate, xlateBytes_sound, State.sendOut_sound, State.arrive_mem, SoundRes, SoundOpt]

@[simp] theorem hHome_keeps (e vas pas) : Keeps (hHome e vas pas) :=
  fun _ hs => (soundRes_ok _).2 (State.homes_sound hs ..)

@[simp] theorem hTouch_keeps (e vas pas wr atomic) : Keeps (hTouch e vas pas wr atomic) := by
  unfold hTouch
  dsimp only
  repeat' first | with_reducible apply bind_keeps | with_reducible intro _ | split
  all_goals simp +contextual

@[simp] theorem hBytes_keeps (e vas pas acq) : Keeps (hBytes e vas pas acq) := by
  unfold hBytes
  dsimp only
  repeat' first | with_reducible apply bind_keeps | with_reducible intro _ | split
  all_goals simp +contextual

@[simp] theorem hRead_keeps (e acc a n) : Keeps (hRead e acc a n) := by
  unfold hRead
  dsimp only
  repeat' first | with_reducible apply bind_keeps | with_reducible intro _ | split
  all_goals simp +contextual

@[simp] theorem hQueue_keeps (e va item) : Keeps (hQueue e va item) := by
  unfold hQueue
  repeat' first | with_reducible apply bind_keeps | with_reducible intro _ | split
  all_goals simp +contextual

@[simp] theorem hWrite_keeps (e a bs) : Keeps (hWrite e a bs) := by
  unfold hWrite
  dsimp only
  repeat' first | with_reducible apply bind_keeps | with_reducible intro _ | split
  all_goals simp +contextual

@[simp] theorem hAligned_keeps (a n) : Keeps (hAligned a n) := by
  simp +contextual [hAligned]

@[simp] theorem hOpen_keeps (e) : Keeps (hOpen e) := by
  simp +contextual [hOpen]

@[simp] theorem hTick_keeps (e ord) : Keeps (hTick e ord) := by
  simp +contextual [hTick]

@[simp] theorem hAmo_keeps (e ord a n op) : Keeps (hAmo e ord a n op) := by
  unfold hAmo
  dsimp only
  repeat' first | with_reducible apply bind_keeps | with_reducible intro _ | split
  all_goals simp +contextual

@[simp] theorem hLr_keeps (e ord a n) : Keeps (hLr e ord a n) := by
  unfold hLr
  dsimp only
  repeat' first | with_reducible apply bind_keeps | with_reducible intro _ | split
  all_goals simp +contextual

@[simp] theorem hSc_keeps (e ord a n v) : Keeps (hSc e ord a n v) := by
  unfold hSc
  dsimp only
  repeat' first | with_reducible apply bind_keeps | with_reducible intro _ | split
  all_goals simp +contextual

@[simp] theorem hartFp_keeps (e len dbl rd r) : Keeps (hartFp e len dbl rd r) := by
  unfold hartFp
  dsimp only
  repeat' first | with_reducible apply bind_keeps | with_reducible intro _ | split
  all_goals simp +contextual

@[simp] theorem hartFpX_keeps (e len rd v fl) : Keeps (hartFpX e len rd v fl) := by
  unfold hartFpX
  dsimp only
  repeat' first | with_reducible apply bind_keeps | with_reducible intro _ | split
  all_goals simp +contextual

@[simp] theorem withMode_keeps {m : RM → HartM Unit} (hm : ∀ r, Keeps (m r)) (e rm) : Keeps (withMode e rm m) := by
  unfold withMode
  split <;> simp [hm]

@[simp] theorem hartCsr_keeps (e len f rd rs1 n) : Keeps (hartCsr e len f rd rs1 n) := by
  unfold hartCsr
  dsimp only
  repeat' first | with_reducible apply bind_keeps | with_reducible intro _ | split
  all_goals simp +contextual

@[simp] theorem rvExec_keeps (e len i) : Keeps (rvExec e len i) := by
  unfold rvExec
  dsimp only
  repeat' first | with_reducible apply bind_keeps | with_reducible intro _ | split
  all_goals simp +contextual

@[simp] theorem execHartRv64gcInstruction_sound (hs : s.mem.wf) (len i) :
    SoundOut (execHartRv64gcInstruction len i s) := by
  simp [execHartRv64gcInstruction, hs]

@[simp] theorem execHartEcall_sound (hs : s.mem.wf) : SoundOut (execHartEcall s) := by
  refine runHart_sound hs (fun e => ?_)
  repeat' first | with_reducible apply bind_keeps | with_reducible intro _ | split
  all_goals simp +contextual

@[simp] theorem execKfUqpush_sound (hs : s.mem.wf) (rs1) : SoundOut (execKfUqpush rs1 s) := by
  refine runHart_sound hs (fun e => ?_)
  repeat' first | with_reducible apply bind_keeps | with_reducible intro _ | split
  all_goals simp +contextual

@[simp] theorem execKfTcfg_sound (hs : s.mem.wf) (rd rs1 rs2) : SoundOut (execKfTcfg rd rs1 rs2 s) := by
  refine runHart_sound hs (fun e => ?_)
  dsimp only
  repeat' first | with_reducible apply bind_keeps | with_reducible intro _ | split
  all_goals simp +contextual

@[simp] theorem execKfTsset_sound (hs : s.mem.wf) (rd rs1 rs2) : SoundOut (execKfTsset rd rs1 rs2 s) := by
  refine runHart_sound hs (fun e => ?_)
  dsimp only
  repeat' first | with_reducible apply bind_keeps | with_reducible intro _ | split
  all_goals simp +contextual

@[simp] theorem hartIssue_keeps (e ectx kind) : Keeps (hartIssue e ectx kind) := by
  unfold hartIssue
  dsimp only
  repeat' first | with_reducible apply bind_keeps | with_reducible intro _ | split
  all_goals simp +contextual

@[simp] theorem hartCopies_keeps (e l n) : Keeps (hartCopies e l n) := by
  induction l generalizing n with
  | nil => exact pure_keeps n
  | cons x l ih => simp [hartCopies, ih]

@[simp] theorem execKfCpkick_sound (hs : s.mem.wf) (rd rs1 rs2) : SoundOut (execKfCpkick rd rs1 rs2 s) := by
  refine runHart_sound hs (fun e => ?_)
  dsimp only
  repeat' first | with_reducible apply bind_keeps | with_reducible intro _ | split
  all_goals simp +contextual

@[simp] theorem hartTableEvent_keeps {now : State → State} (hnow : ∀ s : State, s.mem.wf → (now s).mem.wf) (e item) :
    Keeps (hartTableEvent e item now) := by
  refine bind_keeps get_keeps fun s => ?_
  split
  · exact modify_keeps hnow
  · exact hQueue_keeps _ _ _

@[simp] theorem execKfFsdesc_sound (hs : s.mem.wf) (rd rs1 rs2) : SoundOut (execKfFsdesc rd rs1 rs2 s) := by
  refine runHart_sound hs (fun e => ?_)
  dsimp only
  repeat' first | with_reducible apply bind_keeps | with_reducible intro _ | split
  all_goals simp +contextual

@[simp] theorem execKfGid_sound (hs : s.mem.wf) (rd rs1) : SoundOut (execKfGid rd rs1 s) := by
  refine runHart_sound hs (fun e => ?_)
  repeat' first | with_reducible apply bind_keeps | with_reducible intro _ | split
  all_goals simp +contextual

@[simp] theorem execKfQnotify_sound (hs : s.mem.wf) (rs1 rs2) : SoundOut (execKfQnotify rs1 rs2 s) := by
  refine runHart_sound hs (fun e => ?_)
  dsimp only
  repeat' first | with_reducible apply bind_keeps | with_reducible intro _ | split
  all_goals simp +contextual

@[simp] theorem execKfHold_sound (hs : s.mem.wf) (rs1) : SoundOut (execKfHold rs1 s) := by
  simp [execKfHold, hs]

/-! ### What a packet processor does (Machine/Packets) -/

@[simp] theorem procXlate_sound (hs : s.mem.wf) (cid acc vas lim) : SoundRes (procXlate s cid acc vas lim) := by
  grind [procXlate, xlateBytes_sound, State.arrive_mem, State.sendOut_sound, SoundOpt, SoundRes]

@[simp] theorem procRead_sound (hs : s.mem.wf) (cid va n lim) : SoundRes (procRead s cid va n lim) := by
  grind [procRead, procXlate_sound, SoundRes]

@[simp] theorem procWrite_sound (hs : s.mem.wf) (cid va bs heads lim) : SoundEx (procWrite s cid va bs heads lim) := by
  grind [procWrite, procXlate_sound, pokeRuns_sound, SoundEx, SoundRes]

@[simp] theorem ctxLevel_sound (hs : s.mem.wf) (cid c a i again) : (ctxLevel s cid c a i again).mem.wf := by
  simp [ctxLevel, hs]

@[simp] theorem procStall_sound (hs : s.mem.wf) (cid q rec f) : (procStall s cid q rec f).mem.wf := by
  unfold procStall
  split <;> simp [hs]

@[simp] theorem writeSignal_sound (hs : s.mem.wf) (cid q p code know) : (writeSignal s cid q p code know).1.mem.wf := by
  grind [writeSignal, procWrite_sound, State.modQueue_mem, procStall_sound, ctxLevel_sound, SoundEx]

@[simp] theorem failPacket_sound (hs : s.mem.wf) (cid q p code) : (failPacket s cid q p code).mem.wf := by
  grind [failPacket, writeSignal_sound, State.modQueue_mem]

@[simp] theorem startPacket_mem (s : State) (cid q p) : (startPacket s cid q p).mem = s.mem := by
  simp [startPacket]

@[simp] theorem passOn_mem (s : State) (cid q p know) : (passOn s cid q p know).mem = s.mem := by
  unfold passOn
  split <;> simp

@[simp] theorem completePacket_sound (hs : s.mem.wf) (cid q ser code know) :
    SoundOpt (completePacket s cid q ser code know) := by
  grind [completePacket, writeSignal_sound, passOn_mem, State.modQueue_mem, SoundOpt]

@[simp] theorem stalledSignal_sound (hs : s.mem.wf) (cid q ser code) : (stalledSignal s cid q ser code).mem.wf := by
  unfold stalledSignal
  split <;> simp [hs]

@[simp] theorem endPacket_sound (hs : s.mem.wf) (cid q ser code know) : (endPacket s cid q ser code know).1.mem.wf := by
  grind [endPacket, completePacket_sound, stalledSignal_sound, SoundOpt]

/-! ### System instructions (Machine/System) -/

@[simp] theorem runEnder_sound {m : Env → Srcs → SlotM Unit} (hs : s.mem.wf) (hm : ∀ e x, Keeps (m e x)) (i f) :
    SoundOut (runEnder i f m s) := by
  refine runInstr_sound hs (fun e en => ?_) _ _
  repeat' first | with_reducible apply bind_keeps | with_reducible intro _ | split
  all_goals simp [hm]

@[simp] theorem execTrap_sound (hs : s.mem.wf) (f) : SoundOut (execTrap f s) := by
  simp [execTrap, hs]

@[simp] theorem execBkpt_sound (hs : s.mem.wf) (f) : SoundOut (execBkpt f s) := by
  simp [execBkpt, hs]

@[simp] theorem execTret_sound (hs : s.mem.wf) (f) : SoundOut (execTret f s) := by
  refine runEnder_sound hs (fun e x => ?_) _ _
  dsimp only
  simp +contextual

@[simp] theorem execTmask_sound (hs : s.mem.wf) (f) : SoundOut (execTmask f s) := by
  refine runGuarded_sound hs (fun e en x => ?_) _ _
  repeat' first | with_reducible apply bind_keeps | with_reducible intro _ | split
  all_goals simp +contextual

@[simp] theorem execSysr_sound (hs : s.mem.wf) (f) : SoundOut (execSysr f s) := by
  refine runGuarded_sound hs (fun e en x => ?_) _ _
  dsimp only
  repeat' first | with_reducible apply bind_keeps | with_reducible intro _ | split
  all_goals simp +contextual

@[simp] theorem execSysw_sound (hs : s.mem.wf) (f) : SoundOut (execSysw f s) := by
  refine runGuarded_sound hs (fun e en x => ?_) _ _
  dsimp only
  repeat' first | with_reducible apply bind_keeps | with_reducible intro _ | split
  all_goals simp +contextual

@[simp] theorem execQrel_sound (hs : s.mem.wf) (f) : SoundOut (execQrel f s) := by
  refine runGuarded_sound hs (fun e en x => ?_) _ _
  dsimp only
  repeat' first | with_reducible apply bind_keeps | with_reducible intro _ | split
  all_goals simp +contextual

@[simp] theorem execQclm_sound (hs : s.mem.wf) (f) : SoundOut (execQclm f s) := by
  refine arriveAt_sound hs (fun e x => ?_) _ _
  dsimp only
  repeat' first | with_reducible apply bind_keeps | with_reducible intro _ | split
  all_goals simp +contextual

@[simp] theorem execQget_sound (hs : s.mem.wf) (f) : SoundOut (execQget f s) := by
  refine runGuarded_sound hs (fun e en x => ?_) _ _
  dsimp only
  repeat' first | with_reducible apply bind_keeps | with_reducible intro _ | split
  all_goals simp +contextual

@[simp] theorem execEwin_sound (hs : s.mem.wf) (f) : SoundOut (execEwin f s) := by
  refine runGuarded_sound hs (fun e en x => ?_) _ _
  repeat' first | with_reducible apply bind_keeps | with_reducible intro _ | split
  all_goals simp +contextual

@[simp] theorem execEwset_sound (hs : s.mem.wf) (f) : SoundOut (execEwset f s) := by
  refine runGuarded_sound hs (fun e en x => ?_) _ _
  dsimp only
  repeat' first | with_reducible apply bind_keeps | with_reducible intro _ | split
  all_goals simp +contextual

@[simp] theorem execEwsetNext_sound (hs : s.mem.wf) (f) : SoundOut (execEwsetNext f s) := by
  refine runGuarded_sound hs (fun e en x => ?_) _ _
  repeat' first | with_reducible apply bind_keeps | with_reducible intro _ | split
  all_goals simp +contextual

@[simp] theorem execEret_sound (hs : s.mem.wf) (f) : SoundOut (execEret f s) := by
  refine runEnder_sound hs (fun e x => ?_) _ _
  dsimp only
  repeat' first | with_reducible apply bind_keeps | with_reducible intro _ | split
  all_goals simp +contextual

@[simp] theorem execEfwd_sound (hs : s.mem.wf) (f) : SoundOut (execEfwd f s) := by
  refine runEnder_sound hs (fun e x => ?_) _ _
  repeat' first | with_reducible apply bind_keeps | with_reducible intro _ | split
  all_goals simp +contextual

/-! ### Kernels and groups (Machine/Kernels) -/

@[simp] theorem State.addKernel_sound (hs : s.mem.wf) (k) : (s.addKernel k).1.mem.wf := by
  simp [State.addKernel, hs]

@[simp] theorem State.gongWaits_mem (s : State) (d k) : (s.gongWaits d k).mem = s.mem := by
  simp [State.gongWaits]

@[simp] theorem placeGroup_sound (hs : s.mem.wf) (kid k grp core) : SoundOpt (placeGroup s kid k grp core) := by
  unfold placeGroup
  split <;> simp [hs]

@[simp] theorem placeGroups_sound (hs : s.mem.wf) (kid k z u) : SoundOpt (placeGroups kid k z u s) := by
  fun_induction placeGroups kid k z u s <;> grind [placeGroup_sound, SoundOpt]

@[simp] theorem execGroupPlacement_sound (hs : s.mem.wf) (kid cores) : SoundOut (execGroupPlacement kid cores s) := by
  grind [execGroupPlacement, placeGroups_sound, State.gongWaits_mem, SoundOut, SoundOpt]

@[simp] theorem startSlots_sound (hs : s.mem.wf) (cid die k u v) : SoundRes (startSlots cid die k u v s) := by
  fun_induction startSlots cid die k u v s <;> grind [viaXlate_sound, ctxLevel_sound, State.homes_sound, SoundRes]

@[simp] theorem execGroupStart_sound (hs : s.mem.wf) (gid) : SoundOut (execGroupStart gid s) := by
  unfold execGroupStart
  split
  · exact soundOut_next.2 hs
  · next g _ =>
    split
    · extract_lets die st held
      split
      · split
        · rw [soundOut_next, State.modGroup_mem]
          split <;> simp [hs]
        · exact soundOut_next.2 hs
        · next h =>
          have h1 := startSlots_sound hs _ _ _ _ _ _ _ h
          rw [soundOut_next]
          split <;> simp [h1]
      · exact soundOut_next.2 hs
    · exact soundOut_next.2 hs

@[simp] theorem evictGroup_mem (s : State) (gong e) : (evictGroup gong s e).mem = s.mem := by
  grind [evictGroup, State.setCore_mem, State.setGroup_mem]

@[simp] theorem execGroupEvict_sound (hs : s.mem.wf) (gid) : SoundOut (execGroupEvict gid s) := by
  grind [execGroupEvict, evictGroup_mem, foldl_wf, SoundOut]

@[simp] theorem restoreGroup_sound (hs : s.mem.wf) (gid core) : SoundOpt (restoreGroup s gid core) := by
  grind [restoreGroup, State.setCore_mem, State.setGroup_mem, raiseLbarDead_sound, SoundOpt]

@[simp] theorem restoreGroups_sound (hs : s.mem.wf) (x) : SoundOpt (restoreGroups x s) := by
  fun_induction restoreGroups x s <;> grind [restoreGroup_sound, SoundOpt]

@[simp] theorem execGroupRestore_sound (hs : s.mem.wf) (gid cores) : SoundOut (execGroupRestore gid cores s) := by
  grind [execGroupRestore, restoreGroups_sound, State.gongWaits_mem, SoundOut, SoundOpt]

@[simp] theorem dropGroups_mem (s : State) (kid k) : (dropGroups s kid k).mem = s.mem := by
  simp [dropGroups]

@[simp] theorem closeKernel_sound (hs : s.mem.wf) (kid k) : (closeKernel s kid k).mem.wf := by
  grind [closeKernel, endPacket_sound, dropGroups_mem, State.gongDrop_mem]

@[simp] theorem execKernelComplete_sound (hs : s.mem.wf) (kid) : SoundOut (execKernelComplete kid s) := by
  grind [execKernelComplete, closeKernel_sound, SoundOut]

@[simp] theorem execGongAging_sound (hs : s.mem.wf) (die entry) : SoundOut (execGongAging die entry s) := by
  simp [execGongAging, hs]

/-! ### The merge of an interval (Machine/Vesper) -/

@[simp] theorem dropRecord_sound (hs : s.mem.wf) (cid r i) : (dropRecord s cid r i).mem.wf := by
  simp [dropRecord, hs]

@[simp] theorem MItem.place_sound (hs : s.mem.wf) (k i) : (MItem.place k s i).2.mem.wf := by
  unfold MItem.place
  grind [State.reachAt_mem, foldl_wf]

@[simp] theorem keepWrites_sound (hs : s.mem.wf) (cid m l) : (keepWrites cid m l s).2.mem.wf := by
  induction l generalizing s with
  | nil => exact hs
  | cons e l ih =>
    unfold keepWrites
    dsimp only
    repeat' split
    all_goals simp [ih, hs]

@[simp] theorem applyWrites_sound {x : State × Applied} (hx : x.1.mem.wf) (k l) : (applyWrites k l x).1.mem.wf := by
  have hp : (l.foldl (fun (r : List (Nat × MRec) × State) e =>
      (r.1 ++ [(e.1, { e.2 with item := (e.2.item.place k r.2).1 })], (e.2.item.place k r.2).2)) ([], x.1)).2.mem.wf :=
    List.foldlRecOn (motive := fun r : List (Nat × MRec) × State => r.2.mem.wf) _ _ hx
      fun r hr e _ => MItem.place_sound hr ..
  unfold applyWrites
  refine pokeRuns_sound (foldl_wf (keepWrites_sound hp ..) (fun s u hs => ?_) _) ..
  split <;> simp [hs]

@[simp] theorem applyTable_sound (hs : s.mem.wf) (cid item) : (applyTable cid item s).mem.wf := by
  unfold applyTable
  grind [ctxLevel_sound, State.modTable_mem, State.fsInstall_mem]

@[simp] theorem applyInstr_sound {x : State × Applied} (hx : x.1.mem.wf) (k l) : (applyInstr k x l).1.mem.wf := by
  unfold applyInstr
  refine foldl_wf ?_ (fun s e hs => ?_) _
  · split <;> simp [hx]
  · repeat' split
    all_goals simp [hs]

@[simp] theorem applyNotify_mem (s : State) (cid e) : (applyNotify cid s e).mem = s.mem := by
  unfold applyNotify
  split <;> simp

@[simp] theorem mergeInterval_sound (hs : s.mem.wf) (kid k) : (mergeInterval s kid k).mem.wf := by
  have h : (((mergeRecs s kid).splitBy sameInstr).foldl (applyInstr k) ({ s with reach := [] }, [])).1.mem.wf :=
    List.foldlRecOn (motive := fun x : State × Applied => x.1.mem.wf) _ _ hs fun x hx l _ => applyInstr_sound hx k l
  simp [mergeInterval, h]

@[simp] theorem tickAll_mem (s : State) (kid) : (tickAll s kid).mem = s.mem := by
  simp [tickAll]

@[simp] theorem learnAll_mem (s : State) (kid c) : (learnAll s kid c).mem = s.mem := by
  simp [learnAll]

@[simp] theorem execMergeApply_sound (hs : s.mem.wf) (kid) : SoundOut (execMergeApply kid s) := by
  grind [execMergeApply, mergeInterval_sound, completeLbar_mem, learnAll_mem, tickAll_mem, SoundOut]

/-! ### Graphs (Machine/Graphs) -/

@[simp] theorem endNode_mem (s : State) (gr n st know) : (endNode s gr n st know).mem = s.mem := by
  unfold endNode
  split <;> simp

@[simp] theorem closeGraph_sound (hs : s.mem.wf) (gr) : (closeGraph s gr).mem.wf := by
  grind [closeGraph, endPacket_sound]

@[simp] theorem closeGraphs_sound (hs : s.mem.wf) (l) : (closeGraphs s l).mem.wf := by
  grind [closeGraphs, closeGraph_sound, foldl_wf]

@[simp] theorem nodeEnds_sound (hs : s.mem.wf) (gr n code know) : (nodeEnds s gr n code know).mem.wf := by
  grind [nodeEnds, State.setGraph_mem, closeGraph_sound, endNode_mem, closeGraphs_sound, foldl_wf]

@[simp] theorem addNodeOp_mem (s : State) (g kind know) : (addNodeOp s g kind know).mem = s.mem := by
  simp [addNodeOp]

@[simp] theorem dispatched_mem (s : State) (gr n g) : (dispatched s gr n g).mem = s.mem := by
  simp [dispatched]

@[simp] theorem dispatchLaunch_sound (hs : s.mem.wf) (gr n g b d know) : (dispatchLaunch s gr n g b d know).mem.wf := by
  unfold dispatchLaunch
  extract_lets st
  split
  · exact State.addKernel_sound (by rw [State.setGraph_mem]; exact hs) _
  · exact nodeEnds_sound hs _ _ _ _

@[simp] theorem dispatchCopy_sound (hs : s.mem.wf) (gr n g b know) : (dispatchCopy s gr n g b know).mem.wf := by
  unfold dispatchCopy
  split
  · rw [addNodeOp_mem, dispatched_mem]
    exact hs
  · exact nodeEnds_sound hs _ _ _ _

@[simp] theorem dispatchColl_sound (hs : s.mem.wf) (gr n g r b know) : (dispatchColl s gr n g r b know).mem.wf := by
  grind [dispatchColl, nodeEnds_sound, countCall_mem, addNodeOp_mem, dispatched_mem, ctxLevel_sound, countCalls_mem]

@[simp] theorem dispatchNode_sound (hs : s.mem.wf) (gr n g r x) : (dispatchNode s gr n g r x).mem.wf := by
  grind [dispatchNode, nodeEnds_sound, dispatchLaunch_sound, dispatchCopy_sound, dispatchColl_sound]

@[simp] theorem execGraphNodeDispatch_sound (hs : s.mem.wf) (graph node) :
    SoundOut (execGraphNodeDispatch graph node s) := by
  grind [execGraphNodeDispatch, dispatchNode_sound, SoundOut]

@[simp] theorem execGraphNodeComplete_sound (hs : s.mem.wf) (graph node) :
    SoundOut (execGraphNodeComplete graph node s) := by
  grind [execGraphNodeComplete, closeGraph_sound, nodeEnds_sound, SoundOut]

/-! ### Queue events (Machine/Queues) -/

@[simp] theorem execQnotify_sound (hs : s.mem.wf) (cid q w) : SoundOut (execQnotify cid q w s) := by
  simp [execQnotify, hs]

@[simp] theorem execQueueEnable_sound (hs : s.mem.wf) (cid q) : SoundOut (execQueueEnable cid q s) := by
  simp [execQueueEnable, hs]

@[simp] theorem execQueueDisable_sound (hs : s.mem.wf) (cid q) : SoundOut (execQueueDisable cid q s) := by
  simp [execQueueDisable, hs]

@[simp] theorem execQueueSkip_sound (hs : s.mem.wf) (cid q) : SoundOut (execQueueSkip cid q s) := by
  simp [execQueueSkip, hs]

@[simp] theorem readDesc_sound (hs : s.mem.wf) (cid b) : SoundRes (readDesc s cid b) := by
  grind [readDesc, procRead_sound, SoundRes]

@[simp] theorem readBody_sound (hs : s.mem.wf) (cid r) : SoundRes (readBody s cid r) := by
  grind [readBody, procRead_sound, readDesc_sound, SoundRes]

@[simp] theorem readBodies_sound (hs : s.mem.wf) (cid z) : SoundRes (readBodies s cid z) := by
  fun_induction readBodies s cid z <;> grind [readBody_sound, ctxLevel_sound, SoundRes]

@[simp] theorem readCopies_sound (hs : s.mem.wf) (cid p) : SoundRes (readCopies s cid p) := by
  grind [readCopies, readDesc_sound, procRead_sound, readBodies_sound, SoundRes]

@[simp] theorem packetRead_mem (s : State) (cid q p) : (packetRead s cid q p).mem = s.mem := by
  simp [packetRead]

@[simp] theorem badPacket_sound (hs : s.mem.wf) (cid q p) : (badPacket s cid q p).mem.wf := by
  simp [badPacket, hs]

@[simp] theorem refusePacket_sound (hs : s.mem.wf) (cid q p x) : (refusePacket s cid q p x).mem.wf := by
  unfold refusePacket
  split <;> simp [hs]

@[simp] theorem execPacketFetch_sound (hs : s.mem.wf) (cid q) : SoundOut (execPacketFetch cid q s) := by
  grind [execPacketFetch, procRead_sound, badPacket_sound, readCopies_sound, packetRead_mem, refusePacket_sound,
    procStall_sound, State.modQueue_mem, ctxLevel_sound, failPacket_sound, SoundOut, SoundRes]

@[simp] theorem instantPacket_sound (hs : s.mem.wf) (cid q p code) : (instantPacket s cid q p code).mem.wf := by
  grind [instantPacket, endPacket_sound, startPacket_mem, writeSignal_sound]

@[simp] theorem execLaunchPkt_sound (hs : s.mem.wf) (cid q) : SoundOut (execLaunchPkt cid q s) := by
  grind [execLaunchPkt, failPacket_sound, State.addKernel_sound, startPacket_mem, State.gongPut_mem, SoundOut]

@[simp] theorem execWaitPkt_sound (hs : s.mem.wf) (cid q) : SoundOut (execWaitPkt cid q s) := by
  unfold execWaitPkt
  split <;> simp [hs]

@[simp] theorem execWaitSatisfied_sound (hs : s.mem.wf) (cid q) : SoundOut (execWaitSatisfied cid q s) := by
  grind [execWaitSatisfied, procRead_sound, procStall_sound, endPacket_sound, ctxLevel_sound, State.modQueue_mem,
    SoundOut, SoundRes]

@[simp] theorem execMarkPkt_sound (hs : s.mem.wf) (cid q) : SoundOut (execMarkPkt cid q s) := by
  unfold execMarkPkt
  split <;> simp [hs]

@[simp] theorem execCopyPkt_sound (hs : s.mem.wf) (cid q) : SoundOut (execCopyPkt cid q s) := by
  unfold execCopyPkt
  split <;> simp [hs]

@[simp] theorem execCopyPacketComplete_sound (hs : s.mem.wf) (op) : SoundOut (execCopyPacketComplete op s) := by
  grind [execCopyPacketComplete, endPacket_sound, SoundOut]

@[simp] theorem execDetmodePkt_sound (hs : s.mem.wf) (cid q) : SoundOut (execDetmodePkt cid q s) := by
  grind [execDetmodePkt, instantPacket_sound, failPacket_sound, SoundOut]

@[simp] theorem execGraphPkt_sound (hs : s.mem.wf) (cid q) : SoundOut (execGraphPkt cid q s) := by
  grind [execGraphPkt, failPacket_sound, State.setGraph_mem, startPacket_mem, State.gongPut_mem, foldl_wf, SoundOut]

/-! ### Commands and the life of a context (Machine/Contexts) -/

@[simp] theorem endCmd_mem (s : State) (vf st ilen) : (endCmd s vf st ilen).mem = s.mem := by
  simp [endCmd]

@[simp] theorem runCmd_sound {body : State → Nat → BitVec 56 → Option (State × BitVec 8 × W32)} (hs : s.mem.wf)
    (hbody : ∀ s cid arg t, s.mem.wf → body s cid arg = some t → t.1.mem.wf) (code allowed vf) :
    SoundOut (runCmd code allowed body vf s) := by
  grind [runCmd, endCmd_mem, SoundOut]

@[simp] theorem execCtxcmdInvalid_sound (hs : s.mem.wf) (vf) : SoundOut (execCtxcmdInvalid vf s) := by
  grind [execCtxcmdInvalid, endCmd_mem, SoundOut]

@[simp] theorem pokeOpen_sound (hs : s.mem.wf) (vf places bs) : SoundOpt (pokeOpen s vf places bs) := by
  grind [pokeOpen, pokeRuns_sound, SoundOpt]

@[simp] theorem installCtx_mem (s : State) (vf cid c) : (installCtx s vf cid c).mem = s.mem := by
  simp [installCtx]

@[simp] theorem agreeKeys_sound (hs : s.mem.wf) (vf r c) : SoundRes (agreeKeys s vf r c) := by
  grind [agreeKeys, pokeOpen_sound, SoundOpt, SoundRes]

@[simp] theorem createCtx_sound (hs : s.mem.wf) (cid arg) : (createCtx s cid arg).1.mem.wf := by
  grind [createCtx, agreeKeys_sound, installCtx_mem, SoundRes]

@[simp] theorem execCreate_sound (hs : s.mem.wf) (vf) : SoundOut (execCreate vf s) := by
  grind [execCreate, runCmd_sound, createCtx_sound, SoundOut]

@[simp] theorem dropWork_mem (s : State) (cid) : (dropWork s cid).mem = s.mem := by
  simp [dropWork]

@[simp] theorem execDestroy_sound (hs : s.mem.wf) (vf) : SoundOut (execDestroy vf s) := by
  simp [execDestroy, hs]

@[simp] theorem execTeardownComplete_sound (hs : s.mem.wf) (cid) : SoundOut (execTeardownComplete cid s) := by
  unfold execTeardownComplete
  split <;> simp [hs]

@[simp] theorem execQuiesce_sound (hs : s.mem.wf) (vf) : SoundOut (execQuiesce vf s) := by
  simp [execQuiesce, hs]

@[simp] theorem execQuiesceComplete_sound (hs : s.mem.wf) (cid) : SoundOut (execQuiesceComplete cid s) := by
  unfold execQuiesceComplete
  split <;> simp [hs]

@[simp] theorem execResume_sound (hs : s.mem.wf) (vf) : SoundOut (execResume vf s) := by
  simp [execResume, hs]

@[simp] theorem resumeStopped_mem (s : State) (cid gid t g seq) : (resumeStopped s cid gid t g seq).mem = s.mem := by
  simp [resumeStopped]

@[simp] theorem execResumet_sound (hs : s.mem.wf) (vf) : SoundOut (execResumet vf s) := by
  grind [execResumet, runCmd_sound, resumeStopped_mem, SoundOut]

@[simp] theorem execSetbudget_sound (hs : s.mem.wf) (vf) : SoundOut (execSetbudget vf s) := by
  simp [execSetbudget, hs]

/-! ### Control instructions (Machine/Control) -/

@[simp] theorem runTransfer_sound (hs : s.mem.wf) (i f target) : SoundOut (runTransfer i f target s) := by
  refine runInstr_sound hs (fun e en => ?_) _ _
  repeat' first | with_reducible apply bind_keeps | with_reducible intro _ | split
  all_goals simp +contextual

@[simp] theorem execConvJ_sound (hs : s.mem.wf) (f) : SoundOut (execConvJ f s) := by
  refine runInstr_sound hs (fun e en => ?_) _ _
  dsimp only
  repeat' first | with_reducible apply bind_keeps | with_reducible intro _ | split
  all_goals simp +contextual

@[simp] theorem execJoinJ_sound (hs : s.mem.wf) (f) : SoundOut (execJoinJ f s) := by
  refine runInstr_sound hs (fun e en => ?_) _ _
  repeat' first | with_reducible apply bind_keeps | with_reducible intro _ | split
  all_goals simp +contextual

@[simp] theorem execExit_sound (hs : s.mem.wf) (f) : SoundOut (execExit f s) := by
  refine runInstr_sound hs (fun e en => ?_) _ _
  repeat' first | with_reducible apply bind_keeps | with_reducible intro _ | split
  all_goals simp +contextual

/-! ### Checkpoint images (Machine/Images) -/

@[simp] theorem writeImage_sound (hs : s.mem.wf) (vf i arg n off) : (writeImage vf i arg n off s).mem.wf := by
  induction n generalizing s off with
  | zero => exact hs
  | succ n ih =>
    unfold writeImage
    split
    · exact hs
    · exact ih (State.poke_wf _ _ _ hs) _

@[simp] theorem execCheckpoint_sound (hs : s.mem.wf) (vf) : SoundOut (execCheckpoint vf s) := by
  grind [execCheckpoint, runCmd_sound, writeImage_sound, SoundOut]

@[simp] theorem putPages_sound (hs : s.mem.wf) (cid pages v lost) : (putPages s cid pages v lost).mem.wf := by
  grind [putPages, State.poke_wf, foldl_wf]

@[simp] theorem loadImage_sound (hs : s.mem.wf) (cid i r tables) : (loadImage s cid i r tables).mem.wf := by
  simp [loadImage, hs]

@[simp] theorem refit_sound (hs : s.mem.wf) (cid gid r u) : SoundOpt (refit cid gid r u s) := by
  fun_induction refit cid gid r u s <;> grind [State.setGroup_mem, SoundOpt]

@[simp] theorem refitAll_sound (hs : s.mem.wf) (cid r l) : SoundOpt (refitAll cid r l s) := by
  induction l generalizing s with
  | nil => exact soundOpt_some.2 hs
  | cons e l ih => exact SoundOpt.bind fun t ht => ih (refit_sound hs _ _ _ _ t ht)

@[simp] theorem restoreCtx_sound (hs : s.mem.wf) (cid arg) : (restoreCtx s cid arg).1.mem.wf := by
  grind [restoreCtx, refitAll_sound, loadImage_sound, SoundOpt]

@[simp] theorem execRestore_sound (hs : s.mem.wf) (vf) : SoundOut (execRestore vf s) := by
  grind [execRestore, runCmd_sound, restoreCtx_sound, SoundOut]

/-! ### Limit accumulators (Machine/LimitAcc) -/

@[simp] theorem laOf_keeps (e f) : Keeps (laOf e f) := by
  unfold laOf
  repeat' first | with_reducible apply bind_keeps | with_reducible intro _ | split
  all_goals simp +contextual

@[simp] theorem putLa_keeps (e f a) : Keeps (putLa e f a) := by
  simp +contextual [putLa]

@[simp] theorem execLainit_sound (hs : s.mem.wf) (f) : SoundOut (execLainit f s) := by
  refine runGuarded_sound hs (fun e en x => ?_) _ _
  dsimp only
  repeat' first | with_reducible apply bind_keeps | with_reducible intro _ | split
  all_goals simp +contextual

@[simp] theorem execLaaddF32_sound (hs : s.mem.wf) (f) : SoundOut (execLaaddF32 f s) := by
  refine runGuarded_sound hs (fun e en x => ?_) _ _
  dsimp only
  repeat' first | with_reducible apply bind_keeps | with_reducible intro _ | split
  all_goals simp +contextual

@[simp] theorem execLaaddF64_sound (hs : s.mem.wf) (f) : SoundOut (execLaaddF64 f s) := by
  refine runGuarded_sound hs (fun e en x => ?_) _ _
  dsimp only
  repeat' first | with_reducible apply bind_keeps | with_reducible intro _ | split
  all_goals simp +contextual

@[simp] theorem execLackp_sound (hs : s.mem.wf) (f) : SoundOut (execLackp f s) := by
  refine runGuarded_sound hs (fun e en x => ?_) _ _
  repeat' first | with_reducible apply bind_keeps | with_reducible intro _ | split
  all_goals simp +contextual

@[simp] theorem execLaest_sound (hs : s.mem.wf) (f) : SoundOut (execLaest f s) := by
  refine runGuarded_sound hs (fun e en x => ?_) _ _
  dsimp only
  repeat' first | with_reducible apply bind_keeps | with_reducible intro _ | split
  all_goals simp +contextual

@[simp] theorem execLaget_sound (hs : s.mem.wf) (f) : SoundOut (execLaget f s) := by
  refine runGuarded_sound hs (fun e en x => ?_) _ _
  repeat' first | with_reducible apply bind_keeps | with_reducible intro _ | split
  all_goals simp +contextual

@[simp] theorem execLastat_sound (hs : s.mem.wf) (f) : SoundOut (execLastat f s) := by
  refine runGuarded_sound hs (fun e en x => ?_) _ _
  repeat' first | with_reducible apply bind_keeps | with_reducible intro _ | split
  all_goals simp +contextual

/-! ### Page commands (Machine/Pages) -/

@[simp] theorem wakeCtx_mem (s : State) (cid p) : (wakeCtx s cid p).mem = s.mem := by
  simp [wakeCtx]

@[simp] theorem pgDone_mem (s : State) (cid) : (pgDone s cid).mem = s.mem := by
  simp [pgDone]

@[simp] theorem dropFor_mem (s : State) (cid l) : (dropFor s cid l).mem = s.mem := by
  simp [dropFor]

@[simp] theorem runReplay_sound (hs : s.mem.wf) (code targets p cid) : SoundOut (runReplay code targets p cid s) := by
  grind [runReplay, pgDone_mem, wakeCtx_mem, dropFor_mem, State.setCtx_mem, foldl_wf, SoundOut]

@[simp] theorem leavePages_mem (s : State) (ts p) : (leavePages s ts p).mem = s.mem := by
  grind [leavePages, State.leavePage_mem, foldl_mem]

@[simp] theorem runInval_sound (hs : s.mem.wf) (code target p cid) : SoundOut (runInval code target p cid s) := by
  grind [runInval, pgDone_mem, leavePages_mem, tlbDrop_mem, State.setCtx_mem, SoundOut]

@[simp] theorem execReplay_sound (hs : s.mem.wf) (cid) : SoundOut (execReplay cid s) := by
  simp [execReplay, hs]

@[simp] theorem execReplayall_sound (hs : s.mem.wf) (cid) : SoundOut (execReplayall cid s) := by
  simp [execReplayall, hs]

@[simp] theorem execInval_sound (hs : s.mem.wf) (cid) : SoundOut (execInval cid s) := by
  simp [execInval, hs]

@[simp] theorem execInvalall_sound (hs : s.mem.wf) (cid) : SoundOut (execInvalall cid s) := by
  simp [execInvalall, hs]

@[simp] theorem execRreplay_sound (hs : s.mem.wf) (cid) : SoundOut (execRreplay cid s) := by
  simp [execRreplay, hs]

@[simp] theorem execRreplayall_sound (hs : s.mem.wf) (cid) : SoundOut (execRreplayall cid s) := by
  simp [execRreplayall, hs]

@[simp] theorem execRsync_sound (hs : s.mem.wf) (cid) : SoundOut (execRsync cid s) := by
  simp [execRsync, hs]

@[simp] theorem execPgcmdDiscard_sound (hs : s.mem.wf) (cid v) : SoundOut (execPgcmdDiscard cid v s) := by
  grind [execPgcmdDiscard, State.setCtx_mem, SoundOut]

@[simp] theorem writePgcmd_sound (hs : s.mem.wf) (cid v) : SoundOut (writePgcmd cid v s) := by
  grind [writePgcmd, execPgcmdDiscard_sound, State.setCtx_mem, SoundOut]

/-! ### Register writes (Machine/Registers) -/

@[simp] theorem execPartcfgWrite_sound (hs : s.mem.wf) (vf v) : SoundOut (execPartcfgWrite vf v s) := by
  grind [execPartcfgWrite, State.setPart_mem, SoundOut]

@[simp] theorem execPartitionCreate_sound (hs : s.mem.wf) (vf cfg) : SoundOut (execPartitionCreate vf cfg s) := by
  grind [execPartitionCreate, State.setPart_mem, SoundOut]

@[simp] theorem execPartitionDestroy_sound (hs : s.mem.wf) (vf) : SoundOut (execPartitionDestroy vf s) := by
  unfold execPartitionDestroy
  split <;> simp [hs]

@[simp] theorem execDetmodeWrite_sound (hs : s.mem.wf) (vf v) : SoundOut (execDetmodeWrite vf v s) := by
  unfold execDetmodeWrite
  split <;> simp [hs]

@[simp] theorem execPwrpoolWrite_sound (hs : s.mem.wf) (die v) : SoundOut (execPwrpoolWrite die v s) := by
  unfold execPwrpoolWrite
  split <;> simp [hs]

@[simp] theorem execPfqEnable_sound (hs : s.mem.wf) (vf v) : SoundOut (execPfqEnable vf v s) := by
  grind [execPfqEnable, State.setPart_mem, SoundOut]

@[simp] theorem pfqDisable_mem (s : State) (vf v) : (pfqDisable vf v s).mem = s.mem := by
  simp [pfqDisable]

@[simp] theorem execPfqconsWrite_sound (hs : s.mem.wf) (vf v) : SoundOut (execPfqconsWrite vf v s) := by
  unfold execPfqconsWrite
  split <;> simp [hs]

@[simp] theorem execFqconsWrite_sound (hs : s.mem.wf) (cid v) : SoundOut (execFqconsWrite cid v s) := by
  unfold execFqconsWrite
  split <;> simp [hs]

@[simp] theorem execFaultRecordDeferred_sound (hs : s.mem.wf) (partition id) :
    SoundOut (execFaultRecordDeferred partition id s) := by
  grind [execFaultRecordDeferred, pfqPut_sound, State.setPart_mem, fqPut_sound, State.setCtx_mem, SoundOut, SoundOpt]

@[simp] theorem execRangeEntryWrite_sound (hs : s.mem.wf) (vf n v) : SoundOut (execRangeEntryWrite vf n v s) := by
  unfold execRangeEntryWrite
  split <;> simp [hs]

@[simp] theorem execVfownWrite_sound (hs : s.mem.wf) (vf v) : SoundOut (execVfownWrite vf v s) := by
  unfold execVfownWrite
  split <;> simp [hs]

@[simp] theorem endCommOps_mem (s : State) (vf n e) : (endCommOps s vf n e).mem = s.mem := by
  grind [endCommOps, endColl_mem, foldl_mem]

@[simp] theorem failComm_sound (hs : s.mem.wf) (vf n e) : (failComm s vf n e).mem.wf := by
  simp [failComm, hs]

@[simp] theorem commWrite_sound (hs : s.mem.wf) (vf n v writesEn) : (commWrite vf n v writesEn s).mem.wf := by
  grind [commWrite, State.setPart_mem, failComm_sound]

@[simp] theorem execCommEntryWrite_sound (hs : s.mem.wf) (vf n v) : SoundOut (execCommEntryWrite vf n v s) := by
  unfold execCommEntryWrite
  split <;> simp [hs]

@[simp] theorem writeCtxcmd_mem (s : State) (vf v) : (writeCtxcmd vf v s).mem = s.mem := by
  grind [writeCtxcmd, State.setPart_mem]

@[simp] theorem writeCtxarg_mem (s : State) (vf v) : (writeCtxarg vf v s).mem = s.mem := by
  grind [writeCtxarg, State.setPart_mem]

@[simp] theorem State.measure_mem (s : State) (n image) : (s.measure n image).mem = s.mem := by
  simp [State.measure]

@[simp] theorem loadBank_mem (s : State) (n b) : (loadBank n b s).mem = s.mem := by
  grind [loadBank, State.measure_mem, State.setBank_mem, foldl_mem]

@[simp] theorem writeEntry_mem (s : State) (n op v) : (writeEntry n op v s).mem = s.mem := by
  unfold writeEntry
  split <;> simp

@[simp] theorem State.modEth_mem (s : State) (p h) : (s.modEth p h).mem = s.mem := by
  unfold State.modEth
  split <;> simp

@[simp] theorem execRegisterWrite_sound (hs : s.mem.wf) (r v) : SoundOut (execRegisterWrite r v s) := by
  unfold execRegisterWrite
  grind [writeCtxcmd_mem, writeCtxarg_mem, State.setPart_mem, execPfqEnable_sound, pfqDisable_mem, writePgcmd_sound,
    State.setCtx_mem, State.modQueue_mem, State.onQueue_mem, State.modEth_mem, writeEntry_mem, execPwrpoolWrite_sound,
    execVfownWrite_sound, execPartcfgWrite_sound, execDetmodeWrite_sound, SoundOut]

/-! ### The fabric and Ethernet (Machine/Link) -/

@[simp] theorem sendPacket_mem (s : State) (ptyp cls dst vf addr data) :
    (sendPacket s ptyp cls dst vf addr data).mem = s.mem := by
  simp [sendPacket]

@[simp] theorem chargeTokens_mem (s : State) (vf n) : (chargeTokens s vf n).mem = s.mem := by
  simp [chargeTokens]

@[simp] theorem reply_mem (s : State) (p vf ptyp data) : (reply s p vf ptyp data).mem = s.mem := by
  simp [reply]

@[simp] theorem notifyWrite_sound (hs : s.mem.wf) (cid off v) : SoundOut (notifyWrite s cid off v) := by
  grind [notifyWrite, execRegisterWrite_sound, execQnotify_sound, SoundOut]

@[simp] theorem controlWrite_sound (hs : s.mem.wf) (vf off aux data) : SoundOut (controlWrite s vf off aux data) := by
  grind [controlWrite, execRegisterWrite_sound, execPfqconsWrite_sound, execFqconsWrite_sound,
    execRangeEntryWrite_sound, execCommEntryWrite_sound, commWrite_sound, SoundOut]

@[simp] theorem notifyWrites_sound (hs : s.mem.wf) (cid off aux data v) :
    SoundOut (notifyWrites cid off aux data v s) := by
  fun_induction notifyWrites cid off aux data v s <;> grind [notifyWrite_sound, SoundOut]

@[simp] theorem notifyWriteMasked_sound (hs : s.mem.wf) (cid off aux data) :
    SoundOut (notifyWriteMasked s cid off aux data) := by
  simp [notifyWriteMasked, hs]

@[simp] theorem apertureFault_sound (hs : s.mem.wf) (cid va x) : (apertureFault s cid va x).mem.wf := by
  unfold apertureFault
  split <;> simp [hs]

@[simp] theorem apertureRead_sound (hs : s.mem.wf) (cid off) : (apertureRead s cid off).2.mem.wf := by
  grind [apertureRead, procRead_sound, apertureFault_sound, SoundRes]

@[simp] theorem apertureBytes_sound (hs : s.mem.wf) (cid va z) : SoundEx (apertureBytes cid va z s) := by
  fun_induction apertureBytes cid va z s <;> grind [procWrite_sound, SoundEx]

@[simp] theorem apertureWrite_sound (hs : s.mem.wf) (cid off aux data) : (apertureWrite s cid off aux data).mem.wf := by
  grind [apertureWrite, procWrite_sound, apertureBytes_sound, apertureFault_sound, SoundEx]

@[simp] theorem apertureAtomic_sound (hs : s.mem.wf) (cid off aux) : (apertureAtomic s cid off aux).2.mem.wf := by
  rw [apertureAtomic]
  split
  · exact hs
  · split
    · exact apertureFault_sound hs _ _ _
    · next h =>
      split
      · exact apertureFault_sound hs _ _ _
      · exact pokeRuns_sound (procXlate_sound hs _ _ _ _ _ _ h) _ _ _

@[simp] theorem countDrop_mem (s : State) (port) : (countDrop s port).mem = s.mem := by
  simp [countDrop]

@[simp] theorem windowAccess_sound (hs : s.mem.wf) (p vf w) : SoundOut (windowAccess s p vf w) := by
  unfold windowAccess
  split <;> simp [hs]

@[simp] theorem requestAt_sound (hs : s.mem.wf) (port p) : SoundOut (requestAt s port p) := by
  grind [requestAt, sendPacket_mem, windowAccess_sound, countDrop_mem, SoundOut]

@[simp] theorem releaseNotifies_sound (hs : s.mem.wf) (port n) : SoundOut (releaseNotifies port n s) := by
  induction n generalizing s with
  | zero => exact soundOut_next.2 hs
  | succ n ih =>
    unfold releaseNotifies
    split
    · exact soundOut_next.2 hs
    · exact andThen_sound (requestAt_sound (by exact hs) _ _) fun s hs => ih hs

@[simp] theorem execAttestationRequest_sound (hs : s.mem.wf) (src vf nonce) :
    SoundOut (execAttestationRequest src vf nonce s) := by
  unfold execAttestationRequest
  split <;> simp [hs]

@[simp] theorem execIdentityRequest_sound (hs : s.mem.wf) (src) : SoundOut (execIdentityRequest src s) := by
  unfold execIdentityRequest
  split <;> simp [hs]

@[simp] theorem servicePacket_sound (hs : s.mem.wf) (p) : SoundOut (servicePacket s p) := by
  grind [servicePacket, execAttestationRequest_sound, execIdentityRequest_sound, SoundOut]

@[simp] theorem acceptPacket_sound (hs : s.mem.wf) (port p) : SoundOut (acceptPacket s port p) := by
  unfold acceptPacket
  split
  · split <;> simp +contextual [hs]
  · exact servicePacket_sound hs _
  · exact soundOut_next.2 hs

@[simp] theorem packetFails_sound (hs : s.mem.wf) (port p) : (packetFails s port p).mem.wf := by
  grind [packetFails, countDrop_mem, ctxLevel_sound]

@[simp] theorem execFabricPacketReceive_sound (hs : s.mem.wf) (port p) :
    SoundOut (execFabricPacketReceive port p s) := by
  unfold execFabricPacketReceive
  dsimp only
  repeat' split
  all_goals simp +contextual [hs]

@[simp] theorem linkFails_sound (hs : s.mem.wf) (uses) : (linkFails s uses).mem.wf := by
  grind [linkFails, failComm_sound, foldl_wf]

@[simp] theorem execFlitCheckFail_sound (hs : s.mem.wf) (port) : SoundOut (execFlitCheckFail port s) := by
  grind [execFlitCheckFail, linkFails_sound, SoundOut]

@[simp] theorem execPortTraining_sound (hs : s.mem.wf) (port rtt ok) : SoundOut (execPortTraining port rtt ok s) := by
  grind [execPortTraining, SoundOut]

@[simp] theorem execLimiterRefill_sound (hs : s.mem.wf) (vf) : SoundOut (execLimiterRefill vf s) := by
  unfold execLimiterRefill
  split <;> simp [hs]

@[simp] theorem State.setConn_mem (s : State) (port n c) : (s.setConn port n c).mem = s.mem := by
  simp [State.setConn]

@[simp] theorem execEthernetFrameReceive_sound (hs : s.mem.wf) (port conn frame) :
    SoundOut (execEthernetFrameReceive port conn frame s) := by
  unfold execEthernetFrameReceive
  grind [State.setConn_mem, SoundOut]

@[simp] theorem resendOne_mem (s : State) (x) : (resendOne s x).2.mem = s.mem := by
  unfold resendOne
  split <;> simp

@[simp] theorem resend_mem (s : State) (port conn) : (resend s port conn).mem = s.mem := by
  unfold resend
  dsimp only
  split
  · rw [State.setConn_mem]
    exact List.foldlRecOn (motive := fun r : List EthSent × State => r.2.mem = s.mem) _ _ rfl
      fun r hr x _ => (resendOne_mem r.2 x).trans hr
  · rfl

@[simp] theorem execEthConnectionFail_sound (hs : s.mem.wf) (port conn) :
    SoundOut (execEthConnectionFail port conn s) := by
  grind [execEthConnectionFail, linkFails_sound, State.setConn_mem, SoundOut]

/-! ### Moves (Machine/Moves) -/

@[simp] theorem execPmovPut_sound (hs : s.mem.wf) (f) : SoundOut (execPmovPut f s) := by
  refine runInstr_sound hs (fun e en => ?_) _ _
  dsimp only
  repeat' first | with_reducible apply bind_keeps | with_reducible intro _ | split
  all_goals simp +contextual

/-! ### Loading of objects (Machine/Objects) -/

@[simp] theorem ctxPut_sound (hs : s.mem.wf) (cid va bs) : SoundOpt (ctxPut s cid va bs) := by
  refine SoundOpt.bind fun places _ => ?_
  dsimp only
  split
  · exact soundOpt_none
  · exact soundOpt_some.2 (pokeRuns_sound (foldl_wf hs (fun s x hs => by simpa using hs) _) _ _ _)

@[simp] theorem loadSegs_sound (hs : s.mem.wf) (cid o l) : SoundOpt (loadSegs cid o l s) := by
  induction l generalizing s with
  | nil => exact soundOpt_some.2 hs
  | cons g l ih =>
    unfold loadSegs
    split
    · exact ih hs
    · split
      · exact soundOpt_none
      · exact SoundOpt.bind fun t ht => ih (ctxPut_sound hs _ _ _ t ht)

@[simp] theorem placeObj_sound (hs : s.mem.wf) (cid o clauses sets code tva) :
    (placeObj s cid o clauses sets code tva).1.mem.wf := by
  have h : SoundOpt ((loadSegs cid o o.segs s).bind fun s => ctxPut s cid tva clauses) :=
    SoundOpt.bind fun t ht => ctxPut_sound (loadSegs_sound hs _ _ _ t ht) _ _ _
  unfold placeObj
  split
  · exact hs
  · next t ht => simpa using h t ht

@[simp] theorem checkObj_sound (hs : s.mem.wf) (cid o fits) : (checkObj s cid o fits).1.mem.wf := by
  grind [checkObj, State.setPart_mem, placeObj_sound]

@[simp] theorem loadBody_sound (hs : s.mem.wf) (cid arg) : (loadBody s cid arg).1.mem.wf := by
  grind [loadBody, checkObj_sound]

@[simp] theorem execLoadObj_sound (hs : s.mem.wf) (vf) : SoundOut (execLoadObj vf s) := by
  grind [execLoadObj, runCmd_sound, loadBody_sound, SoundOut]

/-! ### The issue-group builder (Machine/Schedule) -/

@[simp] theorem execIssueGroupForm_sound (hs : s.mem.wf) (core) : SoundOut (execIssueGroupForm core s) := by
  grind [execIssueGroupForm, State.bumpInst_mem, State.setCore_mem, SoundOut]

@[simp] theorem execIssuePortYield_sound (hs : s.mem.wf) (core) : SoundOut (execIssuePortYield core s) := by
  grind [execIssuePortYield, State.setCore_mem, SoundOut]

@[simp] theorem refreshCore_mem (s : State) (core c) : (refreshCore s core c).mem = s.mem := by
  simp [refreshCore]

@[simp] theorem settle_sound (hs : s.mem.wf) : (settle s).mem.wf := by
  simp [settle, hs]

/-! ### Scratchpad and exchange instructions (Machine/Scratch) -/

@[simp] theorem execLdsp_sound (hs : s.mem.wf) (f) : SoundOut (execLdsp f s) := by
  refine runGuarded_sound hs (fun e en x => ?_) _ _
  dsimp only
  repeat' first | with_reducible apply bind_keeps | with_reducible intro _ | split
  all_goals simp +contextual

@[simp] theorem execStsp_sound (hs : s.mem.wf) (f) : SoundOut (execStsp f s) := by
  refine runGuarded_sound hs (fun e en x => ?_) _ _
  dsimp only
  repeat' first | with_reducible apply bind_keeps | with_reducible intro _ | split
  all_goals simp +contextual

@[simp] theorem execLdspv_sound (hs : s.mem.wf) (f) : SoundOut (execLdspv f s) := by
  refine runGuarded_sound hs (fun e en x => ?_) _ _
  dsimp only
  repeat' first | with_reducible apply bind_keeps | with_reducible intro _ | split
  all_goals simp +contextual

@[simp] theorem execStspv_sound (hs : s.mem.wf) (f) : SoundOut (execStspv f s) := by
  refine runGuarded_sound hs (fun e en x => ?_) _ _
  dsimp only
  repeat' first | with_reducible apply bind_keeps | with_reducible intro _ | split
  all_goals simp +contextual

@[simp] theorem xchCheck_keeps (e x rank n al) : Keeps (xchCheck e x rank n al) := by
  simp +contextual [xchCheck]

@[simp] theorem xchWrite_keeps (e x rank bs) : Keeps (xchWrite e x rank bs) := by
  unfold xchWrite
  dsimp only
  repeat' first | with_reducible apply bind_keeps | with_reducible intro _ | split
  all_goals simp +contextual

@[simp] theorem execXst_sound (hs : s.mem.wf) (f) : SoundOut (execXst f s) := by
  refine runGuarded_sound hs (fun e en x => ?_) _ _
  dsimp only
  repeat' first | with_reducible apply bind_keeps | with_reducible intro _ | split
  all_goals simp +contextual

@[simp] theorem execXstv_sound (hs : s.mem.wf) (f) : SoundOut (execXstv f s) := by
  refine runGuarded_sound hs (fun e en x => ?_) _ _
  repeat' first | with_reducible apply bind_keeps | with_reducible intro _ | split
  all_goals simp +contextual

@[simp] theorem execRld_sound (hs : s.mem.wf) (f) : SoundOut (execRld f s) := by
  refine runGuarded_sound hs (fun e en x => ?_) _ _
  dsimp only
  repeat' first | with_reducible apply bind_keeps | with_reducible intro _ | split
  all_goals simp +contextual

/-! ### Attestation and faults of the die (Machine/Trust) -/

@[simp] theorem State.stopPackage_mem (s : State) : s.stopPackage.mem = s.mem := by
  simp [State.stopPackage]

@[simp] theorem runStages_mem (s : State) (x y) : (runStages x y s).mem = s.mem := by
  fun_induction runStages x y s <;> grind [State.measure_mem, State.stopPackage_mem]

@[simp] theorem execPackageReset_sound (hs : s.mem.wf) (images) : SoundOut (execPackageReset images s) := by
  have hb := Memory.filter_wf hs (fun c => decide (2 ^ 55 ≤ c.1))
  unfold execPackageReset
  dsimp only
  split
  · exact soundOut_next.2 (Memory.filter_wf (by simpa using hb) _)
  · exact soundOut_next.2 hb

@[simp] theorem execFirmwareUpdate_sound (hs : s.mem.wf) (image) : SoundOut (execFirmwareUpdate image s) := by
  grind [execFirmwareUpdate, State.measure_mem, State.stopPackage_mem, SoundOut]

@[simp] theorem execBankLoad_sound (hs : s.mem.wf) (n load) : SoundOut (execBankLoad n load s) := by
  grind [execBankLoad, State.stopPackage_mem, loadBank_mem, SoundOut]

@[simp] theorem execThermalLimit_sound (hs : s.mem.wf) (die size) : SoundOut (execThermalLimit die size s) := by
  unfold execThermalLimit
  split <;> simp [hs]

@[simp] theorem execCriticalTemperature_sound (hs : s.mem.wf) (die) : SoundOut (execCriticalTemperature die s) := by
  unfold execCriticalTemperature
  split <;> simp [hs]

@[simp] theorem spoilRec_mem (s : State) (n) : (spoilRec s n).mem = s.mem := by
  simp [spoilRec]

@[simp] theorem spoilStamp_mem (s : State) (n) : (spoilStamp s n).mem = s.mem := by
  simp [spoilStamp]

@[simp] theorem spoilWriteBack_sound (hs : s.mem.wf) (pa) : (spoilWriteBack s pa).mem.wf := by
  grind [spoilWriteBack, ctxLevel_sound]

@[simp] theorem spoilEntry_mem (s : State) (n) : (spoilEntry s n).mem = s.mem := by
  simp [spoilEntry]

@[simp] theorem execUncorrectableError_sound (hs : s.mem.wf) (unitAddr) :
    SoundOut (execUncorrectableError unitAddr s) := by
  unfold execUncorrectableError
  dsimp only
  repeat' split
  all_goals simp [hs]

/-! ### Every instruction (Machine/Exec) -/

@[simp] theorem exec_sound (hs : s.mem.wf) (i) : SoundOut (exec i s) := by
  cases i with
  | nop f | iaddI32 f | iaddI64 f | isubI32 f | isubI64 f | imulI32 f | imulhI32 f | imulhN32 f | imadI32 f
  | imadwI64 f | iminI32 f | iminN32 f | imaxI32 f | imaxN32 f | iabsI32 f | inegI32 f | icmpI32 f | icmpN32 f
  | icmpI64 f | icmpN64 f | lea f | leaI64 f | idivI32 f | idivN32 f | iremI32 f | iremN32 f | idot4I8 f
  | idot4N8 f | idot8I4 f | iclampI32 f | and f | or f | xor f | andn f | not f | shl f | shr f | sar f | rotl f
  | shlI64 f | shrI64 f | sarI64 f | bfeN32 f | bfeI32 f | bfi f | popc f | clz f | brev f | bperm f | faddF32 f
  | faddF64 f | fsubF32 f | fsubF64 f | fmulF32 f | fmulF64 f | ffmaF32 f | ffmaF64 f | fdivF32 f | fdivF64 f
  | fminF32 f | fminF64 f | fmaxF32 f | fmaxF64 f | fcmpF32 f | fcmpF64 f | frcpF32 f | frcpF64 f | frsqF32 f
  | frsqF64 f | fsqrtF32 f | fsqrtF64 f | fexp2F32 f | flog2F32 f | fsinpF32 f | fcospF32 f | fclassF32 f
  | fclassF64 f | fabs f | fneg f | fcopysign f | hadd2F16 f | hadd2Bf16 f | hmul2F16 f | hmul2Bf16 f | hfma2F16 f
  | hfma2Bf16 f | hmin2F16 f | hmin2Bf16 f | hmax2F16 f | hmax2Bf16 f | hcmp2F16 f | hcmp2Bf16 f | hdot2F16 f
  | hdot2Bf16 f | cvt f | cvts f | frndF32 f | frndF64 f | scalebF32 f | frexpF32 f | frexpExpF32 f | pack2 f
  | unpk2 f | packq f | rndc f | rndcW f | mov f | movs f | sel f | pset f | pmovGet f
  =>
    rw [exec]; exact runAlu_sound hs _ _ _
  | elect f | perm f | permx f | permu f | permd f | bcast f | vote f | ballot f | matchL f | sgred f | sgscan f
  =>
    rw [exec]; exact arriveColl_sound hs _ _
  | mldw f | mmaa f | mcommit f | mscale f | mscaleClr f
  =>
    rw [exec]; exact arriveMx_sound hs _ _ _
  | bra f | brp f | brx f | call f | callx f | ret f | yield f
  =>
    rw [exec]; exact runTransfer_sound hs _ _ _
  | _ => simp [exec, hs]

/-! ### Issue and events (Machine/Run) -/

@[simp] theorem passCycles_mem (s : State) (core n) : (passCycles s core n).mem = s.mem := by
  simp [passCycles]

@[simp] theorem passGong_mem (s : State) (die n) : (passGong s die n).mem = s.mem := by
  simp [passGong]

@[simp] theorem popTodo_mem (s : State) (core t) : (popTodo s core t).mem = s.mem := by
  grind [popTodo, State.setCore_mem]

@[simp] theorem dropMate_mem (s : State) (core t) : (dropMate core t s).mem = s.mem := by
  grind [dropMate, State.setCore_mem]

@[simp] theorem laneDone_mem (s : State) (core gid t cost) : (laneDone core gid t cost s).mem = s.mem := by
  grind [laneDone, State.setThread_mem, State.setCore_mem, passCycles_mem]

@[simp] theorem nextSlot_sound (hs : s.mem.wf) (core ig) : SoundOut (nextSlot s core ig) := by
  unfold nextSlot
  dsimp only
  split
  · simp [hs]
  · split
    · exact exec_sound hs _
    · simp [hs]

@[simp] theorem fetchFails_sound (hs : s.mem.wf) (cur x) : SoundOut (fetchFails s cur x) := by
  unfold fetchFails
  split
  · next e he =>
    obtain ⟨-, -, h⟩ := envOf_thread he
    exact resolveExc_sound (h ▸ hs) _ _
  · exact soundOut_next.2 hs

@[simp] theorem threadSlot_sound (hs : s.mem.wf) (core ig t g th) : SoundOut (threadSlot s core ig t g th) := by
  unfold threadSlot
  split
  · exact Outcome.map_sound (fetchFails_sound (by simpa using hs) _ _) fun s hs => by simpa using hs
  · next h =>
    have h1 := slotAt_sound hs _ _ _ _ _ _ h
    exact Outcome.map_sound (exec_sound (by simpa using h1) _) fun s hs => by simpa using hs

@[simp] theorem laneThread_sound (hs : s.mem.wf) (core ig t g th) : SoundOut (laneThread s core ig t g th) := by
  unfold laneThread
  repeat' split
  · simp [hs]
  · exact Outcome.map_sound (exec_sound (by simpa using hs) _) fun s hs => by simpa using hs
  · exact exec_sound hs _
  · refine Outcome.map_sound (exec_sound (by exact hs) _) fun s hs => ?_
    repeat' split
    all_goals simp [hs]
  · exact threadSlot_sound hs _ _ _ _ _

@[simp] theorem laneStep_sound (hs : s.mem.wf) (core) : SoundOut (laneStep s core) := by
  unfold laneStep
  split
  · exact exec_sound hs _
  · split
    · exact nextSlot_sound hs _ _
    · dsimp only
      split
      · exact laneThread_sound hs _ _ _ _ _
      · simp [hs]

@[simp] theorem hartWord_sound (hs : s.mem.wf) (core cid pc) : SoundRes (hartWord s core cid pc) := by
  grind [hartWord, fetchBytes_sound, SoundRes]

@[simp] theorem hartStep_sound (hs : s.mem.wf) (gid) : SoundOut (hartStep s gid) := by
  unfold hartStep
  split
  · exact soundOut_next.2 hs
  · split
    · exact soundOut_next.2 (resolveH_sound hs _ _)
    · next h =>
      have h1 := hartWord_sound hs _ _ _ _ _ h
      exact Outcome.map_sound (exec_sound (by exact h1) _) fun s hs => hs

@[simp] theorem goAhead_mem (s : State) (op i n) : (goAhead s op i n).mem = s.mem := by
  grind [goAhead, walkAhead_mem]

@[simp] theorem startByType_sound (hs : s.mem.wf) (cid q) : SoundOut (startByType cid q s) := by
  grind [startByType, execLaunchPkt_sound, execWaitPkt_sound, execMarkPkt_sound, execCopyPkt_sound,
    execDetmodePkt_sound, execGraphPkt_sound, SoundOut]

@[simp] theorem endByKind_sound (hs : s.mem.wf) (op) : SoundOut (endByKind op s) := by
  grind [endByKind, execCopyComplete_sound, execTileTransferComplete_sound, execGatherComplete_sound,
    execCollectiveComplete_sound, execTileTaskComplete_sound, execCopyPacketComplete_sound, SoundOut]

@[simp] theorem commandByCode_sound (hs : s.mem.wf) (vf) : SoundOut (commandByCode vf s) := by
  grind [commandByCode, execCtxcmdInvalid_sound, execCreate_sound, execDestroy_sound, execQuiesce_sound,
    execResume_sound, execCheckpoint_sound, execRestore_sound, execLoadObj_sound, execResumet_sound,
    execSetbudget_sound, SoundOut]

@[simp] theorem pageByCode_sound (hs : s.mem.wf) (cid) : SoundOut (pageByCode cid s) := by
  grind [pageByCode, execReplay_sound, execReplayall_sound, execInval_sound, execInvalall_sound, execRreplay_sound,
    execRreplayall_sound, execRsync_sound, SoundOut]

@[simp] theorem doInternal_sound (hs : s.mem.wf) (x) : SoundOut (doInternal x s) := by
  unfold doInternal
  grind [laneStep_sound, hartStep_sound, passCycles_mem, passGong_mem, execHandlerOverrun_sound,
    execHeldAccessPerform_sound, execWaitaRecheck_sound, execGroupPlacement_sound, execGroupStart_sound,
    execGroupEvict_sound, execGroupRestore_sound, execKernelComplete_sound, execMergeApply_sound,
    execGraphNodeDispatch_sound, execGraphNodeComplete_sound, execPacketFetch_sound, startByType_sound,
    execWaitSatisfied_sound, execCopyDataPerformed_sound, endByKind_sound, execTileTaskDispatch_sound,
    execMatrixAccept_sound, execMatrixLastMac_sound, execMatrixBatchComplete_sound, execFaultRecordDeferred_sound,
    commandByCode_sound, pageByCode_sound, execQuiesceComplete_sound, execTeardownComplete_sound, execGongAging_sound,
    goAhead_mem, resend_mem, execEthConnectionFail_sound, SoundOut]

@[simp] theorem goOn_sound (hs : s.mem.wf) : SoundOut (goOn s) := by
  grind [goOn, doInternal_sound, SoundOut]

@[simp] theorem perform_sound (hs : s.mem.wf) (a) : SoundOut (perform a s) := by
  unfold perform
  split
  · split
    · exact soundOut_next.2 hs
    · exact exec_sound hs _
  all_goals (repeat' split) <;> simp [hs]

/-! ### Every step (Machine/Step) -/

@[simp] theorem step_sound (hs : s.mem.wf) : SoundOut (step s) := by
  have hset : ∀ s : State, s.mem.wf → (settle s).mem.wf := fun s hs => settle_sound hs
  unfold step
  split
  · exact Outcome.map_sound (perform_sound (by exact hs) _) hset
  · exact Outcome.map_sound (goOn_sound (by exact hs)) hset

end

/-! ## The obligation -/

/-- Settles O42: memory changes only where `State.poke` writes bytes and where a package reset drops some, and every
step is made of operations that do nothing else to it. -/
theorem stepKeepsMemory : Obligations.StepKeepsMemory := by
  unfold Obligations.StepKeepsMemory
  exact fun s t hs h => step_sound hs t h

end Sys2Proof.Machine

/-! ## Register writes

What each register write of `Machine/Registers` does, one law per register, and what the fields of the value written are
as numbers. -/

namespace Sys2Proof.Machine

/-! ### Fields of a value as numbers -/

theorem clampWt_eq (w : BitVec 8) : clampWt w = BitVec.ofNat 8 (max 1 (min 64 w.toNat)) := by
  unfold clampWt
  split
  · next h0 =>
    rw [h0]
    rfl
  · next h0 =>
    have : w.toNat ≠ 0 := fun h => h0 (BitVec.eq_of_toNat_eq h)
    split
    · rw [show max 1 (min 64 w.toNat) = 64 by omega]
    · rw [show max 1 (min 64 w.toNat) = w.toNat by omega, BitVec.ofNat_toNat, BitVec.setWidth_eq]

theorem clampSize_eq (n : BitVec 16) : clampSize n = BitVec.ofNat 16 (max 1 (min 64 n.toNat)) := by
  unfold clampSize
  split
  · next h0 =>
    rw [h0]
    rfl
  · next h0 =>
    have : n.toNat ≠ 0 := fun h => h0 (BitVec.eq_of_toNat_eq h)
    split
    · rw [show max 1 (min 64 n.toNat) = 64 by omega]
    · rw [show max 1 (min 64 n.toNat) = n.toNat by omega, BitVec.ofNat_toNat, BitVec.setWidth_eq]

theorem clampWt_field (v : W64) :
    clampWt (v.extractLsb' 16 8) = BitVec.ofNat 8 (max 1 (min 64 (v.toNat / 2 ^ 16 % 256))) := by
  simp [clampWt_eq, Nat.shiftRight_eq_div_pow]

theorem pfqReady_iff (b : BitVec 56) (l : BitVec 5) :
    pfqReady b l = true ↔ b.toNat % 64 = 0 ∧ 4 ≤ l.toNat ∧ l.toNat ≤ 16 := by
  simp [pfqReady, and_assoc]

section
variable {s : State} {vf : Nat}


/-! ### Partitions (R294-R296) -/

theorem hasPart_iff : s.hasPart vf = true ↔ (s.part vf).qmask ≠ 0#16 := by
  simp [State.hasPart]

theorem quadsFree_of_disjoint {m : BitVec 16} (h : ∀ n p, (n, p) ∈ s.parts → n ≠ vf → p.qmask &&& m = 0#16) :
    quadsFree s vf m = true := by
  simp only [quadsFree, List.all_eq_true, Bool.or_eq_true, beq_iff_eq]
  exact fun e he => Decidable.or_iff_not_imp_left.2 (h e.1 e.2 he)

theorem ctxsFree_of_free (h : ∀ n c, (n, c) ∈ s.ctxs → n / 16 = vf → c.st = .free) : ctxsFree s vf = true := by
  simp only [ctxsFree, List.all_eq_true, Bool.or_eq_true, bne_iff_ne, beq_iff_eq]
  exact fun e he => Decidable.or_iff_not_imp_left.2 fun hv => h e.1 e.2 he (Decidable.not_not.1 hv)

theorem exec_partcfgWrite {v : W64} (hp : (s.part vf).qmask ≠ 0#16) (hm : v.setWidth 16 ≠ 0#16)
    (hq : ∀ n p, (n, p) ∈ s.parts → n ≠ vf → p.qmask &&& v.setWidth 16 = 0#16) :
    exec (.partcfgWrite vf v) s = .next (s.setPart vf { s.part vf with
      qmask := v.setWidth 16, wt := BitVec.ofNat 8 (max 1 (min 64 (v.toNat / 2 ^ 16 % 256))) }) := by
  rw [← clampWt_field]
  exact if_pos (by simp [hasPart_iff.2 hp, hm, quadsFree_of_disjoint hq])

theorem exec_partitionCreate {v : W64} (hvf : vf < 64) (hp : (s.part vf).qmask = 0#16) (hm : v.setWidth 16 ≠ 0#16)
    (hq : ∀ n p, (n, p) ∈ s.parts → n ≠ vf → p.qmask &&& v.setWidth 16 = 0#16) :
    ∃ p : Partition, exec (.partitionCreate vf v) s = .next (s.setPart vf p) ∧ p.qmask = v.setWidth 16 ∧
      p.wt = BitVec.ofNat 8 (max 1 (min 64 (v.toNat / 2 ^ 16 % 256))) ∧ p.level = 0#2 ∧ p.lock = false ∧
      p.cmd = none ∧ p.pfqEn = false ∧ p.ranges = [] ∧ p.comms = [] ∧ p.own = (s.part vf).own :=
  ⟨_, if_pos ⟨hvf, by simp [State.hasPart, hp], hm, quadsFree_of_disjoint hq⟩, rfl, clampWt_field v, rfl, rfl, rfl, rfl,
    rfl, rfl, rfl⟩

theorem exec_partitionDestroy (hp : (s.part vf).qmask ≠ 0#16)
    (hc : ∀ n c, (n, c) ∈ s.ctxs → n / 16 = vf → c.st = .free) :
    ∃ p : Partition, exec (.partitionDestroy vf) s = .next (s.setPart vf p) ∧ p.qmask = 0#16 ∧ p.lock = false :=
  ⟨_, if_pos (by simp [hasPart_iff.2 hp, ctxsFree_of_free hc]), rfl, rfl⟩

theorem exec_detmodeWrite (v : W32) (hp : (s.part vf).qmask ≠ 0#16) (hl : (s.part vf).lock = false) :
    exec (.detmodeWrite vf v) s = .next (s.setPart vf { s.part vf with level := v.setWidth 2 }) :=
  if_pos (by simp [hasPart_iff.2 hp, hl])

theorem exec_detmodeWrite_locked (v : W32) (hl : (s.part vf).lock = true) : exec (.detmodeWrite vf v) s = .next s :=
  if_neg (by simp [hl])

/-- The clauses of R294, R295 and R296. -/
theorem partitionRegisters : Spec.PartitionRegisters := by
  unfold Spec.PartitionRegisters
  simp only [BitVec.ofNat_toNat]
  refine ⟨fun vf v s hm hq => ⟨fun hp => ?_, fun hvf hp => ?_⟩, fun vf s hp hc => ?_, fun vf v s hp => ⟨fun hl => ?_,
    exec_detmodeWrite_locked v⟩⟩
  · exact ⟨_, exec_partcfgWrite hp hm hq, State.part_setPart_same .., rfl⟩
  · obtain ⟨p, h, hf⟩ := exec_partitionCreate hvf hp hm hq
    exact ⟨_, h, rfl, by simpa using hf⟩
  · obtain ⟨p, h, hq, hl⟩ := exec_partitionDestroy hp hc
    exact ⟨_, h, by simpa using hq, by simpa using hl, rfl⟩
  · exact ⟨_, exec_detmodeWrite v hp hl, State.part_setPart_same .., rfl⟩

/-! ### The power pool and the fault queues (R23, R304, R305) -/

theorem exec_pwrpoolWrite {d : Nat} (v : W64) (hd : d < 4) :
    exec (.pwrpoolWrite d v) s = .next (s.setDie d { s.die d with
      limit := BitVec.ofNat 16 (v.toNat / 2 ^ 32), size := BitVec.ofNat 16 (max 1 (min 64 (v.toNat % 2 ^ 16))) }) := by
  rw [← BitVec.toNat_setWidth, ← clampSize_eq, ← Nat.shiftRight_eq_div_pow]
  exact if_pos hd

theorem exec_pfqEnable {v : W64} (hp : (s.part vf).qmask ≠ 0#16) (hv : v.getLsbD 5 = true)
    (he : (s.part vf).pfqEn = false) :
    exec (.pfqEnable vf v) s = .next (s.setPart vf { s.part vf with
      lpfq := v.setWidth 5, pfqEn := pfqReady (s.part vf).pfqb (v.setWidth 5) }) :=
  if_pos (by simp only [hasPart_iff.2 hp, hv, he, Bool.not_false, Bool.and_self])

theorem exec_pfqconsWrite (v : W64) (hp : (s.part vf).qmask ≠ 0#16) :
    exec (.pfqconsWrite vf v) s = .next (s.setPart vf { s.part vf with pcons := v.setWidth 32 }) :=
  if_pos (hasPart_iff.2 hp)

theorem exec_fqconsWrite {cid : Nat} (v : W32) (hc : s.hasCtx cid = true) :
    exec (.fqconsWrite cid v) s = .next (s.setCtx cid { s.ctx cid with fqcons := v }) :=
  if_pos hc

@[simp] theorem reachAt_ownWindow (pa ipa q : Nat) : (s.reachAt pa ipa).ownWindow q = s.ownWindow q := rfl

/-- A record goes to its ring while there is room and the ring's place translates. -/
theorem fqPut_of_room {cid pa : Nat} {e : RangeEntry} (r : FaultRec)
    (hr : ((s.ctx cid).fqprod - (s.ctx cid).fqcons).toNat < 2 ^ (s.ctx cid).lfq.toNat)
    (h2 : stage2 s (cid / 16)
      ((s.ctx cid).fqbase.toNat + 64 * ((s.ctx cid).fqprod.toNat % 2 ^ (s.ctx cid).lfq.toNat)) 1#2 = some (pa, e))
    (ho : s.ownWindow pa = false) :
    ∃ t, fqPut s cid r = some t ∧ t.mem = s.mem.setN pa r.bytes ∧
      t.ctx cid = { s.ctx cid with fqprod := (s.ctx cid).fqprod + 1#32 } := by
  simp only [fqPut, hr, if_true, vfOf, h2]
  refine ⟨_, rfl, ?_, State.ctx_setCtx_same ..⟩
  simp [ho]

theorem exec_faultRecordDeferred {cid : Nat} {r : FaultRec} {rest : List FaultRec} {t : State}
    (hw : (s.ctx cid).fqWait = r :: rest) (ht : fqPut s cid { r with late := true } = some t) :
    exec (.faultRecordDeferred false cid) s = .next (t.setCtx cid { t.ctx cid with fqWait := rest }) := by
  show execFaultRecordDeferred false cid s = _
  simp [execFaultRecordDeferred, hw, ht]

/-! ### Entries of the control page (R368, R388) -/

theorem exec_rangeEntryWrite {n : Nat} (v : BitVec 256) (hp : (s.part vf).qmask ≠ 0#16) (hn : n < 48) :
    exec (.rangeEntryWrite vf n v) s =
      .next (s.setPart vf { s.part vf with ranges := mset (s.part vf).ranges n (rangeOf v) }) :=
  if_pos (by simp [hasPart_iff.2 hp, hn])

theorem exec_vfownWrite (v : W64) (hvf : vf < 64) :
    ∃ p : Partition, exec (.vfownWrite vf v) s = .next ({ s with tick := s.tick + 1 }.setPart vf p) ∧
      p.own = v.setWidth 12 ∧ p.ownEn = v.getLsbD 12 :=
  ⟨_, if_pos hvf, rfl, rfl⟩
/-! ### Communicators (R389-R391) -/

theorem routeFailed_iff {route : List W64} : routeFailed s route = true ↔ ∃ w, w ∈ route ∧
    ((∃ k p, (k, p) ∈ s.ports ∧ p.st = .failed ∧ usesPort k w = true) ∨
      ∃ k p m y, (k, p) ∈ s.eth ∧ (m, y) ∈ p.conns ∧ y.up = false ∧ usesConn k m w = true) := by
  simp only [routeFailed, Bool.or_eq_true, List.any_eq_true, Bool.and_eq_true, beq_iff_eq, Bool.not_eq_true',
    Prod.exists]
  constructor
  · rintro (⟨k, p, hk, hf, w, hw, hu⟩ | ⟨k, p, hk, m, y, hm, hy, w, hw, hu⟩)
    · exact ⟨w, hw, .inl ⟨k, p, hk, hf, hu⟩⟩
    · exact ⟨w, hw, .inr ⟨k, p, m, y, hk, hm, hy, hu⟩⟩
  · rintro ⟨w, hw, ⟨k, p, hk, hf, hu⟩ | ⟨k, p, m, y, hk, hm, hy, hu⟩⟩
    · exact .inl ⟨k, p, hk, hf, w, hw, hu⟩
    · exact .inr ⟨k, p, hk, m, y, hm, hy, w, hw, hu⟩

/-- No route has failed where no link has. -/
theorem routeFailed_of_linksUp (hp : ∀ k x, (k, x) ∈ s.ports → x.st ≠ .failed)
    (he : ∀ k x, (k, x) ∈ s.eth → ∀ m y, (m, y) ∈ x.conns → y.up = true) (route) : routeFailed s route = false := by
  rw [Bool.eq_false_iff, Ne, routeFailed_iff]
  rintro ⟨w, -, ⟨k, p, hk, hf, -⟩ | ⟨k, p, m, y, hk, hm, hu, -⟩⟩
  · exact hp k p hk hf
  · rw [he k p hk m y hm] at hu
    cases hu

/-- The route that a write of a communicator entry reads. -/
def writtenRoute (s : State) (vf : Nat) (v : BitVec 128) : List W64 :=
  readRoute s vf (v.extractLsb' 64 56).toNat (v.extractLsb' 16 16).toNat

/-- Whether a write of a communicator entry names the communicator that the entry holds. -/
def namesHeld (s : State) (vf n : Nat) (v : BitVec 128) : Bool :=
  (mgetD (s.part vf).comms n CommEntry.zero).ctx == v.extractLsb' 120 4 &&
    (mgetD (s.part vf).comms n CommEntry.zero).comm == v.extractLsb' 4 12

theorem namesHeld_iff {n : Nat} {v : BitVec 128} : namesHeld s vf n v = true ↔
    (mgetD (s.part vf).comms n CommEntry.zero).ctx.toNat = v.toNat / 2 ^ 120 % 16 ∧
      (mgetD (s.part vf).comms n CommEntry.zero).comm.toNat = v.toNat / 16 % 4096 := by
  simp [namesHeld, BitVec.toNat_eq, Nat.shiftRight_eq_div_pow]

/-- The entry that a write of all its fields leaves. -/
def writtenEntry (s : State) (vf n : Nat) (v : BitVec 128) : CommEntry :=
  { ctx := v.extractLsb' 120 4, rtab := v.extractLsb' 64 56, nloc := v.extractLsb' 48 16, rbase := v.extractLsb' 32 16,
    np := v.extractLsb' 16 16, comm := v.extractLsb' 4 12, fail := false, en := v.getLsbD 0,
    route := if v.getLsbD 0 then writtenRoute s vf v else (mgetD (s.part vf).comms n CommEntry.zero).route
    calls := if namesHeld s vf n v then (mgetD (s.part vf).comms n CommEntry.zero).calls else [] }

/-- The state with that entry, before it is known whether its route has failed. -/
def commWritten (s : State) (vf n : Nat) (v : BitVec 128) : State :=
  { s.setPart vf { s.part vf with comms := mset (s.part vf).comms n (writtenEntry s vf n v) } with
    calls := if namesHeld s vf n v then s.calls else s.calls.filter (fun c => !(c.vf == vf && c.entry == n)) }

theorem commWritten_entry (s : State) (vf n v) :
    mget ((commWritten s vf n v).part vf).comms n = some (writtenEntry s vf n v) := by
  simp [commWritten, State.part]

/-- A communicator that is enabled over a failed link, where routes are followed, fails at once. -/
theorem commWrite_eq (s : State) (vf n v) : commWrite vf n v true s =
    if v.getLsbD 0 && (s.part vf).level != 0#2 && routeFailed s (writtenRoute s vf v) then
      failComm (commWritten s vf n v) vf n (writtenEntry s vf n v)
    else commWritten s vf n v := by
  have hl : ((commWritten s vf n v).part vf).level = (s.part vf).level := by simp [commWritten, State.part]
  have h : commWrite vf n v true s =
      if v.getLsbD 0 && true && ((commWritten s vf n v).part vf).level != 0#2 &&
          routeFailed (commWritten s vf n v) (writtenEntry s vf n v).route then
        failComm (commWritten s vf n v) vf n (writtenEntry s vf n v)
      else commWritten s vf n v := by
    unfold commWrite commWritten writtenEntry
    simp only [Bool.not_true, Bool.and_false, Bool.and_true]
    rfl
  have hf (r) : routeFailed (commWritten s vf n v) r = routeFailed s r := rfl
  rw [h, hl, hf, Bool.and_true]
  cases he : v.getLsbD 0 with
  | false => rfl
  | true => rw [show (writtenEntry s vf n v).route = writtenRoute s vf v from if_pos he]

theorem fqPut_parts {cid r} {t : State} (h : fqPut s cid r = some t) : t.parts = s.parts := by
  grind [fqPut, State.setCtx_parts, State.poke_parts, State.reachAt_parts]

@[simp] theorem ctxLevel_parts (s : State) (cid c a i z) : (ctxLevel s cid c a i z).parts = s.parts := by
  grind [ctxLevel, ctxRecord, State.setCtx_parts, fqPut_parts]

theorem failComm_entry (s : State) (vf n e) :
    mget ((failComm s vf n e).part vf).comms n = some { e with en := false, fail := true } := by
  simp [failComm, State.part]

theorem commWrite_of_quiet {n : Nat} {v : BitVec 128}
    (h : v.getLsbD 0 = false ∨ (s.part vf).level = 0#2 ∨ routeFailed s (writtenRoute s vf v) = false) :
    commWrite vf n v true s = commWritten s vf n v := by
  rw [commWrite_eq, if_neg]
  rcases h with h | h | h
  all_goals rw [h]; simp

theorem commWrite_of_failed {n : Nat} {v : BitVec 128} (he : v.getLsbD 0 = true) (hl : (s.part vf).level ≠ 0#2)
    (hr : routeFailed s (writtenRoute s vf v) = true) :
    commWrite vf n v true s = failComm (commWritten s vf n v) vf n (writtenEntry s vf n v) := by
  rw [commWrite_eq, if_pos]
  rw [he, hr, bne_iff_ne.2 hl]
  rfl

theorem exec_commEntryWrite {n : Nat} (v : BitVec 128) (hp : (s.part vf).qmask ≠ 0#16) (hn : n < 64) :
    exec (.commEntryWrite vf n v) s = .next (commWrite vf n v true s) :=
  congrArg Host.Outcome.next (if_pos (by simp [hasPart_iff.2 hp, hn]))

/-! ### Entries of decode-table banks (R399) -/

/-- Stated for any hash, so that no check has to compute one. -/
theorem Bank.entry_withHash (b : Bank) (h o) : ({ b with hash := h } : Bank).entry o = b.entry o := rfl

theorem Bank.entry_hashed (b : Bank) (o) : b.hashed.entry o = b.entry o := b.entry_withHash _ o

theorem State.bankAt_setBank_same (s : State) (d n b) : (s.setBank d n b).bankAt d n = b := mgetD_mset_same ..

theorem State.bankAt_setBank_other (s : State) {d d' : Nat} (n b) (h : d' ≠ d) :
    (s.setBank d n b).bankAt d' n = s.bankAt d' n := mgetD_mset_other _ _ _ (by omega)

theorem bankAt_loadBank (s : State) {d : Nat} (hd : d < 4) (n b) : (loadBank n b s).bankAt d n = b.hashed := by
  have hm (t : State) (k i) : (t.measure k i).bankAt d n = t.bankAt d n := rfl
  simp only [loadBank, hm, upFrom, List.foldl]
  obtain rfl | rfl | rfl | rfl : d = 0 ∨ d = 1 ∨ d = 2 ∨ d = 3 := by omega
  · rw [State.bankAt_setBank_other, State.bankAt_setBank_other, State.bankAt_setBank_other, State.bankAt_setBank_same]
    all_goals decide
  · rw [State.bankAt_setBank_other, State.bankAt_setBank_other, State.bankAt_setBank_same]
    all_goals decide
  · rw [State.bankAt_setBank_other, State.bankAt_setBank_same]
    decide
  · rw [State.bankAt_setBank_same]

/-- A field that a mask holds whole is unchanged by the mask. -/
theorem extractLsb'_and_mask {w lo len : Nat} {x m : BitVec w} (hm : m.extractLsb' lo len = BitVec.allOnes len) :
    (x &&& m).extractLsb' lo len = x.extractLsb' lo len := by
  rw [BitVec.extractLsb'_and, hm, BitVec.and_allOnes]

/-- A field that has no reserved bit of a bank's word. -/
theorem bankMask_field {lo len : Nat} (v : W64) (h : lo + len ≤ 32)
    (hm : (0xF80FFFFF#32).extractLsb' lo len = BitVec.allOnes len) :
    (v.setWidth 32 &&& 0xF80FFFFF#32).extractLsb' lo len = v.extractLsb' lo len := by
  rw [extractLsb'_and_mask hm, BitVec.extractLsb'_setWidth_of_le h]

/-- A field of the word that has neither a reserved bit nor the bit that kind 3 loses. -/
theorem bankWord_field {lo len : Nat} (v : W64) (h : lo + len ≤ 32)
    (hm : (0xF80FFFFF#32).extractLsb' lo len = BitVec.allOnes len)
    (hk : (0xBFFFFFFF#32).extractLsb' lo len = BitVec.allOnes len) :
    (bankWord v).extractLsb' lo len = v.extractLsb' lo len := by
  rw [← bankMask_field v h hm]
  unfold bankWord
  dsimp only
  split
  · exact extractLsb'_and_mask hk
  · rfl

theorem entryXidx_bankWord (v : W64) : entryXidx (bankWord v) = v.toNat % 2 ^ 20 := by
  rw [entryXidx, bankWord_field v (by decide) (by decide) (by decide)]
  simp

theorem entryKsl_bankWord (v : W64) : entryKsl (bankWord v) = v.toNat / 2 ^ 27 % 8 := by
  rw [entryKsl, bankWord_field v (by decide) (by decide) (by decide)]
  simp [Nat.shiftRight_eq_div_pow]

theorem entryKind_bankWord (v : W64) : entryKind (bankWord v) = min 2 (v.toNat / 2 ^ 30 % 4) := by
  have hw : (v.setWidth 32 &&& 0xF80FFFFF#32).extractLsb' 30 2 = v.extractLsb' 30 2 :=
    bankMask_field v (by decide) (by decide)
  have hv : (v.extractLsb' 30 2).toNat = v.toNat / 2 ^ 30 % 4 := by simp [Nat.shiftRight_eq_div_pow]
  unfold entryKind bankWord
  dsimp only
  rw [hw, ← hv]
  split
  · next h3 =>
    rw [BitVec.extractLsb'_and, hw, h3]
    rfl
  · next h3 =>
    have : (v.extractLsb' 30 2).toNat ≠ 3 := fun h => h3 (BitVec.eq_of_toNat_eq h)
    rw [hw]
    omega

theorem exec_bankEntryWrite {die n op : Nat} (v : W64) (hd : die < 4) (hn : n < 4) (ho : op < 0xF00)
    (hf : s.onFabric = true) (hb : ∀ d, d < 4 → nbound s d n = 0) :
    exec (.registerWrite (.bankEntry die n op) v) s = .next (loadBank n { s.bankAt 0 n with
      entries := mset (s.bankAt 0 n).entries op (bankWord v) } s) := by
  have hu : (upFrom 0 4).any (fun d => nbound s d n != 0) = false := by simp [upFrom, hb]
  exact congrArg Host.Outcome.next ((if_pos ⟨hd, hn, ho⟩).trans (if_neg (by simp [hf, hu])))

theorem exec_bankEntryWrite_bound {die n op : Nat} (v : W64) (hd : die < 4) (hn : n < 4) (ho : op < 0xF00)
    (hb : ∃ d, d < 4 ∧ nbound s d n ≠ 0) : exec (.registerWrite (.bankEntry die n op) v) s = .next s := by
  have hu : (upFrom 0 4).any (fun d => nbound s d n != 0) = true := by
    obtain ⟨d, hd, h⟩ := hb
    simp only [upFrom, List.any_cons, List.any_nil, bne_iff_ne, Bool.or_eq_true]
    obtain rfl | rfl | rfl | rfl : d = 0 ∨ d = 1 ∨ d = 2 ∨ d = 3 := by omega
    all_goals simp [h]
  exact congrArg Host.Outcome.next ((if_pos ⟨hd, hn, ho⟩).trans (if_pos (Or.inr hu)))

/-! ### Registers of a context and its partition (R297, R311) -/

theorem exec_ctxargWrite (v : W64) (hp : (s.part vf).qmask ≠ 0#16) (hc : (s.part vf).cmd = none) :
    exec (.registerWrite (.ctxarg vf) v) s = .next (s.setPart vf { s.part vf with
      arg := v.setWidth 56, argRes := decide (2 ^ 56 ≤ v.toNat) }) := by
  have hr : (v.extractLsb' 56 8 != 0#8) = decide (2 ^ 56 ≤ v.toNat) := by
    have := v.isLt
    rw [Bool.eq_iff_iff, bne_iff_ne, decide_eq_true_iff, Ne, BitVec.toNat_eq, BitVec.extractLsb'_toNat,
      Nat.shiftRight_eq_div_pow, BitVec.toNat_ofNat]
    omega
  show Host.Outcome.next (if s.hasPart vf then writeCtxarg vf v s else s) = _
  simp [hasPart_iff.2 hp, writeCtxarg, hc, hr]

theorem exec_ctxcmdWrite (v : W64) (hp : (s.part vf).qmask ≠ 0#16) (hc : (s.part vf).cmd = none) :
    ∃ c : CtxCmd, exec (.registerWrite (.ctxcmd vf) v) s = .next (s.setPart vf { s.part vf with cmd := some c }) ∧
      c.cmd = v.setWidth 8 ∧ c.ctx = v.extractLsb' 8 4 ∧ c.arg = (s.part vf).arg := by
  show ∃ c : CtxCmd, Host.Outcome.next (if s.hasPart vf then writeCtxcmd vf v s else s) = _ ∧ _
  rw [if_pos (hasPart_iff.2 hp), writeCtxcmd]
  simp only [hc]
  exact ⟨_, rfl, rfl, rfl, rfl⟩

theorem exec_qbaseWrite {cid q : Nat} (v : W64) (hc : s.hasCtx cid = true) (hq : q < 16)
    (he : (s.queue cid q).en = false) :
    exec (.registerWrite (.qbase cid q) v) s = .next (s.modQueue cid q (fun u => { u with qbase := v.setWidth 56 })) :=
  congrArg Host.Outcome.next (if_pos (by simp [hc, hq, he]))

/-- A register that only reads ignores a write. -/
theorem exec_readOnlyWrite (cid q : Nat) (v : W64) {r : RegName}
    (hr : r ∈ [RegName.ctxstat vf, .pfqprod vf, .fqprod cid, .qread cid q, .qstat cid q, .notifyReserved cid q, .epid,
      .portstat q, .meas q, .bankinfo vf q, .bankerr vf cid q]) : exec (.registerWrite r v) s = .next s := by
  simp only [List.mem_cons, List.not_mem_nil, or_false] at hr
  rcases hr with rfl | rfl | rfl | rfl | rfl | rfl | rfl | rfl | rfl | rfl | rfl <;> rfl

/-- The clauses of R5, R23, R304, R305, R311, R368, R388 to R391 and R399. -/
theorem controlRegisters : Spec.ControlRegisters := by
  unfold Spec.ControlRegisters
  simp only [BitVec.ofNat_toNat]
  refine ⟨fun d v s hd => ?_, fun vf v s hp => ⟨fun hv he => ?_, ?_⟩, fun cid v s hc => ?_,
    fun cid pa s r rest e hw hr h2 ho => ?_, fun vf n v s hp hn => ?_, fun vf v s hvf => ?_,
    fun vf n v s hp hn => ⟨fun h => ?_, fun he hl h => ?_⟩,
    fun die n op v s hd hn ho => ⟨fun hf hb => ?_, exec_bankEntryWrite_bound v hd hn ho⟩,
    fun vf cid q v s => ⟨fun hp hc => ?_, fun hp hc => ?_, fun hc hq he => ?_,
      fun r hr => exec_readOnlyWrite cid q v hr⟩⟩
  · exact ⟨_, exec_pwrpoolWrite v hd, State.die_setDie_same .., rfl⟩
  · refine ⟨_, exec_pfqEnable hp hv he, ?_, ?_⟩
    · simp
    · simp [pfqReady_iff]
  · exact ⟨_, exec_pfqconsWrite v hp, State.part_setPart_same ..⟩
  · exact ⟨_, exec_fqconsWrite v hc, State.ctx_setCtx_same .., rfl⟩
  · obtain ⟨t, ht, hmem, hctx⟩ := fqPut_of_room { r with late := true } hr h2 ho
    exact ⟨_, exec_faultRecordDeferred hw ht, hmem, by rw [State.ctx_setCtx_same, hctx]⟩
  · refine ⟨_, rangeOf v, exec_rangeEntryWrite v hp hn, ?_, rfl, rfl, rfl, rfl, ?_⟩
    · simp
    · simp [rangeOf, Nat.shiftRight_eq_div_pow]
  · obtain ⟨p, h, ho, he⟩ := exec_vfownWrite v hvf
    exact ⟨_, h, by simp [ho], by simp [he], rfl⟩
  · have hc : v.getLsbD 0 = false ∨ (s.part vf).level = 0#2 ∨ routeFailed s (writtenRoute s vf v) = false :=
      h.imp_right (Or.imp_right fun hu => routeFailed_of_linksUp hu.1 hu.2 _)
    refine ⟨_, writtenEntry s vf n v, (exec_commEntryWrite v hp hn).trans (congrArg _ (commWrite_of_quiet hc)),
      commWritten_entry .., rfl, rfl, ?_, ?_, ?_, ?_, fun h => if_pos (namesHeld_iff.2 h),
      fun h => if_neg fun hn => h (namesHeld_iff.1 hn), rfl⟩
    all_goals simp [writtenEntry, Nat.shiftRight_eq_div_pow]
  · have hr : routeFailed s (writtenRoute s vf v) = true := by
      rw [routeFailed_iff]
      simpa [writtenRoute, Nat.shiftRight_eq_div_pow] using h
    exact ⟨_, _, (exec_commEntryWrite v hp hn).trans (congrArg _ (commWrite_of_failed he hl hr)), failComm_entry ..,
      rfl, rfl⟩
  · refine ⟨_, exec_bankEntryWrite v hd hn ho hf hb, loadBank_mem .., fun d hd => ?_⟩
    rw [bankAt_loadBank s hd]
    simp only [Bank.entry_hashed]
    refine ⟨?_, fun o h => mgetD_mset_other _ _ _ h⟩
    simp only [Bank.entry, mgetD_mset_same]
    exact ⟨entryXidx_bankWord v, entryKsl_bankWord v, entryKind_bankWord v⟩
  · exact ⟨_, exec_ctxargWrite v hp hc, State.part_setPart_same ..⟩
  · obtain ⟨c, h, hcmd, hctx, harg⟩ := exec_ctxcmdWrite v hp hc
    exact ⟨_, c, h, by simp, by simp [hcmd], by simp [hctx, Nat.shiftRight_eq_div_pow], harg⟩
  · exact ⟨_, exec_qbaseWrite v hc hq he, State.queue_modQueue_same ..⟩

end

/-- Settles O60: the clauses of the partitions' registers and those of the control registers. -/
theorem registerWrites : Obligations.RegisterWrites := ⟨partitionRegisters, controlRegisters⟩

end Sys2Proof.Machine

/-! ## Reset and trust

What the machine holds at reset, and what each event of `Machine/Trust` does, one law per event and case. -/

namespace Sys2Proof.Machine

/-! ### The bank at reset (R97, R399, R400) -/

/-- Whether the K7 decode defines an opcode. -/
def k7Defines (op : Nat) : Bool :=
  match decodeWord (BitVec.ofNat 64 op) with
  | .emulationVector _ _ => false
  | _ => true

/-- Kind 1 stands above the expansion index, which is free. -/
theorem entryKind_native (x : BitVec 20) : entryKind (0x40000000#32 ||| x.setWidth 32) = 1 := by
  have hx : (x.setWidth 32).extractLsb' 30 2 = 0#2 := by
    apply BitVec.eq_of_getLsbD_eq
    intro i hi
    have hbit : x.getLsbD (30 + i) = false := BitVec.getLsbD_of_ge _ _ (by omega)
    simp [hbit]
  rw [entryKind, BitVec.extractLsb'_or, hx]
  rfl

/-- The K7 decode gives a defined opcode kind 1. -/
theorem entryKind_k7Entry {op : Nat} (ho : op < 0xF00) (hd : k7Defines op = true) : entryKind (k7Entry op) = 1 := by
  unfold k7Defines at hd
  unfold k7Entry
  rw [if_neg (by omega)]
  split
  · next h =>
    rw [h] at hd
    cases hd
  · exact entryKind_native _

theorem k7Defines_featOps : ∀ i < 6, ∀ op ∈ featOps i, op < 0xF00 ∧ k7Defines op = true := by decide +kernel

/-- The K7 has every feature of R97. -/
theorem Bank.feat_k7 : Bank.k7.feat = 0x3F#6 := by
  have hall : ∀ i < 6, (featOps i).all (fun op => entryKind (Bank.k7.entry op) == 1) = true := by
    intro i hi
    rw [List.all_eq_true]
    intro op hop
    obtain ⟨ho, hd⟩ := k7Defines_featOps i hi op hop
    exact beq_iff_eq.2 (entryKind_k7Entry ho hd)
  simp only [Bank.feat, upFrom, List.foldl, hall, Nat.reduceAdd, Nat.reduceLT, if_true]
  rfl

/-- Settles O41: nothing is listed at reset, so every reader gives the value of an object with no entry. -/
theorem resetValues : Obligations.ResetValues := by
  unfold Obligations.ResetValues
  exact ⟨rfl, rfl, rfl, rfl, rfl, rfl, rfl, fun _ => rfl, fun _ => rfl, fun _ => ⟨rfl, rfl, rfl⟩, fun _ => rfl,
    fun _ => rfl, fun _ => ⟨rfl, Bank.feat_k7⟩⟩

section
variable {s : State}

/-! ### The start of the package (R420) -/

/-- The package at its reset values, before the first stage is measured: the memory of other endpoints stays. -/
def packageBase (s : State) : State :=
  { State.reset with
    tick := s.tick + 1, nextAid := s.nextAid, agenda := s.agenda, images := s.images
    unitKey := s.unitKey.filter (fun e => decide (2 ^ 49 ≤ e.1))
    badUnits := s.badUnits.filter (fun u => decide (2 ^ 49 ≤ u))
    mem := s.mem.filter (fun c => decide (2 ^ 55 ≤ c.1)) }

/-- The stages have run: the package takes its endpoint number, and what lies in its own window is gone (R388). -/
def takeEndpoint (epid : BitVec 12) (t : State) : State :=
  let t := { t with epid := epid }
  { t with mem := t.mem.filter (fun c => !t.ownWindow c.1) }

theorem exec_packageReset (s : State) (a b c : SignedImage) :
    exec (.packageReset [a, b, c]) s =
      .next (takeEndpoint ((Config.freeBits 2000 s.tick).setWidth 12) (runStages 0 [a, b, c] (packageBase s))) := rfl

theorem runStages_nil (n : Nat) (s : State) : runStages n [] s = { s with started := true } := rfl

theorem runStages_signed {i : SignedImage} (h : signedOk i = true) (n : Nat) (l : List SignedImage) (s : State) :
    runStages n (i :: l) s = runStages (n + 1) l (s.measure n i.bytes) := if_pos h

theorem runStages_unsigned {i : SignedImage} (h : signedOk i = false) (n : Nat) (l : List SignedImage) (s : State) :
    runStages n (i :: l) s = s.stopPackage := if_neg (by simp [h])

theorem State.mget_measure_same (s : State) (n : Nat) (image : List Byte) :
    mget (s.measure n image).meas n = some (extend (mgetD s.meas n 0#512) image) := mget_mset_same ..

theorem State.mget_measure_other (s : State) {n m : Nat} (image : List Byte) (h : m ≠ n) :
    mget (s.measure n image).meas m = mget s.meas m := mget_mset_other _ _ h

/-- The first measurement of a register extends zero. -/
theorem State.mget_measure_first {s : State} {n : Nat} (image : List Byte) (h : mget s.meas n = none) :
    mget (s.measure n image).meas n = some (extend 0#512 image) := by
  rw [State.mget_measure_same, mgetD, h, Option.getD_none]

/-- Three images measured one after the other, with no measurement before. -/
theorem mget_measure_stages {s : State} (h : s.meas = []) (a b c : List Byte) :
    let t := ((s.measure 0 a).measure 1 b).measure 2 c
    mget t.meas 0 = some (extend 0#512 a) ∧ mget t.meas 1 = some (extend 0#512 b) ∧
      mget t.meas 2 = some (extend 0#512 c) := by
  have hnone (n : Nat) : mget s.meas n = none := by rw [h, mget_nil]
  refine ⟨?_, ?_, ?_⟩
  · rw [State.mget_measure_other _ _ (by decide), State.mget_measure_other _ _ (by decide),
      State.mget_measure_first _ (hnone 0)]
  · rw [State.mget_measure_other _ _ (by decide), State.mget_measure_first]
    rw [State.mget_measure_other _ _ (by decide), hnone]
  · rw [State.mget_measure_first]
    rw [State.mget_measure_other _ _ (by decide), State.mget_measure_other _ _ (by decide), hnone]

theorem takeEndpoint_mem (e : BitVec 12) (t : State) :
    (takeEndpoint e t).mem = t.mem.filter (fun c => !(takeEndpoint e t).ownWindow c.1) := rfl

theorem exec_packageReset_signed {a b c : SignedImage} (ha : signedOk a = true) (hb : signedOk b = true)
    (hc : signedOk c = true) :
    ∃ t, exec (.packageReset [a, b, c]) s = .next t ∧ t.started = true ∧ t.dead = false ∧
      t.mem = s.mem.filter (fun x => decide (2 ^ 55 ≤ x.1) && !t.ownWindow x.1) ∧ t.ctxs = [] ∧ t.groups = [] ∧
      t.banks = [] ∧ mget t.meas 0 = some (extend 0#512 a.bytes) ∧ mget t.meas 1 = some (extend 0#512 b.bytes) ∧
      mget t.meas 2 = some (extend 0#512 c.bytes) := by
  have hrun := exec_packageReset s a b c
  rw [runStages_signed ha, runStages_signed hb, runStages_signed hc, runStages_nil] at hrun
  obtain ⟨h0, h1, h2⟩ := mget_measure_stages (s := packageBase s) rfl a.bytes b.bytes c.bytes
  refine ⟨_, hrun, rfl, rfl, ?_, rfl, rfl, rfl, h0, h1, h2⟩
  rw [takeEndpoint_mem]
  simp [packageBase, List.filter_filter, Bool.and_comm]

theorem exec_packageReset_firstUnsigned {a : SignedImage} (b c : SignedImage) (ha : signedOk a = false) :
    ∃ t, exec (.packageReset [a, b, c]) s = .next t ∧ t.started = false ∧ t.dead = true ∧ t.meas = [] := by
  have hrun := exec_packageReset s a b c
  rw [runStages_unsigned ha] at hrun
  exact ⟨_, hrun, rfl, rfl, rfl⟩

theorem exec_packageReset_secondUnsigned {a b : SignedImage} (c : SignedImage) (ha : signedOk a = true)
    (hb : signedOk b = false) :
    ∃ t, exec (.packageReset [a, b, c]) s = .next t ∧ t.started = false ∧ t.dead = true ∧
      mget t.meas 0 = some (extend 0#512 a.bytes) ∧ mget t.meas 1 = none := by
  have hrun := exec_packageReset s a b c
  rw [runStages_signed ha, runStages_unsigned hb] at hrun
  exact ⟨_, hrun, rfl, rfl, State.mget_measure_first (s := packageBase s) _ rfl,
    State.mget_measure_other (packageBase s) _ (by decide)⟩

/-! ### Updates and banks (R399, R400, R420, R421) -/

theorem dead_of_onFabric (h : s.onFabric = true) : s.dead = false := by
  simp only [State.onFabric, Bool.and_eq_true, Bool.not_eq_true'] at h
  exact h.2

theorem exec_firmwareUpdate_signed {i : SignedImage} (hf : s.onFabric = true) (hi : signedOk i = true) :
    exec (.firmwareUpdate i) s = .next (s.measure 3 i.bytes) :=
  (if_neg (by simp [hf])).trans (if_pos hi)

theorem exec_firmwareUpdate_unsigned {i : SignedImage} (hf : s.onFabric = true) (hi : signedOk i = false) :
    exec (.firmwareUpdate i) s = .next s.stopPackage :=
  (if_neg (by simp [hf])).trans (if_neg (by simp [hi]))

theorem exec_firmwareUpdate_offFabric (i : SignedImage) (hf : s.onFabric = false) :
    exec (.firmwareUpdate i) s = .next s := if_pos (by simp [hf])

theorem exec_firmwareUpdate {i : SignedImage} (hf : s.onFabric = true) :
    ∃ t, exec (.firmwareUpdate i) s = .next t ∧ t.mem = s.mem ∧
      (signedOk i = true → t.dead = false ∧ mget t.meas 3 = some (extend (mgetD s.meas 3 0#512) i.bytes)) ∧
      (signedOk i = false → t.dead = true ∧ t.meas = s.meas) := by
  cases hi : signedOk i with
  | true => exact ⟨_, exec_firmwareUpdate_signed hf hi, rfl,
      fun _ => ⟨dead_of_onFabric hf, State.mget_measure_same ..⟩, nofun⟩
  | false => exact ⟨_, exec_firmwareUpdate_unsigned hf hi, rfl, nofun, fun _ => ⟨rfl, rfl⟩⟩

theorem mem_upFrom {a lo n : Nat} : a ∈ upFrom lo n ↔ lo ≤ a ∧ a < lo + n := by
  induction n generalizing lo with
  | zero =>
    simp only [upFrom, List.not_mem_nil, false_iff]
    omega
  | succ n ih =>
    simp only [upFrom, List.mem_cons, ih]
    omega

/-- Whether some die has a context bound to bank `n`. -/
theorem anyBound_iff {n : Nat} :
    (upFrom 0 4).any (fun d => nbound s d n != 0) = true ↔ ∃ d, d < 4 ∧ nbound s d n ≠ 0 := by
  simp [List.any_eq_true, mem_upFrom]

section
variable {n : Nat} (x : BankImage)

/-- A load that may take place goes by its signature and by whether the dies agree. -/
theorem exec_bankLoad (hf : s.onFabric = true) (hn : n < 4) (hb : ∀ d, d < 4 → nbound s d n = 0) :
    exec (.bankLoad n x) s =
      (if vendorSigned (loadedBank x).bytes x.sig = false then .next s.stopPackage
       else if x.agree = false then .next s else .next (loadBank n (loadedBank x) s)) :=
  if_neg (by
    rw [anyBound_iff]
    rintro (h | h | ⟨d, hd, h⟩)
    · simp [hf] at h
    · omega
    · exact h (hb d hd))

theorem exec_bankLoad_bound (hb : ∃ d, d < 4 ∧ nbound s d n ≠ 0) : exec (.bankLoad n x) s = .next s :=
  if_pos (.inr (.inr (anyBound_iff.2 hb)))

end

theorem loadBank_measured (n : Nat) (b : Bank) (s : State) :
    mget (loadBank n b s).meas 3 = some (extend (mgetD s.meas 3 0#512) b.bytes) := State.mget_measure_same ..

/-! ### Power, temperature and errors (R24, R26, R428) -/

theorem clampSize_toNat (v : BitVec 16) : (clampSize v).toNat = max 1 (min 64 v.toNat) := by
  rw [clampSize_eq, BitVec.toNat_ofNat, Nat.mod_eq_of_lt (by omega)]

theorem exec_thermalLimit {d : Nat} (v : BitVec 16) (hd : d < 4) :
    exec (.thermalLimit d v) s = .next (s.setDie d { s.die d with
      size := BitVec.ofNat 16 (min (max 1 (min 64 v.toNat)) (sizeFor (s.die d).limit)) }) := by
  rw [← clampSize_toNat]
  exact if_pos hd

theorem exec_criticalTemperature {d : Nat} (hd : d < 4) :
    ∃ t, exec (.criticalTemperature d) s = .next t ∧ t.dead = true ∧ t.ctxs = [] ∧ t.groups = [] ∧ t.ops = [] ∧
      t.mem = s.mem :=
  ⟨_, if_pos hd, rfl, rfl, rfl, rfl, rfl⟩

/-- An error of the K7's own memory marks its unit, which may be marked already. -/
theorem exec_uncorrectableError {a : Nat} (ha : a < 2 ^ 38) :
    exec (.uncorrectableError a) s =
      .next (if a / 64 ∈ s.badUnits then s else { s with badUnits := a / 64 :: s.badUnits }) := by
  show execUncorrectableError a s = _
  have hp : paExists a = true := by
    unfold paExists
    rw [decide_eq_true ha, Bool.true_or]
  rw [execUncorrectableError, if_neg (by omega), if_neg (by omega), if_neg (by omega), if_neg (by omega), hp]
  by_cases h : a / 64 ∈ s.badUnits <;> simp [h]

end

/-- Settles O36: each clause is the law of its event. -/
theorem trustEvents : Obligations.TrustEvents := by
  unfold Obligations.TrustEvents
  refine ⟨fun s a b c ha hb hc => exec_packageReset_signed ha hb hc, fun s a b c =>
    ⟨exec_packageReset_firstUnsigned b c, exec_packageReset_secondUnsigned c⟩, fun s i =>
    ⟨exec_firmwareUpdate, exec_firmwareUpdate_offFabric i⟩, fun n x s hf hn hb => ⟨fun hx ha => ?_, fun hx ha => ?_,
    fun hx => ?_⟩, fun n x s => exec_bankLoad_bound x, fun d v s hd => ⟨?_, exec_criticalTemperature hd⟩,
    fun a s ha => ?_⟩
  · refine ⟨loadBank n (loadedBank x) s, (exec_bankLoad x hf hn hb).trans ?_, loadBank_mem ..,
      fun d hd => ?_, loadBank_measured ..⟩
    · rw [if_neg (by simp [hx]), if_neg (by simp [ha])]
    · rw [bankAt_loadBank s hd, Bank.hashed]
  · rw [exec_bankLoad x hf hn hb, if_neg (by simp [hx]), if_pos ha]
  · exact ⟨_, (exec_bankLoad x hf hn hb).trans (if_pos hx), rfl, rfl, rfl⟩
  · refine ⟨_, exec_thermalLimit v hd, rfl, ?_, ?_⟩
    · rw [State.die_setDie_same]
    · rw [State.die_setDie_same, sizeFor, BitVec.toNat_ofNat, Nat.mod_eq_of_lt (by omega)]
  · refine ⟨_, exec_uncorrectableError ha, ?_⟩
    split
    · next h => exact ⟨h, rfl, rfl⟩
    · exact ⟨List.mem_cons_self .., rfl, rfl⟩

end Sys2Proof.Machine

/-! ## Events of the matrix engine

What the operations of `Machine/MatrixOps` do to a core's queue, its operations, the tokens of its die and the threads of
a group, and from these what each event of the engine does. -/

namespace Sys2Proof.Machine

/-! ### Operations, queues and tokens (R22, R202) -/

theorem mget_mmodify_same {α : Type} {m : AMap α} {k : Nat} {v : α} (h : α → α) (hv : mget m k = some v) :
    mget (mmodify m k h) k = some (h v) := by
  simp [mmodify, hv]

section
variable (s : State)

@[simp] theorem State.modMx_mxops (n : Nat) (h : MxOp → MxOp) : (s.modMx n h).mxops = mmodify s.mxops n h := rfl
@[simp] theorem State.mxOff_mxops (core n : Nat) : (s.mxOff core n).mxops = s.mxops := rfl
@[simp] theorem State.mxOff_rd_group (core n m : Nat) : (s.mxOff core n).group m = s.group m := rfl
@[simp] theorem State.mxOff_rd_die (core n m : Nat) : (s.mxOff core n).die m = s.die m := rfl
@[simp] theorem State.giveToken_mxops (d : Nat) : (s.giveToken d).mxops = s.mxops := rfl
@[simp] theorem State.giveToken_rd_group (d m : Nat) : (s.giveToken d).group m = s.group m := rfl
@[simp] theorem State.giveToken_rd_core (d m : Nat) : (s.giveToken d).core m = s.core m := rfl

theorem State.giveToken_inuse (d : Nat) : ((s.giveToken d).die d).inuse = (s.die d).inuse - 1 := by
  simp [State.giveToken]

theorem State.takeToken_inuse (d : Nat) : ((s.takeToken d).die d).inuse = (s.die d).inuse + 1 := by
  simp [State.takeToken]

end

/-- An operation listed once, at the head of its core's queue, leaves the rest of the queue. -/
theorem State.mxOff_head {s : State} {core n : Nat} {rest : List Nat} (hq : (s.core core).mxq = n :: rest)
    (hn : n ∉ rest) : ((s.mxOff core n).core core).mxq = rest := by
  simp only [State.mxOff, State.core_setCore_same, hq, List.filter_cons_of_neg, bne_self_eq_false, Bool.false_eq_true,
    not_false_eq_true]
  exact List.filter_eq_self.2 fun m hm => bne_iff_ne.2 fun h => hn (h ▸ hm)

theorem Group.mxCtx_of_mx {g : Group} {m : AMap MxCtx} {i : Nat} {c : MxCtx} :
    ({ g with mx := mset m i c } : Group).mxCtx i = c := mgetD_mset_same ..

/-! ### Threads of a group -/

theorem Group.mget_modThread_same (g : Group) (t : Nat) (h : Thread → Thread) :
    mget (g.modThread t h).threads t = (mget g.threads t).map h := by
  unfold Group.modThread
  split
  · next th ht => simp [ht]
  · next ht => simp [ht]

theorem Group.mget_modThread_other (g : Group) {t u : Nat} (h : Thread → Thread) (hu : u ≠ t) :
    mget (g.modThread t h).threads u = mget g.threads u := by
  unfold Group.modThread
  split
  · exact mget_mset_other _ _ hu
  · rfl

theorem State.thread_modThread_same (s : State) (gid t : Nat) (h : Thread → Thread) :
    (s.modThread gid t h).thread gid t = (s.thread gid t).map h := by
  unfold State.thread State.modThread
  rw [State.group_modGroup_same]
  cases s.group gid with
  | none => rfl
  | some g => exact g.mget_modThread_same t h

theorem State.thread_modThread_other (s : State) (gid : Nat) {t u : Nat} (h : Thread → Thread) (hu : u ≠ t) :
    (s.modThread gid t h).thread gid u = s.thread gid u := by
  unfold State.thread State.modThread
  rw [State.group_modGroup_same]
  cases s.group gid with
  | none => rfl
  | some g => exact g.mget_modThread_other h hu

/-! ### The registers of exited threads (R199) -/

/-- What a thread keeps once no step is left that names it: nothing, if it has exited. -/
def Thread.giveBack (th : Thread) : Thread := if th.live then th else { th with regs := [], marks := [], quota := 0 }

theorem Thread.giveBack_live {th : Thread} (h : th.live = true) : th.giveBack = th := if_pos h

theorem Thread.giveBack_exited {th : Thread} (h : th.live = false) :
    th.giveBack = { th with regs := [], marks := [], quota := 0 } := if_neg (by simp [h])

theorem Thread.giveBack_giveBack (th : Thread) : th.giveBack.giveBack = th.giveBack := by
  cases h : th.live with
  | true => rw [Thread.giveBack_live h, Thread.giveBack_live h]
  | false =>
    rw [Thread.giveBack_exited h]
    exact Thread.giveBack_exited h

/-- One thread of `returnRegs`. -/
def returnReg (s : State) (gid t : Nat) : State :=
  if stepsLeft s gid t then s else s.modThread gid t Thread.giveBack

theorem returnRegs_nil (s : State) (gid : Nat) : returnRegs s gid [] = s := rfl

theorem returnRegs_cons (s : State) (gid t : Nat) (ts : List Nat) :
    returnRegs s gid (t :: ts) = returnRegs (returnReg s gid t) gid ts := rfl

section
variable (s : State) (gid : Nat)

theorem returnReg_mxops (t : Nat) : (returnReg s gid t).mxops = s.mxops := by unfold returnReg; split <;> simp
theorem returnReg_cores (t : Nat) : (returnReg s gid t).cores = s.cores := by unfold returnReg; split <;> simp
theorem returnReg_dies (t : Nat) : (returnReg s gid t).dies = s.dies := by unfold returnReg; split <;> simp

@[simp] theorem returnRegs_mxops (ts : List Nat) : (returnRegs s gid ts).mxops = s.mxops := by
  induction ts generalizing s with
  | nil => rfl
  | cons t ts ih => rw [returnRegs_cons, ih, returnReg_mxops]

@[simp] theorem returnRegs_cores (ts : List Nat) : (returnRegs s gid ts).cores = s.cores := by
  induction ts generalizing s with
  | nil => rfl
  | cons t ts ih => rw [returnRegs_cons, ih, returnReg_cores]

@[simp] theorem returnRegs_dies (ts : List Nat) : (returnRegs s gid ts).dies = s.dies := by
  induction ts generalizing s with
  | nil => rfl
  | cons t ts ih => rw [returnRegs_cons, ih, returnReg_dies]

end

theorem stepsLeft_of_mxops {s t : State} (h : t.mxops = s.mxops) (gid k : Nat) :
    stepsLeft t gid k = stepsLeft s gid k := by
  unfold stepsLeft
  rw [h]

/-- A thread after the registers are given back. -/
theorem thread_returnReg (s : State) (gid t k : Nat) :
    (returnReg s gid t).thread gid k =
      (s.thread gid k).map (fun th => if k = t ∧ stepsLeft s gid k = false then th.giveBack else th) := by
  unfold returnReg
  split
  · next hl =>
    have hno : ¬ (k = t ∧ stepsLeft s gid k = false) := by
      rintro ⟨rfl, h⟩
      simp [hl] at h
    simp [hno]
  · next hl =>
    by_cases hk : k = t
    · subst hk
      simp [State.thread_modThread_same, hl]
    · simp [State.thread_modThread_other _ _ _ hk, hk]

theorem thread_returnRegs (s : State) (gid k : Nat) (ts : List Nat) :
    (returnRegs s gid ts).thread gid k =
      (s.thread gid k).map (fun th => if k ∈ ts ∧ stepsLeft s gid k = false then th.giveBack else th) := by
  induction ts generalizing s with
  | nil => simp [returnRegs_nil]
  | cons t ts ih =>
    rw [returnRegs_cons, ih, stepsLeft_of_mxops (returnReg_mxops ..), thread_returnReg, Option.map_map]
    congr 1
    funext th
    by_cases hl : stepsLeft s gid k = false
    · by_cases ht : k = t
      · subst ht
        simp [hl, Thread.giveBack_giveBack]
      · simp [hl, ht]
    · simp [hl]

/-! ### Acceptance (R202) -/

section
variable {core n : Nat} {rest : List Nat} {s : State} {o : MxOp} {g : Group}
  (hq : (s.core core).mxq = n :: rest) (ho : mget s.mxops n = some o) (hg : s.group o.gid = some g)
include hq ho hg

/-- A weight load that the engine accepts takes the tile's contents. -/
theorem exec_matrixAccept_mldw {x : Nat} (hk : o.kind = .mldw x) (hs : o.stage = .requested)
    (hp : pendingTld s o.gid x = false) :
    exec (.matrixAccept core) s = .next (((s.setGroup o.gid { g with
      mx := mset g.mx o.mx { g.mxCtx o.mx with latch := some (g.tile x) } }).modMx n
        (fun o => { o with stage := .applied })).mxOff core n) := by
  show execMatrixAccept core s = _
  simp [execMatrixAccept, hq, ho, hg, hk, hs, hp]

/-- A scale that the engine accepts becomes the override. -/
theorem exec_matrixAccept_mscale {ws : Option (List W32)} (hk : o.kind = .mscale ws) (hs : o.stage = .requested) :
    exec (.matrixAccept core) s = .next (((s.setGroup o.gid { g with
      mx := mset g.mx o.mx { g.mxCtx o.mx with override := ws } }).modMx n
        (fun o => { o with stage := .applied })).mxOff core n) := by
  show execMatrixAccept core s = _
  simp [execMatrixAccept, hq, ho, hg, hk, hs]

/-- A step whose tile is there and whose die has a token takes the token and streams. -/
theorem exec_matrixAccept_mmaa {st : MmaaStep} (hk : o.kind = .mmaa st) (hs : o.stage = .requested)
    (hp : ∀ x, st.tile = some x → pendingTld s o.gid x = false)
    (ht : (s.die (core / 64)).inuse < (s.die (core / 64)).size.toNat) :
    exec (.matrixAccept core) s = .next ((streamStep (s.takeToken (core / 64)) n o g st).getD s) := by
  show execMatrixAccept core s = _
  have hfree : s.tokenFree (core / 64) = true := decide_eq_true ht
  cases hx : st.tile with
  | none => simp [execMatrixAccept, hq, ho, hg, hk, hs, hfree, hx]
  | some x => simp [execMatrixAccept, hq, ho, hg, hk, hs, hfree, hx, hp x hx]

end

/-- An operation that is applied leaves its core's queue, and its entry says so. -/
theorem applied_mxOff {t : State} {core n : Nat} {rest : List Nat} {o : MxOp} (h : MxOp → MxOp)
    (hq : (t.core core).mxq = n :: rest) (hn : n ∉ rest) (ho : mget t.mxops n = some o) :
    mget ((t.modMx n h).mxOff core n).mxops n = some (h o) ∧ (((t.modMx n h).mxOff core n).core core).mxq = rest :=
  ⟨mget_mmodify_same h ho, State.mxOff_head (s := t.modMx n h) hq hn⟩

/-- A step whose rows are streamed holds what they give. -/
theorem streamStep_ok {s s1 : State} {n : Nat} {o : MxOp} {g : Group} {st : MmaaStep} {rows : List MxRow}
    (h : aRows s (o.agent s) g st (g.mxCtx o.mx).override = .ok (rows, s1)) :
    let v := mmaaCompute g st rows ((upFrom 0 st.n).map ((g.mxCtx o.mx).latch.getD Tile.zero).row)
    streamStep s n o g st =
      some (s1.modMx n (fun o => { o with stage := .accepted, vals := v.1, flags := v.2, stall := none })) := by
  simp [streamStep, h]

/-- The agent of an operation does not depend on tokens. -/
theorem agent_takeToken (s : State) (o : MxOp) (d : Nat) : o.agent (s.takeToken d) = o.agent s := rfl

/-- A step that reads a tile reads no memory. -/
theorem aRows_tile {s s1 : State} {ag : EngAgent} {g : Group} {st : MmaaStep} {ov : Option (List W32)}
    {rows : List MxRow} {x : Nat} (hx : st.tile = some x) (h : aRows s ag g st ov = .ok (rows, s1)) : s1 = s := by
  simp only [aRows, hx, Except.ok.injEq, Prod.mk.injEq] at h
  exact h.2.symm

/-! ### The last multiply-accumulate (R22, R198, R199, R202) -/

/-- The threads that a step names. -/
def MxKind.peers : MxKind → List Nat
  | .mmaa st => st.peers
  | _ => []

/-- A thread that has not exited receives a register of an accumulator. -/
def Thread.writeAcc (th : Thread) (r : Nat) (v : W32) : Thread :=
  if th.live then { th with regs := mset th.regs r v } else th

theorem Thread.writeAcc_live {th : Thread} (h : th.live = true) (r : Nat) (v : W32) :
    th.writeAcc r v = { th with regs := mset th.regs r v } := if_pos h

theorem Thread.writeAcc_rd_live (th : Thread) (r : Nat) (v : W32) : (th.writeAcc r v).live = th.live := by
  unfold Thread.writeAcc
  split <;> rfl

theorem Thread.writeAcc_exited {th : Thread} (h : th.live = false) (r : Nat) (v : W32) : th.writeAcc r v = th :=
  if_neg (by simp [h])

/-- A step has written its members: it is applied with flags `fl`, has left its core's queue and returned its token. -/
def stepApplied (s : State) (core n : Nat) (o : MxOp) (fl : List (Nat × FFlags)) : State :=
  (((s.modGroup o.gid (fun g => o.vals.foldl (fun g v => g.modThread v.1 (·.writeAcc v.2.1 v.2.2)) g)).modMx n
    (fun o => { o with stage := .applied, vals := [], flags := fl })).mxOff core n).giveToken (core / 64)

section
variable {core n : Nat} {rest : List Nat} {s : State} {o : MxOp} (hq : (s.core core).mxq = n :: rest)
include hq

theorem exec_matrixLastMac (ho : mget s.mxops n = some o) (hs : o.stage = .accepted) (hw : o.stall = none)
    (hr : recordLate s (o.agent s).cid o.recd = false) :
    ∃ fl, exec (.matrixLastMac core) s = .next (returnRegs (stepApplied s core n o fl) o.gid o.kind.peers) := by
  show ∃ fl, execMatrixLastMac core s = _
  simp only [execMatrixLastMac, hq, ho]
  rw [if_neg (by simp [hs, hw, hr])]
  cases o.kind <;> exact ⟨_, rfl⟩

theorem stepApplied_mxq (hn : n ∉ rest) (fl : List (Nat × FFlags)) :
    ((stepApplied s core n o fl).core core).mxq = rest := by
  unfold stepApplied
  exact State.mxOff_head (by simpa using hq) hn

end

theorem stepApplied_inuse (s : State) (core n : Nat) (o : MxOp) (fl : List (Nat × FFlags)) :
    ((stepApplied s core n o fl).die (core / 64)).inuse = (s.die (core / 64)).inuse - 1 := by
  simp [stepApplied, State.giveToken_inuse]

theorem stepApplied_op {s : State} {n : Nat} {o : MxOp} (ho : mget s.mxops n = some o) (core : Nat)
    (fl : List (Nat × FFlags)) :
    mget (stepApplied s core n o fl).mxops n = some { o with stage := .applied, vals := [], flags := fl } :=
  mget_mmodify_same _ (by simpa using ho)

/-- A step with one element writes it to its member. -/
theorem stepApplied_thread {s : State} {o : MxOp} {g : Group} {th : Thread} {k r : Nat} {v : W32}
    (hg : s.group o.gid = some g) (hv : o.vals = [(k, r, v)]) (ht : mget g.threads k = some th) (core n : Nat)
    (fl : List (Nat × FFlags)) : (stepApplied s core n o fl).thread o.gid k = some (th.writeAcc r v) := by
  simp [stepApplied, State.thread, State.group_modGroup_same, hg, hv, Group.mget_modThread_same, ht]

/-! ### Completion of a batch (R201) -/

/-- The next number of a context with none beyond it moves the timeline by one. -/
theorem Group.complete_next {g : Group} {c : Nat} (hb : (g.engCtx c).beyond = []) (err : Bool) (d : List DoneOp) :
    ((g.complete c ((g.engCtx c).tl + 1) err d).engCtx c).tl = (g.engCtx c).tl + 1 ∧
      ((g.complete c ((g.engCtx c).tl + 1) err d).engCtx c).err = ((g.engCtx c).err || err) := by
  have hw (x : EngCtx) : ({ g with eng := mset g.eng c x } : Group).engCtx c = x := mgetD_mset_same ..
  simp [Group.complete, hw, hb, advanceTl]

/-- The next batch of a context completes once its operations have all applied. -/
theorem exec_matrixBatchComplete {gid mx : Nat} {s : State} {g : Group} {x : EngCtx} (hg : s.group gid = some g)
    (hx : g.engCtx (4 + mx) = x) (hi : x.tl + 1 ≤ x.issued) (hb : x.beyond = []) (ho : s.ops = [])
    (ha : ∀ k o, (k, o) ∈ s.mxops → o.gid = gid → o.mx = mx → o.batch = some (x.tl + 1) → o.stage = .applied) :
    ∃ parts left, exec (.matrixBatchComplete gid mx (x.tl + 1)) s =
      .next { s.modGroup gid (fun g => g.complete (4 + mx) (x.tl + 1) false parts) with mxops := left } := by
  have hall : ((mxOpsOf s gid mx).filter (fun e => e.2.batch == some (x.tl + 1))).any
      (fun e => e.2.stage != .applied) = false := by
    simp only [mxOpsOf, List.any_eq_false, List.mem_filter, Bool.and_eq_true, beq_iff_eq, bne_iff_ne]
    rintro ⟨k, o⟩ ⟨⟨hm, hgid, hmx⟩, hbatch⟩ hstage
    exact hstage (ha k o hm hgid hmx hbatch)
  have hdone : x.isDone (x.tl + 1) = false := by simp [EngCtx.isDone, hb]
  show ∃ parts left, execMatrixBatchComplete gid mx _ s = _
  simp only [execMatrixBatchComplete, hg, hx]
  rw [if_neg]
  · exact ⟨_, _, rfl⟩
  · simp only [ho, hall, hdone, List.any_nil, Bool.false_eq_true, false_or]
    omega

/-! ### The obligation -/

/-- Settles O26: each clause is the law of its event, and the rules of the queue, the operations, the tokens and the
threads say what the state after it holds. -/
theorem matrixEvents : Obligations.MatrixEvents := by
  unfold Obligations.MatrixEvents
  refine ⟨fun core n rest s o g hq hn ho hg hs hw => ⟨fun x hk hp => ?_, fun ws hk => ?_,
    fun st rows s1 hk hp ht ha hm => ?_⟩, fun core n k r v rest s o g th hq hn ho hg hs hw hr hv ht => ?_,
    fun gid mx s g hg => ?_⟩
  · obtain ⟨hop, hrest⟩ := applied_mxOff (t := s.setGroup o.gid _) (fun o => { o with stage := .applied }) hq hn ho
    exact ⟨_, _, exec_matrixAccept_mldw hq ho hg hk hs hp, State.group_setGroup_same ..,
      congrArg MxCtx.latch Group.mxCtx_of_mx, hop, hrest⟩
  · obtain ⟨hop, hrest⟩ := applied_mxOff (t := s.setGroup o.gid _) (fun o => { o with stage := .applied }) hq hn ho
    exact ⟨_, _, exec_matrixAccept_mscale hq ho hg hk hs, State.group_setGroup_same ..,
      congrArg MxCtx.override Group.mxCtx_of_mx, hop, hrest⟩
  · have hexec := exec_matrixAccept_mmaa hq ho hg hk hs hp ht
    rw [← agent_takeToken s o (core / 64)] at ha
    rw [streamStep_ok ha, Option.getD_some] at hexec
    refine ⟨_, hexec, mget_mmodify_same _ (hm ▸ ho), rfl, fun x hx => ?_, rfl⟩
    rw [State.modMx_rd_die, aRows_tile hx ha, State.takeToken_inuse]
  · obtain ⟨fl, hexec⟩ := exec_matrixLastMac hq ho hs hw hr
    have hth := thread_returnRegs (stepApplied s core n o fl) o.gid k o.kind.peers
    rw [stepApplied_thread hg hv ht, Option.map_some] at hth
    refine ⟨_, hexec, ?_, ?_, ?_, fun hl => ?_, fun st hl hk hks => ?_⟩
    · rw [State.core, returnRegs_cores]
      exact stepApplied_mxq hq hn fl
    · rw [State.die, returnRegs_dies]
      exact stepApplied_inuse s core n o fl
    · rw [returnRegs_mxops, stepApplied_op ho]
      rfl
    · rw [hth, Thread.giveBack_live ((th.writeAcc_rd_live r v).trans hl), ite_self, Thread.writeAcc_live hl]
    · have hp : k ∈ o.kind.peers := by rwa [hk]
      rw [hth, stepsLeft_of_mxops (returnRegs_mxops ..), Thread.writeAcc_exited hl, Thread.giveBack_exited hl]
      cases stepsLeft (stepApplied s core n o fl) o.gid k <;> simp [hp]
  · intro x n hi hb ho ha
    obtain ⟨parts, left, hexec⟩ := exec_matrixBatchComplete hg rfl hi hb ho ha
    obtain ⟨htl, herr⟩ := Group.complete_next hb false parts
    refine ⟨_, _, hexec, ?_, htl, ?_, ?_, ?_⟩
    · exact (State.group_modGroup_same ..).trans (by rw [hg, Option.map_some])
    · rw [herr, Bool.or_false]
    · exact State.modGroup_mem ..
    · exact State.modGroup_cores ..

end Sys2Proof.Machine

/-! ## The decoder and the encoder (R60, R61, R71, R73, R252) -/
namespace Sys2Proof

open Machine (encOf fieldsOf encOk)

/-- The checks that a well-formed vector word has passed. -/
theorem encOk_of_wf {i : Instr} {f : Fields} {en : Machine.Enc} (h : i.wf = true) (he : encOf i = some en)
    (hf : fieldsOf i = some f) : encOk en f = true := by
  unfold Instr.wf at h
  split at h
  · cases hf
  · cases hf
  · cases hf
  · simpa [he, hf] using h

theorem ok_of_wf {i : Instr} {f : Fields} {en : Machine.Enc} (h : i.wf = true) (he : encOf i = some en)
    (hf : fieldsOf i = some f) : en.ok = true := by
  have hk := encOk_of_wf h he hf
  simp only [encOk, Bool.and_eq_true] at hk
  simp [hk]

/-! ### Opcodes that carry a scope and an ordering (R73) -/

theorem ofNat_scope (base : Nat) (ord : BitVec 2) (sc : BitVec 3) (hb : base % 32 = 0) :
    BitVec.ofNat 3 (base + 8 * ord.toNat + sc.toNat) = sc := by
  have := sc.isLt
  apply BitVec.eq_of_toNat_eq
  simp only [BitVec.toNat_ofNat]
  omega

theorem ofNat_ordering (base : Nat) (ord : BitVec 2) (sc : BitVec 3) (hb : base % 32 = 0) :
    BitVec.ofNat 2 ((base + 8 * ord.toNat + sc.toNat) / 8) = ord := by
  have := sc.isLt
  have := ord.isLt
  apply BitVec.eq_of_toNat_eq
  simp only [BitVec.toNat_ofNat]
  omega

theorem div_scoped (base : Nat) (ord : BitVec 2) (sc : BitVec 3) (hb : base % 32 = 0) :
    (base + 8 * ord.toNat + sc.toNat) / 32 = base / 32 ∧ (base + 8 * ord.toNat + sc.toNat) / 256 = base / 256 := by
  have := sc.isLt
  have := ord.isLt
  omega

/-- Group 0x9 by its five leading bits: what stands below them is the ordering and the scope. -/
theorem decodeOp_scoped {base : Nat} (ord : BitVec 2) (sc : BitVec 3) (f : Fields) (hb : base % 32 = 0) (h9 : base / 256 = 9) :
    decodeOp (base + 8 * ord.toNat + sc.toNat) f =
      match base / 32 with
      | 0x48 => some (.atomI32 ord sc f)
      | 0x49 => some (.atomI64 ord sc f)
      | 0x4A => some (.atomF32 ord sc f)
      | 0x4B => some (.atomcasB32 ord sc f)
      | 0x4C => some (.atomcasB64 ord sc f)
      | 0x4D => some (.redI32 ord sc f)
      | 0x4E => some (.redF32 ord sc f)
      | 0x4F => some (match ord.toNat with
        | 0 => .waddF32 sc f | 1 => .waddF64 sc f | 2 => .wrdF64 sc f | _ => .wset sc f)
      | _ => none := by
  obtain ⟨h32, h256⟩ := div_scoped base ord sc hb
  have h4 : (base + 8 * ord.toNat + sc.toNat) / 8 % 4 = ord.toNat := by
    have := sc.isLt
    have := ord.isLt
    omega
  simp only [decodeOp, h256, h9, decodeG9, h32, h4, ofNat_scope base ord sc hb, ofNat_ordering base ord sc hb] <;> rfl

theorem decodeOp_fence (sc : BitVec 3) (f : Fields) : decodeOp (0xA00 + sc.toNat) f = some (.fence sc f) := by
  have h : ∀ x : BitVec 3, x = 0#3 ∨ x = 1#3 ∨ x = 2#3 ∨ x = 3#3 ∨ x = 4#3 ∨ x = 5#3 ∨ x = 6#3 ∨ x = 7#3 := by decide
  obtain rfl | rfl | rfl | rfl | rfl | rfl | rfl | rfl := h sc
  all_goals rfl

/-- An opcode that two rows share by `mod` (R73), where `mod` is 0. -/
theorem shared_zero {i j : Instr} {f : Fields} (h : (f.mod == 0#4) = true) :
    some (if f.mod == 1#4 then j else i) = some i := by
  rw [eq_of_beq h]; rfl

/-- The same where `mod` is 1. -/
theorem shared_one {i j : Instr} {f : Fields} (h : (f.mod == 1#4) = true) :
    some (if f.mod == 1#4 then i else j) = some i := by
  rw [eq_of_beq h]; rfl

/-- R73: of a well-formed instruction the opcode map gives back what the encoder took its opcode from. -/
theorem decodeOp_opcodeOf {i : Instr} {op : Nat} {f : Fields} (hwf : i.wf = true) (ho : opcodeOf i = some op)
    (hf : fieldsOf i = some f) : decodeOp op f = some i := by
  cases i
  case atomI32 ord sc _ => cases ho; cases hf; exact decodeOp_scoped ord sc f rfl rfl
  case atomI64 ord sc _ => cases ho; cases hf; exact decodeOp_scoped ord sc f rfl rfl
  case atomF32 ord sc _ => cases ho; cases hf; exact decodeOp_scoped ord sc f rfl rfl
  case atomcasB32 ord sc _ => cases ho; cases hf; exact decodeOp_scoped ord sc f rfl rfl
  case atomcasB64 ord sc _ => cases ho; cases hf; exact decodeOp_scoped ord sc f rfl rfl
  case redI32 ord sc _ => cases ho; cases hf; exact decodeOp_scoped ord sc f rfl rfl
  case redF32 ord sc _ => cases ho; cases hf; exact decodeOp_scoped ord sc f rfl rfl
  case waddF32 sc _ => cases ho; cases hf; exact decodeOp_scoped 0#2 sc f (base := 0x9E0) rfl rfl
  case waddF64 sc _ => cases ho; cases hf; exact decodeOp_scoped 1#2 sc f (base := 0x9E0) rfl rfl
  case wrdF64 sc _ => cases ho; cases hf; exact decodeOp_scoped 2#2 sc f (base := 0x9E0) rfl rfl
  case wset sc _ => cases ho; cases hf; exact decodeOp_scoped 3#2 sc f (base := 0x9E0) rfl rfl
  case fence sc _ => cases ho; cases hf; exact decodeOp_fence sc f
  case frexpF32 => cases ho; cases hf; exact shared_zero (ok_of_wf hwf rfl rfl)
  case pmovGet => cases ho; cases hf; exact shared_zero (ok_of_wf hwf rfl rfl)
  case ifence => cases ho; cases hf; exact shared_zero (ok_of_wf hwf rfl rfl)
  case tlread => cases ho; cases hf; exact shared_zero (ok_of_wf hwf rfl rfl)
  case mscale => cases ho; cases hf; exact shared_zero (ok_of_wf hwf rfl rfl)
  case fsflush => cases ho; cases hf; exact shared_zero (ok_of_wf hwf rfl rfl)
  case fsstat => cases ho; cases hf; exact shared_zero (ok_of_wf hwf rfl rfl)
  case ewset => cases ho; cases hf; exact shared_zero (ok_of_wf hwf rfl rfl)
  case frexpExpF32 => cases ho; cases hf; exact shared_one (ok_of_wf hwf rfl rfl)
  case pmovPut => cases ho; cases hf; exact shared_one (ok_of_wf hwf rfl rfl)
  case ifenceCp => cases ho; cases hf; exact shared_one (ok_of_wf hwf rfl rfl)
  case tlreadErr => cases ho; cases hf; exact shared_one (ok_of_wf hwf rfl rfl)
  case mscaleClr => cases ho; cases hf; exact shared_one (ok_of_wf hwf rfl rfl)
  case fsflushAll => cases ho; cases hf; exact shared_one (ok_of_wf hwf rfl rfl)
  case fsstatRec => cases ho; cases hf; exact shared_one (ok_of_wf hwf rfl rfl)
  case ewsetNext => cases ho; cases hf; exact shared_one (ok_of_wf hwf rfl rfl)
  all_goals (cases ho; all_goals (cases hf; all_goals rfl))

/-! ### What a decoded opcode says -/

/-- The opcode of group 0x9 from its parts. -/
theorem scoped_eq (op : Nat) : op = op / 32 * 32 + 8 * (BitVec.ofNat 2 (op / 8)).toNat + (BitVec.ofNat 3 op).toNat := by
  simp only [BitVec.toNat_ofNat]
  omega

theorem decodeG9_inv {op : Nat} {f : Fields} {i : Instr} (h : decodeG9 op f = some i) :
    opcodeOf i = some op ∧ fieldsOf i = some f := by
  have hop := scoped_eq op
  unfold decodeG9 at h
  split at h
  case h_8 h32 =>
    rw [h32] at hop
    have h2 : (BitVec.ofNat 2 (op / 8)).toNat = op / 8 % 4 := BitVec.toNat_ofNat ..
    rw [h2] at hop
    split at h
    case h_4 _ h0 h1 h2 =>
      cases h
      replace h0 : op / 8 % 4 ≠ 0 := h0
      replace h1 : op / 8 % 4 ≠ 1 := h1
      replace h2 : op / 8 % 4 ≠ 2 := h2
      exact ⟨congrArg some (by omega), rfl⟩
    all_goals (cases h; exact ⟨congrArg some (by omega), rfl⟩)
  case h_9 => cases h
  all_goals
    rename_i h32
    rw [h32] at hop
    cases h
    exact ⟨congrArg some hop.symm, rfl⟩

theorem decodeGA_inv {op : Nat} {f : Fields} {i : Instr} (h : decodeGA op f = some i) :
    opcodeOf i = some op ∧ fieldsOf i = some f := by
  unfold decodeGA at h
  split at h
  case h_13 =>
    split at h
    case isTrue hr =>
      cases h
      refine ⟨congrArg some ?_, rfl⟩
      simp only [BitVec.toNat_ofNat]
      omega
    case isFalse => cases h
  all_goals (cases h; try split)
  all_goals exact ⟨rfl, rfl⟩

/-- R73: the encoder takes back the opcode and the fields that the opcode map read. -/
theorem decodeOp_inv {op : Nat} {f : Fields} {i : Instr} (h : decodeOp op f = some i) :
    opcodeOf i = some op ∧ fieldsOf i = some f := by
  unfold decodeOp at h
  split at h
  case h_10 => exact decodeG9_inv h
  case h_11 => exact decodeGA_inv h
  case h_16 => cases h
  all_goals
    simp only [decodeG0, decodeG1, decodeG2, decodeG3, decodeG4, decodeG5, decodeG6, decodeG7, decodeG8, decodeGB,
      decodeGC, decodeGD, decodeGE] at h
    split at h
  all_goals (cases h; try split)
  all_goals exact ⟨rfl, rfl⟩

theorem decodeOp_lt {op : Nat} {f : Fields} {i : Instr} (h : decodeOp op f = some i) : op < 3840 := by
  unfold decodeOp at h
  split at h
  case h_16 => cases h
  all_goals omega

theorem decodeOp_ne_one {op : Nat} {f : Fields} {i : Instr} (h : decodeOp op f = some i) : op ≠ 1 := by
  rintro rfl
  cases h

/-! ### Hart words (R251, R252) -/

/-- R252: the fields of an Xkf word. -/
theorem hbits_packXkf (f3 : BitVec 3) (rd a b : BitVec 5) :
    hbits (packXkf f3 rd a b) 0 2 = 3#2 ∧ hbits (packXkf f3 rd a b) 0 7 = 0x0B#7 ∧ rvF7 (packXkf f3 rd a b) = 0 ∧
      rvF3 (packXkf f3 rd a b) = f3.toNat ∧ rvRd (packXkf f3 rd a b) = rd ∧ rvRs1 (packXkf f3 rd a b) = a ∧
      rvRs2 (packXkf f3 rd a b) = b := by
  simp only [rvF7, rvF3, rvRd, rvRs1, rvRs2, hbits, packXkf]
  simp (discharger := omega) only [extract_append_low, extract_append_high]
  simp

/-- R252: an Xkf word is read through the table of its function codes. -/
theorem decodeHart_packXkf {f3 : BitVec 3} {rd a b : BitVec 5} {i : Instr} (h : decodeXkf (packXkf f3 rd a b) = some i) :
    decodeHart (packXkf f3 rd a b) = i := by
  obtain ⟨h2, h7, -⟩ := hbits_packXkf f3 rd a b
  simp [decodeHart, h2, h7, h]

theorem decodeXkf_packXkf (f3 : BitVec 3) (rd a b : BitVec 5) :
    decodeXkf (packXkf f3 rd a b) = match f3.toNat with
      | 0 => if rd = 0#5 ∧ b = 0#5 then some (.kfUqpush a) else none
      | 1 => some (.kfTcfg rd a b)
      | 2 => some (.kfTsset rd a b)
      | 3 => some (.kfCpkick rd a b)
      | 4 => some (.kfFsdesc rd a b)
      | 5 => if b = 0#5 then some (.kfGid rd a) else none
      | 6 => if rd = 0#5 then some (.kfQnotify a b) else none
      | _ => if rd = 0#5 ∧ b = 0#5 then some (.kfHold a) else none := by
  obtain ⟨-, -, h7, h3, hd, ha, hb⟩ := hbits_packXkf f3 rd a b
  simp only [decodeXkf, h7, h3, hd, ha, hb, ne_eq, not_true_eq_false, if_false] <;> rfl

/-- R251, R252: a hart's word that the encoder writes is read back. -/
theorem decodeHart_encodeHart {i : Instr} {w : W32} (h : encodeHart i = some w) : decodeHart w = i := by
  cases i
  case hartEcall => cases h; decide
  case kfUqpush => cases h; exact decodeHart_packXkf (by rw [decodeXkf_packXkf]; rfl)
  case kfTcfg => cases h; exact decodeHart_packXkf (by rw [decodeXkf_packXkf]; rfl)
  case kfTsset => cases h; exact decodeHart_packXkf (by rw [decodeXkf_packXkf]; rfl)
  case kfCpkick => cases h; exact decodeHart_packXkf (by rw [decodeXkf_packXkf]; rfl)
  case kfFsdesc => cases h; exact decodeHart_packXkf (by rw [decodeXkf_packXkf]; rfl)
  case kfGid => cases h; exact decodeHart_packXkf (by rw [decodeXkf_packXkf]; rfl)
  case kfQnotify => cases h; exact decodeHart_packXkf (by rw [decodeXkf_packXkf]; rfl)
  case kfHold => cases h; exact decodeHart_packXkf (by rw [decodeXkf_packXkf]; rfl)
  all_goals cases h

/-- Words of RV64GC have no encoding here, so that no word that the encoder writes is the illegal one. -/
theorem isIllegal_encodeHart {i : Instr} {w : W32} (h : encodeHart i = some w) : isIllegal i = false := by
  cases i
  case hartRv64gcInstruction => cases h
  all_goals rfl

/-- What the encoder writes (R60, R71, R252), by the kinds of words. -/
theorem encode_inv {i : Instr} {p : Nat × Nat} (h : encode i = some p) :
    (∃ r, i = .rep r ∧ p = (64, (packRep r).toNat)) ∨
    (∃ op f, opcodeOf i = some op ∧ fieldsOf i = some f ∧ p = (64, (packWord (BitVec.ofNat 12 op) f).toNat)) ∨
    (∃ w, encodeHart i = some w ∧ p = (32, w.toNat)) := by
  unfold encode at h
  split at h
  next r => cases h; exact .inl ⟨r, rfl, rfl⟩
  next =>
    split at h
    next op f ho hf => cases h; exact .inr (.inl ⟨op, f, ho, hf, rfl⟩)
    next =>
      obtain ⟨w, hw, rfl⟩ := Option.map_eq_some_iff.1 h
      exact .inr (.inr ⟨w, hw, rfl⟩)

/-- Settles O38: an instruction word is read back through the opcode map, a REP word through its own layout, a hart's
word through the Xkf table. -/
theorem encodeThenDecode : Obligations.EncodeThenDecode := by
  unfold Obligations.EncodeThenDecode
  intro i p hwf h
  obtain ⟨r, rfl, rfl⟩ | ⟨op, f, ho, hf, rfl⟩ | ⟨w, hw, rfl⟩ := encode_inv h
  · exact decode_packRep r
  · have hd := decodeOp_opcodeOf hwf ho hf
    exact decode_packWord hd (Nat.lt_trans (decodeOp_lt hd) (by decide)) (decodeOp_ne_one hd)
  · simp [decodeTableWord, decodeHart_encodeHart hw, isIllegal_encodeHart hw]

theorem encode_decodeOp {op : Nat} {f : Fields} {i : Instr} (h : decodeOp op f = some i) :
    encode i = some (64, (packWord (BitVec.ofNat 12 op) f).toNat) := by
  obtain ⟨ho, hf⟩ := decodeOp_inv h
  unfold encode
  split
  next => cases hf
  next => simp only [ho, hf]

/-- Settles O39: the word is packed again from its opcode and its fields, and a REP word from its own. -/
theorem decodeThenEncode : Obligations.DecodeThenEncode := by
  unfold Obligations.DecodeThenEncode
  intro w hdef
  unfold decodeWord at hdef ⊢
  split
  case isTrue h1 =>
    have hw : wbits w 0 12 = 1#12 := BitVec.eq_of_toNat_eq h1
    simp [encode, packRep_repFieldsAt w hw]
  case isFalse h1 =>
    simp only [h1, if_false] at hdef
    cases hd : decodeOp (opAt w) (fieldsAt w) with
    | none => exact absurd (by rw [hd]) (hdef _ w)
    | some i =>
      have hop : BitVec.ofNat 12 (opAt w) = wbits w 0 12 := BitVec.ofNat_toNat ..
      simp only [encode_decodeOp hd, hop, packWord_fieldsAt]

/-- Settles O37: the words of the tables, as the model's own test evaluates them. -/
theorem wordsDecode : Obligations.WordsDecode := Tests.test_words

end Sys2Proof

/-! ## Slots: illegal fields, false guards, REP, and what a step runs (R59, R64, R68, R71, R251) -/
namespace Sys2Proof.Machine

/-! ### Slots whose fields are illegal (R64) -/

/-- Whether an outcome is that of a slot of `i`, whose fields are checked first (R64). -/
def IsSlot (i : Instr) (f : Fields) (s : State) (o : Host.Outcome State Fault Refusal) : Prop :=
  ∃ m, o = runInstr i f m s

theorem isSlot_runInstr (i f m s) : IsSlot i f s (runInstr i f m s) := ⟨_, rfl⟩
theorem isSlot_runAlu (i f body s) : IsSlot i f s (runAlu i f body s) := ⟨_, rfl⟩
theorem isSlot_runGuarded (i f m s) : IsSlot i f s (runGuarded i f m s) := ⟨_, rfl⟩
theorem isSlot_runTransfer (i f m s) : IsSlot i f s (runTransfer i f m s) := ⟨_, rfl⟩
theorem isSlot_runEnder (i f m s) : IsSlot i f s (runEnder i f m s) := ⟨_, rfl⟩
theorem isSlot_runBlocking (i f m s) : IsSlot i f s (runBlocking i f m s) := ⟨_, rfl⟩
theorem isSlot_arriveAt (i f m s) : IsSlot i f s (arriveAt i f m s) := ⟨_, rfl⟩
theorem isSlot_arriveColl (i f s) : IsSlot i f s (arriveColl i f s) := ⟨_, rfl⟩
theorem isSlot_arriveMx (i f o s) : IsSlot i f s (arriveMx i f o s) := ⟨_, rfl⟩

/-- Every instruction with fields is a slot of one of the shared shapes. -/
theorem isSlot_exec {i : Instr} {f : Fields} (hf : fieldsOf i = some f) (s : State) : IsSlot i f s (exec i s) := by
  cases i with
  | nop f | iaddI32 f | iaddI64 f | isubI32 f | isubI64 f | imulI32 f | imulhI32 f | imulhN32 f | imadI32 f
  | imadwI64 f | iminI32 f | iminN32 f | imaxI32 f | imaxN32 f | iabsI32 f | inegI32 f | icmpI32 f | icmpN32 f
  | icmpI64 f | icmpN64 f | lea f | leaI64 f | idivI32 f | idivN32 f | iremI32 f | iremN32 f | idot4I8 f | idot4N8 f
  | idot8I4 f | iclampI32 f | and f | or f | xor f | andn f | not f | shl f | shr f | sar f | rotl f | shlI64 f
  | shrI64 f | sarI64 f | bfeN32 f | bfeI32 f | bfi f | popc f | clz f | brev f | bperm f | faddF32 f | faddF64 f
  | fsubF32 f | fsubF64 f | fmulF32 f | fmulF64 f | ffmaF32 f | ffmaF64 f | fdivF32 f | fdivF64 f | fminF32 f
  | fminF64 f | fmaxF32 f | fmaxF64 f | fcmpF32 f | fcmpF64 f | frcpF32 f | frcpF64 f | frsqF32 f | frsqF64 f
  | fsqrtF32 f | fsqrtF64 f | fexp2F32 f | flog2F32 f | fsinpF32 f | fcospF32 f | fclassF32 f | fclassF64 f | fabs f
  | fneg f | fcopysign f | hadd2F16 f | hadd2Bf16 f | hmul2F16 f | hmul2Bf16 f | hfma2F16 f | hfma2Bf16 f
  | hmin2F16 f | hmin2Bf16 f | hmax2F16 f | hmax2Bf16 f | hcmp2F16 f | hcmp2Bf16 f | hdot2F16 f | hdot2Bf16 f | cvt f
  | cvts f | frndF32 f | frndF64 f | scalebF32 f | frexpF32 f | frexpExpF32 f | pack2 f | unpk2 f | packq f | rndc f
  | rndcW f | mov f | movs f | sel f | pset f | pmovGet f =>
    cases hf; rw [exec]; exact isSlot_runAlu _ _ _ _
  | ld f | st f | ldv f | stv f | pf f | ldna f | stna f | ldsp f | stsp f | ldspv f | stspv f | xst f | xstv f
  | rld f | atomI32 ord sc f | atomI64 ord sc f | atomF32 ord sc f | atomcasB32 ord sc f | atomcasB64 ord sc f
  | redI32 ord sc f | redF32 ord sc f | waddF32 sc f | waddF64 sc f | wrdF64 sc f | wset sc f | fence sc f | ifence f
  | ifenceCp f | bara f | cbinit f | cbadd f | tlread f | tlreadErr f | cpkick f | gath f | nbpf f | adcl f | topk f
  | coll f | tsset f | tsget f | tld f | tst f | tzero f | tread f | twrite f | ttask f | fsprobe f | fsdesc f
  | fsflush f | fsflushAll f | fsstat f | fsstatRec f | lainit f | laaddF32 f | laaddF64 f | lackp f | laest f
  | laget f | lastat f | tmask f | sysr f | sysw f | qrel f | qget f | ewin f | ewset f | ewsetNext f =>
    cases hf; rw [exec]; exact isSlot_runGuarded _ _ _ _
  | bra f | brp f | brx f | call f | callx f | ret f | yield f =>
    cases hf; rw [exec]; exact isSlot_runTransfer _ _ _ _
  | trap f | tret f | bkpt f | eret f | efwd f =>
    cases hf; rw [exec]; exact isSlot_runEnder _ _ _ _
  | barw f | cbwait f | tlwait f | waita f =>
    cases hf; rw [exec]; exact isSlot_runBlocking _ _ _ _
  | bar f | xbar f | lbar f | qclm f =>
    cases hf; rw [exec]; exact isSlot_arriveAt _ _ _ _
  | elect f | perm f | permx f | permu f | permd f | bcast f | vote f | ballot f | matchL f | sgred f | sgscan f =>
    cases hf; rw [exec]; exact isSlot_arriveColl _ _ _
  | mldw f | mmaa f | mcommit f | mscale f | mscaleClr f =>
    cases hf; rw [exec]; exact isSlot_arriveMx _ _ _ _
  | convJ f | joinJ f | exit f | pmovPut f | ldt f | mwait f | fcall f | fret f =>
    cases hf; rw [exec]; exact isSlot_runInstr _ _ _ _
  | _ => cases hf

/-- R64: a slot whose fields break a rule of its entry traps. -/
theorem illegalHere {i : Instr} {f : Fields} {en : Enc} (hf : fieldsOf i = some f) (he : encOf i = some en)
    (hk : encOk en f = false) : Spec.IllegalHere i := by
  intro s e hs
  obtain ⟨m, hm⟩ := isSlot_exec hf s
  have hc : checkEnc en f s = .error (.trap .illegalEncoding 0#64 0#32) := by
    simp [checkEnc, hk, raise, exc]
  rw [hm]
  unfold runInstr runSlot
  simp only [hs, he]
  rw [SlotM.bind_error hc]
  rfl

/-- The entry of IADD. -/
def iaddEnc (wide : Bool) (f : Fields) : Enc := ⟨.dst wide, .src (.ofWide wide), .src (.ofWide wide), .no, f.mod == 0#4, false⟩

/-- What R64 asks of the fields of IADD. -/
theorem iadd_legal {wide : Bool} {f : Fields} (h : encOk (iaddEnc wide f) f = true) :
    f.mod = 0#4 ∧ f.ahd = 0#4 ∧ (f.pe = false → f.pi = 0#3 ∧ f.pn = false) ∧ dstOk wide f.d = true ∧
      operandOk wide f.a = true ∧ operandOk wide f.b = true ∧ f.c = .main 0#7 ∧
      (f.lr.getLsbD 0 = true → ∃ k, f.a = .main k) ∧ (f.lr.getLsbD 1 = true → ∃ k, f.b = .main k) ∧
      f.lr.getLsbD 2 = false := by
  have hlr : ∀ (t : OT) (o : Operand) (m : Bool), lrOk (.src t) o m = true → m = true → ∃ k, o = .main k := by
    intro t o m hl hm
    cases o with
    | main k => exact ⟨k, rfl⟩
    | _ => subst hm; cases hl
  have hw : (OT.ofWide wide).wide = wide := by cases wide <;> rfl
  simp only [encOk, iaddEnc, fieldOk, hw, Bool.and_eq_true, beq_iff_eq, Bool.or_eq_true, Bool.false_eq_true, false_or] at h
  obtain ⟨⟨⟨⟨⟨⟨⟨⟨⟨hmod, hahd⟩, hp⟩, hd⟩, ha⟩, hb⟩, hc⟩, hla⟩, hlb⟩, hlc⟩ := h
  refine ⟨hmod, hahd, ?_, hd, ha, hb, hc, hlr _ _ _ hla, hlr _ _ _ hlb, ?_⟩
  · intro hpe
    simpa [hpe, and_comm] using hp
  · simpa [lrOk] using hlc

theorem even_of_getLsbD {k : BitVec 7} (h : k.getLsbD 0 = false) : k.toNat % 2 = 0 := by
  simp only [BitVec.getLsbD, Nat.testBit_zero, decide_eq_false_iff_not] at h
  omega

/-- R61, R64: the operands that a field may hold, by their levels. -/
theorem operandOk_opf {wide : Bool} {k : BitVec 7} (h : operandOk wide (.opf k) = true) : k.toNat < 16 := by
  simp only [operandOk, Bool.and_eq_true, decide_eq_true_eq] at h
  exact h.1

theorem operandOk_latch {wide : Bool} {k : BitVec 7} (h : operandOk wide (.latch k) = true) : k.toNat < 2 := by
  simpa [operandOk] using h

theorem operandOk_special {wide : Bool} {k : BitVec 7} (h : operandOk wide (.special k) = true) :
    k.toNat < 16 ∨ 32 ≤ k.toNat := by
  simpa [operandOk] using h

theorem operandOk_pair {o : Operand} {k : BitVec 7} (h : operandOk true o = true) (ho : o = .main k ∨ o = .opf k) :
    k.toNat % 2 = 0 := by
  obtain rfl | rfl := ho
  · exact even_of_getLsbD (by simpa [operandOk] using h)
  · simp only [operandOk, Bool.and_eq_true, Bool.not_true, Bool.false_or, Bool.not_eq_true'] at h
    exact even_of_getLsbD h.2

/-- At the levels of registers a destination is checked as a source is. -/
theorem operandOk_of_dstOk {wide : Bool} {o : Operand} {k : BitVec 7} (h : dstOk wide o = true)
    (ho : o = .main k ∨ o = .opf k) : operandOk wide o = true := by
  obtain rfl | rfl := ho
  · exact h
  · exact h

/-- R64: the ways in which the fields of IADD are illegal. -/
theorem iadd_illegal {wide : Bool} {f : Fields}
    (h : (∃ k : BitVec 7, (f.d = .opf k ∨ f.a = .opf k ∨ f.b = .opf k) ∧ 16 ≤ k.toNat) ∨
      (∃ k : BitVec 7, (f.a = .latch k ∨ f.b = .latch k) ∧ 2 ≤ k.toNat) ∨
      (∃ k : BitVec 7, (f.a = .special k ∨ f.b = .special k) ∧ 16 ≤ k.toNat ∧ k.toNat ≤ 31) ∨
      (∃ k : BitVec 7, wide = true ∧ k.toNat % 2 = 1 ∧
        (f.d = .main k ∨ f.a = .main k ∨ f.b = .main k ∨ f.d = .opf k ∨ f.a = .opf k ∨ f.b = .opf k)) ∨
      (∃ k : BitVec 7, f.d = .latch k ∨ f.d = .special k ∧ k ≠ 3#7) ∨
      f.lr.getLsbD 0 = true ∧ (∀ k, f.a ≠ .main k) ∨ f.lr.getLsbD 1 = true ∧ (∀ k, f.b ≠ .main k) ∨
      f.lr.getLsbD 2 = true ∨ f.c ≠ .main 0#7 ∨ f.ahd ≠ 0#4 ∨ f.mod ≠ 0#4 ∨
      f.pe = false ∧ (f.pi ≠ 0#3 ∨ f.pn = true)) :
    encOk (iaddEnc wide f) f = false := by
  rw [Bool.eq_false_iff]
  intro hk
  obtain ⟨hmod, hahd, hp, hd, ha, hb, hc, hla, hlb, hlc⟩ := iadd_legal hk
  obtain ⟨k, ho, hr⟩ | ⟨k, ho, hr⟩ | ⟨k, ho, hr, hr'⟩ | ⟨k, rfl, hr, ho⟩ | ⟨k, ho⟩ | ⟨hm, hn⟩ | ⟨hm, hn⟩ | hm | hn | hn | hn |
    ⟨hpe, hn⟩ := h
  case inl =>
    have : k.toNat < 16 := by
      obtain ho | ho | ho := ho
      · exact operandOk_opf (ho ▸ operandOk_of_dstOk hd (.inr ho))
      · exact operandOk_opf (ho ▸ ha)
      · exact operandOk_opf (ho ▸ hb)
    omega
  case inr.inl =>
    have : k.toNat < 2 := by
      obtain ho | ho := ho
      · exact operandOk_latch (ho ▸ ha)
      · exact operandOk_latch (ho ▸ hb)
    omega
  case inr.inr.inl =>
    have : k.toNat < 16 ∨ 32 ≤ k.toNat := by
      obtain ho | ho := ho
      · exact operandOk_special (ho ▸ ha)
      · exact operandOk_special (ho ▸ hb)
    omega
  case inr.inr.inr.inl =>
    have : k.toNat % 2 = 0 := by
      obtain ho | ho | ho | ho | ho | ho := ho
      · exact operandOk_pair (operandOk_of_dstOk hd (.inl ho)) (.inl ho)
      · exact operandOk_pair ha (.inl ho)
      · exact operandOk_pair hb (.inl ho)
      · exact operandOk_pair (operandOk_of_dstOk hd (.inr ho)) (.inr ho)
      · exact operandOk_pair ha (.inr ho)
      · exact operandOk_pair hb (.inr ho)
    omega
  case inr.inr.inr.inr.inl =>
    obtain ho | ⟨ho, hne⟩ := ho
    · rw [ho] at hd; cases hd
    · rw [ho] at hd; exact hne (by simpa [dstOk] using hd)
  · exact (hla hm).elim hn
  · exact (hlb hm).elim hn
  · rw [hlc] at hm; cases hm
  · exact hn hc
  · exact hn hahd
  · exact hn hmod
  · obtain ⟨hpi, hpn⟩ := hp hpe
    obtain hn | hn := hn
    · exact hn hpi
    · rw [hpn] at hn; cases hn

/-- Settles O1: the checks come before the guard, and the table's entry of IADD refuses each of the fields named. -/
theorem illegalEncodings : Obligations.IllegalEncodings := by
  unfold Obligations.IllegalEncodings
  refine ⟨fun i f en hf he hk => illegalHere hf he hk, ?_⟩
  rintro i f (rfl | rfl) h
  · refine illegalHere (en := iaddEnc false f) rfl rfl (iadd_illegal ?_)
    simpa only [reduceCtorEq, false_and, exists_false, false_or, Bool.false_eq_true, exists_and_left] using h
  · refine illegalHere (en := iaddEnc true f) rfl rfl (iadd_illegal ?_)
    simpa only [true_and] using h

end Sys2Proof.Machine

namespace Sys2Proof.Machine

/-! ### Slots whose guard is false (R68) -/

/-- The current thread, as a computation of its slot reads it. -/
theorem getTh_ok {e : Env} {s : State} {th : Thread} (hs : s.thread e.cur.gid e.cur.t = some th) : getTh e s = .ok (th, s) := by
  simp [getTh, get, getThe, MonadStateOf.get, StateT.get, bind, StateT.bind, Except.bind, pure, StateT.pure, Except.pure, hs]

/-- A change of the current thread. -/
theorem modTh_ok {e : Env} {s : State} {th : Thread} (h : Thread → Thread) (hs : s.thread e.cur.gid e.cur.t = some th) :
    modTh e h s = .ok ((), s.setThread e.cur.gid e.cur.t (h th)) := by
  rw [← State.modThread_eq h hs]; rfl

/-- What a slot whose guard is false leaves (R68). -/
abbrev offState (s : State) (e : Env) (en : Enc) (f : Fields) (th : Thread) : State :=
  s.setThread e.cur.gid e.cur.t ((th.release (marked en f)).advance e.cur)

section
variable {i : Instr} {f : Fields} {s : State} {e : Env} {en : Enc} {th : Thread}

/-- A thread whose guard is false pops and frees. -/
theorem guardedOff_ok (hp : popMany e (popCount en f true) e.th.countWindow = .ok ((), th)) :
    guardedOff e en f true e.th.countWindow = .ok ((), th.release (marked en f)) := by
  unfold guardedOff
  rw [SlotM.bind_ok hp]
  rfl

theorem onThread_guardedOff (h : AtSlot i f s e en) (hp : popMany e (popCount en f true) e.th.countWindow = .ok ((), th)) :
    onThread e (guardedOff e en f true) (s.setThread e.cur.gid e.cur.t e.th.countWindow) =
      .ok ((), s.setThread e.cur.gid e.cur.t (th.release (marked en f))) := by
  have hs := (envOf_thread h.env).1
  rw [onThread_ok (State.thread_setThread _ hs) (guardedOff_ok hp), State.setThread_setThread _ _ hs]

/-- It then goes on to its next slot. -/
theorem guardedOff_then_endSlot (h : AtSlot i f s e en)
    (hp : popMany e (popCount en f true) e.th.countWindow = .ok ((), th)) :
    (do onThread e (guardedOff e en f true); endSlot e 0#6) (s.setThread e.cur.gid e.cur.t e.th.countWindow) =
      .ok ((), offState s e en f th) := by
  have hs := (envOf_thread h.env).1
  have hz : fpTraps (th.release (marked en f)) 0#6 = false := by simp [fpTraps]
  rw [SlotM.bind_ok (onThread_guardedOff h hp), endSlot_ok (State.thread_setThread _ hs) hz, State.setThread_setThread _ _ hs]

theorem guardedOff_then_advance (h : AtSlot i f s e en)
    (hp : popMany e (popCount en f true) e.th.countWindow = .ok ((), th)) :
    (do onThread e (guardedOff e en f true); modTh e (fun th => th.advance e.cur))
      (s.setThread e.cur.gid e.cur.t e.th.countWindow) = .ok ((), offState s e en f th) := by
  have hs := (envOf_thread h.env).1
  rw [SlotM.bind_ok (onThread_guardedOff h hp), modTh_ok _ (State.thread_setThread _ hs), State.setThread_setThread _ _ hs]

/-- A slot that asks its guard first, and whose false branch goes on so. -/
theorem runInstr_off {yes : Env → Enc → Thread → SlotM Unit} {no : Env → Enc → SlotM Unit} (h : AtSlot i f s e en)
    (hg : guardOf f e.th.countWindow = false)
    (hno : no e en (s.setThread e.cur.gid e.cur.t e.th.countWindow) = .ok ((), offState s e en f th)) :
    runInstr i f (fun e en => do
      let th ← getTh e
      if guardOf f th then yes e en th else no e en) s = .next (offState s e en f th) := by
  have hs := (envOf_thread h.env).1
  rw [h.run, SlotM.bind_ok (getTh_ok (State.thread_setThread _ hs)), hg, if_neg (by simp), hno]

theorem runTransfer_off {target : Env → Thread → Srcs → Except Exc (W64 × Option W64)} (h : AtSlot i f s e en)
    (hg : guardOf f e.th.countWindow = false) (hp : popMany e (popCount en f true) e.th.countWindow = .ok ((), th)) :
    runTransfer i f target s = .next (offState s e en f th) :=
  runInstr_off h hg (guardedOff_then_advance h hp)

theorem runEnder_off {m : Env → Srcs → SlotM Unit} (h : AtSlot i f s e en) (hg : guardOf f e.th.countWindow = false)
    (hp : popMany e (popCount en f true) e.th.countWindow = .ok ((), th)) :
    runEnder i f m s = .next (offState s e en f th) :=
  runInstr_off h hg (guardedOff_then_endSlot h hp)

theorem guardedSlot_off {m : Srcs → SlotM FFlags} (h : AtSlot i f s e en) (hg : guardOf f e.th.countWindow = false)
    (hp : popMany e (popCount en f true) e.th.countWindow = .ok ((), th)) :
    guardedSlot e en f m (s.setThread e.cur.gid e.cur.t e.th.countWindow) = .ok ((), offState s e en f th) := by
  have hs := (envOf_thread h.env).1
  unfold guardedSlot
  rw [SlotM.bind_ok (getTh_ok (State.thread_setThread _ hs)), hg, if_neg (by simp)]
  exact guardedOff_then_endSlot h hp

theorem execExit_off (h : AtSlot (.exit f) f s e en) (hg : guardOf f e.th.countWindow = false)
    (hp : popMany e (popCount en f true) e.th.countWindow = .ok ((), th)) :
    execExit f s = .next (offState s e en f th) :=
  runInstr_off h hg (guardedOff_then_advance h hp)

theorem execFcall_off (h : AtSlot (.fcall f) f s e en) (hg : guardOf f e.th.countWindow = false)
    (hp : popMany e (popCount en f true) e.th.countWindow = .ok ((), th)) :
    execFcall f s = .next (offState s e en f th) :=
  runInstr_off h hg (guardedOff_then_endSlot h hp)

theorem execFret_off (h : AtSlot (.fret f) f s e en) (hg : guardOf f e.th.countWindow = false)
    (hp : popMany e (popCount en f true) e.th.countWindow = .ok ((), th)) :
    execFret f s = .next (offState s e en f th) :=
  runInstr_off h hg (guardedOff_then_endSlot h hp)

/-- PMOV.put asks its guard inside its thread. -/
theorem execPmovPut_off (h : AtSlot (.pmovPut f) f s e en) (hg : guardOf f e.th.countWindow = false)
    (hp : popMany e (popCount en f true) e.th.countWindow = .ok ((), th)) :
    execPmovPut f s = .next (offState s e en f th) := by
  have hs := (envOf_thread h.env).1
  have hz : fpTraps (th.release (marked en f)) 0#6 = false := by simp [fpTraps]
  have ho : (do
      if guardOf f (← get) then
        let x ← readSrcs e en f
        modify (fun th => th.release (marked en f))
        modify (fun th => { th.flushFor (fun p => p.preds != []) with preds := x.a32.setWidth 8 })
      else guardedOff e en f true : ThM Unit) e.th.countWindow = .ok ((), th.release (marked en f)) := by
    rw [SlotM.bind_ok (a := e.th.countWindow) (s' := e.th.countWindow) rfl, hg, if_neg (by simp)]
    exact guardedOff_ok hp
  unfold execPmovPut
  rw [h.run, SlotM.bind_ok (onThread_ok (State.thread_setThread _ hs) ho), State.setThread_setThread _ _ hs,
    endSlot_ok (State.thread_setThread _ hs) hz, State.setThread_setThread _ _ hs]

/-- LDT first checks whether it delivers an FP64 element to an odd index (R149), whatever its guard. -/
theorem execLdt_off (h : AtSlot (.ldt f) f s e en) (hg : guardOf f e.th.countWindow = false)
    (hp : popMany e (popCount en f true) e.th.countWindow = .ok ((), th)) (hodd : Spec.oddPair e f = false) :
    execLdt f s = .next (offState s e en f th) := by
  unfold execLdt
  rw [h.run]
  dsimp only
  rw [if_neg (α := SlotM Unit), guardedSlot_off h hg hp]
  rintro ⟨hr, hw, hi⟩
  have ho : Spec.oddPair e f = true := by
    simp only [Spec.oddPair, bne_iff_ne.2 hr, hw, Bool.true_and]
    cases hd : f.d with
    | main k => simpa [hd, BitVec.getLsbD, Nat.testBit_zero] using hi
    | opf k => simpa [hd, BitVec.getLsbD, Nat.testBit_zero] using hi
    | latch k => rw [hd] at hi; cases hi
    | special k => rw [hd] at hi; cases hi
  rw [hodd] at ho
  cases ho

end

end Sys2Proof.Machine

namespace Sys2Proof
open Machine

/-- Settles O7. Every instruction that does not wait for others asks its guard in one of the shared shapes, or in a slot of
its own whose false branch is the same. -/
theorem guardedOff : Obligations.GuardedOff := by
  unfold Obligations.GuardedOff
  intro i f s e en th hf hw hodd h hg hp
  cases i with
  | nop f | iaddI32 f | iaddI64 f | isubI32 f | isubI64 f | imulI32 f | imulhI32 f | imulhN32 f | imadI32 f
  | imadwI64 f | iminI32 f | iminN32 f | imaxI32 f | imaxN32 f | iabsI32 f | inegI32 f | icmpI32 f | icmpN32 f
  | icmpI64 f | icmpN64 f | lea f | leaI64 f | idivI32 f | idivN32 f | iremI32 f | iremN32 f | idot4I8 f | idot4N8 f
  | idot8I4 f | iclampI32 f | and f | or f | xor f | andn f | not f | shl f | shr f | sar f | rotl f | shlI64 f
  | shrI64 f | sarI64 f | bfeN32 f | bfeI32 f | bfi f | popc f | clz f | brev f | bperm f | faddF32 f | faddF64 f
  | fsubF32 f | fsubF64 f | fmulF32 f | fmulF64 f | ffmaF32 f | ffmaF64 f | fdivF32 f | fdivF64 f | fminF32 f
  | fminF64 f | fmaxF32 f | fmaxF64 f | fcmpF32 f | fcmpF64 f | frcpF32 f | frcpF64 f | frsqF32 f | frsqF64 f
  | fsqrtF32 f | fsqrtF64 f | fexp2F32 f | flog2F32 f | fsinpF32 f | fcospF32 f | fclassF32 f | fclassF64 f | fabs f
  | fneg f | fcopysign f | hadd2F16 f | hadd2Bf16 f | hmul2F16 f | hmul2Bf16 f | hfma2F16 f | hfma2Bf16 f
  | hmin2F16 f | hmin2Bf16 f | hmax2F16 f | hmax2Bf16 f | hcmp2F16 f | hcmp2Bf16 f | hdot2F16 f | hdot2Bf16 f | cvt f
  | cvts f | frndF32 f | frndF64 f | scalebF32 f | frexpF32 f | frexpExpF32 f | pack2 f | unpk2 f | packq f | rndc f
  | rndcW f | mov f | movs f | sel f | pset f | pmovGet f =>
    cases hf; rw [exec]; exact runAlu_off h hg hp
  | ld f | st f | ldv f | stv f | pf f | ldna f | stna f | ldsp f | stsp f | ldspv f | stspv f | xst f | xstv f
  | rld f | atomI32 ord sc f | atomI64 ord sc f | atomF32 ord sc f | atomcasB32 ord sc f | atomcasB64 ord sc f
  | redI32 ord sc f | redF32 ord sc f | waddF32 sc f | waddF64 sc f | wrdF64 sc f | wset sc f | fence sc f | ifence f
  | ifenceCp f | bara f | cbinit f | cbadd f | tlread f | tlreadErr f | cpkick f | gath f | nbpf f | adcl f | topk f
  | coll f | tsset f | tsget f | tld f | tst f | tzero f | tread f | twrite f | ttask f | fsprobe f | fsdesc f
  | fsflush f | fsflushAll f | fsstat f | fsstatRec f | lainit f | laaddF32 f | laaddF64 f | lackp f | laest f
  | laget f | lastat f | tmask f | sysr f | sysw f | qrel f | qget f | ewin f | ewset f | ewsetNext f =>
    cases hf; rw [exec]; exact runGuarded_off h hg hp
  | bra f | brp f | brx f | call f | callx f | ret f | yield f =>
    cases hf; rw [exec]; exact runTransfer_off h hg hp
  | trap f | tret f | bkpt f | eret f | efwd f =>
    cases hf; rw [exec]; exact runEnder_off h hg hp
  | exit f => cases hf; rw [exec]; exact execExit_off h hg hp
  | fcall f => cases hf; rw [exec]; exact execFcall_off h hg hp
  | fret f => cases hf; rw [exec]; exact execFret_off h hg hp
  | pmovPut f => cases hf; rw [exec]; exact execPmovPut_off h hg hp
  | ldt f => cases hf; rw [exec]; exact execLdt_off h hg hp (hodd rfl)
  | elect f | perm f | permx f | permu f | permd f | bcast f | vote f | ballot f | matchL f | sgred f | sgscan f
  | bar f | xbar f | lbar f | qclm f | barw f | cbwait f | tlwait f | waita f | mldw f | mmaa f | mcommit f
  | mscale f | mscaleClr f | mwait f | convJ f | joinJ f =>
    cases hw
  | _ => cases hf

end Sys2Proof

namespace Sys2Proof.Machine

/-! ### Steps of a slot over the machine -/

/-- A computation that a slot lifts. -/
theorem liftE_ok {α : Type} {x : Except Exc α} {a : α} (h : x = .ok a) (s : State) : liftE x s = .ok (a, s) := by
  rw [h]; rfl

theorem set_ok (s t : State) : (set t : SlotM Unit) s = .ok ((), t) := rfl

/-- A slot that goes through. -/
theorem runSlot_ok {m : Env → SlotM Unit} {s t : State} {e : Env} (he : envOf s = some e) (hm : m e s = .ok ((), t)) :
    runSlot m s = .next t := by
  unfold runSlot
  simp only [he, hm]

/-- Settles O9: the target's word is fetched and checked, and the thread is sent to it. -/
theorem repStartsRepetition : Obligations.RepStartsRepetition := by
  unfold Obligations.RepStartsRepetition
  intro r s s1 e w he hw ht hok
  obtain ⟨-, -, hes⟩ := envOf_thread he
  rw [exec]
  refine runSlot_ok he ?_
  rw [hes, SlotM.bind_ok (liftE_ok hw s)]
  dsimp only
  rw [SlotM.bind_ok (set_ok s s1), if_pos hok, modTh_ok _ ht]

end Sys2Proof.Machine

namespace Sys2Proof.Machine

/-! ### What a step runs (R59, R251) -/

/-- A step takes the first entry of the agenda. -/
theorem step_cons {s : State} {a : Action} {rest : List Action} (h : s.agenda = a :: rest) :
    step s = Outcome.map settle (perform a { s with agenda := rest, tick := s.tick + 1 }) := by
  unfold step
  rw [h]

theorem hartStep_ok {s s2 : State} {gid : Nat} {e : HEnv} {w : W32} (he : henvOf { s with curHart := some gid } = some e)
    (hw : hartWord s e.g.coreN e.g.cid e.h.pc = .ok (w, s2)) :
    hartStep s gid = Outcome.map (fun t => { t with curHart := none }) (exec (decodeHart w) { s2 with curHart := some gid }) := by
  unfold hartStep
  simp only [he, hw]

/-- The threads of an issue group that has entered its clause. -/
theorem threads_inside {s : State} {gid : Nat} {g : Group} (hg : s.group gid = some g) {l : List Nat}
    (hin : ∀ n x, n ∈ l → mget g.threads n = some x → x.inside = true)
    (hall : ∀ n, n ∈ l → (mget g.threads n).isSome = true) {n : Nat} (hn : n ∈ l) :
    ∃ x, s.thread gid n = some x ∧ x.inside = true := by
  obtain ⟨x, hx⟩ := Option.isSome_iff_exists.1 (hall n hn)
  exact ⟨x, by simp [State.thread, hg, hx], hin n x hn hx⟩

/-- A thread inside its clause whose budget is not spent and none of whose results is due executes its slot. -/
theorem laneThread_slot {s s2 : State} {core t : Nat} {ig : IssueGroup} {g : Group} {th : Thread} {sl : SlotAt}
    (hlive : th.live = true) (hwait : th.wait = .none) (hpc : th.pc = ig.pc) (hb : overBudget s g th = false)
    (hp : ∀ p, p ∈ th.pend → p.left ≠ 0) (hin : th.inside = true) (hsl : slotAt s core g.cid th.pc th.rep = .ok (sl, s2)) :
    laneThread s core ig t g th = Outcome.map (laneDone core ig.gid t (issueCost sl.word))
      (exec sl.dec { popTodo s2 core t with cur := some (slotCur ig t th sl) }) := by
  have hr : (th.isReady && th.pc == ig.pc) = true := by simp [Thread.isReady, hlive, hwait, hpc]
  have hd : th.pend.any (fun p => p.left == 0) = false := by simpa [List.any_eq_false] using hp
  unfold laneThread threadSlot
  rw [hr, hb, hd, hin, hsl]
  rfl

/-- Once all its threads are inside the clause, an issue group turns to the first that has the slot to do. -/
theorem laneStep_inside {s : State} {core t : Nat} {ts : List Nat} {ig : IssueGroup} {g : Group} {th : Thread}
    (hport : (s.core core).port = some ig) (htodo : ig.todo = t :: ts) (hg : s.group ig.gid = some g)
    (hth : mget g.threads t = some th) (hin : ∀ n x, n ∈ ig.todo → mget g.threads n = some x → x.inside = true)
    (hall : ∀ n, n ∈ ig.todo → (mget g.threads n).isSome = true) :
    laneStep s core = laneThread s core ig t g th := by
  have ht : s.thread ig.gid t = some th := by simp [State.thread, hg, hth]
  unfold laneStep
  rw [hport]
  dsimp only
  rw [htodo]
  dsimp only
  rw [List.find?_eq_none.2]
  · simp only [Option.getD_none, ht, hg]
  · intro n hn
    obtain ⟨x, hx, hi⟩ := threads_inside hg hin hall (htodo ▸ hn)
    simp [hx, hi]

/-- R399: a bank without entries of its own decodes as the K7 does. -/
theorem decodeVia_plain {b : Bank} (h : b.entries = []) (w : W64) : decodeVia b w = decodeWord w := by
  unfold decodeVia
  simp [h]

/-- A slot without literals, outside a repetition. -/
theorem slotAt_plain {s s1 s2 : State} {core cid : Nat} {pc h w : W64} (hh : fetchWord s core cid (pcHead pc) = .ok (h, s1))
    (hw : fetchWord s1 core cid (pcHead pc + BitVec.ofNat 64 (8 + 8 * pcSlot pc)) = .ok (w, s2))
    (hb : (s2.bankOn (core / 64) cid).entries = []) (hl : wordLits (decodeWord w) w = 0) :
    ∃ sl, slotAt s core cid pc none = .ok (sl, s2) ∧ sl.dec = decodeWord w ∧ sl.word = w ∧
      sl.next = pcOf (pcHead pc) (hdCnt h) (pcSlot pc + 1) := by
  simp only [slotAt, hh, hw, decodeVia_plain hb, hl, fetchWords]
  exact ⟨_, rfl, rfl, rfl, rfl⟩

/-- Settles O40. -/
theorem stepRuns : Obligations.StepRuns := by
  unfold Obligations.StepRuns
  refine ⟨?_, ?_, ?_, ?_⟩
  · intro s i rest ha hd
    rw [step_cons ha]
    simp [perform, hd]
  · intro s s2 gid rest e w ha hd s1 he hw
    rw [step_cons ha, ← hartStep_ok he hw]
    simp [perform, hd, s1]
  · intro s s2 core t rest ts ig g th sl ha hd s1 hport htodo hg hth hin hall hlive hwait hpc hb hp hsl
    have hin' : th.inside = true := hin t th (by simp [htodo]) hth
    rw [step_cons ha, ← laneThread_slot hlive hwait hpc hb hp hin' hsl]
    have hstep : laneStep s1 core = laneThread s1 core ig t g th := laneStep_inside hport htodo hg hth hin hall
    rw [← hstep]
    simp [perform, hd, s1]
  · intro s s1 s2 core cid pc h w hh hw hb hl
    obtain ⟨sl, hsl⟩ := slotAt_plain hh hw hb hl
    exact ⟨sl, s2, hsl⟩

end Sys2Proof.Machine

namespace Sys2Proof.Machine

/-! ## Events of a thread's stream (R54, R59, R69, R242, R339, R416) -/

/-! ### Entering a clause -/

/-- No JOIN is due at the entry: the clause does not converge, or the thread enters past its first slot, or it has
converged already, or it stands in no region of that name. -/
theorem noJoin_of_entry {e : Env} {h : W64} (hj : hdCv h = false ∨ pcSlot e.th.pc ≠ 0 ∨ e.th.cvDone = true ∨
    e.g.innermost e.th (hdJid h) = none) :
    (if (hdCv h && pcSlot e.th.pc == 0 && !e.th.cvDone) = true then e.g.innermost e.th (hdJid h) else none) = none := by
  rcases hj with hj | hj | hj | hj
  · simp [hj]
  · simp [hj]
  · simp [hj]
  · rw [hj, ite_self]

/-- CLAUSE_ENTRY of a clause whose checks and drain pass and that does not converge here. -/
theorem exec_clauseEntry_enters {s s1 s2 : State} {e : Env} {h : W64} {ws : List W64} {slots : List Bool}
    (he : envOf s = some e) (hh : fetchWord s e.g.coreN e.g.cid (pcHead e.th.pc) = .ok (h, s1))
    (hws : fetchWords s1 e.g.coreN e.g.cid (pcHead e.th.pc + 8#64) (hdCnt h + 1) = .ok (ws, s2))
    (hth : s2.thread e.cur.gid e.cur.t = some e.th)
    (hsl : clauseSlots (decodeVia (s2.bankOn (e.g.coreN / 64) e.g.cid)) h ws = some slots)
    (hon : slots.getD (pcSlot e.th.pc) false = true) (hdr : drained s e.cur.gid e.cur.t (hdHz h) = true)
    (hj : hdCv h = false ∨ pcSlot e.th.pc ≠ 0 ∨ e.th.cvDone = true ∨ e.g.innermost e.th (hdJid h) = none) :
    exec .clauseEntry s = .next (s2.setThread e.cur.gid e.cur.t { e.th.flushFor (Pend.drainedBy (hdHz h)) with
      inside := true, l0 := none, l1 := none }) := by
  obtain ⟨-, -, hes⟩ := envOf_thread he
  rw [exec]
  refine runSlot_ok he ?_
  dsimp only
  rw [hes, SlotM.bind_ok (liftE_ok hh s)]
  dsimp only
  rw [SlotM.bind_ok (liftE_ok hws s)]
  dsimp only
  rw [SlotM.bind_ok (set_ok s s2), hsl]
  dsimp only
  rw [if_neg (by rw [hon]; decide), SlotM.bind_ok (modTh_ok _ hth), if_neg (by rw [hdr]; decide), noJoin_of_entry hj]
  dsimp only
  rw [modTh_ok _ (State.thread_setThread _ hth), State.setThread_setThread _ _ hth]

/-! ### Results whose window is over -/

theorem find?_first {α : Type} {q : α → Bool} {a b : List α} {x : α} (hx : q x = true) (ha : ∀ y ∈ a, q y = false) :
    (a ++ x :: b).find? q = some x := by
  rw [List.find?_append, List.find?_eq_none.2 (by simpa using ha), List.find?_cons_of_pos hx]
  rfl

theorem eraseP_first {α : Type} {q : α → Bool} {a b : List α} {x : α} (hx : q x = true) (ha : ∀ y ∈ a, q y = false) :
    (a ++ x :: b).eraseP q = a ++ b := by
  rw [List.eraseP_append_right _ (by simpa using ha), List.eraseP_cons_of_pos hx]

/-- The result that RESULT_RETURN writes is the first whose window is over. -/
theorem Thread.returnOne_first {th : Thread} {a b : List Pend} {p : Pend} (hp : th.pend = a ++ p :: b) (h0 : p.left = 0)
    (ha : ∀ q, q ∈ a → q.left ≠ 0) : th.returnOne = { th.putResult p with pend := a ++ b } := by
  have hq : (p.left == 0) = true := by simp [h0]
  have hqa : ∀ y ∈ a, (y.left == 0) = false := fun y hy => by simpa using ha y hy
  unfold Thread.returnOne
  rw [hp, find?_first (q := fun p : Pend => p.left == 0) hq hqa,
    eraseP_first (q := fun p : Pend => p.left == 0) hq hqa]

/-- Writes to other registers leave a register as it is. -/
theorem mget_foldl_mset_other {α : Type} {ws : List (Nat × α)} {r : Nat} (h : ∀ e ∈ ws, e.1 ≠ r) (m : AMap α) :
    mget (ws.foldl (fun m e => mset m e.1 e.2) m) r = mget m r := by
  induction ws generalizing m with
  | nil => rfl
  | cons e ws ih =>
    rw [List.foldl_cons, ih (fun x hx => h x (List.mem_cons_of_mem _ hx)),
      mget_mset_other m e.2 (h e List.mem_cons_self).symm]

theorem Thread.putResult_regs_other (th : Thread) {p : Pend} {r : Nat} (h : p.hits r = false) :
    mget (th.putResult p).regs r = mget th.regs r :=
  mget_foldl_mset_other (by simpa [Pend.hits] using h) th.regs

theorem Thread.putResult_regs_single (th : Thread) {p : Pend} {r : Nat} {v : W32} (h : p.main = [(r, v)]) :
    mget (th.putResult p).regs r = some v := by
  simp [Thread.putResult, h]

theorem Thread.putResult_opf_single (th : Thread) {p : Pend} {r : Nat} {v : W32} (h : p.file = [(r, v)]) :
    mget (th.putResult p).opf r = some v := by
  simp [Thread.putResult, h]

theorem Thread.putResult_preds_none (th : Thread) {p : Pend} (h : p.preds = []) : (th.putResult p).preds = th.preds := by
  simp [Thread.putResult, h]

/-! ### The handler's budget -/

/-- A thread at an instruction boundary whose handler's budget is spent. -/
theorem overBudget_true {s : State} {g : Group} {th : Thread} (hl : th.live = true) (hm : th.msk = true)
    (h0 : (s.ctx g.cid).hbudget ≠ 0#32) (hb : (s.ctx g.cid).hbudget.toNat ≤ th.hcount.toNat)
    (hs : ∀ c q, th.wait ≠ .stop c q) (ha : th.wait.arrived = false) : overBudget s g th = true := by
  unfold overBudget
  simp only [hl, hm, bne_iff_ne.2 h0, hb, decide_true, Bool.and_self, Bool.true_and]
  rw [ha]; rfl

/-- A record changes its context's queue and numbering, and no group. -/
theorem fqPut_groups {s t : State} {cid : Nat} {r : FaultRec} (h : fqPut s cid r = some t) : t.groups = s.groups := by
  grind [fqPut, State.setCtx_groups, State.poke_groups, State.reachAt_groups]

theorem fqPut_ctx {s t : State} {cid : Nat} {r : FaultRec} (h : fqPut s cid r = some t) :
    t.ctx cid = { s.ctx cid with fqprod := (s.ctx cid).fqprod + 1#32 } := by
  grind [fqPut, State.ctx_setCtx_same]

theorem ctxRecord_snd (s : State) (cid : Nat) (r : FaultRec) : (ctxRecord s cid r).2 = (s.ctx cid).fqSeq + 1 := by
  grind [ctxRecord]

theorem ctxRecord_groups (s : State) (cid : Nat) (r : FaultRec) : (ctxRecord s cid r).1.groups = s.groups := by
  grind [ctxRecord, State.setCtx_groups, fqPut_groups]

theorem ctxRecord_fqSeq (s : State) (cid : Nat) (r : FaultRec) :
    ((ctxRecord s cid r).1.ctx cid).fqSeq = (s.ctx cid).fqSeq + 1 := by
  grind [ctxRecord, State.ctx_setCtx_same, fqPut_ctx]

theorem ctxRecord_stops (s : State) (cid : Nat) (r : FaultRec) :
    ((ctxRecord s cid r).1.ctx cid).stops = (s.ctx cid).stops := by
  grind [ctxRecord, State.ctx_setCtx_same, fqPut_ctx]

/-- The thread stays at the given program counter outside its clause, with the number of its record. -/
theorem stopThread_thread {s : State} {gid t : Nat} {g : Group} {th : Thread} (hg : s.group gid = some g)
    (hth : mget g.threads t = some th) (c : Cause) (epc ta : W64) (ti : W32) :
    (stopThread s gid t c epc ta ti).thread gid t = some { th.outside with
      pc := epc, wait := .stop c ((s.ctx g.cid).fqSeq + 1), cvDone := th.cvDone && decide (epc = th.pc), retry := false } := by
  have ht : s.thread gid t = some th := by simp [State.thread, hg, hth]
  unfold stopThread
  simp only [hg, ht]
  rw [State.thread_modThread_same]
  simp [State.thread, State.group, ctxRecord_groups, ctxRecord_snd, show mget s.groups gid = some g from hg, hth]

/-- The context counts the record and remembers the stopped thread. -/
theorem stopThread_ctx {s : State} {gid t : Nat} {g : Group} {th : Thread} (hg : s.group gid = some g)
    (hth : mget g.threads t = some th) (c : Cause) (epc ta : W64) (ti : W32) :
    ((stopThread s gid t c epc ta ti).ctx g.cid).fqSeq = (s.ctx g.cid).fqSeq + 1 ∧
    ((stopThread s gid t c epc ta ti).ctx g.cid).stops =
      (s.ctx g.cid).stops ++ [((s.ctx g.cid).fqSeq + 1, gid, t)] := by
  have ht : s.thread gid t = some th := by simp [State.thread, hg, hth]
  unfold stopThread
  simp only [hg, ht, State.modThread_rd_ctx, State.ctx_setCtx_same, ctxRecord_fqSeq, ctxRecord_stops, ctxRecord_snd,
    and_self]

theorem exec_handlerOverrun_spent {s : State} {gid n : Nat} {g : Group} {th : Thread} (hg : s.group gid = some g)
    (hth : mget g.threads n = some th) (hb : overBudget s g th = true) :
    exec (.handlerOverrun gid n) s =
      .next (stopThread (s.modThread gid n Thread.flush) gid n .handlerOverrun th.pc 0#64 0#32) := by
  have ht : s.thread gid n = some th := by simp [State.thread, hg, hth]
  rw [exec]
  unfold execHandlerOverrun
  simp only [hg, ht, hb, if_true]

/-! ### The builder's choice -/

/-- Which class goes before, as an order of three numbers. -/
theorem Cand.before_iff (a b : Cand) : a.before b = true ↔
    a.age < b.age ∨ a.age = b.age ∧ (a.slot < b.slot ∨ a.slot = b.slot ∧ a.pc < b.pc) := by
  simp [Cand.before]

theorem Cand.not_before_self (c : Cand) : c.before c = false := by
  simp [Cand.before]

theorem Cand.before_asymm {a b : Cand} (h : a.before b = true) : b.before a = false := by
  rw [← Bool.not_eq_true, Cand.before_iff]
  rw [Cand.before_iff] at h
  omega

/-- Going no earlier is transitive. -/
theorem Cand.not_before_trans {a b c : Cand} (hab : a.before b = false) (hbc : b.before c = false) :
    a.before c = false := by
  rw [← Bool.not_eq_true, Cand.before_iff] at hab hbc ⊢
  omega

theorem firstCand_cons_isSome (c : Cand) (l : List Cand) : (firstCand (c :: l)).isSome = true := by
  unfold firstCand
  split
  · split <;> rfl
  · rfl

/-- The class that goes first is one of the classes, and none goes before it. -/
theorem firstCand_least {l : List Cand} {k : Cand} (h : firstCand l = some k) :
    k ∈ l ∧ ∀ c, c ∈ l → c.before k = false := by
  induction l generalizing k with
  | nil => exact absurd h (by simp [firstCand])
  | cons c l ih =>
    unfold firstCand at h
    cases hl : firstCand l with
    | none =>
      cases l with
      | nil =>
        simp only [hl, Option.some.injEq] at h
        subst h
        simp [Cand.not_before_self]
      | cons d l => exact absurd (firstCand_cons_isSome d l) (by simp [hl])
    | some d =>
      obtain ⟨hd, hmin⟩ := ih hl
      simp only [hl] at h
      cases hb : d.before c with
      | true =>
        rw [if_pos hb, Option.some.injEq] at h
        subst h
        refine ⟨List.mem_cons_of_mem _ hd, fun x hx => ?_⟩
        rcases List.mem_cons.1 hx with rfl | hx
        · exact Cand.before_asymm hb
        · exact hmin x hx
      | false =>
        rw [if_neg (by simp [hb]), Option.some.injEq] at h
        subst h
        refine ⟨List.mem_cons_self, fun x hx => ?_⟩
        rcases List.mem_cons.1 hx with rfl | hx
        · exact Cand.not_before_self x
        · exact Cand.not_before_trans (hmin x hx) hb

theorem firstCand_of_ne_nil {l : List Cand} (h : l ≠ []) : ∃ k, firstCand l = some k := by
  cases l with
  | nil => exact absurd rfl h
  | cons c l => exact Option.isSome_iff_exists.1 (firstCand_cons_isSome c l)

theorem exec_issueGroupForm_free {core : Nat} {s : State} {k : Cand} (hp : (s.core core).port = none)
    (hk : firstCand (coreCands s (s.core core)) = some k) :
    exec (.issueGroupForm core) s = .next ((s.setCore core { s.core core with
      port := some k.ig
      yielded := (s.core core).yielded.filter (fun ig => !(ig.gid == k.ig.gid && ig.inst == k.ig.inst)) }).bumpInst) := by
  rw [exec]
  unfold execIssueGroupForm
  simp only [hp, hk]

/-! ### The port's 64 cycles -/

theorem overPort_eq {core n : Nat} {s s1 : State} {ig : IssueGroup} {g : Group} {th : Thread} {sl : SlotAt}
    (hn : ig.members.head? = some n) (ht : s.thread ig.gid n = some th) (hg : s.group ig.gid = some g)
    (hsl : slotAt s core g.cid th.pc th.rep = .ok (sl, s1)) :
    overPort s core ig = (ig.todo == [] && decide (64 < ig.cycles + issueCost sl.word)) := by
  unfold overPort
  simp only [hn, Option.bind_some, ht, hg, hsl]

theorem exec_issuePortYield_over {core n : Nat} {s : State} {ig : IssueGroup} {th : Thread}
    (hp : (s.core core).port = some ig) (hn : ig.members.head? = some n) (ht : s.thread ig.gid n = some th)
    (ho : overPort s core ig = true) :
    exec (.issuePortYield core) s = .next (s.setCore core { s.core core with
      port := none, yielded := (s.core core).yielded ++ [{ ig with since := (s.core core).cycle.toNat, pc := th.pc }] }) := by
  rw [exec]
  unfold execIssuePortYield
  simp only [hp, ho, if_true, hn, Option.bind_some, ht, Option.map_some, Option.getD_some]

theorem exec_issuePortYield_within {core : Nat} {s : State} {ig : IssueGroup} (hp : (s.core core).port = some ig)
    (ho : overPort s core ig = false) : exec (.issuePortYield core) s = .next s := by
  rw [exec]
  unfold execIssuePortYield
  simp only [hp, ho, Bool.false_eq_true, if_false]

/-- Settles O23: each event of a thread's stream, by the lemma that says what it does. -/
theorem threadEvents : Obligations.ThreadEvents := by
  unfold Obligations.ThreadEvents
  refine ⟨?_, ?_, ?_, ?_, ?_, ?_⟩
  · intro s s1 s2 e h ws slots he hh hws hth hsl hon hdr hj
    exact exec_clauseEntry_enters he hh hws hth hsl hon hdr hj
  · intro gid n s g th a b p hg hth hp h0 ha
    have ht : s.thread gid n = some th := by simp [State.thread, hg, hth]
    refine ⟨s.modThread gid n Thread.returnOne, { th.putResult p with pend := a ++ b }, rfl, ?_, ?_, rfl, ?_⟩
    · simp [SameOutside, State.modThread, State.modGroup, State.setGroup, hg]
    · rw [State.thread_modThread_same, ht, ← Thread.returnOne_first hp h0 ha]
      rfl
    · exact ⟨fun r v h => th.putResult_regs_single h, fun r v h => th.putResult_opf_single h,
        fun r h => th.putResult_regs_other h, fun h => th.putResult_preds_none h, rfl⟩
  · intro gid n s g th hg hth hl hm h0 hb hs ha
    have hg' : (s.modThread gid n Thread.flush).group gid = some (g.setThread n th.flush) := by
      rw [State.modThread_eq (th := th) _ (by simp [State.thread, hg, hth]), State.setThread, State.group_modGroup_same, hg]
      rfl
    have hth' : mget (g.setThread n th.flush).threads n = some th.flush := by simp [Group.setThread]
    obtain ⟨hseq, hstops⟩ := stopThread_ctx hg' hth' .handlerOverrun th.pc 0#64 0#32
    refine ⟨_, _, exec_handlerOverrun_spent hg hth (overBudget_true hl hm h0 hb hs ha),
      stopThread_thread hg' hth' .handlerOverrun th.pc 0#64 0#32, ?_, rfl, rfl, rfl, ?_, ?_⟩
    · rw [State.modThread_rd_ctx]
      rfl
    · simpa using hseq
    · simpa using hstops
  · intro gid n s g th hg hth hw
    have ht : s.thread gid n = some th := by simp [State.thread, hg, hth]
    rw [exec]
    unfold execHeldAccessPerform
    simp only [hg, ht, hw]
  · intro core s hp hne
    obtain ⟨k, hk⟩ := firstCand_of_ne_nil hne
    obtain ⟨hmem, hmin⟩ := firstCand_least hk
    exact ⟨_, k, exec_issueGroupForm_free hp hk, hmem, by simp, hmin, rfl, rfl, rfl⟩
  · intro core n s s1 ig g th sl hp hn ht hg hsl
    have hover := overPort_eq hn ht hg hsl
    refine ⟨fun h0 h64 => exec_issuePortYield_over hp hn ht ?_, fun hor => exec_issuePortYield_within hp ?_⟩
    · simp [hover, h0, h64]
    · rcases hor with h | h <;> simp [hover, h]

end Sys2Proof.Machine

namespace Sys2Proof.Machine

/-! ## Issuing engine operations (R72, R172, R177, R182, R191) -/

/-! ### Steps of a slot over its group -/

/-- The current thread of a slot, in its group. -/
def Env.runs (e : Env) (s : State) (g : Group) (th : Thread) : Prop :=
  s.group e.cur.gid = some g ∧ mget g.threads e.cur.t = some th

theorem Env.runs.thread {e : Env} {s : State} {g : Group} {th : Thread} (h : e.runs s g th) :
    s.thread e.cur.gid e.cur.t = some th := by
  obtain ⟨hg, ht⟩ := h
  simp [State.thread, hg, ht]

/-- The current thread changes in its group. -/
theorem Env.runs.setThread {e : Env} {s : State} {g : Group} {th : Thread} (h : e.runs s g th) (th' : Thread) :
    s.setThread e.cur.gid e.cur.t th' = s.setGroup e.cur.gid (g.setThread e.cur.t th') := by
  simp [State.setThread, State.modGroup, h.1]

theorem Env.runs_setGroup (e : Env) (s : State) (g : Group) (th : Thread) :
    e.runs (s.setGroup e.cur.gid (g.setThread e.cur.t th)) (g.setThread e.cur.t th) th :=
  ⟨State.group_setGroup_same _ _ _, mget_mset_same _ _ _⟩

theorem envOf_runs {s : State} {e : Env} (h : envOf s = some e) : e.runs s e.g e.th := by
  unfold envOf at h
  cases hc : s.cur with
  | none => simp [hc] at h
  | some c =>
    cases hg : s.group c.gid with
    | none => simp [hc, hg] at h
    | some g =>
      cases ht : mget g.threads c.t with
      | none => simp [hc, hg, ht] at h
      | some th =>
        cases hk : s.kernel g.kid with
        | none => simp [hc, hg, ht, hk] at h
        | some k =>
          simp only [hc, hg, ht, hk, Option.some.injEq] at h
          subst h
          exact ⟨hg, ht⟩

theorem getG_ok {e : Env} {s : State} {g : Group} {th : Thread} (h : e.runs s g th) : getG e s = .ok (g, s) := by
  simp [getG, get, getThe, MonadStateOf.get, StateT.get, bind, StateT.bind, Except.bind, pure, StateT.pure, Except.pure, h.1]

theorem get_ok (s : State) : (get : SlotM State) s = .ok (s, s) := rfl

theorem modify_ok (h : State → State) (s : State) : (modify h : SlotM Unit) s = .ok ((), h s) := rfl

theorem aligned_ok {addr : W64} {n : Nat} (h : addr.toNat % n = 0) (s : State) : aligned addr n s = .ok ((), s) := by
  unfold aligned
  rw [if_pos h]
  rfl

/-- R140: the address of a scratchpad access. -/
theorem sAddr_eq (x : Srcs) : sAddr x.a32 x.b32 = Spec.saddr x := BitVec.toNat_add _ _

theorem aligned_saddr {x : Srcs} {n : Nat} (h : Spec.saddr x % n = 0) (s : State) :
    aligned (BitVec.ofNat 64 (sAddr x.a32 x.b32)) n s = .ok ((), s) := by
  refine aligned_ok ?_ s
  have hlt : Spec.saddr x < 2 ^ 64 := Nat.lt_trans (Nat.mod_lt _ (by decide)) (by decide)
  rw [sAddr_eq, BitVec.toNat_ofNat, Nat.mod_eq_of_lt hlt, h]

/-- A scratchpad read that goes through gives the bytes; it stamps them and the thread's ordering memory learns. -/
theorem spRead_ok {e : Env} {s : State} {g : Group} {th : Thread} {off n : Nat} (h : e.runs s g th)
    (hok : spOk e.k off n = true)
    (hrace : findRace g.stamps th.hb (th.hb.stamp false none false e.place) (upFrom off n) = none) :
    ∃ st hb, spRead e off n none none s = .ok (g.spGet off n,
      s.setGroup e.cur.gid ({ g with stamps := st }.setThread e.cur.t { th with hb := hb })) := by
  have hc : spCheck e off n s = .ok ((), s) := by unfold spCheck; rw [if_pos hok]; rfl
  let st := stampAll g.stamps (th.hb.stamp false none false e.place) (upFrom off n)
  have ht : spTouch e (upFrom off n) false none s = .ok ((), s.setGroup e.cur.gid { g with stamps := st }) := by
    unfold spTouch spTouchSt
    rw [SlotM.bind_ok (get_ok s), SlotM.bind_ok (getTh_ok h.thread)]
    simp only [h.1, Option.getD_some, hrace, modify_ok, State.modGroup]
    rfl
  have hr : e.runs (s.setGroup e.cur.gid { g with stamps := st }) { g with stamps := st } th :=
    ⟨State.group_setGroup_same _ _ _, h.2⟩
  refine ⟨st, th.hb.readHeads e.place none (headsAt g.rels (upFrom off n)), ?_⟩
  unfold spRead
  rw [SlotM.bind_ok hc, SlotM.bind_ok ht, SlotM.bind_ok (getG_ok hr), SlotM.bind_ok (modTh_ok _ hr.thread),
    hr.setThread]
  simp only [State.setGroup, mset_mset]
  rfl

/-! ### An operation that its slot has issued -/

/-- From `s` to `u` the current thread issued operation `op`, number `n` of context `c`, and stands there as `th` but for
its ordering memory. -/
structure Launched (e : Env) (c n op : Nat) (kind : EngKind) (th : Thread) (s u : State) : Prop where
  held   : Spec.issued e u c n op kind
  thread : ∃ hb, u.thread e.cur.gid e.cur.t = some { th with hb := hb }
  mem    : u.mem = s.mem

/-- Group.issue takes the next number of one context. -/
theorem Group.engCtx_issue (g : Group) (c : Nat) : ((g.issue c).1.engCtx c).issued = (g.engCtx c).issued + 1 := by
  simp [Group.issue, Group.engCtx]

/-- The operation that a slot issues. -/
def Env.newOp (e : Env) (th : Thread) (c n : Nat) (kind : EngKind) : EngOp :=
  { po := e.cur.inst, gid := some e.cur.gid, thread := some e.cur.t, cid := e.g.cid, wid := e.th.wid, ectx := c, num := n,
    kind := kind, done := [], err := none, recd := none, stall := none, held := false, flags := 0#6, ended := false,
    hb := opHb th.hb.now, place := e.place }

theorem issueOp_ok {e : Env} {s : State} {g : Group} {th : Thread} (h : e.runs s g th) (c : Nat) (kind : EngKind) :
    issueOp e c kind s = .ok ((g.engCtx c).issued + 1,
      ((s.setGroup e.cur.gid (g.issue c).1).addOp (e.newOp th c ((g.engCtx c).issued + 1) kind)).setThread e.cur.gid e.cur.t
        { th with hb := th.hb.tick }) := by
  have hu : (((s.setGroup e.cur.gid (g.issue c).1).addOp (e.newOp th c ((g.engCtx c).issued + 1) kind)).thread e.cur.gid
      e.cur.t) = some th := by
    simp only [State.thread, State.addOp_rd_group, State.group_setGroup_same, Option.bind_some]
    exact h.2
  unfold issueOp
  rw [SlotM.bind_ok (getG_ok h), SlotM.bind_ok (getTh_ok h.thread)]
  dsimp only
  rw [SlotM.bind_ok (modify_ok _ s)]
  exact (SlotM.bind_ok (modTh_ok _ hu)).trans rfl

/-- Where the issue leaves the group: one number further in its context. -/
theorem issueOp_runs {e : Env} {s : State} {g : Group} {th : Thread} (h : e.runs s g th) (c : Nat) (kind : EngKind) :
    ∃ u, issueOp e c kind s = .ok ((g.engCtx c).issued + 1, u) ∧
      Launched e c ((g.engCtx c).issued + 1) s.nextOp kind th s u ∧ u.nextOp = s.nextOp + 1 ∧ (∀ d, u.die d = s.die d) ∧
      ∃ g' hb, e.runs u g' { th with hb := hb } ∧ (g'.engCtx c).issued = (g.engCtx c).issued + 1 := by
  refine ⟨_, issueOp_ok h c kind, ?_⟩
  have hr : e.runs ((s.setGroup e.cur.gid (g.issue c).1).addOp (e.newOp th c ((g.engCtx c).issued + 1) kind)) (g.issue c).1
      th := ⟨State.group_setGroup_same _ _ _, h.2⟩
  rw [hr.setThread]
  have hr' := e.runs_setGroup ((s.setGroup e.cur.gid (g.issue c).1).addOp (e.newOp th c ((g.engCtx c).issued + 1) kind))
    (g.issue c).1 { th with hb := th.hb.tick }
  have hg : (((g.issue c).1.setThread e.cur.t { th with hb := th.hb.tick }).engCtx c).issued = (g.engCtx c).issued + 1 :=
    g.engCtx_issue c
  refine ⟨⟨⟨?_, _, mget_mset_same _ _ _, rfl, rfl, rfl, rfl, rfl, rfl, rfl, rfl⟩, ⟨_, hr'.thread⟩, rfl⟩,
    rfl, fun _ => rfl, _, _, hr', hg⟩
  rw [hr'.1, Option.map_some, hg]

/-! ### What the slot owes -/

/-- The number that the destination is owed, as the two words of its pair. -/
theorem wordsOf_ofNat (n : Nat) : wordsOf true (BitVec.ofNat 64 n) = Spec.pairOf n := by
  have hlo : lo32 (BitVec.ofNat 64 n) = BitVec.ofNat 32 n := by
    apply BitVec.eq_of_toNat_eq
    simp [lo32]
  have hhi : hi32 (BitVec.ofNat 64 n) = BitVec.ofNat 32 (n / 2 ^ 32) := by
    apply BitVec.eq_of_toNat_eq
    simp only [hi32, BitVec.toNat_setWidth, BitVec.toNat_ushiftRight, BitVec.toNat_ofNat, Nat.shiftRight_eq_div_pow]
    omega
  simp [wordsOf, Spec.pairOf, hlo, hhi]

/-- Whether a destination can be taken does not hang on the thread's ordering memory. -/
theorem reserveD_hb {o : Operand} {n : Nat} {th : Thread} (h : reserveD o n th = .ok ((), th)) (hb : HbState) :
    reserveD o n { th with hb := hb } = .ok ((), { th with hb := hb }) := by
  cases o with
  | main i =>
    have hal : ({ th with hb := hb } : Thread).alloc = th.alloc := rfl
    have hhe : ∀ r, ({ th with hb := hb } : Thread).held r = th.held r := fun _ => rfl
    cases hm : (upFrom i.toNat n).find? (fun r => (mget th.marks r).isSome) with
    | some r => simp [reserveD, takeMain, hm] at h
    | none =>
      by_cases hq : th.quota < th.alloc + (upFrom i.toNat n).countP (fun r => !th.held r) ∧
          (upFrom i.toNat n).any (fun r => !th.held r) = true
      · simp only [reserveD, takeMain, hm, if_pos hq] at h
        cases h
      · simp only [reserveD, takeMain, hal, hhe, hm, if_neg hq]
  | opf i => rfl
  | latch i => rfl
  | special i => rfl

theorem fpTraps_none (th : Thread) : fpTraps th 0#6 = false := by
  simp [fpTraps]

/-- The last result that a thread owes is the one it was given last. -/
theorem Thread.owe_getLast (th : Thread) (kind : DrainKind) (f : Fields) (vs : List W32) :
    (th.owe kind f.ahd.toNat f.d vs).pend.getLast? = some (Spec.owed kind f vs []) := by
  unfold Thread.owe Spec.owed
  simp only [List.getLast?_append, List.getLast?_singleton, Option.some_or]
  cases f.d <;> rfl

/-- A slot that issues an operation and delivers its number, as a whole. -/
theorem runGuarded_delivers {i : Instr} {f : Fields} {s u : State} {e : Env} {en : Enc} {x : Srcs} {th : Thread}
    {m : Env → Enc → Srcs → SlotM FFlags} {c n op : Nat} {k : EngKind} {kind : DrainKind} (h : Issues i f s e en x th)
    (hd : dstLen en.d = 2) (hl : Launched e c n op k (th.release (marked en f)) s u)
    (hm : m e en x (s.setThread e.cur.gid e.cur.t (th.release (marked en f))) =
      (do deliver e kind f (wordsOf true (BitVec.ofNat 64 n)); return 0#6 : SlotM FFlags) u) :
    ∃ th1, runGuarded i f m s = .next (u.setThread e.cur.gid e.cur.t th1) ∧
      Spec.issued e (u.setThread e.cur.gid e.cur.t th1) c n op k ∧
      Spec.goesOwed e (u.setThread e.cur.gid e.cur.t th1) (Spec.owed kind f (Spec.pairOf n) []) := by
  obtain ⟨⟨hnum, hop⟩, ⟨hb, hth⟩, -⟩ := hl
  have hroom := reserveD_hb (hd ▸ h.room) hb
  have hown := postpone_ok (kind := kind) (ahd := f.ahd) (vs := Spec.pairOf n) hroom
  have hdel : deliver e kind f (wordsOf true (BitVec.ofNat 64 n)) u = .ok ((), u.setThread e.cur.gid e.cur.t
      (({ th.release (marked en f) with hb := hb } : Thread).owe kind f.ahd.toNat f.d (Spec.pairOf n))) := by
    unfold deliver
    rw [Cur.words_plain h.plain, wordsOf_ofNat, onThread_ok hth hown]
  rw [SlotM.bind_ok hdel] at hm
  have hu := State.thread_setThread
    (({ th.release (marked en f) with hb := hb } : Thread).owe kind f.ahd.toNat f.d (Spec.pairOf n)) hth
  have hgo := runGuarded_next h hm hu (fpTraps_none _)
  rw [State.setThread_setThread _ _ hth] at hgo
  refine ⟨_, hgo, ⟨?_, by simpa using hop⟩, ⟨_, State.thread_setThread _ hth, Thread.advance_pc _ _, ?_⟩⟩
  · obtain ⟨g, hg, hgt⟩ := State.thread_some hth
    have hr : e.runs u g { th.release (marked en f) with hb := hb } := ⟨hg, hgt⟩
    rw [hr.1, Option.map_some] at hnum
    rw [hr.setThread, State.group_setGroup_same, Option.map_some]
    exact hnum
  · rw [Thread.advance_pend]
    exact Thread.owe_getLast _ kind f _

/-- The same of a slot that issues one operation. -/
theorem runGuarded_launched {i : Instr} {f : Fields} {s u : State} {e : Env} {en : Enc} {x : Srcs} {th : Thread}
    {m : Env → Enc → Srcs → SlotM FFlags} {c n op : Nat} {k : EngKind} {kind : DrainKind} (h : Issues i f s e en x th)
    (hd : dstLen en.d = 2) (hl : Launched e c n op k (th.release (marked en f)) s u)
    (hm : m e en x (s.setThread e.cur.gid e.cur.t (th.release (marked en f))) =
      (do deliver e kind f (wordsOf true (BitVec.ofNat 64 n)); return 0#6 : SlotM FFlags) u) :
    ∃ t, runGuarded i f m s = .next t ∧ Spec.issued e t c n op k ∧
      Spec.goesOwed e t (Spec.owed kind f (Spec.pairOf n) []) ∧ t.mem = s.mem := by
  obtain ⟨th1, ht, his, hgo⟩ := runGuarded_delivers h hd hl hm
  exact ⟨_, ht, his, hgo, by simpa using hl.mem⟩

/-- The issue in a slot that has so far changed its group alone, and no engine context there. -/
theorem launch_ok {e : Env} {s s1 : State} {g1 : Group} {th : Thread} {hb : HbState}
    (hr : e.runs s1 g1 { th with hb := hb }) (heng : g1.eng = e.g.eng) (hmem : s1.mem = s.mem)
    (hnext : s1.nextOp = s.nextOp) (c : Nat) (kind : EngKind) :
    ∃ u, issueOp e c kind s1 = .ok ((e.g.engCtx c).issued + 1, u) ∧
      Launched e c ((e.g.engCtx c).issued + 1) s.nextOp kind th s u ∧ ∀ d, u.die d = s1.die d := by
  obtain ⟨u, hi, hl, -, hdie, -⟩ := issueOp_runs hr c kind
  have hn : (g1.engCtx c).issued = (e.g.engCtx c).issued := by simp [Group.engCtx, heng]
  rw [hn] at hi hl
  rw [hnext] at hl
  exact ⟨u, hi, ⟨hl.held, hl.thread, hl.mem.trans hmem⟩, hdie⟩

/-- What is outside the groups is the same before and after. -/
theorem SameOutside.get {α : Type} {s t : State} (h : SameOutside s t) (q : State → α)
    (hq : q { t with groups := s.groups } = q t) : q t = q s := by
  have h' : { t with groups := s.groups } = s := h
  rw [← hq, h']

theorem SameOutside.mem {s t : State} (h : SameOutside s t) : t.mem = s.mem := h.get State.mem rfl

theorem SameOutside.nextOp {s t : State} (h : SameOutside s t) : t.nextOp = s.nextOp := h.get State.nextOp rfl

theorem SameOutside.die {s t : State} (h : SameOutside s t) (d : Nat) : t.die d = s.die d := h.get (·.die d) rfl

theorem SameOutside.part {s t : State} (h : SameOutside s t) (n : Nat) : t.part n = s.part n := h.get (·.part n) rfl

section
variable {i : Instr} {f : Fields} {s : State} {e : Env} {en : Enc} {x : Srcs} {th : Thread}

/-- The slot's thread, its marked sources free, in its group. -/
theorem Issues.runs (h : Issues i f s e en x th) : e.runs (s.setThread e.cur.gid e.cur.t (th.release (marked en f)))
    (e.g.setThread e.cur.t (th.release (marked en f))) (th.release (marked en f)) := by
  rw [(envOf_runs h.env).setThread]
  exact e.runs_setGroup s e.g _

/-- The issue in a slot that has done nothing yet. -/
theorem Issues.launch (h : Issues i f s e en x th) (c : Nat) (kind : EngKind) :
    ∃ u, issueOp e c kind (s.setThread e.cur.gid e.cur.t (th.release (marked en f))) = .ok ((e.g.engCtx c).issued + 1, u) ∧
      Launched e c ((e.g.engCtx c).issued + 1) s.nextOp kind (th.release (marked en f)) s u := by
  obtain ⟨u, hi, hl, -⟩ := launch_ok (s := s) (th := th.release (marked en f)) (hb := th.hb) h.runs rfl (by simp) (by simp)
    c kind
  exact ⟨u, hi, hl⟩

/-- The slot's read of its group's scratchpad: it leaves the group's engine contexts and record slots, and everything
outside the group. -/
theorem Issues.read (h : Issues i f s e en x th) {off n : Nat} (hok : SpadOk e th off n false none) :
    ∃ s1 g1 hb, spRead e off n none none (s.setThread e.cur.gid e.cur.t (th.release (marked en f))) =
        .ok (e.g.spGet off n, s1) ∧ e.runs s1 g1 { th.release (marked en f) with hb := hb } ∧ g1.eng = e.g.eng ∧
      g1.slots = e.g.slots ∧ SameOutside s s1 := by
  obtain ⟨st, hb, hr⟩ := spRead_ok h.runs hok.1 hok.2
  rw [(envOf_runs h.env).setThread] at hr ⊢
  exact ⟨_, _, hb, hr, e.runs_setGroup _ { e.g.setThread e.cur.t (th.release (marked en f)) with stamps := st }
    { th.release (marked en f) with hb := hb }, rfl, rfl, rfl⟩

end

/-! ### The instructions -/

/-- The instruction issues the machine's next operation as number `n` of context `c`, owes its destination that number, and
goes on. -/
def Launches (i : Instr) (f : Fields) (s : State) (e : Env) (c n : Nat) (k : EngKind) (kind : DrainKind) : Prop :=
  ∃ t, exec i s = .next t ∧ Spec.issued e t c n s.nextOp k ∧ Spec.goesOwed e t (Spec.owed kind f (Spec.pairOf n) []) ∧
    t.mem = s.mem

section
variable {f : Fields} {s : State} {e : Env} {en : Enc} {x : Srcs} {th : Thread}

/-- GATH of a sound row. -/
theorem exec_gath_launches (h : Issues (.gath f) f s e en x th) {r : Rec} (hr : e.g.slot (unitIx f.a) = r) (h0 : r ≠ 0#512)
    (hrow : x.b32.toNat < trExt r 1 * trExt r 2 * trExt r 3) (hal : x.c32.toNat % fmtAlign (trFmt r) = 0)
    (hsp : spOk e.k x.c32.toNat ((trExt r 0 * fmtBits (trFmt r) + 7) / 8) = true) :
    Launches (.gath f) f s e 6 ((e.g.engCtx 6).issued + 1) (.gath r x.b32.toNat x.c32.toNat) .ld := by
  obtain ⟨u, hi, hl⟩ := h.launch 6 (.gath r x.b32.toNat x.c32.toNat)
  unfold Launches
  rw [exec]
  unfold execGath
  refine runGuarded_launched h (Option.some.inj h.entry ▸ rfl) hl ?_
  rw [hr, if_neg (by simp [h0, hrow, hal, hsp]), SlotM.bind_ok hi]

theorem lo32_toNat (c : W64) : (lo32 c).toNat = c.toNat % 2 ^ 32 := BitVec.toNat_setWidth _ _

theorem hi32_toNat (c : W64) : (hi32 c).toNat = c.toNat / 2 ^ 32 := by
  simp only [hi32, BitVec.toNat_setWidth, BitVec.toNat_ushiftRight, Nat.shiftRight_eq_div_pow]
  omega

/-- TLD into a tile that may be written. -/
theorem exec_tld_launches (h : Issues (.tld f) f s e en x th) {r : Rec} (hr : e.g.slot (unitIx f.b) = r)
    (hok : transferOk r (e.g.tile (unitIx f.a)) (x.c.toNat % 2 ^ 32) (x.c.toNat / 2 ^ 32) = true)
    (hw : tileWritable s e.cur.gid e.g (unitIx f.a) = .ok ()) :
    Launches (.tld f) f s e (f.mod.toNat % 4) ((e.g.engCtx (f.mod.toNat % 4)).issued + 1)
      (.tld (unitIx f.a) r (x.c.toNat % 2 ^ 32) (x.c.toNat / 2 ^ 32)) .mx := by
  obtain ⟨u, hi, hl⟩ := h.launch (f.mod.toNat % 4) (.tld (unitIx f.a) r (x.c.toNat % 2 ^ 32) (x.c.toNat / 2 ^ 32))
  unfold Launches
  rw [exec]
  unfold execTld
  refine runGuarded_launched h (Option.some.inj h.entry ▸ rfl) hl ?_
  obtain ⟨-, -, hes⟩ := envOf_thread h.env
  rw [hr, lo32_toNat, hi32_toNat, if_neg (by rw [hok]; decide), hes, SlotM.bind_ok (liftE_ok hw _), SlotM.bind_ok hi]

/-- TST of a tile that may be read. -/
theorem exec_tst_launches (h : Issues (.tst f) f s e en x th) {r : Rec} (hr : e.g.slot (unitIx f.b) = r)
    (hok : transferOk r (e.g.tile (unitIx f.a)) (x.c.toNat % 2 ^ 32) (x.c.toNat / 2 ^ 32) = true)
    (hw : tileReadable s e.cur.gid (unitIx f.a) = .ok ()) :
    Launches (.tst f) f s e (f.mod.toNat % 4) ((e.g.engCtx (f.mod.toNat % 4)).issued + 1)
      (.tst (unitIx f.a) r (x.c.toNat % 2 ^ 32) (x.c.toNat / 2 ^ 32) (e.g.tile (unitIx f.a))) .mx := by
  obtain ⟨u, hi, hl⟩ := h.launch (f.mod.toNat % 4)
    (.tst (unitIx f.a) r (x.c.toNat % 2 ^ 32) (x.c.toNat / 2 ^ 32) (e.g.tile (unitIx f.a)))
  unfold Launches
  rw [exec]
  unfold execTst
  refine runGuarded_launched h (Option.some.inj h.entry ▸ rfl) hl ?_
  obtain ⟨-, -, hes⟩ := envOf_thread h.env
  rw [hr, lo32_toNat, hi32_toNat, if_neg (by rw [hok]; decide), hes, SlotM.bind_ok (liftE_ok hw _), SlotM.bind_ok hi]

theorem pickComm_entry {s : State} {cid comm j : Nat} {c : CommEntry} (h : pickComm s cid comm = .entry j c) :
    commEntries s cid comm = [(j, c)] := by
  unfold pickComm at h
  split at h
  · cases h
  · next q hq =>
    split at h
    · cases h
      exact hq
    · cases h
  · cases h

/-- COLL of a rank of the one entry that its communicator names. -/
theorem exec_coll_launches (h : Issues (.coll f) f s e en x th) {d : Rec} {j rank : Nat} {c : CommEntry}
    (hal : Spec.saddr x % 64 = 0) (hsp : SpadOk e th (Spec.saddr x) 64 false none)
    (hdr : recOf (e.g.spGet (Spec.saddr x) 64) = d) (hd : cdOk d = true) (hp : pickComm s e.g.cid (cdComm d) = .entry j c)
    (hj : mget (s.part (vfOf e.g.cid)).comms j = some c) (hrank : groupRank c e.g.grp = some rank)
    (hroot : rootOk s e.g.cid d = true) :
    Launches (.coll f) f s e 7 ((e.g.engCtx 7).issued + 1) (.coll d rank (mgetD c.calls rank 0 + 1)) .alu := by
  obtain ⟨s1, g1, hb, hread, hr1, heng, hslots, hsame⟩ := h.read hsp
  obtain ⟨-, -, hes⟩ := envOf_thread h.env
  have hcall : countCall s1 (vfOf e.g.cid) j rank = (mgetD c.calls rank 0 + 1, (countCall s1 (vfOf e.g.cid) j rank).2) := by
    simp [countCall, mgetD, hsame.part, hj]
  obtain ⟨u, hi, hl, -⟩ := launch_ok (s := s) (s1 := (countCall s1 (vfOf e.g.cid) j rank).2) hr1 heng hsame.mem hsame.nextOp 7
    (.coll d rank (mgetD c.calls rank 0 + 1))
  unfold Launches
  rw [exec]
  unfold execColl
  refine runGuarded_launched h (Option.some.inj h.entry ▸ rfl) hl ?_
  rw [SlotM.bind_ok (aligned_saddr hal _), sAddr_eq, SlotM.bind_ok hread, hdr, if_neg (by rw [hd]; decide), hes, hp,
    pickComm_entry hp]
  simp only [List.filterMap_cons, hrank, List.filterMap_nil]
  rw [if_neg (by rw [hroot]; decide), SlotM.bind_ok (get_ok s1), hcall]
  dsimp only
  rw [SlotM.bind_ok (set_ok s1 _), SlotM.bind_ok hi]

/-- An entry of the Gong leaves the operation as it is. -/
theorem Launched.gongPut {c n op : Nat} {k : EngKind} {th : Thread} {s u : State} (h : Launched e c n op k th s u) (d : Nat)
    (g : GongEntry) : Launched e c n op k th s (u.gongPut d g) :=
  ⟨h.held, h.thread, h.mem⟩

/-- TTASK of a sound task record with room in the Gong. -/
theorem exec_ttask_launches (h : Issues (.ttask f) f s e en x th) {r a w c : Rec}
    (hal : Spec.saddr x % 64 = 0) (hsp : SpadOk e th (Spec.saddr x) 64 false none)
    (hr : recOf (e.g.spGet (Spec.saddr x) 64) = r) (ha : e.g.slot (tkAslot r) = a) (hw : e.g.slot (tkWslot r) = w)
    (hc : e.g.slot (tkCslot r) = c) (hok : taskOk e.k r a w c = true) (hroom : s.gongPending (e.g.coreN / 64) < 4096) :
    ∃ t, exec (.ttask f) s = .next t ∧
      Spec.issued e t (4 + tkCtx r) ((e.g.engCtx (4 + tkCtx r)).issued + 1) s.nextOp (.task r a w c none) ∧
      (t.die (e.g.coreN / 64)).gong = (s.die (e.g.coreN / 64)).gong ++
        [GongEntry.fresh (.task s.nextOp) e.g.cid e.k.prio.toNat] ∧
      Spec.goesOwed e t (Spec.owed .alu f (Spec.pairOf ((e.g.engCtx (4 + tkCtx r)).issued + 1)) []) ∧ t.mem = s.mem := by
  obtain ⟨s1, g1, hb, hread, hr1, heng, hslots, hsame⟩ := h.read hsp
  obtain ⟨-, -, hes⟩ := envOf_thread h.env
  obtain ⟨u, hi, hl, hdie⟩ := launch_ok (s := s) hr1 heng hsame.mem hsame.nextOp (4 + tkCtx r) (.task r a w c none)
  have hput := hl.gongPut (e.g.coreN / 64) (.fresh (.task s.nextOp) e.g.cid e.k.prio.toNat)
  have hgo : s.gongRoom (e.g.coreN / 64) 1 = true := by
    simp only [State.gongRoom, decide_eq_true_eq]
    omega
  have hsl : ∀ q, g1.slot q = e.g.slot q := fun q => by simp [Group.slot, hslots]
  rw [exec]
  unfold execTtask
  refine (runGuarded_delivers (kind := .alu) h (Option.some.inj h.entry ▸ rfl) hput ?_).elim
    fun th1 ⟨ht, his, howed⟩ => ⟨_, ht, his, ?_, howed, ?_⟩
  · rw [SlotM.bind_ok (aligned_saddr hal _), sAddr_eq, SlotM.bind_ok hread, hr, SlotM.bind_ok (getG_ok hr1)]
    simp only [hsl, ha, hw, hc]
    rw [if_neg (by rw [hok]; decide), hes, if_neg (by rw [hgo]; decide), SlotM.bind_ok (get_ok s1), hsame.nextOp,
      SlotM.bind_ok hi, SlotM.bind_ok (modify_ok _ u)]
  · simp [State.gongPut, hdie, hsame.die]
  · simpa [State.gongPut] using hl.mem

theorem issueCopies_cons (e : Env) (q : Rec × Option Rec × Option Rec) (l : List (Rec × Option Rec × Option Rec)) (n : Nat) :
    issueCopies e (q :: l) n = issueOp e (cqCtx q.1) (.copy q.1 q.2.1 q.2.2) >>= fun n => issueCopies e l n := rfl

/-- Copies of one context are issued in order, each under the next number; the last is the number delivered. -/
theorem issueCopies_ok {e : Env} {s : State} {g : Group} {th : Thread} {l : List (Rec × Option Rec × Option Rec)}
    {r : Rec × Option Rec × Option Rec} {c : Nat} (hr : e.runs s g th) (hc : ∀ q ∈ l, cqCtx q.1 = c)
    (hlast : l.getLast? = some r) (n0 : Nat) :
    ∃ u, issueCopies e l n0 s = .ok ((g.engCtx c).issued + l.length, u) ∧
      Launched e c ((g.engCtx c).issued + l.length) (s.nextOp + l.length - 1) (.copy r.1 r.2.1 r.2.2) th s u ∧
      u.nextOp = s.nextOp + l.length := by
  induction l generalizing s g th n0 with
  | nil => cases hlast
  | cons q l ih =>
    obtain ⟨u, hi, hl, hnext, -, g', hb, hr', hn⟩ := issueOp_runs hr c (.copy q.1 q.2.1 q.2.2)
    have hq : cqCtx q.1 = c := hc q List.mem_cons_self
    have hstep : issueCopies e (q :: l) n0 s = issueCopies e l ((g.engCtx c).issued + 1) u := by
      rw [issueCopies_cons, hq, SlotM.bind_ok hi]
    cases l with
    | nil =>
      obtain rfl : q = r := by simpa using hlast
      exact ⟨u, hstep, hl, hnext⟩
    | cons q' l =>
      obtain ⟨v, hv, hlv, hnv⟩ := ih hr' (fun y hy => hc y (List.mem_cons_of_mem _ hy)) (by simpa using hlast)
        ((g.engCtx c).issued + 1)
      rw [hn] at hv hlv
      rw [hnext] at hlv hnv
      have hlen : (q :: q' :: l).length = 1 + (q' :: l).length := by simp; omega
      rw [hlen, ← Nat.add_assoc, ← Nat.add_assoc]
      exact ⟨v, hstep.trans hv, ⟨hlv.held, hlv.thread, hlv.mem.trans hl.mem⟩, hnv⟩

theorem length_recsOf (bs : List Byte) (n : Nat) : (recsOf bs n).length = n := by
  induction n generalizing bs with
  | zero => rfl
  | succ n ih => simp [recsOf, ih]

/-- The requests of a CPKICK that passes: as many as its records, all of one context. -/
theorem kickReqs_some {k : Kernel} {g : Group} {reqs : List Rec} {l : List (Rec × Option Rec × Option Rec)} {c : Nat}
    (h : kickReqs k g reqs = some l) (hc : (l.head?.map (fun q => cqCtx q.1)) = some c) :
    l.length = reqs.length ∧ ∀ q ∈ l, cqCtx q.1 = c := by
  cases reqs with
  | nil => simp [kickReqs] at h
  | cons r reqs =>
    simp only [kickReqs, List.map_cons] at h
    split at h
    · next hall =>
      cases h
      simp only [List.head?_cons, Option.map_some, Option.some.injEq] at hc
      refine ⟨by simp, fun q hq => ?_⟩
      have := List.all_eq_true.1 hall q hq
      simp only [Bool.and_eq_true, beq_iff_eq] at this
      exact this.1.trans hc
    · cases h

theorem kickReqs_slots (k : Kernel) {g g' : Group} (h : g'.slots = g.slots) (reqs : List Rec) :
    kickReqs k g' reqs = kickReqs k g reqs := by
  have hs : reqSrc g' = reqSrc g := by funext r; simp [reqSrc, Group.slot, h]
  have hd : reqDst g' = reqDst g := by funext r; simp [reqDst, Group.slot, h]
  simp only [kickReqs, hs, hd]

/-- CPKICK of sound requests. -/
theorem exec_cpkick_launches (h : Issues (.cpkick f) f s e en x th) {l : List (Rec × Option Rec × Option Rec)} {c : Nat}
    (h1 : 1 ≤ x.c32.toNat) (h16 : x.c32.toNat ≤ 16) (hal : Spec.saddr x % 64 = 0)
    (hsp : SpadOk e th (Spec.saddr x) (64 * x.c32.toNat) false none)
    (hk : kickReqs e.k e.g (recsOf (e.g.spGet (Spec.saddr x) (64 * x.c32.toNat)) x.c32.toNat) = some l)
    (hc : (l.head?.map (fun q => cqCtx q.1)) = some c) :
    ∃ t r, exec (.cpkick f) s = .next t ∧ l.getLast? = some r ∧
      Spec.issued e t c ((e.g.engCtx c).issued + x.c32.toNat) (s.nextOp + x.c32.toNat - 1) (.copy r.1 r.2.1 r.2.2) ∧
      t.nextOp = s.nextOp + x.c32.toNat ∧
      Spec.goesOwed e t (Spec.owed .cp f (Spec.pairOf ((e.g.engCtx c).issued + x.c32.toNat)) []) ∧ t.mem = s.mem := by
  obtain ⟨hlen, hctx⟩ := kickReqs_some hk hc
  rw [length_recsOf] at hlen
  have hne : l ≠ [] := by
    rintro rfl
    simp at hlen
    omega
  obtain ⟨s1, g1, hb, hread, hr1, heng, hslots, hsame⟩ := h.read hsp
  obtain ⟨u, hi, hl, hnext⟩ := issueCopies_ok hr1 hctx (List.getLast?_eq_some_getLast hne) 0
  have hn : (g1.engCtx c).issued = (e.g.engCtx c).issued := by simp [Group.engCtx, heng]
  rw [hn, hlen] at hi hl
  rw [hsame.nextOp] at hl
  rw [hsame.nextOp, hlen] at hnext
  have hbad : ¬(x.c32.toNat = 0 ∨ 16 < x.c32.toNat) := by omega
  rw [exec]
  unfold execCpkick
  refine (runGuarded_delivers (kind := .cp) (s := s) h (Option.some.inj h.entry ▸ rfl)
    ⟨hl.held, hl.thread, hl.mem.trans hsame.mem⟩ ?_).elim
    fun th1 ⟨ht, his, howed⟩ => ⟨_, l.getLast hne, ht, List.getLast?_eq_some_getLast hne, hlen ▸ his, ?_, howed, ?_⟩
  · rw [if_neg hbad, SlotM.bind_ok (aligned_saddr hal _), sAddr_eq, SlotM.bind_ok hread, SlotM.bind_ok (getG_ok hr1),
      kickReqs_slots e.k hslots, hk]
    dsimp only
    rw [SlotM.bind_ok hi]
  · simpa using hnext
  · simpa using hl.mem.trans hsame.mem

end

/-- Settles O21: each instruction by its lemma. -/
theorem engineIssue : Obligations.EngineIssue := by
  unfold Obligations.EngineIssue
  intro i f s e en x th h
  refine ⟨?_, ?_, ?_, ?_, ?_, ?_⟩
  · rintro l c rfl h1 h16 hal hsp hk hc
    exact exec_cpkick_launches h h1 h16 hal hsp hk hc
  · rintro rfl r h0 hrow hal hsp
    exact exec_gath_launches h rfl h0 hrow hal hsp
  · rintro j c rank rfl hal hsp d hd hp hj hrank hroot
    exact exec_coll_launches h hal hsp rfl hd hp hj hrank hroot
  · rintro rfl r hok hw
    exact exec_tld_launches h rfl hok hw
  · rintro rfl r hok hw
    exact exec_tst_launches h rfl hok hw
  · rintro rfl hal hsp r a w c hok hroom
    exact exec_ttask_launches h hal hsp rfl rfl rfl rfl hok hroom

end Sys2Proof.Machine

namespace Sys2Proof.Machine

/-! ## Events of the engines (R72, R175, R177, R182, R191, R207) -/

/-! ### The end of an operation -/

theorem EngOp.not_failed_of_goes {o : EngOp} (h : o.goes = true) (s : State) : o.failed s = false := by
  cases he : o.err <;> simp [EngOp.goes, EngOp.failed, he] at h ⊢

theorem EngOp.not_failed_of_err {o : EngOp} (h : o.err = none) (s : State) : o.failed s = false := by
  simp [EngOp.failed, h]

/-- An operation that ends leaves the machine. -/
theorem finishOp_ops (s : State) (n : Nat) (o : EngOp) : (finishOp s n o).ops = mdel s.ops n := by
  unfold finishOp
  split <;> simp

theorem finishOp_calls (s : State) (n : Nat) (o : EngOp) : (finishOp s n o).calls = s.calls := by
  unfold finishOp
  split <;> simp

theorem finishOp_gone {s : State} {n : Nat} (o : EngOp) (hm : msorted s.ops = true) : mget (finishOp s n o).ops n = none := by
  rw [finishOp_ops]
  exact mget_mdel_same n hm

/-- Its number completes in its group. -/
theorem finishOp_group {s : State} {gid n : Nat} {o : EngOp} {g : Group} (ho : o.gid = some gid) (hg : s.group gid = some g) :
    (finishOp s n o).group gid = some (g.complete o.ectx o.num o.err.isSome [o.passes]) := by
  unfold finishOp
  simp only [ho]
  rw [State.group_modGroup_same]
  simp [State.group, show mget s.groups gid = some g from hg]

theorem Group.complete_issued (g : Group) (c n : Nat) (err : Bool) (d : List DoneOp) :
    ((g.complete c n err d).engCtx c).issued = (g.engCtx c).issued := by
  simp [Group.complete, Group.engCtx]

theorem Group.complete_tile (g : Group) (c n m : Nat) (err : Bool) (d : List DoneOp) :
    (g.complete c n err d).tile m = g.tile m := rfl

theorem Group.tile_setTile (g : Group) (n : Nat) (t : Tile) : (g.setTile n t).tile n = t := mgetD_mset_same ..

/-- The end of the operation whose number is next in its context. -/
theorem finishOp_next {s : State} {gid op : Nat} {o : EngOp} {g : Group} (ho : o.gid = some gid) (hg : s.group gid = some g)
    (hn : o.num = (g.engCtx o.ectx).tl + 1) (hb : (g.engCtx o.ectx).beyond = []) (hm : msorted s.ops = true) :
    ∃ g', (finishOp s op o).group gid = some g' ∧ (g'.engCtx o.ectx).tl = o.num ∧
      (g'.engCtx o.ectx).err = ((g.engCtx o.ectx).err || o.err.isSome) ∧ (g'.engCtx o.ectx).issued = (g.engCtx o.ectx).issued ∧
      mget (finishOp s op o).ops op = none ∧ (finishOp s op o).mem = s.mem := by
  obtain ⟨htl, herr⟩ := Group.complete_next hb o.err.isSome [o.passes]
  refine ⟨_, finishOp_group ho hg, ?_, ?_, Group.complete_issued .., finishOp_gone o hm, finishOp_mem s op o⟩
  · rw [hn]; exact htl
  · rw [hn]; exact herr

/-! ### Copies -/

/-- A copy that decrements no counting barrier leaves the machine as it is. -/
theorem copyDecrement_none {s : State} {o : EngOp} (h : ∀ r a b, o.kind = .copy r a b → cqCbe r = false) (n : Nat) (c : Bool) :
    copyDecrement s o n c = .ok s := by
  unfold copyDecrement
  split
  · next r a b hk => simp [h r a b hk]
  · rfl

/-- COPY_DATA_PERFORMED of bytes that are not yet performed and move. -/
theorem exec_copyDataPerformed_moves {op off len : Nat} {s s1 : State} {o : EngOp} {c : CopyShape}
    (ho : mget s.ops op = some o) (hc : o.shape = some c) (hcb : ∀ r a b, o.kind = .copy r a b → cqCbe r = false)
    (hgo : o.goes = true) (hl : 1 ≤ len) (htot : off + len ≤ c.total)
    (hdone : ∀ p, p ∈ o.done → off + len ≤ p.1 ∨ p.1 + p.2 ≤ off)
    (hmv : moveBytes s (o.sideAgent c.src) (o.sideAgent c.dst) c.src.inSp c.dst.inSp ((upFrom off len).map (c.at c.src))
      ((upFrom off len).map (c.at c.dst)) = .ok s1) :
    exec (.copyDataPerformed op off len) s =
      .next ((s1.modOp op (fun _ => { o with done := o.done ++ [(off, len)], stall := none, held := false })).modOp op
        (fun o => { o with hb := o.hb.tick })) := by
  have hany : o.done.any (fun p => decide (p.1 < off + len) && decide (off < p.1 + p.2)) = false := by
    rw [List.any_eq_false]
    intro p hp
    have := hdone p hp
    simp only [Bool.and_eq_true, decide_eq_true_eq]
    omega
  have hlen : (len == 0) = false := by rw [beq_eq_false_iff_ne]; omega
  have hover : decide (c.total < off + len) = false := by rw [decide_eq_false_iff_not]; omega
  rw [exec]
  unfold execCopyDataPerformed
  simp only [ho, hc, hgo, hlen, hover, hany, Bool.not_true, Bool.or_false, Bool.false_eq_true, if_false, hmv]
  rw [copyDecrement_none (o := { o with done := o.done ++ [(off, len)], stall := none, held := false }) hcb]

/-- COPY_COMPLETE of a copy whose bytes have performed and that writes no completion word. -/
theorem exec_copyComplete_ends {op : Nat} {s : State} {o : EngOp} {r : Rec} {a b : Option Rec} (ho : mget s.ops op = some o)
    (hk : o.kind = .copy r a b) (hn : copyBytes r a b ≤ o.count) (hw : cqCwe r = false) (he : o.err = none) :
    exec (.copyComplete op) s = .next (finishOp s op o) := by
  have hlt : ¬o.count < copyBytes r a b := by omega
  rw [exec]
  unfold execCopyComplete
  simp only [ho, hk, EngOp.not_failed_of_err he, he, endCopy, hw, hlt, decide_false, Option.isSome_none, Bool.or_false,
    Bool.false_eq_true, if_false]

/-- GATHER_COMPLETE of a row that moves. -/
theorem exec_gatherComplete_ends {op row dst : Nat} {s s1 : State} {o : EngOp} {r : Rec} (ho : mget s.ops op = some o)
    (hk : o.kind = .gath r row dst) (hgo : o.goes = true)
    (hmv : moveBytes s o.agent o.agent (trSp r) true (rowPlaces r row)
      ((upFrom 0 (rowPlaces r row).length).map (fun j => (dst + j, ((rowPlaces r row).getD j (0, 8)).2))) = .ok s1) :
    exec (.gatherComplete op) s = .next (finishOp s1 op o) := by
  rw [exec]
  unfold execGatherComplete
  simp only [ho, hk, EngOp.not_failed_of_goes hgo, hgo, Bool.not_true, Bool.false_eq_true, if_false, hmv]

/-! ### Tile transfers -/

/-- TILE_TRANSFER_COMPLETE of a store whose rows move. -/
theorem exec_tileTransferComplete_stores {op n i0 i1 : Nat} {s s1 : State} {o : EngOp} {r : Rec} {tl : Tile}
    (ho : mget s.ops op = some o) (hk : o.kind = .tst n r i0 i1 tl) (hgo : o.goes = true)
    (hst : storeTile s o.agent r i0 i1 tl 0 tl.nrows = .ok s1) :
    exec (.tileTransferComplete op) s = .next (finishOp s1 op o) := by
  rw [exec]
  unfold execTileTransferComplete
  simp only [ho, hk, EngOp.not_failed_of_goes hgo, hgo, Bool.not_true, Bool.false_eq_true, if_false, hst]

/-- TILE_TRANSFER_COMPLETE of a load whose rows move. -/
theorem exec_tileTransferComplete_loads {op n gid i0 i1 : Nat} {r : Rec} {s s1 : State} {o : EngOp} {g : Group} {x : Tile}
    (ho : mget s.ops op = some o) (hk : o.kind = .tld n r i0 i1) (hgid : o.gid = some gid) (hg : s.group gid = some g)
    (hgo : o.goes = true) (hld : loadTile s o.agent r i0 i1 (g.tile n) 0 (g.tile n).nrows = .ok (x, s1)) :
    exec (.tileTransferComplete op) s = .next (finishOp (s1.modGroup gid (fun g => g.setTile n x)) op o) := by
  rw [exec]
  unfold execTileTransferComplete
  simp only [ho, hk, hgid, hg, EngOp.not_failed_of_goes hgo, hgo, Bool.not_true, Bool.false_eq_true, if_false, hld]
  rfl

/-! ### Tile tasks -/

/-- TILE_TASK_DISPATCH of a task that may go to a free engine. -/
theorem exec_tileTaskDispatch_goes {op core : Nat} {s : State} {o : EngOp} {r a w c : Rec} (ho : mget s.ops op = some o)
    (hk : o.kind = .task r a w c none) (hd : core / 64 = o.place.die) (hin : coreIn (s.part (vfOf o.cid)) core = true)
    (hmx : (s.core core).mxq = []) (hon : taskOn s core = false) (hb : keyBlocked s o.place.die o.cid (.task op) = false)
    (hf : s.gongFirst o.place.die (.task op) (readyTask s) = true) :
    exec (.tileTaskDispatch op core) s = .next ((s.modOp op (fun o' => { o' with
      kind := .task r a w c (some core), hb := o'.hb.learn (s.gongKnow o.place.die (.task op)) })).gongSend o.place.die
        (.task op)) := by
  have hall : core / 64 = o.place.die ∧ coreIn (s.part (vfOf o.cid)) core = true ∧ (s.core core).mxq = [] ∧
      (!taskOn s core) = true ∧ (!keyBlocked s o.place.die o.cid (.task op)) = true ∧
      s.gongFirst o.place.die (.task op) (readyTask s) = true := by
    simp [hd, hin, hmx, hon, hb, hf]
  rw [exec]
  unfold execTileTaskDispatch
  simp only [ho, hk]
  rw [if_pos hall]

/-- Every entry of a kind is marked as dispatched. -/
theorem State.gongSend_sent (s : State) (d : Nat) (k : GongKind) {e : GongEntry} (he : e ∈ ((s.gongSend d k).die d).gong)
    (hk : e.kind = k) : e.sent = true := by
  simp only [State.gongSend, State.die_setDie_same, List.mem_map] at he
  obtain ⟨e', -, rfl⟩ := he
  split
  · rfl
  · next hne =>
    rw [if_neg hne] at hk
    exact absurd hk hne

theorem State.gongDrop_inuse (s : State) (d : Nat) (k : GongKind) (c : Clock) :
    ((s.gongDrop d k c).die d).inuse = (s.die d).inuse := by
  simp [State.gongDrop]

/-- No entry of a dropped kind is left. -/
theorem State.gongDrop_ne (s : State) (d : Nat) (k : GongKind) (c : Clock) {e : GongEntry}
    (he : e ∈ ((s.gongDrop d k c).die d).gong) : e.kind ≠ k := by
  simp only [State.gongDrop, State.die_setDie_same, List.mem_filter, bne_iff_ne] at he
  exact he.2

/-- The end of a task that writes no completion word: the number completes and the Gong drops the task. -/
theorem endTask_plain {s : State} {op : Nat} {o : EngOp} {r : Rec} (hw : tkCwe r = false) (hm : msorted s.ops = true) :
    endTask s op o r = { finishOp s op o with dies := (s.gongDrop o.place.die (.task op) o.hb.now).dies } := by
  unfold endTask
  simp only [hw, Bool.false_and, Bool.false_eq_true, if_false, finishOp_gone o hm, Option.isSome_none]

/-- TILE_TASK_COMPLETE of a task that runs. -/
theorem exec_tileTaskComplete_ends {op core : Nat} {s s1 : State} {o : EngOp} {r a w c : Rec} {fl : FFlags}
    (ho : mget s.ops op = some o) (hk : o.kind = .task r a w c (some core)) (hgo : o.goes = true)
    (htok : s.tokenFree o.place.die = true) (hrun : taskRun s o.agent r a w c = .ok (fl, s1)) :
    exec (.tileTaskComplete op) s = .next (endTask s1 op { o with flags := fl } r) := by
  rw [exec]
  unfold execTileTaskComplete
  simp only [ho, hk, EngOp.not_failed_of_goes hgo, hgo, htok, hrun, Bool.not_true, Bool.or_false, Bool.false_eq_true,
    if_false]

/-! ### A collective of one rank -/

/-- A communicator of one rank sends nothing to other endpoints. -/
theorem sendPart_alone (s : State) (cid : Nat) {en : CommEntry} (bs : List Byte) (hp : en.np = 1#16) (hl : en.nloc = 1#16)
    (hr : en.rbase = 0#16) : sendPart s cid en bs = some (s.spend cid 0) := by
  simp [sendPart, hp, hl, hr, upFrom, State.sendBytes]

/-- A call of which nothing has come. -/
theorem State.callOf_fresh {s : State} (h : s.calls = []) (vf n call : Nat) : s.callOf vf n call = ⟨vf, n, call, [], none, []⟩ := by
  simp [State.callOf, h]

/-- The one local rank's end drops the call. -/
theorem endColl_alone {s : State} {op gid : Nat} {o : EngOp} (c : CommCall) (rank : Nat) (ho : o.gid = some gid)
    (hc : s.calls = []) :
    endColl s op o c rank 1 none = finishOp s op { o with err := none, recd := none, stall := none, held := false, done := [(0, 1)] } := by
  have hset : s.setCall { c with ended := rank :: c.ended.filter (· != rank) } 1 = s := by
    have hcalls : { s with calls := [] } = s := by rw [← hc]
    simpa [State.setCall, hc] using hcalls
  simp [endColl, hset, ho]

/-- COLLECTIVE_COMPLETE of a communicator of one rank whose read and write go through. -/
theorem exec_collectiveComplete_alone {op n call gid : Nat} {d : Rec} {s s1 s2 : State} {o : EngOp} {en : CommEntry}
    {bs : List Byte} (ho : mget s.ops op = some o) (hk : o.kind = .coll d 0 call) (hgid : o.gid = some gid)
    (hgo : o.goes = true) (hdone : o.done = []) (hen : collEntry s o.cid (cdComm d) = some (n, en)) (hp : en.np = 1#16)
    (hl : en.nloc = 1#16) (hr : en.rbase = 0#16) (hcalls : s.calls = [])
    (hget : engGet s o.agent false (cdSrc d) (collIn d 1 0) = .ok (bs, s1)) (hlen : bs.length = collIn d 1 0)
    (hput : engPut (s1.spend o.cid 0) o.agent false (cdDst d) (collOut d 0 [] [bs]) = .ok s2) (hc2 : s2.calls = []) :
    exec (.collectiveComplete op [] []) s =
      .next (finishOp s2 op { o with err := none, recd := none, stall := none, held := false, done := [(0, 1)] }) := by
  have hcoll : o.kind.collOf = some (d, 0, call) := by rw [hk]; rfl
  have hgone : (o.done != []) = false := by simp [hdone]
  have hnp : en.np.toNat = 1 := by rw [hp]; rfl
  have hnl : en.nloc.toNat = 1 := by rw [hl]; rfl
  rw [exec]
  unfold execCollectiveComplete
  simp only [ho, hcoll, hen, hgo, hgone, EngOp.not_failed_of_goes hgo, Bool.not_true, Bool.and_false, Bool.or_false,
    Bool.false_eq_true, if_false, hnp, hnl, State.callOf_fresh hcalls, CommCall.part, List.find?_nil, Option.map_none,
    Option.isSome_none, hget, sendPart_alone s1 o.cid bs hp hl hr]
  have hagree : (⟨vfOf o.cid, n, call, [(0, d, bs)], none, []⟩ : CommCall).agrees d 1 = true := by
    simp [CommCall.agrees, hlen]
  simp only [List.filter_nil, List.nil_append, upFrom, List.any_cons, List.any_nil, List.find?_cons_of_pos, beq_self_eq_true,
    Option.map_some, Option.isNone_some, Bool.or_false, Bool.false_eq_true, if_false, hagree, Bool.not_true, List.map_cons,
    List.map_nil, Option.getD_some, Option.getD_none, ite_self, hput, endColl_alone _ 0 hgid hc2]

/-! ### Copies of packets -/

theorem Queue.settle_active (u : Queue) : u.settle.active = u.active := by
  unfold Queue.settle; split <;> rfl

theorem Queue.settle_ridx (u : Queue) : u.settle.ridx = u.ridx := by
  unfold Queue.settle; split <;> rfl

/-- What a packet passes on is clocks. -/
theorem passOn_keeps (s : State) (cid q : Nat) (p : Pkt) (know : Clock) :
    (passOn s cid q p know).ops = s.ops ∧ (passOn s cid q p know).mem = s.mem ∧
      ((passOn s cid q p know).queue cid q).active = (s.queue cid q).active ∧
      ((passOn s cid q p know).queue cid q).ridx = (s.queue cid q).ridx := by
  unfold passOn
  split
  · have hq := s.queue_modQueue_same cid q (fun u => { u with vc := clockJoin u.vc know })
    exact ⟨rfl, rfl, (congrArg Queue.active hq :), (congrArg Queue.ridx hq :)⟩
  · exact ⟨rfl, rfl, rfl, rfl⟩

/-- The queue when its one started packet completes well. -/
theorem endPacket_one {s : State} {cid q : Nat} {p : Pkt} (ha : (s.queue cid q).active = [p]) (hs : pkSig p.body = 0)
    (know : Clock) :
    endPacket s cid q p.ser stOk know = ((passOn s cid q p know).modQueue cid q (fun u =>
      { u with active := u.active.filter (fun x => x.ser != p.ser) }.settle), true) := by
  have hw : writeSignal s cid q p stOk know = (s, true) := by unfold writeSignal; rw [if_pos (Or.inl hs)]
  have hf : (s.queue cid q).active.find? (fun x => x.ser == p.ser) = some p := by simp [ha]
  unfold endPacket completePacket
  simp only [hf, hw, if_true]

/-- COPY_PACKET_COMPLETE of a copy whose bytes have performed. -/
theorem exec_copyPacketComplete_ends {op cid q a b len : Nat} {s : State} {o : EngOp} {p : Pkt}
    (ho : mget s.ops op = some o) (hk : o.kind = .packet cid q p.ser a b len) (hn : len ≤ o.count)
    (hgo : s.procGoes cid = true) (ha : (s.queue cid q).active = [p]) (hs : pkSig p.body = 0) (he : o.err = none) :
    ∃ u : State, exec (.copyPacketComplete op) s = .next { u with ops := mdel s.ops op } ∧ u.mem = s.mem ∧
      (u.queue cid q).active = [] ∧ (u.queue cid q).ridx = (s.queue cid q).ridx := by
  obtain ⟨hops, hmem, hact, hridx⟩ := passOn_keeps s cid q p o.hb.now
  have hlt : ¬o.count < len := by omega
  refine ⟨(passOn s cid q p o.hb.now).modQueue cid q (fun u =>
      { u with active := u.active.filter (fun x => x.ser != p.ser) }.settle), ?_, hmem, ?_, ?_⟩
  · rw [exec]
    unfold execCopyPacketComplete
    simp only [ho, hk, he, Option.isSome_none, Bool.false_eq_true, if_false, hlt, decide_false, hgo, Bool.not_true,
      Bool.or_false, endPacket_one ha hs, State.modQueue_ops, hops]
  · rw [State.queue_modQueue_same, Queue.settle_active, hact, ha]
    simp
  · rw [State.queue_modQueue_same, Queue.settle_ridx, hridx]

/-- Settles O25: each event by the lemma that says what it does, and the ends of operations by `finishOp_next`. -/
theorem engineEvents : Obligations.EngineEvents := by
  unfold Obligations.EngineEvents
  refine ⟨?_, ?_, ?_, ?_, ?_, ?_, ?_⟩
  · intro op off len gid s s1 o c ho hc _ hcb hgo hl htot hdone hmv h1
    refine ⟨_, exec_copyDataPerformed_moves ho hc hcb hgo hl htot hdone hmv, ?_, rfl, rfl⟩
    exact mget_mmodify_same _ (mget_mmodify_same _ h1)
  · intro op s o gid g i s1 ho hgid hg hi hctx hn hb hm
    have hex : exec i s = .next (finishOp s1 op o) := by
      rcases hi with ⟨⟨r, a, b, hk, hc, hw, he⟩, rfl, rfl⟩ | ⟨⟨r, row, dst, hk, hgo, hmv⟩, rfl⟩ |
        ⟨⟨n, r, i0, i1, tl, hk, hgo, hst⟩, rfl⟩
      · exact exec_copyComplete_ends ho hk hc hw he
      · exact exec_gatherComplete_ends ho hk hgo hmv
      · exact exec_tileTransferComplete_stores ho hk hgo hst
    obtain ⟨g1, hg1, hx⟩ := Option.map_eq_some_iff.1 hctx
    obtain ⟨g', hg', htl, herr, hiss, hgone, hmem⟩ := finishOp_next hgid hg1 (hx ▸ hn) (hx ▸ hb) hm
    exact ⟨_, g', hex, hg', htl, hx ▸ herr, hx ▸ hiss, hgone, hmem⟩
  · intro op n gid i0 i1 r s s1 o g x ho hk hgid hg hgo hld h1
    obtain ⟨g1, hg1⟩ := Option.isSome_iff_exists.1 h1
    have hset : (s1.modGroup gid (fun g => g.setTile n x)).group gid = some (g1.setTile n x) := by
      rw [State.group_modGroup_same, hg1, Option.map_some]
    refine ⟨_, _, exec_tileTransferComplete_loads ho hk hgid hg hgo hld, finishOp_group hgid hset, ?_, ?_⟩
    · rw [Group.complete_tile, Group.tile_setTile]
    · simp
  · intro op core s o r a w c ho hk hd hin hmx hon hb hf
    refine ⟨_, exec_tileTaskDispatch_goes ho hk hd hin hmx hon hb hf, mget_mmodify_same _ ho, ?_, ?_, rfl, rfl⟩
    · exact fun x hx hxk => State.gongSend_sent _ _ _ hx hxk
    · simp [State.gongSend]
  · intro op core s s1 o r a w c fl ho hk hgo htok hw hrun hm
    refine ⟨_, exec_tileTaskComplete_ends ho hk hgo htok hrun, ?_⟩
    rw [endTask_plain hw hm]
    exact ⟨finishOp_gone _ hm, State.gongDrop_inuse .., finishOp_mem .., fun x hx => State.gongDrop_ne _ _ _ _ hx⟩
  · intro op n rank call gid d s s1 s2 o en bs ho hk hgid hgo hdone hen hp hl hr hrank hcalls hget hlen hput _ hc2 hm
    subst hrank
    refine ⟨_, exec_collectiveComplete_alone ho hk hgid hgo hdone hen hp hl hr hcalls hget hlen hput hc2,
      finishOp_gone _ hm, finishOp_mem .., ?_⟩
    rw [finishOp_calls, hc2]
  · intro op cid q a b len s o p ho hk hn hgo ha hs he hm
    obtain ⟨u, hex, hmem, hact, hridx⟩ := exec_copyPacketComplete_ends ho hk hn hgo ha hs he
    exact ⟨_, hex, mget_mdel_same op hm, hact, hridx, hmem⟩

end Sys2Proof.Machine

namespace Sys2Proof.Machine

/-! ## Instances of the matrix collectives (R66, R194, R198, R234) -/

/-- R194: an MMAA whose one member fails its own checks traps that member and leaves the machine alone. The checks are of
the thread as it issues, the marked sources that it owes freed (R66). -/
theorem mmaaInstance_member_traps {s : State} {gid sg : Nat} {g : Group} {k : Kernel} {f : Fields} {p : Arr} {st : MmaaStep}
    {th : Thread} {x : Cause × W64 × W32} (hth : mget g.threads p.t = some th)
    (hst : mmaaShape s gid sg g k f p.b = some st) (hx : mmaaMemberFault th.payRel (unitIx f.c - 4) st = some x) :
    mmaaInstance s gid sg g k f [p] = .done s [(p.t, x)] := by
  simp [mmaaInstance, hst, hth, hx]

/-- The matrix rig with its thread at a quota of 0, holding v8 and owing its release: while v8 is held, an MMAA with its
accumulator there allocates nothing; once v8 is freed, the MMAA allocates it anew. -/
def overQuotaRig : State :=
  Tests.rigMx.modThread 0 0 (fun th => { th with regs := [(8, 0#32)], owedRel := [8], quota := 0 })

/-- The MMAA of the rig has a shape, and its member passes the checks before the release, but not after it. -/
theorem overQuotaRig_faults_after_release : ∃ g, overQuotaRig.group 0 = some g ∧ ∃ k, overQuotaRig.kernel 0 = some k ∧
    ∃ th, mget g.threads 0 = some th ∧ ∃ st, mmaaShape overQuotaRig 0 0 g k Tests.fMma 0#64 = some st ∧
      mmaaMemberFault th 0 st = none ∧ mmaaMemberFault th.payRel 0 st = some (.quotaExceeded, 0#64, 0x10000#32) :=
  Tests.byDec (Tests.decO fun _ => Tests.decO fun _ => Tests.decO fun _ => Tests.decO fun _ => inferInstance)
    (by decide +kernel)

/-- Refutes O59: its clause of MMAA makes the member's checks on the thread as it waits, and does not ask that what the
thread holds is within its quota (R234). One that holds more, and owes the release of an accumulator register, passes them
there, for it allocates nothing; the execution frees the register first (R66), and the member raises `quota-exceeded`
(R198). -/
theorem not_matrixCollectives : ¬ Obligations.MatrixCollectives := by
  unfold Obligations.MatrixCollectives Spec.MatrixInstances
  rintro ⟨-, -, -, hmmaa, -⟩
  obtain ⟨g, hg, k, -, th, hth, st, hst, hwaiting, hfreed⟩ := overQuotaRig_faults_after_release
  obtain ⟨u, -, -, hdone, -⟩ := hmmaa overQuotaRig 0 0 g k Tests.fMma ⟨0, 0, 0#64, 0#64, 0#64⟩ st th hg hth hst hwaiting
  have htraps : mmaaInstance overQuotaRig 0 0 g k Tests.fMma [⟨0, 0, 0#64, 0#64, 0#64⟩] =
      .done overQuotaRig [(0, .quotaExceeded, 0#64, 0x10000#32)] := mmaaInstance_member_traps hth hst hfreed
  rw [htraps] at hdone
  cases hdone

end Sys2Proof.Machine
